-- ==== Sys2Proof/Word.lean ====
section
/-! DEFINITION. The units of 00 R4, R5 (byte, word, dword, the 64-byte block) and the program counter. -/

namespace Sys2Proof

/-- A byte, R5. -/
abbrev Byte := BitVec 8
/-- An instruction word, R5. -/
abbrev Word := BitVec 32
/-- A dword, R5; an x register, and a v register in its low half. -/
abbrev Dword := BitVec 64
/-- A 64-byte block or line, byte 0 in the low bits (R4). -/
abbrev Block := BitVec 512
/-- A program counter, R170. -/
abbrev Pc := BitVec 57

end Sys2Proof
end

