-- ==== Sys2Proof/Config.lean ====
section
/-! DEFINITION. What the manual leaves open: free values (opaque, no body), and the fixed figures of the part. -/

namespace Sys2Proof.Config

/-- The n-th undefined value (00 R7): some value of the width it is cut to. Nothing can evaluate it (log 3). -/
opaque free : Nat → Block

/-- Which of the enabled moves comes next, where no rule orders them (05 R152, R162; log 2). -/
opaque pick : Nat → Nat

/-- Whether a pass that may be fused is fused (06 R179), by free-value number. -/
opaque fuse : Nat → Bool

/-- Cycles that a load or a save takes (13 R444), by free-value number. -/
opaque moveCycles : Nat → Nat

/-- A count of busy or stalled cycles that only timing fixes (16 R428), by free-value number. -/
opaque busy : Nat → Nat

/-- Seeds of a sketch after its n-th draw (16 R421): row and which of a, b. -/
opaque seed : Nat → Nat → Nat → Nat

/-- The rounding of a transcendental result where the bounds of the evaluation do not decide it (log 14). -/
opaque unresolved : Nat → Nat → Nat

/-- The ciphertext of a line in a checkpoint image (15 R413), by key slot, epoch, line number and contents: the keys are not
in the model (log 32). -/
opaque cipher : Nat → Nat → Nat → Block → Block

/-- The address in the record of an uncorrectable error that has none: in a register or a return stack (14 R396, R398). -/
opaque eccVa : Nat

/-- What chooses the set of an L2 slice that a line falls in (03 R92 states no rule), by line number (log 44). -/
opaque l2Hash : Nat → Nat

/-- What chooses the set of a core's TLB that a translation falls in (01 R26), by context, page and level (log 45). -/
opaque tlbSet : Nat → Nat → Nat → Nat

/-- Whether a registration whose overflow record software has written over or unmapped is still served (13 R374), by
free-value number (log 47). -/
opaque served : Nat → Bool

/-- The hash that chooses the translation home (01 R27), by context and VA[56:21]. -/
opaque tlbHash : Nat → Nat → Nat

/-- How many records of the event queue the management cores have taken out in a cycle (14 R397), by free-value number. -/
opaque taken : Nat → Nat

/-- Which translation leaves a full set or a full slice (01 R26, R27), by free-value number. -/
opaque victim : Nat → Nat

/-- Whether a line request has not yet left its core (03 R102), by its number and the cycle. -/
opaque waits : Nat → Nat → Bool

/-- The address in the record of a marker that is taken as poison (06 R186, R187), which nothing fixes. -/
opaque markerVa : BitVec 64

/-- Cores of the mesh (00 R1). -/
def cores : Nat := 576
/-- Columns and rows of the mesh (00 R1). -/
def meshSide : Nat := 24
/-- Scratchpad bytes per core (03 R84). -/
def spadBytes : Nat := 0x40000
/-- Queue memory bytes per core (03 R81). -/
def queueBytes : Nat := 131072
/-- Device memory bytes (03 R98). -/
def deviceBytes : Nat := 2 ^ 39
/-- Collector entries (03 R102). -/
def collectorEntries : Nat := 1536
/-- Page walkers (01 R29). -/
def walkers : Nat := 64
/-- Pages of a core with misses outstanding (01 R30). -/
def missPages : Nat := 32
/-- TLB entries of a core (01 R26). -/
def tlbEntries : Nat := 512
/-- Second-level entries of a slice (01 R27). -/
def l2tlbEntries : Nat := 4096
/-- Ways of a core's TLB (01 R26). -/
def tlbWays : Nat := 8
/-- Sets of a core's TLB (01 R26). -/
def tlbSets : Nat := tlbEntries / tlbWays
/-- Ways of an L2 slice (03 R92). -/
def l2Ways : Nat := 16
/-- Sets of an L2 slice (03 R92). -/
def l2Sets : Nat := 1024
/-- Replay-table entries (06 R188). -/
def replayEntries : Nat := 64
/-- Event queue records (14 R397). -/
def eventQueue : Nat := 4096
/-- Admission queue records (13 R366). -/
def admissionQueue : Nat := 256
/-- Node table (13 R365). -/
def nodeTable : Nat := 4096
/-- Inline waiter records of an event (12 R349). -/
def inlineWaiters : Nat := 8

end Sys2Proof.Config
end

