-- ==== Sys2Proof/Machine/Num.lean ====
section
/-! DEFINITION. Number formats and exact arithmetic: the element formats of 02 R45, decoding (R46), rounding and
conversion with their events (R74-R76), and IEEE operations on exact dyadic values (10 R287). -/

namespace Sys2Proof.Machine

/-- The formats of R45 and the integers of R50. -/
inductive NumFmt where
  | fp32 | fp16 | bf16 | e5m2 | e4m3 | e3m2 | e2m3 | e2m1 | ue4m3 | a96 | int8 | int4
  deriving DecidableEq, Repr

/-- A value: NaN (signalling or not), an infinity, or exactly (-1)^neg * m * 2^e. -/
inductive FVal where
  | nan (sig : Bool)
  | inf (neg : Bool)
  | fin (neg : Bool) (m : Nat) (e : Int)
  deriving DecidableEq, Repr

/-- Width of a format's code. -/
def NumFmt.width : NumFmt → Nat
  | .fp32 => 32 | .fp16 => 16 | .bf16 => 16 | .e5m2 => 8 | .e4m3 => 8 | .e3m2 => 6 | .e2m3 => 6
  | .e2m1 => 4 | .ue4m3 => 8 | .a96 => 96 | .int8 => 8 | .int4 => 4

/-- Exponent bits (R45). -/
def NumFmt.eb : NumFmt → Nat
  | .fp32 => 8 | .fp16 => 5 | .bf16 => 8 | .e5m2 => 5 | .e4m3 => 4 | .e3m2 => 3 | .e2m3 => 2
  | .e2m1 => 2 | .ue4m3 => 4 | .a96 => 15 | .int8 => 0 | .int4 => 0

/-- Fraction bits (R45). -/
def NumFmt.fb : NumFmt → Nat
  | .fp32 => 23 | .fp16 => 10 | .bf16 => 7 | .e5m2 => 2 | .e4m3 => 3 | .e3m2 => 2 | .e2m3 => 3
  | .e2m1 => 1 | .ue4m3 => 3 | .a96 => 80 | .int8 => 0 | .int4 => 0

/-- Bias (R45). -/
def NumFmt.bias : NumFmt → Nat
  | .fp32 => 127 | .fp16 => 15 | .bf16 => 127 | .e5m2 => 15 | .e4m3 => 7 | .e3m2 => 3 | .e2m3 => 1
  | .e2m1 => 1 | .ue4m3 => 7 | .a96 => 16383 | .int8 => 0 | .int4 => 0

/-- Does the format have an infinity (R45)? -/
def NumFmt.hasInf : NumFmt → Bool
  | .fp32 | .fp16 | .bf16 | .e5m2 | .a96 => true
  | _ => false

/-- Does an overflow on conversion give an infinity (R75)? E5M2 has one but clamps. -/
def NumFmt.overInf : NumFmt → Bool
  | .fp32 | .fp16 | .bf16 | .a96 => true
  | _ => false

/-- The NaN code a conversion writes (R75); none where the format has no NaN. -/
def NumFmt.nanCode : NumFmt → Option Nat
  | .fp32 => some 0x7FC00000
  | .fp16 => some 0x7E00
  | .bf16 => some 0x7FC0
  | .e5m2 => some 0x7E
  | .e4m3 => some 0x7F
  | .ue4m3 => some 0x7F
  | .a96 => some 0x7FFF80000000000000000000
  | _ => none

/-- The largest finite value L (R45, R75) as m * 2^e. -/
def NumFmt.largest : NumFmt → Nat × Int
  | .fp32 => (2 ^ 24 - 1, 104)
  | .fp16 => (2047, 5)
  | .bf16 => (255, 120)
  | .e5m2 => (7, 13)
  | .e4m3 => (7, 6)
  | .e3m2 => (7, 2)
  | .e2m3 => (15, -1)
  | .e2m1 => (6, 0)
  | .ue4m3 => (7, 6)
  | .a96 => (2 ^ 81 - 1, 16303)
  | .int8 => (127, 0)
  | .int4 => (7, 0)

/-- Is the format an integer one? -/
def NumFmt.isInt : NumFmt → Bool
  | .int8 | .int4 => true
  | _ => false

/-- FPSTAT event masks (07 R216). -/
def fNX : Nat := 1
def fOF : Nat := 2
def fUF : Nat := 4
def fSAT : Nat := 8
def fNV : Nat := 16
def fRANGE : Nat := 32

/-- An integer as an exact value; zero is +0. -/
def FVal.ofInt (x : Int) : FVal := .fin (x < 0) x.natAbs 0

/-- +0. -/
def FVal.zero : FVal := .fin false 0 0

/-- The sign changed. -/
def FVal.neg : FVal → FVal
  | .nan s => .nan s
  | .inf n => .inf (!n)
  | .fin n m e => .fin (!n) m e

/-- The sign cleared. -/
def FVal.abs : FVal → FVal
  | .nan s => .nan s
  | .inf _ => .inf false
  | .fin _ m e => .fin false m e

def FVal.isNan : FVal → Bool
  | .nan _ => true
  | _ => false

def FVal.isSnan : FVal → Bool
  | .nan s => s
  | _ => false

def FVal.isInf : FVal → Bool
  | .inf _ => true
  | _ => false

def FVal.isZero : FVal → Bool
  | .fin _ 0 _ => true
  | _ => false

def FVal.sign : FVal → Bool
  | .nan _ => false
  | .inf n => n
  | .fin n _ _ => n

/-- Decode a code (R46, R50). A NaN with a clear top fraction bit is signalling in the formats with an IEEE NaN
(R287); the escapes are not decoded here. -/
def fpDecode (f : NumFmt) (c : Nat) : FVal :=
  if f.isInt then FVal.ofInt (sextN f.width c)
  else
    let e := bits c (f.eb + f.fb - 1) f.fb
    let m := bits c (f.fb - 1) 0
    let s := if f = .ue4m3 then false else bit c (f.width - 1)
    let top := 2 ^ f.eb - 1
    if f.hasInf && e = top then
      if m = 0 then .inf s else .nan (!bit m (f.fb - 1))
    else if (f = .e4m3 || f = .ue4m3) && e = top && m = 7 then .nan false
    else if e = 0 then .fin s m (1 - (f.bias : Int) - f.fb)
    else .fin s (2 ^ f.fb + m) ((e : Int) - f.bias - f.fb)

/-- Compare m1 * 2^e1 with m2 * 2^e2. -/
def dyCmp (m1 : Nat) (e1 : Int) (m2 : Nat) (e2 : Int) : Ordering :=
  if e1 ≤ e2 then compare m1 (m2 * 2 ^ (e2 - e1).toNat)
  else compare (m1 * 2 ^ (e1 - e2).toNat) m2

/-- The signed mantissas of two finite values on their common exponent. -/
def align (n1 : Bool) (m1 : Nat) (e1 : Int) (n2 : Bool) (m2 : Nat) (e2 : Int) : Int × Int × Int :=
  let e := min e1 e2
  let a : Int := (m1 * 2 ^ (e1 - e).toNat : Nat)
  let b : Int := (m2 * 2 ^ (e2 - e).toNat : Nat)
  (if n1 then -a else a, if n2 then -b else b, e)

/-- Exact sum with the zero-sign rule of round to nearest (R289), and whether the operation is invalid. -/
def FVal.add (a b : FVal) : FVal × Bool :=
  match a, b with
  | .nan s, y => (.nan false, s || y.isSnan)
  | x, .nan s => (.nan false, s || x.isSnan)
  | .inf n, .inf k => if n = k then (.inf n, false) else (.nan false, true)
  | .inf n, _ => (.inf n, false)
  | _, .inf n => (.inf n, false)
  | .fin n1 m1 e1, .fin n2 m2 e2 =>
    let (x, y, e) := align n1 m1 e1 n2 m2 e2
    let z := x + y
    if z = 0 then (.fin (n1 && n2 && m1 = 0 && m2 = 0) 0 0, false)
    else (.fin (z < 0) z.natAbs e, false)

/-- Exact product, and whether the operation is invalid. -/
def FVal.mul (a b : FVal) : FVal × Bool :=
  match a, b with
  | .nan s, y => (.nan false, s || y.isSnan)
  | x, .nan s => (.nan false, s || x.isSnan)
  | .inf n, y => if y.isZero then (.nan false, true) else (.inf (n != y.sign), false)
  | x, .inf n => if x.isZero then (.nan false, true) else (.inf (n != x.sign), false)
  | .fin n1 m1 e1, .fin n2 m2 e2 => (.fin (n1 != n2) (m1 * m2) (e1 + e2), false)

/-- Exact a * b + c, and whether the operation is invalid: as the product of zero and infinity is whatever the addend (DESIGN CHOICE,
log 77). -/
def FVal.fma (a b c : FVal) : FVal × Bool :=
  let p := a.mul b
  let r := p.1.add c
  (r.1, p.2 || r.2)

/-- Ordered comparison; none when an operand is a NaN. Zeros are equal. -/
def FVal.cmp (a b : FVal) : Option Ordering :=
  match a, b with
  | .nan _, _ => none
  | _, .nan _ => none
  | .inf n, .inf k => some (compare (b2n (!n)) (b2n (!k)))
  | .inf n, _ => some (if n then .lt else .gt)
  | _, .inf n => some (if n then .gt else .lt)
  | .fin n1 m1 e1, .fin n2 m2 e2 =>
    let (x, y, _) := align n1 m1 e1 n2 m2 e2
    some (compare x y)

/-- k on the grid of spacing 2^q nearest to m * 2^e, ties to even (R74). -/
def rneGrid (m : Nat) (e q : Int) : Nat :=
  if q ≤ e then m * 2 ^ (e - q).toNat
  else
    let s := (q - e).toNat
    let k := m / 2 ^ s
    let r := m % 2 ^ s
    if 2 * r > 2 ^ s || (2 * r = 2 ^ s && k % 2 = 1) then k + 1 else k

/-- `round_to` (R74) on a positive value: the integer k and the exponent of the grid. -/
def roundTo (f : NumFmt) (m : Nat) (e : Int) : Nat × Int :=
  if f.isInt then (rneGrid m e 0, 0)
  else
    let lg : Int := (log2Floor m : Int) + e
    let ee := max lg (1 - (f.bias : Int))
    let q := ee - f.fb
    (rneGrid m e q, q)

/-- The code of sign s and magnitude k * 2^q, on the format's grid and in its range. -/
def encodeMag (f : NumFmt) (s : Bool) (k : Nat) (q : Int) : Nat :=
  if f.isInt then wrapN f.width (if s then -(k : Int) else k)
  else
    let (k, q) := if k = 2 ^ (f.fb + 1) then (2 ^ f.fb, q + 1) else (k, q)
    let mag := if k < 2 ^ f.fb then k else ((q + f.fb + f.bias).toNat) * 2 ^ f.fb + (k - 2 ^ f.fb)
    let sgn := if f = .ue4m3 then 0 else b2n s
    if f = .e2m1 && mag = 0 then 0 else sgn * 2 ^ (f.width - 1) + mag

/-- The code of ±L (R75). -/
def largestCode (f : NumFmt) (s : Bool) : Nat :=
  let (m, e) := f.largest
  if f.isInt then wrapN f.width (if s then -(m : Int) else m)
  else encodeMag f s (roundTo f m e).1 (roundTo f m e).2

/-- The code of ±∞. -/
def infCode (f : NumFmt) (s : Bool) : Nat :=
  b2n s * 2 ^ (f.width - 1) + (2 ^ f.eb - 1) * 2 ^ f.fb

/-- `convert` (R75) and its events (R76). invalid says that the operation that produced x was invalid. A NaN into a
format without a NaN code gives code 0; the caller applies R77 or R295. -/
def convert (f : NumFmt) (x : FVal) (invalid : Bool := false) : Nat × Nat :=
  let nv := if invalid then fNV else 0
  match x with
  | .nan sig =>
    match f.nanCode with
    | some c => (c, nv ||| if sig then fNV else 0)
    | none => (0, fNV)
  | .inf s =>
    if f.hasInf then (infCode f s, nv) else (largestCode f s, nv ||| fOF ||| fSAT ||| fNX)
  | .fin s m e =>
    if m = 0 then (encodeMag f s 0 (1 - (f.bias : Int) - f.fb), nv)
    else
      let (k, q) := roundTo f m e
      let (lm, le) := f.largest
      if dyCmp k q lm le = .gt then
        if f.overInf then (infCode f s, nv ||| fOF ||| fNX)
        else (largestCode f s, nv ||| fOF ||| fSAT ||| fNX)
      else
        let inexact := dyCmp k q m e != .eq
        let tiny := k = 0 || (!f.isInt && k < 2 ^ f.fb)
        (encodeMag f s k q,
          nv ||| (if inexact then fNX else 0) ||| (if inexact && tiny then fUF else 0))

/-- Bits kept below the leading bit of an inexact quotient or root; the last bit says that more follows. -/
def jamBits : Nat := 320

/-- The quotient (m1 * 2^e1) / (m2 * 2^e2), m2 > 0, exact or with its last bit set: it rounds as the exact quotient
does in every format. -/
def dyDiv (m1 : Nat) (e1 : Int) (m2 : Nat) (e2 : Int) : Nat × Int :=
  let s := jamBits + log2Floor m2
  let n := m1 * 2 ^ s
  (2 * (n / m2) + (if n % m2 = 0 then 0 else 1), e1 - e2 - s - 1)

/-- Exact quotient of two values (R292), and whether the operation is invalid. -/
def FVal.div (a b : FVal) : FVal × Bool :=
  match a, b with
  | .nan s, y => (.nan false, s || y.isSnan)
  | x, .nan s => (.nan false, s || x.isSnan)
  | .inf _, .inf _ => (.nan false, true)
  | .inf n, y => (.inf (n != y.sign), false)
  | x, .inf n => (.fin (x.sign != n) 0 0, false)
  | .fin n1 m1 e1, .fin n2 m2 e2 =>
    if m2 = 0 then
      if m1 = 0 then (.nan false, true) else (.inf (n1 != n2), false)
    else if m1 = 0 then (.fin (n1 != n2) 0 0, false)
    else
      let (m, e) := dyDiv m1 e1 m2 e2
      (.fin (n1 != n2) m e, false)

/-- Integer square root, one bit of the result at a time. -/
def isqrtAux (n : Nat) : Nat → Nat → Nat
  | 0, r => r
  | k + 1, r =>
    let r' := r + 2 ^ k
    isqrtAux n k (if r' * r' ≤ n then r' else r)

/-- The greatest r with r * r ≤ n. -/
def isqrt (n : Nat) : Nat := isqrtAux n (log2Floor n / 2 + 1) 0

/-- Square root of m * 2^e, exact or with its last bit set. -/
def dySqrt (m : Nat) (e : Int) : Nat × Int :=
  let s : Nat := 2 * jamBits + (if (e % 2) = 0 then 0 else 1)
  let n := m * 2 ^ s
  let r := isqrt n
  (2 * r + (if r * r = n then 0 else 1), (e - s) / 2 - 1)

/-- Square root (R292), and whether the operation is invalid. -/
def FVal.sqrt : FVal → FVal × Bool
  | .nan s => (.nan false, s)
  | .inf n => if n then (.nan false, true) else (.inf false, false)
  | .fin n m e =>
    if m = 0 then (.fin n 0 0, false)
    else if n then (.nan false, true)
    else
      let (r, x) := dySqrt m e
      (.fin false r x, false)

/-- 1 / √a (R292). -/
def FVal.rsqrt : FVal → FVal × Bool
  | .nan s => (.nan false, s)
  | .inf n => if n then (.nan false, true) else (.fin false 0 0, false)
  | .fin n m e =>
    if m = 0 then (.inf n, false)
    else if n then (.nan false, true)
    else
      -- 1/√(m 2^e) with e made even: √(2^(2s) / m) * 2^(-s - e/2)
      let (m, e) := if e % 2 = 0 then (m, e) else (2 * m, e - 1)
      let s := jamBits + log2Floor m
      let r := isqrt (2 ^ (2 * s) / m)
      (.fin false (2 * r + (if r * r * m = 2 ^ (2 * s) then 0 else 1)) (-(s : Int) - e / 2 - 1), false)

/-- FP32 code to value. -/
def f32 (c : Nat) : FVal := fpDecode .fp32 c

/-- Convert to FP32, dropping the events. -/
def toF32 (x : FVal) : Nat := (convert .fp32 x).1

/-- The default FP32 NaN (R287). -/
def nan32 : Nat := 0x7FC00000

end Sys2Proof.Machine
end

