-- ==== Sys2Proof/Machine/Elem.lean ====
section
/-! DEFINITION. The functions of 10 R291 that are not algebraic: 2^x, log2 x, sin(πx), cos(πx), each as an interval of
fixed-point bounds that decides the single rounding (R287); where the bounds do not decide it the model takes one of
the two neighbours, freely (log 14). -/

namespace Sys2Proof.Machine

/-- Fraction bits of the fixed-point evaluation. -/
def prec : Nat := 320

/-- 1.0 in fixed point. -/
def one : Nat := 2 ^ prec

/-- The sum over k < n of (±) u_k / (2k + 1), where u_0 = t and u_(k+1) = u_k * num / den. -/
def oddSeries (alt : Bool) (num den : Nat) : Nat → Nat → Nat → Int
  | 0, _, _ => 0
  | n + 1, k, t =>
    let c : Int := (t / (2 * k + 1) : Nat)
    (if alt && k % 2 = 1 then -c else c) + oddSeries alt num den n (k + 1) (t * num / den)

/-- ln 2 = 2 artanh(1/3), within 2^8 units. -/
def ln2 : Nat := (2 * oddSeries false 1 9 110 0 (one / 3)).toNat

/-- π = 16 arctan(1/5) - 4 arctan(1/239), within 2^12 units. -/
def piFix : Nat := (16 * oddSeries true 1 25 80 0 (one / 5) - 4 * oddSeries true 1 57121 30 0 (one / 239)).toNat

/-- The sum over k ≤ n of t^k / k!, t in fixed point. -/
def expSeries (t : Nat) : Nat → Nat → Nat → Nat
  | 0, _, _ => 0
  | n + 1, k, u => u + expSeries t n (k + 1) (u * t / one / (k + 1))

/-- The alternating sums of sine (k odd) and cosine (k even) of t, from the term u of degree k. -/
def trigSeries (t2 : Nat) : Nat → Nat → Nat → Bool → Int
  | 0, _, _, _ => 0
  | n + 1, k, u, neg =>
    (if neg then -(u : Int) else u) + trigSeries t2 n (k + 2) (u * t2 / one / ((k + 1) * (k + 2))) (!neg)

/-- Error bound of every evaluation below, in units of 2^-prec. -/
def evalErr : Nat := 2 ^ 24

/-- Round an irrational value known to lie within evalErr units of v * 2^(e), v > 0. -/
def convertNear (f : NumFmt) (neg : Bool) (v : Nat) (e : Int) : Nat × Nat :=
  let lo := convert f (.fin neg (v - evalErr) e)
  let hi := convert f (.fin neg (v + evalErr) e)
  if lo.1 = hi.1 then (lo.1, lo.2 ||| hi.2)
  else if Config.unresolved lo.1 hi.1 % 2 = 0 then lo else hi

/-- The integer part (floor) of a finite value and its fraction in fixed point. -/
def floorFrac (neg : Bool) (m : Nat) (e : Int) : Int × Nat :=
  let s : Int := if neg then -(m : Int) else m
  if e ≥ 0 then (s * (2 ^ e.toNat : Nat), 0)
  else
    let d : Int := (2 ^ (-e).toNat : Nat)
    let i := s / d
    let r := (s - i * d).toNat
    (i, if e + prec ≥ 0 then r * 2 ^ (e + prec).toNat else r / 2 ^ (-(e + prec)).toNat)

/-- convert(2^x, f) for exact x (R291, 04 R132, R133). -/
def exp2Conv (f : NumFmt) (x : FVal) : Nat × Nat :=
  match x with
  | .nan s => convert f (.nan s)
  | .inf n => convert f (if n then .fin false 0 0 else .inf false)
  | .fin neg m e =>
    let (i, fr) := floorFrac neg m e
    if m = 0 || (e ≥ 0 || m % 2 ^ (-e).toNat = 0) then
      -- an exact power of two; far outside every format it is cut to one as far outside
      convert f (.fin false 1 (max (-40000) (min 40000 i)))
    else if i > 40000 then convert f (.fin false 3 40000)
    else if i < -40000 then convert f (.fin false 3 (-40000))
    else convertNear f false (expSeries (fr * ln2 / one) 90 0 one) (i - prec)

/-- convert(log2 x, f) (R292), x not NaN. -/
def log2Conv (f : NumFmt) (x : FVal) : Nat × Nat :=
  match x with
  | .nan s => convert f (.nan s)
  | .inf n => if n then convert f (.nan false) true else convert f (.inf false)
  | .fin neg m e =>
    if m = 0 then convert f (.inf true)
    else if neg then convert f (.nan false) true
    else
      let l := log2Floor m
      let i : Int := (l : Int) + e
      if m = 2 ^ l then convert f (FVal.ofInt i)
      else
        -- m / 2^l = (1 + z) / (1 - z) with z = (m - 2^l) / (m + 2^l)
        let z := (m - 2 ^ l) * one / (m + 2 ^ l)
        let ln := 2 * oddSeries false ((m - 2 ^ l) ^ 2) ((m + 2 ^ l) ^ 2) 110 0 z
        let lg := ln * (one : Int) / ln2
        let v := i * (one : Int) + lg
        convertNear f (v < 0) v.natAbs (-(prec : Int))

/-- sin(πu) and cos(πu) in fixed point for u in [0, 1/2]. -/
def sincosPi (u : Nat) : Nat × Nat :=
  let t := u * piFix / one
  let t2 := t * t / one
  ((trigSeries t2 40 1 t false).toNat, (trigSeries t2 40 0 one false).toNat)

/-- convert(sin(πx), f) for the exact fraction a in [0, 2) in fixed point, a not a multiple of 1/2. -/
def sinPiFix (f : NumFmt) (a : Nat) : Nat × Nat :=
  let neg := a ≥ one
  let r := a % one
  let u := if 2 * r > one then one - r else r
  convertNear f neg (if 4 * u ≤ one then (sincosPi u).1 else (sincosPi (one / 2 - u)).2) (-(prec : Int))

/-- convert(sin(π(x + shift/2)), f) for finite x: shift 0 is sinPi, shift 1 cosPi. At a multiple of 1/2 the value is
exact; zero and its sign are the caller's (R292). -/
def sinPiShift (f : NumFmt) (shift : Nat) (neg : Bool) (m : Nat) (e : Int) : Nat × Nat :=
  let (i, fr) := floorFrac neg m e
  let a := ((i % 2).toNat * one + fr + shift * (one / 2)) % (2 * one)
  if a = one / 2 then convert f (.fin false 1 0)
  else if a = one + one / 2 then convert f (.fin true 1 0)
  else if a % one = 0 then convert f .zero
  else sinPiFix f a

/-- FSIN (R291, R292). -/
def sinPiConv (f : NumFmt) (x : FVal) : Nat × Nat :=
  match x with
  | .nan s => convert f (.nan s)
  | .inf _ => convert f (.nan false) true
  | .fin neg m e =>
    if m = 0 || e ≥ 0 || m % 2 ^ (-e).toNat = 0 then convert f (.fin neg 0 0)
    else sinPiShift f 0 neg m e

/-- FCOS (R291, R292). -/
def cosPiConv (f : NumFmt) (x : FVal) : Nat × Nat :=
  match x with
  | .nan s => convert f (.nan s)
  | .inf _ => convert f (.nan false) true
  | .fin neg m e => sinPiShift f 1 neg m e

end Sys2Proof.Machine
end

