-- ==== Sys2Proof/Syntax.lean ====
section
/-! DEFINITION. The syntax: operand records of the formats of 07 R204, the names of teams, groups and threads
(06 R169), the operands of events, and `Instr`, one constructor per row of the opcode table. The chain bit is not
part of an instruction: it belongs to the word (07 R195). -/

namespace Sys2Proof

/-- A team: job, cluster index in the grid, TEAM index in the cluster (06 R169). -/
structure TeamKey where
  job : Nat
  clu : Nat
  idx : Nat
  deriving DecidableEq, Repr

/-- A group of a team: execute or access slice, quadrant (0 in the access slice), group index (06 R169). -/
structure GroupKey where
  team : TeamKey
  exe : Bool
  quad : Nat
  grp : Nat
  deriving DecidableEq, Repr

/-- A thread: its group and its index 0-31 (06 R169). -/
structure ThreadKey where
  gk : GroupKey
  thr : Nat
  deriving DecidableEq, Repr

/-- A context descriptor as the mailbox creates it (01 R13). -/
structure CtxDesc where
  ctxid : Nat
  part : Nat
  ownslot : Nat
  root : Nat
  slotmask : BitVec 256
  deriving DecidableEq, Repr

/-- Where the image of a checkpoint goes (15 R413): a host buffer, or a peer. -/
inductive CkptDest where
  | host (addr : Nat)
  | peer (index : Nat)
  deriving DecidableEq, Repr

/-- A checkpoint as it is started (15 R413): the mailbox slot, and where the image goes. -/
structure CkptStart where
  slot : Nat
  dest : CkptDest
  deriving DecidableEq, Repr

/-- The peer that sends a request (15 R410, R412): its index, and whether it has a security association. -/
structure PeerId where
  index : Nat
  assoc : Bool
  deriving DecidableEq, Repr

/-- A peer-table entry (15 R411). -/
structure PeerEntry where
  valid : Bool
  endpoint : Nat
  job : Nat
  assoc : Nat
  deriving DecidableEq, Repr

/-- Where an error of a memory cell is found (14 R398): uncorrectable, in state that no thread owns with its source (R397), in a
line of HBM, in a line that a slice holds, by its place in the list of them, in a line of a scratchpad, in a register,
an entry of a return stack, an entry of a queue, a tile, a list register, an instruction cache line; or corrected, in
a core or outside the cores. -/
inductive SoftErr where
  | state (src : Nat)
  | hbm (line : Nat)
  | l2 (ix : Nat)
  | spad (tk : TeamKey) (line : Nat)
  | reg (th : ThreadKey) (cell : Nat)
  | rstack (th : ThreadKey) (depth : Nat)
  | queue (tk : TeamKey) (name inst fifo ix : Nat)
  | response (tk : TeamKey) (ch slot piece : Nat)
  | tile (gk : GroupKey) (n cell : Nat)
  | list (gk : GroupKey) (n : Nat)
  | icache (core ix : Nat)
  | corrected (core : Option Nat)
  deriving DecidableEq, Repr

/-- One partition of the partition table: slice range and cores (03 R93). -/
structure Partition where
  sbase : Nat
  scnt : Nat
  cores : List Nat
  deriving DecidableEq, Repr

/-- A soft error in the array during one pass of an MMA: the product sum Q[row][col] of group grp takes an
inverted bit (11 R319, 18 R432). -/
structure Upset where
  grp : Nat
  row : Nat
  col : Nat
  bit : Nat
  deriving DecidableEq, Repr

/-- Operands: guard and word offset. -/
structure OpBr where
  g : BitVec 3
  off : BitVec 20
  deriving DecidableEq, Repr

/-- Operands: guard alone. -/
structure OpG where
  g : BitVec 3
  deriving DecidableEq, Repr

/-- Operands: guard, source, policy. -/
structure OpA where
  g : BitVec 3
  a : BitVec 5
  pa : Bool
  deriving DecidableEq, Repr

/-- Operands: guard, value register, code. -/
structure OpACode where
  g : BitVec 3
  a : BitVec 5
  b : BitVec 5
  pa : Bool
  deriving DecidableEq, Repr

/-- Operands: guard, destination, one source. -/
structure OpDA where
  g : BitVec 3
  d : BitVec 5
  a : BitVec 5
  pa : Bool
  deriving DecidableEq, Repr

/-- Operands: guard and code. -/
structure OpCode where
  g : BitVec 3
  b : BitVec 5
  deriving DecidableEq, Repr

/-- Operands: compare. -/
structure OpCmp where
  g : BitVec 3
  p1 : BitVec 3
  p2 : BitVec 3
  a : BitVec 5
  b : BitVec 5
  pa : Bool
  pb : Bool
  cc : BitVec 4
  deriving DecidableEq, Repr

/-- Operands: predicate logic. -/
structure OpPlop where
  g : BitVec 3
  p1 : BitVec 3
  p2 : BitVec 3
  a : BitVec 3
  b : BitVec 3
  deriving DecidableEq, Repr

/-- Operands: predicate vote. -/
structure OpVote where
  g : BitVec 3
  d : BitVec 3
  a : BitVec 3
  deriving DecidableEq, Repr

/-- Operands: ballot. -/
structure OpBallot where
  g : BitVec 3
  d : BitVec 5
  a : BitVec 3
  deriving DecidableEq, Repr

/-- Operands: elect. -/
structure OpElect where
  g : BitVec 3
  d : BitVec 3
  deriving DecidableEq, Repr

/-- Operands: register format. -/
structure OpRG where
  g : BitVec 3
  d : BitVec 5
  a : BitVec 5
  b : BitVec 5
  pa : Bool
  pb : Bool
  deriving DecidableEq, Repr

/-- Operands: control-word read. -/
structure OpCsrr where
  g : BitVec 3
  d : BitVec 5
  sel : BitVec 10
  deriving DecidableEq, Repr

/-- Operands: control-word write. -/
structure OpCsrw where
  g : BitVec 3
  d : BitVec 5
  a : BitVec 5
  sel : BitVec 10
  deriving DecidableEq, Repr

/-- Operands: select. -/
structure OpSel where
  pc : BitVec 3
  d : BitVec 5
  a : BitVec 5
  b : BitVec 5
  pa : Bool
  pb : Bool
  deriving DecidableEq, Repr

/-- Operands: immediate format. -/
structure OpRI where
  g : BitVec 3
  d : BitVec 5
  imm : BitVec 14
  deriving DecidableEq, Repr

/-- Operands: address. -/
structure OpLea where
  d : BitVec 5
  a : BitVec 5
  w : BitVec 2
  off : BitVec 12
  deriving DecidableEq, Repr

/-- Operands: FP, two sources, modifier. -/
structure OpFp where
  g : BitVec 3
  d : BitVec 5
  a : BitVec 5
  b : BitVec 5
  pa : Bool
  pb : Bool
  md : BitVec 2
  deriving DecidableEq, Repr

/-- Operands: FP, one source, modifier. -/
structure OpFp1 where
  g : BitVec 3
  d : BitVec 5
  a : BitVec 5
  pa : Bool
  md : BitVec 2
  deriving DecidableEq, Repr

/-- Operands: round to integral. -/
structure OpFrnd where
  g : BitVec 3
  d : BitVec 5
  a : BitVec 5
  b : BitVec 5
  pa : Bool
  md : BitVec 2
  deriving DecidableEq, Repr

/-- Operands: FP compare. -/
structure OpFcmp where
  g : BitVec 3
  p1 : BitVec 3
  p2 : BitVec 3
  a : BitVec 5
  b : BitVec 5
  pa : Bool
  pb : Bool
  cc : BitVec 3
  deriving DecidableEq, Repr

/-- Operands: quantise. -/
structure OpQnt where
  k : BitVec 4
  a : BitVec 5
  b : BitVec 5
  ol : Bool
  elect : Bool
  h : Bool
  fmt : BitVec 4
  deriving DecidableEq, Repr

/-- Operands: quantise scales. -/
structure OpQscl where
  k : BitVec 4
  a : BitVec 5
  b : BitVec 5
  elect : Bool
  h : Bool
  fmt : BitVec 4
  deriving DecidableEq, Repr

/-- Operands: decode block. -/
structure OpDq where
  k : BitVec 4
  a : BitVec 5
  b : BitVec 5
  ol : Bool
  h : Bool
  deriving DecidableEq, Repr

/-- Operands: block header. -/
structure OpHdr where
  g : BitVec 3
  d : BitVec 5
  a : BitVec 5
  h : Bool
  pa : Bool
  deriving DecidableEq, Repr

/-- Operands: matrix multiply. -/
structure OpMma where
  k : BitVec 4
  t : BitVec 3
  a : BitVec 5
  b : BitVec 5
  ol : Bool
  var : BitVec 3
  fmt : BitVec 4
  deriving DecidableEq, Repr

/-- Operands: tile configuration. -/
structure OpTcfg where
  k : BitVec 4
  t : BitVec 3
  shape : Bool
  afmt : Bool
  deriving DecidableEq, Repr

/-- Operands: tile alone. -/
structure OpTile where
  k : BitVec 4
  t : BitVec 3
  deriving DecidableEq, Repr

/-- Operands: tile predicates. -/
structure OpKop where
  k : BitVec 4
  d : BitVec 4
  b : BitVec 4
  deriving DecidableEq, Repr

/-- Operands: tile predicate from tile. -/
structure OpKopNz where
  k : BitVec 4
  t : BitVec 3
  d : BitVec 4
  deriving DecidableEq, Repr

/-- Operands: tile predicate from predicate. -/
structure OpKopFromp where
  k : BitVec 4
  d : BitVec 4
  b : BitVec 3
  deriving DecidableEq, Repr

/-- Operands: predicate from tile predicate. -/
structure OpKopTop where
  k : BitVec 4
  d : BitVec 3
  b : BitVec 4
  deriving DecidableEq, Repr

/-- Operands: tile check. -/
structure OpTchk where
  k : BitVec 4
  t : BitVec 3
  a : BitVec 5
  m : Bool
  deriving DecidableEq, Repr

/-- Operands: tile rows, FP32. -/
structure OpTmov32 where
  k : BitVec 4
  t : BitVec 3
  a : BitVec 5
  q : BitVec 2
  deriving DecidableEq, Repr

/-- Operands: tile rows, BF16. -/
structure OpTmov16 where
  k : BitVec 4
  t : BitVec 3
  a : BitVec 5
  h : Bool
  deriving DecidableEq, Repr

/-- Operands: drain. -/
structure OpDrain where
  k : BitVec 4
  t : BitVec 3
  b : BitVec 5
  deriving DecidableEq, Repr

/-- Operands: queue, destination, marker. -/
structure OpQd where
  g : BitVec 3
  d : BitVec 5
  qn : BitVec 5
  mp : BitVec 3
  deriving DecidableEq, Repr

/-- Operands: block pop. -/
structure OpQpopb where
  d : BitVec 5
  a : BitVec 5
  qn : BitVec 5
  mp : BitVec 3
  deriving DecidableEq, Repr

/-- Operands: outlier pop. -/
structure OpQpopo where
  d : Bool
  qn : BitVec 5
  deriving DecidableEq, Repr

/-- Operands: queue and register. -/
structure OpQs where
  g : BitVec 3
  d : BitVec 5
  qn : BitVec 5
  deriving DecidableEq, Repr

/-- Operands: block push. -/
structure OpQpushb where
  d : BitVec 5
  a : BitVec 5
  qn : BitVec 5
  deriving DecidableEq, Repr

/-- Operands: queue alone. -/
structure OpQ where
  g : BitVec 3
  qn : BitVec 5
  deriving DecidableEq, Repr

/-- Operands: queue test. -/
structure OpQtest where
  g : BitVec 3
  a : BitVec 5
  qn : BitVec 5
  mp : BitVec 3
  deriving DecidableEq, Repr

/-- Operands: queue and source. -/
structure OpQa where
  g : BitVec 3
  a : BitVec 5
  qn : BitVec 5
  deriving DecidableEq, Repr

/-- Operands: plain access. -/
structure OpMem where
  d : BitVec 5
  a : BitVec 5
  w : BitVec 3
  off : BitVec 12
  deriving DecidableEq, Repr

/-- Operands: ordered access. -/
structure OpMa where
  g : BitVec 3
  d : BitVec 5
  a : BitVec 5
  sp : Bool
  os : BitVec 4
  w : BitVec 3
  deriving DecidableEq, Repr

/-- Operands: atomic. -/
structure OpAtom where
  op : BitVec 3
  d : BitVec 5
  a : BitVec 5
  b : BitVec 5
  os : BitVec 4
  sp : Bool
  dw : Bool
  deriving DecidableEq, Repr

/-- Operands: reduction. -/
structure OpRed where
  op : BitVec 3
  a : BitVec 5
  b : BitVec 5
  os : BitVec 4
  sp : Bool
  dw : Bool
  deriving DecidableEq, Repr

/-- Operands: compare and swap. -/
structure OpCas where
  ps : BitVec 3
  d : BitVec 5
  a : BitVec 5
  b : BitVec 5
  os : BitVec 4
  sp : Bool
  dw : Bool
  deriving DecidableEq, Repr

/-- Operands: queue command. -/
structure OpQda where
  g : BitVec 3
  d : BitVec 5
  a : BitVec 5
  qn : BitVec 5
  deriving DecidableEq, Repr

/-- Operands: scatter. -/
structure OpScat where
  g : BitVec 3
  d : BitVec 5
  a : BitVec 5
  blk : Bool
  deriving DecidableEq, Repr

/-- Operands: gather to register. -/
structure OpGathr where
  g : BitVec 3
  d : BitVec 5
  a : BitVec 5
  b : BitVec 5
  dw : Bool
  deriving DecidableEq, Repr

/-- Operands: prefetch. -/
structure OpPref where
  g : BitVec 3
  d : BitVec 5
  l2 : Bool
  deriving DecidableEq, Repr

/-- Operands: fence. -/
structure OpFence where
  g : BitVec 3
  os : BitVec 4
  deriving DecidableEq, Repr

/-- Operands: join. -/
structure OpJoin where
  g : BitVec 3
  mask : BitVec 5
  deriving DecidableEq, Repr

/-- Operands: two sources. -/
structure OpAB where
  g : BitVec 3
  a : BitVec 5
  b : BitVec 5
  pa : Bool
  pb : Bool
  deriving DecidableEq, Repr

/-- Operands: registration. -/
structure OpPreg where
  g : BitVec 3
  d : BitVec 5
  a : BitVec 5
  b : BitVec 5
  pa : Bool
  deriving DecidableEq, Repr

/-- Operands: phase wait. -/
structure OpPwait where
  g : BitVec 3
  d : BitVec 3
  a : BitVec 5
  b : BitVec 5
  pa : Bool
  pb : Bool
  deriving DecidableEq, Repr

/-- Operands: spawn. -/
structure OpSpawn where
  g : BitVec 3
  a : BitVec 5
  ps : BitVec 3
  deriving DecidableEq, Repr

/-- Operands: take. -/
structure OpTake where
  g : BitVec 3
  d : BitVec 5
  ps : BitVec 3
  deriving DecidableEq, Repr

/-- Operands: task, destination, source, status. -/
structure OpSteal where
  g : BitVec 3
  d : BitVec 5
  a : BitVec 5
  ps : BitVec 3
  deriving DecidableEq, Repr

/-- Operands: future creation. -/
structure OpFnew where
  g : BitVec 3
  a : BitVec 5
  b : BitVec 5
  deriving DecidableEq, Repr

/-- Operands: future resolution. -/
structure OpFres where
  g : BitVec 3
  a : BitVec 5
  b : BitVec 5
  ps : BitVec 3
  deriving DecidableEq, Repr

/-- Operands: task or system, destination, source. -/
structure OpDa where
  g : BitVec 3
  d : BitVec 5
  a : BitVec 5
  deriving DecidableEq, Repr

/-- Operands: supervisor return. -/
structure OpSret where
  g : BitVec 3
  d : BitVec 5
  a : BitVec 5
  m : Bool
  deriving DecidableEq, Repr

/-- Operands: translation invalidation. -/
structure OpTlbinv where
  g : BitVec 3
  d : BitVec 5
  a : BitVec 5
  k : BitVec 2
  deriving DecidableEq, Repr

/-- Operands: context query. -/
structure OpCtxq where
  g : BitVec 3
  d : BitVec 5
  a : BitVec 5
  item : BitVec 3
  deriving DecidableEq, Repr

/-- The instruction words (rows 0-202) and the events (rows 203-275) of the opcode table, the events that only the
outside causes last. An event's operands name the unit it concerns and carry what comes from outside the part. -/
inductive Instr where
  /-- BRA, R225. -/
  | bra (f : OpBr)
  /-- CALL, R225. -/
  | call (f : OpBr)
  /-- NOP, R232. -/
  | nop (f : OpG)
  /-- JMP, R228. -/
  | jmp (f : OpA)
  /-- CALLI, R228. -/
  | calli (f : OpA)
  /-- RET, R229. -/
  | ret (f : OpG)
  /-- EXIT, R231. -/
  | exit (f : OpG)
  /-- YIELD, R232. -/
  | yield (f : OpG)
  /-- TRAP, R233. -/
  | trap (f : OpACode)
  /-- URET, R237. -/
  | uret (f : OpG)
  /-- SETUV, R238. -/
  | setuv (f : OpDA)
  /-- BKPT, R234. -/
  | bkpt (f : OpCode)
  /-- MARK, R235. -/
  | mark (f : OpACode)
  /-- ICSYNC, R239. -/
  | icsync (f : OpG)
  /-- ICSYNC_DEV, R239. -/
  | icsyncDev (f : OpG)
  /-- CMP, R240. -/
  | cmp (f : OpCmp)
  /-- PLOP_AND, R241. -/
  | plopAnd (f : OpPlop)
  /-- PLOP_OR, R241. -/
  | plopOr (f : OpPlop)
  /-- PLOP_XOR, R241. -/
  | plopXor (f : OpPlop)
  /-- PLOP_ANDN, R241. -/
  | plopAndn (f : OpPlop)
  /-- VOTE_ANY, R243. -/
  | voteAny (f : OpVote)
  /-- VOTE_ALL, R243. -/
  | voteAll (f : OpVote)
  /-- VOTE_BALLOT, R243. -/
  | voteBallot (f : OpBallot)
  /-- ELECT, R243. -/
  | elect (f : OpElect)
  /-- SHFL_IDX, R243. -/
  | shflIdx (f : OpRG)
  /-- SHFL_UP, R243. -/
  | shflUp (f : OpRG)
  /-- SHFL_DOWN, R243. -/
  | shflDown (f : OpRG)
  /-- SHFL_XOR, R243. -/
  | shflXor (f : OpRG)
  /-- CSRR, R253. -/
  | csrr (f : OpCsrr)
  /-- CSRW, R253. -/
  | csrw (f : OpCsrw)
  /-- CSRS, R253. -/
  | csrs (f : OpCsrw)
  /-- CSRC, R253. -/
  | csrc (f : OpCsrw)
  /-- ADD, R245. -/
  | add (f : OpRG)
  /-- SUB, R245. -/
  | sub (f : OpRG)
  /-- MUL, R245. -/
  | mul (f : OpRG)
  /-- MULHI_S, R245. -/
  | mulhiS (f : OpRG)
  /-- MULHI_U, R245. -/
  | mulhiU (f : OpRG)
  /-- MAD, R245. -/
  | mad (f : OpRG)
  /-- DIVS, R246. -/
  | divs (f : OpRG)
  /-- DIVU, R246. -/
  | divu (f : OpRG)
  /-- REMS, R246. -/
  | rems (f : OpRG)
  /-- REMU, R246. -/
  | remu (f : OpRG)
  /-- MIN_S, R246. -/
  | minS (f : OpRG)
  /-- MIN_U, R246. -/
  | minU (f : OpRG)
  /-- MAX_S, R246. -/
  | maxS (f : OpRG)
  /-- MAX_U, R246. -/
  | maxU (f : OpRG)
  /-- ABS, R246. -/
  | abs (f : OpDA)
  /-- SEL, R247. -/
  | sel (f : OpSel)
  /-- AND, R248. -/
  | and (f : OpRG)
  /-- OR, R248. -/
  | or (f : OpRG)
  /-- XOR, R248. -/
  | xor (f : OpRG)
  /-- ANDN, R248. -/
  | andn (f : OpRG)
  /-- SHL, R248. -/
  | shl (f : OpRG)
  /-- SHR, R248. -/
  | shr (f : OpRG)
  /-- SAR, R248. -/
  | sar (f : OpRG)
  /-- ROL, R248. -/
  | rol (f : OpRG)
  /-- CLZ, R248. -/
  | clz (f : OpDA)
  /-- POPC, R248. -/
  | popc (f : OpDA)
  /-- BREV, R248. -/
  | brev (f : OpDA)
  /-- MOV, R248. -/
  | mov (f : OpDA)
  /-- BFX, R249. -/
  | bfx (f : OpRG)
  /-- BFI, R249. -/
  | bfi (f : OpRG)
  /-- MOVI, R250. -/
  | movi (f : OpRI)
  /-- MOVHI, R250. -/
  | movhi (f : OpRI)
  /-- ADD_IMM, R250. -/
  | addImm (f : OpRI)
  /-- AND_IMM, R250. -/
  | andImm (f : OpRI)
  /-- OR_IMM, R250. -/
  | orImm (f : OpRI)
  /-- XOR_IMM, R250. -/
  | xorImm (f : OpRI)
  /-- SHL_IMM, R250. -/
  | shlImm (f : OpRI)
  /-- SHR_IMM, R250. -/
  | shrImm (f : OpRI)
  /-- LEA, R251. -/
  | lea (f : OpLea)
  /-- FADD, R289. -/
  | fadd (f : OpFp)
  /-- FSUB, R289. -/
  | fsub (f : OpFp)
  /-- FMUL, R289. -/
  | fmul (f : OpFp)
  /-- FFMA, R289. -/
  | ffma (f : OpFp)
  /-- FMIN, R290. -/
  | fmin (f : OpFp)
  /-- FMAX, R290. -/
  | fmax (f : OpFp)
  /-- FCLASS, R290. -/
  | fclass (f : OpFp1)
  /-- FRND, R290. -/
  | frnd (f : OpFrnd)
  /-- FRCP, R291. -/
  | frcp (f : OpFp1)
  /-- FRSQ, R291. -/
  | frsq (f : OpFp1)
  /-- FSQRT, R291. -/
  | fsqrt (f : OpFp1)
  /-- FDIV, R291. -/
  | fdiv (f : OpFp)
  /-- FEXP2, R291. -/
  | fexp2 (f : OpFp1)
  /-- FLOG2, R291. -/
  | flog2 (f : OpFp1)
  /-- FSIN, R291. -/
  | fsin (f : OpFp1)
  /-- FCOS, R291. -/
  | fcos (f : OpFp1)
  /-- HADD2_BF16, R293. -/
  | hadd2Bf16 (f : OpFp)
  /-- HMUL2_BF16, R293. -/
  | hmul2Bf16 (f : OpFp)
  /-- HFMA2_BF16, R293. -/
  | hfma2Bf16 (f : OpFp)
  /-- HADD2_F16, R293. -/
  | hadd2F16 (f : OpFp)
  /-- HMUL2_F16, R293. -/
  | hmul2F16 (f : OpFp)
  /-- HFMA2_F16, R293. -/
  | hfma2F16 (f : OpFp)
  /-- FCVT_F32_BF16, R294. -/
  | fcvtF32Bf16 (f : OpDA)
  /-- FCVT_F32_BF16_HI, R294. -/
  | fcvtF32Bf16Hi (f : OpDA)
  /-- FCVT_F32_F16, R294. -/
  | fcvtF32F16 (f : OpDA)
  /-- FCVT_F32_F16_HI, R294. -/
  | fcvtF32F16Hi (f : OpDA)
  /-- FCVT_BF16X2_F32, R294. -/
  | fcvtBf16x2F32 (f : OpRG)
  /-- FCVT_F16X2_F32, R294. -/
  | fcvtF16x2F32 (f : OpRG)
  /-- ICVT_SW_F32, R295. -/
  | icvtSwF32 (f : OpDA)
  /-- ICVT_SW_F32_RZ, R295. -/
  | icvtSwF32Rz (f : OpDA)
  /-- ICVT_UW_F32, R295. -/
  | icvtUwF32 (f : OpDA)
  /-- ICVT_UW_F32_RZ, R295. -/
  | icvtUwF32Rz (f : OpDA)
  /-- ICVT_F32_SW, R294. -/
  | icvtF32Sw (f : OpDA)
  /-- ICVT_F32_UW, R294. -/
  | icvtF32Uw (f : OpDA)
  /-- FCMP, R296. -/
  | fcmp (f : OpFcmp)
  /-- ROPE, R297. -/
  | rope (f : OpRG)
  /-- AMRG, R299. -/
  | amrg (f : OpRG)
  /-- QNT, R303. -/
  | qnt (f : OpQnt)
  /-- QSCL, R305. -/
  | qscl (f : OpQscl)
  /-- DQ, R306. -/
  | dq (f : OpDq)
  /-- HDRR, R307. -/
  | hdrr (f : OpHdr)
  /-- HDRW, R307. -/
  | hdrw (f : OpHdr)
  /-- CBK, R308. -/
  | cbk (f : OpRG)
  /-- MMA, R314. -/
  | mma (f : OpMma)
  /-- MMAZ, R314. -/
  | mmaz (f : OpMma)
  /-- TCFG, R321. -/
  | tcfg (f : OpTcfg)
  /-- TZERO, R322. -/
  | tzero (f : OpTile)
  /-- KOP_MOV, R329. -/
  | kopMov (f : OpKop)
  /-- KOP_AND, R329. -/
  | kopAnd (f : OpKop)
  /-- KOP_OR, R329. -/
  | kopOr (f : OpKop)
  /-- KOP_ANDN, R329. -/
  | kopAndn (f : OpKop)
  /-- KOP_NZ, R329. -/
  | kopNz (f : OpKopNz)
  /-- KOP_FROMP, R329. -/
  | kopFromp (f : OpKopFromp)
  /-- KOP_TOP, R329. -/
  | kopTop (f : OpKopTop)
  /-- TCHK, R330. -/
  | tchk (f : OpTchk)
  /-- TMOVF_F32, R323. -/
  | tmovfF32 (f : OpTmov32)
  /-- TMOVF_BF16, R323. -/
  | tmovfBf16 (f : OpTmov16)
  /-- TMOVT_F32, R323. -/
  | tmovtF32 (f : OpTmov32)
  /-- TMOVT_BF16, R323. -/
  | tmovtBf16 (f : OpTmov16)
  /-- TDRAIN, R326. -/
  | tdrain (f : OpDrain)
  /-- TDRAIN_ADD, R326. -/
  | tdrainAdd (f : OpDrain)
  /-- TSTSP, R328. -/
  | tstsp (f : OpDrain)
  /-- QPOP, R267. -/
  | qpop (f : OpQd)
  /-- QPOPB, R268. -/
  | qpopb (f : OpQpopb)
  /-- QPOPO, R269. -/
  | qpopo (f : OpQpopo)
  /-- QPUSH, R267. -/
  | qpush (f : OpQs)
  /-- QPUSHB, R268. -/
  | qpushb (f : OpQpushb)
  /-- QMARK, R270. -/
  | qmark (f : OpQ)
  /-- QPEEK, R271. -/
  | qpeek (f : OpQd)
  /-- QTEST, R271. -/
  | qtest (f : OpQtest)
  /-- QCFG, R271. -/
  | qcfg (f : OpQa)
  /-- QCLOSE, R270. -/
  | qclose (f : OpQ)
  /-- QSTAT, R271. -/
  | qstat (f : OpQs)
  /-- LD, R257. -/
  | ld (f : OpMem)
  /-- ST, R257. -/
  | st (f : OpMem)
  /-- LD_MA, R258. -/
  | ldMa (f : OpMa)
  /-- ST_MA, R258. -/
  | stMa (f : OpMa)
  /-- LDC, R150. -/
  | ldc (f : OpMa)
  /-- ATOM, R262. -/
  | atom (f : OpAtom)
  /-- RED, R261. -/
  | red (f : OpRed)
  /-- ATOM_MINMAX, R262. -/
  | atomMinmax (f : OpAtom)
  /-- RED_MINMAX, R261. -/
  | redMinmax (f : OpRed)
  /-- CAS, R262. -/
  | cas (f : OpCas)
  /-- LDQ, R272. -/
  | ldq (f : OpQs)
  /-- LDBQ, R272. -/
  | ldbq (f : OpQs)
  /-- STQ, R273. -/
  | stq (f : OpQs)
  /-- QSTREAM, R274. -/
  | qstream (f : OpQda)
  /-- GATH, R275. -/
  | gath (f : OpQda)
  /-- SCAT, R275. -/
  | scat (f : OpScat)
  /-- GATH_R, R276. -/
  | gathR (f : OpGathr)
  /-- PREF, R277. -/
  | pref (f : OpPref)
  /-- BCOPY, R279. -/
  | bcopy (f : OpRG)
  /-- BSTORE, R279. -/
  | bstore (f : OpRG)
  /-- MCAST, R280. -/
  | mcast (f : OpRG)
  /-- REPLAY, R282. -/
  | replay (f : OpA)
  /-- RCH, R283. -/
  | rch (f : OpRG)
  /-- RGET, R285. -/
  | rget (f : OpRG)
  /-- RPUT, R285. -/
  | rput (f : OpRG)
  /-- FENCE, R263. -/
  | fence (f : OpFence)
  /-- JOIN, R264. -/
  | join (f : OpJoin)
  /-- PINIT, R339. -/
  | pinit (f : OpAB)
  /-- PREG, R333. -/
  | preg (f : OpPreg)
  /-- PDEREG, R334. -/
  | pdereg (f : OpA)
  /-- PARR, R335. -/
  | parr (f : OpDA)
  /-- PBYTES, R335. -/
  | pbytes (f : OpAB)
  /-- PWAIT, R337. -/
  | pwait (f : OpPwait)
  /-- PTEST, R338. -/
  | ptest (f : OpRG)
  /-- PTEST_W, R337. -/
  | ptestW (f : OpRG)
  /-- SPAWN, R343. -/
  | spawn (f : OpSpawn)
  /-- TAKE, R343. -/
  | take (f : OpTake)
  /-- STEAL, R344. -/
  | steal (f : OpSteal)
  /-- FNEW, R348. -/
  | fnew (f : OpFnew)
  /-- FRES, R348. -/
  | fres (f : OpFres)
  /-- FRES_F, R348. -/
  | fresF (f : OpFres)
  /-- FREG, R348. -/
  | freg (f : OpFres)
  /-- FWAIT, R348. -/
  | fwait (f : OpSteal)
  /-- FSTAT, R347. -/
  | fstat (f : OpDa)
  /-- FSTAT_HI, R347. -/
  | fstatHi (f : OpDa)
  /-- JLAUNCH, R352. -/
  | jlaunch (f : OpSteal)
  /-- TRIGGER, R353. -/
  | trigger (f : OpG)
  /-- JYIELD, R354. -/
  | jyield (f : OpG)
  /-- LEAVE, R404. -/
  | leave (f : OpDa)
  /-- KVLOOK, R356. -/
  | kvlook (f : OpRG)
  /-- KVINS, R356. -/
  | kvins (f : OpRG)
  /-- KVDEL, R356. -/
  | kvdel (f : OpRG)
  /-- PFXLOOK, R356. -/
  | pfxlook (f : OpRG)
  /-- PFXINS, R356. -/
  | pfxins (f : OpRG)
  /-- ATTD, R358. -/
  | attd (f : OpDA)
  /-- SRET, R360. -/
  | sret (f : OpSret)
  /-- TLBINV, R361. -/
  | tlbinv (f : OpTlbinv)
  /-- CTXQ, R362. -/
  | ctxq (f : OpCtxq)
  /-- HALTQ, R363. -/
  | haltq (f : OpDa)
  /-- CARILLON_GRANT, R403. -/
  | carillonGrant (island : Nat)
  /-- WDOG, R182. -/
  | wdog (gk : GroupKey)
  /-- QDEAD, R190. -/
  | qdead (tk : TeamKey)
  /-- BUDGET, R378. -/
  | budget (job : Nat)
  /-- PHASER_TIMEOUT, R337. -/
  | phaserTimeout (th : ThreadKey)
  /-- FWAIT_RECHECK, R349. -/
  | fwaitRecheck (th : ThreadKey)
  /-- REGISTRATION_RETRY, R373. -/
  | registrationRetry (job : Nat)
  /-- REPLICATION_TEST, R380. -/
  | replicationTest (tk : TeamKey)
  /-- SLICE_START, R376. -/
  | sliceStart (job : Nat)
  /-- PREEMPT, R382. -/
  | preempt (job : Nat)
  /-- JOB_END, R375. -/
  | jobEnd (job : Nat)
  /-- PAGE_WALK_RESULT, R28. -/
  | pageWalkResult (ctx vpn : Nat)
  /-- LOAD_RETURN, R260. -/
  | loadReturn (tk : TeamKey) (id : Nat)
  /-- QUEUE_ENTRY_ARRIVAL, R186. -/
  | queueEntryArrival (tk : TeamKey) (id : Nat)
  /-- STQ_WRITE, R273. -/
  | stqWrite (tk : TeamKey) (id : Nat)
  /-- KV_PROBE, R123. -/
  | kvProbe (th : ThreadKey)
  /-- COPY_GRANULE_LANDING, R108. -/
  | copyGranuleLanding (tk : TeamKey) (gran : Nat)
  /-- BSTORE_GRANULE_WRITE, R279. -/
  | bstoreGranuleWrite (tk : TeamKey) (gran : Nat)
  /-- MCAST_FLIT_INJECT, R112. -/
  | mcastFlitInject (tk : TeamKey)
  /-- DRUMLINE_LANDING, R111. -/
  | drumlineLanding (flit core : Nat)
  /-- QSTREAM_LINE_PUSH, R274. -/
  | qstreamLinePush (tk : TeamKey)
  /-- GATHER_CHUNK, R104. -/
  | gatherChunk (tk : TeamKey)
  /-- DRAIN_LINE_WRITE, R326. -/
  | drainLineWrite (tk : TeamKey) (line : Nat)
  /-- TILE_UPDATE, R164. -/
  | tileUpdate (tk : TeamKey) (line : Nat)
  /-- COMMAND_PERFORMED, R154. -/
  | commandPerformed (tk : TeamKey) (stream : Nat)
  /-- TRIPLE_ARRIVAL, R135. -/
  | tripleArrival (tk : TeamKey) (cmd stack : Nat)
  /-- ATTD_DEADLINE, R135. -/
  | attdDeadline (tk : TeamKey) (cmd : Nat)
  /-- ATTLOST, R136. -/
  | attlost (tk : TeamKey) (cmd stack : Nat)
  /-- ATTD_ENTRY_DELIVERY, R138. -/
  | attdEntryDelivery (tk : TeamKey) (cmd : Nat)
  /-- CHANNEL_QUEUE_DELIVERY, R116. -/
  | channelQueueDelivery (tk : TeamKey) (ch slot : Nat)
  /-- COMPLETION_VECTORING, R440. -/
  | completionVectoring (th : ThreadKey)
  /-- STORE_ORDERED, R259. -/
  | storeOrdered (tk : TeamKey) (id : Nat)
  /-- MMA_COMPLETION, R320. -/
  | mmaCompletion (gk : GroupKey) (first second : Option Upset)
  /-- DEBUG_STOP, R416. -/
  | debugStop (th : ThreadKey)
  /-- CROSSBAR_ACTION, R426. -/
  | crossbarAction (line : Nat)
  /-- RETRANSMISSION_EXHAUSTED, R411. -/
  | retransmissionExhausted (tk : TeamKey) (ch slot : Nat)
  /-- PEER_READ, R412. -/
  | peerRead (ctx : Nat) (peer : PeerId) (va len : Nat)
  /-- PEER_WRITE, R412. -/
  | peerWrite (ctx : Nat) (peer : PeerId) (va : Nat) (data : List Byte)
  /-- POWER_ON, R41. -/
  | powerOn
  /-- ADMISSION_WRITE, R366. -/
  | admissionWrite (off len : Nat) (data : Block)
  /-- ADMIT_JOB, R365. -/
  | admitJob
  /-- HOST_WINDOW_READ, R408. -/
  | hostWindowRead (off len : Nat)
  /-- HOST_WINDOW_WRITE, R408. -/
  | hostWindowWrite (off : Nat) (data : List Byte)
  /-- KEY_LOAD, R37. -/
  | keyLoad (ms slot : Nat) (unwraps : Bool)
  /-- RELEASE_SLOT, R37. -/
  | releaseSlot (ms slot : Nat)
  /-- CREATE_CONTEXT, R409. -/
  | createContext (ms : Nat) (desc : CtxDesc)
  /-- SET_SAVE_AREA, R387. -/
  | setSaveArea (ms ctx va size : Nat)
  /-- SET_EVENT_RANGE, R374. -/
  | setEventRange (ms ctx base count : Nat)
  /-- SET_PEER_TABLE, R411. -/
  | setPeerTable (ms ctx count : Nat) (entries : List PeerEntry)
  /-- END, R38. -/
  | endCtx (ms ctx : Nat)
  /-- ABANDON, R38. -/
  | abandon (ms ctx code : Nat)
  /-- GRANT_BUDGET, R378. -/
  | grantBudget (ms job budget : Nat)
  /-- GRANT_DEADLINE, R379. -/
  | grantDeadline (ms job deadline : Nat)
  /-- SET_PARTITION_TABLE, R97. -/
  | setPartitionTable (ms : Nat) (shared : Bool) (table : List Partition)
  /-- SET_ENERGY_TABLE, R405. -/
  | setEnergyTable (ms addr : Nat)
  /-- SET_RATE_CAP, R401. -/
  | setRateCap (ms island rate cap : Nat)
  /-- SET_WINDOW, R408. -/
  | setWindow (ms base slot : Nat)
  /-- SET_RETRANSMISSION_BUDGET, R411. -/
  | setRetransmissionBudget (ms cycles : Nat)
  /-- EXPOSE_REGION, R412. -/
  | exposeRegion (ms ctx lo hi : Nat) (peers : List Nat) (write : Bool)
  /-- CHECKPOINT, R413. -/
  | checkpoint (ms : CkptStart)
  /-- STOP, R416. -/
  | stop (core : Nat) (value : Dword)
  /-- RESUME, R417. -/
  | resume (core : Nat) (value : Dword)
  /-- CLEAR, R421. -/
  | clear (core : Nat)
  /-- DEBUG_REGISTER_WRITE, R417. -/
  | debugRegisterWrite (off : Nat) (value : Dword)
  /-- REGISTER_WRITE, R6. -/
  | registerWrite (off : Nat) (value : Dword)
  /-- TRIGIN, R425. -/
  | trigin (pin : Nat)
  /-- REPLENISH, R401. -/
  | replenish
  /-- PAGE_WALK_START, R29. -/
  | pageWalkStart
  /-- RESPONSE_LANDED, R285. -/
  | responseLanded (tk : TeamKey) (ch slot : Nat) (data : List Byte)
  /-- ERROR_RESPONSE, R411. -/
  | errorResponse (tk : TeamKey) (ch slot : Nat)
  /-- CLAVE_TICK, R427. -/
  | claveTick
  /-- CLAVE_FRAME_WRITE, R428. -/
  | claveFrameWrite
  /-- MCHK, R397. -/
  | mchk (err : SoftErr)
  deriving DecidableEq, Repr

end Sys2Proof
end

