-- ==== Sys2Proof/Machine/State.lean ====
section
/-! DEFINITION. The state of the whole part as plain data: threads, groups, teams, cores, memory, jobs, contexts, the
engines' commands in flight, the host's registers, and the state after reset. A field marked MODEL is the model's
own. -/

namespace Sys2Proof.Machine

/-! ### Causes and records -/

/-- The causes of 14 R389. -/
inductive Cause where
  | trap | decouple | poison | range | futdbl | olovf | bytecount | blkfmt | blkhdr | olref
  | illop | badarg | xlat | ecc | calldepth | wdog | budget | iconv | qdead | array | mchk
  deriving DecidableEq, Repr

/-- The translation fault kinds of 01 R25. -/
inductive XKind where
  | ncanon | nomap | ptefmt | rperm | wperm | xperm | privv | keyperm | keydead | keymis | walkecc
  deriving DecidableEq, Repr

/-- A queue copy of a team: name and instance index (13 R372). -/
structure QRef where
  name : Nat
  inst : Nat
  deriving DecidableEq, Repr

/-- A poison record (06 R187). q: MODEL: the queue that the entry was delivered to (06 R190). -/
structure Poison where
  va : Dword
  sp : Bool
  rtag : Nat
  kind : Nat
  cls : Nat
  q : Option QRef := none
  deriving DecidableEq, Repr

/-- A supervisor record (14 R396), as four dwords, with its source (R397). -/
structure SupRecord where
  d0 : Dword
  d1 : Dword
  d2 : Dword
  d3 : Dword
  deriving DecidableEq, Repr

/-! ### Registers and queues -/

/-- What a pop bound to a destination waits for (06 R185): a position of a FIFO, a REPLAY not yet issued of an entry of a queue,
or the numbered load of a REPLAY in flight. -/
inductive Binding where
  | pos (q : QRef) (fifo pos : Nat)
  | replay (rtag : Nat) (q : Option QRef)
  | fill (id : Nat)
  deriving DecidableEq, Repr

/-- The full/empty state of a register (06 R185), and a load whose data has not returned (09 R260). -/
inductive RegSt where
  | full
  | load (id : Nat)
  | transit (v : Dword)
  | wait (b : Binding) (origin : Pc)
  | poisoned (p : Poison) (origin : Pc)
  deriving DecidableEq, Repr

/-- A register: value, full/empty state, taint bit (07 R212); ecc: its cell holds an uncorrectable error (14 R398). -/
structure RegCell where
  val : Dword
  st : RegSt
  taint : Bool
  ecc : Bool := false
  deriving DecidableEq, Repr

/-- The data of a queue entry: a lane value, a 64-byte block, an outlier list. -/
inductive QData where
  | lane (v : Word)
  | block (b : Block)
  | olist (count : Nat) (es : List Word)
  deriving DecidableEq, Repr

/-- A claimed position of a FIFO: not yet filled, data, a marker (close or not), a poison entry. -/
inductive QSlot where
  | claimed
  | data (d : QData)
  | marker (close : Bool)
  | poison (p : Poison)
  deriving DecidableEq, Repr

/-- A FIFO. Positions are numbered in the order of claims; nextIn is the next a push claims, nextOut the next a pop
claims (it may run ahead). slots holds the positions from nextOut to nextIn - 1. -/
structure Fifo where
  nextIn : Nat
  nextOut : Nat
  slots : List QSlot
  closed : Bool
  dead : Bool
  deriving DecidableEq, Repr

/-- Queue modes (13 R370). -/
inductive QMode where
  | lane | block | outlier
  deriving DecidableEq, Repr

/-- Queue directions (13 R370). -/
inductive QDir where
  | ae | ea | es
  deriving DecidableEq, Repr

/-- A translated address: physical address, key slot and the slot's epoch when it was translated (01 R37), leaf and level. -/
structure Phys where
  pa : Nat
  slot : Nat
  epoch : Nat
  pte : Nat
  lvl : Nat
  deriving DecidableEq, Repr

/-- An STQ bound to an entry position (09 R273), its address translated at issue. -/
structure Stq where
  id : Nat
  thr : ThreadKey
  fifo : Nat
  pos : Nat
  va : Nat
  phys : Phys
  data : Option QData
  deriving DecidableEq, Repr

/-- One queue copy (03 R80, 13 R372). -/
structure Queue where
  ref : QRef
  mode : QMode
  dir : QDir
  depth : Nat
  limit : Nat
  prod : GroupKey
  cons : GroupKey
  fifos : List Fifo
  stqs : List Stq
  deriving DecidableEq, Repr

/-- One entry of a fragment set bound by QPOPB: not yet arrived, data, poison, or poison whose replay is awaited. -/
inductive SetSlot where
  | missing
  | data (b : Block)
  | poison (p : Poison)
  | marker
  | replaying (b : Binding)
  deriving DecidableEq, Repr

/-- A fragment register set bound by QPOPB (06 R185, 09 R268): n entries from position pos of the queue, to the
registers from base; uin: the threads to which these names meant the handler bank at the pop (14 R392). -/
structure SetBind where
  base : Nat
  uin : List Nat
  cut : List Nat
  n : Nat
  q : QRef
  pos : Nat
  slots : List SetSlot
  origin : Pc
  deriving DecidableEq, Repr

/-- The state of an outlier list register (06 R185). -/
inductive OlSt where
  | full
  | transit (count : Nat) (es : List Word)
  | wait (b : Binding) (origin : Pc)
  | poisoned (p : Poison) (origin : Pc)
  deriving DecidableEq, Repr

/-- An outlier list register: count, 64 FP32 entries, state (02 R61, 03 R91); ecc: it holds an uncorrectable error. -/
structure OlReg where
  cnt : Nat
  es : List Word
  st : OlSt
  ecc : Bool := false
  deriving DecidableEq, Repr

/-! ### Threads and groups -/

/-- Why a thread is BLOCKED (06 R184). A group-collective word waits on a register of any of the 32 threads (fragRead,
fragWrite). -/
inductive Blk where
  | regRead (r : Nat)
  | regWrite (r : Nat)
  | fragRead (r : Nat)
  | fragWrite (r : Nat)
  | olRead (o : Nat)
  | olWrite (o : Nat)
  | push (q : QRef) (fifo n : Nat)
  | popEmpty (q : QRef) (fifo : Nat)
  | phaser (off phase start timeout : Nat) (test : Bool)
  | future (ev : Nat) (recorded : Bool)
  deriving DecidableEq, Repr

/-- STOPPED (06 R170): by the debugger or by a supervisor cause; the PC of resume with m = 0 and the raising PC. -/
structure Stop where
  debug : Bool
  resume : Pc
  raising : Pc
  deriving DecidableEq, Repr

/-- A phaser registration slot (12 R333): offset, signaller, waiter, phase of the last arrival. -/
structure RegSlot where
  off : Nat
  sig : Bool
  wt : Bool
  last : Option Nat
  deriving DecidableEq, Repr

/-- The result of a phaser wait that has ended (12 R337). -/
structure WaitRes where
  off : Nat
  phase : Nat
  pz : Bool
  bc : Bool
  timeout : Bool
  bcf : Bool
  deriving DecidableEq, Repr

/-- The outcome of a page walk: a leaf and its level, or a fault kind (01 R28). -/
inductive WalkOut where
  | leaf (pte : Dword) (lvl : Nat)
  | fault (k : XKind)
  deriving DecidableEq, Repr

/-- What a KV operation comes to (12 R357): its result dword and whether it acquires (04 R127), or the cause; miss: an
address it reads has still to be walked. -/
inductive KvOut where
  | result (d : Dword) (acq : Bool)
  | miss (va : Nat)
  | fault (k : XKind) (va : Nat)
  | ecc (va : Nat)
  deriving DecidableEq, Repr

/-- A KV operation sent to its probe home (04 R123): operation, descriptor address, key, block; since is where the log of
stores stood when it was sent (R126). -/
structure KvOp where
  op : Nat
  desc : Nat
  key : Nat
  pblk : Nat
  since : Nat
  out : Option KvOut
  deriving DecidableEq, Repr

/-- One thread (06 R170, 07 R212, 08 R236, 12 R333). Cells 32-35 of regs are the handler bank. rsEcc: the entries of the
return stack that hold an uncorrectable error (14 R398). inv: the TLBINV that it has begun: k, context, address (12 R361). -/
structure Thread where
  pc : Pc
  depth : Nat
  live : Bool
  stop : Option Stop
  blk : Option Blk
  park : Bool
  owe : BitVec 32
  regs : List RegCell
  preds : BitVec 8
  fpstat : Dword
  rstack : List Pc
  rsEcc : List Nat := []
  uepc : Pc
  uin : Bool
  slots : List (Option RegSlot)
  fbind : Option Nat
  wres : Option WaitRes
  dreq : Option Nat
  step : Bool
  xfer : Bool
  walk : Option (Nat × WalkOut)
  kv : Option KvOp
  mark : Option Nat
  inv : Option (Nat × Nat × Nat) := none
  deriving DecidableEq, Repr

/-- A tile (02 R73, 11 R321): 1,024 cells in row order, configuration, poison mark; ecc: it holds an uncorrectable error
(14 R398). -/
structure Tile where
  cells : List (BitVec 96)
  shape : Bool
  afmt : Bool
  pois : Bool
  ecc : Bool := false
  deriving DecidableEq, Repr

/-- An MMA issued and not yet committed (11 R314, R320): its PC, its inputs as read at issue, and the injected upset of each
pass (18 R432). -/
structure PendMma where
  tile : Nat
  pc : Pc
  zero : Bool
  fa : List Block
  fb : List Block
  la : List Word
  lb : List Word
  inj1 : Option Upset
  inj2 : Option Upset
  deriving DecidableEq, Repr

/-- A loop-buffer capture (06 R180): the packet span and the words held so far. -/
structure Loop where
  lo : Nat
  hi : Nat
  words : List (Nat × Word)
  deriving DecidableEq, Repr

/-- One group of 32 threads (06 R169). slotw: the set stalls for a channel slot (21 R441); collw: it stalls for a
collector entry (03 R103). gone: its instance has retired (13 R381), and its commands and accesses go on. -/
structure Group where
  key : GroupKey
  stage : Nat
  inst : Nat
  threads : List Thread
  uvec : Dword
  tiles : List Tile
  kpred : BitVec 16
  ols : List OlReg
  sets : List SetBind
  loop : Option Loop
  wcount : Nat
  hold : Option (Pc × List Nat)
  done : List Nat
  stalled : Bool
  slotw : Bool
  collw : Bool
  began : Option (Pc × List Nat) := none
  iss : Option Nat := none
  resv : Nat
  grant : Option Nat
  leave : Option Nat := none
  mmas : List PendMma
  ended : Bool
  gone : Bool := false
  deriving DecidableEq, Repr

/-! ### Commands and accesses in flight -/

/-- A tensor layout record as accepted (03 R105): its raw 64 bytes and its fields. -/
structure Layout where
  raw : Block
  base : Nat
  es : Nat
  ndim : Nat
  fillfmt : Nat
  fillse : Nat
  ext : List Nat
  str : List Int
  box : List Nat
  deriving DecidableEq, Repr

/-- A drain descriptor (11 R324). -/
structure DrainDesc where
  dest : Nat
  rstr : Int
  nofr : Bool
  sp : Bool
  df : Nat
  budget : Nat
  frec : Nat
  sumoff : Nat
  deriving DecidableEq, Repr

/-- One line of a drain: destination address, and the bytes it writes there, or the 16 cells it adds there, of 12 bytes
each. -/
structure DrainLine where
  addr : Nat
  data : List Byte
  deriving DecidableEq, Repr

/-- What the read of a line has given: its bytes, a fault kind, uncorrectable data. -/
inductive LineRead where
  | data (b : Block)
  | fault (k : XKind)
  | ecc
  deriving DecidableEq, Repr

/-- What the read of an index or a value of a gather or scatter has given: a number, or its failure (none: uncorrectable data)
and its line. -/
inductive GsRead where
  | num (n : Nat)
  | fail (k : Option XKind) (line : Nat)
  deriving DecidableEq, Repr

/-- The progress of an entry of the chunk that a gather or scatter works on (03 R104): its index and, for a scatter, its
value once they have been read; for a gather the position of its queue that it has claimed (03 R101); whether it is over. -/
structure GsElem where
  i : Nat
  ix : Option GsRead := none
  val : Option GsRead := none
  pos : Option Nat := none
  done : Bool := false
  deriving DecidableEq, Repr

/-- The progress of a copy inside its box: the box offsets of the pieces that have been moved in 32-byte granules of the box
that are not yet credited, and whether each failed; the source lines read so far, by address or scratchpad offset. -/
structure CopyProg where
  moved : List (Nat × Bool) := []
  lines : List (Nat × LineRead) := []
  deriving DecidableEq, Repr

/-- What an engine command does (05 R152). A gather or scatter has its chunk, from entry next on. A drain has its operation, group, tile and descriptor, its lines once it has
read the tile, the lines done, and for a TDRAIN.ADD the number of its first update (05 R164; 0: not made). -/
inductive CmdKind where
  | copy (store : Bool) (lay : Layout) (coord : List Int) (box ph : Nat) (ops : List Dword) (gmap : Nat) (prog : CopyProg)
  | mcast (src dst ph rows cols n next : Nat) (ops : List Dword)
  | qstream (q : QRef) (off n next : Nat) (ops : List Dword)
  | gath (q : QRef) (base idx cnt : Nat) (wide blk : Bool) (next : Nat) (cur : List GsElem)
  | scat (base idx cnt val : Nat) (wide blk : Bool) (next : Nat) (cur : List GsElem)
  | drain (op : Nat) (gk : GroupKey) (tile : Nat) (desc : DrainDesc) (read : Bool) (lines : List DrainLine)
      (dense : Bool) (done : List Nat) (seq : Nat)
  deriving DecidableEq, Repr

/-- The failures of a command so far (09 R281): the first in traversal order by its index. -/
structure FaultRec where
  v : Bool
  idx : Nat
  va : Nat
  fc : Nat
  kind : Nat
  sp : Bool
  dmap : Nat
  deriving DecidableEq, Repr

/-- An accepted engine command: number, issuing thread and its PC, cycle of acceptance, fault-record offset, bound
future; wait is the energy that a re-issued copy still asks for (13 R384). -/
structure Cmd where
  id : Nat
  wait : Option Nat
  thr : ThreadKey
  pc : Pc
  t0 : Nat
  frec : Option Nat
  fr : FaultRec
  fut : Option Nat
  kind : CmdKind
  deriving DecidableEq, Repr

/-- Where a returned lane goes: thread, register cell, value, taint. -/
structure LaneDst where
  thr : ThreadKey
  cell : Nat
  val : Dword
  taint : Bool
  deriving DecidableEq, Repr

/-- A collector entry (03 R102): a line request whose data has not reached its registers; spad marks a read of the
scratchpad, which takes no entry; plain marks a read that is no acquire and no atomic, which others may join. -/
structure LineReq where
  id : Nat
  gk : GroupKey
  spad : Bool
  plain : Bool
  line : Nat
  lanes : List LaneDst
  t0 : Nat
  pc : Pc
  deriving DecidableEq, Repr

/-- One lane of a store: its thread, physical address or scratchpad offset, size, value, virtual address and the level of its
translation. -/
structure StLane where
  thr : Nat
  addr : Nat
  n : Nat
  val : Nat
  va : Nat
  lvl : Nat := 4
  deriving DecidableEq, Repr

/-- The stores of one instruction to one line (03 R102), not yet ordered at the home slice or scratchpad; phys is the
translation of the first lane. -/
structure PendStore where
  id : Nat
  gk : GroupKey
  pc : Pc
  spad : Bool
  phys : Phys
  rel : Bool
  lanes : List StLane
  deriving DecidableEq, Repr

/-- What a load into a queue reads (09 R272): a word, a block, an outlier list. -/
inductive FillKind where
  | lane | block | olist
  deriving DecidableEq, Repr

/-- Where a load into a queue delivers. -/
inductive FillTgt where
  | pos (q : QRef) (fifo pos : Nat)
  | bound
  | drop
  deriving DecidableEq, Repr

/-- The outcome of translating one line of an access: its address, or a fault. -/
inductive XlatOut where
  | ok (p : Phys)
  | fault (k : XKind)
  deriving DecidableEq, Repr

/-- A load into a queue in flight (LDQ, LDBQ, REPLAY). xlat: for a REPLAY, the translation of each of its lines as it stood
when the REPLAY issued (09 R282), and the queue of the entry that it repeats. stuck: it waits for a replay-table entry (06
R188). -/
structure Fill where
  id : Nat
  thr : ThreadKey
  pc : Pc
  t0 : Nat
  kind : FillKind
  va : Nat
  tgt : FillTgt
  xlat : List XlatOut := []
  q : Option QRef := none
  stuck : Bool := false
  deriving DecidableEq, Repr

/-- A replay-table entry (06 R188): the access to repeat, and the queue that it delivers to. -/
structure Replay where
  kind : FillKind
  va : Nat
  thr : ThreadKey
  q : Option QRef := none
  deriving DecidableEq, Repr

/-- States of a response slot (03 R116). -/
inductive SlotSt where
  | free | reserved | landed | failed
  deriving DecidableEq, Repr

/-- A remote request (09 R284). left: the cycle in which it left the part, after its thread's earlier accesses (05 R153); none:
not yet. dead: the group that issued it has gone (21 R447). -/
structure RemReq where
  id : Nat
  thr : ThreadKey
  pc : Pc
  t0 : Nat
  put : Bool
  raddr : Nat
  len : Nat
  spo : Nat
  ph : Nat
  dk : Option QRef
  uv : Bool
  peer : Nat
  src : List Byte
  left : Option Nat := none
  dead : Bool := false
  deriving DecidableEq, Repr

/-- A response slot: state, request, data, the entries still to be pushed, the cycle in which it landed; bad: the 64-byte
pieces of its data that are uncorrectable (14 R398). -/
structure ChSlot where
  st : SlotSt
  req : Option RemReq
  data : List Byte
  todo : List QSlot
  land : Nat := 0
  bad : List Nat := []
  deriving DecidableEq, Repr

/-- A remote channel (03 R115, 09 R283); order holds the slots whose completion is still to be delivered, in landing
order (03 R117). -/
structure Channel where
  num : Nat
  peer : Nat
  uv : Bool
  slots : List ChSlot
  order : List Nat
  deriving DecidableEq, Repr

/-- A completion due to a thread (09 R286, 04 R139): of a channel slot, or of an ATTD entry whose first block is at
an offset. -/
inductive Due where
  | channel (ch slot : Nat)
  | attd (off : Nat)
  deriving DecidableEq, Repr

/-- A table descriptor (04 R118). -/
structure TableDesc where
  tbase : Nat
  nb : Nat
  kind : Nat
  hkv : Nat
  rb : Nat
  dh : Nat
  ovf : Nat
  free : Nat
  pbase : List Nat
  deriving DecidableEq, Repr

/-- The result of one participating stack of an ATTD: not arrived, its blocks for each head, or a failure. -/
inductive StkRes where
  | none
  | triple (heads : List (List Word))
  | fail (p : Poison)
  deriving DecidableEq, Repr

/-- An entry of an ATTD to be delivered: its blocks, or poison. -/
inductive AttEntry where
  | blocks (bs : List Block)
  | poison (p : Poison)
  deriving DecidableEq, Repr

/-- An ATTD command in flight (04 R130-R139): as accepted; the result of each stack; the late stacks; the next stack of the
first pass; whether all its entries have been made; the entries to be delivered and the blocks delivered before them;
the units that have their energy; the number of the free values of its late markers; whether the group that issued it has
gone. -/
structure AttCmd where
  id : Nat
  thr : ThreadKey
  pc : Pc
  t0 : Nat
  desc : TableDesc
  list : List Nat
  len : Nat
  scale : Word
  deadline : Nat
  nheads : Nat
  kvh : Nat
  query : List (List Word)
  dst : Option QRef
  land : Nat
  step : Nat
  pmask : Nat
  res : List StkRes
  late : List Nat
  first : Nat
  closed : Bool
  out : List AttEntry
  blk : Nat
  charged : List Nat
  fr : Nat
  dead : Bool := false
  deriving DecidableEq, Repr

/-! ### Teams and cores -/

/-- A team on a core (06 R169). Its scratchpad and queues travel with it across pre-emption (13 R382). -/
structure Team where
  key : TeamKey
  core : Nat
  resident : Bool
  spad : List Host.Cell
  spadBad : List Nat
  queues : List Queue
  chans : List Channel
  replay : List (Option Replay)
  fills : List Fill
  reqs : List LineReq
  stores : List PendStore
  copyq : List Cmd
  gsq : List Cmd
  drainq : List Cmd
  attn : List AttCmd
  nextId : Nat
  deque : List Dword
  spill : Nat
  cursor : Nat
  wdog : Nat
  qdead : Nat
  lod : Nat
  spillc : Nat
  beats : BitVec 64
  trig : Bool
  yielded : Bool
  ended : Bool
  reps : List Nat
  vecq : List (ThreadKey × Due × Nat)
  deriving DecidableEq, Repr

/-- A translation (01 R26): context, base of the page, level, leaf. -/
structure TlbEntry where
  ctx : Nat
  base : Nat
  lvl : Nat
  pte : Dword
  deriving DecidableEq, Repr

/-- An L1 line (03 R88, R89). -/
structure L1Line where
  line : Nat
  slot : Nat
  data : Block
  deriving DecidableEq, Repr

/-- A 64-byte piece of an instruction cache line, tagged by its physical address and key slot. -/
structure IcPiece where
  pa : Nat
  slot : Nat
  data : Block
  deriving DecidableEq, Repr

/-- An instruction cache line (07 R194, 14 R399): the packets of a 192-byte aligned span of a context's addresses, in
its three 64-byte pieces, each held or not. -/
structure IcLine where
  ctx : Nat
  base : Nat
  pieces : List (Option IcPiece)
  deriving DecidableEq, Repr

/-- A line that an L2 slice holds (03 R92): its slice, its line number and key slot (01 R39), its EVP, whether HBM has
still to be written, whether it is uncorrectable. -/
structure L2Line where
  slice : Nat
  line : Nat
  slot : Nat
  evp : Nat
  dirty : Bool
  bad : Bool
  data : Block
  deriving DecidableEq, Repr

/-- A core's own state (01 R26, 03 R88, 12 R363, 16 R415-R424). latch: its counts since the last clave tick, in the order
of words 9 to 14 of a frame (16 R428). -/
structure Core where
  tlb : List TlbEntry
  l1 : List L1Line
  icache : List IcLine
  halted : BitVec 4
  dbg0 : Dword
  dbg3 : Dword
  dbg5 : Dword
  dbg7 : Dword
  sketch : List ((Nat × Nat) × Nat)
  seeds : Nat
  hist : List (List Nat)
  inject : Dword
  issue : Nat
  fused : Nat
  rerun : Nat
  repref : Nat
  colldrop : Nat
  corr : Nat
  latch : List Nat
  deriving DecidableEq, Repr

/-! ### Jobs and contexts -/

/-- A stage entry (13 R369). -/
structure Stage where
  entry : Nat
  gauge : Bool
  rset : Nat
  exe : Bool
  groups : Nat
  maxg : Nat
  depth : Nat
  olr : Nat
  tiles : Nat
  cores : Nat
  deriving DecidableEq, Repr

/-- A queue or channel entry (13 R370). -/
structure QDecl where
  name : Nat
  dir : Nat
  mode : Nat
  depth : Nat
  dest : Nat
  frm : Nat
  deriving DecidableEq, Repr

/-- A pipeline record (13 R368). -/
structure Pipeline where
  cw : Nat
  ch : Nat
  nclu : Nat
  tasks : Bool
  spill : Nat
  spillc : Nat
  evovfc : Nat
  evovf : Nat
  stages : List Stage
  queues : List QDecl
  beats : List (Nat × BitVec 64)
  deriving DecidableEq, Repr

/-- States of a job (13 R373, R376-R379, R382): stopping, its slice has ended or is pre-empted, and what R382 lets run
to completion still runs; saving, its image is being saved. oob: it has run out of budget. incoming: it has been placed
on cores that the slices it pre-empts have still to leave. -/
inductive JobSt where
  | node | ready | incoming | running | outOfBudget | ended
  | stopping (oob : Bool)
  | saving (oob : Bool)
  deriving DecidableEq, Repr

/-- A job: its record (13 R364), its pipeline, and its progress; moving is the cycles that a load or a save still takes
(13 R444). -/
structure Job where
  id : Nat
  ctx : Nat
  keyslot : Nat
  deadline : Nat
  budget : Nat
  left : Nat
  tev : Option Nat
  tevDone : Bool
  rev : List Nat
  pipe : Pipeline
  counter : Nat
  regs : List Nat
  st : JobSt
  started : Bool
  places : List Nat
  fault : Option Nat
  aband : Option Nat
  moving : Nat
  need : Nat
  deriving DecidableEq, Repr

/-- An exposed region (15 R412). -/
structure Exposure where
  lo : Nat
  hi : Nat
  peers : List Nat
  write : Bool
  deriving DecidableEq, Repr

/-- A context (01 R13, 13 R374, R387, 15 R411). -/
structure Ctx where
  ctxid : Nat
  part : Nat
  ownslot : Nat
  root : Nat
  slotmask : BitVec 256
  evBase : Nat
  evCount : Nat
  saveVa : Nat
  saveSize : Nat
  peers : List PeerEntry
  expo : List Exposure
  ended : Bool
  deriving DecidableEq, Repr

/-- A record of an event overflow area (12 R349, 13 R374): the job whose area holds it, its place there, the context and
address it is written at, the number of the free value of its contents. -/
structure OvfRec where
  job : Nat
  ix : Nat
  ctx : Nat
  va : Nat
  fill : Nat
  deriving DecidableEq, Repr

/-- A waiter record of an event (12 R349): a group or a node; the overflow record that holds it, none for an inline one. -/
structure Waiter where
  who : Sum GroupKey Nat
  area : Option OvfRec
  deriving DecidableEq, Repr

/-- An event (12 R346): its state word and its waiter records. -/
structure Event where
  word : Dword
  waiters : List Waiter
  deriving DecidableEq, Repr

/-- Key slot states (01 R37). -/
inductive KeySt where
  | empty | loaded | destroyed
  deriving DecidableEq, Repr

/-- A key slot: state and epoch (01 R37, R41). -/
structure KeySlot where
  st : KeySt
  epoch : Nat
  deriving DecidableEq, Repr

/-- An energy request (15 R403): a group, or one unit of an ATTD command; its cost, the cycle it arrived in, and the
place of its group among the requests of that cycle; swap: it is a LEAVE's, which replaces the reservation (R404). -/
structure EReq where
  who : Sum GroupKey (TeamKey × Nat × Nat)
  cost : Nat
  cyc : Nat
  rank : Nat
  swap : Bool := false
  deriving DecidableEq, Repr

/-- An island's account and the requests waiting on it (15 R401, R403). -/
structure Island where
  level : Int
  rate : Nat
  cap : Nat
  used : Nat
  reqs : List EReq
  deriving DecidableEq, Repr

/-- Who waits for a walk (01 R28): a thread's access, the lines that a REPLAY or an ATTD of a thread reads, the KV operation that a
thread has sent, a numbered access or command of a team, a prefetch of a core. -/
inductive Asker where
  | thread (th : ThreadKey)
  | reads (th : ThreadKey)
  | kv (th : ThreadKey)
  | unit (k : TeamKey) (id : Nat)
  | prefetch (core : Nat)
  deriving DecidableEq, Repr

/-- A walk request (01 R28): context, the 64 KiB of the first request, who waits and for which 64 KiB of the page,
whether a walker has it, whether a TLBINV has covered it (12 R361). -/
structure Walk where
  ctx : Nat
  vpn : Nat
  waiters : List (Asker × Nat)
  walking : Bool
  stale : Bool
  deriving DecidableEq, Repr

/-- A drumline flit in flight (03 R111): source core, job, data, offsets, and for each destination the landing cycle
and whether the flit has been dropped on its way there; the router outputs it has still to pass. -/
structure Flit where
  id : Nat
  src : Nat
  tk : TeamKey
  cmd : Nat
  data : Block
  bad : Bool
  dst : Nat
  ph : Nat
  dests : List (Nat × Nat × Bool)
  path : List ((Nat × Nat × Nat) × List Nat)
  deriving DecidableEq, Repr

/-- The trace ring (16 R419). -/
structure Ring where
  tbase : Nat
  tsize : Nat
  wptr : Nat
  rptr : Nat
  ten : Bool
  deriving DecidableEq, Repr

/-- Clave streaming (16 R427, R428): registers, buffered frames with their tick, the ticks merged into them and their bytes
from the header on, the ticks to merge into the next frame, and the triples delivered and late markers of each stack
since the last tick. -/
structure Clave where
  cbase : Nat
  ck : Nat
  nfr : Nat
  cen : Bool
  frames : List (Nat × Nat × List Byte)
  lost : Nat
  stk : List Nat
  deriving DecidableEq, Repr

/-- A mailbox slot (15 R409): busy, the 64 bytes of its command and of its response. -/
structure MboxSlot where
  busy : Bool
  command : Block
  response : Block
  deriving DecidableEq, Repr

/-- A mailbox command (15 R409); bad: its code is unknown, or a reserved field is not zero (15 R448). -/
inductive MCmd where
  | keyLoad (slot : Nat) (unwraps : Bool)
  | releaseSlot (slot : Nat)
  | createContext (desc : CtxDesc)
  | setSaveArea (ctx va size : Nat)
  | setEventRange (ctx base count : Nat)
  | setPeerTable (ctx count : Nat) (entries : List PeerEntry)
  | endCtx (ctx : Nat)
  | abandon (ctx code : Nat)
  | grantBudget (job budget : Nat)
  | grantDeadline (job deadline : Nat)
  | setPartitionTable (shared : Bool) (table : List Partition)
  | setEnergyTable (addr : Nat)
  | setRateCap (island rate cap : Nat)
  | setWindow (base slot : Nat)
  | setRetransmissionBudget (cycles : Nat)
  | exposeRegion (ctx lo hi : Nat) (peers : List Nat) (write : Bool)
  | checkpoint (dest : CkptDest)
  | bad
  deriving DecidableEq, Repr

end Sys2Proof.Machine

/-- The command that 64 bytes of a mailbox slot carry (15 R409): the encoding is not the manual's (log 61). None: no
command, which completes as BADCMD (15 R448). -/
opaque Sys2Proof.Config.mboxCommand : BitVec 512 → Option Sys2Proof.Machine.MCmd

namespace Sys2Proof.Machine

/-- A line of a checkpoint image (15 R413): its number, its owner tag (01 R41) and its ciphertext. -/
structure ImgLine where
  line : Nat
  slot : Nat
  epoch : Nat
  cipher : Block
  deriving DecidableEq, Repr

/-- A checkpoint image (15 R413): the lines of device memory that have been written since power-on, those that are
uncorrectable, and the saved teams and their groups. -/
structure Image where
  lines : List ImgLine
  bad : List Nat
  teams : List Team
  groups : List Group
  deriving DecidableEq, Repr

/-- What the outside has been answered. -/
inductive HostOut where
  | read (data : List Byte)
  | readAbort
  | readPoisoned (data : List Byte)
  | admission (status : Nat) (rec : BitVec 128)
  | peerRead (data : List Byte)
  | peerDone
  | peerError
  | pin (n : Nat)
  | image (dest : CkptDest) (img : Image)
  deriving DecidableEq, Repr

/-- MODEL. A completion on an engine of a core in the current cycle, to be counted (16 R423): the thread and PC that issued
it and its latency. -/
structure Completion where
  core : Nat
  eng : Nat
  thr : ThreadKey
  pc : Pc
  lat : Nat
  deriving DecidableEq, Repr

/-- MODEL. The issue pass being executed: its group, the selected threads that still take part, the PC and the word,
and whether the set has been held at the word; mid: the threads that a control transfer has brought into the middle of a
chain (07 R199). -/
structure Pass where
  gk : GroupKey
  sel : List Nat
  pc : Pc
  word : Word
  held : Bool
  mid : List Nat := []
  iss : Nat := 0
  began : Pc × List Nat := (0, [])
  deriving DecidableEq, Repr

/-- MODEL. A move of the machine: an issue pass of a group, an event, or the next cycle. -/
inductive Move where
  | issue (gk : GroupKey)
  | event (i : Instr)
  | tick
  deriving DecidableEq, Repr

/-- The state of the part. mem, tags, bad: HBM, its owner tags and its uncorrectable lines; l2: the lines of the L2 slices,
the least recently used first; wpart: the bytes of a line, as a mask, that a partition has written while a slice holds
a copy of the line (03 R94); l2tlb: the second-level translations by slice; results: the outcomes of walks that
accesses other than threads' own have not used yet; kvHomes: the cached home entries of KV probes, by slice, context
and bucket (03 R96); kvLog: the stores and atomics performed while a KV operation is in flight (04 R126). strays: the
triples of ATTD commands that have been abandoned and may still arrive, by command and stack, with their heads (04 R136).
thefts: MODEL: the STEALs of a cycle, by the deque that each has looked at and the core it came from (19 R434).
heldPeer: the peer requests held while a checkpoint runs (15 R413). ckpt: a checkpoint runs; mswitch: a mode switch (03 R97)
waits for every slice to leave. mq: the mailbox commands that have started and not finished, in order, by slot. -/
structure State where
  cycle : Nat
  mem : List Host.Cell
  tags : List (Nat × (Nat × Nat))
  bad : List Nat
  l2 : List L2Line
  wpart : List (Nat × Nat × Nat)
  l2tlb : List (Nat × TlbEntry)
  walks : List Walk
  results : List (Asker × Nat × WalkOut)
  kvHomes : List (Nat × Nat × Nat)
  kvLog : List (Nat × Nat)
  slots : List (Nat × KeySlot)
  ctxs : List Ctx
  shared : Bool
  parts : List Partition
  jobs : List Job
  nextJob : Nat
  teams : List Team
  groups : List Group
  cores : List (Nat × Core)
  admq : List Block
  events : List (Nat × Event)
  islands : List (Nat × Island)
  etab : Option Nat
  evq : List SupRecord
  held : List SupRecord
  seqs : List (Nat × Nat)
  window : Nat × Nat
  mbox : List (Nat × MboxSlot)
  mq : List (Nat × MCmd)
  msix : BitVec 64
  retx : Nat
  hostq : List HostOut
  dctrs : List (Nat × Nat)
  ring : Ring
  clave : Clave
  xlines : List (Nat × Dword)
  xpend : List (Nat × Option Nat × Nat)
  thsel : Nat
  flits : List Flit
  nextFlit : Nat
  ckpt : Bool
  mswitch : Bool
  heldPeer : List Instr
  strays : List (TeamKey × Nat × Nat × Nat)
  compl : List Completion
  thefts : List (Nat × TeamKey × Nat)
  fresh : Nat
  agenda : List Move
  pass : Option Pass
  deriving DecidableEq, Repr

/-! ### Outcomes that stop the model -/

/-- The model's faults. -/
inductive Fault where
  /-- Raised by the meaning of an instruction word executed outside an issue pass. Safe: no step of the machine
  executes a word so. -/
  | noIssue
  deriving DecidableEq, Repr

/-- The model's refusals. -/
inductive Refusal where
  /-- Raised by an arm of `exec` whose instruction has no meaning yet. Safe. -/
  | notModelled (mnemonic : String)
  deriving DecidableEq, Repr

/-! ### Reset -/

/-- Context 0 after power-on (log 9): the system's, with slot 0 permitted and no page table set. -/
def ctx0 : Ctx where
  ctxid := 0
  part := 0
  ownslot := 0
  root := 0
  slotmask := 1#256
  evBase := 0
  evCount := 0
  saveVa := 0
  saveSize := 0
  peers := []
  expo := []
  ended := false

/-- The part right after power-on (01 R41, 15 R401, 03 R93): memory zeroed under slot 0, slot 0 loaded, every other
slot empty, shared mode, no job, no pending input. -/
def State.reset : State where
  cycle := 0
  mem := []
  tags := []
  bad := []
  l2 := []
  wpart := []
  l2tlb := []
  walks := []
  results := []
  kvHomes := []
  kvLog := []
  slots := []
  ctxs := [ctx0]
  shared := true
  parts := [{ sbase := 0, scnt := 8, cores := List.range 576 }]
  jobs := []
  nextJob := 0x10
  teams := []
  groups := []
  cores := []
  admq := []
  events := []
  islands := []
  etab := none
  evq := []
  held := []
  seqs := []
  window := (0, 0)
  mbox := []
  mq := []
  msix := 0#64
  retx := 12000000
  hostq := []
  dctrs := []
  ring := { tbase := 0, tsize := 16, wptr := 0, rptr := 0, ten := false }
  clave := { cbase := 0, ck := 10, nfr := 0, cen := false, frames := [], lost := 0, stk := List.replicate 16 0 }
  xlines := []
  xpend := []
  thsel := 0
  flits := []
  nextFlit := 0
  ckpt := false
  mswitch := false
  heldPeer := []
  strays := []
  compl := []
  thefts := []
  fresh := 0
  agenda := []
  pass := none

end Sys2Proof.Machine
end

