-- ==== Sys2Proof/Machine/Mem.lean ====
section
/-! DEFINITION. Memory as canonical lists of cells: the byte cells of device memory and of scratchpads, owner tags
(01 R41), uncorrectable lines (14 R446), and numbered tables. -/

namespace Sys2Proof.Machine

/-! ### Cells -/

/-- The byte at an address; an unlisted byte reads 0 (01 R15, R41). -/
def cellGet : List Host.Cell → Nat → Byte
  | [], _ => 0
  | (k, v) :: r, a => if k = a then v else cellGet r a

/-- Write one byte, keeping the canonical form. -/
def cellSet : List Host.Cell → Nat → Byte → List Host.Cell
  | [], a, v => if v = 0 then [] else [(a, v)]
  | (k, w) :: r, a, v =>
    if a < k then (if v = 0 then (k, w) :: r else (a, v) :: (k, w) :: r)
    else if a = k then (if v = 0 then r else (a, v) :: r)
    else (k, w) :: cellSet r a v

/-- The canonical form: addresses strictly rising, no listed zero. -/
def Memory.wf : List Host.Cell → Bool
  | [] => true
  | [(_, v)] => v != 0
  | (k, v) :: (l, w) :: r => v != 0 && decide (k < l) && Memory.wf ((l, w) :: r)

/-- n bytes from an address. -/
def cellRead (m : List Host.Cell) (a : Nat) : Nat → List Byte
  | 0 => []
  | n + 1 => cellGet m a :: cellRead m (a + 1) n

/-- Write a list of bytes from an address. -/
def cellWrite (m : List Host.Cell) (a : Nat) : List Byte → List Host.Cell
  | [] => m
  | b :: bs => cellWrite (cellSet m a b) (a + 1) bs

/-- n bytes as a little-endian number (00 R4). -/
def cellNum (m : List Host.Cell) (a n : Nat) : Nat := leNat (cellRead m a n)

/-- A block from its 64 bytes. -/
def blockOf (bs : List Byte) : Block := BitVec.ofNat 512 (leNat bs)

/-- The 64 bytes of a block. -/
def blockBytes (b : Block) : List Byte := leBytes 64 b.toNat

/-! ### Numbered tables -/

/-- The entry of a key, or the default. -/
def tabGet {α : Type} (d : α) : List (Nat × α) → Nat → α
  | [], _ => d
  | (k, v) :: r, a => if k = a then v else tabGet d r a

/-- Write the entry of a key, keys rising. -/
def tabSet {α : Type} : List (Nat × α) → Nat → α → List (Nat × α)
  | [], a, v => [(a, v)]
  | (k, w) :: r, a, v =>
    if a < k then (a, v) :: (k, w) :: r
    else if a = k then (a, v) :: r
    else (k, w) :: tabSet r a v

/-- Remove the entry of a key. -/
def tabDel {α : Type} (l : List (Nat × α)) (a : Nat) : List (Nat × α) := l.filter (fun e => e.1 != a)

/-! ### Lines of device memory -/

/-- State and epoch of a key slot (01 R36, R37, R41): slot 0 is always loaded with epoch 0. -/
def State.slot (s : State) (n : Nat) : KeySlot :=
  if n = 0 then { st := .loaded, epoch := 0 } else tabGet { st := .empty, epoch := 0 } s.slots n

/-- The owner tag that a write under a slot sets (R41). -/
def State.tagOf (s : State) (n : Nat) : Nat × Nat := (n, (s.slot n).epoch)

/-- The owner tag of a line; a line not written since power-on is under slot 0, epoch 0 (R41). -/
def State.lineTag (s : State) (line : Nat) : Nat × Nat := tabGet (0, 0) s.tags line

/-- The outcome of reading the data path: bytes, an owner-tag mismatch (R41) or uncorrectable data (R398). -/
inductive DataOut where
  | ok (bs : List Byte)
  | keymis
  | ecc
  deriving DecidableEq, Repr

/-- The n-th free value as bytes (00 R7). -/
def freeBytes (fresh n : Nat) : List Byte := (leBytes 64 (Config.free fresh).toNat).take n

/-! ### HBM (01 R41, 03 R98, 14 R446) -/

/-- The stack of a physical address (03 R98). -/
def hbmStack (pa : Nat) : Nat :=
  if bit pa 38 then bits pa 37 35 else bits pa 14 12 ^^^ bits pa 23 21 ^^^ bits pa 32 30

/-- Read n bytes of one line of HBM under a slot (R41, R446). -/
def State.hbmRead (s : State) (slot pa n : Nat) : DataOut :=
  if s.bad.contains (pa / 64) then .ecc
  else if s.lineTag (pa / 64) != s.tagOf slot then .keymis
  else .ok (cellRead s.mem pa n)

/-- Write bytes within one line of HBM under a slot (R41, R446). -/
def State.hbmWrite (s : State) (slot pa : Nat) (bs : List Byte) : State :=
  let line := pa / 64
  if bs.length = 64 then
    { s with mem := cellWrite s.mem pa bs, tags := tabSet s.tags line (s.tagOf slot), bad := s.bad.filter (· != line) }
  else if s.bad.contains line || s.lineTag line == s.tagOf slot then { s with mem := cellWrite s.mem pa bs }
  else
    { s with
      mem := cellWrite (cellWrite s.mem (64 * line) (List.replicate 64 0)) pa bs
      tags := tabSet s.tags line (s.tagOf slot) }

/-- A line of HBM holds uncorrectable data (14 R398). -/
def State.hbmBad (s : State) (line : Nat) : State :=
  if s.bad.contains line then s else { s with bad := s.bad ++ [line] }

/-! ### The L2 slices (03 R92-R95) -/

/-- How the L2 treats an access: the partition that makes it (none: the management cores and the host, log 44),
and the CL, WP and EVP of its leaf (01 R19); walk: a page walker makes it, whose lines take EVP 3 (R92). -/
structure Pol where
  part : Option Nat
  cl : Nat
  wp : Nat
  evp : Nat
  walk : Bool := false
  deriving DecidableEq, Repr

/-- An access of the management cores or the host. -/
def Pol.outside : Pol := { part := none, cl := 0, wp := 2, evp := 0 }

/-- The fold of a physical address (R93). -/
def foldPa (pa : Nat) : Nat := bits pa 13 6 ^^^ bits pa 21 14 ^^^ bits pa 29 22 ^^^ bits pa 37 30 ^^^ bits pa 45 38

/-- The slices of a partition: SBASE and SCNT (R93). -/
def State.sliceRange (s : State) (part : Option Nat) : Nat × Nat :=
  if s.shared then (0, 8)
  else match part.bind (fun p => s.parts[p]?) with
    | some x => (x.sbase, x.scnt)
    | none => (0, 8)

/-- The home slice of a physical address in a partition (R93). -/
def State.homeSlice (s : State) (part : Option Nat) (pa : Nat) : Nat :=
  let r := s.sliceRange part
  32 * r.1 + foldPa pa * (32 * r.2) / 256

/-- The partition that a slice belongs to. -/
def State.partAt (s : State) (slice : Nat) : Option Nat :=
  if s.shared then some 0
  else s.parts.findIdx? (fun x => decide (32 * x.sbase ≤ slice) && decide (slice < 32 * (x.sbase + x.scnt)))

/-- The copy of a line under a slot that an access meets (01 R39): in its home slice, or for an access from outside the
partitions the copy that HBM has still to take. -/
def State.l2Find (s : State) (part : Option Nat) (slot line : Nat) : Option L2Line :=
  if part.isNone && !s.shared then
    let l := s.l2.filter (fun x => x.line == line && x.slot == slot)
    (l.find? (fun x => x.dirty)) <|> l.head?
  else s.l2.find? (fun x => x.line == line && x.slot == slot && x.slice == s.homeSlice part (64 * line))

/-- The bytes of a line, as a mask, that are undefined to a partition: another has written them and a slice still holds a
copy (R94). From outside the partitions they are those of a line that several have written. -/
def State.foreign (s : State) (part : Option Nat) (line : Nat) : Nat :=
  if s.shared then 0
  else
    let w := s.wpart.filter (fun x => x.1 == line)
    match part with
    | some p => (w.filter (fun x => x.2.1 != p)).foldl (fun m x => m ||| x.2.2) 0
    | none => if w.length ≤ 1 then 0 else w.foldl (fun m x => m ||| x.2.2) 0

/-- Bytes from an offset of a line, those of a mask free (00 R7). -/
def maskFree (fresh mask off : Nat) (bs : List Byte) : List Byte :=
  if mask = 0 then bs
  else bs.mapIdx (fun i b => if mask.testBit (off + i) then (freeBytes fresh 64).getD (off + i) 0 else b)

/-- Read n bytes of one line under a slot, in a partition: from the L2 copy of the line, else from HBM. -/
def State.readLine (s : State) (part : Option Nat) (slot pa n : Nat) : DataOut :=
  let out : DataOut := match s.l2Find part slot (pa / 64) with
    | some x => if x.bad then .ecc else .ok (((blockBytes x.data).drop (pa % 64)).take n)
    | none => s.hbmRead slot pa n
  match out with
  | .ok bs => .ok (maskFree s.fresh (s.foreign part (pa / 64)) (pa % 64) bs)
  | o => o

/-- The masks of a line that no slice holds go (R94). -/
def State.prune (s : State) (line : Nat) : State :=
  if s.wpart.isEmpty || s.l2.any (fun x => x.line == line) then s
  else { s with wpart := s.wpart.filter (fun x => x.1 != line) }

/-- A partition has written bytes of a line, as a mask. -/
def State.noteWrite (s : State) (part : Option Nat) (line mask : Nat) : State :=
  match part with
  | none => s
  | some p =>
    if s.shared then s
    else
      let old := ((s.wpart.find? (fun x => x.1 == line && x.2.1 == p)).map (fun x => x.2.2)).getD 0
      ({ s with wpart := s.wpart.filter (fun x => !(x.1 == line && x.2.1 == p)) ++ [(line, p, old ||| mask)] } : State).prune line

/-- A slice gives a line up: what HBM has still to take is written back, with the check pattern where it is uncorrectable
(14 R398). -/
def State.evict (s : State) (x : L2Line) : State :=
  let s := { s with l2 := s.l2.erase x }
  if x.dirty then
    let m := s.foreign (s.partAt x.slice) x.line
    let s := s.hbmWrite x.slot (64 * x.line) (maskFree s.fresh m 0 (blockBytes x.data))
    let s := if s.shared then s else { s with fresh := s.fresh + 1 }
    (if x.bad then s.hbmBad x.line else s).prune x.line
  else s.prune x.line

/-- The line that leaves a set: the lowest EVP, among equals the least recently used (R92). -/
def evictee : List L2Line → Option L2Line
  | [] => none
  | x :: r => some (r.foldl (fun a y => if y.evp < a.evp then y else a) x)

/-- The set of its slice that a line falls in (R92). -/
def l2Set (line : Nat) : Nat := Config.l2Hash line % Config.l2Sets

/-- A line enters its slice; a full set gives one up (R92). -/
def State.allocate (s : State) (x : L2Line) : State :=
  let mine := s.l2.filter (fun y => y.slice == x.slice)
  let s :=
    if mine.length < Config.l2Ways then s
    else
      let set := mine.filter (fun y => l2Set y.line == l2Set x.line)
      if set.length < Config.l2Ways then s
      else match evictee set with
        | some y => s.evict y
        | none => s
  { s with l2 := s.l2 ++ [x] }

/-- What a read leaves of the L2 (R92, R95): the line is the most recently used, a miss allocates it, streaming does not,
with CL = 10 no slice keeps it. -/
def State.l2Touch (s : State) (p : Pol) (slot pa : Nat) : State :=
  let line := pa / 64
  if p.part.isNone then s
  else match s.l2Find p.part slot line with
    | some x => if p.cl = 2 then s.evict x else { s with l2 := s.l2.erase x ++ [if p.walk then { x with evp := p.evp } else x] }
    | none =>
      if p.cl = 2 || p.wp = 2 then s
      else match s.hbmRead slot (64 * line) 64 with
        | .ok bs => s.allocate { slice := s.homeSlice p.part (64 * line), line := line, slot := slot, evp := p.evp
                                 dirty := false, bad := false, data := blockOf bs }
        | _ => s

/-- A copy takes bytes from an offset; all 64 make it correct again (14 R446). -/
def L2Line.put (x : L2Line) (off : Nat) (bs : List Byte) : L2Line :=
  { x with
    bad := x.bad && bs.length != 64
    data := blockOf ((blockBytes x.data).take off ++ bs ++ (blockBytes x.data).drop (off + bs.length)) }

/-- The copy that a write makes of a line that its slice does not hold: none where the line is uncorrectable and stays
so (R41, 14 R446). -/
def State.freshCopy (s : State) (p : Pol) (slot pa : Nat) (bs : List Byte) : Option L2Line :=
  let line := pa / 64
  let old : Option (List Byte) :=
    if bs.length = 64 then some (List.replicate 64 0)
    else match s.hbmRead slot (64 * line) 64 with
      | .ok b => some b
      | .keymis => some (List.replicate 64 0)
      | .ecc => none
  old.map (fun b => ({ slice := s.homeSlice p.part (64 * line), line := line, slot := slot, evp := p.evp
                       dirty := true, bad := false, data := blockOf b } : L2Line).put (pa % 64) bs)

/-- The mask of n bytes from an offset of a line. -/
def byteMask (off n : Nat) : Nat := (2 ^ n - 1) * 2 ^ off

/-- Write bytes within one line under a slot (R95): write-back in the slice, which allocates the line; write-through in
the slice and HBM; streaming in the slice where it holds the line, else HBM; HBM with CL = 10. From outside the
partitions every copy and HBM take them. -/
def State.writeLine (s : State) (p : Pol) (slot pa : Nat) (bs : List Byte) : State :=
  let line := pa / 64
  let off := pa % 64
  if p.part.isNone then
    ({ s with l2 := s.l2.map (fun x => if x.line = line ∧ x.slot = slot then x.put off bs else x) } : State).hbmWrite slot pa bs
  else
    let s : State := match s.l2Find p.part slot line with
      | some x =>
        if p.cl = 2 then (s.evict x).hbmWrite slot pa bs
        else if p.wp = 1 then ({ s with l2 := s.l2.erase x ++ [x.put off bs] } : State).hbmWrite slot pa bs
        else { s with l2 := s.l2.erase x ++ [{ x.put off bs with dirty := true }] }
      | none =>
        if p.cl = 2 || p.wp != 0 then s.hbmWrite slot pa bs
        else match s.freshCopy p slot pa bs with
          | some x => s.allocate x
          | none => s.hbmWrite slot pa bs
    s.noteWrite p.part line (byteMask off bs.length)

/-- A line is stored as uncorrectable, with the check pattern (02 R71): HBM holds it so, and the slice's copy goes. -/
def State.storeBad (s : State) (p : Pol) (slot line : Nat) : State :=
  (match s.l2Find p.part slot line with
   | some x => { s with l2 := s.l2.erase x }
   | none => s).hbmBad line

/-- A slice writes a line back and keeps it (04 R137: a gong unit is to read it from its stack). -/
def State.l2Clean (s : State) (part : Option Nat) (slot line : Nat) : State :=
  match s.l2Find part slot line with
  | some x => if x.dirty then (s.evict x).allocate { x with dirty := false } else s
  | none => s

/-- Write back and invalidate the lines of the slices that meet a condition (01 R38, 03 R97). -/
def State.l2Flush (s : State) (c : L2Line → Bool) : State := (s.l2.filter c).foldl State.evict s

/-- Split n bytes from an address at line boundaries: (address, count) of each piece. -/
def linePieces (a n : Nat) : List (Nat × Nat) :=
  (List.range ((a + n + 63) / 64 - a / 64)).map (fun i =>
    let lo := max a (64 * (a / 64 + i))
    let hi := min (a + n) (64 * (a / 64 + i) + 64)
    (lo, hi - lo))

/-- Write bytes line by line under a slot, from outside the partitions. -/
def State.writePhys (s : State) (slot pa : Nat) (bs : List Byte) : State :=
  (linePieces pa bs.length).foldl (fun s p => s.writeLine .outside slot p.1 ((bs.drop (p.1 - pa)).take p.2)) s

/-- Read bytes line by line under a slot, from outside the partitions: all of them, or the first failure. -/
def State.readPhys (s : State) (slot pa n : Nat) : DataOut :=
  (linePieces pa n).foldl (fun acc p =>
    match acc with
    | .ok bs =>
      match s.readLine none slot p.1 p.2 with
      | .ok b => .ok (bs ++ b)
      | e => e
    | e => e) (.ok [])

end Sys2Proof.Machine
end

