-- ==== Sys2Proof/Machine/Blocks.lean ====
section
/-! DEFINITION. Self-describing blocks (02 R51-R70, R77, R78): scales, layouts, checks, escapes, the VQ2 codebook,
decoding, and the quantiser (10 R302-R305). -/

namespace Sys2Proof.Machine

/-! ### Layout (R54-R59) -/

/-- Byte i of a block. -/
def bbyte (b : Block) (i : Nat) : Nat := bits b.toNat (8 * i + 7) (8 * i)

/-- Format code. -/
def blkFmt (b : Block) : Nat := bits (bbyte b 0) 4 0
/-- Block scale fraction. -/
def blkSf (b : Block) : Nat := bits (bbyte b 0) 6 5
/-- Block scale exponent. -/
def blkSe (b : Block) : Nat := bbyte b 1

/-- The element format of a format code. -/
def elemFmt : Nat → NumFmt
  | 0x01 => .fp32 | 0x02 => .bf16 | 0x03 => .fp16 | 0x04 => .e4m3 | 0x05 => .e5m2 | 0x06 => .int8
  | 0x07 => .e3m2 | 0x08 => .e2m3 | 0x09 => .e2m1 | _ => .int4

/-- Elements of a block (R55, 10 R306). -/
def elemCount (fmt : Nat) : Nat :=
  if fmt = 1 then 15 else if fmt = 2 ∨ fmt = 3 then 24 else if 4 ≤ fmt ∧ fmt ≤ 6 then 48
  else if fmt = 7 ∨ fmt = 8 then 72 else if fmt = 9 ∨ fmt = 10 then 96 else if fmt = 11 then 192
  else if fmt = 16 then 32 else 0

/-- Is a format code reserved? -/
def fmtReserved (fmt : Nat) : Bool := decide (11 < fmt) && fmt != 16

/-- Stride of the groups of a grouped format with scale bytes (R55). -/
def stride (fmt : Nat) : Nat :=
  if fmt ≤ 6 then 25 else if fmt ≤ 8 then 19 else if fmt ≤ 10 then 13 else 7

/-- Groups of a grouped format with scale bytes. -/
def groupCount (fmt : Nat) : Nat := if 4 ≤ fmt ∧ fmt ≤ 11 then elemCount fmt / 24 else 0

/-- Units of a group: elements, or VQ2 indices (R78). -/
def unitCount (fmt : Nat) : Nat := if fmt = 11 then 3 else 24

/-- Width of a unit. -/
def unitWidth (fmt : Nat) : Nat := if fmt = 11 then 16 else (elemFmt fmt).width

/-- Byte offset of OLB, for the formats with outlier bytes. -/
def olbAt (fmt : Nat) : Nat := if fmt = 11 then 58 else 54

/-- Does a format have outlier bytes? -/
def hasOl (fmt : Nat) : Bool := decide (9 ≤ fmt) && decide (fmt ≤ 11)

/-- OLB of a block. -/
def blkOlb (b : Block) : Nat := if hasOl (blkFmt b) then bits (bbyte b (olbAt (blkFmt b))) 5 0 else 0

/-- OLN of a block. -/
def blkOln (b : Block) : Nat := if hasOl (blkFmt b) then bits (bbyte b (olbAt (blkFmt b) + 1)) 5 0 else 0

/-- First reserved byte after the layout (R55). -/
def layoutEnd (fmt : Nat) : Nat :=
  if fmt = 1 then 62 else if fmt = 2 ∨ fmt = 3 then 50 else if fmt = 0 then 64
  else if hasOl fmt then olbAt fmt + 2 else 2 + groupCount fmt * stride fmt

/-- Unit i of group g (R56). -/
def unitAt (b : Block) (fmt g i : Nat) : Nat :=
  let lo := 8 * (2 + g * stride fmt) + unitWidth fmt * i
  bits b.toNat (lo + unitWidth fmt - 1) lo

/-- Scale byte of group g (R55). -/
def scaleByte (b : Block) (fmt g : Nat) : Nat := bbyte b (2 + g * stride fmt + stride fmt - 1)

/-- Is a unit an escape (R62)? -/
def isEscape (fmt c : Nat) : Bool := ((fmt == 9 || fmt == 10) && c == 8) || (fmt == 11 && c == 0xFFFF)

/-- The units of a grouped block in order. -/
def units (b : Block) : List Nat :=
  let fmt := blkFmt b
  (List.range (groupCount fmt)).flatMap (fun g => (List.range (unitCount fmt)).map (fun i => unitAt b fmt g i))

/-- The escape codes of a block. -/
def escapeCount (b : Block) : Nat := ((units b).filter (fun c => isEscape (blkFmt b) c)).length

/-! ### Scales (R51, R52) -/

/-- `block_scale`. -/
def blockScale (se sf : Nat) : FVal := .fin false (4 + sf) ((se : Int) - 127 - 2)

/-- `ue4m3_value`. -/
def ue4m3 (c : Nat) : FVal := fpDecode .ue4m3 c

/-- A code's value under scales (R53); a NaN stays as it is. An infinity under a zero scale is the NaN of 0 times infinity, for
which decoding sets no flag NV: whether R76 counts it as an invalid operation is not said (log 63). -/
def scaled (v : FVal) (sc : List FVal) : FVal :=
  sc.foldl (fun v s => match v with | .nan q => .nan q | _ => (v.mul s).1) v

/-! ### Checks (R68) -/

/-- How a block fails. -/
inductive BlkErr where
  | poison | fmt | hdr | olref
  deriving DecidableEq, Repr

/-- Bytes of one SPB value. -/
def spbWidth (b : Block) : Nat := if bit (bbyte b 2) 7 then 2 else 4

/-- The bitmap of an SPB block. -/
def spbMap (b : Block) : Nat := bits b.toNat 63 32

/-- Check 3 of an SPB block (R59). -/
def spbBad (b : Block) : Bool :=
  let nv := bits (bbyte b 3) 5 0
  bits (bbyte b 2) 6 5 != 0 || bits (bbyte b 3) 7 6 != 0 || decide (nv > 56 / spbWidth b)
    || nv != (maskList 32 (spbMap b)).length || (b.toNat / 2 ^ (8 * (8 + spbWidth b * nv))) != 0

/-- Check 3 of R68. -/
def headerBad (b : Block) : Bool :=
  let fmt := blkFmt b
  (bit (bbyte b 0) 7 && !(fmt == 1 || fmt == 2 || fmt == 16))
  || (if fmt = 16 then spbBad b
      else b.toNat / 2 ^ (8 * layoutEnd fmt) != 0
        || (List.range (groupCount fmt)).any (fun g => bit (scaleByte b fmt g) 7)
        || (hasOl fmt && (bits (bbyte b (olbAt fmt)) 7 6 != 0 || bits (bbyte b (olbAt fmt + 1)) 7 6 != 0
            || blkOln b != escapeCount b)))

/-- Entries of the list that one escape takes (R64). -/
def escSpan (fmt : Nat) : Nat := if fmt = 11 then 8 else 1

/-- The checks of R68, in order; check 4 only against a list, of this count. -/
def checkBlock (b : Block) (count : Option Nat) : Option BlkErr :=
  if blkSe b = 0xFF then some .poison
  else if fmtReserved (blkFmt b) then some .fmt
  else if headerBad b then some .hdr
  else match count with
    | some n =>
      if blkOln b != 0 && decide (blkOlb b + escSpan (blkFmt b) * blkOln b > n) then some .olref else none
    | none => none

/-! ### VQ2 (R66) -/

/-- `vq2_decode`, in halves. -/
def vq2Halves (ix : Nat) : List Int :=
  let h : Int := b2n (bit ix 15)
  let mag (j : Nat) : Int := 1 + 2 * (b2n (bit ix j) : Int) + 4 * h
  let y := (List.range 7).map (fun j => if bit ix (8 + j) then -mag j else mag j)
  let c7 := mag 7
  y ++ [if (y.sum + c7) % 4 = 0 then c7 else -c7]

/-- A number of halves as a value. -/
def halves (x : Int) : FVal := .fin (x < 0) x.natAbs (-1)

/-! ### Decoding (R78) -/

/-- The numbered escapes of a list of units: each unit with the escapes before it. -/
def withEscapes (fmt : Nat) : Nat → List Nat → List (Nat × Nat)
  | _, [] => []
  | n, c :: r => (c, n) :: withEscapes fmt (if isEscape fmt c then n + 1 else n) r

/-- `decode_block` after its checks: the element values in order. -/
def decodeValues (b : Block) (list : List Word) : List FVal :=
  let fmt := blkFmt b
  let sb := blockScale (blkSe b) (blkSf b)
  let plain (w n : Nat) : List FVal := (List.range n).map (fun e =>
    scaled (fpDecode (elemFmt fmt) (bits b.toNat (8 * (2 + w * e) + 8 * w - 1) (8 * (2 + w * e)))) [sb])
  if fmt = 0 then []
  else if fmt = 1 then plain 4 15
  else if fmt ≤ 3 then plain 2 24
  else if fmt = 16 then
    let w := spbWidth b
    (List.range 32).map (fun c =>
      if (spbMap b).testBit c then
        let n := (maskList c (spbMap b)).length
        scaled (fpDecode (if w = 2 then .bf16 else .fp32) (bits b.toNat (8 * (8 + w * n) + 8 * w - 1) (8 * (8 + w * n)))) [sb]
      else .zero)
  else
    let cs := withEscapes fmt 0 (units b)
    let per := unitCount fmt
    ((List.range cs.length).map (fun k =>
      let (c, n) := cs.getD k (0, 0)
      let sg := ue4m3 (scaleByte b fmt (k / per))
      if fmt = 11 then
        if c = 0xFFFF then (List.range 8).map (fun j => f32 (list.getD (blkOlb b + 8 * n + j) 0).toNat)
        else (vq2Halves c).map (fun h => scaled (halves h) [sg, sb])
      else if isEscape fmt c then [f32 (list.getD (blkOlb b + n) 0).toNat]
      else [scaled (fpDecode (elemFmt fmt) c) [sg, sb]])).flatten

/-- The code values of a block, escapes as 0, with the group scale of each (11 R314): the dense part of an MMA. -/
def codeValues (b : Block) : List FVal :=
  let fmt := blkFmt b
  if fmt = 0 ∨ fmt = 16 then []
  else if fmt ≤ 3 then
    let w := if fmt = 1 then 4 else 2
    (List.range (elemCount fmt)).map (fun e =>
      fpDecode (elemFmt fmt) (bits b.toNat (8 * (2 + w * e) + 8 * w - 1) (8 * (2 + w * e))))
  else
    (units b).flatMap (fun c =>
      if fmt = 11 then (if c = 0xFFFF then List.replicate 8 .zero else (vq2Halves c).map halves)
      else [if isEscape fmt c then .zero else fpDecode (elemFmt fmt) c])

/-- The escapes of a block: element and list value, in order (R64). -/
def escapes (b : Block) (list : List Word) : List (Nat × Word) :=
  let fmt := blkFmt b
  let cs := withEscapes fmt 0 (units b)
  (List.range cs.length).flatMap (fun k =>
    let (c, n) := cs.getD k (0, 0)
    if isEscape fmt c then
      (List.range (escSpan fmt)).map (fun j => (k * escSpan fmt + j, list.getD (blkOlb b + escSpan fmt * n + j) 0))
    else [])

/-! ### The quantiser (10 R302-R305) -/

/-- The parameter word (R302). -/
structure QParam where
  gfix : Bool
  olg : Nat
  re : Nat
  gfine : Bool
  auto : Bool
  sf : Nat
  se : Nat
  deriving DecidableEq, Repr

/-- The fields of a parameter word. -/
def QParam.ofNat (w : Nat) : QParam where
  gfix := bit w 18
  olg := bits w 17 16
  re := bits w 15 12
  gfine := bit w 11
  auto := bit w 10
  sf := bits w 9 8
  se := bits w 7 0

/-- Is a parameter word, with its given scales, refused (R302)? -/
def qparamBad (w given ng : Nat) : Bool :=
  let p := QParam.ofNat w
  bits w 31 19 != 0 || (p.auto && p.gfix) || (p.se == 0xFF && !p.auto)
    || (p.gfix && (List.range ng).any (fun g => bit given (8 * g + 7)))

/-- Is x greater than y, both ordered? -/
def FVal.gt (x y : FVal) : Bool := x.cmp y == some .gt

/-- Insert into a list in falling order. -/
def insertDesc (x : FVal) : List FVal → List FVal
  | [] => [x]
  | y :: r => if x.gt y then x :: y :: r else y :: insertDesc x r

/-- The largest of a list of magnitudes, 0 if none. -/
def maxMag (l : List FVal) : FVal := l.foldl (fun m x => if x.gt m then x else m) .zero

/-- Which elements of a group are elected (R303). -/
def electGroup (p : QParam) (elect : Bool) (xs : List FVal) : List Bool :=
  if elect && decide (p.olg > 0) then
    let sorted := (xs.filter (fun x => !x.isNan)).foldl (fun l x => insertDesc x.abs l) []
    let ref := sorted.getD p.olg .zero
    let lim := ref.mul (.fin false 1 p.re)
    xs.map (fun x => !x.isNan && x.abs.gt lim.1)
  else xs.map (fun _ => false)

/-- The least k with m * 2^e ≤ d * 2^(f + k), m and d positive. -/
def ceilLog2 (m : Nat) (e : Int) (d : Nat) (f : Int) : Int :=
  let k := (log2Floor m : Int) - log2Floor d + e - f
  if dyCmp m e d (f + k) = .gt then k + 1 else k

/-- The UE4M3 code of 2^k, -9 ≤ k ≤ 8. -/
def ue4m3Pow (k : Int) : Nat := if k < -6 then 2 ^ (k + 9).toNat else ((k + 7) * 8).toNat

/-- The group scale code that covers an amax (R303). -/
def groupCode (p : QParam) (fmt : Nat) (sb amax : FVal) : Nat :=
  match amax, sb.mul (.fin false (elemFmt fmt).largest.1 (elemFmt fmt).largest.2) with
  | .fin _ 0 _, _ => 0
  | .fin _ m e, (.fin _ d f, _) =>
    if p.gfine then
      ((List.range 0x7E).map (· + 1)).find? (fun c =>
        match (ue4m3 c).mul (.fin false d f) with
        | (.fin _ u v, _) => dyCmp u v m e != .lt
        | _ => false) |>.getD 0x7E
    else ue4m3Pow (max (-9) (min 8 (ceilLog2 m e d f)))
  | .inf _, _ => if p.gfine then 0x7E else 0x78
  | _, _ => 0

/-- The election and the scales of R303: elected elements, SE, SF, group codes. -/
def qntScales (xs : List FVal) (p : QParam) (fmt given : Nat) (elect : Bool) : List Bool × Nat × Nat × List Nat :=
  let ng := groupCount fmt
  let gs := (List.range ng).map (fun g => (xs.drop (24 * g)).take 24)
  let els := gs.map (electGroup p elect)
  let amax := (List.range ng).map (fun g =>
    maxMag (((gs.getD g []).zip (els.getD g [])).filterMap (fun x => if x.2 || x.1.isNan then none else some x.1.abs)))
  let (lm, le) := (elemFmt fmt).largest
  let (se, sf) : Nat × Nat :=
    if p.auto then
      (match maxMag amax with
        | .fin _ 0 _ => 0x7F
        | .fin _ m e => (127 + max (-127) (min 127 (ceilLog2 m e lm le)) : Int).toNat
        | _ => 254, 0)
    else (p.se, p.sf)
  let sb := blockScale se sf
  (els.flatten, se, sf, (List.range ng).map (fun g =>
    if p.gfix then bits given (8 * g + 7) (8 * g) else groupCode p fmt sb (amax.getD g .zero)))

/-- One element's code and events (R303). -/
def qntElem (fmt : Nat) (sg sb x : FVal) : Nat × Nat :=
  let (y, inv) := if sg.isZero then x.mul .zero else x.div (sg.mul sb).1
  convert (elemFmt fmt) y inv

/-- Assemble a block from its bytes, cut to 64. -/
def assemble (l : List Nat) : Block := blockOf ((l.map (fun n => BitVec.ofNat 8 n)).take 64)

/-- One group of the block: its bytes and events (R303, R77). -/
def qntGroup (fmt code : Nat) (sb : FVal) (xs : List (FVal × Bool)) : List Nat × Nat :=
  let sg := ue4m3 code
  let cs := xs.map (fun x => if x.2 then (8, 0) else qntElem fmt sg sb x.1)
  let noNan := (elemFmt fmt).nanCode.isNone
  let nan := noNan && xs.any (fun x => !x.2 &&
    (x.1.isNan || sg.isNan || (sg.isZero && x.1.isInf)))
  let codes := (List.range cs.length).map (fun i =>
    if nan && !(xs.getD i (.zero, false)).2 then 0 else (cs.getD i (0, 0)).1)
  let w := (elemFmt fmt).width
  let field := ((List.range codes.length).map (fun i => codes.getD i 0 * 2 ^ (w * i))).sum
  ((leBytes (stride fmt - 1) field).map (fun b => b.toNat) ++ [if nan then 0x7F else code],
    cs.foldl (fun m c => m ||| c.2) 0)

/-- `qnt_block` (R303): the block, the elected elements, the events. cnt is the list count before. -/
def qntBlock (xs : List FVal) (p : QParam) (fmt given cnt : Nat) (elect : Bool) : Block × List Nat × Nat :=
  let (el, se, sf, codes) := qntScales xs p fmt given elect
  let sb := blockScale se sf
  let picked := (List.range xs.length).filter (fun e => el.getD e false)
  let gs := (List.range (groupCount fmt)).map (fun g => qntGroup fmt (codes.getD g 0) sb (((xs.zip el).drop (24 * g)).take 24))
  let body := gs.flatMap (fun x => x.1)
  let ol := if hasOl fmt then [if picked.isEmpty then 0 else cnt % 64, picked.length % 64] else []
  (assemble ([sf * 32 + fmt, se] ++ body ++ ol), picked, gs.foldl (fun m x => m ||| x.2) 0)

end Sys2Proof.Machine
end

