-- ==== Sys2Proof/Decode.lean ====
section
/-! DEFINITION. The formats of 07 R204, the opcode map of 07 R209, the decoder from instruction words and the encoder
back. The decoder refuses a word whose major is unallocated or whose fixed bits no row of the opcode table has (it
answers none); a field value that an instruction's rule forbids is decoded, and raises ILLOP when it issues. -/

namespace Sys2Proof

/-- The major opcode, bits [30:25] (R200). -/
def majorOf (w : Word) : BitVec 6 := w.extractLsb' 25 6

/-- The chain bit C, bit 31 (R195). -/
def chainOf (w : Word) : Bool := w.extractLsb' 31 1 == 1#1

/-- Bits [31:25]: C and the major. -/
def header (c : Bool) (maj : BitVec 6) : BitVec 7 := BitVec.ofBool c ++ maj

/-- The fields of the register format, from high to low (R204). -/
structure FmtRG where
  g : BitVec 3
  d : BitVec 5
  a : BitVec 5
  b : BitVec 5
  pa : BitVec 1
  pb : BitVec 1
  fn : BitVec 5
  deriving DecidableEq, Repr

/-- The fields of a word in this format. -/
def splitRG (w : Word) : FmtRG where
  g := w.extractLsb' 22 3
  d := w.extractLsb' 17 5
  a := w.extractLsb' 12 5
  b := w.extractLsb' 7 5
  pa := w.extractLsb' 6 1
  pb := w.extractLsb' 5 1
  fn := w.extractLsb' 0 5

/-- The word with these fields. -/
def joinRG (c : Bool) (maj : BitVec 6) (r : FmtRG) : Word :=
  header c maj ++ r.g ++ r.d ++ r.a ++ r.b ++ r.pa ++ r.pb ++ r.fn

/-- The fields of the predicate-writing format, from high to low (R204). -/
structure FmtRP where
  g : BitVec 3
  p1 : BitVec 3
  p2 : BitVec 3
  a : BitVec 5
  b : BitVec 5
  pa : BitVec 1
  pb : BitVec 1
  cc : BitVec 4
  deriving DecidableEq, Repr

/-- The fields of a word in this format. -/
def splitRP (w : Word) : FmtRP where
  g := w.extractLsb' 22 3
  p1 := w.extractLsb' 19 3
  p2 := w.extractLsb' 16 3
  a := w.extractLsb' 11 5
  b := w.extractLsb' 6 5
  pa := w.extractLsb' 5 1
  pb := w.extractLsb' 4 1
  cc := w.extractLsb' 0 4

/-- The word with these fields. -/
def joinRP (c : Bool) (maj : BitVec 6) (r : FmtRP) : Word :=
  header c maj ++ r.g ++ r.p1 ++ r.p2 ++ r.a ++ r.b ++ r.pa ++ r.pb ++ r.cc

/-- The fields of the immediate format, from high to low (R204). -/
structure FmtRI where
  g : BitVec 3
  d : BitVec 5
  fn : BitVec 3
  imm : BitVec 14
  deriving DecidableEq, Repr

/-- The fields of a word in this format. -/
def splitRI (w : Word) : FmtRI where
  g := w.extractLsb' 22 3
  d := w.extractLsb' 17 5
  fn := w.extractLsb' 14 3
  imm := w.extractLsb' 0 14

/-- The word with these fields. -/
def joinRI (c : Bool) (maj : BitVec 6) (r : FmtRI) : Word :=
  header c maj ++ r.g ++ r.d ++ r.fn ++ r.imm

/-- The fields of the plain device-memory format, from high to low (R204). -/
structure FmtMEM where
  d : BitVec 5
  a : BitVec 5
  w : BitVec 3
  off : BitVec 12
  deriving DecidableEq, Repr

/-- The fields of a word in this format. -/
def splitMEM (w : Word) : FmtMEM where
  d := w.extractLsb' 20 5
  a := w.extractLsb' 15 5
  w := w.extractLsb' 12 3
  off := w.extractLsb' 0 12

/-- The word with these fields. -/
def joinMEM (c : Bool) (maj : BitVec 6) (r : FmtMEM) : Word :=
  header c maj ++ r.d ++ r.a ++ r.w ++ r.off

/-- The fields of the ordered or guarded access format, from high to low (R204). -/
structure FmtMA where
  g : BitVec 3
  d : BitVec 5
  a : BitVec 5
  dir : BitVec 1
  sp : BitVec 1
  res : BitVec 3
  os : BitVec 4
  w : BitVec 3
  deriving DecidableEq, Repr

/-- The fields of a word in this format. -/
def splitMA (w : Word) : FmtMA where
  g := w.extractLsb' 22 3
  d := w.extractLsb' 17 5
  a := w.extractLsb' 12 5
  dir := w.extractLsb' 11 1
  sp := w.extractLsb' 10 1
  res := w.extractLsb' 7 3
  os := w.extractLsb' 3 4
  w := w.extractLsb' 0 3

/-- The word with these fields. -/
def joinMA (c : Bool) (maj : BitVec 6) (r : FmtMA) : Word :=
  header c maj ++ r.g ++ r.d ++ r.a ++ r.dir ++ r.sp ++ r.res ++ r.os ++ r.w

/-- The fields of the atomic format, from high to low (R204). -/
structure FmtAT where
  op : BitVec 3
  d : BitVec 5
  a : BitVec 5
  b : BitVec 5
  os : BitVec 4
  sp : BitVec 1
  w : BitVec 1
  res : BitVec 1
  deriving DecidableEq, Repr

/-- The fields of a word in this format. -/
def splitAT (w : Word) : FmtAT where
  op := w.extractLsb' 22 3
  d := w.extractLsb' 17 5
  a := w.extractLsb' 12 5
  b := w.extractLsb' 7 5
  os := w.extractLsb' 3 4
  sp := w.extractLsb' 2 1
  w := w.extractLsb' 1 1
  res := w.extractLsb' 0 1

/-- The word with these fields. -/
def joinAT (c : Bool) (maj : BitVec 6) (r : FmtAT) : Word :=
  header c maj ++ r.op ++ r.d ++ r.a ++ r.b ++ r.os ++ r.sp ++ r.w ++ r.res

/-- The fields of the queue format, from high to low (R204). -/
structure FmtQF where
  g : BitVec 3
  d : BitVec 5
  a : BitVec 5
  qn : BitVec 5
  mp : BitVec 3
  fn : BitVec 4
  deriving DecidableEq, Repr

/-- The fields of a word in this format. -/
def splitQF (w : Word) : FmtQF where
  g := w.extractLsb' 22 3
  d := w.extractLsb' 17 5
  a := w.extractLsb' 12 5
  qn := w.extractLsb' 7 5
  mp := w.extractLsb' 4 3
  fn := w.extractLsb' 0 4

/-- The word with these fields. -/
def joinQF (c : Bool) (maj : BitVec 6) (r : FmtQF) : Word :=
  header c maj ++ r.g ++ r.d ++ r.a ++ r.qn ++ r.mp ++ r.fn

/-- The fields of the branch format, from high to low (R204). -/
structure FmtBF where
  g : BitVec 3
  res : BitVec 2
  off : BitVec 20
  deriving DecidableEq, Repr

/-- The fields of a word in this format. -/
def splitBF (w : Word) : FmtBF where
  g := w.extractLsb' 22 3
  res := w.extractLsb' 20 2
  off := w.extractLsb' 0 20

/-- The word with these fields. -/
def joinBF (c : Bool) (maj : BitVec 6) (r : FmtBF) : Word :=
  header c maj ++ r.g ++ r.res ++ r.off

/-- The fields of the matrix format, from high to low (R204). -/
structure FmtMX where
  k : BitVec 4
  t : BitVec 3
  a : BitVec 5
  b : BitVec 5
  ol : BitVec 1
  var : BitVec 3
  fn : BitVec 4
  deriving DecidableEq, Repr

/-- The fields of a word in this format. -/
def splitMX (w : Word) : FmtMX where
  k := w.extractLsb' 21 4
  t := w.extractLsb' 18 3
  a := w.extractLsb' 13 5
  b := w.extractLsb' 8 5
  ol := w.extractLsb' 7 1
  var := w.extractLsb' 4 3
  fn := w.extractLsb' 0 4

/-- The word with these fields. -/
def joinMX (c : Bool) (maj : BitVec 6) (r : FmtMX) : Word :=
  header c maj ++ r.k ++ r.t ++ r.a ++ r.b ++ r.ol ++ r.var ++ r.fn

/-- The fields of the control-word and system format, from high to low (R204). -/
structure FmtSYS where
  g : BitVec 3
  d : BitVec 5
  a : BitVec 5
  sel : BitVec 10
  fn : BitVec 2
  deriving DecidableEq, Repr

/-- The fields of a word in this format. -/
def splitSYS (w : Word) : FmtSYS where
  g := w.extractLsb' 22 3
  d := w.extractLsb' 17 5
  a := w.extractLsb' 12 5
  sel := w.extractLsb' 2 10
  fn := w.extractLsb' 0 2

/-- The word with these fields. -/
def joinSYS (c : Bool) (maj : BitVec 6) (r : FmtSYS) : Word :=
  header c maj ++ r.g ++ r.d ++ r.a ++ r.sel ++ r.fn

/-- The fields of the task and future format, from high to low (R204). -/
structure FmtTASK where
  g : BitVec 3
  d : BitVec 5
  a : BitVec 5
  b : BitVec 5
  ps : BitVec 3
  fn : BitVec 4
  deriving DecidableEq, Repr

/-- The fields of a word in this format. -/
def splitTASK (w : Word) : FmtTASK where
  g := w.extractLsb' 22 3
  d := w.extractLsb' 17 5
  a := w.extractLsb' 12 5
  b := w.extractLsb' 7 5
  ps := w.extractLsb' 4 3
  fn := w.extractLsb' 0 4

/-- The word with these fields. -/
def joinTASK (c : Bool) (maj : BitVec 6) (r : FmtTASK) : Word :=
  header c maj ++ r.g ++ r.d ++ r.a ++ r.b ++ r.ps ++ r.fn

/-- Major 0x01 (R209). -/
def decMaj01 (r : FmtBF) : Option Instr :=
  if r.res == 0x0#2 then
    some (.bra { g := r.g, off := r.off })
  else none

/-- Major 0x02 (R209). -/
def decMaj02 (r : FmtBF) : Option Instr :=
  if r.res == 0x0#2 then
    some (.call { g := r.g, off := r.off })
  else none

/-- Major 0x03 (R209). -/
def decMaj03 (r : FmtRG) : Option Instr :=
  if r.d == 0x0#5 && r.a == 0x0#5 && r.b == 0x0#5 && r.pa == 0x0#1 && r.pb == 0x0#1 && r.fn == 0x0#5 then
    some (.nop { g := r.g })
  else if r.d == 0x0#5 && r.b == 0x0#5 && r.pb == 0x0#1 && r.fn == 0x1#5 then
    some (.jmp { g := r.g, a := r.a, pa := r.pa == 1#1 })
  else if r.d == 0x0#5 && r.b == 0x0#5 && r.pb == 0x0#1 && r.fn == 0x2#5 then
    some (.calli { g := r.g, a := r.a, pa := r.pa == 1#1 })
  else if r.d == 0x0#5 && r.a == 0x0#5 && r.b == 0x0#5 && r.pa == 0x0#1 && r.pb == 0x0#1 && r.fn == 0x3#5 then
    some (.ret { g := r.g })
  else if r.d == 0x0#5 && r.a == 0x0#5 && r.b == 0x0#5 && r.pa == 0x0#1 && r.pb == 0x0#1 && r.fn == 0x4#5 then
    some (.exit { g := r.g })
  else if r.d == 0x0#5 && r.a == 0x0#5 && r.b == 0x0#5 && r.pa == 0x0#1 && r.pb == 0x0#1 && r.fn == 0x5#5 then
    some (.yield { g := r.g })
  else if r.d == 0x0#5 && r.pb == 0x0#1 && r.fn == 0x6#5 then
    some (.trap { g := r.g, a := r.a, b := r.b, pa := r.pa == 1#1 })
  else if r.d == 0x0#5 && r.a == 0x0#5 && r.b == 0x0#5 && r.pa == 0x0#1 && r.pb == 0x0#1 && r.fn == 0x7#5 then
    some (.uret { g := r.g })
  else if r.b == 0x0#5 && r.pb == 0x0#1 && r.fn == 0x8#5 then
    some (.setuv { g := r.g, d := r.d, a := r.a, pa := r.pa == 1#1 })
  else if r.d == 0x0#5 && r.a == 0x0#5 && r.pa == 0x0#1 && r.pb == 0x0#1 && r.fn == 0x9#5 then
    some (.bkpt { g := r.g, b := r.b })
  else if r.d == 0x0#5 && r.pb == 0x0#1 && r.fn == 0xA#5 then
    some (.mark { g := r.g, a := r.a, b := r.b, pa := r.pa == 1#1 })
  else if r.d == 0x0#5 && r.a == 0x0#5 && r.b == 0x0#5 && r.pa == 0x0#1 && r.pb == 0x0#1 && r.fn == 0xB#5 then
    some (.icsync { g := r.g })
  else if r.d == 0x0#5 && r.a == 0x0#5 && r.b == 0x1#5 && r.pa == 0x0#1 && r.pb == 0x0#1 && r.fn == 0xB#5 then
    some (.icsyncDev { g := r.g })
  else none

/-- Major 0x04 (R209). -/
def decMaj04 (r : FmtRP) : Option Instr :=
  if r.cc ≤ 9#4 then
    some (.cmp { g := r.g, p1 := r.p1, p2 := r.p2, a := r.a, b := r.b, pa := r.pa == 1#1, pb := r.pb == 1#1, cc := r.cc })
  else if r.a.extractLsb' 3 2 == 0x0#2 && r.b.extractLsb' 3 2 == 0x0#2 && r.pa == 0x0#1 && r.pb == 0x0#1 && r.cc == 0xA#4 then
    some (.plopAnd { g := r.g, p1 := r.p1, p2 := r.p2, a := r.a.extractLsb' 0 3, b := r.b.extractLsb' 0 3 })
  else if r.a.extractLsb' 3 2 == 0x0#2 && r.b.extractLsb' 3 2 == 0x0#2 && r.pa == 0x0#1 && r.pb == 0x0#1 && r.cc == 0xB#4 then
    some (.plopOr { g := r.g, p1 := r.p1, p2 := r.p2, a := r.a.extractLsb' 0 3, b := r.b.extractLsb' 0 3 })
  else if r.a.extractLsb' 3 2 == 0x0#2 && r.b.extractLsb' 3 2 == 0x0#2 && r.pa == 0x0#1 && r.pb == 0x0#1 && r.cc == 0xC#4 then
    some (.plopXor { g := r.g, p1 := r.p1, p2 := r.p2, a := r.a.extractLsb' 0 3, b := r.b.extractLsb' 0 3 })
  else if r.a.extractLsb' 3 2 == 0x0#2 && r.b.extractLsb' 3 2 == 0x0#2 && r.pa == 0x0#1 && r.pb == 0x0#1 && r.cc == 0xD#4 then
    some (.plopAndn { g := r.g, p1 := r.p1, p2 := r.p2, a := r.a.extractLsb' 0 3, b := r.b.extractLsb' 0 3 })
  else none

/-- Major 0x05 (R209). -/
def decMaj05 (r : FmtRG) : Option Instr :=
  if r.d.extractLsb' 3 2 == 0x0#2 && r.a.extractLsb' 3 2 == 0x0#2 && r.b == 0x0#5 && r.pa == 0x0#1 && r.pb == 0x0#1 && r.fn == 0x0#5 then
    some (.voteAny { g := r.g, d := r.d.extractLsb' 0 3, a := r.a.extractLsb' 0 3 })
  else if r.d.extractLsb' 3 2 == 0x0#2 && r.a.extractLsb' 3 2 == 0x0#2 && r.b == 0x0#5 && r.pa == 0x0#1 && r.pb == 0x0#1 && r.fn == 0x1#5 then
    some (.voteAll { g := r.g, d := r.d.extractLsb' 0 3, a := r.a.extractLsb' 0 3 })
  else if r.a.extractLsb' 3 2 == 0x0#2 && r.b == 0x0#5 && r.pa == 0x0#1 && r.pb == 0x0#1 && r.fn == 0x2#5 then
    some (.voteBallot { g := r.g, d := r.d, a := r.a.extractLsb' 0 3 })
  else if r.d.extractLsb' 3 2 == 0x0#2 && r.a == 0x0#5 && r.b == 0x0#5 && r.pa == 0x0#1 && r.pb == 0x0#1 && r.fn == 0x3#5 then
    some (.elect { g := r.g, d := r.d.extractLsb' 0 3 })
  else if r.fn == 0x4#5 then
    some (.shflIdx { g := r.g, d := r.d, a := r.a, b := r.b, pa := r.pa == 1#1, pb := r.pb == 1#1 })
  else if r.fn == 0x5#5 then
    some (.shflUp { g := r.g, d := r.d, a := r.a, b := r.b, pa := r.pa == 1#1, pb := r.pb == 1#1 })
  else if r.fn == 0x6#5 then
    some (.shflDown { g := r.g, d := r.d, a := r.a, b := r.b, pa := r.pa == 1#1, pb := r.pb == 1#1 })
  else if r.fn == 0x7#5 then
    some (.shflXor { g := r.g, d := r.d, a := r.a, b := r.b, pa := r.pa == 1#1, pb := r.pb == 1#1 })
  else none

/-- Major 0x06 (R209). -/
def decMaj06 (r : FmtSYS) : Option Instr :=
  if r.a == 0x0#5 && r.fn == 0x0#2 then
    some (.csrr { g := r.g, d := r.d, sel := r.sel })
  else if r.fn == 0x1#2 then
    some (.csrw { g := r.g, d := r.d, a := r.a, sel := r.sel })
  else if r.fn == 0x2#2 then
    some (.csrs { g := r.g, d := r.d, a := r.a, sel := r.sel })
  else if r.fn == 0x3#2 then
    some (.csrc { g := r.g, d := r.d, a := r.a, sel := r.sel })
  else none

/-- Major 0x08 (R209). -/
def decMaj08 (r : FmtRG) : Option Instr :=
  if r.fn == 0x0#5 then
    some (.add { g := r.g, d := r.d, a := r.a, b := r.b, pa := r.pa == 1#1, pb := r.pb == 1#1 })
  else if r.fn == 0x1#5 then
    some (.sub { g := r.g, d := r.d, a := r.a, b := r.b, pa := r.pa == 1#1, pb := r.pb == 1#1 })
  else if r.fn == 0x2#5 then
    some (.mul { g := r.g, d := r.d, a := r.a, b := r.b, pa := r.pa == 1#1, pb := r.pb == 1#1 })
  else if r.fn == 0x3#5 then
    some (.mulhiS { g := r.g, d := r.d, a := r.a, b := r.b, pa := r.pa == 1#1, pb := r.pb == 1#1 })
  else if r.fn == 0x4#5 then
    some (.mulhiU { g := r.g, d := r.d, a := r.a, b := r.b, pa := r.pa == 1#1, pb := r.pb == 1#1 })
  else if r.fn == 0x5#5 then
    some (.mad { g := r.g, d := r.d, a := r.a, b := r.b, pa := r.pa == 1#1, pb := r.pb == 1#1 })
  else none

/-- Major 0x09 (R209). -/
def decMaj09 (r : FmtRG) : Option Instr :=
  if r.fn == 0x0#5 then
    some (.divs { g := r.g, d := r.d, a := r.a, b := r.b, pa := r.pa == 1#1, pb := r.pb == 1#1 })
  else if r.fn == 0x1#5 then
    some (.divu { g := r.g, d := r.d, a := r.a, b := r.b, pa := r.pa == 1#1, pb := r.pb == 1#1 })
  else if r.fn == 0x2#5 then
    some (.rems { g := r.g, d := r.d, a := r.a, b := r.b, pa := r.pa == 1#1, pb := r.pb == 1#1 })
  else if r.fn == 0x3#5 then
    some (.remu { g := r.g, d := r.d, a := r.a, b := r.b, pa := r.pa == 1#1, pb := r.pb == 1#1 })
  else if r.fn == 0x4#5 then
    some (.minS { g := r.g, d := r.d, a := r.a, b := r.b, pa := r.pa == 1#1, pb := r.pb == 1#1 })
  else if r.fn == 0x5#5 then
    some (.minU { g := r.g, d := r.d, a := r.a, b := r.b, pa := r.pa == 1#1, pb := r.pb == 1#1 })
  else if r.fn == 0x6#5 then
    some (.maxS { g := r.g, d := r.d, a := r.a, b := r.b, pa := r.pa == 1#1, pb := r.pb == 1#1 })
  else if r.fn == 0x7#5 then
    some (.maxU { g := r.g, d := r.d, a := r.a, b := r.b, pa := r.pa == 1#1, pb := r.pb == 1#1 })
  else if r.b == 0x0#5 && r.pb == 0x0#1 && r.fn == 0x8#5 then
    some (.abs { g := r.g, d := r.d, a := r.a, pa := r.pa == 1#1 })
  else if r.fn == 0x9#5 then
    some (.sel { pc := r.g, d := r.d, a := r.a, b := r.b, pa := r.pa == 1#1, pb := r.pb == 1#1 })
  else none

/-- Major 0x0A (R209). -/
def decMaj0A (r : FmtRG) : Option Instr :=
  if r.fn == 0x0#5 then
    some (.and { g := r.g, d := r.d, a := r.a, b := r.b, pa := r.pa == 1#1, pb := r.pb == 1#1 })
  else if r.fn == 0x1#5 then
    some (.or { g := r.g, d := r.d, a := r.a, b := r.b, pa := r.pa == 1#1, pb := r.pb == 1#1 })
  else if r.fn == 0x2#5 then
    some (.xor { g := r.g, d := r.d, a := r.a, b := r.b, pa := r.pa == 1#1, pb := r.pb == 1#1 })
  else if r.fn == 0x3#5 then
    some (.andn { g := r.g, d := r.d, a := r.a, b := r.b, pa := r.pa == 1#1, pb := r.pb == 1#1 })
  else if r.fn == 0x4#5 then
    some (.shl { g := r.g, d := r.d, a := r.a, b := r.b, pa := r.pa == 1#1, pb := r.pb == 1#1 })
  else if r.fn == 0x5#5 then
    some (.shr { g := r.g, d := r.d, a := r.a, b := r.b, pa := r.pa == 1#1, pb := r.pb == 1#1 })
  else if r.fn == 0x6#5 then
    some (.sar { g := r.g, d := r.d, a := r.a, b := r.b, pa := r.pa == 1#1, pb := r.pb == 1#1 })
  else if r.fn == 0x7#5 then
    some (.rol { g := r.g, d := r.d, a := r.a, b := r.b, pa := r.pa == 1#1, pb := r.pb == 1#1 })
  else if r.b == 0x0#5 && r.pb == 0x0#1 && r.fn == 0x8#5 then
    some (.clz { g := r.g, d := r.d, a := r.a, pa := r.pa == 1#1 })
  else if r.b == 0x0#5 && r.pb == 0x0#1 && r.fn == 0x9#5 then
    some (.popc { g := r.g, d := r.d, a := r.a, pa := r.pa == 1#1 })
  else if r.b == 0x0#5 && r.pb == 0x0#1 && r.fn == 0xA#5 then
    some (.brev { g := r.g, d := r.d, a := r.a, pa := r.pa == 1#1 })
  else if r.b == 0x0#5 && r.pb == 0x0#1 && r.fn == 0xB#5 then
    some (.mov { g := r.g, d := r.d, a := r.a, pa := r.pa == 1#1 })
  else none

/-- Major 0x0B (R209). -/
def decMaj0B (r : FmtRG) : Option Instr :=
  if r.fn == 0x0#5 then
    some (.bfx { g := r.g, d := r.d, a := r.a, b := r.b, pa := r.pa == 1#1, pb := r.pb == 1#1 })
  else if r.fn == 0x1#5 then
    some (.bfi { g := r.g, d := r.d, a := r.a, b := r.b, pa := r.pa == 1#1, pb := r.pb == 1#1 })
  else none

/-- Major 0x0C (R209). -/
def decMaj0C (r : FmtRI) : Option Instr :=
  if r.fn == 0x0#3 then
    some (.movi { g := r.g, d := r.d, imm := r.imm })
  else if r.fn == 0x1#3 then
    some (.movhi { g := r.g, d := r.d, imm := r.imm })
  else if r.fn == 0x2#3 then
    some (.addImm { g := r.g, d := r.d, imm := r.imm })
  else if r.fn == 0x3#3 then
    some (.andImm { g := r.g, d := r.d, imm := r.imm })
  else if r.fn == 0x4#3 then
    some (.orImm { g := r.g, d := r.d, imm := r.imm })
  else if r.fn == 0x5#3 then
    some (.xorImm { g := r.g, d := r.d, imm := r.imm })
  else if r.fn == 0x6#3 then
    some (.shlImm { g := r.g, d := r.d, imm := r.imm })
  else if r.fn == 0x7#3 then
    some (.shrImm { g := r.g, d := r.d, imm := r.imm })
  else none

/-- Major 0x0D (R209). -/
def decMaj0D (r : FmtMEM) : Option Instr :=
  if r.w.extractLsb' 2 1 == 0x0#1 then
    some (.lea { d := r.d, a := r.a, w := r.w.extractLsb' 0 2, off := r.off })
  else none

/-- Major 0x10 (R209). -/
def decMaj10 (r : FmtRG) : Option Instr :=
  if r.fn.extractLsb' 2 3 == 0x0#3 then
    some (.fadd { g := r.g, d := r.d, a := r.a, b := r.b, pa := r.pa == 1#1, pb := r.pb == 1#1, md := r.fn.extractLsb' 0 2 })
  else if r.fn.extractLsb' 2 3 == 0x1#3 then
    some (.fsub { g := r.g, d := r.d, a := r.a, b := r.b, pa := r.pa == 1#1, pb := r.pb == 1#1, md := r.fn.extractLsb' 0 2 })
  else if r.fn.extractLsb' 2 3 == 0x2#3 then
    some (.fmul { g := r.g, d := r.d, a := r.a, b := r.b, pa := r.pa == 1#1, pb := r.pb == 1#1, md := r.fn.extractLsb' 0 2 })
  else if r.fn.extractLsb' 2 3 == 0x3#3 then
    some (.ffma { g := r.g, d := r.d, a := r.a, b := r.b, pa := r.pa == 1#1, pb := r.pb == 1#1, md := r.fn.extractLsb' 0 2 })
  else if r.fn.extractLsb' 2 3 == 0x4#3 then
    some (.fmin { g := r.g, d := r.d, a := r.a, b := r.b, pa := r.pa == 1#1, pb := r.pb == 1#1, md := r.fn.extractLsb' 0 2 })
  else if r.fn.extractLsb' 2 3 == 0x5#3 then
    some (.fmax { g := r.g, d := r.d, a := r.a, b := r.b, pa := r.pa == 1#1, pb := r.pb == 1#1, md := r.fn.extractLsb' 0 2 })
  else if r.b == 0x0#5 && r.pb == 0x0#1 && r.fn.extractLsb' 2 3 == 0x6#3 then
    some (.fclass { g := r.g, d := r.d, a := r.a, pa := r.pa == 1#1, md := r.fn.extractLsb' 0 2 })
  else if r.pb == 0x0#1 && r.fn.extractLsb' 2 3 == 0x7#3 then
    some (.frnd { g := r.g, d := r.d, a := r.a, b := r.b, pa := r.pa == 1#1, md := r.fn.extractLsb' 0 2 })
  else none

/-- Major 0x11 (R209). -/
def decMaj11 (r : FmtRG) : Option Instr :=
  if r.b == 0x0#5 && r.pb == 0x0#1 && r.fn.extractLsb' 2 3 == 0x0#3 then
    some (.frcp { g := r.g, d := r.d, a := r.a, pa := r.pa == 1#1, md := r.fn.extractLsb' 0 2 })
  else if r.b == 0x0#5 && r.pb == 0x0#1 && r.fn.extractLsb' 2 3 == 0x1#3 then
    some (.frsq { g := r.g, d := r.d, a := r.a, pa := r.pa == 1#1, md := r.fn.extractLsb' 0 2 })
  else if r.b == 0x0#5 && r.pb == 0x0#1 && r.fn.extractLsb' 2 3 == 0x2#3 then
    some (.fsqrt { g := r.g, d := r.d, a := r.a, pa := r.pa == 1#1, md := r.fn.extractLsb' 0 2 })
  else if r.fn.extractLsb' 2 3 == 0x3#3 then
    some (.fdiv { g := r.g, d := r.d, a := r.a, b := r.b, pa := r.pa == 1#1, pb := r.pb == 1#1, md := r.fn.extractLsb' 0 2 })
  else if r.b == 0x0#5 && r.pb == 0x0#1 && r.fn.extractLsb' 2 3 == 0x4#3 then
    some (.fexp2 { g := r.g, d := r.d, a := r.a, pa := r.pa == 1#1, md := r.fn.extractLsb' 0 2 })
  else if r.b == 0x0#5 && r.pb == 0x0#1 && r.fn.extractLsb' 2 3 == 0x5#3 then
    some (.flog2 { g := r.g, d := r.d, a := r.a, pa := r.pa == 1#1, md := r.fn.extractLsb' 0 2 })
  else if r.b == 0x0#5 && r.pb == 0x0#1 && r.fn.extractLsb' 2 3 == 0x6#3 then
    some (.fsin { g := r.g, d := r.d, a := r.a, pa := r.pa == 1#1, md := r.fn.extractLsb' 0 2 })
  else if r.b == 0x0#5 && r.pb == 0x0#1 && r.fn.extractLsb' 2 3 == 0x7#3 then
    some (.fcos { g := r.g, d := r.d, a := r.a, pa := r.pa == 1#1, md := r.fn.extractLsb' 0 2 })
  else none

/-- Major 0x12 (R209). -/
def decMaj12 (r : FmtRG) : Option Instr :=
  if r.fn.extractLsb' 2 3 == 0x0#3 then
    some (.hadd2Bf16 { g := r.g, d := r.d, a := r.a, b := r.b, pa := r.pa == 1#1, pb := r.pb == 1#1, md := r.fn.extractLsb' 0 2 })
  else if r.fn.extractLsb' 2 3 == 0x1#3 then
    some (.hmul2Bf16 { g := r.g, d := r.d, a := r.a, b := r.b, pa := r.pa == 1#1, pb := r.pb == 1#1, md := r.fn.extractLsb' 0 2 })
  else if r.fn.extractLsb' 2 3 == 0x2#3 then
    some (.hfma2Bf16 { g := r.g, d := r.d, a := r.a, b := r.b, pa := r.pa == 1#1, pb := r.pb == 1#1, md := r.fn.extractLsb' 0 2 })
  else if r.fn.extractLsb' 2 3 == 0x4#3 then
    some (.hadd2F16 { g := r.g, d := r.d, a := r.a, b := r.b, pa := r.pa == 1#1, pb := r.pb == 1#1, md := r.fn.extractLsb' 0 2 })
  else if r.fn.extractLsb' 2 3 == 0x5#3 then
    some (.hmul2F16 { g := r.g, d := r.d, a := r.a, b := r.b, pa := r.pa == 1#1, pb := r.pb == 1#1, md := r.fn.extractLsb' 0 2 })
  else if r.fn.extractLsb' 2 3 == 0x6#3 then
    some (.hfma2F16 { g := r.g, d := r.d, a := r.a, b := r.b, pa := r.pa == 1#1, pb := r.pb == 1#1, md := r.fn.extractLsb' 0 2 })
  else none

/-- Major 0x13 (R209). -/
def decMaj13 (r : FmtRG) : Option Instr :=
  if r.b == 0x0#5 && r.pb == 0x0#1 && r.fn == 0x0#5 then
    some (.fcvtF32Bf16 { g := r.g, d := r.d, a := r.a, pa := r.pa == 1#1 })
  else if r.b == 0x0#5 && r.pb == 0x0#1 && r.fn == 0x1#5 then
    some (.fcvtF32Bf16Hi { g := r.g, d := r.d, a := r.a, pa := r.pa == 1#1 })
  else if r.b == 0x0#5 && r.pb == 0x0#1 && r.fn == 0x2#5 then
    some (.fcvtF32F16 { g := r.g, d := r.d, a := r.a, pa := r.pa == 1#1 })
  else if r.b == 0x0#5 && r.pb == 0x0#1 && r.fn == 0x3#5 then
    some (.fcvtF32F16Hi { g := r.g, d := r.d, a := r.a, pa := r.pa == 1#1 })
  else if r.fn == 0x4#5 then
    some (.fcvtBf16x2F32 { g := r.g, d := r.d, a := r.a, b := r.b, pa := r.pa == 1#1, pb := r.pb == 1#1 })
  else if r.fn == 0x5#5 then
    some (.fcvtF16x2F32 { g := r.g, d := r.d, a := r.a, b := r.b, pa := r.pa == 1#1, pb := r.pb == 1#1 })
  else if r.b == 0x0#5 && r.pb == 0x0#1 && r.fn == 0x8#5 then
    some (.icvtSwF32 { g := r.g, d := r.d, a := r.a, pa := r.pa == 1#1 })
  else if r.b == 0x0#5 && r.pb == 0x0#1 && r.fn == 0x9#5 then
    some (.icvtSwF32Rz { g := r.g, d := r.d, a := r.a, pa := r.pa == 1#1 })
  else if r.b == 0x0#5 && r.pb == 0x0#1 && r.fn == 0xA#5 then
    some (.icvtUwF32 { g := r.g, d := r.d, a := r.a, pa := r.pa == 1#1 })
  else if r.b == 0x0#5 && r.pb == 0x0#1 && r.fn == 0xB#5 then
    some (.icvtUwF32Rz { g := r.g, d := r.d, a := r.a, pa := r.pa == 1#1 })
  else if r.b == 0x0#5 && r.pb == 0x0#1 && r.fn == 0xC#5 then
    some (.icvtF32Sw { g := r.g, d := r.d, a := r.a, pa := r.pa == 1#1 })
  else if r.b == 0x0#5 && r.pb == 0x0#1 && r.fn == 0xD#5 then
    some (.icvtF32Uw { g := r.g, d := r.d, a := r.a, pa := r.pa == 1#1 })
  else none

/-- Major 0x14 (R209). -/
def decMaj14 (r : FmtRP) : Option Instr :=
  if r.cc.extractLsb' 3 1 == 0x0#1 then
    some (.fcmp { g := r.g, p1 := r.p1, p2 := r.p2, a := r.a, b := r.b, pa := r.pa == 1#1, pb := r.pb == 1#1, cc := r.cc.extractLsb' 0 3 })
  else none

/-- Major 0x15 (R209). -/
def decMaj15 (r : FmtRG) : Option Instr :=
  if r.fn == 0x0#5 then
    some (.rope { g := r.g, d := r.d, a := r.a, b := r.b, pa := r.pa == 1#1, pb := r.pb == 1#1 })
  else none

/-- Major 0x16 (R209). -/
def decMaj16 (r : FmtRG) : Option Instr :=
  if r.fn == 0x0#5 then
    some (.amrg { g := r.g, d := r.d, a := r.a, b := r.b, pa := r.pa == 1#1, pb := r.pb == 1#1 })
  else none

/-- Major 0x18 (R209). -/
def decMaj18 (r : FmtMX) : Option Instr :=
  if r.t == 0x0#3 && r.var.extractLsb' 2 1 == 0x0#1 then
    some (.qnt { k := r.k, a := r.a, b := r.b, ol := r.ol == 1#1, elect := r.var.extractLsb' 1 1 == 1#1, h := r.var.extractLsb' 0 1 == 1#1, fmt := r.fn })
  else if r.t == 0x0#3 && r.ol == 0x0#1 && r.var.extractLsb' 2 1 == 0x1#1 then
    some (.qscl { k := r.k, a := r.a, b := r.b, elect := r.var.extractLsb' 1 1 == 1#1, h := r.var.extractLsb' 0 1 == 1#1, fmt := r.fn })
  else none

/-- Major 0x19 (R209). -/
def decMaj19 (r : FmtMX) : Option Instr :=
  if r.t == 0x0#3 && r.var.extractLsb' 1 2 == 0x0#2 && r.fn == 0x0#4 then
    some (.dq { k := r.k, a := r.a, b := r.b, ol := r.ol == 1#1, h := r.var.extractLsb' 0 1 == 1#1 })
  else none

/-- Major 0x1A (R209). -/
def decMaj1A (r : FmtRG) : Option Instr :=
  if r.b.extractLsb' 1 4 == 0x0#4 && r.pb == 0x0#1 && r.fn == 0x0#5 then
    some (.hdrr { g := r.g, d := r.d, a := r.a, h := r.b.extractLsb' 0 1 == 1#1, pa := r.pa == 1#1 })
  else if r.b.extractLsb' 1 4 == 0x0#4 && r.pb == 0x0#1 && r.fn == 0x1#5 then
    some (.hdrw { g := r.g, d := r.d, a := r.a, h := r.b.extractLsb' 0 1 == 1#1, pa := r.pa == 1#1 })
  else if r.fn == 0x2#5 then
    some (.cbk { g := r.g, d := r.d, a := r.a, b := r.b, pa := r.pa == 1#1, pb := r.pb == 1#1 })
  else none

/-- Major 0x1C (R209). -/
def decMaj1C (r : FmtMX) : Option Instr :=
  some (.mma { k := r.k, t := r.t, a := r.a, b := r.b, ol := r.ol == 1#1, var := r.var, fmt := r.fn })

/-- Major 0x1D (R209). -/
def decMaj1D (r : FmtMX) : Option Instr :=
  some (.mmaz { k := r.k, t := r.t, a := r.a, b := r.b, ol := r.ol == 1#1, var := r.var, fmt := r.fn })

/-- Major 0x1E (R209). -/
def decMaj1E (r : FmtMX) : Option Instr :=
  if r.a == 0x0#5 && r.b == 0x0#5 && r.ol == 0x0#1 && r.var.extractLsb' 2 1 == 0x0#1 && r.fn == 0x0#4 then
    some (.tcfg { k := r.k, t := r.t, shape := r.var.extractLsb' 1 1 == 1#1, afmt := r.var.extractLsb' 0 1 == 1#1 })
  else none

/-- Major 0x1F (R209). -/
def decMaj1F (r : FmtMX) : Option Instr :=
  if r.a == 0x0#5 && r.b == 0x0#5 && r.ol == 0x0#1 && r.var == 0x0#3 && r.fn == 0x0#4 then
    some (.tzero { k := r.k, t := r.t })
  else if r.t == 0x0#3 && r.a.extractLsb' 4 1 == 0x0#1 && r.b.extractLsb' 4 1 == 0x0#1 && r.ol == 0x0#1 && r.var == 0x0#3 && r.fn == 0x1#4 then
    some (.kopMov { k := r.k, d := r.a.extractLsb' 0 4, b := r.b.extractLsb' 0 4 })
  else if r.t == 0x0#3 && r.a.extractLsb' 4 1 == 0x0#1 && r.b.extractLsb' 4 1 == 0x0#1 && r.ol == 0x0#1 && r.var == 0x1#3 && r.fn == 0x1#4 then
    some (.kopAnd { k := r.k, d := r.a.extractLsb' 0 4, b := r.b.extractLsb' 0 4 })
  else if r.t == 0x0#3 && r.a.extractLsb' 4 1 == 0x0#1 && r.b.extractLsb' 4 1 == 0x0#1 && r.ol == 0x0#1 && r.var == 0x2#3 && r.fn == 0x1#4 then
    some (.kopOr { k := r.k, d := r.a.extractLsb' 0 4, b := r.b.extractLsb' 0 4 })
  else if r.t == 0x0#3 && r.a.extractLsb' 4 1 == 0x0#1 && r.b.extractLsb' 4 1 == 0x0#1 && r.ol == 0x0#1 && r.var == 0x3#3 && r.fn == 0x1#4 then
    some (.kopAndn { k := r.k, d := r.a.extractLsb' 0 4, b := r.b.extractLsb' 0 4 })
  else if r.a.extractLsb' 4 1 == 0x0#1 && r.b == 0x0#5 && r.ol == 0x0#1 && r.var == 0x4#3 && r.fn == 0x1#4 then
    some (.kopNz { k := r.k, t := r.t, d := r.a.extractLsb' 0 4 })
  else if r.t == 0x0#3 && r.a.extractLsb' 4 1 == 0x0#1 && r.b.extractLsb' 3 2 == 0x0#2 && r.ol == 0x0#1 && r.var == 0x5#3 && r.fn == 0x1#4 then
    some (.kopFromp { k := r.k, d := r.a.extractLsb' 0 4, b := r.b.extractLsb' 0 3 })
  else if r.t == 0x0#3 && r.a.extractLsb' 3 2 == 0x0#2 && r.b.extractLsb' 4 1 == 0x0#1 && r.ol == 0x0#1 && r.var == 0x6#3 && r.fn == 0x1#4 then
    some (.kopTop { k := r.k, d := r.a.extractLsb' 0 3, b := r.b.extractLsb' 0 4 })
  else if r.b == 0x0#5 && r.ol == 0x0#1 && r.var.extractLsb' 1 2 == 0x0#2 && r.fn == 0x2#4 then
    some (.tchk { k := r.k, t := r.t, a := r.a, m := r.var.extractLsb' 0 1 == 1#1 })
  else none

/-- Major 0x20 (R209). -/
def decMaj20 (r : FmtMX) : Option Instr :=
  if r.b == 0x0#5 && r.ol == 0x0#1 && r.var.extractLsb' 2 1 == 0x0#1 && r.fn == 0x0#4 then
    some (.tmovfF32 { k := r.k, t := r.t, a := r.a, q := r.var.extractLsb' 0 2 })
  else if r.b == 0x0#5 && r.ol == 0x0#1 && r.var.extractLsb' 1 2 == 0x2#2 && r.fn == 0x0#4 then
    some (.tmovfBf16 { k := r.k, t := r.t, a := r.a, h := r.var.extractLsb' 0 1 == 1#1 })
  else if r.b == 0x0#5 && r.ol == 0x0#1 && r.var.extractLsb' 2 1 == 0x0#1 && r.fn == 0x1#4 then
    some (.tmovtF32 { k := r.k, t := r.t, a := r.a, q := r.var.extractLsb' 0 2 })
  else if r.b == 0x0#5 && r.ol == 0x0#1 && r.var.extractLsb' 1 2 == 0x2#2 && r.fn == 0x1#4 then
    some (.tmovtBf16 { k := r.k, t := r.t, a := r.a, h := r.var.extractLsb' 0 1 == 1#1 })
  else none

/-- Major 0x21 (R209). -/
def decMaj21 (r : FmtMX) : Option Instr :=
  if r.a == 0x0#5 && r.ol == 0x0#1 && r.var == 0x0#3 && r.fn == 0x0#4 then
    some (.tdrain { k := r.k, t := r.t, b := r.b })
  else if r.a == 0x0#5 && r.ol == 0x0#1 && r.var == 0x0#3 && r.fn == 0x1#4 then
    some (.tdrainAdd { k := r.k, t := r.t, b := r.b })
  else none

/-- Major 0x22 (R209). -/
def decMaj22 (r : FmtMX) : Option Instr :=
  if r.a == 0x0#5 && r.ol == 0x0#1 && r.var == 0x0#3 && r.fn == 0x0#4 then
    some (.tstsp { k := r.k, t := r.t, b := r.b })
  else none

/-- Major 0x24 (R209). -/
def decMaj24 (r : FmtQF) : Option Instr :=
  if r.a == 0x0#5 && r.fn == 0x0#4 then
    some (.qpop { g := r.g, d := r.d, qn := r.qn, mp := r.mp })
  else none

/-- Major 0x25 (R209). -/
def decMaj25 (r : FmtQF) : Option Instr :=
  if r.g == 0x7#3 && r.fn == 0x0#4 then
    some (.qpopb { d := r.d, a := r.a, qn := r.qn, mp := r.mp })
  else if r.g == 0x7#3 && r.d.extractLsb' 1 4 == 0x0#4 && r.a == 0x0#5 && r.mp == 0x7#3 && r.fn == 0x1#4 then
    some (.qpopo { d := r.d.extractLsb' 0 1 == 1#1, qn := r.qn })
  else none

/-- Major 0x26 (R209). -/
def decMaj26 (r : FmtQF) : Option Instr :=
  if r.a == 0x0#5 && r.mp == 0x7#3 && r.fn == 0x0#4 then
    some (.qpush { g := r.g, d := r.d, qn := r.qn })
  else none

/-- Major 0x27 (R209). -/
def decMaj27 (r : FmtQF) : Option Instr :=
  if r.g == 0x7#3 && r.mp == 0x7#3 && r.fn == 0x0#4 then
    some (.qpushb { d := r.d, a := r.a, qn := r.qn })
  else none

/-- Major 0x28 (R209). -/
def decMaj28 (r : FmtQF) : Option Instr :=
  if r.d == 0x0#5 && r.a == 0x0#5 && r.mp == 0x7#3 && r.fn == 0x0#4 then
    some (.qmark { g := r.g, qn := r.qn })
  else if r.a == 0x0#5 && r.fn == 0x1#4 then
    some (.qpeek { g := r.g, d := r.d, qn := r.qn, mp := r.mp })
  else if r.d == 0x0#5 && r.fn == 0x2#4 then
    some (.qtest { g := r.g, a := r.a, qn := r.qn, mp := r.mp })
  else none

/-- Major 0x29 (R209). -/
def decMaj29 (r : FmtQF) : Option Instr :=
  if r.d == 0x0#5 && r.mp == 0x7#3 && r.fn == 0x0#4 then
    some (.qcfg { g := r.g, a := r.a, qn := r.qn })
  else if r.d == 0x0#5 && r.a == 0x0#5 && r.mp == 0x7#3 && r.fn == 0x1#4 then
    some (.qclose { g := r.g, qn := r.qn })
  else if r.a == 0x0#5 && r.mp == 0x7#3 && r.fn == 0x2#4 then
    some (.qstat { g := r.g, d := r.d, qn := r.qn })
  else none

/-- Major 0x2C (R209). -/
def decMaj2C (r : FmtMEM) : Option Instr :=
  some (.ld { d := r.d, a := r.a, w := r.w, off := r.off })

/-- Major 0x2D (R209). -/
def decMaj2D (r : FmtMEM) : Option Instr :=
  some (.st { d := r.d, a := r.a, w := r.w, off := r.off })

/-- Major 0x2E (R209). -/
def decMaj2E (r : FmtMA) : Option Instr :=
  if r.dir == 0x0#1 && r.res == 0x0#3 && (6#4 ≤ r.os && r.os ≤ 10#4) then
    some (.ldc { g := r.g, d := r.d, a := r.a, sp := r.sp == 1#1, os := r.os, w := r.w })
  else if r.dir == 0x0#1 && r.res == 0x0#3 then
    some (.ldMa { g := r.g, d := r.d, a := r.a, sp := r.sp == 1#1, os := r.os, w := r.w })
  else if r.dir == 0x1#1 && r.res == 0x0#3 then
    some (.stMa { g := r.g, d := r.d, a := r.a, sp := r.sp == 1#1, os := r.os, w := r.w })
  else none

/-- Major 0x2F (R209). -/
def decMaj2F (r : FmtAT) : Option Instr :=
  if r.d == 0x0#5 && r.res == 0x0#1 then
    some (.red { op := r.op, a := r.a, b := r.b, os := r.os, sp := r.sp == 1#1, dw := r.w == 1#1 })
  else if r.res == 0x0#1 then
    some (.atom { op := r.op, d := r.d, a := r.a, b := r.b, os := r.os, sp := r.sp == 1#1, dw := r.w == 1#1 })
  else none

/-- Major 0x30 (R209). -/
def decMaj30 (r : FmtAT) : Option Instr :=
  if r.d == 0x0#5 && r.res == 0x0#1 then
    some (.redMinmax { op := r.op, a := r.a, b := r.b, os := r.os, sp := r.sp == 1#1, dw := r.w == 1#1 })
  else if r.res == 0x0#1 then
    some (.atomMinmax { op := r.op, d := r.d, a := r.a, b := r.b, os := r.os, sp := r.sp == 1#1, dw := r.w == 1#1 })
  else none

/-- Major 0x31 (R209). -/
def decMaj31 (r : FmtAT) : Option Instr :=
  if r.res == 0x0#1 then
    some (.cas { ps := r.op, d := r.d, a := r.a, b := r.b, os := r.os, sp := r.sp == 1#1, dw := r.w == 1#1 })
  else none

/-- Major 0x32 (R209). -/
def decMaj32 (r : FmtQF) : Option Instr :=
  if r.a == 0x0#5 && r.mp == 0x7#3 && r.fn == 0x0#4 then
    some (.ldq { g := r.g, d := r.d, qn := r.qn })
  else if r.a == 0x0#5 && r.mp == 0x7#3 && r.fn == 0x1#4 then
    some (.ldbq { g := r.g, d := r.d, qn := r.qn })
  else if r.a == 0x0#5 && r.mp == 0x7#3 && r.fn == 0x2#4 then
    some (.stq { g := r.g, d := r.d, qn := r.qn })
  else if r.mp == 0x7#3 && r.fn == 0x3#4 then
    some (.qstream { g := r.g, d := r.d, a := r.a, qn := r.qn })
  else if r.mp == 0x7#3 && r.fn == 0x4#4 then
    some (.gath { g := r.g, d := r.d, a := r.a, qn := r.qn })
  else if r.qn.extractLsb' 1 4 == 0x0#4 && r.mp == 0x7#3 && r.fn == 0x5#4 then
    some (.scat { g := r.g, d := r.d, a := r.a, blk := r.qn.extractLsb' 0 1 == 1#1 })
  else if r.mp.extractLsb' 1 2 == 0x0#2 && r.fn == 0x6#4 then
    some (.gathR { g := r.g, d := r.d, a := r.a, b := r.qn, dw := r.mp.extractLsb' 0 1 == 1#1 })
  else if r.a.extractLsb' 1 4 == 0x0#4 && r.qn == 0x0#5 && r.mp == 0x7#3 && r.fn == 0x7#4 then
    some (.pref { g := r.g, d := r.d, l2 := r.a.extractLsb' 0 1 == 1#1 })
  else none

/-- Major 0x33 (R209). -/
def decMaj33 (r : FmtRG) : Option Instr :=
  if r.fn == 0x0#5 then
    some (.bcopy { g := r.g, d := r.d, a := r.a, b := r.b, pa := r.pa == 1#1, pb := r.pb == 1#1 })
  else if r.fn == 0x1#5 then
    some (.bstore { g := r.g, d := r.d, a := r.a, b := r.b, pa := r.pa == 1#1, pb := r.pb == 1#1 })
  else if r.fn == 0x2#5 then
    some (.mcast { g := r.g, d := r.d, a := r.a, b := r.b, pa := r.pa == 1#1, pb := r.pb == 1#1 })
  else if r.d == 0x0#5 && r.b == 0x0#5 && r.pb == 0x0#1 && r.fn == 0x3#5 then
    some (.replay { g := r.g, a := r.a, pa := r.pa == 1#1 })
  else none

/-- Major 0x34 (R209). -/
def decMaj34 (r : FmtRG) : Option Instr :=
  if r.fn == 0x0#5 then
    some (.rch { g := r.g, d := r.d, a := r.a, b := r.b, pa := r.pa == 1#1, pb := r.pb == 1#1 })
  else if r.fn == 0x1#5 then
    some (.rget { g := r.g, d := r.d, a := r.a, b := r.b, pa := r.pa == 1#1, pb := r.pb == 1#1 })
  else if r.fn == 0x2#5 then
    some (.rput { g := r.g, d := r.d, a := r.a, b := r.b, pa := r.pa == 1#1, pb := r.pb == 1#1 })
  else none

/-- Major 0x35 (R209). -/
def decMaj35 (r : FmtSYS) : Option Instr :=
  if r.d == 0x0#5 && r.a == 0x0#5 && r.sel.extractLsb' 4 6 == 0x0#6 && r.fn == 0x0#2 then
    some (.fence { g := r.g, os := r.sel.extractLsb' 0 4 })
  else if r.d == 0x0#5 && r.a == 0x0#5 && r.sel.extractLsb' 5 5 == 0x0#5 && r.fn == 0x1#2 then
    some (.join { g := r.g, mask := r.sel.extractLsb' 0 5 })
  else none

/-- Major 0x36 (R209). -/
def decMaj36 (r : FmtRG) : Option Instr :=
  if r.d == 0x0#5 && r.fn == 0x0#5 then
    some (.pinit { g := r.g, a := r.a, b := r.b, pa := r.pa == 1#1, pb := r.pb == 1#1 })
  else if r.pb == 0x0#1 && r.fn == 0x1#5 then
    some (.preg { g := r.g, d := r.d, a := r.a, b := r.b, pa := r.pa == 1#1 })
  else if r.d == 0x0#5 && r.b == 0x0#5 && r.pb == 0x0#1 && r.fn == 0x2#5 then
    some (.pdereg { g := r.g, a := r.a, pa := r.pa == 1#1 })
  else if r.b == 0x0#5 && r.pb == 0x0#1 && r.fn == 0x3#5 then
    some (.parr { g := r.g, d := r.d, a := r.a, pa := r.pa == 1#1 })
  else if r.d == 0x0#5 && r.fn == 0x4#5 then
    some (.pbytes { g := r.g, a := r.a, b := r.b, pa := r.pa == 1#1, pb := r.pb == 1#1 })
  else if r.d.extractLsb' 3 2 == 0x0#2 && r.fn == 0x5#5 then
    some (.pwait { g := r.g, d := r.d.extractLsb' 0 3, a := r.a, b := r.b, pa := r.pa == 1#1, pb := r.pb == 1#1 })
  else if r.fn == 0x6#5 then
    some (.ptest { g := r.g, d := r.d, a := r.a, b := r.b, pa := r.pa == 1#1, pb := r.pb == 1#1 })
  else if r.fn == 0x7#5 then
    some (.ptestW { g := r.g, d := r.d, a := r.a, b := r.b, pa := r.pa == 1#1, pb := r.pb == 1#1 })
  else none

/-- Major 0x37 (R209). -/
def decMaj37 (r : FmtTASK) : Option Instr :=
  if r.d == 0x0#5 && r.b == 0x0#5 && r.fn == 0x0#4 then
    some (.spawn { g := r.g, a := r.a, ps := r.ps })
  else if r.a == 0x0#5 && r.b == 0x0#5 && r.fn == 0x1#4 then
    some (.take { g := r.g, d := r.d, ps := r.ps })
  else if r.b == 0x0#5 && r.fn == 0x2#4 then
    some (.steal { g := r.g, d := r.d, a := r.a, ps := r.ps })
  else none

/-- Major 0x38 (R209). -/
def decMaj38 (r : FmtTASK) : Option Instr :=
  if r.d == 0x0#5 && r.ps == 0x7#3 && r.fn == 0x0#4 then
    some (.fnew { g := r.g, a := r.a, b := r.b })
  else if r.d == 0x0#5 && r.fn == 0x1#4 then
    some (.fres { g := r.g, a := r.a, b := r.b, ps := r.ps })
  else if r.d == 0x0#5 && r.fn == 0x2#4 then
    some (.fresF { g := r.g, a := r.a, b := r.b, ps := r.ps })
  else if r.d == 0x0#5 && r.fn == 0x3#4 then
    some (.freg { g := r.g, a := r.a, b := r.b, ps := r.ps })
  else if r.b == 0x0#5 && r.fn == 0x4#4 then
    some (.fwait { g := r.g, d := r.d, a := r.a, ps := r.ps })
  else if r.b == 0x0#5 && r.ps == 0x7#3 && r.fn == 0x5#4 then
    some (.fstat { g := r.g, d := r.d, a := r.a })
  else if r.b == 0x0#5 && r.ps == 0x7#3 && r.fn == 0x6#4 then
    some (.fstatHi { g := r.g, d := r.d, a := r.a })
  else none

/-- Major 0x39 (R209). -/
def decMaj39 (r : FmtTASK) : Option Instr :=
  if r.b == 0x0#5 && r.fn == 0x0#4 then
    some (.jlaunch { g := r.g, d := r.d, a := r.a, ps := r.ps })
  else if r.d == 0x0#5 && r.a == 0x0#5 && r.b == 0x0#5 && r.ps == 0x7#3 && r.fn == 0x1#4 then
    some (.trigger { g := r.g })
  else if r.d == 0x0#5 && r.a == 0x0#5 && r.b == 0x0#5 && r.ps == 0x7#3 && r.fn == 0x2#4 then
    some (.jyield { g := r.g })
  else if r.b == 0x0#5 && r.ps == 0x7#3 && r.fn == 0x3#4 then
    some (.leave { g := r.g, d := r.d, a := r.a })
  else none

/-- Major 0x3A (R209). -/
def decMaj3A (r : FmtRG) : Option Instr :=
  if r.fn == 0x0#5 then
    some (.kvlook { g := r.g, d := r.d, a := r.a, b := r.b, pa := r.pa == 1#1, pb := r.pb == 1#1 })
  else if r.fn == 0x1#5 then
    some (.kvins { g := r.g, d := r.d, a := r.a, b := r.b, pa := r.pa == 1#1, pb := r.pb == 1#1 })
  else if r.fn == 0x2#5 then
    some (.kvdel { g := r.g, d := r.d, a := r.a, b := r.b, pa := r.pa == 1#1, pb := r.pb == 1#1 })
  else if r.fn == 0x3#5 then
    some (.pfxlook { g := r.g, d := r.d, a := r.a, b := r.b, pa := r.pa == 1#1, pb := r.pb == 1#1 })
  else if r.fn == 0x4#5 then
    some (.pfxins { g := r.g, d := r.d, a := r.a, b := r.b, pa := r.pa == 1#1, pb := r.pb == 1#1 })
  else if r.b == 0x0#5 && r.pb == 0x0#1 && r.fn == 0x5#5 then
    some (.attd { g := r.g, d := r.d, a := r.a, pa := r.pa == 1#1 })
  else none

/-- Major 0x3B (R209). -/
def decMaj3B (r : FmtSYS) : Option Instr :=
  if r.sel.extractLsb' 1 9 == 0x0#9 && r.fn == 0x0#2 then
    some (.sret { g := r.g, d := r.d, a := r.a, m := r.sel.extractLsb' 0 1 == 1#1 })
  else if r.sel.extractLsb' 2 8 == 0x0#8 && r.fn == 0x1#2 then
    some (.tlbinv { g := r.g, d := r.d, a := r.a, k := r.sel.extractLsb' 0 2 })
  else none

/-- Major 0x3C (R209). -/
def decMaj3C (r : FmtSYS) : Option Instr :=
  if r.sel.extractLsb' 3 7 == 0x0#7 && r.fn == 0x0#2 then
    some (.ctxq { g := r.g, d := r.d, a := r.a, item := r.sel.extractLsb' 0 3 })
  else none

/-- Major 0x3D (R209). -/
def decMaj3D (r : FmtSYS) : Option Instr :=
  if r.sel == 0x0#10 && r.fn == 0x0#2 then
    some (.haltq { g := r.g, d := r.d, a := r.a })
  else none

/-- The instruction a word encodes, whatever its chain bit; none where no row of the opcode table matches (R209,
R210). -/
def decode (w : Word) : Option Instr :=
  match (majorOf w).toNat with
  | 0x01 => decMaj01 (splitBF w)
  | 0x02 => decMaj02 (splitBF w)
  | 0x03 => decMaj03 (splitRG w)
  | 0x04 => decMaj04 (splitRP w)
  | 0x05 => decMaj05 (splitRG w)
  | 0x06 => decMaj06 (splitSYS w)
  | 0x08 => decMaj08 (splitRG w)
  | 0x09 => decMaj09 (splitRG w)
  | 0x0A => decMaj0A (splitRG w)
  | 0x0B => decMaj0B (splitRG w)
  | 0x0C => decMaj0C (splitRI w)
  | 0x0D => decMaj0D (splitMEM w)
  | 0x10 => decMaj10 (splitRG w)
  | 0x11 => decMaj11 (splitRG w)
  | 0x12 => decMaj12 (splitRG w)
  | 0x13 => decMaj13 (splitRG w)
  | 0x14 => decMaj14 (splitRP w)
  | 0x15 => decMaj15 (splitRG w)
  | 0x16 => decMaj16 (splitRG w)
  | 0x18 => decMaj18 (splitMX w)
  | 0x19 => decMaj19 (splitMX w)
  | 0x1A => decMaj1A (splitRG w)
  | 0x1C => decMaj1C (splitMX w)
  | 0x1D => decMaj1D (splitMX w)
  | 0x1E => decMaj1E (splitMX w)
  | 0x1F => decMaj1F (splitMX w)
  | 0x20 => decMaj20 (splitMX w)
  | 0x21 => decMaj21 (splitMX w)
  | 0x22 => decMaj22 (splitMX w)
  | 0x24 => decMaj24 (splitQF w)
  | 0x25 => decMaj25 (splitQF w)
  | 0x26 => decMaj26 (splitQF w)
  | 0x27 => decMaj27 (splitQF w)
  | 0x28 => decMaj28 (splitQF w)
  | 0x29 => decMaj29 (splitQF w)
  | 0x2C => decMaj2C (splitMEM w)
  | 0x2D => decMaj2D (splitMEM w)
  | 0x2E => decMaj2E (splitMA w)
  | 0x2F => decMaj2F (splitAT w)
  | 0x30 => decMaj30 (splitAT w)
  | 0x31 => decMaj31 (splitAT w)
  | 0x32 => decMaj32 (splitQF w)
  | 0x33 => decMaj33 (splitRG w)
  | 0x34 => decMaj34 (splitRG w)
  | 0x35 => decMaj35 (splitSYS w)
  | 0x36 => decMaj36 (splitRG w)
  | 0x37 => decMaj37 (splitTASK w)
  | 0x38 => decMaj38 (splitTASK w)
  | 0x39 => decMaj39 (splitTASK w)
  | 0x3A => decMaj3A (splitRG w)
  | 0x3B => decMaj3B (splitSYS w)
  | 0x3C => decMaj3C (splitSYS w)
  | 0x3D => decMaj3D (splitSYS w)
  | _ => none

/-- The word of an instruction with chain bit c, written from the formats of R204; none for an event, which has no
word. -/
def encode (c : Bool) : Instr → Option Word
  | .bra f => some (joinBF c 0x01#6 { g := f.g, res := 0x0#2, off := f.off })
  | .call f => some (joinBF c 0x02#6 { g := f.g, res := 0x0#2, off := f.off })
  | .nop f => some (joinRG c 0x03#6 { g := f.g, d := 0x0#5, a := 0x0#5, b := 0x0#5, pa := 0x0#1, pb := 0x0#1, fn := 0x0#5 })
  | .jmp f => some (joinRG c 0x03#6 { g := f.g, d := 0x0#5, a := f.a, b := 0x0#5, pa := BitVec.ofBool f.pa, pb := 0x0#1, fn := 0x1#5 })
  | .calli f => some (joinRG c 0x03#6 { g := f.g, d := 0x0#5, a := f.a, b := 0x0#5, pa := BitVec.ofBool f.pa, pb := 0x0#1, fn := 0x2#5 })
  | .ret f => some (joinRG c 0x03#6 { g := f.g, d := 0x0#5, a := 0x0#5, b := 0x0#5, pa := 0x0#1, pb := 0x0#1, fn := 0x3#5 })
  | .exit f => some (joinRG c 0x03#6 { g := f.g, d := 0x0#5, a := 0x0#5, b := 0x0#5, pa := 0x0#1, pb := 0x0#1, fn := 0x4#5 })
  | .yield f => some (joinRG c 0x03#6 { g := f.g, d := 0x0#5, a := 0x0#5, b := 0x0#5, pa := 0x0#1, pb := 0x0#1, fn := 0x5#5 })
  | .trap f => some (joinRG c 0x03#6 { g := f.g, d := 0x0#5, a := f.a, b := f.b, pa := BitVec.ofBool f.pa, pb := 0x0#1, fn := 0x6#5 })
  | .uret f => some (joinRG c 0x03#6 { g := f.g, d := 0x0#5, a := 0x0#5, b := 0x0#5, pa := 0x0#1, pb := 0x0#1, fn := 0x7#5 })
  | .setuv f => some (joinRG c 0x03#6 { g := f.g, d := f.d, a := f.a, b := 0x0#5, pa := BitVec.ofBool f.pa, pb := 0x0#1, fn := 0x8#5 })
  | .bkpt f => some (joinRG c 0x03#6 { g := f.g, d := 0x0#5, a := 0x0#5, b := f.b, pa := 0x0#1, pb := 0x0#1, fn := 0x9#5 })
  | .mark f => some (joinRG c 0x03#6 { g := f.g, d := 0x0#5, a := f.a, b := f.b, pa := BitVec.ofBool f.pa, pb := 0x0#1, fn := 0xA#5 })
  | .icsync f => some (joinRG c 0x03#6 { g := f.g, d := 0x0#5, a := 0x0#5, b := 0x0#5, pa := 0x0#1, pb := 0x0#1, fn := 0xB#5 })
  | .icsyncDev f => some (joinRG c 0x03#6 { g := f.g, d := 0x0#5, a := 0x0#5, b := 0x1#5, pa := 0x0#1, pb := 0x0#1, fn := 0xB#5 })
  | .cmp f => some (joinRP c 0x04#6 { g := f.g, p1 := f.p1, p2 := f.p2, a := f.a, b := f.b, pa := BitVec.ofBool f.pa, pb := BitVec.ofBool f.pb, cc := f.cc })
  | .plopAnd f => some (joinRP c 0x04#6 { g := f.g, p1 := f.p1, p2 := f.p2, a := 0x0#2 ++ f.a, b := 0x0#2 ++ f.b, pa := 0x0#1, pb := 0x0#1, cc := 0xA#4 })
  | .plopOr f => some (joinRP c 0x04#6 { g := f.g, p1 := f.p1, p2 := f.p2, a := 0x0#2 ++ f.a, b := 0x0#2 ++ f.b, pa := 0x0#1, pb := 0x0#1, cc := 0xB#4 })
  | .plopXor f => some (joinRP c 0x04#6 { g := f.g, p1 := f.p1, p2 := f.p2, a := 0x0#2 ++ f.a, b := 0x0#2 ++ f.b, pa := 0x0#1, pb := 0x0#1, cc := 0xC#4 })
  | .plopAndn f => some (joinRP c 0x04#6 { g := f.g, p1 := f.p1, p2 := f.p2, a := 0x0#2 ++ f.a, b := 0x0#2 ++ f.b, pa := 0x0#1, pb := 0x0#1, cc := 0xD#4 })
  | .voteAny f => some (joinRG c 0x05#6 { g := f.g, d := 0x0#2 ++ f.d, a := 0x0#2 ++ f.a, b := 0x0#5, pa := 0x0#1, pb := 0x0#1, fn := 0x0#5 })
  | .voteAll f => some (joinRG c 0x05#6 { g := f.g, d := 0x0#2 ++ f.d, a := 0x0#2 ++ f.a, b := 0x0#5, pa := 0x0#1, pb := 0x0#1, fn := 0x1#5 })
  | .voteBallot f => some (joinRG c 0x05#6 { g := f.g, d := f.d, a := 0x0#2 ++ f.a, b := 0x0#5, pa := 0x0#1, pb := 0x0#1, fn := 0x2#5 })
  | .elect f => some (joinRG c 0x05#6 { g := f.g, d := 0x0#2 ++ f.d, a := 0x0#5, b := 0x0#5, pa := 0x0#1, pb := 0x0#1, fn := 0x3#5 })
  | .shflIdx f => some (joinRG c 0x05#6 { g := f.g, d := f.d, a := f.a, b := f.b, pa := BitVec.ofBool f.pa, pb := BitVec.ofBool f.pb, fn := 0x4#5 })
  | .shflUp f => some (joinRG c 0x05#6 { g := f.g, d := f.d, a := f.a, b := f.b, pa := BitVec.ofBool f.pa, pb := BitVec.ofBool f.pb, fn := 0x5#5 })
  | .shflDown f => some (joinRG c 0x05#6 { g := f.g, d := f.d, a := f.a, b := f.b, pa := BitVec.ofBool f.pa, pb := BitVec.ofBool f.pb, fn := 0x6#5 })
  | .shflXor f => some (joinRG c 0x05#6 { g := f.g, d := f.d, a := f.a, b := f.b, pa := BitVec.ofBool f.pa, pb := BitVec.ofBool f.pb, fn := 0x7#5 })
  | .csrr f => some (joinSYS c 0x06#6 { g := f.g, d := f.d, a := 0x0#5, sel := f.sel, fn := 0x0#2 })
  | .csrw f => some (joinSYS c 0x06#6 { g := f.g, d := f.d, a := f.a, sel := f.sel, fn := 0x1#2 })
  | .csrs f => some (joinSYS c 0x06#6 { g := f.g, d := f.d, a := f.a, sel := f.sel, fn := 0x2#2 })
  | .csrc f => some (joinSYS c 0x06#6 { g := f.g, d := f.d, a := f.a, sel := f.sel, fn := 0x3#2 })
  | .add f => some (joinRG c 0x08#6 { g := f.g, d := f.d, a := f.a, b := f.b, pa := BitVec.ofBool f.pa, pb := BitVec.ofBool f.pb, fn := 0x0#5 })
  | .sub f => some (joinRG c 0x08#6 { g := f.g, d := f.d, a := f.a, b := f.b, pa := BitVec.ofBool f.pa, pb := BitVec.ofBool f.pb, fn := 0x1#5 })
  | .mul f => some (joinRG c 0x08#6 { g := f.g, d := f.d, a := f.a, b := f.b, pa := BitVec.ofBool f.pa, pb := BitVec.ofBool f.pb, fn := 0x2#5 })
  | .mulhiS f => some (joinRG c 0x08#6 { g := f.g, d := f.d, a := f.a, b := f.b, pa := BitVec.ofBool f.pa, pb := BitVec.ofBool f.pb, fn := 0x3#5 })
  | .mulhiU f => some (joinRG c 0x08#6 { g := f.g, d := f.d, a := f.a, b := f.b, pa := BitVec.ofBool f.pa, pb := BitVec.ofBool f.pb, fn := 0x4#5 })
  | .mad f => some (joinRG c 0x08#6 { g := f.g, d := f.d, a := f.a, b := f.b, pa := BitVec.ofBool f.pa, pb := BitVec.ofBool f.pb, fn := 0x5#5 })
  | .divs f => some (joinRG c 0x09#6 { g := f.g, d := f.d, a := f.a, b := f.b, pa := BitVec.ofBool f.pa, pb := BitVec.ofBool f.pb, fn := 0x0#5 })
  | .divu f => some (joinRG c 0x09#6 { g := f.g, d := f.d, a := f.a, b := f.b, pa := BitVec.ofBool f.pa, pb := BitVec.ofBool f.pb, fn := 0x1#5 })
  | .rems f => some (joinRG c 0x09#6 { g := f.g, d := f.d, a := f.a, b := f.b, pa := BitVec.ofBool f.pa, pb := BitVec.ofBool f.pb, fn := 0x2#5 })
  | .remu f => some (joinRG c 0x09#6 { g := f.g, d := f.d, a := f.a, b := f.b, pa := BitVec.ofBool f.pa, pb := BitVec.ofBool f.pb, fn := 0x3#5 })
  | .minS f => some (joinRG c 0x09#6 { g := f.g, d := f.d, a := f.a, b := f.b, pa := BitVec.ofBool f.pa, pb := BitVec.ofBool f.pb, fn := 0x4#5 })
  | .minU f => some (joinRG c 0x09#6 { g := f.g, d := f.d, a := f.a, b := f.b, pa := BitVec.ofBool f.pa, pb := BitVec.ofBool f.pb, fn := 0x5#5 })
  | .maxS f => some (joinRG c 0x09#6 { g := f.g, d := f.d, a := f.a, b := f.b, pa := BitVec.ofBool f.pa, pb := BitVec.ofBool f.pb, fn := 0x6#5 })
  | .maxU f => some (joinRG c 0x09#6 { g := f.g, d := f.d, a := f.a, b := f.b, pa := BitVec.ofBool f.pa, pb := BitVec.ofBool f.pb, fn := 0x7#5 })
  | .abs f => some (joinRG c 0x09#6 { g := f.g, d := f.d, a := f.a, b := 0x0#5, pa := BitVec.ofBool f.pa, pb := 0x0#1, fn := 0x8#5 })
  | .sel f => some (joinRG c 0x09#6 { g := f.pc, d := f.d, a := f.a, b := f.b, pa := BitVec.ofBool f.pa, pb := BitVec.ofBool f.pb, fn := 0x9#5 })
  | .and f => some (joinRG c 0x0A#6 { g := f.g, d := f.d, a := f.a, b := f.b, pa := BitVec.ofBool f.pa, pb := BitVec.ofBool f.pb, fn := 0x0#5 })
  | .or f => some (joinRG c 0x0A#6 { g := f.g, d := f.d, a := f.a, b := f.b, pa := BitVec.ofBool f.pa, pb := BitVec.ofBool f.pb, fn := 0x1#5 })
  | .xor f => some (joinRG c 0x0A#6 { g := f.g, d := f.d, a := f.a, b := f.b, pa := BitVec.ofBool f.pa, pb := BitVec.ofBool f.pb, fn := 0x2#5 })
  | .andn f => some (joinRG c 0x0A#6 { g := f.g, d := f.d, a := f.a, b := f.b, pa := BitVec.ofBool f.pa, pb := BitVec.ofBool f.pb, fn := 0x3#5 })
  | .shl f => some (joinRG c 0x0A#6 { g := f.g, d := f.d, a := f.a, b := f.b, pa := BitVec.ofBool f.pa, pb := BitVec.ofBool f.pb, fn := 0x4#5 })
  | .shr f => some (joinRG c 0x0A#6 { g := f.g, d := f.d, a := f.a, b := f.b, pa := BitVec.ofBool f.pa, pb := BitVec.ofBool f.pb, fn := 0x5#5 })
  | .sar f => some (joinRG c 0x0A#6 { g := f.g, d := f.d, a := f.a, b := f.b, pa := BitVec.ofBool f.pa, pb := BitVec.ofBool f.pb, fn := 0x6#5 })
  | .rol f => some (joinRG c 0x0A#6 { g := f.g, d := f.d, a := f.a, b := f.b, pa := BitVec.ofBool f.pa, pb := BitVec.ofBool f.pb, fn := 0x7#5 })
  | .clz f => some (joinRG c 0x0A#6 { g := f.g, d := f.d, a := f.a, b := 0x0#5, pa := BitVec.ofBool f.pa, pb := 0x0#1, fn := 0x8#5 })
  | .popc f => some (joinRG c 0x0A#6 { g := f.g, d := f.d, a := f.a, b := 0x0#5, pa := BitVec.ofBool f.pa, pb := 0x0#1, fn := 0x9#5 })
  | .brev f => some (joinRG c 0x0A#6 { g := f.g, d := f.d, a := f.a, b := 0x0#5, pa := BitVec.ofBool f.pa, pb := 0x0#1, fn := 0xA#5 })
  | .mov f => some (joinRG c 0x0A#6 { g := f.g, d := f.d, a := f.a, b := 0x0#5, pa := BitVec.ofBool f.pa, pb := 0x0#1, fn := 0xB#5 })
  | .bfx f => some (joinRG c 0x0B#6 { g := f.g, d := f.d, a := f.a, b := f.b, pa := BitVec.ofBool f.pa, pb := BitVec.ofBool f.pb, fn := 0x0#5 })
  | .bfi f => some (joinRG c 0x0B#6 { g := f.g, d := f.d, a := f.a, b := f.b, pa := BitVec.ofBool f.pa, pb := BitVec.ofBool f.pb, fn := 0x1#5 })
  | .movi f => some (joinRI c 0x0C#6 { g := f.g, d := f.d, fn := 0x0#3, imm := f.imm })
  | .movhi f => some (joinRI c 0x0C#6 { g := f.g, d := f.d, fn := 0x1#3, imm := f.imm })
  | .addImm f => some (joinRI c 0x0C#6 { g := f.g, d := f.d, fn := 0x2#3, imm := f.imm })
  | .andImm f => some (joinRI c 0x0C#6 { g := f.g, d := f.d, fn := 0x3#3, imm := f.imm })
  | .orImm f => some (joinRI c 0x0C#6 { g := f.g, d := f.d, fn := 0x4#3, imm := f.imm })
  | .xorImm f => some (joinRI c 0x0C#6 { g := f.g, d := f.d, fn := 0x5#3, imm := f.imm })
  | .shlImm f => some (joinRI c 0x0C#6 { g := f.g, d := f.d, fn := 0x6#3, imm := f.imm })
  | .shrImm f => some (joinRI c 0x0C#6 { g := f.g, d := f.d, fn := 0x7#3, imm := f.imm })
  | .lea f => some (joinMEM c 0x0D#6 { d := f.d, a := f.a, w := 0x0#1 ++ f.w, off := f.off })
  | .fadd f => some (joinRG c 0x10#6 { g := f.g, d := f.d, a := f.a, b := f.b, pa := BitVec.ofBool f.pa, pb := BitVec.ofBool f.pb, fn := 0x0#3 ++ f.md })
  | .fsub f => some (joinRG c 0x10#6 { g := f.g, d := f.d, a := f.a, b := f.b, pa := BitVec.ofBool f.pa, pb := BitVec.ofBool f.pb, fn := 0x1#3 ++ f.md })
  | .fmul f => some (joinRG c 0x10#6 { g := f.g, d := f.d, a := f.a, b := f.b, pa := BitVec.ofBool f.pa, pb := BitVec.ofBool f.pb, fn := 0x2#3 ++ f.md })
  | .ffma f => some (joinRG c 0x10#6 { g := f.g, d := f.d, a := f.a, b := f.b, pa := BitVec.ofBool f.pa, pb := BitVec.ofBool f.pb, fn := 0x3#3 ++ f.md })
  | .fmin f => some (joinRG c 0x10#6 { g := f.g, d := f.d, a := f.a, b := f.b, pa := BitVec.ofBool f.pa, pb := BitVec.ofBool f.pb, fn := 0x4#3 ++ f.md })
  | .fmax f => some (joinRG c 0x10#6 { g := f.g, d := f.d, a := f.a, b := f.b, pa := BitVec.ofBool f.pa, pb := BitVec.ofBool f.pb, fn := 0x5#3 ++ f.md })
  | .fclass f => some (joinRG c 0x10#6 { g := f.g, d := f.d, a := f.a, b := 0x0#5, pa := BitVec.ofBool f.pa, pb := 0x0#1, fn := 0x6#3 ++ f.md })
  | .frnd f => some (joinRG c 0x10#6 { g := f.g, d := f.d, a := f.a, b := f.b, pa := BitVec.ofBool f.pa, pb := 0x0#1, fn := 0x7#3 ++ f.md })
  | .frcp f => some (joinRG c 0x11#6 { g := f.g, d := f.d, a := f.a, b := 0x0#5, pa := BitVec.ofBool f.pa, pb := 0x0#1, fn := 0x0#3 ++ f.md })
  | .frsq f => some (joinRG c 0x11#6 { g := f.g, d := f.d, a := f.a, b := 0x0#5, pa := BitVec.ofBool f.pa, pb := 0x0#1, fn := 0x1#3 ++ f.md })
  | .fsqrt f => some (joinRG c 0x11#6 { g := f.g, d := f.d, a := f.a, b := 0x0#5, pa := BitVec.ofBool f.pa, pb := 0x0#1, fn := 0x2#3 ++ f.md })
  | .fdiv f => some (joinRG c 0x11#6 { g := f.g, d := f.d, a := f.a, b := f.b, pa := BitVec.ofBool f.pa, pb := BitVec.ofBool f.pb, fn := 0x3#3 ++ f.md })
  | .fexp2 f => some (joinRG c 0x11#6 { g := f.g, d := f.d, a := f.a, b := 0x0#5, pa := BitVec.ofBool f.pa, pb := 0x0#1, fn := 0x4#3 ++ f.md })
  | .flog2 f => some (joinRG c 0x11#6 { g := f.g, d := f.d, a := f.a, b := 0x0#5, pa := BitVec.ofBool f.pa, pb := 0x0#1, fn := 0x5#3 ++ f.md })
  | .fsin f => some (joinRG c 0x11#6 { g := f.g, d := f.d, a := f.a, b := 0x0#5, pa := BitVec.ofBool f.pa, pb := 0x0#1, fn := 0x6#3 ++ f.md })
  | .fcos f => some (joinRG c 0x11#6 { g := f.g, d := f.d, a := f.a, b := 0x0#5, pa := BitVec.ofBool f.pa, pb := 0x0#1, fn := 0x7#3 ++ f.md })
  | .hadd2Bf16 f => some (joinRG c 0x12#6 { g := f.g, d := f.d, a := f.a, b := f.b, pa := BitVec.ofBool f.pa, pb := BitVec.ofBool f.pb, fn := 0x0#3 ++ f.md })
  | .hmul2Bf16 f => some (joinRG c 0x12#6 { g := f.g, d := f.d, a := f.a, b := f.b, pa := BitVec.ofBool f.pa, pb := BitVec.ofBool f.pb, fn := 0x1#3 ++ f.md })
  | .hfma2Bf16 f => some (joinRG c 0x12#6 { g := f.g, d := f.d, a := f.a, b := f.b, pa := BitVec.ofBool f.pa, pb := BitVec.ofBool f.pb, fn := 0x2#3 ++ f.md })
  | .hadd2F16 f => some (joinRG c 0x12#6 { g := f.g, d := f.d, a := f.a, b := f.b, pa := BitVec.ofBool f.pa, pb := BitVec.ofBool f.pb, fn := 0x4#3 ++ f.md })
  | .hmul2F16 f => some (joinRG c 0x12#6 { g := f.g, d := f.d, a := f.a, b := f.b, pa := BitVec.ofBool f.pa, pb := BitVec.ofBool f.pb, fn := 0x5#3 ++ f.md })
  | .hfma2F16 f => some (joinRG c 0x12#6 { g := f.g, d := f.d, a := f.a, b := f.b, pa := BitVec.ofBool f.pa, pb := BitVec.ofBool f.pb, fn := 0x6#3 ++ f.md })
  | .fcvtF32Bf16 f => some (joinRG c 0x13#6 { g := f.g, d := f.d, a := f.a, b := 0x0#5, pa := BitVec.ofBool f.pa, pb := 0x0#1, fn := 0x0#5 })
  | .fcvtF32Bf16Hi f => some (joinRG c 0x13#6 { g := f.g, d := f.d, a := f.a, b := 0x0#5, pa := BitVec.ofBool f.pa, pb := 0x0#1, fn := 0x1#5 })
  | .fcvtF32F16 f => some (joinRG c 0x13#6 { g := f.g, d := f.d, a := f.a, b := 0x0#5, pa := BitVec.ofBool f.pa, pb := 0x0#1, fn := 0x2#5 })
  | .fcvtF32F16Hi f => some (joinRG c 0x13#6 { g := f.g, d := f.d, a := f.a, b := 0x0#5, pa := BitVec.ofBool f.pa, pb := 0x0#1, fn := 0x3#5 })
  | .fcvtBf16x2F32 f => some (joinRG c 0x13#6 { g := f.g, d := f.d, a := f.a, b := f.b, pa := BitVec.ofBool f.pa, pb := BitVec.ofBool f.pb, fn := 0x4#5 })
  | .fcvtF16x2F32 f => some (joinRG c 0x13#6 { g := f.g, d := f.d, a := f.a, b := f.b, pa := BitVec.ofBool f.pa, pb := BitVec.ofBool f.pb, fn := 0x5#5 })
  | .icvtSwF32 f => some (joinRG c 0x13#6 { g := f.g, d := f.d, a := f.a, b := 0x0#5, pa := BitVec.ofBool f.pa, pb := 0x0#1, fn := 0x8#5 })
  | .icvtSwF32Rz f => some (joinRG c 0x13#6 { g := f.g, d := f.d, a := f.a, b := 0x0#5, pa := BitVec.ofBool f.pa, pb := 0x0#1, fn := 0x9#5 })
  | .icvtUwF32 f => some (joinRG c 0x13#6 { g := f.g, d := f.d, a := f.a, b := 0x0#5, pa := BitVec.ofBool f.pa, pb := 0x0#1, fn := 0xA#5 })
  | .icvtUwF32Rz f => some (joinRG c 0x13#6 { g := f.g, d := f.d, a := f.a, b := 0x0#5, pa := BitVec.ofBool f.pa, pb := 0x0#1, fn := 0xB#5 })
  | .icvtF32Sw f => some (joinRG c 0x13#6 { g := f.g, d := f.d, a := f.a, b := 0x0#5, pa := BitVec.ofBool f.pa, pb := 0x0#1, fn := 0xC#5 })
  | .icvtF32Uw f => some (joinRG c 0x13#6 { g := f.g, d := f.d, a := f.a, b := 0x0#5, pa := BitVec.ofBool f.pa, pb := 0x0#1, fn := 0xD#5 })
  | .fcmp f => some (joinRP c 0x14#6 { g := f.g, p1 := f.p1, p2 := f.p2, a := f.a, b := f.b, pa := BitVec.ofBool f.pa, pb := BitVec.ofBool f.pb, cc := 0x0#1 ++ f.cc })
  | .rope f => some (joinRG c 0x15#6 { g := f.g, d := f.d, a := f.a, b := f.b, pa := BitVec.ofBool f.pa, pb := BitVec.ofBool f.pb, fn := 0x0#5 })
  | .amrg f => some (joinRG c 0x16#6 { g := f.g, d := f.d, a := f.a, b := f.b, pa := BitVec.ofBool f.pa, pb := BitVec.ofBool f.pb, fn := 0x0#5 })
  | .qnt f => some (joinMX c 0x18#6 { k := f.k, t := 0x0#3, a := f.a, b := f.b, ol := BitVec.ofBool f.ol, var := 0x0#1 ++ BitVec.ofBool f.elect ++ BitVec.ofBool f.h, fn := f.fmt })
  | .qscl f => some (joinMX c 0x18#6 { k := f.k, t := 0x0#3, a := f.a, b := f.b, ol := 0x0#1, var := 0x1#1 ++ BitVec.ofBool f.elect ++ BitVec.ofBool f.h, fn := f.fmt })
  | .dq f => some (joinMX c 0x19#6 { k := f.k, t := 0x0#3, a := f.a, b := f.b, ol := BitVec.ofBool f.ol, var := 0x0#2 ++ BitVec.ofBool f.h, fn := 0x0#4 })
  | .hdrr f => some (joinRG c 0x1A#6 { g := f.g, d := f.d, a := f.a, b := 0x0#4 ++ BitVec.ofBool f.h, pa := BitVec.ofBool f.pa, pb := 0x0#1, fn := 0x0#5 })
  | .hdrw f => some (joinRG c 0x1A#6 { g := f.g, d := f.d, a := f.a, b := 0x0#4 ++ BitVec.ofBool f.h, pa := BitVec.ofBool f.pa, pb := 0x0#1, fn := 0x1#5 })
  | .cbk f => some (joinRG c 0x1A#6 { g := f.g, d := f.d, a := f.a, b := f.b, pa := BitVec.ofBool f.pa, pb := BitVec.ofBool f.pb, fn := 0x2#5 })
  | .mma f => some (joinMX c 0x1C#6 { k := f.k, t := f.t, a := f.a, b := f.b, ol := BitVec.ofBool f.ol, var := f.var, fn := f.fmt })
  | .mmaz f => some (joinMX c 0x1D#6 { k := f.k, t := f.t, a := f.a, b := f.b, ol := BitVec.ofBool f.ol, var := f.var, fn := f.fmt })
  | .tcfg f => some (joinMX c 0x1E#6 { k := f.k, t := f.t, a := 0x0#5, b := 0x0#5, ol := 0x0#1, var := 0x0#1 ++ BitVec.ofBool f.shape ++ BitVec.ofBool f.afmt, fn := 0x0#4 })
  | .tzero f => some (joinMX c 0x1F#6 { k := f.k, t := f.t, a := 0x0#5, b := 0x0#5, ol := 0x0#1, var := 0x0#3, fn := 0x0#4 })
  | .kopMov f => some (joinMX c 0x1F#6 { k := f.k, t := 0x0#3, a := 0x0#1 ++ f.d, b := 0x0#1 ++ f.b, ol := 0x0#1, var := 0x0#3, fn := 0x1#4 })
  | .kopAnd f => some (joinMX c 0x1F#6 { k := f.k, t := 0x0#3, a := 0x0#1 ++ f.d, b := 0x0#1 ++ f.b, ol := 0x0#1, var := 0x1#3, fn := 0x1#4 })
  | .kopOr f => some (joinMX c 0x1F#6 { k := f.k, t := 0x0#3, a := 0x0#1 ++ f.d, b := 0x0#1 ++ f.b, ol := 0x0#1, var := 0x2#3, fn := 0x1#4 })
  | .kopAndn f => some (joinMX c 0x1F#6 { k := f.k, t := 0x0#3, a := 0x0#1 ++ f.d, b := 0x0#1 ++ f.b, ol := 0x0#1, var := 0x3#3, fn := 0x1#4 })
  | .kopNz f => some (joinMX c 0x1F#6 { k := f.k, t := f.t, a := 0x0#1 ++ f.d, b := 0x0#5, ol := 0x0#1, var := 0x4#3, fn := 0x1#4 })
  | .kopFromp f => some (joinMX c 0x1F#6 { k := f.k, t := 0x0#3, a := 0x0#1 ++ f.d, b := 0x0#2 ++ f.b, ol := 0x0#1, var := 0x5#3, fn := 0x1#4 })
  | .kopTop f => some (joinMX c 0x1F#6 { k := f.k, t := 0x0#3, a := 0x0#2 ++ f.d, b := 0x0#1 ++ f.b, ol := 0x0#1, var := 0x6#3, fn := 0x1#4 })
  | .tchk f => some (joinMX c 0x1F#6 { k := f.k, t := f.t, a := f.a, b := 0x0#5, ol := 0x0#1, var := 0x0#2 ++ BitVec.ofBool f.m, fn := 0x2#4 })
  | .tmovfF32 f => some (joinMX c 0x20#6 { k := f.k, t := f.t, a := f.a, b := 0x0#5, ol := 0x0#1, var := 0x0#1 ++ f.q, fn := 0x0#4 })
  | .tmovfBf16 f => some (joinMX c 0x20#6 { k := f.k, t := f.t, a := f.a, b := 0x0#5, ol := 0x0#1, var := 0x2#2 ++ BitVec.ofBool f.h, fn := 0x0#4 })
  | .tmovtF32 f => some (joinMX c 0x20#6 { k := f.k, t := f.t, a := f.a, b := 0x0#5, ol := 0x0#1, var := 0x0#1 ++ f.q, fn := 0x1#4 })
  | .tmovtBf16 f => some (joinMX c 0x20#6 { k := f.k, t := f.t, a := f.a, b := 0x0#5, ol := 0x0#1, var := 0x2#2 ++ BitVec.ofBool f.h, fn := 0x1#4 })
  | .tdrain f => some (joinMX c 0x21#6 { k := f.k, t := f.t, a := 0x0#5, b := f.b, ol := 0x0#1, var := 0x0#3, fn := 0x0#4 })
  | .tdrainAdd f => some (joinMX c 0x21#6 { k := f.k, t := f.t, a := 0x0#5, b := f.b, ol := 0x0#1, var := 0x0#3, fn := 0x1#4 })
  | .tstsp f => some (joinMX c 0x22#6 { k := f.k, t := f.t, a := 0x0#5, b := f.b, ol := 0x0#1, var := 0x0#3, fn := 0x0#4 })
  | .qpop f => some (joinQF c 0x24#6 { g := f.g, d := f.d, a := 0x0#5, qn := f.qn, mp := f.mp, fn := 0x0#4 })
  | .qpopb f => some (joinQF c 0x25#6 { g := 0x7#3, d := f.d, a := f.a, qn := f.qn, mp := f.mp, fn := 0x0#4 })
  | .qpopo f => some (joinQF c 0x25#6 { g := 0x7#3, d := 0x0#4 ++ BitVec.ofBool f.d, a := 0x0#5, qn := f.qn, mp := 0x7#3, fn := 0x1#4 })
  | .qpush f => some (joinQF c 0x26#6 { g := f.g, d := f.d, a := 0x0#5, qn := f.qn, mp := 0x7#3, fn := 0x0#4 })
  | .qpushb f => some (joinQF c 0x27#6 { g := 0x7#3, d := f.d, a := f.a, qn := f.qn, mp := 0x7#3, fn := 0x0#4 })
  | .qmark f => some (joinQF c 0x28#6 { g := f.g, d := 0x0#5, a := 0x0#5, qn := f.qn, mp := 0x7#3, fn := 0x0#4 })
  | .qpeek f => some (joinQF c 0x28#6 { g := f.g, d := f.d, a := 0x0#5, qn := f.qn, mp := f.mp, fn := 0x1#4 })
  | .qtest f => some (joinQF c 0x28#6 { g := f.g, d := 0x0#5, a := f.a, qn := f.qn, mp := f.mp, fn := 0x2#4 })
  | .qcfg f => some (joinQF c 0x29#6 { g := f.g, d := 0x0#5, a := f.a, qn := f.qn, mp := 0x7#3, fn := 0x0#4 })
  | .qclose f => some (joinQF c 0x29#6 { g := f.g, d := 0x0#5, a := 0x0#5, qn := f.qn, mp := 0x7#3, fn := 0x1#4 })
  | .qstat f => some (joinQF c 0x29#6 { g := f.g, d := f.d, a := 0x0#5, qn := f.qn, mp := 0x7#3, fn := 0x2#4 })
  | .ld f => some (joinMEM c 0x2C#6 { d := f.d, a := f.a, w := f.w, off := f.off })
  | .st f => some (joinMEM c 0x2D#6 { d := f.d, a := f.a, w := f.w, off := f.off })
  | .ldc f => some (joinMA c 0x2E#6 { g := f.g, d := f.d, a := f.a, dir := 0x0#1, sp := BitVec.ofBool f.sp, res := 0x0#3, os := f.os, w := f.w })
  | .ldMa f => some (joinMA c 0x2E#6 { g := f.g, d := f.d, a := f.a, dir := 0x0#1, sp := BitVec.ofBool f.sp, res := 0x0#3, os := f.os, w := f.w })
  | .stMa f => some (joinMA c 0x2E#6 { g := f.g, d := f.d, a := f.a, dir := 0x1#1, sp := BitVec.ofBool f.sp, res := 0x0#3, os := f.os, w := f.w })
  | .red f => some (joinAT c 0x2F#6 { op := f.op, d := 0x0#5, a := f.a, b := f.b, os := f.os, sp := BitVec.ofBool f.sp, w := BitVec.ofBool f.dw, res := 0x0#1 })
  | .atom f => some (joinAT c 0x2F#6 { op := f.op, d := f.d, a := f.a, b := f.b, os := f.os, sp := BitVec.ofBool f.sp, w := BitVec.ofBool f.dw, res := 0x0#1 })
  | .redMinmax f => some (joinAT c 0x30#6 { op := f.op, d := 0x0#5, a := f.a, b := f.b, os := f.os, sp := BitVec.ofBool f.sp, w := BitVec.ofBool f.dw, res := 0x0#1 })
  | .atomMinmax f => some (joinAT c 0x30#6 { op := f.op, d := f.d, a := f.a, b := f.b, os := f.os, sp := BitVec.ofBool f.sp, w := BitVec.ofBool f.dw, res := 0x0#1 })
  | .cas f => some (joinAT c 0x31#6 { op := f.ps, d := f.d, a := f.a, b := f.b, os := f.os, sp := BitVec.ofBool f.sp, w := BitVec.ofBool f.dw, res := 0x0#1 })
  | .ldq f => some (joinQF c 0x32#6 { g := f.g, d := f.d, a := 0x0#5, qn := f.qn, mp := 0x7#3, fn := 0x0#4 })
  | .ldbq f => some (joinQF c 0x32#6 { g := f.g, d := f.d, a := 0x0#5, qn := f.qn, mp := 0x7#3, fn := 0x1#4 })
  | .stq f => some (joinQF c 0x32#6 { g := f.g, d := f.d, a := 0x0#5, qn := f.qn, mp := 0x7#3, fn := 0x2#4 })
  | .qstream f => some (joinQF c 0x32#6 { g := f.g, d := f.d, a := f.a, qn := f.qn, mp := 0x7#3, fn := 0x3#4 })
  | .gath f => some (joinQF c 0x32#6 { g := f.g, d := f.d, a := f.a, qn := f.qn, mp := 0x7#3, fn := 0x4#4 })
  | .scat f => some (joinQF c 0x32#6 { g := f.g, d := f.d, a := f.a, qn := 0x0#4 ++ BitVec.ofBool f.blk, mp := 0x7#3, fn := 0x5#4 })
  | .gathR f => some (joinQF c 0x32#6 { g := f.g, d := f.d, a := f.a, qn := f.b, mp := 0x0#2 ++ BitVec.ofBool f.dw, fn := 0x6#4 })
  | .pref f => some (joinQF c 0x32#6 { g := f.g, d := f.d, a := 0x0#4 ++ BitVec.ofBool f.l2, qn := 0x0#5, mp := 0x7#3, fn := 0x7#4 })
  | .bcopy f => some (joinRG c 0x33#6 { g := f.g, d := f.d, a := f.a, b := f.b, pa := BitVec.ofBool f.pa, pb := BitVec.ofBool f.pb, fn := 0x0#5 })
  | .bstore f => some (joinRG c 0x33#6 { g := f.g, d := f.d, a := f.a, b := f.b, pa := BitVec.ofBool f.pa, pb := BitVec.ofBool f.pb, fn := 0x1#5 })
  | .mcast f => some (joinRG c 0x33#6 { g := f.g, d := f.d, a := f.a, b := f.b, pa := BitVec.ofBool f.pa, pb := BitVec.ofBool f.pb, fn := 0x2#5 })
  | .replay f => some (joinRG c 0x33#6 { g := f.g, d := 0x0#5, a := f.a, b := 0x0#5, pa := BitVec.ofBool f.pa, pb := 0x0#1, fn := 0x3#5 })
  | .rch f => some (joinRG c 0x34#6 { g := f.g, d := f.d, a := f.a, b := f.b, pa := BitVec.ofBool f.pa, pb := BitVec.ofBool f.pb, fn := 0x0#5 })
  | .rget f => some (joinRG c 0x34#6 { g := f.g, d := f.d, a := f.a, b := f.b, pa := BitVec.ofBool f.pa, pb := BitVec.ofBool f.pb, fn := 0x1#5 })
  | .rput f => some (joinRG c 0x34#6 { g := f.g, d := f.d, a := f.a, b := f.b, pa := BitVec.ofBool f.pa, pb := BitVec.ofBool f.pb, fn := 0x2#5 })
  | .fence f => some (joinSYS c 0x35#6 { g := f.g, d := 0x0#5, a := 0x0#5, sel := 0x0#6 ++ f.os, fn := 0x0#2 })
  | .join f => some (joinSYS c 0x35#6 { g := f.g, d := 0x0#5, a := 0x0#5, sel := 0x0#5 ++ f.mask, fn := 0x1#2 })
  | .pinit f => some (joinRG c 0x36#6 { g := f.g, d := 0x0#5, a := f.a, b := f.b, pa := BitVec.ofBool f.pa, pb := BitVec.ofBool f.pb, fn := 0x0#5 })
  | .preg f => some (joinRG c 0x36#6 { g := f.g, d := f.d, a := f.a, b := f.b, pa := BitVec.ofBool f.pa, pb := 0x0#1, fn := 0x1#5 })
  | .pdereg f => some (joinRG c 0x36#6 { g := f.g, d := 0x0#5, a := f.a, b := 0x0#5, pa := BitVec.ofBool f.pa, pb := 0x0#1, fn := 0x2#5 })
  | .parr f => some (joinRG c 0x36#6 { g := f.g, d := f.d, a := f.a, b := 0x0#5, pa := BitVec.ofBool f.pa, pb := 0x0#1, fn := 0x3#5 })
  | .pbytes f => some (joinRG c 0x36#6 { g := f.g, d := 0x0#5, a := f.a, b := f.b, pa := BitVec.ofBool f.pa, pb := BitVec.ofBool f.pb, fn := 0x4#5 })
  | .pwait f => some (joinRG c 0x36#6 { g := f.g, d := 0x0#2 ++ f.d, a := f.a, b := f.b, pa := BitVec.ofBool f.pa, pb := BitVec.ofBool f.pb, fn := 0x5#5 })
  | .ptest f => some (joinRG c 0x36#6 { g := f.g, d := f.d, a := f.a, b := f.b, pa := BitVec.ofBool f.pa, pb := BitVec.ofBool f.pb, fn := 0x6#5 })
  | .ptestW f => some (joinRG c 0x36#6 { g := f.g, d := f.d, a := f.a, b := f.b, pa := BitVec.ofBool f.pa, pb := BitVec.ofBool f.pb, fn := 0x7#5 })
  | .spawn f => some (joinTASK c 0x37#6 { g := f.g, d := 0x0#5, a := f.a, b := 0x0#5, ps := f.ps, fn := 0x0#4 })
  | .take f => some (joinTASK c 0x37#6 { g := f.g, d := f.d, a := 0x0#5, b := 0x0#5, ps := f.ps, fn := 0x1#4 })
  | .steal f => some (joinTASK c 0x37#6 { g := f.g, d := f.d, a := f.a, b := 0x0#5, ps := f.ps, fn := 0x2#4 })
  | .fnew f => some (joinTASK c 0x38#6 { g := f.g, d := 0x0#5, a := f.a, b := f.b, ps := 0x7#3, fn := 0x0#4 })
  | .fres f => some (joinTASK c 0x38#6 { g := f.g, d := 0x0#5, a := f.a, b := f.b, ps := f.ps, fn := 0x1#4 })
  | .fresF f => some (joinTASK c 0x38#6 { g := f.g, d := 0x0#5, a := f.a, b := f.b, ps := f.ps, fn := 0x2#4 })
  | .freg f => some (joinTASK c 0x38#6 { g := f.g, d := 0x0#5, a := f.a, b := f.b, ps := f.ps, fn := 0x3#4 })
  | .fwait f => some (joinTASK c 0x38#6 { g := f.g, d := f.d, a := f.a, b := 0x0#5, ps := f.ps, fn := 0x4#4 })
  | .fstat f => some (joinTASK c 0x38#6 { g := f.g, d := f.d, a := f.a, b := 0x0#5, ps := 0x7#3, fn := 0x5#4 })
  | .fstatHi f => some (joinTASK c 0x38#6 { g := f.g, d := f.d, a := f.a, b := 0x0#5, ps := 0x7#3, fn := 0x6#4 })
  | .jlaunch f => some (joinTASK c 0x39#6 { g := f.g, d := f.d, a := f.a, b := 0x0#5, ps := f.ps, fn := 0x0#4 })
  | .trigger f => some (joinTASK c 0x39#6 { g := f.g, d := 0x0#5, a := 0x0#5, b := 0x0#5, ps := 0x7#3, fn := 0x1#4 })
  | .jyield f => some (joinTASK c 0x39#6 { g := f.g, d := 0x0#5, a := 0x0#5, b := 0x0#5, ps := 0x7#3, fn := 0x2#4 })
  | .leave f => some (joinTASK c 0x39#6 { g := f.g, d := f.d, a := f.a, b := 0x0#5, ps := 0x7#3, fn := 0x3#4 })
  | .kvlook f => some (joinRG c 0x3A#6 { g := f.g, d := f.d, a := f.a, b := f.b, pa := BitVec.ofBool f.pa, pb := BitVec.ofBool f.pb, fn := 0x0#5 })
  | .kvins f => some (joinRG c 0x3A#6 { g := f.g, d := f.d, a := f.a, b := f.b, pa := BitVec.ofBool f.pa, pb := BitVec.ofBool f.pb, fn := 0x1#5 })
  | .kvdel f => some (joinRG c 0x3A#6 { g := f.g, d := f.d, a := f.a, b := f.b, pa := BitVec.ofBool f.pa, pb := BitVec.ofBool f.pb, fn := 0x2#5 })
  | .pfxlook f => some (joinRG c 0x3A#6 { g := f.g, d := f.d, a := f.a, b := f.b, pa := BitVec.ofBool f.pa, pb := BitVec.ofBool f.pb, fn := 0x3#5 })
  | .pfxins f => some (joinRG c 0x3A#6 { g := f.g, d := f.d, a := f.a, b := f.b, pa := BitVec.ofBool f.pa, pb := BitVec.ofBool f.pb, fn := 0x4#5 })
  | .attd f => some (joinRG c 0x3A#6 { g := f.g, d := f.d, a := f.a, b := 0x0#5, pa := BitVec.ofBool f.pa, pb := 0x0#1, fn := 0x5#5 })
  | .sret f => some (joinSYS c 0x3B#6 { g := f.g, d := f.d, a := f.a, sel := 0x0#9 ++ BitVec.ofBool f.m, fn := 0x0#2 })
  | .tlbinv f => some (joinSYS c 0x3B#6 { g := f.g, d := f.d, a := f.a, sel := 0x0#8 ++ f.k, fn := 0x1#2 })
  | .ctxq f => some (joinSYS c 0x3C#6 { g := f.g, d := f.d, a := f.a, sel := 0x0#7 ++ f.item, fn := 0x0#2 })
  | .haltq f => some (joinSYS c 0x3D#6 { g := f.g, d := f.d, a := f.a, sel := 0x0#10, fn := 0x0#2 })
  | _ => none

/-- The instruction in the first four bytes of a list, stored little-endian (R193), and the rest. -/
def decodeBytes : List Byte → Option (Instr × List Byte)
  | b0 :: b1 :: b2 :: b3 :: rest =>
    match decode (BitVec.ofNat 32 (leNat [b0, b1, b2, b3])) with
    | some i => some (i, rest)
    | none => none
  | _ => none

/-- The decoder on an instruction numbered as the opcode table numbers its bits: laid out as bytes, then decoded. -/
def decodeTableWord (nbits w : Nat) : Option Instr :=
  if nbits ≤ 32 then (decodeBytes (leBytes 4 (w % 2 ^ 32))).map Prod.fst else none

end Sys2Proof
end

