-- ==== Sys2Proof/Machine/Xlat.lean ====
section
/-! DEFINITION. Translation: canonical addresses, the page walk, leaf checks, translation caches and walk requests
(01 R16-R34). -/

namespace Sys2Proof.Machine

/-- What an access does (01 R21). -/
inductive Acc where
  | fetch | read | write | atomic
  deriving DecidableEq, Repr

/-- Is a 64-bit address canonical (R16)? -/
def canonical (va : Nat) : Bool :=
  let h := bits va 63 56
  h = 0 || h = 255

/-- The low bit of the index at a level, which is also the page offset width of a leaf there (R17). -/
def lvlShift : Nat → Nat
  | 0 => 48 | 1 => 39 | 2 => 30 | 3 => 21 | _ => 16

/-- The index of an address at a level (R17). -/
def lvlIndex (va lvl : Nat) : Nat := bits va (if lvl = 0 then 56 else lvlShift (lvl - 1) - 1) (lvlShift lvl)

/-- Page size of a leaf at a level. -/
def pageSize (lvl : Nat) : Nat := 2 ^ lvlShift lvl

/-- Is an entry malformed at its level (R18-R20, 03 R99)? -/
def pteBad (e lvl : Nat) : Bool :=
  if bit e 1 then
    decide (lvl < 2) || bits e 63 54 != 0 || bits e 15 14 != 0 || bits e 7 6 == 3 || bits e 9 8 == 3
      || (bit e 3 && !bit e 2) || (lvl == 3 && bits e 20 16 != 0) || (lvl == 2 && bits e 29 16 != 0)
      || bits e 45 39 != 0
  else
    lvl == 4 || bits e 63 46 != 0 || bits e 7 2 != 0 || (decide (lvl < 3) && bits e 11 8 != 0) || bits e 45 39 != 0

/-- Read one page-table entry under slot 0, in a partition (R31). -/
def State.readPte (s : State) (part : Option Nat) (pa : Nat) : Except XKind Nat :=
  if pa ≥ Config.deviceBytes then .error .ptefmt
  else match s.readLine part 0 pa 8 with
    | .ok bs => .ok (leNat bs)
    | .keymis => .error .keymis
    | .ecc => .error .walkecc

/-- Walk from a table at a level, the levels still to come counted by the fuel (R17-R20): the outcome, and the
addresses of the entries read. -/
def State.walkFrom (s : State) (part : Option Nat) (va : Nat) : Nat → Nat → Nat → WalkOut × List Nat
  | 0, _, _ => (.fault .ptefmt, [])
  | fuel + 1, table, lvl =>
    let pa := table + 8 * lvlIndex va lvl
    match s.readPte part pa with
    | .error k => (.fault k, [pa])
    | .ok e =>
      if !bit e 0 then (.fault .nomap, [pa])
      else if pteBad e lvl then (.fault .ptefmt, [pa])
      else if bit e 1 then (.leaf (BitVec.ofNat 64 e) lvl, [pa])
      else
        let r := s.walkFrom part va fuel (bits e 45 8 * 256) (lvl + 1)
        (r.1, pa :: r.2)

/-- The context of an id. -/
def State.ctx (s : State) (c : Nat) : Option Ctx := s.ctxs.find? (fun x => x.ctxid == c)

/-- The partition of a context: its own, or partition 0 in shared mode (R14). -/
def State.partOf (s : State) (ctx : Nat) : Option Nat := (s.ctx ctx).map (fun c => if s.shared then 0 else c.part)

/-- The whole walk of a context's address, with the entries read; an unknown context has no table (R13). -/
def State.walkPath (s : State) (ctx va : Nat) : WalkOut × List Nat :=
  match s.ctx ctx with
  | some c => s.walkFrom (s.partOf ctx) va 5 (c.root * 4096) 0
  | none => (.fault .nomap, [])

/-- The outcome of a walk. -/
def State.walk (s : State) (ctx va : Nat) : WalkOut := (s.walkPath ctx va).1

/-- What a walk leaves of the L2: the lines of the entries it reads, under slot 0, with CL = 01 and EVP 3 (R31, 03 R92). -/
def State.walkTouch (s : State) (ctx va : Nat) : State :=
  (s.walkPath ctx va).2.foldl (fun s pa => s.l2Touch { part := s.partOf ctx, cl := 1, wp := 0, evp := 3, walk := true } 0 pa) s

/-- Does an entry translate this page of this context (R26)? -/
def TlbEntry.hits (e : TlbEntry) (ctx va : Nat) : Bool :=
  e.ctx == ctx && e.base == va / pageSize e.lvl * pageSize e.lvl

/-- The checks of R21, in order, on a leaf. -/
def State.leafCheck (s : State) (ctx : Nat) (priv : Bool) (acc : Acc) (pte : Nat) : Option XKind :=
  let key := bits pte 53 46
  if bit pte 5 && !priv then some .privv
  else if acc = .fetch && (!bit pte 4 || bit pte 13) then some .xperm
  else if (acc = .read || acc = .atomic) && !bit pte 2 then some .rperm
  else if (acc = .write || acc = .atomic) && !bit pte 3 then some .wperm
  else if !((s.ctx ctx).map (fun c => c.slotmask.getLsbD key)).getD false then some .keyperm
  else if (s.slot key).st != .loaded then some .keydead
  else none

/-- Physical address of an address under a leaf of a level (R17, R19). -/
def leafPa (pte va lvl : Nat) : Nat := bits pte 45 16 * 65536 + va % pageSize lvl

/-- The outcome of translating one access. -/
inductive Trans where
  | ok (p : Phys)
  | miss
  | fault (k : XKind)
  deriving DecidableEq, Repr

/-- Apply a leaf of a level to an access. -/
def State.useLeaf (s : State) (ctx : Nat) (priv : Bool) (acc : Acc) (va : Nat) (pte : Dword) (lvl : Nat) : Trans :=
  match s.leafCheck ctx priv acc pte.toNat with
  | some k => .fault k
  | none =>
    let key := bits pte.toNat 53 46
    .ok { pa := leafPa pte.toNat va lvl, slot := key, epoch := (s.slot key).epoch, pte := pte.toNat, lvl := lvl }

/-- How the L2 treats an access of a context under a leaf. -/
def State.pol (s : State) (ctx pte : Nat) : Pol :=
  { part := s.partOf ctx, cl := bits pte 7 6, wp := bits pte 9 8, evp := bits pte 12 11 }

/-- Does a translation still hold its key: the slot is LOADED, of the same epoch (R37, R40)? Else a read under it answers
KEYDEAD, and a write is discarded with KEYDEAD. -/
def State.keyHolds (s : State) (q : Phys) : Bool := decide ((s.slot q.slot).st = .loaded) && (s.slot q.slot).epoch == q.epoch

/-- The state of a core; a core never touched is in its reset state. -/
def Core.reset : Core where
  tlb := []
  l1 := []
  icache := []
  halted := 0#4
  dbg0 := 0#64
  dbg3 := 0#64
  dbg5 := 0#64
  dbg7 := 0#64
  sketch := []
  seeds := 0
  hist := []
  inject := 0#64
  issue := 0
  fused := 0
  rerun := 0
  repref := 0
  colldrop := 0
  corr := 0
  latch := List.replicate 6 0

/-- The state of core n. -/
def State.core (s : State) (n : Nat) : Core := tabGet Core.reset s.cores n

/-- Change the state of core n. -/
def State.modCore (s : State) (n : Nat) (f : Core → Core) : State :=
  { s with cores := tabSet s.cores n (f (s.core n)) }

/-! ### Translation caches (R26, R27) -/

/-- The translation home of an address of a context (R27). -/
def State.xlatHome (s : State) (ctx va : Nat) : Nat :=
  let r := s.sliceRange (s.partOf ctx)
  32 * r.1 + Config.tlbHash ctx (bits va 56 21) % (32 * r.2)

/-- The translation of an address that its translation home holds (R27). -/
def State.l2Cached (s : State) (ctx va : Nat) : Option TlbEntry :=
  if s.l2tlb.isEmpty then none
  else (s.l2tlb.find? (fun e => e.1 == s.xlatHome ctx va && e.2.hits ctx va)).map (fun e => e.2)

/-- A translation cached for a core: its TLB, then the second-level cache (R26, R27). -/
def State.cached (s : State) (core ctx va : Nat) : Option TlbEntry :=
  match (s.core core).tlb.find? (fun e => e.hits ctx va) with
  | some e => some e
  | none => s.l2Cached ctx va

/-- The set of a core's TLB that an entry falls in (R26). -/
def TlbEntry.set (e : TlbEntry) : Nat := Config.tlbSet e.ctx e.base e.lvl % Config.tlbSets

/-- A translation enters a core's TLB of 8-way sets; a full set loses one (R26). -/
def State.tlbFill (s : State) (core : Nat) (e : TlbEntry) : State :=
  let l := (s.core core).tlb
  if decide (Config.cores ≤ core) || l.contains e then s
  else
    let same := if l.length < Config.tlbWays then [] else l.filter (fun x => x.set == e.set)
    if same.length < Config.tlbWays then s.modCore core (fun c => { c with tlb := l ++ [e] })
    else
      let out := same[Config.victim s.fresh % same.length]?
      ({ s with fresh := s.fresh + 1 } : State).modCore core (fun c => { c with tlb := l.filter (fun x => some x != out) ++ [e] })

/-- A translation enters its translation home of 4,096 entries; a full one loses one (R27). -/
def State.l2tlbFill (s : State) (va : Nat) (e : TlbEntry) : State :=
  let x := (s.xlatHome e.ctx va, e)
  if s.l2tlb.contains x then s
  else
    let mine := s.l2tlb.filter (fun y => y.1 == x.1)
    if mine.length < Config.l2tlbEntries then { s with l2tlb := s.l2tlb ++ [x] }
    else
      let out := mine[Config.victim s.fresh % mine.length]?
      { s with fresh := s.fresh + 1, l2tlb := s.l2tlb.filter (fun y => some y != out) ++ [x] }

/-- A core learns a translation that the second-level cache holds and its TLB does not. -/
def State.learn (s : State) (core ctx va : Nat) : State :=
  if (s.core core).tlb.any (fun e => e.hits ctx va) then s
  else match s.l2Cached ctx va with
    | some e => s.tlbFill core e
    | none => s

/-- The page of an address as walk requests name it (R27, R28). -/
def vpnOf (va : Nat) : Nat := va / 65536

/-- Does the outcome of a walk hold for the 64 KiB in which it was asked for and an address: the page of the leaf holds
both, a fault those 64 KiB? -/
def WalkOut.covers (o : WalkOut) (vpn va : Nat) : Bool :=
  match o with
  | .leaf _ lvl => vpn * 65536 / pageSize lvl == va / pageSize lvl
  | .fault _ => vpn == vpnOf va

/-- Who accesses memory: on which core, in which context, privileged or not, and who waits where a walk is needed (none:
the management cores, whose walks are made at once, log 45). -/
structure Who where
  core : Nat
  ctx : Nat
  priv : Bool
  ask : Option Asker
  deriving DecidableEq, Repr

/-- The outcome of a walk that an access waited for. -/
def State.result (s : State) (w : Who) (va : Nat) : Option WalkOut :=
  w.ask.bind (fun a => (s.results.find? (fun r => r.1 == a && r.2.2.covers r.2.1 va)).map (fun r => r.2.2))

/-- Translate through the outcome of a walk and the caches alone: a miss asks for a walk. -/
def State.translate (s : State) (w : Who) (acc : Acc) (va : Nat) : Trans :=
  if !canonical va then .fault .ncanon
  else match s.cached w.core w.ctx va with
    | some e => s.useLeaf w.ctx w.priv acc va e.pte e.lvl
    | none =>
      match s.result w va with
      | some (.leaf pte lvl) => s.useLeaf w.ctx w.priv acc va pte lvl
      | some (.fault k) => .fault k
      | none => .miss

/-- The first address whose page has still to be walked. -/
def State.firstMiss (s : State) (w : Who) (vas : List Nat) : Option Nat :=
  if w.ask.isNone then none else vas.find? (fun va => s.translate w .read va == .miss)

/-- Translate; where no walk has been waited for, by a walk made at once (R33 allows a walk at any time). -/
def State.translateNow (s : State) (w : Who) (acc : Acc) (va : Nat) : Except XKind Phys :=
  match s.translate w acc va with
  | .ok p => .ok p
  | .fault k => .error k
  | .miss =>
    match s.walk w.ctx va with
    | .fault k => .error k
    | .leaf pte lvl =>
      match s.useLeaf w.ctx w.priv acc va pte lvl with
      | .ok p => .ok p
      | .fault k => .error k
      | .miss => .error .nomap

/-! ### Reads and writes of a context's memory -/

/-- Read n bytes of a context's memory, each line translated and checked on its own (R23), stopping at the first
failure: its fault kind or none for uncorrectable data, and its address. -/
def State.readVirt (s : State) (w : Who) (va n : Nat) : Except (Option XKind × Nat) (List Byte) :=
  (linePieces va n).foldl (fun acc p =>
    match acc with
    | .error e => .error e
    | .ok bs =>
      match s.translateNow w .read p.1 with
      | .error k => .error (some k, p.1)
      | .ok q =>
        match s.readLine (s.partOf w.ctx) q.slot q.pa p.2 with
        | .ok b => .ok (bs ++ b)
        | .keymis => .error (some .keymis, p.1)
        | .ecc => .error (none, p.1)) (.ok [])

/-- The R25 code of a fault kind. -/
def XKind.code : XKind → Nat
  | .ncanon => 0 | .nomap => 1 | .ptefmt => 2 | .rperm => 3 | .wperm => 4 | .xperm => 5 | .privv => 6
  | .keyperm => 7 | .keydead => 8 | .keymis => 9 | .walkecc => 10

/-- Discard every L1 copy of the lines of a range, on every core (03 R89). -/
def State.dropL1 (s : State) (pa n : Nat) : State :=
  { s with cores := s.cores.map (fun c =>
      (c.1, { c.2 with l1 := c.2.l1.filter (fun l => decide (l.line + 64 ≤ pa / 64 * 64 ∨ pa + n ≤ l.line)) })) }

/-- Discard a core's copies of a line. -/
def State.dropL1Core (s : State) (core pa : Nat) : State :=
  if (s.core core).l1.any (fun l => l.line == pa / 64 * 64) then
    s.modCore core (fun c => { c with l1 := c.l1.filter (fun l => l.line != pa / 64 * 64) })
  else s

/-- What a read that passes the L1 leaves: the core has the translations, the slices the lines, the core's L1 no older copy
(05 R156). -/
def State.readDone (s : State) (w : Who) (va n : Nat) : State :=
  (linePieces va n).foldl (fun s p =>
    match s.translateNow w .read p.1 with
    | .ok q => ((s.learn w.core w.ctx p.1).l2Touch (s.pol w.ctx q.pte) q.slot q.pa).dropL1Core w.core q.pa
    | .error _ => s) (if s.shared then s else { s with fresh := s.fresh + 1 })

/-- A line that an engine or another agent writes: in the L2 and HBM, and no L1 keeps a copy (03 R89). -/
def State.homeWrite (s : State) (w : Who) (q : Phys) (bs : List Byte) : State :=
  (s.writeLine (s.pol w.ctx q.pte) q.slot q.pa bs).dropL1 q.pa bs.length

/-- Write a context's memory as an engine does: translate every line, write the lines that pass; answers the first
failure by address (01 R23). -/
def State.writeVirt (s : State) (w : Who) (va : Nat) (bs : List Byte) : State × Option (XKind × Nat) :=
  (linePieces va bs.length).foldl (fun acc p =>
    match acc.1.translateNow w .write p.1 with
    | .error k => (acc.1, acc.2 <|> some (k, p.1))
    | .ok q =>
      let d := (bs.drop (p.1 - va)).take p.2
      ((acc.1.learn w.core w.ctx p.1).homeWrite w q d, acc.2)) (s, none)

end Sys2Proof.Machine
end

