-- ==== Sys2Proof/Machine/Access.lean ====
section
/-! DEFINITION. Reading and changing the parts of the state by name: groups, threads, teams, jobs, registers and
predicates (06 R169-R177, 07 R212), scratchpads (03 R84). -/

namespace Sys2Proof.Machine

/-! ### Groups, teams, jobs -/

/-- The group of a key. -/
def State.group (s : State) (k : GroupKey) : Option Group := s.groups.find? (fun g => g.key == k)

/-- Change the group of a key. -/
def State.modGroup (s : State) (k : GroupKey) (f : Group → Group) : State :=
  { s with groups := s.groups.map (fun g => if g.key = k then f g else g) }

/-- A position without a thread (06 R169). -/
def Thread.absent : Thread where
  pc := 0
  depth := 0
  live := false
  stop := none
  blk := none
  park := false
  owe := 0
  regs := List.replicate 36 { val := 0, st := .full, taint := false }
  preds := 0
  fpstat := 0
  rstack := []
  uepc := 0
  uin := false
  slots := List.replicate 4 none
  fbind := none
  wres := none
  dreq := none
  step := false
  xfer := false
  walk := none
  kv := none
  mark := none

/-- The thread at an index of a group. -/
def Group.thr (g : Group) (t : Nat) : Thread := g.threads.getD t Thread.absent

/-- The thread of a key. -/
def State.thread (s : State) (th : ThreadKey) : Thread :=
  match s.group th.gk with
  | some g => g.thr th.thr
  | none => Thread.absent

/-- Change one thread of a group. -/
def Group.modThr (g : Group) (t : Nat) (f : Thread → Thread) : Group := { g with threads := updAt g.threads t f }

/-- Change the thread of a key. -/
def State.modThread (s : State) (th : ThreadKey) (f : Thread → Thread) : State :=
  s.modGroup th.gk (fun g => g.modThr th.thr f)

/-- The team of a key. -/
def State.team (s : State) (k : TeamKey) : Option Team := s.teams.find? (fun t => t.key == k)

/-- Change the team of a key. -/
def State.modTeam (s : State) (k : TeamKey) (f : Team → Team) : State :=
  { s with teams := s.teams.map (fun t => if t.key = k then f t else t) }

/-- The job of an id. -/
def State.job (s : State) (id : Nat) : Option Job := s.jobs.find? (fun j => j.id == id)

/-- Change the job of an id. -/
def State.modJob (s : State) (id : Nat) (f : Job → Job) : State :=
  { s with jobs := s.jobs.map (fun j => if j.id = id then f j else j) }

/-- The context of a job; an unknown job has none (4,096 names no context). -/
def State.ctxOf (s : State) (job : Nat) : Nat := ((s.job job).map (fun j => j.ctx)).getD 4096

/-- Does a job run privileged (07 R210)? -/
def State.priv (s : State) (job : Nat) : Bool := s.ctxOf job = 0

/-- The core a team stands on. -/
def State.coreOf (s : State) (k : TeamKey) : Nat := ((s.team k).map (fun t => t.core)).getD 0

/-- A team's cluster in the grid: width, height, core of its origin. -/
def State.cluster (s : State) (k : TeamKey) : Nat × Nat × Nat :=
  match s.job k.job with
  | some j => (j.pipe.cw, j.pipe.ch, j.places.getD k.clu 0)
  | none => (0, 0, 0)

/-- Is a team resident? -/
def State.resident (s : State) (k : TeamKey) : Bool := ((s.team k).map (fun t => t.resident)).getD false

/-- The team resident on a core. -/
def State.teamOn (s : State) (core : Nat) : Option Team := s.teams.find? (fun t => t.core == core && t.resident && !t.ended)

/-- The groups of a team. -/
def State.groupsOf (s : State) (k : TeamKey) : List Group := s.groups.filter (fun g => g.key.team == k)

/-- A device counter moves up (16 R422). -/
def State.countDev (s : State) (i n : Nat) : State :=
  { s with dctrs := tabSet s.dctrs i ((tabGet 0 s.dctrs i + n) % 2 ^ 64) }

/-- A fresh free value has been taken (00 R7). -/
def State.bump (s : State) : State := { s with fresh := s.fresh + 1 }

/-! ### Walk requests (01 R28, R30) -/

/-- The core whose miss an access is. -/
def State.askCore (s : State) (a : Asker) : Nat :=
  match a with
  | .thread th => s.coreOf th.gk.team
  | .reads th => s.coreOf th.gk.team
  | .kv th => s.coreOf th.gk.team
  | .unit k _ => s.coreOf k
  | .prefetch core => core

/-- Does a core wait for a walk? -/
def State.waitsOn (s : State) (core : Nat) (w : Walk) : Bool := w.waiters.any (fun a => s.askCore a.1 == core)

/-- The pages with misses outstanding of a core. -/
def State.missing (s : State) (core : Nat) : Nat := (s.walks.filter (s.waitsOn core)).length

/-- Do two addresses of a context lie in one page, as its tables stand (R28)? -/
def State.samePage (s : State) (ctx va vb : Nat) : Bool :=
  vpnOf va == vpnOf vb
    || (match s.walk ctx va with | .leaf _ lvl => va / pageSize lvl == vb / pageSize lvl | .fault _ => false)

/-- Ask for a walk: one walk per page (R28), and a core's request for a 33rd page waits (R30). -/
def State.requestWalk (s : State) (ctx va : Nat) (a : Asker) : State :=
  let core := s.askCore a
  let x := (a, vpnOf va)
  let full := decide (Config.missPages ≤ s.missing core)
  match s.walks.findIdx? (fun w => w.ctx == ctx && !w.stale && s.samePage ctx (w.vpn * 65536) va) with
  | some i => { s with walks := updAt s.walks i (fun w =>
      if w.waiters.contains x || (full && !s.waitsOn core w) then w else { w with waiters := w.waiters ++ [x] }) }
  | none =>
    if full then s
    else { s with walks := s.walks ++ [{ ctx := ctx, vpn := vpnOf va, waiters := [x], walking := false, stale := false }] }

/-- An access or command of a team by its number, as it accesses the memory of its context. -/
def State.unit (s : State) (k : TeamKey) (id : Nat) : Who :=
  { core := s.coreOf k, ctx := s.ctxOf k.job, priv := s.priv k.job, ask := some (.unit k id) }

/-- The lines that a REPLAY or an ATTD of a thread reads, as it accesses memory. -/
def State.readsWho (s : State) (th : ThreadKey) : Who :=
  { core := s.coreOf th.gk.team, ctx := s.ctxOf th.gk.team.job, priv := s.priv th.gk.team.job, ask := some (.reads th) }

/-- The KV operation of a thread, as it accesses memory. -/
def State.kvWho (s : State) (th : ThreadKey) : Who :=
  { core := s.coreOf th.gk.team, ctx := s.ctxOf th.gk.team.job, priv := s.priv th.gk.team.job, ask := some (.kv th) }

/-- No core: the firmware's own accesses. -/
def noCore : Nat := Config.cores

/-- The management cores, as they access the memory of a context. -/
def manage (ctx : Nat) (priv : Bool) : Who := { core := noCore, ctx := ctx, priv := priv, ask := none }

/-- The walk that an access to some addresses still needs is asked for; none where it needs none. -/
def State.wantWalk (s : State) (w : Who) (vas : List Nat) : Option State :=
  match s.firstMiss w vas, w.ask with
  | some va, some a => some (s.requestWalk w.ctx va a)
  | _, _ => none

/-- An access has ended: the outcomes of walks that it has not used go. -/
def State.forget (s : State) (a : Asker) : State :=
  if s.results.isEmpty then s else { s with results := s.results.filter (fun r => r.1 != a) }

/-! ### Scratchpad (03 R84) -/

/-- n bytes of a team's scratchpad. -/
def Team.spadRead (t : Team) (off n : Nat) : List Byte := cellRead t.spad off n

/-- Write bytes to a team's scratchpad; a whole line becomes readable again. -/
def Team.spadWrite (t : Team) (off : Nat) (bs : List Byte) : Team :=
  { t with
    spad := cellWrite t.spad off bs
    spadBad := t.spadBad.filter (fun l => !(decide (off ≤ 64 * l) && decide (64 * l + 64 ≤ off + bs.length))) }

/-- Is any line of a scratchpad range uncorrectable (14 R398)? -/
def Team.spadEcc (t : Team) (off n : Nat) : Bool :=
  t.spadBad.any (fun l => decide (off < 64 * l + 64) && decide (64 * l < off + n))

/-- A line of the scratchpad of a team holds uncorrectable data, whose bytes are undefined (14 R398). -/
def State.spoilSpad (s : State) (k : TeamKey) (line : Nat) : State :=
  if 64 * line < Config.spadBytes then
    { s.modTeam k (fun t =>
        let t := t.spadWrite (64 * line) (blockBytes (Config.free s.fresh))
        { t with spadBad := t.spadBad ++ [line] }) with fresh := s.fresh + 1 }
  else s

/-- n bytes of the scratchpad of a team. -/
def State.spadRead (s : State) (k : TeamKey) (off n : Nat) : List Byte :=
  match s.team k with
  | some t => t.spadRead off n
  | none => List.replicate n 0

/-- Write the scratchpad of a team. -/
def State.spadWrite (s : State) (k : TeamKey) (off : Nat) (bs : List Byte) : State :=
  s.modTeam k (fun t => t.spadWrite off bs)

/-- Is any line of a scratchpad range of a team uncorrectable? -/
def State.spadEcc (s : State) (k : TeamKey) (off n : Nat) : Bool :=
  ((s.team k).map (fun t => t.spadEcc off n)).getD false

/-! ### Registers -/

/-- Register width of a slice (08 R222). -/
def width (exe : Bool) : Nat := if exe then 32 else 64

/-- The cell that a register name reaches: the handler bank under UIN (14 R392). -/
def cellIx (uin : Bool) (r : Nat) : Nat := if uin && decide (28 ≤ r) then r + 4 else r

/-- A full cell. -/
def RegCell.mk' (v : Dword) (taint : Bool) : RegCell := { val := v, st := .full, taint := taint }

/-- The cell of a register name; x0 is a full zero (07 R212). -/
def Thread.cell (th : Thread) (exe : Bool) (r : Nat) : RegCell :=
  if !exe && r == 0 then .mk' 0 false
  else th.regs.getD (cellIx th.uin r) (.mk' 0 false)

/-- The value of a register; the low 32 bits in the execute slice. -/
def Thread.rd (th : Thread) (exe : Bool) (r : Nat) : Dword :=
  if exe then BitVec.setWidth 64 ((th.cell exe r).val.setWidth 32) else (th.cell exe r).val

/-- The value of a register as a number. -/
def Thread.rn (th : Thread) (exe : Bool) (r : Nat) : Nat := (th.rd exe r).toNat

/-- The taint of a register (05 R150): x registers alone carry it. -/
def Thread.taintOf (th : Thread) (exe : Bool) (r : Nat) : Bool := !exe && (th.cell exe r).taint

/-- Set the cell of a register name; writes to x0 are discarded (07 R212). -/
def Thread.setCell (th : Thread) (exe : Bool) (r : Nat) (c : RegCell) : Thread :=
  if !exe && r == 0 then th else { th with regs := updAt th.regs (cellIx th.uin r) (fun _ => c) }

/-- Write a register: full, with its taint. -/
def Thread.wr (th : Thread) (exe : Bool) (r : Nat) (v : Dword) (taint : Bool) : Thread :=
  th.setCell exe r (.mk' (if exe then BitVec.setWidth 64 (v.setWidth 32) else v) (!exe && taint))

/-- Write a register with a number, modulo the width. -/
def Thread.wn (th : Thread) (exe : Bool) (r : Nat) (v : Nat) (taint : Bool) : Thread :=
  th.wr exe r (BitVec.ofNat 64 v) taint

/-- A predicate; p7 reads true (07 R212). -/
def Thread.pred (th : Thread) (p : BitVec 3) : Bool := p == 7#3 || th.preds.getLsbD p.toNat

/-- Write a predicate; p7 discards it (07 R212). -/
def Thread.setPred (th : Thread) (p : BitVec 3) (v : Bool) : Thread :=
  if p == 7#3 then th
  else { th with preds := if v then th.preds ||| (1#8 <<< p.toNat) else th.preds &&& ~~~(1#8 <<< p.toNat) }

/-- The PC moves to the next word. -/
def Thread.advance (th : Thread) : Thread := { th with pc := th.pc + 4, xfer := false }

/-- The PC is set by a control transfer (07 R199). -/
def Thread.goto (th : Thread) (pc : Pc) : Thread := { th with pc := pc, xfer := true }

/-- FPSTAT flags are set (07 R216). -/
def Thread.flag (th : Thread) (m : Nat) : Thread := { th with fpstat := th.fpstat ||| BitVec.ofNat 64 m }

/-- A tile predicate; k15 reads true (07 R208). -/
def Group.kp (g : Group) (k : BitVec 4) : Bool := k == 15#4 || g.kpred.getLsbD k.toNat

/-- Write a tile predicate; k15 discards it (07 R208). -/
def Group.setKp (g : Group) (k : BitVec 4) (v : Bool) : Group :=
  if k == 15#4 then g
  else { g with kpred := if v then g.kpred ||| (1#16 <<< k.toNat) else g.kpred &&& ~~~(1#16 <<< k.toNat) }

/-- The indices 0-31. -/
def lanes : List Nat := List.range 32

/-! ### Tags (06 R177, 07 R212) -/

/-- The tag of a register. -/
inductive RegTag where
  | uniform | affine | general
  deriving DecidableEq, Repr

/-- The tag that the values of a register in the live threads of a group give it: one value, base + thread index × stride,
or neither. It is a function of the values and changes no result (log 46). -/
def Group.regTag (g : Group) (exe : Bool) (r : Nat) : RegTag :=
  let vs := (lanes.filter (fun t => (g.thr t).live)).map (fun (t : Nat) => ((t : Int), ((g.thr t).rn exe r : Int)))
  match vs with
  | [] => .uniform
  | (t0, v0) :: rest =>
    if rest.all (fun x => x.2 == v0) then .uniform
    else match rest with
      | [] => .uniform
      | (t1, v1) :: _ =>
        let d := (v1 - v0) / (t1 - t0)
        if vs.all (fun x => wrapN (width exe) (v0 + (x.1 - t0) * d) == wrapN (width exe) x.2) then .affine else .general

/-! ### Selection state -/

/-- Is a thread a candidate (06 R172)? -/
def Thread.cand (th : Thread) : Bool := th.live && th.stop.isNone && th.blk.isNone && !th.park

/-- Remove the threads of a set from every OWE set, and clear the parks that are then due (06 R174, `on_leave`,
`settle`). -/
def Group.onLeave (g : Group) (set : List Nat) : Group :=
  let m : BitVec 32 := set.foldl (fun m t => m ||| (1#32 <<< t)) 0#32
  { g with threads := g.threads.map (fun th =>
      if th.park then
        let o := th.owe &&& ~~~m
        { th with owe := o, park := o != 0#32 }
      else th) }

/-- `on_yield` (06 R174): the threads of the set park, owing every other candidate. -/
def Group.onYield (g : Group) (sel : List Nat) : Group :=
  let owe : BitVec 32 := (lanes.filter (fun u => (g.thr u).cand && !sel.contains u)).foldl
    (fun m t => m ||| (1#32 <<< t)) 0#32
  let g := sel.foldl (fun g t => g.modThr t (fun th => { th.advance with park := true, owe := owe })) g
  g.onLeave []

/-- The better selection key (06 R173). -/
def keyBetter (a b : Thread) : Bool :=
  if a.depth != b.depth then decide (a.depth > b.depth) else decide (a.pc.toNat < b.pc.toNat)

/-- Clear every park of a group (06 R173). -/
def Group.unpark (g : Group) : Group :=
  { g with threads := g.threads.map (fun th => { th with park := false, owe := 0 }) }

/-- The best candidate among the listed ones. -/
def Group.best (g : Group) : List Nat → Option Nat
  | [] => none
  | t :: r =>
    match g.best r with
    | none => some t
    | some u => if keyBetter (g.thr u) (g.thr t) then some u else some t

/-- The candidates of a group. -/
def Group.cands (g : Group) : List Nat := lanes.filter (fun t => (g.thr t).cand)

/-- `select_set` (06 R173) once at least one candidate stands or none can be had. -/
def Group.selectSet (g : Group) : List Nat :=
  match g.best g.cands with
  | none => []
  | some b => g.cands.filter (fun t => (g.thr t).depth == (g.thr b).depth && (g.thr t).pc == (g.thr b).pc)

/-- The parks that `select_set` clears when only parked threads could run (06 R173). -/
def Group.prepare (g : Group) : Group :=
  if g.cands.isEmpty && g.threads.any (fun th => th.live && th.stop.isNone && th.blk.isNone && th.park) then g.unpark
  else g

/-- A new group of 32 threads at DEPTH 0 at an entry (01 R15, 06 R171, 13 R369). -/
def Group.fresh (key : GroupKey) (stage inst : Nat) (entry : Pc) (n tiles olr : Nat) : Group where
  key := key
  stage := stage
  inst := inst
  threads := List.replicate 32 { Thread.absent with pc := entry, live := true, rstack := List.replicate n 0 }
  uvec := 0
  tiles := List.replicate tiles { cells := List.replicate 1024 0, shape := false, afmt := false, pois := false }
  kpred := 0
  ols := List.replicate olr { cnt := 0, es := List.replicate 64 0, st := .full }
  sets := []
  loop := none
  wcount := 0
  hold := none
  done := []
  stalled := false
  slotw := false
  collw := false
  resv := 0
  grant := none
  mmas := []
  ended := false

/-- The code of a group's slice in thread names (12 R360): the quadrant, or 4. -/
def sliceCode (k : GroupKey) : Nat := if k.exe then k.quad else 4

/-- A thread's name (12 R360). -/
def State.thrName (s : State) (th : ThreadKey) : Nat :=
  s.coreOf th.gk.team % 1024 + sliceCode th.gk * 2 ^ 10 + th.gk.grp * 2 ^ 13 + th.thr * 2 ^ 18

end Sys2Proof.Machine
end

