-- ==== Sys2Proof/Machine/Legal.lean ====
section
/-! DEFINITION. What the words of the opcode table allow: slices, pipes and privilege by major (07 R196, R209, R210),
field values beyond the encoding (R202-R208 and the instruction chapters), and the registers and predicates each word
reads and writes, for the chain rules of R197. -/

namespace Sys2Proof.Machine

/-- The slices a major runs in (07 R209). -/
inductive SliceSet where
  | both | access | execute
  deriving DecidableEq, Repr

/-- Issue pipes (07 R196). -/
inductive Pipe where
  | s | v | m | q
  deriving DecidableEq, Repr

/-- Issue pipe of a major; none for an unallocated or reserved one (07 R209). -/
def majorPipe (m : Nat) : Option Pipe :=
  if m = 1 ∨ m = 2 ∨ m = 3 ∨ m = 6 ∨ (0x36 ≤ m ∧ m ≤ 0x39) ∨ (0x3B ≤ m ∧ m ≤ 0x3D) then some .s
  else if m = 4 ∨ m = 5 ∨ (0x08 ≤ m ∧ m ≤ 0x0D) ∨ (0x10 ≤ m ∧ m ≤ 0x16) ∨ (0x18 ≤ m ∧ m ≤ 0x1A) then some .v
  else if 0x1C ≤ m ∧ m ≤ 0x22 then some .m
  else if (0x24 ≤ m ∧ m ≤ 0x29) ∨ (0x2C ≤ m ∧ m ≤ 0x35) ∨ m = 0x3A then some .q
  else none

/-- Does a word of a major have a guard field (07 R204, R209)? MEM, AT, MX and the unallocated majors have none; the
group-collective queue words must name p7 (R201), and SEL uses the field otherwise (08 R247). -/
def guardedMajor (m : Nat) : Bool :=
  !(m = 0 || m = 7 || m = 0x0D || m = 0x0E || m = 0x0F || m = 0x17 || (0x18 ≤ m && m ≤ 0x23 && m != 0x1A) || m = 0x25
    || m = 0x27 || m = 0x2A || m = 0x2B || m = 0x2C || m = 0x2D || (0x2F ≤ m && m ≤ 0x31) || m = 0x3E || m = 0x3F)

/-- The slices of an instruction (07 R209). -/
def slices : Instr → SliceSet
  | .lea _ | .ld _ | .st _ | .ldMa _ | .stMa _ | .ldc _ | .atom _ | .red _ | .atomMinmax _ | .redMinmax _
  | .cas _ | .ldq _ | .ldbq _ | .stq _ | .qstream _ | .gath _ | .scat _ | .gathR _ | .pref _ | .bcopy _
  | .bstore _ | .mcast _ | .replay _ | .rch _ | .rget _ | .rput _ | .fence _ | .join _ | .kvlook _ | .kvins _
  | .kvdel _ | .pfxlook _ | .pfxins _ | .attd _ => .access
  | .fadd _ | .fsub _ | .fmul _ | .ffma _ | .fmin _ | .fmax _ | .fclass _ | .frnd _ | .frcp _ | .frsq _
  | .fsqrt _ | .fdiv _ | .fexp2 _ | .flog2 _ | .fsin _ | .fcos _ | .hadd2Bf16 _ | .hmul2Bf16 _ | .hfma2Bf16 _
  | .hadd2F16 _ | .hmul2F16 _ | .hfma2F16 _ | .fcvtF32Bf16 _ | .fcvtF32Bf16Hi _ | .fcvtF32F16 _
  | .fcvtF32F16Hi _ | .fcvtBf16x2F32 _ | .fcvtF16x2F32 _ | .icvtSwF32 _ | .icvtSwF32Rz _ | .icvtUwF32 _
  | .icvtUwF32Rz _ | .icvtF32Sw _ | .icvtF32Uw _ | .fcmp _ | .rope _ | .amrg _ | .qnt _ | .qscl _ | .dq _
  | .hdrr _ | .hdrw _ | .cbk _ | .mma _ | .mmaz _ | .tcfg _ | .tzero _ | .kopMov _ | .kopAnd _ | .kopOr _
  | .kopAndn _ | .kopNz _ | .kopFromp _ | .kopTop _ | .tchk _ | .tmovfF32 _ | .tmovfBf16 _ | .tmovtF32 _
  | .tmovtBf16 _ | .tdrain _ | .tdrainAdd _ | .tstsp _ | .qpopb _ | .qpopo _ | .qpushb _ => .execute
  | .bra _ | .call _ | .nop _ | .jmp _ | .calli _ | .ret _ | .exit _ | .yield _ | .trap _ | .uret _ | .setuv _
  | .bkpt _ | .mark _ | .icsync _ | .icsyncDev _ | .cmp _ | .plopAnd _ | .plopOr _ | .plopXor _ | .plopAndn _
  | .voteAny _ | .voteAll _ | .voteBallot _ | .elect _ | .shflIdx _ | .shflUp _ | .shflDown _ | .shflXor _
  | .csrr _ | .csrw _ | .csrs _ | .csrc _ | .add _ | .sub _ | .mul _ | .mulhiS _ | .mulhiU _ | .mad _ | .divs _
  | .divu _ | .rems _ | .remu _ | .minS _ | .minU _ | .maxS _ | .maxU _ | .abs _ | .sel _ | .and _ | .or _
  | .xor _ | .andn _ | .shl _ | .shr _ | .sar _ | .rol _ | .clz _ | .popc _ | .brev _ | .mov _ | .bfx _
  | .bfi _ | .movi _ | .movhi _ | .addImm _ | .andImm _ | .orImm _ | .xorImm _ | .shlImm _ | .shrImm _
  | .qpop _ | .qpush _ | .qmark _ | .qpeek _ | .qtest _ | .qcfg _ | .qclose _ | .qstat _ | .pinit _ | .preg _
  | .pdereg _ | .parr _ | .pbytes _ | .pwait _ | .ptest _ | .ptestW _ | .spawn _ | .take _ | .steal _ | .fnew _
  | .fres _ | .fresF _ | .freg _ | .fwait _ | .fstat _ | .fstatHi _ | .jlaunch _ | .trigger _ | .jyield _
  | .leave _ | .sret _ | .tlbinv _ | .ctxq _ | .haltq _ => .both
  | .powerOn | .admissionWrite _ _ _ | .admitJob | .hostWindowRead _ _ | .hostWindowWrite _ _ | .keyLoad _ _ _
  | .releaseSlot _ _ | .createContext _ _ | .setSaveArea _ _ _ _ | .setEventRange _ _ _ _
  | .setPeerTable _ _ _ _ | .endCtx _ _ | .abandon _ _ _ | .grantBudget _ _ _ | .grantDeadline _ _ _
  | .setPartitionTable _ _ _ | .setEnergyTable _ _ | .setRateCap _ _ _ _ | .setWindow _ _ _
  | .setRetransmissionBudget _ _ | .exposeRegion _ _ _ _ _ _ | .checkpoint _ | .stop _ _ | .debugStop _
  | .resume _ _ | .clear _ | .debugRegisterWrite _ _ | .registerWrite _ _ | .trigin _ | .crossbarAction _
  | .replenish | .carillonGrant _ | .wdog _ | .qdead _ | .budget _ | .phaserTimeout _ | .fwaitRecheck _
  | .registrationRetry _ | .replicationTest _ | .sliceStart _ | .preempt _ | .jobEnd _ | .pageWalkStart
  | .pageWalkResult _ _ | .loadReturn _ _ | .queueEntryArrival _ _ | .stqWrite _ _ | .kvProbe _
  | .copyGranuleLanding _ _ | .bstoreGranuleWrite _ _ | .mcastFlitInject _ | .drumlineLanding _ _
  | .qstreamLinePush _ | .gatherChunk _ | .drainLineWrite _ _ | .tileUpdate _ _ | .commandPerformed _ _
  | .tripleArrival _ _ _ | .attdDeadline _ _ | .attlost _ _ _ | .attdEntryDelivery _ _
  | .responseLanded _ _ _ _ | .errorResponse _ _ _ | .retransmissionExhausted _ _ _
  | .channelQueueDelivery _ _ _ | .completionVectoring _ | .peerRead _ _ _ _ | .peerWrite _ _ _ _ | .claveTick
  | .claveFrameWrite | .mchk _ | .storeOrdered _ _ | .mmaCompletion _ _ _ => .both

/-- Privileged instructions (07 R210, 12 R359). -/
def privileged : Instr → Bool
  | .sret _ | .tlbinv _ | .ctxq _ | .haltq _ => true
  | _ => false

/-- Is a legal value of an atomic's OS for a RED (07 R207)? -/
def redOs (os : BitVec 4) : Bool := os == 0#4 || (decide (6#4 ≤ os) && decide (os ≤ 10#4))

/-- Are the two predicates of a compare distinct, unless discarded (08 R240)? -/
def predPair (p q : BitVec 3) : Bool := p != q || p == 7#3

/-- A control word: its number, whether it can be written, whether it is of the execute slice alone (07 R214). -/
def csrTable : List (Nat × Bool × Bool) :=
  [(0x000, false, false), (0x001, false, false), (0x002, false, false), (0x003, false, false), (0x004, false, false),
   (0x005, false, false), (0x006, false, false), (0x010, false, false), (0x011, false, false), (0x020, true, true),
   (0x021, true, true), (0x022, false, false), (0x030, true, false), (0x031, true, false)]

/-- Does a selector name a control word that this slice may access so (07 R215)? -/
def csrOk (exe : Bool) (sel : BitVec 10) (write : Bool) : Bool :=
  match csrTable.find? (fun e => e.1 == (sel.setWidth 9).toNat) with
  | some (_, w, x) => (!write || w) && (exe || (!x && !sel.getLsbD 9))
  | none => false

/-- Field values that raise ILLOP in either slice, beyond what the decoder refuses. -/
def legal : Instr → Bool
  | .cmp f => predPair f.p1 f.p2
  | .plopAnd f | .plopOr f | .plopXor f | .plopAndn f => predPair f.p1 f.p2
  | .fcmp f => predPair f.p1 f.p2
  | .frnd f => decide (f.b ≤ 3#5)
  | .rope f | .amrg f => decide (f.a ≤ 30#5) && decide (f.b ≤ 30#5) && decide (f.d ≤ 30#5)
  | .qnt f => decide (f.a ≤ 27#5) && decide (4#4 ≤ f.fmt) && decide (f.fmt ≤ 10#4) && (!f.elect || decide (9#4 ≤ f.fmt))
  | .qscl f => decide (f.a ≤ 27#5) && decide (f.b ≤ 30#5) && decide (4#4 ≤ f.fmt) && decide (f.fmt ≤ 10#4)
      && (!f.elect || decide (9#4 ≤ f.fmt))
  | .mma f | .mmaz f => decide (f.var ≤ 5#3) && (f.fmt == 0#4 || (decide (2#4 ≤ f.fmt) && decide (f.fmt ≤ 11#4)))
  | .tmovfF32 f | .tmovtF32 f => decide (f.a ≤ 24#5)
  | .tmovfBf16 f | .tmovtBf16 f => decide (f.a ≤ 24#5)
  | .qpopb f => decide (f.d.toNat + (f.a.toNat + 2) / 2 ≤ 32)
  | .qpushb f => decide (f.d.toNat + (f.a.toNat + 2) / 2 ≤ 32)
  | .qtest f => decide (f.a ≤ 2#5)
  | .ld f => f.w != 7#3
  | .st f => decide (f.w ≤ 3#3)
  | .ldMa f => f.w != 7#3 && decide (f.os ≤ 5#4)
  | .stMa f => decide (f.w ≤ 3#3) && redOs f.os
  | .ldc f => f.w != 7#3 && decide (6#4 ≤ f.os) && decide (f.os ≤ 10#4)
  | .atom f => f.d != 0#5 && f.op != 7#3 && ((f.op != 5#3 && f.op != 6#3) || f.b == 0#5)
  | .red f => f.op != 7#3 && ((f.op != 5#3 && f.op != 6#3) || f.b == 0#5) && redOs f.os
  | .atomMinmax f => f.d != 0#5 && decide (f.op ≤ 3#3)
  | .redMinmax f => decide (f.op ≤ 3#3) && redOs f.os
  | .gath f => decide (f.a ≤ 29#5)
  | .scat f => decide (f.a ≤ 29#5)
  | .bcopy f | .bstore f => decide (f.b ≤ 29#5)
  | .fence f => f.os != 0#4
  | .join f => f.mask != 0#5
  | .preg f => decide (1#5 ≤ f.b) && decide (f.b ≤ 3#5)
  | .pwait f => decide (f.b ≤ 30#5)
  | .ptestW f => decide (f.b ≤ 30#5)
  | .fnew f => decide (f.b ≤ 1#5)
  | .kvins f | .pfxins f => decide (f.b ≤ 30#5)
  | .tlbinv f => f.k != 3#2
  | .ctxq f => decide (f.item ≤ 4#3)
  | _ => true

/-- Is a word allowed in a slice: its major (07 R209), and the field values whose range the slice sets (R205, R215,
12 R341, R347)? -/
def sliceOk (exe : Bool) (i : Instr) : Bool :=
  (match slices i with | .both => true | .access => !exe | .execute => exe) &&
  match i with
  | .shlImm f | .shrImm f => if exe then decide (f.imm.toNat < 32) else decide (f.imm.toNat < 64)
  | .csrr f => csrOk exe f.sel false
  | .csrw f | .csrs f | .csrc f => csrOk exe f.sel true
  | .spawn f => !exe || decide (f.a ≤ 30#5)
  | .take f => !exe || decide (f.d ≤ 30#5)
  | .steal f => !exe || decide (f.d ≤ 30#5)
  | .fstatHi _ => exe
  | _ => true

/-- What a word can read or write: a register, a predicate, a tile predicate, a list register, a tile (07 R212). -/
inductive Res where
  | reg (n : Nat)
  | pred (n : Nat)
  | kpred (n : Nat)
  | list (n : Nat)
  | tile (n : Nat)
  deriving DecidableEq, Repr

/-- Registers from a first one. -/
def regsFrom (base : BitVec 5) (n : Nat) : List Res := (List.range n).map (fun i => .reg (base.toNat + i))

/-- A register operand. -/
def rr (r : BitVec 5) : Res := .reg r.toNat

/-- A predicate operand. -/
def pp (p : BitVec 3) : Res := .pred p.toNat

/-- The block at half h of a register, from the participants (10 R300). -/
def Group.blockAt (g : Group) (go : List Nat) (r h : Nat) : Block :=
  BitVec.ofNat 512 (((List.range 16).map (fun w =>
    (if go.contains (16 * h + w) then (g.thr (16 * h + w)).rn true r else 0) * 2 ^ (32 * w))).sum)

/-- The block that a DQ of the lanes sel reads, where every register that holds a word of it can be read (10 R300). -/
def Group.dqBlock (g : Group) (sel : List Nat) (r h : Nat) : Option Block :=
  if sel.any (fun t => t / 16 == h && decide (((g.thr t).cell true r).st ≠ .full)) then none else some (g.blockAt sel r h)

/-- How many registers a DQ writes (10 R306): by the format of the block as it stands, one where it cannot be read yet (log
51). -/
def dqCount (b : Option Block) : Nat :=
  match b with
  | some b => cdiv (elemCount (blkFmt b)) 32
  | none => 1

/-- The list that a DQ reads: none where the block has no list (R306), or cannot be read yet (log 51). -/
def dqList (n : Nat) (b : Option Block) : List Res :=
  match b with
  | some b => if blkOln b = 0 then [] else [.list n]
  | none => []

/-- The sources of QNT and QSCL (10 R301): the registers that hold the elements of the format, and the two parameters. -/
def qntRegs (base : BitVec 5) (fmt : Nat) : List Res :=
  regsFrom base (cdiv (elemCount fmt) 32) ++ [.reg (base.toNat + 3), .reg (base.toNat + 4)]

/-- Registers of a fragment (11 R311): 8 where its first block is VQ2, else 16. -/
def fragRegs (g : Group) (base : BitVec 5) : List Res :=
  regsFrom base (if bits ((g.thr 0).rn true base.toNat) 4 0 = 0x0B then 8 else 16)

/-- The registers of a task record (12 R341): one x register, or a pair of v registers. -/
def taskRegs (exe : Bool) (base : BitVec 5) : List Res := regsFrom base (if exe then 2 else 1)

/-- Registers and predicates that a word of a set reads; the pairs of R341 as the execute slice has them. -/
def reads (g : Group) (sel : List Nat) : Instr → List Res
  | .bra f | .call f => [pp f.g]
  | .nop f | .ret f | .exit f | .yield f | .uret f | .icsync f | .icsyncDev f | .trigger f | .jyield f => [pp f.g]
  | .jmp f | .calli f | .replay f | .pdereg f => [pp f.g, rr f.a]
  | .trap f | .mark f => [pp f.g, rr f.a]
  | .setuv f | .abs f | .clz f | .popc f | .brev f | .mov f | .fcvtF32Bf16 f | .fcvtF32Bf16Hi f | .fcvtF32F16 f
  | .fcvtF32F16Hi f | .icvtSwF32 f | .icvtSwF32Rz f | .icvtUwF32 f | .icvtUwF32Rz f | .icvtF32Sw f
  | .icvtF32Uw f | .parr f | .attd f => [pp f.g, rr f.a]
  | .bkpt f => [pp f.g]
  | .cmp f => [pp f.g, rr f.a, rr f.b]
  | .plopAnd f | .plopOr f | .plopXor f | .plopAndn f => [pp f.g, pp f.a, pp f.b]
  | .voteAny f | .voteAll f => [pp f.g, pp f.a]
  | .voteBallot f => [pp f.g, pp f.a]
  | .elect f => [pp f.g]
  | .shflIdx f | .shflUp f | .shflDown f | .shflXor f | .add f | .sub f | .mul f | .mulhiS f | .mulhiU f
  | .divs f | .divu f | .rems f | .remu f | .minS f | .minU f | .maxS f | .maxU f | .and f | .or f | .xor f
  | .andn f | .shl f | .shr f | .sar f | .rol f | .bfx f | .fcvtBf16x2F32 f | .fcvtF16x2F32 f | .cbk f | .rch f
  | .rget f | .rput f | .ptest f | .kvlook f | .kvdel f | .pfxlook f => [pp f.g, rr f.a, rr f.b]
  | .csrr f => [pp f.g]
  | .csrw f | .csrs f | .csrc f => [pp f.g, rr f.a]
  | .mad f | .bfi f => [pp f.g, rr f.a, rr f.b, rr f.d]
  | .sel f => [pp f.pc, rr f.a, rr f.b]
  | .movi f => [pp f.g]
  | .movhi f | .addImm f | .andImm f | .orImm f | .xorImm f | .shlImm f | .shrImm f => [pp f.g, rr f.d]
  | .lea f => [rr f.a]
  | .fadd f | .fsub f | .fmul f | .fmin f | .fmax f | .fdiv f | .hadd2Bf16 f | .hmul2Bf16 f | .hadd2F16 f
  | .hmul2F16 f => [pp f.g, rr f.a, rr f.b]
  | .ffma f | .hfma2Bf16 f | .hfma2F16 f => [pp f.g, rr f.a, rr f.b, rr f.d]
  | .fclass f | .frcp f | .frsq f | .fsqrt f | .fexp2 f | .flog2 f | .fsin f | .fcos f => [pp f.g, rr f.a]
  | .frnd f => [pp f.g, rr f.a]
  | .fcmp f => [pp f.g, rr f.a, rr f.b]
  | .rope f | .amrg f => [pp f.g] ++ regsFrom f.a 2 ++ regsFrom f.b 2
  | .qnt f => [.kpred f.k.toNat] ++ qntRegs f.a f.fmt.toNat ++ [.list (b2n f.ol)]
  | .qscl f => [.kpred f.k.toNat] ++ qntRegs f.a f.fmt.toNat
  | .dq f => [.kpred f.k.toNat, rr f.a] ++ dqList (b2n f.ol) (g.dqBlock sel f.a.toNat (b2n f.h))
  | .hdrr f => [pp f.g, rr f.a]
  | .hdrw f => [pp f.g, rr f.a, rr f.d]
  | .mma f | .mmaz f => [.kpred f.k.toNat] ++ fragRegs g f.a ++ fragRegs g f.b ++ [.list 0, .list 1]
  | .tcfg f => [.kpred f.k.toNat]
  | .tzero f => [.kpred f.k.toNat]
  | .kopMov f => [.kpred f.k.toNat, .kpred f.b.toNat]
  | .kopAnd f | .kopOr f | .kopAndn f => [.kpred f.k.toNat, .kpred f.b.toNat, .kpred f.d.toNat]
  | .kopNz f => [.kpred f.k.toNat, .tile f.t.toNat]
  | .kopFromp f => [.kpred f.k.toNat, pp f.b]
  | .kopTop f => [.kpred f.k.toNat, .kpred f.b.toNat]
  | .tchk f => [.kpred f.k.toNat, .tile f.t.toNat]
  | .tmovfF32 f => [.kpred f.k.toNat, .tile f.t.toNat]
  | .tmovfBf16 f => [.kpred f.k.toNat, .tile f.t.toNat]
  | .tmovtF32 f => [.kpred f.k.toNat] ++ regsFrom f.a 8
  | .tmovtBf16 f => [.kpred f.k.toNat] ++ regsFrom f.a 8
  | .tdrain f | .tdrainAdd f | .tstsp f => [.kpred f.k.toNat, .tile f.t.toNat]
  | .qpop f => [pp f.g, pp f.mp]
  | .qpopb f => [pp f.mp]
  | .qpush f | .ldq f | .ldbq f | .stq f => [pp f.g, rr f.d]
  | .qpushb f => regsFrom f.d ((f.a.toNat + 2) / 2)
  | .qmark f | .qclose f => [pp f.g]
  | .qpeek f => [pp f.g]
  | .qtest f => [pp f.g]
  | .qcfg f => [pp f.g, rr f.a]
  | .qstat f => [pp f.g]
  | .ld f => [rr f.a]
  | .st f => [rr f.a, rr f.d]
  | .ldMa f | .ldc f => [pp f.g, rr f.a]
  | .stMa f => [pp f.g, rr f.a, rr f.d]
  | .atom f | .atomMinmax f => [rr f.a, rr f.b]
  | .red f | .redMinmax f => [rr f.a, rr f.b]
  | .cas f => [rr f.a, rr f.b, rr f.d]
  | .qstream f => [pp f.g, rr f.d, rr f.a]
  | .gath f => [pp f.g, rr f.d] ++ regsFrom f.a 2
  | .scat f => [pp f.g, rr f.d] ++ regsFrom f.a 3
  | .gathR f => [pp f.g, rr f.a, rr f.b]
  | .pref f => [pp f.g, rr f.d]
  | .bcopy f | .bstore f => [pp f.g, rr f.d, rr f.a] ++ regsFrom f.b 3
  | .mcast f => [pp f.g, rr f.d, rr f.a, rr f.b]
  | .fence f => [pp f.g]
  | .join f => [pp f.g]
  | .pinit f | .pbytes f => [pp f.g, rr f.a, rr f.b]
  | .preg f => [pp f.g, rr f.a]
  | .pwait f => [pp f.g, rr f.a] ++ regsFrom f.b 2
  | .ptestW f | .kvins f | .pfxins f => [pp f.g, rr f.a] ++ regsFrom f.b 2
  | .spawn f => [pp f.g] ++ taskRegs g.key.exe f.a
  | .take f => [pp f.g]
  | .steal f | .fwait f | .jlaunch f => [pp f.g, rr f.a]
  | .fnew f => [pp f.g, rr f.a]
  | .fres f | .fresF f | .freg f => [pp f.g, rr f.a, rr f.b]
  | .fstat f | .fstatHi f | .leave f | .haltq f => [pp f.g, rr f.a]
  | .sret f => [pp f.g, rr f.a]
  | .tlbinv f => [pp f.g, rr f.d, rr f.a]
  | .ctxq f => [pp f.g, rr f.a]
  | _ => []

/-- Registers and predicates that a word of a set writes. -/
def writes (g : Group) (sel : List Nat) : Instr → List Res
  | .setuv f | .abs f | .clz f | .popc f | .brev f | .mov f | .fcvtF32Bf16 f | .fcvtF32Bf16Hi f | .fcvtF32F16 f
  | .fcvtF32F16Hi f | .icvtSwF32 f | .icvtSwF32Rz f | .icvtUwF32 f | .icvtUwF32Rz f | .icvtF32Sw f
  | .icvtF32Uw f | .parr f | .attd f => [rr f.d]
  | .cmp f => [pp f.p1, pp f.p2]
  | .plopAnd f | .plopOr f | .plopXor f | .plopAndn f => [pp f.p1, pp f.p2]
  | .voteAny f | .voteAll f => [pp f.d]
  | .voteBallot f => [rr f.d]
  | .elect f => [pp f.d]
  | .shflIdx f | .shflUp f | .shflDown f | .shflXor f | .add f | .sub f | .mul f | .mulhiS f | .mulhiU f
  | .mad f | .divs f | .divu f | .rems f | .remu f | .minS f | .minU f | .maxS f | .maxU f | .and f | .or f
  | .xor f | .andn f | .shl f | .shr f | .sar f | .rol f | .bfx f | .bfi f | .fcvtBf16x2F32 f | .fcvtF16x2F32 f
  | .cbk f | .rch f | .rget f | .rput f | .ptest f | .ptestW f | .kvlook f | .kvins f | .kvdel f | .pfxlook f
  | .pfxins f => [rr f.d]
  | .csrr f => [rr f.d]
  | .csrw f | .csrs f | .csrc f => [rr f.d]
  | .sel f => [rr f.d]
  | .movi f | .movhi f | .addImm f | .andImm f | .orImm f | .xorImm f | .shlImm f | .shrImm f => [rr f.d]
  | .lea f => [rr f.d]
  | .fadd f | .fsub f | .fmul f | .ffma f | .fmin f | .fmax f | .fdiv f | .hadd2Bf16 f | .hmul2Bf16 f
  | .hfma2Bf16 f | .hadd2F16 f | .hmul2F16 f | .hfma2F16 f => [rr f.d]
  | .fclass f | .frcp f | .frsq f | .fsqrt f | .fexp2 f | .flog2 f | .fsin f | .fcos f => [rr f.d]
  | .frnd f => [rr f.d]
  | .fcmp f => [pp f.p1, pp f.p2]
  | .rope f | .amrg f => regsFrom f.d 2
  | .qnt f => [rr f.b, .list (b2n f.ol)]
  | .qscl f => regsFrom f.b 2
  | .dq f => regsFrom f.b (dqCount (g.dqBlock sel f.a.toNat (b2n f.h)))
  | .hdrr f | .hdrw f => [rr f.d]
  | .mma f | .mmaz f => [.tile f.t.toNat]
  | .tcfg f => [.tile f.t.toNat]
  | .tzero f => [.tile f.t.toNat]
  | .kopMov f | .kopAnd f | .kopOr f | .kopAndn f => [.kpred f.d.toNat]
  | .kopNz f => [.kpred f.d.toNat]
  | .kopFromp f => [.kpred f.d.toNat]
  | .kopTop f => [pp f.d]
  | .tchk f => [rr f.a]
  | .tmovfF32 f => regsFrom f.a 8
  | .tmovfBf16 f => regsFrom f.a 8
  | .tmovtF32 f => [.tile f.t.toNat]
  | .tmovtBf16 f => [.tile f.t.toNat]
  | .qpop f | .qpeek f => [rr f.d, pp f.mp]
  | .qpopb f => regsFrom f.d ((f.a.toNat + 2) / 2) ++ [pp f.mp]
  | .qpopo f => [.list (b2n f.d)]
  | .qtest f => [pp f.mp]
  | .qstat f => [rr f.d]
  | .ld f => [rr f.d]
  | .ldMa f | .ldc f => [rr f.d]
  | .atom f | .atomMinmax f => [rr f.d]
  | .cas f => [rr f.d, pp f.ps]
  | .gathR f => [rr f.d]
  | .preg f => [rr f.d]
  | .pwait f => [pp f.d]
  | .spawn f => [pp f.ps]
  | .take f => taskRegs g.key.exe f.d ++ [pp f.ps]
  | .steal f => taskRegs g.key.exe f.d ++ [pp f.ps]
  | .fres f | .fresF f | .freg f => [pp f.ps]
  | .fwait f | .jlaunch f => [rr f.d, pp f.ps]
  | .fstat f | .fstatHi f | .leave f | .haltq f => [rr f.d]
  | .sret f => [rr f.d]
  | .ctxq f => [rr f.d]
  | _ => []

/-- Does a resource take no part in the chain rules in a slice: x0, p7 and k15 hold constants and discard writes
(07 R208, R212)? -/
def Res.constant (exe : Bool) : Res → Bool
  | .reg n => !exe && n == 0
  | .pred n => n == 7
  | .kpred n => n == 15
  | _ => false

/-- May a word transfer control, by its major (07 R197)? SRET is major 0x3B, FN2 0. -/
def transfers (w : Word) : Bool :=
  let m := (majorOf w).toNat
  m = 1 || m = 2 || m = 3 || (m = 0x3B && w.extractLsb' 0 2 == 0#2)

/-- The resources of a list that count in a slice. -/
def counting (exe : Bool) (l : List Res) : List Res := l.filter (fun r => !r.constant exe)

/-- Is a list of words, in address order, a legal chain of a set (07 R197), given the registers that earlier words write and the
pipes they take? last says that the word has the place of word 2 of its packet; a word with C = 1 in another place is not
the last of its chain. -/
def chainOkFrom (g : Group) (sel : List Nat) : List Res → List Pipe → List (Word × Bool) → Bool
  | _, _, [] => true
  | wr, ps, (w, last) :: rest =>
    let (r, wn) := match decode w with
      | some i => (counting g.key.exe (reads g sel i), counting g.key.exe (writes g sel i))
      | none => ([], [])
    let p := (majorPipe (majorOf w).toNat).toList
    !(chainOf w && last) && !p.any (fun x => ps.contains x) && !r.any (fun x => wr.contains x)
      && !wn.any (fun x => wr.contains x) && (!transfers w || !chainOf w)
      && chainOkFrom g sel (wr ++ wn) (ps ++ p) rest

end Sys2Proof.Machine
end

