-- ==== Sys2Proof/Machine/Phase.lean ====
section
/-! DEFINITION. Phasers as scratchpad objects (03 R86, R87) and their completion (12 R336); the event table
(12 R346-R350, 20 R436); the event queue (14 R396, R397). -/

namespace Sys2Proof.Machine

/-! ### Phasers -/

/-- The fields of a phaser (03 R86). -/
structure Phaser where
  phase : Nat
  nsig : Nat
  narr : Nat
  bcnt : Int
  pois : Bool
  bcf : Bool
  wmap : Nat
  deriving DecidableEq, Repr

/-- The fields of 32 bytes. -/
def Phaser.ofNum (n : Nat) : Phaser where
  phase := bits n 31 0
  nsig := bits n 47 32
  narr := bits n 63 48
  bcnt := sextN 32 (bits n 95 64)
  pois := bit n 96
  bcf := bit n 97
  wmap := bits n 255 112

/-- The 32 bytes of the fields. -/
def Phaser.toNum (p : Phaser) : Nat :=
  p.phase % 2 ^ 32 + p.nsig % 2 ^ 16 * 2 ^ 32 + p.narr % 2 ^ 16 * 2 ^ 48 + wrapN 32 p.bcnt * 2 ^ 64
    + b2n p.pois * 2 ^ 96 + b2n p.bcf * 2 ^ 97 + p.wmap % 2 ^ 144 * 2 ^ 112

/-- The phaser at an offset of a team's scratchpad. -/
def State.phaser (s : State) (k : TeamKey) (off : Nat) : Phaser := Phaser.ofNum (leNat (s.spadRead k off 32))

/-- Store a phaser. -/
def State.setPhaser (s : State) (k : TeamKey) (off : Nat) (p : Phaser) : State :=
  s.spadWrite k off (leBytes 32 p.toNum)

/-- Is phase b complete when PHASE is p (R337)? -/
def phaseDone (p b : Nat) : Bool :=
  let d := wrapN 32 ((p : Int) - b)
  decide (1 ≤ d) && decide (d ≤ 2 ^ 31 - 1)

/-- The WMAP bit of a group (R86). -/
def wmapBit (k : GroupKey) : Nat := if k.exe then 16 + 32 * k.quad + k.grp else k.grp

/-- Does a thread wait on this phaser, and for which phase? -/
def Thread.waitsOn (th : Thread) (off : Nat) : Option Nat :=
  match th.blk with
  | some (.phaser o b _ _ _) => if o = off then some b else none
  | _ => none

/-- Wake the threads of a team whose phase is complete, with their result (R336). -/
def State.phWake (s : State) (k : TeamKey) (off newPhase done : Nat) (pz bc bcf : Bool) : State :=
  { s with groups := s.groups.map (fun g =>
      if g.key.team = k then
        { g with threads := g.threads.map (fun th =>
            match th.waitsOn off with
            | some b =>
              if phaseDone newPhase b then
                { th with
                  blk := none
                  wres := some { off := off, phase := done, pz := pz, bc := bc, timeout := false, bcf := bcf } }
              else th
            | none => th) }
      else g) }

/-- The groups of a team that hold a thread waiting on a phaser, as WMAP. -/
def State.phWaiters (s : State) (k : TeamKey) (off : Nat) : Nat :=
  (s.groupsOf k).foldl (fun m g =>
    if g.threads.any (fun th => (th.waitsOn off).isSome) then m ||| 2 ^ wmapBit g.key else m) 0

/-- `ph_complete` (R336). -/
def State.phComplete (s : State) (k : TeamKey) (off : Nat) (p : Phaser) (pz bc : Bool) : State :=
  let next := (p.phase + 1) % 2 ^ 32
  let s := s.phWake k off next p.phase pz bc p.bcf
  s.setPhaser k off
    { p with phase := next, narr := 0, bcnt := 0, pois := false, wmap := s.phWaiters k off }

/-- `ph_check` (R336). -/
def State.phCheck (s : State) (k : TeamKey) (off : Nat) : State :=
  let p := s.phaser k off
  if p.bcnt < 0 then s.phComplete k off { p with bcf := true } true true
  else if p.narr = p.nsig && p.bcnt = 0 then s.phComplete k off p p.pois false
  else s

/-- The poison mark of a phaser is set, and nothing is credited (03 R113). -/
def State.phPoison (s : State) (k : TeamKey) (off : Nat) : State :=
  s.setPhaser k off { s.phaser k off with pois := true }

/-- A credit of bytes, poisoned or not, with its check (R108, R113, R336). A phaser in a line that cannot be read is poisoned, as
by an engine's read of such a line, and its other fields are undefined (14 R398, log 70). -/
def State.phCredit (s : State) (k : TeamKey) (off n : Nat) (pois : Bool) : State :=
  let p := s.phaser k off
  (s.setPhaser k off { p with bcnt := p.bcnt - n, pois := p.pois || pois || s.spadEcc k off 32 }).phCheck k off

/-- Take a registration away (R334): the thread's slot empties, NSIG and NARR move, the check runs. -/
def State.phDereg (s : State) (th : ThreadKey) (off : Nat) : State :=
  match (s.thread th).slots.find? (fun r => (r.map (fun x => x.off)) == some off) with
  | some (some r) =>
    let s := s.modThread th (fun t =>
      { t with slots := t.slots.map (fun x => if (x.map (fun y => y.off)) == some off then none else x) })
    if r.sig then
      let p := s.phaser th.gk.team off
      let p := { p with
        nsig := p.nsig - 1
        narr := if r.last = some p.phase then p.narr - 1 else p.narr }
      (s.setPhaser th.gk.team off p).phCheck th.gk.team off
    else s
  | _ => s

/-! ### Event queue (14 R397) -/

/-- The source of a record (R396). -/
def SupRecord.src (r : SupRecord) : Nat := bits r.d3.toNat 47 32

/-- A record enters the event queue, or is held by its source while the queue is full or the source holds earlier ones.
The low 32 bits of dword 3 are aux. -/
def State.record (s : State) (src d0 d1 d2 aux : Nat) : State :=
  let seq := tabGet 0 s.seqs src
  let r : SupRecord := {
    d0 := BitVec.ofNat 64 d0, d1 := BitVec.ofNat 64 d1, d2 := BitVec.ofNat 64 d2
    d3 := BitVec.ofNat 64 (seq * 2 ^ 48 + src * 2 ^ 32 + aux % 2 ^ 32) }
  let s := { s with seqs := tabSet s.seqs src ((seq + 1) % 2 ^ 16) }
  if s.evq.length < Config.eventQueue ∧ s.held.all (fun x => x.src != src) then { s with evq := s.evq ++ [r] }
  else { s with held := s.held ++ [r] }

/-- The records that their sources hold enter the event queue while it has room, each source's in their order. -/
def State.refill (s : State) : State :=
  let n := Config.eventQueue - s.evq.length
  { s with evq := s.evq ++ s.held.take n, held := s.held.drop n }

/-- The management cores take records out of the event queue, as many as they have got to (log 48). -/
def State.drainRecords (s : State) : State :=
  if s.evq.isEmpty then s
  else ({ s with evq := s.evq.drop (Config.taken s.fresh % (s.evq.length + 1)), fresh := s.fresh + 1 } : State).refill

/-! ### Event table -/

/-- An event; every word is 0 at power-on (R346). -/
def State.event (s : State) (id : Nat) : Event := tabGet { word := 0, waiters := [] } s.events id

/-- Store an event. -/
def State.setEvent (s : State) (id : Nat) (e : Event) : State := { s with events := tabSet s.events id e }

/-- ST of an event (R346). -/
def Event.st (e : Event) : Nat := bits e.word.toNat 1 0

/-- VALUE of an event. -/
def Event.value (e : Event) : Nat := bits e.word.toNat 63 32

/-- WCNT of an event. -/
def Event.wcnt (e : Event) : Nat := bits e.word.toNat 23 8

/-- The state word of VALUE, WCNT, DBL and ST. -/
def eventWord (value wcnt : Nat) (dbl : Bool) (st : Nat) : Dword :=
  BitVec.ofNat 64 (value % 2 ^ 32 * 2 ^ 32 + wcnt % 2 ^ 16 * 2 ^ 8 + b2n dbl * 4 + st % 4)

/-- DBL of an event. -/
def Event.dbl (e : Event) : Bool := bit e.word.toNat 2

/-- The context whose event range holds an id (13 R374). -/
def State.eventOwner (s : State) (id : Nat) : Option Nat :=
  (s.ctxs.find? (fun c => !c.ended && decide (c.evBase ≤ id) && decide (id < c.evBase + c.evCount))).map (fun c => c.ctxid)

/-- Decrement a node's counter on behalf of an event (13 R373): ignored and counted where the node is ready, ended,
unknown, or of another context. -/
def State.decNode (s : State) (node id : Nat) : State :=
  match s.job node with
  | some j =>
    if j.st = .node && s.eventOwner id = some j.ctx then
      s.modJob node (fun j => if j.counter ≤ 1 then { j with counter := 0, st := .ready } else { j with counter := j.counter - 1 })
    else s.countDev 3 1
  | none => s.countDev 3 1

/-- Wake every thread blocked in FWAIT on an event whose group is recorded (R348). -/
def State.wakeFuture (s : State) (id : Nat) (gk : GroupKey) : State :=
  s.modGroup gk (fun g => { g with threads := g.threads.map (fun th =>
    match th.blk with
    | some (.future e _) => if e = id then { th with blk := none } else th
    | _ => th) })

/-- The 16 bytes of an overflow record (13 R374): their contents are not architectural. -/
def OvfRec.bytes (r : OvfRec) : List Byte := (freeBytes r.fill 64).take 16

/-- Does an overflow record stand in memory as the event table wrote it? -/
def State.intact (s : State) (r : OvfRec) : Bool :=
  match s.readVirt (manage r.ctx true) r.va 16 with
  | .ok bs => bs == r.bytes
  | .error _ => false

/-- Serve a waiter of an event (R348). Where software has written over or unmapped its overflow record, whether it is
served is undefined (13 R374, log 47). -/
def State.serveWaiter (s : State) (id : Nat) (w : Waiter) : State :=
  let go (s : State) : State :=
    match w.who with
    | .inl gk => s.wakeFuture id gk
    | .inr n => s.decNode n id
  match w.area with
  | none => go s
  | some r => if s.intact r then go s else if Config.served s.fresh then go s.bump else s.bump

/-- A resolution step at the event table (R348, R436): VALUE and ST are set, every waiter is served, WCNT becomes 0;
on a resolved event only DBL is set. Answers whether it resolved. -/
def State.resolve (s : State) (id value : Nat) (fault : Bool) : State × Bool :=
  let e := s.event id
  if e.st = 2 || e.st = 3 then
    (s.setEvent id { e with word := e.word ||| 4#64 }, false)
  else
    let s := s.setEvent id { word := eventWord value 0 e.dbl (if fault then 3 else 2), waiters := [] }
    (e.waiters.foldl (fun s w => s.serveWaiter id w) s, true)

/-- The records in use of the overflow area of a job, by their places. -/
def State.ovfUsed (s : State) (job : Nat) : List Nat :=
  s.events.flatMap (fun p => p.2.waiters.filterMap (fun w => w.area.bind (fun r => if r.job = job then some r.ix else none)))

/-- Is a waiter record free for an event, inline or in the area of a job (R349)? Answers the record it would take: the first
free one of the area (log 47). -/
def State.waiterRoom (s : State) (id job : Nat) : Option (Option OvfRec) :=
  let e := s.event id
  if (e.waiters.filter (fun w => w.area.isNone)).length < Config.inlineWaiters then some none
  else
    let used := s.ovfUsed job
    match s.job job, (List.range (used.length + 1)).find? (fun i => !used.contains i) with
    | some j, some ix =>
      if used.length < j.pipe.evovfc then
        some (some { job := job, ix := ix, ctx := j.ctx, va := (j.pipe.evovf + 16 * ix) % 2 ^ 64, fill := s.fresh })
      else none
    | _, _ => none

/-- The event table writes an overflow record (13 R374). -/
def State.writeOvf (s : State) (area : Option OvfRec) : State :=
  match area with
  | some r => (s.bump.writeVirt (manage r.ctx true) r.va r.bytes).1
  | none => s

/-- Record a waiter of an event (R348, R349), in the record it takes. -/
def State.addWaiter (s : State) (id : Nat) (who : Sum GroupKey Nat) (area : Option OvfRec) : State :=
  let e := s.event id
  (s.writeOvf area).setEvent id {
    word := eventWord e.value (e.wcnt + 1) e.dbl e.st
    waiters := e.waiters ++ [{ who := who, area := area }] }

/-- FREG at the event table (R348): answers the status predicate. -/
def State.freg (s : State) (id node job : Nat) : State × Bool :=
  let e := s.event id
  if e.st = 2 || e.st = 3 then (s.decNode node id, true)
  else match s.waiterRoom id job with
    | some a => (s.addWaiter id (.inr node) a, true)
    | none => (s, false)

end Sys2Proof.Machine
end

