-- ==== Sys2Proof/Machine/Queues.lean ====
section
/-! DEFINITION. Queue copies: FIFOs with claimed positions, pushes, arrivals, and deliveries to bound destinations
(06 R185-R188, 09 R265-R273). -/

namespace Sys2Proof.Machine

/-! ### FIFOs -/

/-- An empty FIFO. -/
def Fifo.empty : Fifo := { nextIn := 0, nextOut := 0, slots := [], closed := false, dead := false }

/-- Positions in use (09 R271). -/
def Fifo.used (f : Fifo) : Nat := f.nextIn - f.nextOut

/-- Is there room for n more entries below a limit (06 R184 row 17, 09 R271)? A FIFO whose consumer has exited
discards and never blocks (08 R231). -/
def Fifo.room (f : Fifo) (limit n : Nat) : Bool := f.dead || decide (f.used + n ≤ limit)

/-- The entry present at the head, if any (06 R186 rows 1 and 3). -/
def Fifo.head (f : Fifo) : Option QSlot :=
  match f.slots with
  | [] => none
  | .claimed :: _ => none
  | x :: _ => some x

/-- The head position is taken by a pop. -/
def Fifo.take (f : Fifo) : Fifo := { f with nextOut := f.nextOut + 1, slots := f.slots.drop 1 }

/-- The record of a marker of a queue taken as poison (06 R186 row 6); its address is a free value (log 3). -/
def markerPoison (q : QRef) : Poison := { va := Config.markerVa, sp := false, rtag := 0xFFFF, kind := 0, cls := 8, q := some q }

/-- An entry as it stands in a queue. -/
def QSlot.inQueue (x : QSlot) (q : QRef) : QSlot :=
  match x with
  | .poison p => .poison { p with q := some q }
  | x => x

/-- What a pop's binding makes of the entry that it waits for: a marker is treated as poison (06 R186 row 6). -/
def Binding.receives (b : Binding) (x : QSlot) : QSlot :=
  match x, b with
  | .marker _, .pos q _ _ => .poison (markerPoison q)
  | x, _ => x

/-! ### Queue copies -/

/-- The queue copy of a reference. -/
def Team.queue (t : Team) (q : QRef) : Option Queue := t.queues.find? (fun x => x.ref == q)

/-- Change a queue copy. -/
def State.modQueue (s : State) (k : TeamKey) (q : QRef) (f : Queue → Queue) : State :=
  s.modTeam k (fun t => { t with queues := t.queues.map (fun x => if x.ref = q then f x else x) })

/-- Change one FIFO of a queue copy. -/
def State.modFifo (s : State) (k : TeamKey) (q : QRef) (i : Nat) (f : Fifo → Fifo) : State :=
  s.modQueue k q (fun x => { x with fifos := updAt x.fifos i f })

/-- The queue copy of a name that is instantiated for a group (13 R372). -/
def State.queueFor (s : State) (gk : GroupKey) (name : Nat) : Option Queue :=
  match s.team gk.team with
  | some t => t.queues.find? (fun q => q.ref.name == name && (q.prod == gk || q.cons == gk))
  | none => none

/-- The FIFO index of a thread: its lane in lane mode, the single FIFO otherwise (09 R266). -/
def Queue.lane (q : Queue) (t : Nat) : Nat := if q.mode = .lane then t else 0

/-- A FIFO of a queue copy. -/
def Queue.fifo (q : Queue) (i : Nat) : Fifo := q.fifos.getD i Fifo.empty

/-! ### Replay table (06 R188) -/

/-- Free a replay-table entry of a team. -/
def State.freeReplay (s : State) (k : TeamKey) (rtag : Nat) : State :=
  s.modTeam k (fun t => { t with replay := updAt t.replay rtag (fun _ => none) })

/-- The lowest free replay-table entry. -/
def Team.freeReplayIx (t : Team) : Option Nat := (List.range Config.replayEntries).find? (fun i => (t.replay.getD i none).isNone)

/-! ### Delivery to a bound destination (rows 7, 8, 15, 16) -/

/-- The state a register takes when what it waits for arrives. -/
def arrive (x : QSlot) (origin : Pc) (old : RegSt) : RegSt :=
  match x with
  | .data (.lane v) => .transit (BitVec.setWidth 64 v)
  | .poison p => .poisoned p origin
  | _ => old

/-- The state a list register takes when what it waits for arrives. -/
def arriveOl (x : QSlot) (origin : Pc) (old : OlSt) : OlSt :=
  match x with
  | .data (.olist n es) => .transit n es
  | .poison p => .poisoned p origin
  | _ => old

/-- The slot a fragment set entry becomes when what it waits for arrives. -/
def arriveSet (x : QSlot) (old : SetSlot) : SetSlot :=
  match x with
  | .data (.block b) => .data b
  | .poison p => .poison p
  | .marker _ => .marker
  | _ => old

/-- Deliver to the registers of a thread that wait on a binding. -/
def Thread.deliver (th : Thread) (b : Binding) (x : QSlot) : Thread :=
  { th with regs := th.regs.map (fun c =>
      match c.st with
      | .wait b' o => if b' = b then { c with st := arrive (b.receives x) o c.st } else c
      | _ => c) }

/-- Deliver to the list registers of a group that wait on a binding. -/
def Group.deliverOl (g : Group) (b : Binding) (x : QSlot) : Group :=
  { g with ols := g.ols.map (fun o =>
      match o.st with
      | .wait b' og => if b' = b then { o with st := arriveOl (b.receives x) og o.st } else o
      | _ => o) }

/-- Deliver to the fragment sets of a group that wait on a binding. -/
def Group.deliverSet (g : Group) (b : Binding) (x : QSlot) : Group :=
  { g with sets := g.sets.map (fun st =>
      { st with slots := (List.range st.slots.length).map (fun i =>
          match st.slots.getD i .missing with
          | .missing => if b = .pos st.q 0 (st.pos + i) then arriveSet x .missing else .missing
          | .replaying b' => if b' = b then arriveSet x (.replaying b') else .replaying b'
          | y => y) }) }

/-- Does any destination of a group wait on a binding? -/
def Group.waitsFor (g : Group) (b : Binding) : Bool :=
  g.threads.any (fun th => th.regs.any (fun c => match c.st with | .wait b' _ => decide (b' = b) | _ => false))
  || g.ols.any (fun o => match o.st with | .wait b' _ => decide (b' = b) | _ => false)
  || g.sets.any (fun st => (List.range st.slots.length).any (fun i =>
      match st.slots.getD i .missing with
      | .missing => decide (b = .pos st.q 0 (st.pos + i))
      | .replaying b' => decide (b' = b)
      | _ => false))

/-- Deliver to every destination of a group that waits on a binding. -/
def Group.deliver (g : Group) (b : Binding) (x : QSlot) : Group :=
  let g : Group := { g with threads := g.threads.map (fun th : Thread => th.deliver b x) }
  (g.deliverOl b x).deliverSet b x

/-- Deliver to whatever in a team waits on a binding. -/
def State.deliver (s : State) (k : TeamKey) (b : Binding) (x : QSlot) : State :=
  { s with groups := s.groups.map (fun g => if g.key.team = k then g.deliver b x else g) }

/-- Discard an entry nobody will read: the replay-table entry of a poison entry is freed (06 R188, 08 R231). -/
def State.dropSlot (s : State) (k : TeamKey) (x : QSlot) : State :=
  match x with
  | .poison p => if p.rtag = 0xFFFF then s else s.freeReplay k p.rtag
  | _ => s

/-- An entry arrives for a position that a pop or an STQ has claimed: at the STQ, at the bound destination, or
nowhere (08 R231). -/
def State.arriveBound (s : State) (k : TeamKey) (q : Queue) (fifo pos : Nat) (x : QSlot) : State :=
  let x := x.inQueue q.ref
  if q.stqs.any (fun e => e.fifo == fifo && e.pos == pos) then
    match x with
    | .data d => s.modQueue k q.ref (fun q => { q with stqs := q.stqs.map (fun e =>
        if e.fifo == fifo && e.pos == pos then { e with data := some d } else e) })
    | _ => s
  else
    let b := Binding.pos q.ref fifo pos
    if s.groups.any (fun g => decide (g.key.team = k) && g.waitsFor b) then s.deliver k b x
    else s.dropSlot k x

/-- A push: the next position is claimed and filled at once (06 R185, 09 R267). -/
def State.push (s : State) (k : TeamKey) (q : Queue) (fifo : Nat) (x : QSlot) : State :=
  let f := q.fifo fifo
  if f.dead then s.dropSlot k x
  else if f.nextOut ≤ f.nextIn then
    s.modFifo k q.ref fifo (fun f => { f with nextIn := f.nextIn + 1, slots := f.slots ++ [x.inQueue q.ref] })
  else
    (s.modFifo k q.ref fifo (fun f => { f with nextIn := f.nextIn + 1 })).arriveBound k q fifo f.nextIn x

/-- Claim the next position for data that will come (09 R272). -/
def State.claim (s : State) (k : TeamKey) (q : Queue) (fifo : Nat) : State :=
  s.modFifo k q.ref fifo (fun f => if f.dead then f else
    { f with nextIn := f.nextIn + 1, slots := if f.nextOut ≤ f.nextIn then f.slots ++ [.claimed] else f.slots })

/-- Fill a claimed position. -/
def State.fillPos (s : State) (k : TeamKey) (qr : QRef) (fifo pos : Nat) (x : QSlot) : State :=
  match (s.team k).bind (fun t => t.queue qr) with
  | some q =>
    let f := q.fifo fifo
    if f.dead then s.dropSlot k x
    else if f.nextOut ≤ pos then
      s.modFifo k qr fifo (fun f => { f with slots := updAt f.slots (pos - f.nextOut) (fun _ => x.inQueue qr) })
    else s.arriveBound k q fifo pos x
  | none => s.dropSlot k x

/-- Discard every entry of a lane whose consumer has exited (08 R231). A poison entry that stands in the lane keeps its
replay-table entry, which 06 R188 frees in three other cases. -/
def State.killLane (s : State) (k : TeamKey) (q : Queue) (fifo : Nat) : State :=
  s.modFifo k q.ref fifo (fun f => { f with slots := [], nextOut := max f.nextOut f.nextIn, dead := true })

/-- Is a queue closed: every lane has been closed (09 R270)? -/
def Queue.closed (q : Queue) : Bool := q.fifos.all (fun f => f.closed)

end Sys2Proof.Machine
end

