-- ==== Sys2Proof/Machine/Ops.lean ====
section
/-! DEFINITION. The shared operations: the end of a thread, a group and a team (08 R231, 13 R375), taking an exception
and returning from one (14 R389-R395, 08 R236, R237, 12 R360), completions vectored to a thread (21 R440, R447), and
energy (15 R403, R404). -/

namespace Sys2Proof.Machine

/-! ### Causes (14 R389) -/

/-- The code of a cause. -/
def Cause.code : Cause → Nat
  | .trap => 0x01 | .decouple => 0x02 | .poison => 0x03 | .range => 0x04 | .futdbl => 0x05 | .olovf => 0x06
  | .bytecount => 0x07 | .blkfmt => 0x08 | .blkhdr => 0x09 | .olref => 0x0A
  | .illop => 0x20 | .badarg => 0x21 | .xlat => 0x22 | .ecc => 0x23 | .calldepth => 0x24 | .wdog => 0x25
  | .budget => 0x26 | .iconv => 0x27 | .qdead => 0x28 | .array => 0x29 | .mchk => 0x40

/-- Is a cause user-level? -/
def Cause.user (c : Cause) : Bool := decide (c.code < 0x20)

/-- Is a cause group-fatal? -/
def Cause.fatal : Cause → Bool
  | .iconv | .qdead | .array => true
  | _ => false

/-- What a cause reports: the PCs, the upper bits of HC, the handler registers, and dword 2 and AUX of a supervisor
record (R393, R396). -/
structure TrapInfo where
  cause : Cause
  raising : Pc
  resume : Pc
  hc : Nat
  r29 : Nat
  r30 : Nat
  r31 : Nat
  addr : Nat
  aux : Nat
  deriving DecidableEq, Repr

/-- The information of a cause with nothing but its PCs: resumption at the raising instruction. -/
def TrapInfo.at (c : Cause) (pc : Pc) : TrapInfo where
  cause := c
  raising := pc
  resume := pc
  hc := 0
  r29 := 0
  r30 := 0
  r31 := pc.toNat
  addr := 0
  aux := 0

/-- POISON by a poison entry, of a pop's PC (R393). -/
def TrapInfo.ofPoison (p : Poison) (exe : Bool) (origin raising resume : Pc) : TrapInfo where
  cause := .poison
  raising := raising
  resume := resume
  hc := p.rtag * 2 ^ 16 + (if p.cls = 0 then p.kind * 2 ^ 12 else 0) + p.cls * 2 ^ 8
  r29 := if exe then p.va.toNat % 2 ^ 32 else p.va.toNat
  r30 := if exe then p.va.toNat / 2 ^ 32 else origin.toNat
  r31 := if exe then origin.toNat else raising.toNat
  addr := p.va.toNat
  aux := p.rtag * 2 ^ 16 + (if p.cls = 0 then p.kind * 2 ^ 12 else 0) + p.cls * 2 ^ 8 + Cause.poison.code

/-- XLAT by a fault kind at an address (R396). -/
def TrapInfo.xlat (k : XKind) (va : Nat) (pc : Pc) : TrapInfo :=
  { TrapInfo.at .xlat pc with addr := va, aux := k.code }

/-- ECC at an address (R396). -/
def TrapInfo.eccAt (va : Nat) (pc : Pc) : TrapInfo := { TrapInfo.at .ecc pc with addr := va }

/-! ### The end of threads, groups and teams -/

/-- The completion record of a channel slot (09 R286). -/
def completionRecord (r : RemReq) (ch slot : Nat) (failed : Bool) : List Byte :=
  leBytes 16 (r.raddr % 2 ^ 64 + (slot % 16 + ch % 64 * 2 ^ 4 + b2n failed * 2 ^ 10 + (r.len - 1) % 256 * 2 ^ 11) * 2 ^ 64)

/-- Change a response slot of a channel. -/
def State.modSlot (s : State) (k : TeamKey) (ch slot : Nat) (f : ChSlot → ChSlot) : State :=
  s.modTeam k (fun t => { t with chans := t.chans.map (fun c =>
    if c.num = ch then { c with slots := updAt c.slots slot f } else c) })

/-- A response slot of a channel of a team. -/
def Team.slot (t : Team) (ch slot : Nat) : Option ChSlot :=
  (t.chans.find? (fun c => c.num == ch)).bind (fun c => c.slots[slot]?)

/-- A free response slot. -/
def ChSlot.empty : ChSlot := { st := .free, req := none, data := [], todo := [] }

/-- Finish a UV completion of a channel (21 R440, R447): the record is written, the slot returns to FREE. -/
def State.finishChannel (s : State) (k : TeamKey) (ch slot : Nat) : State :=
  match (s.team k).bind (fun t => t.slot ch slot) with
  | some sl =>
    let s := match sl.req with
      | some r => s.spadWrite k (r.ph + 16 * slot) (completionRecord r ch slot (sl.st == SlotSt.failed))
      | none => s
    s.modSlot k ch slot (fun _ => ChSlot.empty)
  | none => s

/-- What the handler bank tells of a completion (21 R439): the offset of its record or of its first block, and dword 1
of the record. -/
def State.dueBank (s : State) (k : TeamKey) (d : Due) : Nat × Nat :=
  match d with
  | .channel ch slot =>
    match (s.team k).bind (fun t => t.slot ch slot) with
    | some sl =>
      match sl.req with
      | some r => (r.ph + 16 * slot, leNat ((completionRecord r ch slot (sl.st == SlotSt.failed)).drop 8))
      | none => (0, 0)
    | none => (0, 0)
  | .attd off => (off, 0)

/-- Does a completion come before another (09 R286, 21 R443): by the cycle of landing, and in one cycle by channel and slot?
The entries of ATTD commands keep the order in which they were written (04 R139). -/
def Due.before (a : Due) (la : Nat) (b : Due) (lb : Nat) : Bool :=
  decide (la < lb) || (la == lb &&
    match a, b with
    | .channel c n, .channel d m => decide (c < d) || (c == d && decide (n < m))
    | _, _ => false)

/-- A completion becomes due to a thread, with the cycle of its landing. -/
def insertDue (l : List (ThreadKey × Due × Nat)) (x : ThreadKey × Due × Nat) : List (ThreadKey × Due × Nat) :=
  match l.findIdx? (fun y => y.1 == x.1 && x.2.1.before x.2.2 y.2.1 y.2.2) with
  | some i => l.take i ++ [x] ++ l.drop i
  | none => l ++ [x]

/-- Finish what is due to a thread without vectoring it (21 R447): an ATTD entry stands written already. -/
def State.finishDue (s : State) (th : ThreadKey) (d : Due) : State :=
  match d with
  | .channel ch slot => s.finishChannel th.gk.team ch slot
  | .attd _ => s

/-- The registers of a thread that ends: poison is discarded, waits are unbound (08 R231). -/
def Thread.unbind (th : Thread) : Thread :=
  { th with regs := th.regs.map (fun c =>
      match c.st with
      | .wait _ _ => { c with st := .full }
      | .poisoned _ _ => { c with st := .full }
      | _ => c) }

/-- The replay-table entries that the registers of a thread hold (06 R188). -/
def Thread.replays (th : Thread) : List Nat :=
  th.regs.filterMap (fun c =>
    match c.st with
    | .wait (.replay n _) _ => some n
    | .poisoned p _ => if p.rtag = 0xFFFF then none else some p.rtag
    | _ => none)

/-- The replay-table entries that the sets and list registers of a group hold. -/
def Group.replays (g : Group) : List Nat :=
  (g.ols.filterMap (fun o =>
    match o.st with
    | .wait (.replay n _) _ => some n
    | .poisoned p _ => if p.rtag = 0xFFFF then none else some p.rtag
    | _ => none))
  ++ (g.sets.flatMap (fun st => st.slots)).filterMap (fun x =>
    match x with
    | .replaying (.replay n _) => some n
    | .poison p => if p.rtag = 0xFFFF then none else some p.rtag
    | _ => none)

/-- Has a team a store or an STQ that is not performed? -/
def Team.writing (t : Team) : Bool := !t.stores.isEmpty || t.queues.any (fun q => !q.stqs.isEmpty)

/-- Has every team of a job triggered or ended (12 R353)? The writes of one that ended without TRIGGER have been performed
(05 R147). -/
def State.triggered (s : State) (job : Nat) : Bool :=
  s.teams.all (fun t => t.key.job != job || t.trig || (t.ended && !t.writing))

/-- Resolve TEV at the moment of R353 (13 R375). -/
def State.tevCheck (s : State) (job : Nat) : State :=
  match s.job job with
  | some j =>
    match j.tev with
    | some e => if !j.tevDone && s.triggered job then ((s.modJob job (fun j => { j with tevDone := true })).resolve e 0 false).1 else s
    | none => s
  | none => s

/-- A team ends when all of its groups have (13 R375): its queue entries are discarded, then and later, and its replay
table is freed (06 R188). -/
def State.endTeam (s : State) (k : TeamKey) : State :=
  if (s.groupsOf k).all (fun g => g.ended) then
    let s := s.modTeam k (fun t => { t with
      ended := true
      replay := t.replay.map (fun _ => none)
      queues := t.queues.map (fun q => { q with fifos := q.fifos.map (fun f =>
        { f with slots := [], nextOut := max f.nextOut f.nextIn, dead := true }) }) })
    s.tevCheck k.job
  else s

/-- A group ends when no thread of it is LIVE (08 R231): its set bindings end with it (06 R185). -/
def State.endGroup (s : State) (gk : GroupKey) : State :=
  match s.group gk with
  | some g =>
    if g.ended || g.threads.any (fun th => th.live) then s
    else
      let s := g.replays.foldl (fun s n => s.freeReplay gk.team n) s
      let s := s.modGroup gk (fun g => { g with ended := true, sets := [], loop := none, hold := none, done := [], stalled := false })
      s.endTeam gk.team
  | none => s

/-- A thread stops being LIVE, with every consequence of EXIT (08 R231, 17 R431). -/
def State.exitThread (s : State) (th : ThreadKey) : State :=
  let t := s.thread th
  if !t.live then s
  else
    let k := th.gk.team
    let s := t.slots.foldl (fun s r =>
      match r with
      | some r => s.phDereg th r.off
      | none => s) s
    let s := ((t.replays.foldl (fun s n => s.freeReplay k n) s).forget (.kv th)).forget (.reads th)
    let s := match s.team k with
      | some tm => (tm.queues.filter (fun q : Queue => q.mode == QMode.lane && q.cons == th.gk)).foldl (fun (s : State) q => s.killLane k q th.thr) s
      | none => s
    let s := s.modTeam k (fun tm => { tm with queues := tm.queues.map (fun q : Queue =>
      { q with stqs := q.stqs.filter (fun e => e.thr != th || e.data.isSome) }) })
    let s := match s.team k with
      | some tm =>
        let due := tm.vecq.filter (fun d : ThreadKey × Due × Nat => d.1 == th)
        let s := s.modTeam k (fun tm => { tm with vecq := tm.vecq.filter (fun d : ThreadKey × Due × Nat => d.1 != th) })
        due.foldl (fun (s : State) (d : ThreadKey × Due × Nat) => s.finishDue th d.2.1) s
      | none => s
    let s := s.modThread th (fun t => { t.unbind with live := false, blk := none, park := false, owe := 0, fbind := none, wres := none, walk := none, kv := none, mark := none, inv := none })
    let s := s.modGroup th.gk (fun g =>
      let h := g.hold.bind (fun h => let l := h.2.filter (· != th.thr); if l.isEmpty then none else some (h.1, l))
      { g.onLeave [th.thr] with wcount := 0, hold := h, stalled := g.stalled && h.isSome })
    s.endGroup th.gk

/-- End every thread of a group. -/
def State.killGroup (s : State) (gk : GroupKey) : State :=
  (lanes.foldl (fun s t => s.exitThread { gk := gk, thr := t }) s).endGroup gk

/-! ### Taking an exception -/

/-- The supervisor record of a thread (R396, R397). -/
def State.supRecord (s : State) (th : ThreadKey) (c : Cause) (noh nest : Bool) (pc : Pc) (addr aux : Nat) : State :=
  let core := s.coreOf th.gk.team
  let d0 := c.code + b2n nest * 2 ^ 8 + b2n noh * 2 ^ 9 + s.thrName th * 2 ^ 16 + (s.thread th).depth % 256 * 2 ^ 39
    + s.ctxOf th.gk.team.job % 4096 * 2 ^ 47
  s.record core d0 pc.toNat addr aux

/-- Vector a thread to its group's handler at a resume PC (08 R236). It is a control transfer (log 33). -/
def State.vector (s : State) (th : ThreadKey) (resume : Pc) : State :=
  s.modGroup th.gk (fun g => g.modThr th.thr (fun t =>
    { t with uepc := resume, uin := true, pc := (g.uvec.setWidth 57) &&& ~~~3#57, xfer := true }))

/-- The handler bank of a record (R392, R393): full, untainted. -/
def Thread.bank (t : Thread) (exe : Bool) (a b c d : Nat) : Thread :=
  let cut (n : Nat) : RegCell := .mk' (BitVec.ofNat 64 (if exe then n % 2 ^ 32 else n % 2 ^ 64)) false
  { t with regs := t.regs.take 32 ++ [cut a, cut b, cut c, cut d] }

/-- The handler bank of a thread is filled (R392): its registers are FULL, so that no fragment set holds them any more, and a
poison that one of them held is discarded (06 R186 row 14, log 73). -/
def State.fillBank (s : State) (th : ThreadKey) (a b c d : Nat) : State :=
  let lost := ((s.thread th).regs.drop 32).filterMap (fun x => match x.st with | .poisoned p _ => some (QSlot.poison p) | _ => none)
  (lost.foldl (fun (s : State) x => s.dropSlot th.gk.team x) s).modGroup th.gk (fun g =>
    { g.modThr th.thr (fun t => t.bank th.gk.exe a b c d) with
      sets := g.sets.map (fun x => if x.uin.contains th.thr && !x.cut.contains th.thr then { x with cut := x.cut ++ [th.thr] } else x) })

/-- A thread is stopped by a supervisor cause (R395). -/
def State.stopThread (s : State) (th : ThreadKey) (debug : Bool) (resume raising : Pc) : State :=
  s.modGroup th.gk (fun g =>
    (g.modThr th.thr (fun t => { t with stop := some { debug := debug, resume := resume, raising := raising } })).onLeave [th.thr])

/-- A group-fatal cause is entered against the job: its first code stands (R395). -/
def State.markFault (s : State) (job : Nat) (c : Cause) : State :=
  s.modJob job (fun j => { j with fault := j.fault <|> some c.code })

/-- TAKING AN EXCEPTION (R392-R395): a user-level cause vectors the thread with its record in the handler bank, unless
no handler is registered or one runs; every other delivery is a supervisor stop with a record. A group-fatal cause
is delivered by `fatal`. -/
def State.takeTrap (s : State) (th : ThreadKey) (i : TrapInfo) : State :=
  match s.group th.gk with
  | none => s
  | some g =>
    let t := g.thr th.thr
    if i.cause.user && g.uvec != 0 && !t.uin then
      (s.fillBank th (i.hc + i.cause.code) i.r29 i.r30 i.r31).vector th i.resume
    else
      (s.supRecord th i.cause (i.cause.user && g.uvec == 0) (i.cause.user && t.uin) i.raising i.addr i.aux).stopThread
        th false i.resume i.raising

/-- A group-fatal cause (R395): each taker produces a record, of the raising PC where one is given, the job is marked,
the group ends. -/
def State.fatal (s : State) (gk : GroupKey) (takers : List Nat) (c : Cause) (pc : Option Pc := none) : State :=
  let s := takers.foldl (fun s t =>
    s.supRecord { gk := gk, thr := t } c false false (pc.getD (s.thread { gk := gk, thr := t }).pc) 0 0) s
  (s.markFault gk.team.job c).killGroup gk

/-! ### Returning from an exception -/

/-- URET on a thread in a handler (08 R237). -/
def Thread.uret (t : Thread) : Thread := { t with pc := t.uepc, uin := false, xfer := false }

/-- The thread that an R360 name reaches: a group of the team resident on that core. -/
def State.named (s : State) (n : Nat) : Option ThreadKey :=
  match s.teamOn (bits n 9 0) with
  | some t =>
    (s.groups.find? (fun g => decide (g.key.team = t.key) && sliceCode g.key == bits n 12 10 && g.key.grp == bits n 17 13)).map
      (fun g => { gk := g.key, thr := bits n 22 18 })
  | none => none

/-- SRET's effect on a stopped thread (R360): whether it was one that a supervisor cause had stopped. -/
def State.sretThread (s : State) (th : ThreadKey) (m : Bool) : State × Bool :=
  match (s.thread th).stop, (s.group th.gk).map (fun g => g.ended) with
  | some st, some false =>
    if st.debug then (s, false)
    else (s.modThread th (fun t =>
      { t with
        stop := none
        pc := if m then st.raising + 4 else st.resume
        xfer := false
        wres := if m then none else t.wres
        kv := if m then none else t.kv
        mark := if m then none else t.mark
        inv := if m then none else t.inv }), true)
  | _, _ => (s, false)

/-! ### Energy (15 R400-R405) -/

/-- The account of an island, as it stands at power-on where nothing has touched it (R401). -/
def islandReset (n : Nat) : Island :=
  let (r, c) : Nat × Nat :=
    if n < 576 then (3600, 7200) else if n < 832 then (1200, 2400) else if n < 928 then (600, 1200)
    else if n < 992 then (400, 800) else (2000, 4000)
  { level := c, rate := r, cap := c, used := 0, reqs := [] }

/-- An island. -/
def State.island (s : State) (n : Nat) : Island := tabGet (islandReset n) s.islands n

/-- Change an island. -/
def State.modIsland (s : State) (n : Nat) (f : Island → Island) : State :=
  { s with islands := tabSet s.islands n (f (s.island n)) }

/-- Can a cost be granted at a level (R403)? -/
def Island.grants (i : Island) (cost : Nat) : Bool :=
  decide ((cost : Int) ≤ i.level) || (decide (cost > i.cap) && decide (i.level = i.cap))

/-- Subtract a granted cost. -/
def Island.charge (i : Island) (cost : Nat) : Island := { i with level := i.level - cost, used := i.used + cost }

/-- The part of a cost that a group's reservation leaves for LEVEL (R404). -/
def Group.rest (g : Group) (cost : Nat) : Nat := cost - g.resv

/-- What a group can take for a cost: the grant it was waiting for, or its reservation where that covers the cost
(R404). None: it has to ask. -/
def State.energy (s : State) (gk : GroupKey) (cost : Nat) : Option State :=
  match s.group gk with
  | none => none
  | some g =>
    if g.grant = some cost then some (s.modGroup gk (fun g => { g with grant := none }))
    else if cost ≤ g.resv then some (s.modGroup gk (fun g => { g with resv := g.resv - cost }))
    else none

/-- The place of a group's request among those of its cycle (R403): the access slice, then the quadrants, then the groups. -/
def energyRank (k : GroupKey) : Nat := (if k.exe then 1 + k.quad else 0) * 32 + k.grp

/-- Does a request come before another (R403)? -/
def EReq.before (a b : EReq) : Bool := decide (a.cyc < b.cyc) || (a.cyc == b.cyc && decide (a.rank ≤ b.rank))

/-- A request joins an island's queue; a requester has one request at a time. -/
def State.ask (s : State) (n : Nat) (r : EReq) : State :=
  s.modIsland n (fun i =>
    if i.reqs.any (fun x => x.who == r.who) then i
    else { i with reqs := i.reqs.filter (fun x => x.before r) ++ [r] ++ i.reqs.filter (fun x => !x.before r) })

/-- A group asks its core's island for a cost (R403). -/
def State.askEnergy (s : State) (gk : GroupKey) (cost : Nat) : State :=
  s.ask (s.coreOf gk.team) { who := .inl gk, cost := cost, cyc := s.cycle, rank := energyRank gk }

/-- A reservation ends: its tokens return to LEVEL, capped (R404), and so do those of a grant that the group has not used
yet. -/
def State.endReservation (s : State) (gk : GroupKey) : State :=
  match s.group gk with
  | some g =>
    let s := s.modIsland (s.coreOf gk.team) (fun i => { i with level := min (i.level + g.resv + (g.grant.getD 0)) i.cap })
    s.modGroup gk (fun g => { g with resv := 0, grant := none, leave := none })
  | none => s

end Sys2Proof.Machine
end

