-- ==== Sys2Proof/Machine/Operands.lean ====
section
/-! DEFINITION. How a selected set executes a word: guards (07 R200), encoding errors (R203, R210), the full/empty
state of every source and destination (06 R184-R186), pipeline waits and stalls (06 R172, 09 R260), and the three
ways of acting: every lane on its own registers, the lanes in increasing index (06 R175), the group as a whole
(R178). -/

namespace Sys2Proof.Machine

/-! ### What a lane meets -/

/-- What a lane meets before it may act: nothing, a wait in the pipeline, a blocking wait, a trap (and the register
whose poison it raises). -/
inductive Meet where
  | go
  | wait
  | block (b : Blk)
  | trap (i : TrapInfo) (poison : Option Nat)
  deriving DecidableEq, Repr

/-- The operands of a word: guard, sources in slot order with their policy, registers written (07 R202). keep: the
word may leave its destinations unwritten, so their poison is discarded by its own action. bars: the lanes on which the word
is illegal (09 R270). -/
structure Op where
  guard : BitVec 3
  srcs : List (Nat × Bool)
  dsts : List Nat
  keep : Bool := false
  bars : List Nat := []
  deriving DecidableEq, Repr

/-- A source read with its policy bit clear. -/
def src (r : BitVec 5) : Nat × Bool := (r.toNat, false)

/-- A source with a policy bit. -/
def srcP (r : BitVec 5) (pol : Bool) : Nat × Bool := (r.toNat, pol)

/-- The cells of a thread that a fragment set bound by QPOPB holds (09 R268), with the names as they stood at the pop; a handler
bank that has been filled since holds none of them (14 R392). -/
def SetBind.covers (b : SetBind) (t cell : Nat) : Bool :=
  !(b.cut.contains t && decide (32 ≤ cell))
    && (List.range ((b.n + 1) / 2)).any (fun j => cellIx (b.uin.contains t) (b.base + j) == cell)

/-- The fragment set that holds a cell of a thread, if one does. -/
def Group.setOf (g : Group) (t cell : Nat) : Option SetBind := g.sets.find? (fun b => b.covers t cell)

/-- Has every entry of a set arrived? -/
def SetBind.arrived (b : SetBind) : Bool :=
  b.slots.all (fun x => match x with | .missing => false | .replaying _ => false | _ => true)

/-- The first poison entry of a set, or marker, which makes it a poison of class MARKER: the first of them where it holds
both (09 R268, log 49). -/
def SetBind.poison (b : SetBind) : Option Poison :=
  b.slots.findSome? (fun x => match x with | .poison p => some p | .marker => some (markerPoison b.q) | _ => none)

/-- The one state of a fragment set as a register state (06 R185): WAIT until every entry has arrived, then
POISONED or TRANSIT. -/
def SetBind.state (b : SetBind) : RegSt :=
  if !b.arrived then .wait (.pos b.q 0 b.pos) b.origin
  else match b.poison with
    | some p => .poisoned p b.origin
    | none => .transit 0

/-- The state of a register name of thread t: its own, or that of the set that holds it. -/
def Group.regState (g : Group) (exe : Bool) (t : Nat) (r : Nat) : RegSt :=
  if !exe && r == 0 then .full
  else match g.setOf t (cellIx (g.thr t).uin r) with
    | some b => b.state
    | none => ((g.thr t).cell exe r).st

/-- Reading a register (06 R186 rows 10-13, 09 R260). -/
def readMeet (st : RegSt) (exe : Bool) (r cell : Nat) (pol : Bool) (pc : Pc) : Meet :=
  match st with
  | .full => .go
  | .load _ => .wait
  | .transit _ => .wait
  | .wait _ _ =>
    if pol then .trap { TrapInfo.at .decouple pc with r29 := r } none else .block (.regRead cell)
  | .poisoned p o => .trap (.ofPoison p exe o pc pc) (some r)

/-- Writing a register other than by a pop (06 R184, R186 row 14). -/
def writeMeet (st : RegSt) (cell : Nat) : Meet :=
  match st with
  | .full => .go
  | .load _ => .wait
  | .transit _ => .block (.regWrite cell)
  | .wait _ _ => .block (.regWrite cell)
  | .poisoned _ _ => .go

/-- Reading a register that holds an uncorrectable error (14 R398). -/
def eccMeet (c : RegCell) (pc : Pc) : Meet := if c.ecc then .trap (.eccAt Config.eccVa pc) none else .go

/-- Is a meeting the ECC of a source register? -/
def Meet.isEcc (m : Meet) : Bool :=
  match m with
  | .trap i none => decide (i.cause = .ecc)
  | _ => false

/-- The first of a list of meetings that is not to go on (14 R391: slot order). -/
def firstMeet : List Meet → Meet
  | [] => .go
  | .go :: r => firstMeet r
  | m :: _ => m

/-- What a thread's operands meet: the register states in slot order, then an error in a source (14 R391). -/
def Op.operands (op : Op) (g : Group) (exe : Bool) (t : Nat) (pc : Pc) : Meet :=
  let th := g.thr t
  firstMeet (op.srcs.map (fun x => readMeet (g.regState exe t x.1) exe x.1 (cellIx th.uin x.1) x.2 pc)
    ++ op.dsts.map (fun r => writeMeet (g.regState exe t r) (cellIx th.uin r))
    ++ op.srcs.map (fun x => eccMeet (th.cell exe x.1) pc))

/-- ILLOP at a word (14 R396). -/
def illop (pc : Pc) (word : Word) : TrapInfo := { TrapInfo.at .illop pc with aux := word.toNat }

/-- The destinations whose poison the write discards before a lane acts (06 R186 row 14). -/
def Op.clears (op : Op) : List Nat := if op.keep then [] else op.dsts

/-- What a lane meets: ILLOP where a control transfer has brought it into the middle of a chain (07 R199); none when its
guard is false (07 R200). -/
def Op.meet (op : Op) (illegal : Bool) (g : Group) (p : Pass) (t : Nat) : Option Meet :=
  let th := g.thr t
  if p.mid.contains t then some (.trap (illop p.pc p.word) none)
  else if !th.pred op.guard then none
  else if illegal || op.bars.contains t then some (.trap (illop p.pc p.word) none)
  else some (op.operands g p.gk.exe t p.pc)

/-- Does an encoding, a slice or a privilege rule forbid the word (07 R203, R207, R210)? -/
def State.forbids (s : State) (gk : GroupKey) (i : Instr) : Bool :=
  !legal i || !sliceOk gk.exe i || (privileged i && !s.priv gk.team.job)

/-- The lanes of the pass that perform a word. -/
def State.actors (s : State) (i : Instr) (op : Op) : List Nat :=
  match s.pass with
  | some p => ((s.group p.gk).map (fun g => p.sel.filter (fun t => decide (op.meet (s.forbids p.gk i) g p t = some .go)))).getD []
  | none => []

/-- Does a lane take part in what the lanes compute together: its guard is true and each of its sources can be read
(08 R242, R244, 10 R300)? -/
def Op.takesPart (op : Op) (illegal : Bool) (g : Group) (p : Pass) (t : Nat) : Bool :=
  decide (({ op with dsts := [] } : Op).meet illegal g p t = some .go)

/-! ### Leaving the pass -/

/-- The selected threads that still take part. -/
def State.withSel (s : State) (sel : List Nat) : State := { s with pass := s.pass.map (fun p => { p with sel := sel }) }

/-- No thread takes part further: the set is held. -/
def State.withHeld (s : State) : State := { s with pass := s.pass.map (fun p => { p with sel := [], held := true }) }

/-- The set is held at the word: every lane but those that have performed it executes it again (06 R172, 09 R264). -/
def State.holdSet (s : State) (p : Pass) (performed : List Nat) (stalled : Bool) : State :=
  (s.modGroup p.gk (fun g => { g with
    hold := some (match g.hold with | some h => h | none => (p.pc, p.sel))
    done := g.done ++ performed
    stalled := stalled
    began := some p.began
    iss := some p.iss })).withHeld

/-- A thread becomes BLOCKED (06 R184): the watchdog count returns to 0 (R182). -/
def State.block (s : State) (th : ThreadKey) (b : Blk) : State :=
  s.modGroup th.gk (fun g => { (g.modThr th.thr (fun t => { t with blk := some b })).onLeave [th.thr] with wcount := 0 })

/-- The poison of a register is raised: the destination is WAIT, bound to its replay (06 R186 rows 2 and 13). -/
def State.raisePoison (s : State) (th : ThreadKey) (r : Nat) : State :=
  s.modGroup th.gk (fun g =>
    let cell := cellIx (g.thr th.thr).uin r
    match g.setOf th.thr cell with
    | some b => { g with sets := g.sets.map (fun x => if x = b then
        { x with slots := x.slots.map (fun y => match y with
            | .poison p => if some p = b.poison then .replaying (.replay p.rtag (some b.q)) else y
            | .marker => if b.poison = some (markerPoison b.q) then .replaying (.replay 0xFFFF (some b.q)) else y
            | _ => y) } else x) }
    | none => g.modThr th.thr (fun t => { t with regs := updAt t.regs cell (fun c =>
        match c.st with
        | .poisoned p o => { c with st := .wait (.replay p.rtag p.q) o }
        | _ => c) }))

/-- What a lane that may not act becomes. -/
def State.leave (s : State) (th : ThreadKey) (m : Meet) : State :=
  match m with
  | .go => s
  | .wait => s
  | .block b => s.block th b
  | .trap i none => s.takeTrap th i
  | .trap i (some r) => (s.raisePoison th r).takeTrap th i

/-- The bits of a free value as the registers of a set (06 R185): the k-th dword of the free block. -/
def freeDword (fresh k : Nat) : Dword := BitVec.ofNat 64 (bits (Config.free fresh).toNat (32 * (k % 16) + 31) (32 * (k % 16)))

/-- A free value of 64 bits (00 R7). -/
def freeResult (fresh : Nat) : Dword := (Config.free fresh).setWidth 64

/-- Several fresh free values have been taken. -/
def State.bumpBy (s : State) (n : Nat) : State := { s with fresh := s.fresh + n }

/-- A write to a POISONED destination discards its poison (06 R185, R186 row 14). Every other register of a
discarded set holds a free value. -/
def State.clearPoison (s : State) (th : ThreadKey) (r : Nat) : State :=
  match s.group th.gk with
  | none => s
  | some g =>
    let exe := th.gk.exe
    match g.regState exe th.thr r with
    | .poisoned p _ =>
      let cell := cellIx (g.thr th.thr).uin r
      match g.setOf th.thr cell with
      | some b =>
        let s := (b.slots.foldl (fun s x => match x with
          | .poison q => s.dropSlot th.gk.team (.poison q)
          | _ => s) s)
        let fr := s.fresh
        (s.modGroup th.gk (fun g => { g with
          sets := g.sets.filter (· != b)
          threads := (List.range g.threads.length).map (fun i =>
            let u := g.thr i
            { u with regs := (List.range u.regs.length).map (fun c =>
                if b.covers i c then .mk' (freeDword (fr + i) c) false else u.regs.getD c (.mk' 0 false)) }) })).bumpBy 32
      | none => (s.dropSlot th.gk.team (.poison p)).modThread th (fun t =>
          { t with regs := updAt t.regs cell (fun c => { c with st := .full }) })
    | _ => s

/-! ### Every lane on its own registers -/

/-- Apply a function to the listed positions of a list of threads. -/
def mapFrom (f : Nat → Thread → Thread) : Nat → List Thread → List Thread
  | _, [] => []
  | i, x :: xs => f i x :: mapFrom f (i + 1) xs

/-- Every thread of a group, by its index. -/
def Group.mapThreads (g : Group) (f : Nat → Thread → Thread) : Group := { g with threads := mapFrom f 0 g.threads }

/-- The lanes that act, and those whose guard is false. -/
def splitLanes (ms : List (Nat × Option Meet)) : List Nat × List Nat :=
  (ms.filterMap (fun x => if x.2 = some .go then some x.1 else none),
   ms.filterMap (fun x => if x.2 = none then some x.1 else none))

/-- The pass and its group. -/
def withPass (s : State) (f : Pass → Group → State) : Host.Outcome State Fault Refusal :=
  match s.pass with
  | none => .fault .noIssue
  | some p =>
    match s.group p.gk with
    | none => .fault .noIssue
    | some g => .next (f p g)

/-- Every lane acts on its own registers, from the state of the group before the pass (R175); op gives the operands of
a lane. The effect gets the group, the lanes that take part, the lane and its thread; it moves the PC itself. -/
def runMap (s : State) (p : Pass) (g : Group) (illegal : Bool) (op : Nat → Op)
    (eff : Group → List Nat → Nat → Thread → Thread) : State :=
  let ms := p.sel.map (fun t => (t, (op t).meet illegal g p t))
  if ms.any (fun x => x.2 = some .wait) then s.holdSet p [] false
  else
    let (go, skip) := splitLanes ms
    let part := p.sel.filter (fun t => (op t).takesPart illegal g p t)
    let s := go.foldl (fun s t => (op t).clears.foldl (fun s r => s.clearPoison { gk := p.gk, thr := t } r) s) s
    let s := s.modGroup p.gk (fun h => h.mapThreads (fun t th =>
      if go.contains t then eff g part t th else if skip.contains t then th.advance else th))
    let s := ms.foldl (fun s x =>
      match x.2 with
      | none => s
      | some m => s.leave { gk := p.gk, thr := x.1 } m) s
    s.withSel (p.sel.filter (fun t => go.contains t || skip.contains t))

/-- A meaning whose lanes act on their own registers. -/
def execMap (s : State) (i : Instr) (op : Op) (eff : Group → List Nat → Nat → Thread → Thread) :
    Host.Outcome State Fault Refusal :=
  withPass s (fun p g => runMap s p g (s.forbids p.gk i) (fun _ => op) eff)

/-! ### The lanes in increasing index -/

/-- What one lane's action leaves: done, the lane out of the pass, out of it by a cause, the set waiting (stalled or not),
or this lane waiting while those after it act. -/
inductive Act where
  | done (s : State)
  | out (s : State)
  | trap (s : State) (c : Cause)
  | hold (s : State) (stalled : Bool)
  | wait (s : State) (stalled : Bool)
  deriving DecidableEq, Repr

/-- What two lanes' waits make of the set: stalled where one waits for a resource. -/
def joinWait : Option Bool → Option Bool → Option Bool
  | none, b => b
  | a, none => a
  | some a, some b => some (a || b)

/-- Has a register of a thread poison that a write discards? -/
def State.poisonedAt (s : State) (th : ThreadKey) (r : Nat) : Bool :=
  ((s.group th.gk).map (fun g => match g.regState th.gk.exe th.thr r with | .poisoned _ _ => true | _ => false)).getD false

/-- Is a cause taken after the effect of its instruction (14 R391)? -/
def Cause.after : Cause → Bool
  | .range | .futdbl | .bytecount => true
  | _ => false

/-- Does a cause come before the ECC of a source register (14 R391)? -/
def Cause.beforeEcc : Cause → Bool
  | .badarg | .calldepth | .xlat => true
  | _ => false

/-- Has an action had its effect? -/
def Act.performed : Act → Bool
  | .done _ => true
  | .trap _ c => c.after
  | _ => false

/-- A lane acts: where the word has its effect, the poison of its destinations has been discarded; where the lane traps without
it or waits, the word has had none (06 R186 row 14, 14 R390). -/
def Op.acts (op : Op) (act : State → ThreadKey → Act) (s : State) (th : ThreadKey) : Act :=
  if !op.clears.any (s.poisonedAt th) then act s th
  else if (act s th).performed then act (op.clears.foldl (fun s r => s.clearPoison th r) s) th
  else act s th

/-- What a lane does that may act, or that reads a register with an uncorrectable error: there a wait of its action, or a cause that
comes before ECC, stands (14 R391). -/
def Op.turn (op : Op) (act : State → ThreadKey → Act) (s : State) (th : ThreadKey) (m : Meet) : Act :=
  match m with
  | .go => op.acts act s th
  | m =>
    if !m.isEcc then .out (s.leave th m)
    else match act s th with
      | .trap u c => if c.beforeEcc then .trap u c else .out (s.leave th m)
      | .hold u st => .hold u st
      | .wait u st => .wait u st
      | _ => .out (s.leave th m)

/-- The lanes act one after another in increasing index (R175). A lane that must wait holds the set: the lanes that have
performed the word do not execute it again. w: a lane before has to wait. -/
def runLanes (p : Pass) (g : Group) (illegal : Bool) (op : Op) (act : State → ThreadKey → Act) :
    State → List Nat → Option Bool → List Nat → State
  | s, acc, w, [] =>
    match w with
    | none => s.withSel acc
    | some st => s.holdSet p acc st
  | s, acc, w, t :: ts =>
    let th : ThreadKey := { gk := p.gk, thr := t }
    match op.meet illegal g p t with
    | none => runLanes p g illegal op act (s.modThread th Thread.advance) (acc ++ [t]) w ts
    | some m =>
      match op.turn act s th m with
      | .done s => runLanes p g illegal op act s (acc ++ [t]) w ts
      | .out s => runLanes p g illegal op act s acc w ts
      | .trap s _ => runLanes p g illegal op act s acc w ts
      | .hold s st => s.holdSet p acc ((joinWait w (some st)).getD st)
      | .wait s st => runLanes p g illegal op act s acc (joinWait w (some st)) ts

/-- A meaning whose lanes act in increasing index; misuse is a use that raises ILLOP beside the encoding's. -/
def execLanesIf (s : State) (i : Instr) (op : Op) (misuse : GroupKey → Bool) (act : State → ThreadKey → Act) :
    Host.Outcome State Fault Refusal :=
  withPass s (fun p g =>
    let illegal := s.forbids p.gk i || misuse p.gk
    if p.sel.any (fun t => op.meet illegal g p t = some .wait) then s.holdSet p [] false
    else runLanes p g illegal op act s [] none p.sel)

/-- A meaning whose lanes act in increasing index. -/
def execLanes (s : State) (i : Instr) (op : Op) (act : State → ThreadKey → Act) : Host.Outcome State Fault Refusal :=
  execLanesIf s i op (fun _ => false) act

/-- A lane is done: its PC moves to the next word. -/
def Act.next (s : State) (th : ThreadKey) : Act := .done (s.modThread th Thread.advance)

/-- A lane takes a cause at its own PC. -/
def Act.raise (s : State) (th : ThreadKey) (i : TrapInfo) : Act := .trap (s.takeTrap th i) i.cause

/-- A lane takes a cause that reports nothing but its PC. -/
def Act.cause (s : State) (th : ThreadKey) (c : Cause) : Act := Act.raise s th (.at c (s.thread th).pc)

/-- ILLOP at the word of the pass. -/
def Act.illop (s : State) (th : ThreadKey) : Act :=
  Act.raise s th (Sys2Proof.Machine.illop (s.thread th).pc ((s.pass.map (fun p => p.word)).getD 0))

/-! ### List registers -/

/-- A list register of a group; an undeclared one is empty. -/
def Group.ol (g : Group) (n : Nat) : OlReg := g.ols.getD n { cnt := 0, es := List.replicate 64 0, st := .full }

/-- The poison of a list register is raised (06 R186 row 13). -/
def Group.raiseOl (g : Group) (n : Nat) : Group :=
  { g with ols := updAt g.ols n (fun o => match o.st with
      | .poisoned p og => { o with st := .wait (.replay p.rtag p.q) og }
      | _ => o) }

/-! ### The group as a whole -/

/-- What a group-collective instruction does (R178). -/
inductive Coll where
  | done (s : State)
  | trapAll (i : TrapInfo)
  | poisonAll (i : TrapInfo) (s : State)
  | blockAll (b : Blk)
  | hold (s : State) (stalled : Bool)
  | fatal (c : Cause) (s : State)
  deriving DecidableEq, Repr

/-- Every selected thread takes the same cause. -/
def trapSel (s : State) (p : Pass) (i : TrapInfo) : State :=
  (p.sel.foldl (fun s t => s.takeTrap { gk := p.gk, thr := t } i) s).withSel []

/-- Advance every selected thread. -/
def advanceSel (s : State) (p : Pass) : State :=
  s.modGroup p.gk (fun g => g.mapThreads (fun t th => if p.sel.contains t then th.advance else th))

/-- A word whose tile predicate is false retires on the selected threads (07 R208); those in the middle of a chain take ILLOP
(R199). -/
def retireSel (s : State) (p : Pass) : State :=
  let stay := p.sel.filter (fun t => !p.mid.contains t)
  let s := p.sel.foldl (fun (s : State) t =>
    if p.mid.contains t then s.takeTrap { gk := p.gk, thr := t } (illop p.pc p.word) else s) s
  (advanceSel s { p with sel := stay }).withSel stay

/-- ICONV (R178) on the selected threads, in increasing index; those in the middle of a chain take ILLOP (07 R199). -/
def State.iconv (s : State) (p : Pass) : State :=
  let s := p.sel.foldl (fun (s : State) t =>
    let th : ThreadKey := { gk := p.gk, thr := t }
    if p.mid.contains t then s.takeTrap th (illop p.pc p.word)
    else s.supRecord th .iconv false false (s.thread th).pc 0 0) s
  (s.markFault p.gk.team.job .iconv).killGroup p.gk

/-- A group-collective meaning, checked in the order of 11 R313: ILLOP for the encoding or for what the group did not
declare, then a false tile predicate retires it (07 R208), then ICONV (R178), then the action of the group. -/
def execColl (s : State) (i : Instr) (k : BitVec 4) (undeclared : Pass → Group → Bool) (act : Pass → Group → Coll) :
    Host.Outcome State Fault Refusal :=
  withPass s (fun p g =>
    if s.forbids p.gk i || undeclared p g then trapSel s p (illop p.pc p.word)
    else if !g.kp k then retireSel s p
    else if p.sel.length != 32 || !p.mid.isEmpty then (s.iconv p).withSel []
    else
      match act p g with
      | .done s => advanceSel s p
      | .trapAll i => trapSel s p i
      | .poisonAll i s => trapSel s p i
      | .blockAll b => (p.sel.foldl (fun s t => s.block { gk := p.gk, thr := t } b) s).withSel []
      | .hold s st => s.holdSet p [] st
      | .fatal c s => (s.fatal p.gk p.sel c).withSel [])

end Sys2Proof.Machine
end

