-- ==== Sys2Proof/Machine/Trace.lean ====
section
/-! DEFINITION. What the machine reports of a running program: trace records (16 R418, R419), debug stops (R416),
sketches (R420, R421), latency histograms and their trigger (R423, R424), crossbar assertions (R425, R426). -/

namespace Sys2Proof.Machine

/-- Write one trace record to the ring, or drop and count it (R418, R419). -/
def State.trace (s : State) (th : ThreadKey) (pc : Pc) (value code type : Nat) : State :=
  let r := s.ring
  let at_ := r.tbase * 65536 + r.wptr % 2 ^ r.tsize
  if !r.ten || r.wptr - r.rptr = 2 ^ r.tsize || at_ + 32 > Config.deviceBytes then s.countDev 7 1
  else
    let t := s.thread th
    let d3 := s.thrName th + s.ctxOf th.gk.team.job % 4096 * 2 ^ 36 + type * 2 ^ 48 + code % 32 * 2 ^ 51 + t.depth % 256 * 2 ^ 56
    let bs := leBytes 8 s.cycle ++ leBytes 8 pc.toNat ++ leBytes 8 value ++ leBytes 8 d3
    let s := (s.writePhys 0 at_ bs).dropL1 at_ 32
    { s with ring := { r with wptr := r.wptr + 32 } }

/-- A thread stops for the debugger, with its record (R416); a trigger has written its own (R424). -/
def State.debugStopAs (s : State) (th : ThreadKey) (code type : Nat) : State :=
  let t := s.thread th
  if !t.live || t.stop.isSome then s.modThread th (fun t => { t with dreq := none })
  else
    let s := if type = 4 then s else s.trace th t.pc 0 code type
    (s.stopThread th true t.pc t.pc).modThread th (fun t => { t with dreq := none, step := false })

/-- Is a thread held inside an instruction that has not finished? -/
def Group.holds (g : Group) (t : Nat) : Bool :=
  match g.hold with
  | some h => h.2.contains t && !g.done.contains t && decide ((g.thr t).pc = h.1)
  | none => false

/-- Carry out a requested stop where the thread stands at an instruction boundary (R416). -/
def State.stopIfDue (s : State) (th : ThreadKey) : State :=
  match s.group th.gk with
  | some g =>
    match (g.thr th.thr).dreq with
    | some ty => if g.holds th.thr && (g.thr th.thr).blk.isNone then s else s.debugStopAs th 0 ty
    | none => s
  | none => s

/-- A sketch row's counter for a key (R421). -/
def sketchIx (seeds row key : Nat) : Nat :=
  let m := 2 ^ 61 - 1
  let a := Config.seed seeds row 0 % (m - 1) + 1
  let b := Config.seed seeds row 1 % m
  ((a * key + b) % m) % 4096

/-- Add a weight to the sketch of a core for an event of a thread at a PC (R420). -/
def State.sketch (s : State) (th : ThreadKey) (pc : Pc) (ev w : Nat) : State :=
  let n := s.coreOf th.gk.team
  let c := s.core n
  let d := c.dbg0.toNat
  if bit d 2 && bits d 6 4 = ev && (bit d 20 || bits d 19 8 = s.ctxOf th.gk.team.job) then
    let key := if bit d 7 then th.gk.team.job else pc.toNat / 4
    s.modCore n (fun c => { c with sketch := (List.range 4).foldl (fun sk i =>
      let ix := sketchIx c.seeds i key
      let v := (sk.find? (fun e => e.1 == (i, ix))).map (fun e => e.2) |>.getD 0
      sk.filter (fun e => e.1 != (i, ix)) ++ [((i, ix), min (v + w) (2 ^ 48 - 1))]) c.sketch })
  else s

/-- The counts of a histogram engine: 32 bins. -/
def Core.bins (c : Core) (e : Nat) : List Nat := c.hist.getD e (List.replicate 32 0)

/-- The bin of a latency (R423). -/
def latBin (l : Nat) : Nat := min 31 (log2Floor (max l 1))

/-- The threshold bin of a percentile (R424). -/
def threshold (bins : List Nat) (pct : Nat) : Nat :=
  let n := bins.sum
  let target := cdiv (pct * n) 1024
  ((List.range 32).find? (fun b => decide (target ≤ (bins.take (b + 1)).sum))).getD 31

/-- The crossbar lines that a source asserts: their actions are due within 64 cycles (R425, R426). -/
def State.assertLines (s : State) (src : Nat) (core : Option Nat) : State :=
  let ls := (List.range 16).filter (fun j =>
    let v := (tabGet 0#64 s.xlines j).toNat
    bit v 10 && bits v 9 0 = src)
  { s with xpend := s.xpend ++ ls.map (fun j => (j, core, s.cycle + 64)) }

/-- A stop is requested of a thread (R416): at once where it is BLOCKED, else at its next instruction boundary; a thread that
has ended or is stopped is left as it is. -/
def State.requestStop (s : State) (type : Nat) (th : ThreadKey) : State :=
  let t := s.thread th
  if !t.live || t.stop.isSome then s
  else if t.blk.isSome then s.debugStopAs th 0 type
  else s.modThread th (fun t => { t with dreq := t.dreq <|> some type })

/-- A completion on an engine of a core (R423): it is counted at the end of the cycle, where histograms are enabled. n is the
number of requests that complete as one. -/
def State.completed (s : State) (core eng : Nat) (th : ThreadKey) (pc : Pc) (t0 : Nat) (n : Nat := 1) : State :=
  if bit (s.core core).dbg0.toNat 3 then
    { s with compl := s.compl ++ List.replicate n { core := core, eng := eng, thr := th, pc := pc, lat := max 1 (s.cycle - t0) } }
  else s

/-- Does a completion fire the trigger of its core (R424)? -/
def Core.fires (c : Core) (x : Completion) : Bool :=
  let bins := c.bins x.eng
  let d7 := c.dbg7.toNat
  bit c.dbg0.toNat 3 && bit d7 13 && bits d7 12 10 == x.eng && decide (bits d7 63 16 ≤ bins.sum)
    && decide (threshold bins (bits d7 9 0) < latBin x.lat)

/-- A completion is counted (R423, R424): the trigger is tested first. -/
def State.countOne (s : State) (x : Completion) : State :=
  let c := s.core x.core
  let d7 := c.dbg7.toNat
  let s := if c.fires x then
      let s := s.trace x.thr x.pc x.lat x.eng 4
      let s := if bit d7 14 then s.requestStop 4 x.thr else s
      if bit d7 15 then s.assertLines x.core (some x.core) else s
    else s
  s.modCore x.core (fun c =>
    { c with hist := (List.range 6).map (fun e =>
        if e = x.eng then updAt (c.bins e) (latBin x.lat) (fun v => min (v + 1) (2 ^ 32 - 1)) else c.bins e) })

/-- Does a completion come before another of its cycle that happened later (R423)? By engine; the commands of the copy, gather and
drain streams, which perform them in order (05 R152), in the order of the stream, the others by thread index. -/
def Completion.before (a b : Completion) : Bool :=
  decide (a.eng < b.eng) || (a.eng == b.eng && (decide (1 ≤ a.eng && a.eng ≤ 3) || decide (a.thr.thr ≤ b.thr.thr)))

/-- Insert a completion in the order in which those of its cycle are counted. -/
def insertCompletion (x : Completion) : List Completion → List Completion
  | [] => [x]
  | y :: ys => if y.before x then y :: insertCompletion x ys else x :: y :: ys

/-- The completions of a cycle are counted one at a time (R423). -/
def State.countAll (s : State) : State :=
  (s.compl.foldl (fun l x => insertCompletion x l) []).foldl State.countOne { s with compl := [] }

end Sys2Proof.Machine
end

