-- ==== Sys2Proof/Machine/Flags.lean ====
section
/-! DEFINITION. Conditions and status: compare conditions (07 R211, 08 R240), predicate logic (R241), and the control
words with FPSTAT among them (07 R214-R216, 08 R253, R254). -/

namespace Sys2Proof.Machine

/-! ### Conditions -/

/-- CMP condition cc of two values of width w (R211). -/
def condition (cc : BitVec 4) (w a b : Nat) : Bool :=
  if cc = 0#4 then a == b
  else if cc = 1#4 then a != b
  else if cc = 2#4 then decide (sextN w a < sextN w b)
  else if cc = 3#4 then decide (sextN w a ≤ sextN w b)
  else if cc = 4#4 then decide (sextN w a > sextN w b)
  else if cc = 5#4 then decide (sextN w a ≥ sextN w b)
  else if cc = 6#4 then decide (a < b)
  else if cc = 7#4 then decide (a ≤ b)
  else if cc = 8#4 then decide (a > b)
  else decide (a ≥ b)

/-- A result in P1 and its complement in P2 (R240, R241). -/
def Thread.setPair (th : Thread) (p1 p2 : BitVec 3) (v : Bool) : Thread := (th.setPred p1 v).setPred p2 (!v)

/-- FCMP condition cc of an ordering; an unordered pair satisfies NE and UNO alone (R211, 10 R296). -/
def fcondition (cc : BitVec 3) (o : Option Ordering) : Bool :=
  match o with
  | none => cc == 1#3 || cc == 7#3
  | some o =>
    if cc = 0#3 then o == .eq
    else if cc = 1#3 then o != .eq
    else if cc = 2#3 then o == .lt
    else if cc = 3#3 then o != .gt
    else if cc = 4#3 then o == .gt
    else if cc = 5#3 then o != .lt
    else cc == 6#3

/-! ### Control words (R214) -/

/-- Bits of FPSTAT that can be written (R216, 00 R6). -/
def fpstatMask : Nat := 0x13F

/-- RANGEE of FPSTAT (R216). -/
def Thread.rangee (th : Thread) : Bool := th.fpstat.getLsbD 8

/-- A list register's count as OLCNT shows it; an undeclared one reads 0. -/
def Group.olCount (g : Group) (n : Nat) : Nat := ((g.ols[n]?).map (fun o => o.cnt)).getD 0

/-- The QSTAT control word of a thread (R214): bit n for a present head of a queue its group consumes, bit 32 + n for
a queue its group produces to which a push would block. -/
def State.qstatWord (s : State) (th : ThreadKey) : Nat :=
  match s.team th.gk.team with
  | none => 0
  | some t =>
    ((List.range 32).map (fun n =>
      match t.queues.find? (fun q : Queue => q.ref.name == n && (q.prod == th.gk || q.cons == th.gk)) with
      | none => 0
      | some q =>
        let f := q.fifo (q.lane th.thr)
        (if q.cons = th.gk ∧ f.head.isSome then 2 ^ n else 0)
          + (if q.prod = th.gk ∧ !f.room q.limit 1 then 2 ^ (32 + n) else 0))).sum

/-- A control word as a thread reads it. -/
def State.csrGet (s : State) (th : ThreadKey) (num : Nat) : Nat :=
  let k := th.gk
  let t := s.thread th
  if num = 0x000 then th.thr
  else if num = 0x001 then k.grp + (if k.exe then k.quad * 32 else 128)
  else if num = 0x002 then k.team.idx % 16
  else if num = 0x003 then s.coreOf k.team
  else if num = 0x004 then
    match s.job k.team.job with
    | some j =>
      let o := j.places.getD k.team.clu 0
      o % 24 + o / 24 * 2 ^ 5 + j.pipe.cw % 16 * 2 ^ 10 + j.pipe.ch % 16 * 2 ^ 14 + k.team.clu % 2 ^ 16 * 2 ^ 32
    | none => 0
  else if num = 0x005 then k.team.job % 2 ^ 32
  else if num = 0x006 then t.depth
  else if num = 0x010 then s.cycle % 2 ^ 64
  else if num = 0x011 then ((s.job k.team.job).map (fun j => j.left % 2 ^ 48)).getD 0
  else if num = 0x020 then t.fpstat.toNat
  else if num = 0x021 then
    match s.group k with
    | some g => g.olCount 0 + g.olCount 1 * 2 ^ 8
    | none => 0
  else if num = 0x022 then s.qstatWord th
  else if num = 0x030 then ((s.team k.team).map (fun t => t.wdog)).getD 0
  else ((s.group k).map (fun g => g.uvec.toNat)).getD 0

/-- An access to OLCNT takes its place among the instructions that use the list registers (08 R254): it reads or writes every
declared list under the states of 06 R185 and R186. Its write discards the poison of a list. The threads that take ARRAY are those
that perform the word (14 R395). -/
def State.listReady (s : State) (takers : List Nat) (th : ThreadKey) (num : Nat) (write : Bool) (k : State → Act) : Act :=
  match s.group th.gk with
  | none => k s
  | some g =>
    let pc := (s.thread th).pc
    if num != 0x021 then k s
    else if g.ended then .out s
    else match (List.range g.ols.length).find? (fun n =>
        match (g.ol n).st with
        | .full => false
        | .poisoned _ _ => !write
        | _ => true) with
      | some n =>
        match (g.ol n).st with
        | .full => k s
        | .transit _ _ => if write then .out (s.block th (.olWrite n)) else .hold s false
        | .wait _ _ => .out (s.block th (if write then .olWrite n else .olRead n))
        | .poisoned p o => Act.raise (s.modGroup th.gk (fun g => g.raiseOl n)) th (.ofPoison p true o pc pc)
      | none =>
        if g.ols.any (fun o => o.ecc) then .out (s.fatal th.gk takers .array) else k s

/-- The i-th free word from a free value on. -/
def freeWord (fresh i : Nat) : Word := BitVec.ofNat 32 ((Config.free (fresh + i / 16)).toNat / 2 ^ (32 * (i % 16)))

/-- The count of a list register is written, at most 64. Where the list is POISONED the write discards its poison, and its
entries hold free values (06 R185, R186 row 14). -/
def OlReg.setCount (o : OlReg) (n fresh : Nat) : OlReg :=
  match o.st with
  | .poisoned _ _ => { o with cnt := min n 64, es := (List.range 64).map (freeWord fresh), st := .full }
  | _ => { o with cnt := min n 64 }

/-- The poison of a list register. -/
def OlReg.poison (o : OlReg) : List Poison :=
  match o.st with
  | .poisoned p _ => [p]
  | _ => []

/-- Write OLCNT: the counts of both lists (07 R214). -/
def State.setCounts (s : State) (gk : GroupKey) (v : Nat) : State :=
  match s.group gk with
  | none => s
  | some g =>
    let ps := g.ols.flatMap OlReg.poison
    let fr := s.fresh
    let s := ps.foldl (fun s p => s.dropSlot gk.team (.poison p)) s
    let s := s.modGroup gk (fun g => { g with
      ols := updAt (updAt g.ols 0 (fun o => o.setCount (bits v 6 0) fr)) 1 (fun o => o.setCount (bits v 14 8) (fr + 4)) })
    if ps.isEmpty then s else s.bumpBy 8

/-- Write a control word: reserved fields are ignored (00 R6), WDOG and OLCNT are clamped (06 R183, R214). -/
def State.csrSet (s : State) (th : ThreadKey) (num v : Nat) : State :=
  if num = 0x020 then s.modThread th (fun t => { t with fpstat := BitVec.ofNat 64 (v &&& fpstatMask) })
  else if num = 0x021 then
    s.setCounts th.gk v
  else if num = 0x030 then s.modTeam th.gk.team (fun t => { t with wdog := max 16 (min 40 (bits v 5 0)) })
  else if num = 0x031 then s.modGroup th.gk (fun g => { g with uvec := BitVec.ofNat 64 (bits v 56 2 * 4) })
  else s

end Sys2Proof.Machine
end

