-- ==== Sys2Proof/Machine/Control.lean ====
section
/-! DEFINITION. Branches, calls, YIELD, traps and handlers, breakpoints and markers (08 R225-R239). -/

namespace Sys2Proof.Machine

/-! ### Shared -/

/-- The target of a B-format word (R225). -/
def branchTarget (pc : Pc) (off : BitVec 20) : Pc := pc + (off.signExtend 57) * 4

/-- The target that a register names (R228): 57 bits, or the 4 GiB region of the word in the execute slice. -/
def regTarget (exe : Bool) (pc : Pc) (a : Dword) : Pc :=
  if exe then (pc >>> 32) <<< 32 ||| (a.setWidth 32).setWidth 57 else a.setWidth 57

/-- A call (R225): the return stack takes PC + 4, DEPTH rises, the PC is the target. -/
def Thread.callTo (t : Thread) (target : Pc) : Thread :=
  { (t.goto target) with
    rstack := updAt t.rstack t.depth (fun _ => t.pc + 4), depth := t.depth + 1
    rsEcc := t.rsEcc.filter (· != t.depth) }

/-- Is the return stack full (R225, R226)? -/
def Thread.full (t : Thread) : Bool := t.depth == t.rstack.length

/-- A return (R229). -/
def Thread.retFrom (t : Thread) : Thread :=
  { (t.goto (t.rstack.getD (t.depth - 1) 0)) with depth := t.depth - 1 }

/-- The capture that a taken backward branch starts (06 R180). -/
def Group.capture (g : Group) (pc target : Pc) : Group :=
  let lo := target.toNat / 12 * 12
  let hi := pc.toNat / 12 * 12
  if target.toNat ≤ pc.toNat ∧ (hi - lo) / 12 < 16 then
    match g.loop with
    | some l => if l.lo = lo ∧ l.hi = hi then g else { g with loop := some { lo := lo, hi := hi, words := [] } }
    | none => { g with loop := some { lo := lo, hi := hi, words := [] } }
  else g

/-- A guard and no operand. -/
def opG (g : BitVec 3) : Op := { guard := g, srcs := [], dsts := [] }

/-! ### Meanings -/

/-- BRA (R225, 06 R180). -/
def execBra (f : OpBr) (s : State) : Host.Outcome State Fault Refusal :=
  withPass s (fun p g =>
    let target := branchTarget p.pc f.off
    let s := runMap s p g (s.forbids p.gk (.bra f)) (fun _ => opG f.g) (fun _ _ _ th => th.goto target)
    if p.sel.any (fun t => (g.thr t).pred f.g && !p.mid.contains t) then s.modGroup p.gk (fun g => g.capture p.pc target) else s)

/-- CALL (R225). -/
def execCall (f : OpBr) (s : State) : Host.Outcome State Fault Refusal :=
  execLanes s (.call f) (opG f.g) (fun s th =>
    let t := s.thread th
    if t.full then Act.cause s th .calldepth
    else .done (s.modThread th (fun t => t.callTo (branchTarget t.pc f.off))))

/-- NOP (R232). -/
def execNop (f : OpG) (s : State) : Host.Outcome State Fault Refusal :=
  execMap s (.nop f) (opG f.g) (fun _ _ _ th => th.advance)

/-- JMP (R228). -/
def execJmp (f : OpA) (s : State) : Host.Outcome State Fault Refusal :=
  execLanes s (.jmp f) { guard := f.g, srcs := [srcP f.a f.pa], dsts := [] } (fun s th =>
    let t := s.thread th
    let target := regTarget th.gk.exe t.pc (t.rd th.gk.exe f.a.toNat)
    if target.extractLsb' 0 2 != 0#2 then Act.illop s th
    else .done (s.modThread th (fun t => t.goto target)))

/-- CALLI (R228). -/
def execCalli (f : OpA) (s : State) : Host.Outcome State Fault Refusal :=
  execLanes s (.calli f) { guard := f.g, srcs := [srcP f.a f.pa], dsts := [] } (fun s th =>
    let t := s.thread th
    let target := regTarget th.gk.exe t.pc (t.rd th.gk.exe f.a.toNat)
    if target.extractLsb' 0 2 != 0#2 then Act.illop s th
    else if t.full then Act.cause s th .calldepth
    else .done (s.modThread th (fun t => t.callTo target)))

/-- RET (R229, 14 R398). -/
def execRet (f : OpG) (s : State) : Host.Outcome State Fault Refusal :=
  execLanes s (.ret f) (opG f.g) (fun s th =>
    let t := s.thread th
    if t.depth = 0 then Act.cause s th .calldepth
    else if t.rsEcc.contains (t.depth - 1) then Act.raise s th (.eccAt Config.eccVa t.pc)
    else .done (s.modThread th Thread.retFrom))

/-- YIELD (R232, 06 R174, R182). -/
def execYield (f : OpG) (s : State) : Host.Outcome State Fault Refusal :=
  withPass s (fun p g =>
    let illegal := s.forbids p.gk (.yield f)
    let mine := p.sel.filter (fun t => (opG f.g).meet illegal g p t = some .go)
    let s := runMap s p g illegal (fun _ => opG f.g) (fun _ _ _ th => th)
    if mine.isEmpty then s
    else s.modGroup p.gk (fun g => { g.onYield mine with wcount := 0 }))

/-- TRAP (R233). -/
def execTrap (f : OpACode) (s : State) : Host.Outcome State Fault Refusal :=
  execLanes s (.trap f) { guard := f.g, srcs := [srcP f.a f.pa], dsts := [] } (fun s th =>
    let t := s.thread th
    Act.raise s th { TrapInfo.at .trap t.pc with
      resume := t.pc + 4, hc := f.b.toNat * 2 ^ 16, r29 := t.rn th.gk.exe f.a.toNat })

/-- URET (R237). -/
def execUret (f : OpG) (s : State) : Host.Outcome State Fault Refusal :=
  execLanes s (.uret f) (opG f.g) (fun s th =>
    if (s.thread th).uin then .done (s.modThread th Thread.uret) else Act.illop s th)

/-- SETUV (R238). -/
def execSetuv (f : OpDA) (s : State) : Host.Outcome State Fault Refusal :=
  execLanes s (.setuv f) { guard := f.g, srcs := [srcP f.a f.pa], dsts := [f.d.toNat] } (fun s th =>
    let t := s.thread th
    let exe := th.gk.exe
    let a := t.rd exe f.a.toNat
    let target := regTarget exe t.pc a
    if target.extractLsb' 0 2 != 0#2 then Act.illop s th
    else
      let old := ((s.group th.gk).map (fun g => g.uvec)).getD 0
      let s := s.modGroup th.gk (fun g => { g with uvec := if a = 0 then 0 else target.setWidth 64 })
      .done (s.modThread th (fun t => (t.wr exe f.d.toNat old false).advance)))

/-- BKPT (R234, 16 R416). -/
def execBkpt (f : OpCode) (s : State) : Host.Outcome State Fault Refusal :=
  execLanes s (.bkpt f) (opG f.g) (fun s th =>
    if (s.core (s.coreOf th.gk.team)).dbg0.getLsbD 0 then .out (s.debugStopAs th f.b.toNat 1) else Act.next s th)

/-- Is marker tracing enabled on the core of the pass (16 R415)? -/
def State.marking (s : State) : Bool :=
  (s.pass.map (fun p => (s.core (s.coreOf p.gk.team)).dbg0.getLsbD 1)).getD false

/-- MARK (R235, 16 R418): with marker tracing disabled a NOP, which reads no register. -/
def execMark (f : OpACode) (s : State) : Host.Outcome State Fault Refusal :=
  execLanes s (.mark f) { guard := f.g, srcs := if s.marking then [srcP f.a f.pa] else [], dsts := [] } (fun s th =>
    let t := s.thread th
    let s := if s.marking
      then s.trace th t.pc (t.rn th.gk.exe f.a.toNat) f.b.toNat 0 else s
    Act.next s th)

/-- ICSYNC (R239): the group's capture is released. -/
def execIcsync (f : OpG) (s : State) : Host.Outcome State Fault Refusal :=
  withPass s (fun p g =>
    let s := runMap s p g (s.forbids p.gk (.icsync f)) (fun _ => opG f.g) (fun _ _ _ th => th.advance)
    if p.sel.any (fun t => (g.thr t).pred f.g && !p.mid.contains t) then s.modGroup p.gk (fun g => { g with loop := none }) else s)

end Sys2Proof.Machine
end

