-- ==== Sys2Proof/Machine/Integer.lean ====
section
/-! DEFINITION. Predicates, lane instructions, integer arithmetic, immediates, addresses and control-word access
(08 R240-R254). -/

namespace Sys2Proof.Machine

/-! ### Arithmetic on values of width w -/

/-- Low w bits of an integer. -/
def lowBits (w : Nat) (x : Int) : Nat := wrapN w x

/-- Signed high half of a product (R245). -/
def mulHiS (w a b : Nat) : Nat := wrapN w (sextN w a * sextN w b / (2 ^ w : Nat))

/-- Unsigned high half of a product (R245). -/
def mulHiU (w a b : Nat) : Nat := a * b / 2 ^ w % 2 ^ w

/-- Signed quotient (R246): truncating, -1 for a zero divisor, M for M / -1. -/
def divS (w a b : Nat) : Nat := if b = 0 then 2 ^ w - 1 else wrapN w ((sextN w a).tdiv (sextN w b))

/-- Unsigned quotient (R246). -/
def divU (w a b : Nat) : Nat := if b = 0 then 2 ^ w - 1 else a / b

/-- Signed remainder (R246). -/
def remS (w a b : Nat) : Nat := if b = 0 then a else wrapN w ((sextN w a).tmod (sextN w b))

/-- Unsigned remainder (R246). -/
def remU (a b : Nat) : Nat := if b = 0 then a else a % b

/-- Magnitude; that of M is M (R246). -/
def absS (w a : Nat) : Nat := wrapN w (sextN w a).natAbs

/-- Shift right with copies of the top bit (R248). -/
def sarN (w a n : Nat) : Nat := wrapN w (sextN w a / (2 ^ n : Nat))

/-- Rotate left (R248). -/
def rolN (w a n : Nat) : Nat := (a * 2 ^ n + a / 2 ^ (w - n)) % 2 ^ w

/-- Leading zeros (R248). -/
def clzN (w a : Nat) : Nat := if a = 0 then w else w - 1 - log2Floor a

/-- Set bits (R248). -/
def popcN (w a : Nat) : Nat := (maskList w a).length

/-- Bits reversed (R248). -/
def brevN (w a : Nat) : Nat := ((List.range w).map (fun i => b2n (a.testBit i) * 2 ^ (w - 1 - i))).sum

/-- BFX (R249): the field of length bits 14..8 of b, from bits 5..0 of b. -/
def bfxN (w a b : Nat) : Nat :=
  let pos := bits b 5 0
  let len := bits b 14 8
  (a % 2 ^ w / 2 ^ pos) % 2 ^ len

/-- BFI (R249). -/
def bfiN (w d a b : Nat) : Nat :=
  let pos := bits b 5 0
  let len := bits b 14 8
  if pos ≥ w then d
  else
    let n := min len (w - pos)
    d - (d / 2 ^ pos % 2 ^ n) * 2 ^ pos + (a % 2 ^ w % 2 ^ n) * 2 ^ pos

/-! ### Shared shapes -/

/-- The operands of a register word with two sources. -/
def rgOp (f : OpRG) : Op := { guard := f.g, srcs := [srcP f.a f.pa, srcP f.b f.pb], dsts := [f.d.toNat] }

/-- d from a and b. -/
def execBin (s : State) (i : Instr) (f : OpRG) (fn : Nat → Nat → Nat → Nat) : Host.Outcome State Fault Refusal :=
  execMap s i (rgOp f) (fun g _ _ th =>
    let e := g.key.exe
    (th.wn e f.d.toNat (fn (width e) (th.rn e f.a.toNat) (th.rn e f.b.toNat))
      (th.taintOf e f.a.toNat || th.taintOf e f.b.toNat)).advance)

/-- d from a, b and the old d (R223). -/
def execTern (s : State) (i : Instr) (f : OpRG) (fn : Nat → Nat → Nat → Nat → Nat) : Host.Outcome State Fault Refusal :=
  execMap s i { rgOp f with srcs := (rgOp f).srcs ++ [src f.d] } (fun g _ _ th =>
    let e := g.key.exe
    (th.wn e f.d.toNat (fn (width e) (th.rn e f.d.toNat) (th.rn e f.a.toNat) (th.rn e f.b.toNat))
      (th.taintOf e f.a.toNat || th.taintOf e f.b.toNat || th.taintOf e f.d.toNat)).advance)

/-- d from a. -/
def execUn (s : State) (i : Instr) (f : OpDA) (fn : Nat → Nat → Nat) : Host.Outcome State Fault Refusal :=
  execMap s i { guard := f.g, srcs := [srcP f.a f.pa], dsts := [f.d.toNat] } (fun g _ _ th =>
    let e := g.key.exe
    (th.wn e f.d.toNat (fn (width e) (th.rn e f.a.toNat)) (th.taintOf e f.a.toNat)).advance)

/-- d from d and the immediate (R250); rd says whether d is read. -/
def execImm (s : State) (i : Instr) (f : OpRI) (rd : Bool) (fn : Nat → Nat → BitVec 14 → Nat) :
    Host.Outcome State Fault Refusal :=
  execMap s i { guard := f.g, srcs := if rd then [src f.d] else [], dsts := [f.d.toNat] } (fun g _ _ th =>
    let e := g.key.exe
    (th.wn e f.d.toNat (fn (width e) (th.rn e f.d.toNat) f.imm) (rd && th.taintOf e f.d.toNat)).advance)

/-- Predicate logic on two predicates (R241). -/
def execPlop (s : State) (i : Instr) (f : OpPlop) (fn : Bool → Bool → Bool) : Host.Outcome State Fault Refusal :=
  execMap s i (opG f.g) (fun _ _ _ th => (th.setPair f.p1 f.p2 (fn (th.pred f.a) (th.pred f.b))).advance)

/-- A vote over the participants (R243). -/
def execVote (s : State) (i : Instr) (f : OpVote) (fn : List Bool → Bool) : Host.Outcome State Fault Refusal :=
  execMap s i (opG f.g) (fun g go _ th => (th.setPred f.d (fn (go.map (fun u => (g.thr u).pred f.a)))).advance)

/-- SHFL (R243, R244): source gives the source lane of a thread for its b. -/
def execShfl (s : State) (i : Instr) (f : OpRG) (source : Nat → Nat → Option Nat) : Host.Outcome State Fault Refusal :=
  execMap s i (rgOp f) (fun g go t th =>
    let e := g.key.exe
    let from_ := match source t (th.rn e f.b.toNat) with
      | some u => if go.contains u then g.thr u else th
      | none => th
    let taint := go.any (fun u => (g.thr u).taintOf e f.a.toNat || (g.thr u).taintOf e f.b.toNat)
    (th.wr e f.d.toNat (from_.rd e f.a.toNat) taint).advance)

/-- Access to a control word (R253): the half that SEL10[9] selects in the execute slice, the old value, the write. -/
def execCsrWrite (s : State) (i : Instr) (f : OpCsrw) (fn : Nat → Nat → Nat) : Host.Outcome State Fault Refusal :=
  let op : Op := { guard := f.g, srcs := [src f.a], dsts := [f.d.toNat] }
  let takers := s.actors i op
  execLanes s i op (fun s th =>
    let e := th.gk.exe
    let num := (f.sel.setWidth 9).toNat
    s.listReady takers th num true (fun s =>
      let old := s.csrGet th num
      let lo := if e && f.sel.getLsbD 9 then 32 else 0
      let part := old / 2 ^ lo % 2 ^ width e
      let new := fn part ((s.thread th).rn e f.a.toNat) % 2 ^ width e
      let s := s.csrSet th num (old - part * 2 ^ lo + new * 2 ^ lo)
      .done (s.modThread th (fun t => (t.wn e f.d.toNat part false).advance))))

/-! ### Predicates and lanes -/

/-- CMP (R240). -/
def execCmp (f : OpCmp) (s : State) : Host.Outcome State Fault Refusal :=
  execMap s (.cmp f) { guard := f.g, srcs := [srcP f.a f.pa, srcP f.b f.pb], dsts := [] } (fun g _ _ th =>
    let e := g.key.exe
    (th.setPair f.p1 f.p2 (condition f.cc (width e) (th.rn e f.a.toNat) (th.rn e f.b.toNat))).advance)

/-- PLOP.AND (R241). -/
def execPlopAnd (f : OpPlop) (s : State) : Host.Outcome State Fault Refusal :=
  execPlop s (.plopAnd f) f (fun a b => a && b)

/-- PLOP.OR (R241). -/
def execPlopOr (f : OpPlop) (s : State) : Host.Outcome State Fault Refusal :=
  execPlop s (.plopOr f) f (fun a b => a || b)

/-- PLOP.XOR (R241). -/
def execPlopXor (f : OpPlop) (s : State) : Host.Outcome State Fault Refusal :=
  execPlop s (.plopXor f) f (fun a b => a != b)

/-- PLOP.ANDN (R241). -/
def execPlopAndn (f : OpPlop) (s : State) : Host.Outcome State Fault Refusal :=
  execPlop s (.plopAndn f) f (fun a b => a && !b)

/-- VOTE.ANY (R243). -/
def execVoteAny (f : OpVote) (s : State) : Host.Outcome State Fault Refusal :=
  execVote s (.voteAny f) f (fun l => l.any id)

/-- VOTE.ALL (R243). -/
def execVoteAll (f : OpVote) (s : State) : Host.Outcome State Fault Refusal :=
  execVote s (.voteAll f) f (fun l => l.all id)

/-- VOTE.BALLOT (R243). -/
def execVoteBallot (f : OpBallot) (s : State) : Host.Outcome State Fault Refusal :=
  execMap s (.voteBallot f) { guard := f.g, srcs := [], dsts := [f.d.toNat] } (fun g go _ th =>
    (th.wn g.key.exe f.d.toNat ((go.map (fun u => if (g.thr u).pred f.a then 2 ^ u else 0)).sum) false).advance)

/-- ELECT (R243). -/
def execElect (f : OpElect) (s : State) : Host.Outcome State Fault Refusal :=
  execMap s (.elect f) (opG f.g) (fun _ go t th => (th.setPred f.d (go.all (fun u => decide (t ≤ u)))).advance)

/-- SHFL.IDX (R243). -/
def execShflIdx (f : OpRG) (s : State) : Host.Outcome State Fault Refusal :=
  execShfl s (.shflIdx f) f (fun _ b => some (b % 32))

/-- SHFL.UP (R243). -/
def execShflUp (f : OpRG) (s : State) : Host.Outcome State Fault Refusal :=
  execShfl s (.shflUp f) f (fun t b => if b > t then none else some (t - b))

/-- SHFL.DOWN (R243). -/
def execShflDown (f : OpRG) (s : State) : Host.Outcome State Fault Refusal :=
  execShfl s (.shflDown f) f (fun t b => if t + b > 31 then none else some (t + b))

/-- SHFL.XOR (R243). -/
def execShflXor (f : OpRG) (s : State) : Host.Outcome State Fault Refusal :=
  execShfl s (.shflXor f) f (fun t b => some (t ^^^ (b % 32)))

/-! ### Control words -/

/-- CSRR (R253). -/
def execCsrr (f : OpCsrr) (s : State) : Host.Outcome State Fault Refusal :=
  let op : Op := { guard := f.g, srcs := [], dsts := [f.d.toNat] }
  let takers := s.actors (.csrr f) op
  execLanes s (.csrr f) op (fun s th =>
    let e := th.gk.exe
    let num := (f.sel.setWidth 9).toNat
    s.listReady takers th num false (fun s =>
      let lo := if e && f.sel.getLsbD 9 then 32 else 0
      let v := s.csrGet th num / 2 ^ lo
      .done (s.modThread th (fun t => (t.wn e f.d.toNat v false).advance))))

/-- CSRW (R253). -/
def execCsrw (f : OpCsrw) (s : State) : Host.Outcome State Fault Refusal :=
  execCsrWrite s (.csrw f) f (fun _ a => a)

/-- CSRS (R253). -/
def execCsrs (f : OpCsrw) (s : State) : Host.Outcome State Fault Refusal :=
  execCsrWrite s (.csrs f) f (fun old a => old ||| a)

/-- CSRC (R253). -/
def execCsrc (f : OpCsrw) (s : State) : Host.Outcome State Fault Refusal :=
  execCsrWrite s (.csrc f) f (fun old a => old - (old &&& a))

/-! ### Integer arithmetic -/

/-- ADD (R245). -/
def execAdd (f : OpRG) (s : State) : Host.Outcome State Fault Refusal :=
  execBin s (.add f) f (fun _ a b => a + b)

/-- SUB (R245). -/
def execSub (f : OpRG) (s : State) : Host.Outcome State Fault Refusal :=
  execBin s (.sub f) f (fun w a b => lowBits w ((a : Int) - b))

/-- MUL (R245). -/
def execMul (f : OpRG) (s : State) : Host.Outcome State Fault Refusal :=
  execBin s (.mul f) f (fun _ a b => a * b)

/-- MULHI.s (R245). -/
def execMulhiS (f : OpRG) (s : State) : Host.Outcome State Fault Refusal := execBin s (.mulhiS f) f mulHiS

/-- MULHI.u (R245). -/
def execMulhiU (f : OpRG) (s : State) : Host.Outcome State Fault Refusal := execBin s (.mulhiU f) f mulHiU

/-- MAD (R245). -/
def execMad (f : OpRG) (s : State) : Host.Outcome State Fault Refusal :=
  execTern s (.mad f) f (fun _ d a b => d + a * b)

/-- DIVS (R246). -/
def execDivs (f : OpRG) (s : State) : Host.Outcome State Fault Refusal := execBin s (.divs f) f divS

/-- DIVU (R246). -/
def execDivu (f : OpRG) (s : State) : Host.Outcome State Fault Refusal := execBin s (.divu f) f divU

/-- REMS (R246). -/
def execRems (f : OpRG) (s : State) : Host.Outcome State Fault Refusal := execBin s (.rems f) f remS

/-- REMU (R246). -/
def execRemu (f : OpRG) (s : State) : Host.Outcome State Fault Refusal :=
  execBin s (.remu f) f (fun _ a b => remU a b)

/-- MIN.s (R246). -/
def execMinS (f : OpRG) (s : State) : Host.Outcome State Fault Refusal :=
  execBin s (.minS f) f (fun w a b => if sextN w a ≤ sextN w b then a else b)

/-- MIN.u (R246). -/
def execMinU (f : OpRG) (s : State) : Host.Outcome State Fault Refusal :=
  execBin s (.minU f) f (fun _ a b => min a b)

/-- MAX.s (R246). -/
def execMaxS (f : OpRG) (s : State) : Host.Outcome State Fault Refusal :=
  execBin s (.maxS f) f (fun w a b => if sextN w a ≥ sextN w b then a else b)

/-- MAX.u (R246). -/
def execMaxU (f : OpRG) (s : State) : Host.Outcome State Fault Refusal :=
  execBin s (.maxU f) f (fun _ a b => max a b)

/-- ABS (R246). -/
def execAbs (f : OpDA) (s : State) : Host.Outcome State Fault Refusal := execUn s (.abs f) f absS

/-- SEL (R247): every selected thread executes it. -/
def execSel (f : OpSel) (s : State) : Host.Outcome State Fault Refusal :=
  execMap s (.sel f) { guard := 7#3, srcs := [srcP f.a f.pa, srcP f.b f.pb], dsts := [f.d.toNat] } (fun g _ _ th =>
    let e := g.key.exe
    (th.wn e f.d.toNat (if th.pred f.pc then th.rn e f.a.toNat else th.rn e f.b.toNat)
      (th.taintOf e f.a.toNat || th.taintOf e f.b.toNat)).advance)

/-! ### Logic, shifts, bit fields -/

/-- AND (R248). -/
def execAnd (f : OpRG) (s : State) : Host.Outcome State Fault Refusal := execBin s (.and f) f (fun _ a b => a &&& b)

/-- OR (R248). -/
def execOr (f : OpRG) (s : State) : Host.Outcome State Fault Refusal := execBin s (.or f) f (fun _ a b => a ||| b)

/-- XOR (R248). -/
def execXor (f : OpRG) (s : State) : Host.Outcome State Fault Refusal := execBin s (.xor f) f (fun _ a b => a ^^^ b)

/-- ANDN (R248). -/
def execAndn (f : OpRG) (s : State) : Host.Outcome State Fault Refusal :=
  execBin s (.andn f) f (fun _ a b => a - (a &&& b))

/-- SHL (R248). -/
def execShl (f : OpRG) (s : State) : Host.Outcome State Fault Refusal :=
  execBin s (.shl f) f (fun w a b => a * 2 ^ (b % w))

/-- SHR (R248). -/
def execShr (f : OpRG) (s : State) : Host.Outcome State Fault Refusal :=
  execBin s (.shr f) f (fun w a b => a / 2 ^ (b % w))

/-- SAR (R248). -/
def execSar (f : OpRG) (s : State) : Host.Outcome State Fault Refusal :=
  execBin s (.sar f) f (fun w a b => sarN w a (b % w))

/-- ROL (R248). -/
def execRol (f : OpRG) (s : State) : Host.Outcome State Fault Refusal :=
  execBin s (.rol f) f (fun w a b => rolN w a (b % w))

/-- CLZ (R248). -/
def execClz (f : OpDA) (s : State) : Host.Outcome State Fault Refusal := execUn s (.clz f) f clzN

/-- POPC (R248). -/
def execPopc (f : OpDA) (s : State) : Host.Outcome State Fault Refusal := execUn s (.popc f) f popcN

/-- BREV (R248). -/
def execBrev (f : OpDA) (s : State) : Host.Outcome State Fault Refusal := execUn s (.brev f) f brevN

/-- MOV (R248). -/
def execMov (f : OpDA) (s : State) : Host.Outcome State Fault Refusal := execUn s (.mov f) f (fun _ a => a)

/-- BFX (R249). -/
def execBfx (f : OpRG) (s : State) : Host.Outcome State Fault Refusal := execBin s (.bfx f) f bfxN

/-- BFI (R249). -/
def execBfi (f : OpRG) (s : State) : Host.Outcome State Fault Refusal := execTern s (.bfi f) f bfiN

/-! ### Immediates and addresses -/

/-- MOVI (R250). -/
def execMovi (f : OpRI) (s : State) : Host.Outcome State Fault Refusal :=
  execImm s (.movi f) f false (fun w _ i => lowBits w i.toInt)

/-- MOVHI (R250); its result is untainted (R252, 05 R150). -/
def execMovhi (f : OpRI) (s : State) : Host.Outcome State Fault Refusal :=
  execMap s (.movhi f) { guard := f.g, srcs := [src f.d], dsts := [f.d.toNat] } (fun g _ _ th =>
    (th.wn g.key.exe f.d.toNat (th.rn g.key.exe f.d.toNat * 2 ^ 14 + f.imm.toNat) false).advance)

/-- ADD immediate (R250). -/
def execAddImm (f : OpRI) (s : State) : Host.Outcome State Fault Refusal :=
  execImm s (.addImm f) f true (fun w d i => lowBits w ((d : Int) + i.toInt))

/-- AND immediate (R250). -/
def execAndImm (f : OpRI) (s : State) : Host.Outcome State Fault Refusal :=
  execImm s (.andImm f) f true (fun w d i => d &&& lowBits w i.toInt)

/-- OR immediate (R250). -/
def execOrImm (f : OpRI) (s : State) : Host.Outcome State Fault Refusal :=
  execImm s (.orImm f) f true (fun _ d i => d ||| i.toNat)

/-- XOR immediate (R250). -/
def execXorImm (f : OpRI) (s : State) : Host.Outcome State Fault Refusal :=
  execImm s (.xorImm f) f true (fun _ d i => d ^^^ i.toNat)

/-- SHL immediate (R250). -/
def execShlImm (f : OpRI) (s : State) : Host.Outcome State Fault Refusal :=
  execImm s (.shlImm f) f true (fun _ d i => d * 2 ^ i.toNat)

/-- SHR immediate (R250). -/
def execShrImm (f : OpRI) (s : State) : Host.Outcome State Fault Refusal :=
  execImm s (.shrImm f) f true (fun _ d i => d / 2 ^ i.toNat)

/-- The offset of a MEM-format address (07 R206): OFF12 scaled by a width. -/
def memOffset (off : BitVec 12) (scale : Nat) : Int := off.toInt * (2 ^ scale : Nat)

/-- LEA (R251). -/
def execLea (f : OpLea) (s : State) : Host.Outcome State Fault Refusal :=
  execMap s (.lea f) { guard := 7#3, srcs := [src f.a], dsts := [f.d.toNat] } (fun _ _ _ th =>
    (th.wn false f.d.toNat (wrapN 64 ((th.rn false f.a.toNat : Int) + memOffset f.off f.w.toNat))
      (th.taintOf false f.a.toNat)).advance)

end Sys2Proof.Machine
end

