-- ==== Sys2Proof/Machine/Float.lean ====
section
/-! DEFINITION. FP32 and packed 16-bit arithmetic, functions, conversions, comparison, ROPE and AMRG
(10 R287-R299). -/

namespace Sys2Proof.Machine

/-! ### Operands and results -/

/-- MOD on a code with its sign at bit w - 1 (07 R204, R288). -/
def modCode (md : BitVec 2) (w c : Nat) : Nat :=
  let m := c % 2 ^ (w - 1)
  let s := c / 2 ^ (w - 1) % 2
  let s := if md = 0#2 then s else if md = 1#2 then 1 - s else if md = 2#2 then 0 else 1
  s * 2 ^ (w - 1) + m

/-- A result and its events in a thread. -/
def Thread.fpResult (th : Thread) (d : BitVec 5) (r : Nat × Nat) : Thread :=
  ((th.wn true d.toNat r.1 false).flag r.2).advance

/-- Convert an exact result and the validity of its operation. -/
def out (f : NumFmt) (r : FVal × Bool) : Nat × Nat := convert f r.1 r.2

/-- Two sources and a modifier. -/
def execFp2 (s : State) (i : Instr) (f : OpFp) (fn : Nat → Nat → Nat × Nat) : Host.Outcome State Fault Refusal :=
  execMap s i { guard := f.g, srcs := [srcP f.a f.pa, srcP f.b f.pb], dsts := [f.d.toNat] } (fun _ _ _ th =>
    th.fpResult f.d (fn (modCode f.md 32 (th.rn true f.a.toNat)) (th.rn true f.b.toNat)))

/-- One source and a modifier. -/
def execFp1 (s : State) (i : Instr) (f : OpFp1) (fn : Nat → Nat × Nat) : Host.Outcome State Fault Refusal :=
  execMap s i { guard := f.g, srcs := [srcP f.a f.pa], dsts := [f.d.toNat] } (fun _ _ _ th =>
    th.fpResult f.d (fn (modCode f.md 32 (th.rn true f.a.toNat))))

/-- The halves of a packed word, each computed on its own (R293); fn gets the halves of a, b and d. -/
def execHalf (s : State) (i : Instr) (f : OpFp) (readsD : Bool) (fn : Nat → Nat → Nat → Nat × Nat) :
    Host.Outcome State Fault Refusal :=
  execMap s i { guard := f.g, srcs := [srcP f.a f.pa, srcP f.b f.pb] ++ (if readsD then [src f.d] else []), dsts := [f.d.toNat] }
    (fun _ _ _ th =>
      let a := th.rn true f.a.toNat
      let b := th.rn true f.b.toNat
      let d := th.rn true f.d.toNat
      let lo := fn (modCode f.md 16 (a % 65536)) (b % 65536) (d % 65536)
      let hi := fn (modCode f.md 16 (a / 65536)) (b / 65536) (d / 65536)
      th.fpResult f.d (lo.1 + hi.1 * 65536, lo.2 ||| hi.2))

/-- One source, no modifier. -/
def execCvt (s : State) (i : Instr) (f : OpDA) (fn : Nat → Nat × Nat) : Host.Outcome State Fault Refusal :=
  execMap s i { guard := f.g, srcs := [srcP f.a f.pa], dsts := [f.d.toNat] } (fun _ _ _ th =>
    th.fpResult f.d (fn (th.rn true f.a.toNat)))

/-! ### FP32 arithmetic (R289, R290) -/

/-- minimumNumber and maximumNumber (R290): less says which of the two ordered operands is the answer. -/
def minMaxNum (max : Bool) (a b : Nat) : Nat × Nat :=
  let x := f32 a
  let y := f32 b
  let fl := if x.isSnan || y.isSnan then fNV else 0
  if x.isNan && y.isNan then (nan32, fl)
  else if x.isNan then (b, fl)
  else if y.isNan then (a, fl)
  else
    let aLess := match x.cmp y with
      | some .lt => true
      | some .eq => bit a 31 && !bit b 31
      | _ => false
    let bLess := match x.cmp y with
      | some .gt => true
      | some .eq => bit b 31 && !bit a 31
      | _ => false
    (if max then (if aLess then b else a) else (if bLess then b else a), fl)

/-- FCLASS mask (R290). -/
def fclassMask (c : Nat) : Nat :=
  let n := bit c 31
  match f32 c with
  | .nan s => if s then 2 ^ 8 else 2 ^ 9
  | .inf _ => if n then 2 ^ 0 else 2 ^ 7
  | .fin _ 0 _ => if n then 2 ^ 3 else 2 ^ 4
  | .fin _ _ _ => if bits c 30 23 = 0 then (if n then 2 ^ 2 else 2 ^ 5) else (if n then 2 ^ 1 else 2 ^ 6)

/-- The magnitude of a value rounded to an integer in a mode of R290: nearest even, zero, down, up. -/
def integral (mode : Nat) (neg : Bool) (m : Nat) (e : Int) : Nat :=
  if e ≥ 0 then m * 2 ^ e.toNat
  else
    let d := 2 ^ (-e).toNat
    let q := m / d
    let frac := m % d != 0
    if mode = 0 then rneGrid m e 0
    else if mode = 1 then q
    else if mode = 2 then (if neg && frac then q + 1 else q)
    else (if !neg && frac then q + 1 else q)

/-- FRND (R290): NX is never set. -/
def frndCode (mode c : Nat) : Nat × Nat :=
  match f32 c with
  | .nan s => (nan32, if s then fNV else 0)
  | .inf _ => (c, 0)
  | .fin n m e => ((convert .fp32 (.fin n (integral mode n m e) 0)).1, 0)

/-- FADD (R289). -/
def execFadd (f : OpFp) (s : State) : Host.Outcome State Fault Refusal :=
  execFp2 s (.fadd f) f (fun a b => out .fp32 ((f32 a).add (f32 b)))

/-- FSUB (R289). -/
def execFsub (f : OpFp) (s : State) : Host.Outcome State Fault Refusal :=
  execFp2 s (.fsub f) f (fun a b => out .fp32 ((f32 a).add (f32 b).neg))

/-- FMUL (R289). -/
def execFmul (f : OpFp) (s : State) : Host.Outcome State Fault Refusal :=
  execFp2 s (.fmul f) f (fun a b => out .fp32 ((f32 a).mul (f32 b)))

/-- FFMA (R289). -/
def execFfma (f : OpFp) (s : State) : Host.Outcome State Fault Refusal :=
  execMap s (.ffma f) { guard := f.g, srcs := [srcP f.a f.pa, srcP f.b f.pb, src f.d], dsts := [f.d.toNat] } (fun _ _ _ th =>
    th.fpResult f.d (out .fp32 ((f32 (modCode f.md 32 (th.rn true f.a.toNat))).fma (f32 (th.rn true f.b.toNat))
      (f32 (th.rn true f.d.toNat)))))

/-- FMIN (R290). -/
def execFmin (f : OpFp) (s : State) : Host.Outcome State Fault Refusal := execFp2 s (.fmin f) f (minMaxNum false)

/-- FMAX (R290). -/
def execFmax (f : OpFp) (s : State) : Host.Outcome State Fault Refusal := execFp2 s (.fmax f) f (minMaxNum true)

/-- FCLASS (R290). -/
def execFclass (f : OpFp1) (s : State) : Host.Outcome State Fault Refusal :=
  execFp1 s (.fclass f) f (fun a => (fclassMask a, 0))

/-- FRND (R290). -/
def execFrnd (f : OpFrnd) (s : State) : Host.Outcome State Fault Refusal :=
  execMap s (.frnd f) { guard := f.g, srcs := [srcP f.a f.pa], dsts := [f.d.toNat] } (fun _ _ _ th =>
    th.fpResult f.d (frndCode f.b.toNat (modCode f.md 32 (th.rn true f.a.toNat))))

/-! ### Functions (R291, R292) -/

/-- FRCP (R291). -/
def execFrcp (f : OpFp1) (s : State) : Host.Outcome State Fault Refusal :=
  execFp1 s (.frcp f) f (fun a => out .fp32 ((FVal.fin false 1 0).div (f32 a)))

/-- FRSQ (R291). -/
def execFrsq (f : OpFp1) (s : State) : Host.Outcome State Fault Refusal :=
  execFp1 s (.frsq f) f (fun a => out .fp32 (f32 a).rsqrt)

/-- FSQRT (R291). -/
def execFsqrt (f : OpFp1) (s : State) : Host.Outcome State Fault Refusal :=
  execFp1 s (.fsqrt f) f (fun a => out .fp32 (f32 a).sqrt)

/-- FDIV (R291). -/
def execFdiv (f : OpFp) (s : State) : Host.Outcome State Fault Refusal :=
  execFp2 s (.fdiv f) f (fun a b => out .fp32 ((f32 a).div (f32 b)))

/-- FEXP2 (R291). -/
def execFexp2 (f : OpFp1) (s : State) : Host.Outcome State Fault Refusal :=
  execFp1 s (.fexp2 f) f (fun a => exp2Conv .fp32 (f32 a))

/-- FLOG2 (R291). -/
def execFlog2 (f : OpFp1) (s : State) : Host.Outcome State Fault Refusal :=
  execFp1 s (.flog2 f) f (fun a => log2Conv .fp32 (f32 a))

/-- FSIN (R291). -/
def execFsin (f : OpFp1) (s : State) : Host.Outcome State Fault Refusal :=
  execFp1 s (.fsin f) f (fun a => sinPiConv .fp32 (f32 a))

/-- FCOS (R291). -/
def execFcos (f : OpFp1) (s : State) : Host.Outcome State Fault Refusal :=
  execFp1 s (.fcos f) f (fun a => cosPiConv .fp32 (f32 a))

/-! ### Packed 16-bit arithmetic (R293) -/

/-- The sum of two halves. -/
def addHalf (x : NumFmt) (a b _d : Nat) : Nat × Nat := out x ((fpDecode x a).add (fpDecode x b))
/-- The product of two halves. -/
def mulHalf (x : NumFmt) (a b _d : Nat) : Nat × Nat := out x ((fpDecode x a).mul (fpDecode x b))
/-- The fused product and sum of three halves. -/
def fmaHalf (x : NumFmt) (a b d : Nat) : Nat × Nat := out x ((fpDecode x a).fma (fpDecode x b) (fpDecode x d))

/-- HADD2.BF16 (R293). -/
def execHadd2Bf16 (f : OpFp) (s : State) : Host.Outcome State Fault Refusal :=
  execHalf s (.hadd2Bf16 f) f false (addHalf .bf16)

/-- HMUL2.BF16 (R293). -/
def execHmul2Bf16 (f : OpFp) (s : State) : Host.Outcome State Fault Refusal :=
  execHalf s (.hmul2Bf16 f) f false (mulHalf .bf16)

/-- HFMA2.BF16 (R293). -/
def execHfma2Bf16 (f : OpFp) (s : State) : Host.Outcome State Fault Refusal :=
  execHalf s (.hfma2Bf16 f) f true (fmaHalf .bf16)

/-- HADD2.F16 (R293). -/
def execHadd2F16 (f : OpFp) (s : State) : Host.Outcome State Fault Refusal :=
  execHalf s (.hadd2F16 f) f false (addHalf .fp16)

/-- HMUL2.F16 (R293). -/
def execHmul2F16 (f : OpFp) (s : State) : Host.Outcome State Fault Refusal :=
  execHalf s (.hmul2F16 f) f false (mulHalf .fp16)

/-- HFMA2.F16 (R293). -/
def execHfma2F16 (f : OpFp) (s : State) : Host.Outcome State Fault Refusal :=
  execHalf s (.hfma2F16 f) f true (fmaHalf .fp16)

/-! ### Conversions (R294, R295) -/

/-- FP32 to a 32-bit integer (R295). -/
def toInt32 (signed rz : Bool) (c : Nat) : Nat × Nat :=
  let lo : Int := if signed then -(2 ^ 31) else 0
  let hi : Int := if signed then 2 ^ 31 - 1 else 2 ^ 32 - 1
  match f32 c with
  | .nan _ => (0, fNV)
  | .inf n => (wrapN 32 (if n then lo else hi), fSAT ||| fNV)
  | .fin n m e =>
    let k := integral (if rz then 1 else 0) n m e
    let v : Int := if n then -(k : Int) else k
    if v < lo then (wrapN 32 lo, fSAT ||| fNV)
    else if v > hi then (wrapN 32 hi, fSAT ||| fNV)
    else (wrapN 32 v, if dyCmp k 0 m e = .eq then 0 else fNX)

/-- FCVT.F32.BF16 (R294). -/
def execFcvtF32Bf16 (f : OpDA) (s : State) : Host.Outcome State Fault Refusal :=
  execCvt s (.fcvtF32Bf16 f) f (fun a => convert .fp32 (fpDecode .bf16 (a % 65536)))

/-- FCVT.F32.BF16.HI (R294). -/
def execFcvtF32Bf16Hi (f : OpDA) (s : State) : Host.Outcome State Fault Refusal :=
  execCvt s (.fcvtF32Bf16Hi f) f (fun a => convert .fp32 (fpDecode .bf16 (a / 65536)))

/-- FCVT.F32.F16 (R294). -/
def execFcvtF32F16 (f : OpDA) (s : State) : Host.Outcome State Fault Refusal :=
  execCvt s (.fcvtF32F16 f) f (fun a => convert .fp32 (fpDecode .fp16 (a % 65536)))

/-- FCVT.F32.F16.HI (R294). -/
def execFcvtF32F16Hi (f : OpDA) (s : State) : Host.Outcome State Fault Refusal :=
  execCvt s (.fcvtF32F16Hi f) f (fun a => convert .fp32 (fpDecode .fp16 (a / 65536)))

/-- Two FP32 values to the halves of one word. -/
def execPack (s : State) (i : Instr) (f : OpRG) (x : NumFmt) : Host.Outcome State Fault Refusal :=
  execMap s i (rgOp f) (fun _ _ _ th =>
    let lo := convert x (f32 (th.rn true f.a.toNat))
    let hi := convert x (f32 (th.rn true f.b.toNat))
    th.fpResult f.d (lo.1 + hi.1 * 65536, lo.2 ||| hi.2))

/-- FCVT.BF16X2.F32 (R294). -/
def execFcvtBf16x2F32 (f : OpRG) (s : State) : Host.Outcome State Fault Refusal :=
  execPack s (.fcvtBf16x2F32 f) f .bf16

/-- FCVT.F16X2.F32 (R294). -/
def execFcvtF16x2F32 (f : OpRG) (s : State) : Host.Outcome State Fault Refusal :=
  execPack s (.fcvtF16x2F32 f) f .fp16

/-- ICVT.SW.F32 (R295). -/
def execIcvtSwF32 (f : OpDA) (s : State) : Host.Outcome State Fault Refusal :=
  execCvt s (.icvtSwF32 f) f (toInt32 true false)

/-- ICVT.SW.F32.RZ (R295). -/
def execIcvtSwF32Rz (f : OpDA) (s : State) : Host.Outcome State Fault Refusal :=
  execCvt s (.icvtSwF32Rz f) f (toInt32 true true)

/-- ICVT.UW.F32 (R295). -/
def execIcvtUwF32 (f : OpDA) (s : State) : Host.Outcome State Fault Refusal :=
  execCvt s (.icvtUwF32 f) f (toInt32 false false)

/-- ICVT.UW.F32.RZ (R295). -/
def execIcvtUwF32Rz (f : OpDA) (s : State) : Host.Outcome State Fault Refusal :=
  execCvt s (.icvtUwF32Rz f) f (toInt32 false true)

/-- ICVT.F32.SW (R294). -/
def execIcvtF32Sw (f : OpDA) (s : State) : Host.Outcome State Fault Refusal :=
  execCvt s (.icvtF32Sw f) f (fun a => convert .fp32 (FVal.ofInt (sextN 32 a)))

/-- ICVT.F32.UW (R294). -/
def execIcvtF32Uw (f : OpDA) (s : State) : Host.Outcome State Fault Refusal :=
  execCvt s (.icvtF32Uw f) f (fun a => convert .fp32 (FVal.ofInt a))

/-! ### Comparison (R296) -/

/-- FCMP (R296). -/
def execFcmp (f : OpFcmp) (s : State) : Host.Outcome State Fault Refusal :=
  execMap s (.fcmp f) { guard := f.g, srcs := [srcP f.a f.pa, srcP f.b f.pb], dsts := [] } (fun _ _ _ th =>
    let x := f32 (th.rn true f.a.toNat)
    let y := f32 (th.rn true f.b.toNat)
    let ordering := decide (2#3 ≤ f.cc) && decide (f.cc ≤ 5#3)
    let nv := x.isSnan || y.isSnan || (ordering && (x.isNan || y.isNan))
    ((th.setPair f.p1 f.p2 (fcondition f.cc (x.cmp y))).flag (if nv then fNV else 0)).advance)

/-! ### ROPE (R297, R298) and AMRG (R299) -/

/-- The results of ROPE in one thread: the pair and its flags. -/
def ropeResult (x0 x1 pos f : Nat) : Nat × Nat × Nat :=
  if pos ≥ 2 ^ 24 then (nan32, nan32, fRANGE)
  else match f32 f with
    | .fin n m e =>
      -- phi in [0, 1) exactly, then c and s of 2*phi
      let phi : Nat := if e ≥ 0 then 0
        else ((if n then -((pos * m : Nat) : Int) else (pos * m : Nat)) % ((2 ^ (-e).toNat : Nat) : Int)).toNat
      let c := f32 (cosPiConv .fp32 (.fin false phi (e + 1))).1
      let s := f32 (sinPiConv .fp32 (.fin false phi (e + 1))).1
      let combine (p q : FVal × Bool) : Nat × Nat :=
        let r := p.1.add q.1
        convert .fp32 r.1 (p.2 || q.2 || r.2)
      let neg (p : FVal × Bool) : FVal × Bool := (p.1.neg, p.2)
      let d0 := combine ((f32 x0).mul c) (neg ((f32 x1).mul s))
      let d1 := combine ((f32 x0).mul s) ((f32 x1).mul c)
      (d0.1, d1.1, d0.2 ||| d1.2)
    | _ => (nan32, nan32, fNV)

/-- The operands of a word over register pairs. -/
def pairOp (f : OpRG) : Op where
  guard := f.g
  srcs := [(f.a.toNat, f.pa), (f.a.toNat + 1, f.pa), (f.b.toNat, f.pb), (f.b.toNat + 1, f.pb)]
  dsts := [f.d.toNat, f.d.toNat + 1]

/-- ROPE (R297, R298). -/
def execRope (f : OpRG) (s : State) : Host.Outcome State Fault Refusal :=
  execLanes s (.rope f) (pairOp f) (fun s th =>
    let t := s.thread th
    let pos := t.rn true f.b.toNat
    let r := ropeResult (t.rn true f.a.toNat) (t.rn true (f.a.toNat + 1)) pos (t.rn true (f.b.toNat + 1))
    let s := s.modThread th (fun t =>
      ((t.wn true f.d.toNat r.1 false).wn true (f.d.toNat + 1) r.2.1 false).flag r.2.2)
    if pos ≥ 2 ^ 24 ∧ t.rangee then Act.raise s th { TrapInfo.at .range t.pc with resume := t.pc + 4 }
    else Act.next s th)

/-- The merge of two pairs (04 R133, R299), with its events. Of two zeros of opposite sign neither rule says which is the greater: m is
that of a (DESIGN CHOICE, log 75). -/
def mergePair (am ax bm bx : Nat) : Nat × Nat × Nat :=
  let a := f32 am
  let b := f32 bm
  if a.isNan || b.isNan then
    (nan32, nan32, if a.isSnan || b.isSnan || (f32 ax).isSnan || (f32 bx).isSnan then fNV else 0)
  else if a = .inf true then (bm, bx, 0)
  else if b = .inf true then (am, ax, 0)
  else
    let (m, mv) := if a.cmp b = some .lt then (bm, b) else (am, a)
    let part (x : FVal) : Nat × Nat :=
      let d := x.add mv.neg
      let r := exp2Conv .fp32 d.1
      (r.1, r.2 ||| if d.2 then fNV else 0)
    let ca := part a
    let cb := part b
    let p := (f32 ax).mul (f32 ca.1)
    let q := (f32 bx).mul (f32 cb.1)
    let r := p.1.add q.1
    let x := convert .fp32 r.1 (p.2 || q.2 || r.2)
    (m, x.1, ca.2 ||| cb.2 ||| x.2)

/-- AMRG (R299). -/
def execAmrg (f : OpRG) (s : State) : Host.Outcome State Fault Refusal :=
  execMap s (.amrg f) (pairOp f) (fun _ _ _ th =>
    let r := mergePair (th.rn true f.a.toNat) (th.rn true (f.a.toNat + 1)) (th.rn true f.b.toNat) (th.rn true (f.b.toNat + 1))
    (((th.wn true f.d.toNat r.1 false).wn true (f.d.toNat + 1) r.2.1 false).flag r.2.2).advance)

end Sys2Proof.Machine
end

