-- ==== Sys2Proof/Machine/Issue.lean ====
section
/-! DEFINITION. The issue pass of a group: what happens at an instruction boundary (16 R416, 21 R440, R447), the
selected set (06 R173), instruction fetch (06 R180, R181, 01 R24, 14 R398, R399), chains (07 R195-R199), and the words
one after another. -/

namespace Sys2Proof.Machine

/-! ### Translation for a thread's own access (01 R24-R29) -/

/-- The outcome of translating an access of a thread: its address, a wait for a walk, or a fault kind. -/
inductive TransT where
  | ok (p : Phys) (s : State)
  | wait (s : State)
  | fault (k : XKind) (s : State)
  deriving DecidableEq, Repr

/-- Translate an access of a thread: caches, then a walk result that stands for it (R28), else a walk request. -/
def State.transFor (s : State) (th : ThreadKey) (acc : Acc) (va : Nat) : TransT :=
  let job := th.gk.team.job
  let ctx := s.ctxOf job
  let core := s.coreOf th.gk.team
  let use (s : State) (pte : Dword) (lvl : Nat) : TransT :=
    match s.useLeaf ctx (s.priv job) acc va pte lvl with
    | .ok p => .ok p s
    | .fault k => .fault k s
    | .miss => .wait s
  let look : TransT :=
    match s.cached core ctx va with
    | some e => use (s.learn core ctx va) e.pte e.lvl
    | none => .wait (s.requestWalk ctx va (.thread th))
  if !canonical va then .fault .ncanon s
  else
    match (s.thread th).walk with
    | some (v, out) =>
      if out.covers v va then
        let s := s.modThread th (fun t => { t with walk := none })
        match out with
        | .leaf pte lvl => use s pte lvl
        | .fault k => .fault k s
      else look
    | none => look

/-! ### Fetch -/

/-- The outcome of fetching a word. -/
inductive FetchOut where
  | word (w : Word) (s : State)
  | wait (s : State)
  | fault (i : TrapInfo) (s : State)
  deriving DecidableEq, Repr

/-- The virtual address of a PC: bit 56 fills the bits above (01 R16, 08 R228). -/
def pcVa (pc : Pc) : Nat := (pc.signExtend 64).toNat

/-- The base of the instruction cache line of an address (07 R194). Packets and lines are framed by the 57-bit byte address
that the PC holds: R193 leaves open whether an address above the middle of the space is a multiple of 12 as it stands or once
its sign is extended (DESIGN CHOICE, log 72). -/
def icBase (va : Nat) : Nat := va % 2 ^ 57 / 192 * 192

/-- The place of the 64-byte piece of its instruction cache line that holds an address. -/
def icIx (va : Nat) : Nat := va % 2 ^ 57 % 192 / 64

/-- The piece of a context's instruction cache line that holds an address translated so. -/
def Core.icPiece (c : Core) (ctx va : Nat) (q : Phys) : Option IcPiece :=
  ((c.icache.find? (fun l => l.ctx == ctx && l.base == icBase va)).bind (fun l => l.pieces.getD (icIx va) none)).filter
    (fun x => x.pa == q.pa / 64 * 64 && x.slot == q.slot)

/-- The line of an address, which a fetch has read, as a piece of an instruction cache line; the read leaves its trace in the L2
(03 R92, R95). -/
def State.icPut (s : State) (w : Who) (q : Phys) (bs : List Byte) : IcPiece × State :=
  ({ pa := q.pa / 64 * 64, slot := q.slot, data := blockOf bs }, s.l2Touch (s.pol w.ctx q.pte) q.slot q.pa)

/-- The piece of an instruction cache line at an address, read from the L2 or HBM: where it can be translated without a walk
and read. The last line of the 57-bit space has no third piece. -/
def State.icRead (s : State) (w : Who) (at_ : Nat) : Option IcPiece × State :=
  if 2 ^ 57 ≤ at_ then (none, s)
  else match s.translate w .fetch (pcVa (BitVec.ofNat 57 at_)) with
    | .ok q =>
      match s.readLine (s.partOf w.ctx) q.slot q.pa 64 with
      | .ok bs => let r := s.icPut w q bs; (some r.1, r.2)
      | _ => (none, s)
    | _ => (none, s)

/-- The instruction cache line of an address that has been read comes in (07 R194): the piece of the address, and its other
pieces where they can be had. -/
def State.icFill (s : State) (w : Who) (va : Nat) (q : Phys) (bs : List Byte) : State :=
  let base := icBase va
  let r := (List.range 3).foldl (fun (r : List (Option IcPiece) × State) i =>
    if i = icIx va then let p := r.2.icPut w q bs; (r.1 ++ [some p.1], p.2)
    else let p := r.2.icRead w (base + 64 * i); (r.1 ++ [p.1], p.2)) ([], s)
  let s := r.2.modCore w.core (fun c => { c with
    icache := c.icache.filter (fun l => !(l.ctx == w.ctx && l.base == base)) ++ [{ ctx := w.ctx, base := base, pieces := r.1 }] })
  if s.shared then s else s.bump

/-- The word at an address of a 64-byte piece. -/
def wordAt (d : Block) (va : Nat) : Word := BitVec.ofNat 32 (d.toNat / 2 ^ (8 * (va % 64)))

/-- A word from the instruction cache or memory, for a thread (07 R194, 14 R398, R399). -/
def State.fetchMem (s : State) (th : ThreadKey) (pc : Pc) : FetchOut :=
  let va := pcVa pc
  match s.transFor th .fetch va with
  | .wait s => .wait s
  | .fault k s => .fault (.xlat k va pc) s
  | .ok q s =>
    let ctx := s.ctxOf th.gk.team.job
    let n := s.coreOf th.gk.team
    match (s.core n).icPiece ctx va q with
    | some x => .word (wordAt x.data va) s
    | none =>
      match s.readLine (s.partOf ctx) q.slot (q.pa / 64 * 64) 64 with
      | .ok bs => .word (wordAt (blockOf bs) va)
          (s.icFill { core := n, ctx := ctx, priv := s.priv th.gk.team.job, ask := none } va q bs)
      | .keymis => .fault (.xlat .keymis va pc) s
      | .ecc => .fault (.eccAt va pc) s

/-- Does a capture span a PC (06 R180)? -/
def Loop.spans (l : Loop) (pc : Pc) : Bool := decide (l.lo ≤ pc.toNat) && decide (pc.toNat < l.hi + 12)

/-- Fetch a word for a group: from its loop buffer where a capture holds it (06 R181), which the fetch fills. -/
def State.fetch (s : State) (th : ThreadKey) (pc : Pc) : FetchOut :=
  match (s.group th.gk).bind (fun g => g.loop) with
  | some l =>
    if l.spans pc then
      match l.words.find? (fun e => e.1 == pc.toNat) with
      | some e => .word e.2 s
      | none =>
        match s.fetchMem th pc with
        | .word w s => .word w (s.modGroup th.gk (fun g =>
            { g with loop := g.loop.map (fun l => { l with words := l.words ++ [(pc.toNat, w)] }) }))
        | o => o
    else s.fetchMem th pc
  | none => s.fetchMem th pc

/-- Is an address word 2 of its packet (07 R193)? The 57-bit PC is the address (DESIGN CHOICE, log 72, as `icBase`). -/
def lastInPacket (pc : Pc) : Bool := pc.toNat % 12 == 8

/-- The words of the chain that starts at a PC, with their addresses; n more words may follow in the packet. A later
word that cannot be fetched ends the list: the words before it issue alone. -/
def State.fetchChain (s : State) (th : ThreadKey) : Nat → Pc → Word → List (Pc × Word) × State × Bool
  | 0, pc, w => ([(pc, w)], s, false)
  | n + 1, pc, w =>
    if chainOf w && !lastInPacket pc then
      match s.fetch th (pc + 4) with
      | .word v s =>
        let r := s.fetchChain th n (pc + 4) v
        ((pc, w) :: r.1, r.2)
      | .wait s => ([(pc, w)], s, true)
      | .fault _ s => ([(pc, w)], s, false)
    else ([(pc, w)], s, false)

/-! ### Instruction boundaries -/

/-- Can a completion be delivered to a thread here (21 R440, R447): at an instruction boundary, or while its set stalls for
a channel slot (R441)? A thread whose phaser wait has ended stands inside its PWAIT until it has taken the result,
and one that has begun a KV operation or a JOIN stands inside it. -/
def Group.vectorable (g : Group) (t : Nat) : Bool :=
  let th := g.thr t
  th.live && th.stop.isNone && th.blk.isNone && th.wres.isNone && th.kv.isNone && th.mark.isNone && !th.uin && g.uvec != 0 && (!g.holds t || (g.slotw && g.stalled))

/-- A thread leaves a held set. -/
def Group.unhold (g : Group) (t : Nat) : Group :=
  let h := g.hold.bind (fun h => let l := h.2.filter (· != t); if l.isEmpty then none else some (h.1, l))
  { g with
    hold := h
    done := g.done.filter (· != t)
    stalled := g.stalled && h.isSome }

/-- Has a completion of a thread landed before another and is still not due to it, for want of room or behind an earlier
store? -/
def Team.landedBefore (t : Team) (th : ThreadKey) (d : Due) (land : Nat) : Bool :=
  t.chans.any (fun c => c.order.any (fun n =>
    match c.slots[n]? with
    | some x => (x.req.map (fun r => r.uv && r.thr == th && !r.dead)).getD false && (Due.channel c.num n).before x.land d land
    | none => false))

/-- The completion that a thread takes at its boundary (09 R286, 21 R443): the first of those due to it, once the cycle of
its landing is over and nothing that landed before it is still to become due (log 27). -/
def Team.dueNow (t : Team) (cycle : Nat) (th : ThreadKey) : Option (ThreadKey × Due × Nat) :=
  (t.vecq.find? (fun d => d.1 == th)).filter (fun d => decide (d.2.2 < cycle) && !t.landedBefore th d.2.1 d.2.2)

/-- Deliver the first completion that is due to a thread (R440, 09 R286): it is finished, the handler bank is filled
(21 R439), and the thread is vectored with the resume PC at its boundary. -/
def State.vectorNow (s : State) (th : ThreadKey) : State :=
  match (s.team th.gk.team).bind (fun t => t.dueNow s.cycle th) with
  | some d =>
    let b := s.dueBank th.gk.team d.2.1
    let s := s.modTeam th.gk.team (fun t => { t with vecq := t.vecq.erase d })
    let s := s.finishDue th d.2.1
    let pc := (s.thread th).pc
    let s := s.fillBank th 0 b.1 b.2 pc.toNat
    let s := s.modGroup th.gk (fun g => if g.holds th.thr then g.unhold th.thr else g)
    s.vector th pc
  | none => s

/-- The boundary of one thread: a requested stop, then a completion that is due. -/
def State.boundary (s : State) (th : ThreadKey) : State :=
  let s := s.stopIfDue th
  match s.group th.gk with
  | some g => if g.vectorable th.thr then s.vectorNow th else s
  | none => s

/-! ### The pass -/

/-- The guard field of a word, p7 where its format has none (07 R200). -/
def guardField (w : Word) : BitVec 3 :=
  if guardedMajor (majorOf w).toNat then w.extractLsb' 22 3 else 7#3

/-- The guard of a word: SEL is never guarded, and its field names the predicate that selects (08 R247). -/
def guardOf (w : Word) : BitVec 3 :=
  match decode w with
  | some (.sel _) => 7#3
  | _ => guardField w

/-- A word that decodes to no instruction: ILLOP on every thread whose guard is true (07 R200, R203, R210). -/
def undecodable (s : State) (p : Pass) (g : Group) : State :=
  runMap s p g true (fun _ => { guard := guardField p.word, srcs := [], dsts := [] }) (fun _ _ _ th => th)

/-- The held set has performed its word: the lanes that did so before take part again. -/
def State.mergeDone (s : State) (p : Pass) : State :=
  match s.group p.gk with
  | none => s
  | some g =>
    let sel := ((s.pass.map (fun q => q.sel)).getD [])
    let back := g.done.filter (fun t => (g.thr t).cand && decide ((g.thr t).pc = p.pc + 4))
    (s.modGroup p.gk (fun g => { g with
      hold := none, done := [], stalled := false, slotw := false, collw := false, iss := none })).withSel
      (lanes.filter (fun t => sel.contains t || back.contains t))

/-- Execute the words of a chain one after another (07 R198). ex is the meaning of an instruction. A word that a held set
executes again counts the threads that it was issued to (16 R420). -/
def issueWords (ex : Instr → State → Host.Outcome State Fault Refusal) :
    List (Pc × Word) → State → Host.Outcome State Fault Refusal
  | [], s => .next s
  | (pc, w) :: rest, s =>
    match s.pass with
    | none => .next s
    | some p =>
      if p.sel.isEmpty then .next s
      else
        match s.group p.gk with
        | none => .next s
        | some g =>
          let issued := g.iss.getD ((p.sel.filter (fun t => (g.thr t).pred (guardOf w))).length)
          let p : Pass := { p with pc := pc, word := w, held := false, mid := p.mid.filter p.sel.contains, iss := issued }
          let th : ThreadKey := { gk := p.gk, thr := p.sel.headD 0 }
          let s := { s with pass := some p }
          let o := match decode w with
            | some i => ex i s
            | none => .next (undecodable s p g)
          match o with
          | .next s =>
            if (s.pass.map (fun q => q.held)).getD true then .next s
            else issueWords ex rest ((s.mergeDone p).sketch th pc 0 issued)
          | o => o

/-- The threads of a set that a debugger steps stop (16 R417): those that have issued their chain, and those that have
gone to their handler. A thread of a set that is held stands inside its chain. -/
def State.stepped (s : State) (gk : GroupKey) (set : List Nat) (held : Bool) : State :=
  set.foldl (fun s t =>
    let th : ThreadKey := { gk := gk, thr := t }
    let u := s.thread th
    let inside := held && ((s.group gk).map (fun g => g.holds t || g.done.contains t)).getD false
    if u.step && u.live && u.blk.isNone && u.stop.isNone && !inside then s.debugStopAs th 0 3 else s) s

/-- The bookkeeping after a pass (06 R174, 16 R420, R422), once it is over: a pass whose set is held at a word goes on. pc and
first are where and with which set it began: the result of a walk that its threads have not used goes. -/
def State.afterPass (s : State) (gk : GroupKey) (pc : Pc) (first : List Nat) (held : Bool) : State :=
  let s := { s with pass := none }
  if held then s
  else
    let s := s.modGroup gk (fun g => { (g.onLeave first).mapThreads (fun t th =>
      if first.contains t then { th with walk := none } else th) with began := none })
    let s := first.foldl (fun (s : State) t => s.forget (.reads { gk := gk, thr := t })) s
    let s := s.modCore (s.coreOf gk.team) (fun c => { c with issue := (c.issue + 1) % 2 ^ 64 })
    s.sketch { gk := gk, thr := first.headD 0 } pc 1 1

/-- Does an access of a group stall for a replay-table entry (06 R172, R188)? -/
def Team.stuck (t : Team) (gk : GroupKey) : Bool := t.fills.any (fun f => f.stuck && f.thr.gk == gk)

/-- May a group issue: resident, not ended, its team loaded and not yielded (13 R378, R379), no access of it stalled
(06 R188), its quadrant not halted (12 R363)? -/
def State.canIssue (s : State) (g : Group) : Bool :=
  ((s.team g.key.team).map (fun t => t.resident && !t.yielded && !t.stuck g.key)).getD false && !g.ended
    && !(g.key.exe && (s.core (s.coreOf g.key.team)).halted.getLsbD g.key.quad)
    && ((s.job g.key.team.job).map (fun j => decide (j.st = .running) && j.moving == 0)).getD false

/-- The lanes of a held set that have still to perform their word. -/
def Group.heldNow (g : Group) : List Nat :=
  match g.hold with
  | some h => h.2.filter (fun t => (g.thr t).cand && decide ((g.thr t).pc = h.1) && !g.done.contains t)
  | none => []

/-- The selected set of a group (06 R172): of a held one also the lanes that have performed the word and wait for the others;
else the one that it would choose. -/
def Group.selected (g : Group) : List Nat :=
  match g.heldNow with
  | [] => g.prepare.selectSet
  | l => lanes.filter (fun t => l.contains t || (g.done.contains t && (g.thr t).cand))

/-- The set that a group issues next, held or chosen (06 R172, R173). -/
def Group.current (g : Group) : List Nat :=
  match g.heldNow with
  | [] => g.prepare.selectSet
  | l => l

/-- The threads of a set that a control transfer has brought into the middle of a chain (07 R199), where the word before
can be fetched at once; none to wait for it. -/
def State.midChain (s : State) (gk : GroupKey) (pc : Pc) (sel : List Nat) : Option (List Nat) × State :=
  let bad := sel.filter (fun t => (s.thread { gk := gk, thr := t }).xfer)
  if bad.isEmpty || pc.toNat % 12 = 0 then (some [], s)
  else
    match s.fetch { gk := gk, thr := bad.headD 0 } (pc - 4) with
    | .word v s => (some (if chainOf v then bad else []), s)
    | .wait s => (none, s)
    | .fault _ s => (some [], s)

/-- The set is held at the word for want of the words it needs: it stalls for a walk. -/
def State.stallAt (s : State) (gk : GroupKey) (pc : Pc) (sel : List Nat) : State :=
  s.modGroup gk (fun g => { g with hold := some (match g.hold with | some h => h | none => (pc, sel)), stalled := true })

/-- Run the words of a chain that have been fetched. -/
def issueChain (ex : Instr → State → Host.Outcome State Fault Refusal) (s : State) (gk : GroupKey) (g : Group) (pc : Pc)
    (w : Word) (sel mid : List Nat) (ws : List (Pc × Word)) : Host.Outcome State Fault Refusal :=
  if chainOkFrom g sel [] [] (ws.map (fun x => (x.2, lastInPacket x.1))) then
    let began := g.began.getD (pc, sel)
    match issueWords ex ws { s with pass := some {
        gk := gk, sel := sel, pc := pc, word := w, held := false, mid := mid, began := began } } with
    | .next t =>
      let held := (t.pass.map (fun p => p.held)).getD false
      .next ((t.afterPass gk began.1 began.2 held).stepped gk (lanes.filter (fun t => sel.contains t || g.done.contains t)) held)
    | o => o
  else
    .next ((sel.foldl (fun s t => s.takeTrap { gk := gk, thr := t } (illop pc w)) s).stepped gk sel false)

/-- The pass of a group, once its set is known and not empty. -/
def issueSet (ex : Instr → State → Host.Outcome State Fault Refusal) (s : State) (gk : GroupKey) (pc : Pc)
    (sel : List Nat) : Host.Outcome State Fault Refusal :=
  let s := s.modGroup gk (fun g => { g with loop := g.loop.bind (fun l => if l.spans pc then some l else none) })
  let th : ThreadKey := { gk := gk, thr := sel.headD 0 }
  match s.fetch th pc with
  | .wait s => .next (s.stallAt gk pc sel)
  | .fault i s => .next (sel.foldl (fun s t => s.takeTrap { gk := gk, thr := t } i) s)
  | .word w s =>
    match s.midChain gk pc sel with
    | (none, s) => .next (s.stallAt gk pc sel)
    | (some mid, s) =>
      let (ws, s, wait) := s.fetchChain th 2 pc w
      if wait then .next (s.stallAt gk pc sel)
      else
        match s.group gk with
        | none => .next s
        | some g => issueChain ex s gk g pc w sel mid ws

/-- One issue pass of a group. -/
def issueWith (ex : Instr → State → Host.Outcome State Fault Refusal) (s : State) (gk : GroupKey) :
    Host.Outcome State Fault Refusal :=
  let s := lanes.foldl (fun s t => s.boundary { gk := gk, thr := t }) s
  match s.group gk with
  | none => .next s
  | some g =>
    if !s.canIssue g then .next s
    else
      let sel := g.current
      let s := s.modGroup gk (fun g =>
        if g.heldNow.isEmpty then { g.prepare with
            hold := none, done := [], stalled := false, slotw := false, collw := false, began := none, iss := none }
        else { g with slotw := false, collw := false })
      match sel with
      | [] => .next s
      | t :: _ => issueSet ex s gk (g.thr t).pc sel

end Sys2Proof.Machine
end

