-- ==== Sys2Proof/Machine/Order.lean ====
section
/-! DEFINITION. Accesses of a thread and their order (05 R146-R163, 09 R255-R260): the L1 (03 R88, R89), the collector
(03 R102, R103), stores waiting to be ordered, and what an access of the same thread must wait for. -/

namespace Sys2Proof.Machine

/-! ### The L1 (03 R88, R89, 05 R163) -/

/-- The set of a line (R88: 128 sets). -/
def l1Set (line : Nat) : Nat := line / 64 % 128

/-- The L1 copy of the line of an address under a slot, on a core. -/
def State.l1Hit (s : State) (core pa slot : Nat) : Option Block :=
  ((s.core core).l1.find? (fun l => l.line == pa / 64 * 64 && l.slot == slot)).map (fun l => l.data)

/-- Discard every L1 line of a core (R163). -/
def State.clearL1 (s : State) (core : Nat) : State := s.modCore core (fun c => { c with l1 := [] })

/-- Fill a line into a core's L1; the oldest line of a full set leaves. -/
def State.l1Put (s : State) (core line slot : Nat) (d : Block) : State :=
  s.modCore core (fun c =>
    let l := c.l1.filter (fun x => x.line != line)
    let mine := l.filter (fun x => l1Set x.line == l1Set line)
    let l := if mine.length < 8 then l else l.filter (fun x => some x != mine.head?)
    { c with l1 := l ++ [{ line := line, slot := slot, data := d }] })

/-- A leaf's CL field (01 R19). -/
def pteCl (pte : Nat) : Nat := bits pte 7 6

/-! ### Locations -/

/-- Do two byte ranges overlap? -/
def overlaps (a n b m : Nat) : Bool := decide (a < b + m) && decide (b < a + n)

/-- The request of one lane: its space, address and size. -/
structure MemReq where
  spad : Bool
  va : Nat
  n : Nat
  deriving DecidableEq, Repr

/-- Does R255 forbid the address? -/
def MemReq.bad (r : MemReq) : Bool := r.va % r.n != 0 || (r.spad && decide (Config.spadBytes ≤ r.va))

/-- A request's location: a scratchpad offset, or a physical address with its translation. -/
structure Loc where
  spad : Bool
  addr : Nat
  n : Nat
  phys : Phys
  deriving DecidableEq, Repr

/-- The key slot of a location. -/
def Loc.slot (l : Loc) : Nat := l.phys.slot

/-- The leaf of a location. -/
def Loc.pte (l : Loc) : Nat := l.phys.pte

/-- No translation: a scratchpad offset. -/
def Phys.none : Phys := { pa := 0, slot := 0, epoch := 0, pte := 0, lvl := 0 }

/-- Read at the home slice: the core's own L1 copy of the line is discarded, so that no later load finds an older
value (R156). -/
def State.homeRead (s : State) (core ctx : Nat) (l : Loc) : DataOut × State :=
  let r := s.readLine (s.partOf ctx) l.slot l.addr l.n
  (r, ((if s.shared then s else s.bump).l2Touch (s.pol ctx l.pte) l.slot l.addr).dropL1Core core l.addr)

/-- Read through the L1, which the read fills (09 R259). -/
def State.l1Read (s : State) (core ctx : Nat) (l : Loc) : DataOut × State :=
  match s.l1Hit core l.addr l.slot with
  | some d => (.ok (((blockBytes d).drop (l.addr % 64)).take l.n), s)
  | none =>
    let line := l.addr / 64 * 64
    match s.readLine (s.partOf ctx) l.slot line 64 with
    | .ok bs => (.ok ((bs.drop (l.addr % 64)).take l.n),
        ((if s.shared then s else s.bump).l2Touch (s.pol ctx l.pte) l.slot line).l1Put core line l.slot (blockOf bs))
    | e => (e, s)

/-- The outcome of locating a request. -/
inductive LocOut where
  | ok (l : Loc) (s : State)
  | wait (s : State)
  | fault (k : XKind) (s : State)
  deriving DecidableEq, Repr

/-- The location of a request: a scratchpad offset as it stands (03 R84), a virtual address translated. -/
def State.locate (s : State) (th : ThreadKey) (acc : Acc) (r : MemReq) : LocOut :=
  if r.spad then .ok { spad := true, addr := r.va, n := r.n, phys := .none } s
  else match s.transFor th acc r.va with
    | .ok p s => .ok { spad := false, addr := p.pa, n := r.n, phys := p } s
    | .wait s => .wait s
    | .fault k s => .fault k s

/-- Would a thread's access be translated without a walk? -/
def State.xlatReady (s : State) (th : ThreadKey) (va : Nat) : Bool :=
  !canonical va || ((s.thread th).walk.map (fun w => w.2.covers w.1 va)) == some true
    || (s.cached (s.coreOf th.gk.team) (s.ctxOf th.gk.team.job) va).isSome

/-! ### Accesses of a thread not yet performed -/

/-- A fresh number for an access or command of a team. -/
def State.takeId (s : State) (k : TeamKey) : Nat × State :=
  (((s.team k).map (fun t => t.nextId)).getD 0, s.modTeam k (fun t => { t with nextId := t.nextId + 1 }))

/-- The number that the next access of a team takes. -/
def State.nowId (s : State) (k : TeamKey) : Nat := ((s.team k).map (fun t => t.nextId)).getD 0

/-- The lane of a thread in a store that overlaps a location (R142: a physical address under a key slot). -/
def PendStore.laneAt (r : PendStore) (th : ThreadKey) (spad : Bool) (slot addr n : Nat) : Option StLane :=
  if r.gk = th.gk ∧ r.spad = spad ∧ (spad = true ∨ r.phys.slot = slot) then r.lanes.find? (fun l => l.thr == th.thr && overlaps l.addr l.n addr n) else none

/-- The thread's stores, before a number, that overlap a location. -/
def State.storesAt (s : State) (th : ThreadKey) (before : Nat) (spad : Bool) (slot addr n : Nat) : List StLane :=
  match s.team th.gk.team with
  | some t => t.stores.filterMap (fun r => if r.id < before then r.laneAt th spad slot addr n else none)
  | none => []

/-- Bytes that an STQ of a queue writes (09 R273). -/
def Queue.stqBytes (q : Queue) : Nat := if q.mode = .block then 64 else 4

/-- Does an STQ of the thread, before a number, overlap a location? -/
def State.stqAt (s : State) (th : ThreadKey) (before : Nat) (spad : Bool) (slot addr n : Nat) : Bool :=
  !spad && ((s.team th.gk.team).map (fun t => t.queues.any (fun q : Queue =>
    q.stqs.any (fun e => e.thr == th && decide (e.id < before) && e.phys.slot == slot && overlaps e.phys.pa q.stqBytes addr n)))).getD false

/-- Bytes that a load into a queue reads (09 R272). -/
def FillKind.bytes : FillKind → Nat
  | .lane => 4
  | .block => 64
  | .olist => 320

/-- The lines that a load into a queue reads, each with its translation: as it stood at the issue of a REPLAY (09 R282),
else as it stands now. -/
def State.fillLines (s : State) (f : Fill) : List ((Nat × Nat) × XlatOut) :=
  (linePieces f.va f.kind.bytes).mapIdx (fun i p => (p,
    match f.xlat[i]? with
    | some x => x
    | none =>
      match s.translateNow (s.unit f.thr.gk.team f.id) .read p.1 with
      | .ok q => .ok q
      | .error e => .fault e))

/-- Does a load into a queue read a location? -/
def State.fillHits (s : State) (f : Fill) (slot addr n : Nat) : Bool :=
  (s.fillLines f).any (fun x =>
    match x.2 with
    | .ok q => q.slot == slot && overlaps q.pa x.1.2 addr n
    | .fault _ => false)

/-- Does a load into a queue of the thread, before a number, read a location? -/
def State.fillAt (s : State) (th : ThreadKey) (before : Nat) (spad : Bool) (slot addr n : Nat) : Bool :=
  !spad && ((s.team th.gk.team).map (fun t => t.fills.any (fun f : Fill =>
    f.thr == th && decide (f.id < before) && s.fillHits f slot addr n))).getD false

/-- Does the thread have an access, before a number, that is not performed: a store, an STQ, a load into a queue? -/
def State.busyBefore (s : State) (th : ThreadKey) (before : Nat) : Bool :=
  ((s.team th.gk.team).map (fun t =>
    t.stores.any (fun r => r.gk == th.gk && decide (r.id < before) && r.lanes.any (fun l => l.thr == th.thr))
    || t.fills.any (fun f => f.thr == th && decide (f.id < before))
    || t.queues.any (fun q : Queue => q.stqs.any (fun e => e.thr == th && decide (e.id < before))))).getD false

/-- Has every earlier access of the thread been performed (R146, 09 R259)? -/
def State.quiet (s : State) (th : ThreadKey) : Bool := !s.busyBefore th (s.nowId th.gk.team)

/-- Has the thread a load into a queue that has not bound its value? -/
def State.reading (s : State) (th : ThreadKey) : Bool :=
  ((s.team th.gk.team).map (fun t => t.fills.any (fun f => f.thr == th))).getD false

/-- Has the thread a load into a queue, before a number, that has not bound its value (R158)? -/
def State.readingBefore (s : State) (th : ThreadKey) (before : Nat) : Bool :=
  ((s.team th.gk.team).map (fun t => t.fills.any (fun f => f.thr == th && decide (f.id < before)))).getD false

/-- Has the thread a release store that is not performed? -/
def State.relPending (s : State) (th : ThreadKey) : Bool :=
  ((s.team th.gk.team).map (fun t =>
    t.stores.any (fun r => r.gk == th.gk && r.rel && r.lanes.any (fun l => l.thr == th.thr)))).getD false

/-- Has the thread any access of a location not yet performed (R156, R158)? -/
def State.conflict (s : State) (th : ThreadKey) (l : Loc) : Bool :=
  let b := s.nowId th.gk.team
  !(s.storesAt th b l.spad l.slot l.addr l.n).isEmpty || s.stqAt th b l.spad l.slot l.addr l.n
    || s.fillAt th b l.spad l.slot l.addr l.n

/-! ### Lanes that access memory -/

/-- Collector entries that a load into a queue takes: one a line (03 R102). -/
def FillKind.entries (k : FillKind) : Nat := cdiv k.bytes 64

/-- Collector entries of a team in use (03 R102). -/
def Team.collUse (t : Team) : Nat :=
  (t.reqs.filter (fun r => !r.spad)).length + (t.stores.filter (fun r => !r.spad)).length
    + (t.fills.map (fun f => f.kind.entries)).sum

/-- Has the collector of a team n free entries? -/
def State.collRoom (s : State) (k : TeamKey) (n : Nat) : Bool :=
  decide (((s.team k).map Team.collUse).getD 0 + n ≤ Config.collectorEntries)

/-- The set waits for a collector entry (03 R103). -/
def State.collWait (s : State) (gk : GroupKey) : State := s.modGroup gk (fun g => { g with collw := true })

/-- Is a request's lane ready: translated, and with nothing to wait for at its location? -/
def State.readyAt (s : State) (th : ThreadKey) (acc : Acc) (r : MemReq) (waits : Loc → Bool) : State × Option Bool :=
  if r.bad then (s, none)
  else if !r.spad && !s.xlatReady th r.va then (s.requestWalk (s.ctxOf th.gk.team.job) r.va (.thread th), some true)
  else match s.locate th acc r with
    | .ok l _ => (s, if waits l then some false else none)
    | _ => (s, none)

/-- The lanes of a set that are not ready, each stalled or not, and what their walk requests leave. -/
def notReady (ready : State → ThreadKey → State × Option Bool) (gk : GroupKey) : State → List Nat → State × List (Nat × Bool)
  | s, [] => (s, [])
  | s, t :: ts =>
    let x := ready s { gk := gk, thr := t }
    let r := notReady ready gk x.1 ts
    (r.1, (x.2.map (fun st => (t, st))).toList ++ r.2)

/-- Does a lane wait: it is not ready, or one that it keeps company with is not? -/
def laneWaits (waits : List (Nat × Bool)) (mate : Nat → Option Nat) (t : Nat) : Option Bool :=
  ((waits.find? (fun x => x.1 == t)) <|> (waits.find? (fun x => (mate t).isSome && mate x.1 == mate t))).map (fun x => x.2)

/-- A meaning whose lanes access memory one after another in increasing index (R157): a lane that is not ready waits, and so
do the lanes that have to act together with it, while the others act (01 R30). act gets the first access number that
the instruction can take. -/
def execAccIf (s : State) (i : Instr) (op : Op) (misuse : GroupKey → Bool)
    (ready : State → ThreadKey → State × Option Bool) (mate : State → ThreadKey → Option Nat)
    (act : Nat → State → ThreadKey → Act) : Host.Outcome State Fault Refusal :=
  withPass s (fun p g =>
    let illegal := s.forbids p.gk i || misuse p.gk
    if p.sel.any (fun t => op.meet illegal g p t = some .wait) then s.holdSet p [] false
    else
      let r := notReady ready p.gk s (p.sel.filter (fun t => ((op.meet illegal g p t).map (fun m => decide (m = .go) || m.isEcc)).getD false))
      let waits := laneWaits r.2 (fun t => mate s { gk := p.gk, thr := t })
      runLanes p g illegal op (fun s th =>
        match waits th.thr with
        | some st => .wait s st
        | none => act (r.1.nowId p.gk.team) s th) r.1 [] none p.sel)

/-- The same, for a word that names no queue. -/
def execAcc (s : State) (i : Instr) (op : Op) (ready : State → ThreadKey → State × Option Bool)
    (mate : State → ThreadKey → Option Nat) (act : Nat → State → ThreadKey → Act) : Host.Outcome State Fault Refusal :=
  execAccIf s i op (fun _ => false) ready mate act

/-- Every lane on its own. -/
def alone : State → ThreadKey → Option Nat := fun _ _ => none

/-- The line that a request names, as lanes of one atomic share it (R157): of the scratchpad, or of device memory as the tables
stand. -/
def State.lineMate (s : State) (th : ThreadKey) (r : MemReq) : Option Nat :=
  if r.spad then some (2 * (r.va / 64))
  else match s.translateNow { s.kvWho th with ask := none } .read r.va with
    | .ok q => some (2 * (q.pa / 64) + 1)
    | .error _ => none

/-- A meaning whose lanes access memory each on its own: a lane that waits, for its translation, for its location or for a
collector entry, does not hold back the lanes after it (01 R30). act gets the first access number that the instruction can
take. -/
def execLoads (s : State) (i : Instr) (op : Op) (act : Nat → State → ThreadKey → Act) : Host.Outcome State Fault Refusal :=
  execLanes s i op (act ((s.pass.map (fun p => s.nowId p.gk.team)).getD 0))

/-- Act on the location of a request, or take what it raises: BADARG (R255), XLAT (R260). -/
def State.accessAct (s : State) (th : ThreadKey) (acc : Acc) (r : MemReq) (k : State → Loc → Act) : Act :=
  if r.bad then Act.cause s th .badarg
  else match s.locate th acc r with
    | .ok l s => k s l
    | .fault kd s => Act.raise s th (.xlat kd r.va (s.thread th).pc)
    | .wait s => .hold s true

/-- The entry that a lane's read of a line joins: one of the same instruction, whose numbers begin at base; for a read that is no
acquire and no atomic also one of any group of the team that arrived within 64 cycles and has not left the core (03
R102, log 66). -/
def State.joins (s : State) (th : ThreadKey) (base : Nat) (plain spad : Bool) (line : Nat) : Option LineReq :=
  (s.team th.gk.team).bind (fun t => t.reqs.find? (fun r => r.plain == plain && r.spad == spad && r.line == line &&
    ((decide (base ≤ r.id) && r.gk == th.gk)
      || (plain && !spad && decide (s.cycle ≤ r.t0 + 64) && Config.waits r.id s.cycle))))

/-- Has a load no collector entry to join and none to take (03 R103)? -/
def State.collFull (s : State) (th : ThreadKey) (base : Nat) (plain spad : Bool) (line : Nat) : Bool :=
  !spad && (s.joins th base plain spad line).isNone && !s.collRoom th.gk.team 1

/-- The destination of a load waits for its value, which the collector holds (03 R102, R260). -/
def State.bindLoad (s : State) (th : ThreadKey) (base d v : Nat) (taint plain spad : Bool) (line : Nat) : State :=
  let u := s.thread th
  let dst : LaneDst := { thr := th, cell := cellIx u.uin d, val := BitVec.ofNat 64 v, taint := taint }
  let wait (s : State) (id : Nat) : State := s.modThread th (fun u =>
    u.setCell th.gk.exe d { u.cell th.gk.exe d with st := .load id })
  match s.joins th base plain spad line with
  | some r =>
    wait (s.modTeam th.gk.team (fun t => { t with reqs := t.reqs.map (fun x =>
      if x.id = r.id then { x with lanes := x.lanes ++ [dst] } else x) })) r.id
  | none =>
    let r := (if spad then s else s.sketch th u.pc 5 1).takeId th.gk.team
    wait (r.2.modTeam th.gk.team (fun t => { t with reqs := t.reqs ++
      [{ id := r.1, gk := th.gk, spad := spad, plain := plain, line := line, lanes := [dst], t0 := s.cycle, pc := u.pc }] })) r.1

/-- The entry that a lane of a store joins: of the same instruction, on the same line (R102). -/
def State.joinsStore (s : State) (th : ThreadKey) (base : Nat) (l : Loc) : Option PendStore :=
  (s.team th.gk.team).bind (fun t => t.stores.find? (fun r =>
    decide (base ≤ r.id) && r.gk == th.gk && r.spad == l.spad && r.phys.slot == l.slot
      && r.lanes.all (fun x => x.addr / 64 == l.addr / 64)))

/-- A store waits to be ordered: with the lanes of the same instruction on the same line (R102). -/
def State.bindStore (s : State) (th : ThreadKey) (base : Nat) (l : Loc) (va v : Nat) (rel : Bool) : State :=
  let pc := (s.thread th).pc
  let lane : StLane := { thr := th.thr, addr := l.addr, n := l.n, val := v % 2 ^ (8 * l.n), va := va, lvl := l.phys.lvl }
  match s.joinsStore th base l with
  | some r =>
    s.modTeam th.gk.team (fun t => { t with stores := t.stores.map (fun x =>
      if x.id = r.id then { x with lanes := x.lanes ++ [lane] } else x) })
  | none =>
    let r := (if l.spad then s else s.sketch th pc 5 1).takeId th.gk.team
    r.2.modTeam th.gk.team (fun t => { t with stores := t.stores ++
      [{ id := r.1, gk := th.gk, pc := pc, spad := l.spad, phys := l.phys, rel := rel, lanes := [lane] }] })

/-- The bytes of a lane of a store. -/
def StLane.bytes (l : StLane) : List Byte := leBytes l.n l.val

/-- The byte that a store's lanes leave at an address: the last lane's (R175). -/
def PendStore.byteAt (r : PendStore) (a : Nat) : Option Byte :=
  ((r.lanes.filter (fun l => decide (l.addr ≤ a) && decide (a < l.addr + l.n))).getLast?).map
    (fun l => l.bytes.getD (a - l.addr) 0)

/-- Is a KV operation in flight? -/
def State.kvBusy (s : State) : Bool := s.groups.any (fun g => g.threads.any (fun t => (t.kv.map (fun k => k.out.isNone)).getD false))

/-- A plain store or an atomic has been performed: what a KV operation in flight has to know of it (04 R126). -/
def State.kvNote (s : State) (pa n : Nat) : State := if s.kvBusy then { s with kvLog := s.kvLog ++ [(pa, n)] } else s

/-- A write of a core at its home slice under a leaf (R95); a KV operation in flight may meet it. -/
def State.coreWrite (s : State) (ctx : Nat) (q : Phys) (pa : Nat) (bs : List Byte) : State :=
  (s.writeLine (s.pol ctx q.pte) q.slot pa bs).kvNote pa bs.length

/-- A store is performed: at the scratchpad, or at the home slice with the core's own L1 copy (R88); lanes that cover
the line write it whole (14 R446). It is discarded where its key slot is no longer LOADED, or is LOADED anew (01 R37,
R40). -/
def State.performStore (s : State) (k : TeamKey) (r : PendStore) : State :=
  if r.spad then r.lanes.foldl (fun s l => s.spadWrite k l.addr l.bytes) s
  else if !s.keyHolds r.phys then s
  else
    let core := s.coreOf k
    let ctx := s.ctxOf k.job
    let line := ((r.lanes.head?.map (fun l => l.addr)).getD 0) / 64 * 64
    let byte := (List.range 64).map (fun i => r.byteAt (line + i))
    let s :=
      if byte.all (fun b => b.isSome) then s.coreWrite ctx r.phys line (byte.map (fun b => b.getD 0))
      else r.lanes.foldl (fun s l => s.coreWrite ctx r.phys l.addr l.bytes) s
    match s.l1Hit core line r.phys.slot with
    | some d =>
      s.l1Put core line r.phys.slot (blockOf ((List.range 64).map (fun i =>
        ((byte.getD i none)).getD ((blockBytes d).getD i 0))))
    | none => s.dropL1Core core line

end Sys2Proof.Machine
end

