-- ==== Sys2Proof/Machine/Memory.lean ====
section
/-! DEFINITION. Loads, stores, load-consume, prefetch, atomics, reductions and compare-and-swap (09 R257-R262, R277,
05 R150, R157), and the events that complete loads and order stores (R259, R260). -/

namespace Sys2Proof.Machine

/-! ### Fields (07 R207) -/

/-- Bytes of an access of W3. -/
def wBytes (w : BitVec 3) : Nat := 2 ^ (w.toNat % 4)

/-- A loaded value as it reaches its register: zero- or sign-extended (R207, R257). -/
def loadValue (w : BitVec 3) (v : Nat) : Nat :=
  if 4 ≤ w.toNat then wrapN 64 (sextN (8 * wBytes w) v) else v

/-- The ordering of an access (R144): acquire, release, and the scope as its place among .grp .. .sys (0 for none). -/
structure Order where
  acq : Bool
  rel : Bool
  scope : Nat
  deriving DecidableEq, Repr

/-- No ordering. -/
def Order.plain : Order := { acq := false, rel := false, scope := 0 }

/-- OS of an atomic or a fence: 1-5 acquire, 6-10 release, 11-15 both (R207). -/
def Order.ofOs (os : BitVec 4) : Order :=
  let n := os.toNat
  if n = 0 then .plain
  else { acq := decide (n ≤ 5 ∨ 11 ≤ n), rel := decide (6 ≤ n), scope := (n - 1) % 5 + 1 }

/-- Is an ordering one of cluster scope or wider (R163)? -/
def Order.wide (o : Order) : Bool := decide (3 ≤ o.scope)

/-- Does an access with this ordering synchronise (R144)? -/
def Order.sync (o : Order) : Bool := o.acq || o.rel

/-! ### Loads -/

/-- The value that a load finds in a store of its own thread. -/
def StLane.slice (x : StLane) (addr n : Nat) : Nat := x.val / 2 ^ (8 * (addr - x.addr)) % 2 ^ (8 * n)

/-- Does a load wait at its location: for an STQ or a load into a queue of its thread, for a store of its thread that
covers part of it, and as an acquire for the thread's release stores (R156, R159)? -/
def State.loadWaits (s : State) (th : ThreadKey) (acq : Bool) (l : Loc) : Bool :=
  let b := s.nowId th.gk.team
  (acq && s.relPending th) || s.stqAt th b l.spad l.slot l.addr l.n || s.fillAt th b l.spad l.slot l.addr l.n
    || (match (s.storesAt th b l.spad l.slot l.addr l.n).getLast? with
        | some x => !(decide (x.addr ≤ l.addr) && decide (l.addr + l.n ≤ x.addr + x.n))
        | none => false)

/-- The bytes that a load reads: from its own thread's store, the scratchpad, the L1, or the home slice (R259). -/
def State.loadFrom (s : State) (th : ThreadKey) (direct : Bool) (l : Loc) : DataOut × State :=
  match (s.storesAt th (s.nowId th.gk.team) l.spad l.slot l.addr l.n).getLast? with
  | some x => (.ok (leBytes l.n (x.slice l.addr l.n)), s)
  | none =>
    let k := th.gk.team
    if l.spad then
      if s.spadEcc k l.addr l.n then (.ecc, s) else (.ok (s.spadRead k l.addr l.n), s)
    else if pteCl l.pte = 0 && !direct then s.l1Read (s.coreOf k) (s.ctxOf k.job) l
    else s.homeRead (s.coreOf k) (s.ctxOf k.job) l

/-- A lane whose data failed: KEYMIS as a translation fault (01 R25), uncorrectable data as ECC (14 R398). -/
def Act.data (s : State) (th : ThreadKey) (va : Nat) (out : DataOut) (k : List Byte → Act) : Act :=
  match out with
  | .ok bs => k bs
  | .keymis => Act.raise s th (.xlat .keymis va (s.thread th).pc)
  | .ecc => Act.raise s th (.eccAt va (s.thread th).pc)

/-- What a load is beside its address: destination, width, ordering, the scope of an LDC, whether it passes the L1. -/
structure LoadKind where
  d : Nat
  w : BitVec 3
  ord : Order
  consume : Option Nat
  home : Bool := false
  deriving DecidableEq, Repr

/-- A lane that waits lets the lanes after it act. -/
def Act.bypass : Act → Act
  | .hold s st => .wait s st
  | o => o

/-- One lane of a load: it is located, its data read and bound to its destination (R257-R260). -/
def State.loadLane (s : State) (k : LoadKind) (base : Nat) (th : ThreadKey) (r : MemReq) (taint : Bool) : Act :=
  let plain := !k.ord.acq
  let wide := k.ord.acq && k.ord.wide
  let direct := k.home || taint || wide || (match k.consume with | some sc => decide (3 ≤ sc) | none => false)
  (s.accessAct th .read r (fun s l =>
    if s.loadWaits th k.ord.acq l then .hold s false
    else if s.collFull th base plain l.spad (l.addr / 64) then .hold (s.collWait th.gk) true
    else
      let s := if wide then s.clearL1 (s.coreOf th.gk.team) else s
      let (out, s) := s.loadFrom th direct l
      Act.data s th r.va out (fun bs =>
        let v := loadValue k.w (leNat bs)
        Act.next (s.bindLoad th base k.d v (taint || k.consume.isSome) plain l.spad (l.addr / 64)) th))).bypass

/-- A load of every acting lane; addr gives its request and whether its address is tainted (R150). -/
def execLoad (s : State) (i : Instr) (op : Op) (k : LoadKind) (addr : Thread → MemReq × Bool) :
    Host.Outcome State Fault Refusal :=
  execLoads s i op (fun base s th =>
    let x := addr (s.thread th)
    s.loadLane k base th x.1 x.2)

/-- The request of a MEM-format word (R257). -/
def memAddr (f : OpMem) (t : Thread) : MemReq × Bool :=
  ({ spad := false, va := wrapN 64 ((t.rn false f.a.toNat : Int) + memOffset f.off (f.w.toNat % 4)), n := wBytes f.w },
   t.taintOf false f.a.toNat)

/-- The request of an MA-format word (R258). -/
def maAddr (f : OpMa) (t : Thread) : MemReq × Bool :=
  ({ spad := f.sp, va := t.rn false f.a.toNat, n := wBytes f.w }, t.taintOf false f.a.toNat)

/-- LD (R257). -/
def execLd (f : OpMem) (s : State) : Host.Outcome State Fault Refusal :=
  execLoad s (.ld f) { guard := 7#3, srcs := [src f.a], dsts := [f.d.toNat] }
    { d := f.d.toNat, w := f.w, ord := .plain, consume := none } (memAddr f)

/-- LD_MA (R258). -/
def execLdMa (f : OpMa) (s : State) : Host.Outcome State Fault Refusal :=
  execLoad s (.ldMa f) { guard := f.g, srcs := [src f.a], dsts := [f.d.toNat] }
    { d := f.d.toNat, w := f.w, ord := .ofOs f.os, consume := none } (maAddr f)

/-- LDC (R150, R258). -/
def execLdc (f : OpMa) (s : State) : Host.Outcome State Fault Refusal :=
  execLoad s (.ldc f) { guard := f.g, srcs := [src f.a], dsts := [f.d.toNat] }
    { d := f.d.toNat, w := f.w, ord := .plain, consume := some (f.os.toNat - 5) } (maAddr f)

/-! ### Stores -/

/-- A store of every acting lane (R257, R258): it is checked and translated, and waits to be ordered (R259). -/
def execStore (s : State) (i : Instr) (op : Op) (d : BitVec 5) (rel : Bool) (addr : Thread → MemReq × Bool) :
    Host.Outcome State Fault Refusal :=
  execAcc s i op
    (fun s th => s.readyAt th .write (addr (s.thread th)).1 (fun _ => false)) alone
    (fun base s th =>
      let t := s.thread th
      let r := (addr t).1
      (s.accessAct th .write r (fun s l =>
        if !l.spad && (s.joinsStore th base l).isNone && !s.collRoom th.gk.team 1 then .hold (s.collWait th.gk) true
        else Act.next (s.bindStore th base l r.va (t.rn false d.toNat) rel) th)).bypass)

/-- ST (R257). -/
def execSt (f : OpMem) (s : State) : Host.Outcome State Fault Refusal :=
  execStore s (.st f) { guard := 7#3, srcs := [src f.a, src f.d], dsts := [] } f.d false (memAddr f)

/-- ST_MA (R258). -/
def execStMa (f : OpMa) (s : State) : Host.Outcome State Fault Refusal :=
  execStore s (.stMa f) { guard := f.g, srcs := [src f.a, src f.d], dsts := [] } f.d (f.os != 0#4) (maAddr f)

/-! ### Atomics (R261, R262) -/

/-- The new value of ATOM and RED. -/
def atomNew (op : BitVec 3) (w old b : Nat) : Nat :=
  if op = 0#3 then (old + b) % 2 ^ w
  else if op = 1#3 then old &&& b
  else if op = 2#3 then old ||| b
  else if op = 3#3 then old ^^^ b
  else if op = 4#3 then b
  else if op = 5#3 then (old + 1) % 2 ^ w
  else (old + 2 ^ w - 1) % 2 ^ w

/-- The new value of the minima and maxima. -/
def minmaxNew (op : BitVec 3) (w old b : Nat) : Nat :=
  if op = 0#3 then (if sextN w old ≤ sextN w b then old else b)
  else if op = 1#3 then min old b
  else if op = 2#3 then (if sextN w b ≤ sextN w old then old else b)
  else max old b

/-- What an atomic is beside its operands: ordering, space, width in bytes, destination, and the new value of an old
one (none: nothing is written), with the operands' taint. -/
structure AtomKind where
  ord : Order
  sp : Bool
  n : Nat
  a : Nat
  d : Option Nat
  pred : Option (BitVec 3)
  deriving DecidableEq, Repr

/-- Does an atomic wait: for the thread's own accesses of its location, for its loads that have not bound their value, as a
release for every earlier access, as a synchronising access for the thread's release stores (R158, R159, R259)? -/
def State.atomWaits (s : State) (th : ThreadKey) (o : Order) (l : Loc) : Bool :=
  s.conflict th l || s.reading th || (o.rel && !s.quiet th) || (o.sync && s.relPending th)

/-- Write the result of an atomic: at the scratchpad, or at the home slice, whose line leaves every L1 (R89). -/
def State.atomWrite (s : State) (k : TeamKey) (l : Loc) (v : Nat) : State :=
  if l.spad then s.spadWrite k l.addr (leBytes l.n v)
  else (s.coreWrite (s.ctxOf k.job) l.phys l.addr (leBytes l.n v)).dropL1 l.addr l.n

/-- An atomic of every acting lane, each one step (R262): new gives the value that a thread's lane writes. The lanes of a line
act together, one after another (R157). -/
def execAtomic (s : State) (i : Instr) (op : Op) (k : AtomKind) (new : Thread → Nat → Option Nat)
    (taint : Thread → Bool) : Host.Outcome State Fault Refusal :=
  let addr (t : Thread) : MemReq := { spad := k.sp, va := t.rn false k.a, n := k.n }
  execAcc s i op
    (fun s th => s.readyAt th .atomic (addr (s.thread th)) (s.atomWaits th k.ord))
    (fun s th => s.lineMate th (addr (s.thread th)))
    (fun base s th =>
      let t := s.thread th
      let r := addr t
      let tk := th.gk.team
      (s.accessAct th .atomic r (fun s l =>
       if s.collFull th base false l.spad (l.addr / 64) then .hold (s.collWait th.gk) true
       else
        let (out, s) :=
          if l.spad then
            (if s.spadEcc tk l.addr l.n then (DataOut.ecc, s) else (.ok (s.spadRead tk l.addr l.n), s))
          else s.homeRead (s.coreOf tk) (s.ctxOf tk.job) l
        Act.data s th r.va out (fun bs =>
          let old := leNat bs
          let v := new t old
          let s := match v with
            | some v => s.atomWrite tk l v
            | none => s
          let s := if k.ord.acq && k.ord.wide then s.clearL1 (s.coreOf tk) else s
          let s := match k.pred with
            | some p => s.modThread th (fun t => t.setPred p v.isSome)
            | none => s
          let s := match k.d with
            | some d => s.bindLoad th base d old (taint t) false l.spad (l.addr / 64)
            | none => s
          Act.next s th))).bypass)

/-- Width in bytes of W. -/
def dwBytes (dw : Bool) : Nat := if dw then 8 else 4

/-- ATOM and its minima and maxima. -/
def execAtomWith (s : State) (i : Instr) (f : OpAtom) (new : Nat → Nat → Nat → Nat) : Host.Outcome State Fault Refusal :=
  let w := 8 * dwBytes f.dw
  execAtomic s i { guard := 7#3, srcs := [src f.a, src f.b], dsts := [f.d.toNat] }
    { ord := .ofOs f.os, sp := f.sp, n := dwBytes f.dw, a := f.a.toNat, d := some f.d.toNat, pred := none }
    (fun t old => some (new w old (t.rn false f.b.toNat % 2 ^ w)))
    (fun t => t.taintOf false f.a.toNat || t.taintOf false f.b.toNat)

/-- RED and its minima and maxima. -/
def execRedWith (s : State) (i : Instr) (f : OpRed) (new : Nat → Nat → Nat → Nat) : Host.Outcome State Fault Refusal :=
  let w := 8 * dwBytes f.dw
  execAtomic s i { guard := 7#3, srcs := [src f.a, src f.b], dsts := [] }
    { ord := .ofOs f.os, sp := f.sp, n := dwBytes f.dw, a := f.a.toNat, d := none, pred := none }
    (fun t old => some (new w old (t.rn false f.b.toNat % 2 ^ w))) (fun _ => false)

/-- ATOM (R262). -/
def execAtom (f : OpAtom) (s : State) : Host.Outcome State Fault Refusal := execAtomWith s (.atom f) f (atomNew f.op)

/-- RED (R261). -/
def execRed (f : OpRed) (s : State) : Host.Outcome State Fault Refusal := execRedWith s (.red f) f (atomNew f.op)

/-- ATOM_MINMAX (R262). -/
def execAtomMinmax (f : OpAtom) (s : State) : Host.Outcome State Fault Refusal :=
  execAtomWith s (.atomMinmax f) f (minmaxNew f.op)

/-- RED_MINMAX (R261). -/
def execRedMinmax (f : OpRed) (s : State) : Host.Outcome State Fault Refusal :=
  execRedWith s (.redMinmax f) f (minmaxNew f.op)

/-- CAS (R262). -/
def execCas (f : OpCas) (s : State) : Host.Outcome State Fault Refusal :=
  let w := 8 * dwBytes f.dw
  execAtomic s (.cas f) { guard := 7#3, srcs := [src f.a, src f.b, src f.d], dsts := [f.d.toNat] }
    { ord := .ofOs f.os, sp := f.sp, n := dwBytes f.dw, a := f.a.toNat, d := some f.d.toNat, pred := some f.ps }
    (fun t old => if old = t.rn false f.d.toNat % 2 ^ w then some (t.rn false f.b.toNat % 2 ^ w) else none)
    (fun t => t.taintOf false f.a.toNat || t.taintOf false f.b.toNat || t.taintOf false f.d.toNat)

/-! ### Prefetch -/

/-- PREF (R277, 01 R22): the line enters the L1 where CL = 00 and the L1 does not hold it, else the L2; a miss of the
translation caches asks for a walk, and what fails is dropped. -/
def execPref (f : OpPref) (s : State) : Host.Outcome State Fault Refusal :=
  execLanes s (.pref f) { guard := f.g, srcs := [src f.d], dsts := [] } (fun s th =>
    let k := th.gk.team
    let core := s.coreOf k
    let ctx := s.ctxOf k.job
    let va := (s.thread th).rn false f.d.toNat
    let w : Who := { core := core, ctx := ctx, priv := s.priv k.job, ask := some (.prefetch core) }
    match s.translate w .read va with
    | .ok p =>
      let s := s.learn core ctx va
      let l : Loc := { spad := false, addr := p.pa, n := 1, phys := p }
      if !f.l2 && pteCl p.pte = 0 then Act.next (s.l1Read core ctx l).2 th
      else Act.next (s.l2Touch (s.pol ctx p.pte) p.slot p.pa) th
    | .miss => Act.next (s.requestWalk ctx va (.prefetch core)) th
    | .fault _ => Act.next s th)

/-! ### Events -/

/-- A returned value reaches its register (R260). -/
def State.landLane (s : State) (id : Nat) (d : LaneDst) : State :=
  s.modThread d.thr (fun t => { t with regs := updAt t.regs d.cell (fun c =>
    if c.st = .load id then { val := d.val, st := .full, taint := d.taint } else c) })

/-- LOAD_RETURN (R260, 16 R420, R423): the lanes of a collector entry receive their values. -/
def execLoadReturn (tk : TeamKey) (id : Nat) (s : State) : Host.Outcome State Fault Refusal :=
  match (s.team tk).bind (fun t => t.reqs.find? (fun r => r.id == id)) with
  | none => .next s
  | some r =>
    let s := s.modTeam tk (fun t => { t with reqs := t.reqs.filter (fun x => x.id != id) })
    let s := r.lanes.foldl (fun s d => s.landLane id d) s
    match r.lanes.head? with
    | some d => if r.spad then .next s else .next (s.completed (s.coreOf tk) 0 d.thr r.pc r.t0)
    | none => .next s

/-- May a store be ordered: after the accesses that its threads made before it to its bytes, after every earlier load of
its threads has bound its value, and as a release after every earlier access of its threads (R156, R158, R259)? -/
def State.storeReady (s : State) (r : PendStore) : Bool :=
  r.lanes.all (fun l =>
    let th : ThreadKey := { gk := r.gk, thr := l.thr }
    (s.storesAt th r.id r.spad r.phys.slot l.addr l.n).isEmpty && !s.stqAt th r.id r.spad r.phys.slot l.addr l.n
      && !s.readingBefore th r.id && !(r.rel && s.busyBefore th r.id))

/-- STORE_ORDERED (R259, 05 R161): a store is performed. -/
def execStoreOrdered (tk : TeamKey) (id : Nat) (s : State) : Host.Outcome State Fault Refusal :=
  match (s.team tk).bind (fun t => t.stores.find? (fun r => r.id == id)) with
  | none => .next s
  | some r =>
    if s.storeReady r then
      .next (((s.performStore tk r).modTeam tk (fun t => { t with stores := t.stores.filter (fun x => x.id != id) })).tevCheck tk.job)
    else .next s

end Sys2Proof.Machine
end

