-- ==== Sys2Proof/Machine/Quant.lean ====
section
/-! DEFINITION. The block instructions of the execute slice: QNT, QSCL, DQ, HDRR, HDRW, CBK (10 R300-R308). -/

namespace Sys2Proof.Machine

/-! ### Blocks and elements across the threads of a group (R300) -/

/-- Word w of a block. -/
def blockWord (b : Block) (w : Nat) : Nat := bits b.toNat (32 * w + 31) (32 * w)

/-- Write a block to half h of a register of the participants. -/
def Group.putBlock (g : Group) (go : List Nat) (r h : Nat) (b : Block) : Group :=
  g.mapThreads (fun t th =>
    if go.contains t && t / 16 == h then th.wn true r (blockWord b (t % 16)) false else th)

/-- The first n elements of registers from a base, from the participants. -/
def Group.elements (g : Group) (go : List Nat) (base n : Nat) : List FVal :=
  (List.range n).map (fun e =>
    if go.contains (e % 32) then f32 ((g.thr (e % 32)).rn true (base + e / 32)) else .zero)

/-- A register of the lowest-indexed participant. -/
def Group.scalar (g : Group) (go : List Nat) (r : Nat) : Nat := (g.thr (go.headD 0)).rn true r

/-- What the participants of a block instruction do: an effect on the group, or one cause for each of them. -/
inductive BlkAct where
  | done (f : Group → Group)
  | trap (i : TrapInfo)

/-- Apply a list of meetings to the lanes that leave. -/
def State.leaveAll (s : State) (gk : GroupKey) (ms : List (Nat × Meet)) : State :=
  ms.foldl (fun s x => s.leave { gk := gk, thr := x.1 } x.2) s

/-- What the lanes of a block instruction meet at its sources (R300): each lane at the registers that hold its own elements or
words, and the lowest-indexed participant at the scalar parameters too. low: it has been found. -/
def blockMeets (p : Pass) (g : Group) (srcs : Nat → List Nat) (scalars : List Nat) : Bool → List Nat → List (Nat × Meet)
  | _, [] => []
  | low, t :: ts =>
    let rs := srcs t ++ (if low then [] else scalars)
    let m : Meet :=
      if p.mid.contains t then .trap (illop p.pc p.word) none
      else ({ guard := 7#3, srcs := rs.map (fun r => (r, false)), dsts := [] } : Op).operands g true t p.pc
    (t, m) :: blockMeets p g srcs scalars (low || m = .go) ts

/-- The lanes of a list of meetings that go on. -/
def going (ms : List (Nat × Meet)) : List Nat := ms.filterMap (fun x => if x.2 = .go then some x.1 else none)

/-- The meetings of the lanes that went on so far, replaced; the others stand. -/
def meetAgain (ms : List (Nat × Meet)) (f : Nat → Meet) : List (Nat × Meet) :=
  ms.map (fun x => if x.2 = .go then (x.1, f x.1) else x)

/-- The action of a block instruction whose lanes can act, ms giving those that cannot (R391: the records in increasing
thread index, and BADARG before the ECC of a source). -/
def State.blockAct (s : State) (p : Pass) (ms : List (Nat × Meet)) (ds : Nat → List Nat) (a : BlkAct) : State :=
  match a with
  | .trap i => (s.leaveAll p.gk (ms.map (fun x =>
      if x.2 = .go || (x.2.isEcc && i.cause.beforeEcc) then (x.1, .trap i none) else x))).withSel []
  | .done f =>
    let go := going ms
    let s := go.foldl (fun s t => (ds t).foldl (fun s r => s.clearPoison { gk := p.gk, thr := t } r) s) s
    let s := s.modGroup p.gk (fun g => (f g).mapThreads (fun t th => if go.contains t then th.advance else th))
    (s.leaveAll p.gk ms).withSel go

/-- A block instruction under a tile predicate (R300, R301): encoding, predicate, sources, then the list that it reads
and the registers that each lane writes, then its action. act gets the participants, whose sources can be read, and
among them the lanes whose destinations can be written. -/
def execBlock (s : State) (i : Instr) (k : BitVec 4) (undeclared : Group → Bool) (srcs : Nat → List Nat) (scalars : List Nat)
    (lst : Group → List Nat → Option Nat) (dsts : Group → List Nat → Nat → List Nat)
    (act : Pass → Group → List Nat → List Nat → BlkAct) : Host.Outcome State Fault Refusal :=
  withPass s (fun p g =>
    if s.forbids p.gk i || undeclared g then trapSel s p (illop p.pc p.word)
    else if !g.kp k then retireSel s p
    else
      let ms := blockMeets p g srcs scalars false p.sel
      let go := going ms
      let ds := dsts g go
      let ws := meetAgain ms (fun t => ({ guard := 7#3, srcs := [], dsts := ds t } : Op).operands g true t p.pc)
      let stop (ms : List (Nat × Meet)) : State := (s.leaveAll p.gk ms).withSel []
      if ms.any (fun x => x.2 = .wait) then s.holdSet p [] false
      else if go.isEmpty then stop ms
      else match (lst g go).map (fun n => (n, g.ol n)) with
        | some (n, o) =>
          match o.st with
          | .transit _ _ => s.holdSet p [] false
          | .wait _ _ => stop (meetAgain ms (fun _ => .block (.olRead n)))
          | .poisoned q og =>
            (stop (meetAgain ms (fun _ => .trap (.ofPoison q true og p.pc p.pc) none))).modGroup p.gk (fun g => g.raiseOl n)
          | .full =>
            if o.ecc then (s.fatal p.gk go .array).withSel []
            else if ws.any (fun x => x.2 = .wait) then s.holdSet p [] false
            else if (going ws).isEmpty then stop ws
            else s.blockAct p ws ds (act p g go (going ws))
        | none =>
          if ws.any (fun x => x.2 = .wait) then s.holdSet p [] false
          else if (going ws).isEmpty then stop ws
          else s.blockAct p ws ds (act p g go (going ws)))

/-- The exact value of an element as its FP32 code, for a list (R304). -/
def listCode (x : FVal) : Word := BitVec.ofNat 32 (convert .fp32 x).1

/-- The registers of a thread that hold elements of a block of n, from a base (R300): element e is in thread e mod 32. -/
def heldBy (base n t : Nat) : List Nat := ((List.range 3).filter (fun j => decide (32 * j + t < n))).map (base + ·)

/-! ### Meanings -/

/-- QNT (R301-R304). -/
def execQnt (f : OpQnt) (s : State) : Host.Outcome State Fault Refusal :=
  let n := b2n f.ol
  let fmt := f.fmt.toNat
  let ne := elemCount fmt
  execBlock s (.qnt f) f.k (fun g => decide (g.ols.length ≤ n)) (heldBy f.a.toNat ne) [f.a.toNat + 3, f.a.toNat + 4]
    (fun _ _ => some n) (fun _ _ t => if t / 16 == b2n f.h then [f.b.toNat] else []) (fun p g go wr =>
      let w := g.scalar go (f.a.toNat + 3)
      let given := g.scalar go (f.a.toNat + 4)
      if qparamBad w given (groupCount fmt) then .trap (.at .badarg p.pc)
      else
        let xs := g.elements go f.a.toNat ne
        let o := g.ol n
        let (b, picked, fl) := qntBlock xs (QParam.ofNat w) fmt given o.cnt f.elect
        if o.cnt + picked.length > 64 then .trap (.at .olovf p.pc)
        else .done (fun g =>
          let g := { g with ols := updAt g.ols n (fun o =>
            { o with
              cnt := o.cnt + picked.length
              es := (List.range 64).map (fun j =>
                if o.cnt ≤ j then
                  match picked[j - o.cnt]? with
                  | some e => listCode (xs.getD e .zero)
                  | none => o.es.getD j 0
                else o.es.getD j 0) }) }
          let g := g.mapThreads (fun t th => if wr.contains t then th.flag fl else th)
          g.putBlock wr f.b.toNat (b2n f.h) b))

/-- QSCL (R305). -/
def execQscl (f : OpQscl) (s : State) : Host.Outcome State Fault Refusal :=
  let fmt := f.fmt.toNat
  execBlock s (.qscl f) f.k (fun _ => false) (heldBy f.a.toNat (elemCount fmt)) [f.a.toNat + 3, f.a.toNat + 4]
    (fun _ _ => none) (fun _ _ _ => [f.b.toNat, f.b.toNat + 1]) (fun p g go wr =>
      let w := g.scalar go (f.a.toNat + 3)
      let given := g.scalar go (f.a.toNat + 4)
      if qparamBad w given (groupCount fmt) then .trap (.at .badarg p.pc)
      else
        let (_, se, sf, codes) := qntScales (g.elements go f.a.toNat (elemCount fmt)) (QParam.ofNat w) fmt given f.elect
        let word := setBits (setBits (setBits (setBits w 18 18 1) 10 10 0) 9 8 sf) 7 0 se
        let bytes := ((List.range codes.length).map (fun g => codes.getD g 0 * 2 ^ (8 * g))).sum
        .done (fun g => g.mapThreads (fun t th =>
          if wr.contains t then (th.wn true f.b.toNat word false).wn true (f.b.toNat + 1) bytes false else th)))

/-- The registers that DQ writes for a format (R306). -/
def dqRegs (fmt : Nat) : Nat := cdiv (elemCount fmt) 32

/-- The information of a block check that fails (R306, 14 R393). -/
def blkTrap (e : BlkErr) (exe : Bool) (pc : Pc) : TrapInfo :=
  match e with
  | .poison => .ofPoison { va := 0, sp := false, rtag := 0xFFFF, kind := 0, cls := 2 } exe pc pc pc
  | .fmt => .at .blkfmt pc
  | .hdr => .at .blkhdr pc
  | .olref => .at .olref pc

/-- DQ (R306). -/
def execDq (f : OpDq) (s : State) : Host.Outcome State Fault Refusal :=
  let n := b2n f.ol
  let h := b2n f.h
  let blk (g : Group) (go : List Nat) : Block := g.blockAt go f.a.toNat h
  let beyond (b : Block) : Bool := decide (f.b.toNat + dqRegs (blkFmt b) > 32)
  execBlock s (.dq f) f.k (fun _ => false) (fun t => if t / 16 = h then [f.a.toNat] else []) []
    (fun g go => if blkOln (blk g go) != 0 then some n else none)
    (fun g go _ =>
      let b := blk g go
      if beyond b || (checkBlock b none).isSome then [] else (List.range (dqRegs (blkFmt b))).map (f.b.toNat + ·))
    (fun p g go wr =>
      let b := blk g go
      let o := g.ol n
      if beyond b then .trap (.at .badarg p.pc)
      else match checkBlock b (some o.cnt) with
        | some e => .trap (blkTrap e true p.pc)
        | none =>
          let vals := (decodeValues b o.es).map (fun v => convert .fp32 v)
          .done (fun g => g.mapThreads (fun t th =>
            if wr.contains t then
              let mine := (List.range (dqRegs (blkFmt b))).map (fun j => (j, vals.getD (32 * j + t) (0, 0)))
              mine.foldl (fun th x => (th.wn true (f.b.toNat + x.1) x.2.1 false).flag x.2.2) th
            else th)))

/-- HDRR (R307): the words of the block are read in threads 16h to 16h + 15 (R300). -/
def execHdrr (f : OpHdr) (s : State) : Host.Outcome State Fault Refusal :=
  withPass s (fun p g =>
    runMap s p g (s.forbids p.gk (.hdrr f))
      (fun t => { guard := f.g, srcs := if t / 16 = b2n f.h then [srcP f.a f.pa] else [], dsts := [f.d.toNat] })
      (fun g go _ th =>
        let b := g.blockAt go f.a.toNat (b2n f.h)
        (th.wn true f.d.toNat (bits b.toNat 15 0 + blkOlb b * 2 ^ 16 + blkOln b * 2 ^ 22) false).advance))

/-- HDRW (R307): thread 16h alone acts. -/
def execHdrw (f : OpHdr) (s : State) : Host.Outcome State Fault Refusal :=
  withPass s (fun p g =>
    let at_ := 16 * b2n f.h
    runMap s p g (s.forbids p.gk (.hdrw f))
      (fun t => if t = at_ then { guard := f.g, srcs := [srcP f.a f.pa, src f.d], dsts := [f.d.toNat] } else opG f.g)
      (fun _ _ t th =>
        if t = at_ then
          let a := th.rn true f.a.toNat
          let d := th.rn true f.d.toNat
          (th.wn true f.d.toNat (setBits (setBits d 6 5 (bits a 9 8)) 15 8 (bits a 7 0)) false).advance
        else th.advance))

/-- CBK (R308). -/
def execCbk (f : OpRG) (s : State) : Host.Outcome State Fault Refusal :=
  execMap s (.cbk f) (rgOp f) (fun _ _ t th =>
    let ix := th.rn true f.a.toNat % 65536
    th.fpResult f.d (
      if ix = 0xFFFF then (nan32, fNV)
      else out .fp32 ((halves ((vq2Halves ix).getD (t % 8) 0)).mul (f32 (th.rn true f.b.toNat)))))

end Sys2Proof.Machine
end

