-- ==== Sys2Proof/Machine/Matrix.lean ====
section
/-! DEFINITION. Matrix arithmetic: fragments, `mma_cell`, checksums (11 R309-R320), tile cells and their conversions
(R321-R323, R328, R330). -/

namespace Sys2Proof.Machine

/-! ### Fragments (R309, R310) -/

/-- Width class of a format; 0 where the format is none of R309. -/
def widthClass (fmt : Nat) : Nat :=
  if fmt = 2 ∨ fmt = 3 then 1 else if 4 ≤ fmt ∧ fmt ≤ 6 then 2 else if fmt = 7 ∨ fmt = 8 then 3
  else if fmt = 9 ∨ fmt = 10 then 4 else if fmt = 11 then 5 else 0

/-- Natural K of a width class. -/
def naturalK (cls : Nat) : Nat := if cls = 1 then 24 else if cls = 2 ∨ cls = 3 then 48 else 96

/-- Registers of a fragment by the format of its first block. -/
def fragSpan (fmt : Nat) : Nat := if fmt = 0x0B then 8 else 16

/-- The grid factor of a format (R67). -/
def gridFactor (fmt : Nat) : Nat :=
  if fmt = 9 ∨ fmt = 11 then 2 else if fmt = 8 then 8 else if fmt = 7 then 16 else if fmt = 4 then 2 ^ 9
  else if fmt = 5 then 2 ^ 16 else 1

/-- A finite value times a power of two that makes it an integer; specials are 0. -/
def asInt (v : FVal) (factor : Nat) : Int :=
  match v with
  | .fin n m e =>
    let x := if e ≥ 0 then m * factor * 2 ^ e.toNat else m * factor / 2 ^ (-e).toNat
    if n then -(x : Int) else x
  | _ => 0

/-- One element of a row or column: code value, escape, list value, full value, checksum integer (R319). -/
structure MElem where
  code : FVal
  esc : Bool
  ol : FVal
  val : FVal
  grid : Int

/-- The signed significand of a 16-bit code, specials as 0 (R319). -/
def significand (v : FVal) : Int :=
  match v with
  | .fin n m _ => if n then -(m : Int) else m
  | _ => 0

/-- A row or column of a fragment: elements, group scales, block scale. -/
structure MRow where
  elems : List MElem
  sgs : List FVal
  sb : FVal

/-- All elements of a block against its list. -/
def blockElems (b : Block) (list : List Word) : List MElem :=
  let fmt := blkFmt b
  let codes := codeValues b
  let vals := decodeValues b list
  let es := escapes b list
  (List.range codes.length).map (fun e =>
    let c := codes.getD e .zero
    let o := es.find? (fun x => x.1 == e)
    { code := c
      esc := o.isSome
      ol := match o with
        | some x => f32 x.2.toNat
        | none => .zero
      val := vals.getD e .zero
      grid := if widthClass fmt = 1 then significand c else asInt c (gridFactor fmt) })

/-- The rows of a fragment, k elements each (R309). -/
def fragRows (blocks : List Block) (list : List Word) (k : Nat) : List MRow :=
  blocks.flatMap (fun b =>
    let fmt := blkFmt b
    let es := blockElems b list
    let per := if fmt = 11 then 2 else 1
    let sgs := if widthClass fmt = 1 then [FVal.fin false 1 0] else (List.range (groupCount fmt)).map (fun g => ue4m3 (scaleByte b fmt g))
    (List.range per).map (fun u =>
      { elems := (es.drop (u * (elemCount fmt / per))).take k
        sgs := sgs.drop (u * (sgs.length / per))
        sb := blockScale (blkSe b) (blkSf b) }))

/-- An element out of every row. -/
def MElem.none : MElem := { code := .zero, esc := false, ol := .zero, val := .zero, grid := 0 }

/-- The 24 elements of group g. -/
def MRow.group (r : MRow) (g : Nat) : List MElem := (r.elems.drop (24 * g)).take 24

/-! ### `mma_cell` (R314-R317) -/

/-- Is a code an infinity or a NaN? -/
def FVal.special (v : FVal) : Bool := v.isNan || v.isInf

/-- The sum of a group with specials (R317). -/
def specialSum (a b : List MElem) : FVal :=
  let ps := (a.zip b).map (fun x => x.1.code.mul x.2.code)
  if ps.any (fun p => p.1.isNan) then .nan false
  else
    let pos := ps.any (fun p => p.1 = .inf false)
    let neg := ps.any (fun p => p.1 = .inf true)
    if pos && neg then .nan false else if neg then .inf true else .inf false

/-- The floor of log2 of a nonzero finite value. -/
def valLog (v : FVal) : Option Int :=
  match v with
  | .fin _ m e => if m = 0 then none else some ((log2Floor m : Int) + e)
  | _ => none

/-- A finite value truncated towards zero to multiples of 2^q, and whether it lost nonzero bits. -/
def truncAt (v : FVal) (q : Int) : Int × Bool :=
  match v with
  | .fin n m e =>
    if e ≥ q then
      let x : Int := (m * 2 ^ (e - q).toNat : Nat)
      (if n then -x else x, false)
    else
      let d := 2 ^ (q - e).toNat
      let x : Int := (m / d : Nat)
      (if n then -x else x, m % d != 0)
  | _ => (0, false)

/-- `window_sum` (R316). -/
def windowSum (a b : List MElem) : FVal :=
  let ps := (a.zip b).map (fun x => (x.1.code.mul x.2.code).1)
  match (ps.filterMap valLog) with
  | [] => .zero
  | l :: r =>
    let q := r.foldl max l - 121
    let ts := ps.map (fun p => (truncAt p q, p.sign))
    let s : Int := (ts.map (fun t => t.1.1)).sum
    match ts.find? (fun t => t.1.2) with
    | none => .fin (s < 0) s.natAbs q
    | some t => if s = 0 then .fin t.2 1 q else .fin (s < 0) (s.natAbs ||| 1) q

/-- The exact dense sum of a narrow group (R314, R315). -/
def denseSum (a b : List MElem) : FVal :=
  ((a.zip b).map (fun x => (x.1.code.mul x.2.code).1)).foldl (fun s p => (s.add p).1) .zero

/-- The dense sum of a group. -/
def groupSum (wide : Bool) (a b : List MElem) : FVal :=
  if a.any (fun x => x.code.special) || b.any (fun x => x.code.special) then specialSum a b
  else if wide then windowSum a b
  else denseSum a b

/-- A code of the accumulator format as a value, and back. -/
def cellFmt (afmt : Bool) : NumFmt := if afmt then .fp32 else .a96

/-- One group of a cell (R314): C after its dense part and its outliers. -/
def mmaGroup (acc : NumFmt) (wide : Bool) (ra rb : MRow) (g c : Nat) : Nat :=
  let a := ra.group g
  let b := rb.group g
  let s := [ra.sgs.getD g .zero, rb.sgs.getD g .zero, ra.sb, rb.sb].foldl (fun s x => (s.mul x).1) (groupSum wide a b)
  let c := (convert acc ((fpDecode acc c).add s).1).1
  let c := (a.zip b).foldl (fun c x =>
    if x.1.esc then (convert acc (x.1.ol.fma x.2.val (fpDecode acc c)).1).1 else c) c
  (a.zip b).foldl (fun c x =>
    if x.2.esc && !x.1.esc then (convert acc (x.1.val.fma x.2.ol (fpDecode acc c)).1).1 else c) c

/-- `mma_cell` (R314) over k / 24 groups. -/
def mmaCell (acc : NumFmt) (wide : Bool) (ra rb : MRow) (k c : Nat) : Nat :=
  (List.range (k / 24)).foldl (fun c g => mmaGroup acc wide ra rb g c) c

/-! ### Checksums (R319, R320) -/

/-- The product sum Q of a group at a row and column. -/
def gridSum (ra rb : MRow) (g : Nat) : Int := (((ra.group g).zip (rb.group g)).map (fun x => x.1.grid * x.2.grid)).sum

/-- An integer with one bit of its two's complement inverted. -/
def flipBit (q : Int) (b : Nat) : Int := if q / (2 ^ b : Nat) % 2 = 0 then q + (2 ^ b : Nat) else q - (2 ^ b : Nat)

/-- The altered sums of a pass: group, row, column and the change, one entry for each sum that differs. -/
def alterations (rows cols : List MRow) (k : Nat) (us : List Upset) : List ((Nat × Nat × Nat) × Int) :=
  let us := us.filter (fun u => decide (u.grp < k / 24) && decide (u.row < 32) && decide (u.col < 32))
  let cells := (us.map (fun u => (u.grp, u.row, u.col))).eraseDups
  (cells.map (fun x =>
    let q := gridSum (rows.getD x.2.1 ⟨[], [], .zero⟩) (cols.getD x.2.2 ⟨[], [], .zero⟩) x.1
    (x, (us.filter (fun u => (u.grp, u.row, u.col) = x)).foldl (fun v u => flipBit v u.bit) q - q))).filter (fun x => x.2 != 0)

/-- Does a pass with these alterations meet a checksum mismatch? -/
def mismatch (as : List ((Nat × Nat × Nat) × Int)) : Bool :=
  as.any (fun x =>
    (as.filter (fun y => y.1.1 == x.1.1 && y.1.2.2 == x.1.2.2)).foldl (fun t y => t + y.2) 0 % 65535 != 0
    || (as.filter (fun y => y.1.1 == x.1.1 && y.1.2.1 == x.1.2.1)).foldl (fun t y => t + y.2) 0 % 65535 != 0)

/-- Free cells (00 R7): the i-th from the n-th free value. -/
def freeCell (n i : Nat) : BitVec 96 := (Config.free (n + i)).setWidth 96

/-- The cells that an MMA writes (R314, R321); the cells of sums that stand altered are free. -/
def mmaCells (t : Tile) (m : PendMma) (rows cols : List MRow) (k : Nat) (wide : Bool)
    (as : List ((Nat × Nat × Nat) × Int)) (fresh : Nat) : List (BitVec 96) :=
  (List.range 1024).map (fun i =>
    let r := i / 32
    let c := i % 32
    if as.any (fun x => x.1.2.1 == r && x.1.2.2 == c) then freeCell fresh i
    else
      let (pr, pc) := if t.shape then (c, r) else (r, c)
      let c0 := if m.zero then 0 else (t.cells.getD i 0).toNat
      BitVec.ofNat 96 (mmaCell (cellFmt t.afmt) wide (rows.getD pr ⟨[], [], .zero⟩) (cols.getD pc ⟨[], [], .zero⟩) k
        (if t.afmt then c0 % 2 ^ 32 else c0)))

/-- K of an MMA by its first blocks (R310). -/
def mmaK (a b : List Block) : Nat :=
  min (naturalK (widthClass (blkFmt (a.headD 0)))) (naturalK (widthClass (blkFmt (b.headD 0))))

/-! ### Tiles -/

/-- A tile at launch (R321). -/
def Tile.blank : Tile := { cells := List.replicate 1024 0, shape := false, afmt := false, pois := false }

/-- A tile of a group. -/
def Group.tile (g : Group) (t : Nat) : Tile := g.tiles.getD t Tile.blank

/-- Change a tile of a group. -/
def Group.modTile (g : Group) (t : Nat) (f : Tile → Tile) : Group := { g with tiles := updAt g.tiles t f }

/-- The 96-bit image of a cell (R330). -/
def Tile.image (t : Tile) (i : Nat) : Nat := if t.afmt then (t.cells.getD i 0).toNat % 2 ^ 32 else (t.cells.getD i 0).toNat

/-- The value of a cell. -/
def Tile.value (t : Tile) (i : Nat) : FVal := fpDecode (cellFmt t.afmt) (t.image i)

/-- Is a cell other than ±0 (R329)? -/
def Tile.nonzero (t : Tile) (i : Nat) : Bool := if t.afmt then t.image i % 2 ^ 31 != 0 else t.image i % 2 ^ 95 != 0

/-- An FP32 or BF16 code widened to a cell (R323). -/
def cellOf (afmt : Bool) (f : NumFmt) (code : Nat) : BitVec 96 := BitVec.ofNat 96 (convert (cellFmt afmt) (fpDecode f code)).1

/-! ### Drained images (R326, R328) -/

/-- The 32 elements of a row converted to FP32 or BF16. -/
def Tile.rowCodes (t : Tile) (f : NumFmt) (r : Nat) : List Nat :=
  (List.range 32).map (fun c => (convert f (t.value (32 * r + c))).1)

/-- A list of codes as bytes. -/
def codeBytes (w : Nat) (l : List Nat) : List Byte := l.flatMap (fun c => leBytes w c)

/-- A list cut into pieces of n, fuelled by its length. -/
def chunks {α : Type} (n : Nat) : Nat → List α → List (List α)
  | 0, _ => []
  | _, [] => []
  | fuel + 1, l => l.take n :: chunks n fuel (l.drop n)

/-- One SPB block of a row (R59, R328): its columns and codes. -/
def spbBlock (bf : Bool) (row : Nat) (cs : List (Nat × Nat)) : Block :=
  let w := if bf then 2 else 4
  blockOf (((leBytes 2 0x7F10 ++ [BitVec.ofNat 8 (b2n bf * 128 + row), BitVec.ofNat 8 cs.length]
    ++ leBytes 4 ((cs.map (fun c : Nat × Nat => 2 ^ c.1)).sum)) ++ codeBytes w (cs.map (fun c : Nat × Nat => c.2))) ++ List.replicate 64 0 |>.take 64)

/-- A dense block of TSTSP (R328). -/
def denseBlock (bf : Bool) (codes : List Nat) : Block :=
  blockOf ((leBytes 2 (0x7F80 + if bf then 2 else 1) ++ codeBytes (if bf then 2 else 4) codes ++ List.replicate 64 0).take 64)

/-- The run of blocks of TSTSP and whether it is dense (R328). -/
def Tile.sparse (t : Tile) (bf : Bool) (budget : Nat) : List Block × Bool :=
  let f : NumFmt := if bf then .bf16 else .fp32
  let cap := if bf then 28 else 14
  let mask := if bf then 2 ^ 15 else 2 ^ 31
  let rows := (List.range 32).map (fun r => t.rowCodes f r)
  let sparse := (List.range 32).flatMap (fun r =>
    let nz := ((List.range 32).zip (rows.getD r [])).filter (fun x => x.2 % mask != 0)
    (chunks cap nz.length nz).map (spbBlock bf r))
  if sparse.length ≤ budget then (sparse, false)
  else
    (rows.flatMap (fun cs =>
      if bf then [denseBlock bf (cs.take 24), denseBlock bf (cs.drop 24)]
      else [denseBlock bf (cs.take 15), denseBlock bf ((cs.drop 15).take 15), denseBlock bf (cs.drop 30)]), true)

end Sys2Proof.Machine
end

