-- ==== Sys2Proof/Machine/Tiles.lean ====
section
/-! DEFINITION. The group-collective words on tiles: MMA, MMAZ, TCFG, TZERO, KOP, TCHK, TMOVF, TMOVT, TDRAIN,
TDRAIN.ADD, TSTSP, and the completion of an MMA (11 R312-R330). -/

namespace Sys2Proof.Machine

/-! ### Register states of a collective word (R313 step 4) -/

/-- What a collective word meets: nothing, a wait in the pipeline, a wait of all 32 threads, or the poison of one of
its sources. -/
inductive CollMeet where
  | go
  | wait
  | block (b : Blk)
  | poison (i : TrapInfo) (f : State → State)
  | array

/-- Does a source hold an uncorrectable error, once BADARG is excluded (14 R391): in a register of any thread (ECC), in a list
register (ARRAY) (14 R398)? -/
def Group.collEcc (g : Group) (rs ols : List Nat) (pc : Pc) : CollMeet :=
  if rs.any (fun r => lanes.any (fun t => ((g.thr t).cell true r).ecc)) then .poison (.eccAt Config.eccVa pc) id
  else if ols.any (fun n => (g.ol n).ecc) then .array
  else .go

/-- The states of the registers that a collective word reads, in order, every thread of each, then of its lists. -/
def Group.collRead (g : Group) (rs ols : List Nat) (pc : Pc) : CollMeet :=
  let regs := (rs.flatMap (fun r => lanes.map (fun t => (t, r)))).find? (fun x => g.regState true x.1 x.2 != .full)
  match regs with
  | some x =>
    match g.regState true x.1 x.2 with
    | .full => .go
    | .load _ => .wait
    | .transit _ => .wait
    | .wait _ _ => .block (.fragRead (cellIx (g.thr x.1).uin x.2))
    | .poisoned p o => .poison (.ofPoison p true o pc pc) (fun s => s.raisePoison { gk := g.key, thr := x.1 } x.2)
  | none =>
    match ols.find? (fun n => (g.ol n).st != .full) with
    | some n =>
      match (g.ol n).st with
      | .full => .go
      | .transit _ _ => .wait
      | .wait _ _ => .block (.olRead n)
      | .poisoned p o => .poison (.ofPoison p true o pc pc) (fun s => s.modGroup g.key (fun g => g.raiseOl n))
    | none => .go

/-- The registers that a collective word writes (06 R184). -/
def Group.collWrite (g : Group) (rs : List Nat) : CollMeet :=
  match (rs.flatMap (fun r => lanes.map (fun t => (t, r)))).find? (fun x =>
      match g.regState true x.1 x.2 with
      | .full => false
      | .poisoned _ _ => false
      | _ => true) with
  | some x =>
    match g.regState true x.1 x.2 with
    | .load _ => .wait
    | _ => .block (.fragWrite (cellIx (g.thr x.1).uin x.2))
  | none => .go

/-- Act once nothing is met. -/
def CollMeet.act (m : CollMeet) (s : State) (k : Unit → Coll) : Coll :=
  match m with
  | .go => k ()
  | .wait => .hold s false
  | .block b => .blockAll b
  | .poison i f => .poisonAll i (f s)
  | .array => .fatal .array s

/-- Discard the poison of every thread's registers that are to be written. -/
def State.clearAll (s : State) (gk : GroupKey) (rs : List Nat) : State :=
  lanes.foldl (fun s t => rs.foldl (fun s r => s.clearPoison { gk := gk, thr := t } r) s) s

/-! ### Waits on a tile (R318, R321, R323) -/

/-- Has the group an earlier MMA on a tile that has not completed? -/
def Group.mmaOn (g : Group) (t : Nat) : Bool := g.mmas.any (fun m => m.tile == t)

/-- Has the group an earlier drain command that has still to read a tile (R318)? -/
def State.drainOn (s : State) (gk : GroupKey) (t : Nat) : Bool :=
  match s.team gk.team with
  | some tm => tm.drainq.any (fun c =>
      match c.kind with
      | .drain _ k tile _ read _ _ _ _ => k == gk && tile == t && !read
      | _ => false)
  | none => false

/-- The effect of an ARRAY on its tile (14 R389): the cells are undefined and the poison mark is set. -/
def State.tileLost (s : State) (gk : GroupKey) (t : Nat) : State :=
  (s.modGroup gk (fun g => g.modTile t (fun x => { x with
    cells := (List.range 1024).map (freeCell s.fresh), pois := true }))).bumpBy 1024

/-- Act on a tile that a word reads: ARRAY where it holds an uncorrectable error (14 R398). -/
def onTile (s : State) (g : Group) (t : BitVec 3) (k : Tile → Coll) : Coll :=
  if (g.tile t.toNat).ecc then .fatal .array (s.tileLost g.key t.toNat) else k (g.tile t.toNat)

/-- Is a tile undeclared (03 R90)? -/
def noTile (t : BitVec 3) (g : Group) : Bool := decide (g.tiles.length ≤ t.toNat)

/-! ### MMA and MMAZ -/

/-- The blocks of a fragment (R309). -/
def Group.fragment (g : Group) (base regs : Nat) : List Block :=
  (List.range (2 * regs)).map (fun j => g.blockAt lanes (base + j / 2) (j % 2))

/-- The first block that fails R68, with its failure. -/
def firstBad (l : List (Block × Nat)) : Option BlkErr := l.findSome? (fun x => checkBlock x.1 (some x.2))

/-- Step 7 of R313. -/
def fragRule (a b : List Block) (f : OpMma) : Option Cause :=
  let fa := blkFmt (a.headD 0)
  let fb := blkFmt (b.headD 0)
  if widthClass fa = 0 ∨ widthClass fb = 0 ∨ (f.fmt != 0#4 ∧ f.fmt.toNat ≠ fa) ∨ (f.var != 0#3 ∧ f.var.toNat ≠ widthClass fb) then
    some .blkfmt
  else if a.any (fun x => blkFmt x != fa) || b.any (fun x => blkFmt x != fb) then some .blkhdr
  else none

/-- The fields of the injection register (18 R432). -/
def injection (d : Dword) : Upset :=
  { grp := bits d.toNat 13 12, row := bits d.toNat 6 2, col := bits d.toNat 11 7, bit := bits d.toNat 19 14 }

/-- Consume an armed injection for an MMA of a group that starts (R432). -/
def State.takeInjection (s : State) (gk : GroupKey) : Option Upset × Option Upset × State :=
  let n := s.coreOf gk.team
  let d := (s.core n).inject
  if d.getLsbD 20 && bits d.toNat 1 0 == gk.quad && bits d.toNat 33 22 == s.ctxOf gk.team.job then
    let u := injection d
    (some u, if d.getLsbD 21 then some u else none, s.modCore n (fun c => { c with inject := d &&& ~~~(1#64 <<< 20) }))
  else (none, none, s)

/-- An MMA that has passed its checks starts once the tile has been drained and its energy granted (R314, R318). -/
def mmaStart (s : State) (f : OpMma) (zero : Bool) (p : Pass) (a b : List Block) : Coll :=
  if s.drainOn p.gk f.t.toNat then .hold s true
  else match s.energy p.gk 6 with
    | none => .hold (s.askEnergy p.gk 6) true
    | some s =>
      let (i1, i2, s) := (s.sketch { gk := p.gk, thr := 0 } p.pc 6 6).takeInjection p.gk
      .done (s.modGroup p.gk (fun g => { g with mmas := g.mmas ++ [{
        tile := f.t.toNat, pc := p.pc, zero := zero, fa := a, fb := b
        la := (g.ol (b2n f.ol)).es, lb := (g.ol (1 - b2n f.ol)).es, inj1 := i1, inj2 := i2 }] }))

/-- The blocks of both fragments, each checked against its own list (R313 steps 6 and 7). -/
def mmaBlocks (s : State) (f : OpMma) (zero : Bool) (p : Pass) (g : Group) (a b : List Block) : Coll :=
  match firstBad (a.map (fun x => (x, (g.ol (b2n f.ol)).cnt)) ++ b.map (fun x => (x, (g.ol (1 - b2n f.ol)).cnt))) with
  | some e => .trapAll (blkTrap e true p.pc)
  | none =>
    match fragRule a b f with
    | some c => .trapAll (.at c p.pc)
    | none => mmaStart s f zero p a b

/-- The registers of the fragment whose first register is r, by the format of its first block (R311). -/
def Group.span (g : Group) (r : BitVec 5) : Nat := fragSpan (blkFmt (g.blockAt lanes r.toNat 0))

/-- The registers of a fragment that the register file has. -/
def spanRegs (base : BitVec 5) (n : Nat) : List Nat := ((List.range n).map (base.toNat + ·)).filter (fun r => decide (r < 32))

/-- The lists that an MMA reads: its own, and the other where it is declared (R312). -/
def mmaOls (f : OpMma) (g : Group) : List Nat :=
  if 1 - b2n f.ol < g.ols.length then [b2n f.ol, 1 - b2n f.ol] else [b2n f.ol]

/-- The span of both fragments (R313 step 5), what cannot be read of them and of the lists (14 R391), then their blocks. -/
def mmaSpans (s : State) (f : OpMma) (zero : Bool) (p : Pass) (g : Group) : Coll :=
  if f.a.toNat + g.span f.a > 32 ∨ f.b.toNat + g.span f.b > 32 then .trapAll (.at .badarg p.pc)
  else (g.collEcc (spanRegs f.a (g.span f.a) ++ spanRegs f.b (g.span f.b)) (mmaOls f g) p.pc).act s (fun _ =>
    mmaBlocks s f zero p g (g.fragment f.a.toNat (g.span f.a)) (g.fragment f.b.toNat (g.span f.b)))

/-- The action of MMA and MMAZ after ILLOP, the tile predicate and ICONV (R313, R318). -/
def mmaAct (s : State) (f : OpMma) (zero : Bool) (p : Pass) (g : Group) : Coll :=
  (g.collRead [f.a.toNat] [] p.pc).act s (fun _ =>
    (g.collRead (spanRegs f.a (g.span f.a) ++ [f.b.toNat]) [] p.pc).act s (fun _ =>
      (g.collRead (spanRegs f.b (g.span f.b)) (mmaOls f g) p.pc).act s (fun _ => mmaSpans s f zero p g)))

/-- An undeclared tile or list of an MMA (R312). -/
def mmaUndeclared (f : OpMma) (g : Group) : Bool := noTile f.t g || decide (g.ols.length ≤ b2n f.ol)

/-- MMA (R314). -/
def execMma (f : OpMma) (s : State) : Host.Outcome State Fault Refusal :=
  execColl s (.mma f) f.k (fun _ g => mmaUndeclared f g) (mmaAct s f false)

/-- MMAZ (R314). -/
def execMmaz (f : OpMma) (s : State) : Host.Outcome State Fault Refusal :=
  execColl s (.mmaz f) f.k (fun _ g => mmaUndeclared f g) (mmaAct s f true)

/-- Drop the drain commands of a group that have not read a tile: its machine check keeps them from running
(R327). -/
def State.dropDrains (s : State) (gk : GroupKey) (t : Nat) : State :=
  s.modTeam gk.team (fun tm => { tm with drainq := tm.drainq.filter (fun c =>
    match c.kind with
    | .drain _ k tile _ read _ _ _ _ => !(k == gk && tile == t && !read)
    | _ => true) })

/-- ARRAY for the group of an MMA or a drain command that cannot use its tile (R320, 14 R389, R398): its commands that have
not read the tile never run (R327). -/
def State.arrayFault (s : State) (gk : GroupKey) (tile : Nat) (pc : Pc) : State :=
  let live := match s.group gk with
    | some g => lanes.filter (fun t => (g.thr t).live)
    | none => []
  ((s.dropDrains gk tile).tileLost gk tile).fatal gk live .array (some pc)

/-- MMA_COMPLETION (R314, R319, R320): the oldest MMA of a group runs its pass, and a rerun on a mismatch; first and
second are the soft errors of the two passes. An MMA that adds to a tile with an uncorrectable error reads it then (14
R398). -/
def execMmaCompletion (gk : GroupKey) (first second : Option Upset) (s : State) : Host.Outcome State Fault Refusal :=
  .next (match s.group gk with
    | none => s
    | some g =>
      match g.mmas with
      | [] => s
      | m :: rest =>
        let k := mmaK m.fa m.fb
        let rows := fragRows m.fa m.la k
        let cols := fragRows m.fb m.lb k
        let wide := widthClass (blkFmt (m.fa.headD 0)) == 1 || widthClass (blkFmt (m.fb.headD 0)) == 1
        let as1 := alterations rows cols k ([m.inj1, first].filterMap id)
        let as2 := alterations rows cols k ([m.inj2, second].filterMap id)
        let s := s.modGroup gk (fun g => { g with mmas := rest })
        let commit (s : State) (as : List ((Nat × Nat × Nat) × Int)) : State :=
          (s.modGroup gk (fun g => g.modTile m.tile (fun t => { t with
            cells := mmaCells t m rows cols k wide as s.fresh
            pois := t.pois && !m.zero
            ecc := t.ecc && !m.zero }))).bumpBy (if as.isEmpty then 0 else 1024)
        if (g.tile m.tile).ecc && !m.zero then s.arrayFault gk m.tile m.pc
        else if !mismatch as1 then commit s as1
        else
          let core := s.coreOf gk.team
          let s := s.modCore core (fun c => { c with rerun := (c.rerun + 1) % 2 ^ 64 })
          let s := s.sketch { gk := gk, thr := 0 } m.pc 4 1
          if !mismatch as2 then commit s as2
          else s.arrayFault gk m.tile m.pc)

/-! ### Configuration, zeroing, transfers -/

/-- TCFG (R321). -/
def execTcfg (f : OpTcfg) (s : State) : Host.Outcome State Fault Refusal :=
  execColl s (.tcfg f) f.k (fun _ g => noTile f.t g) (fun p g =>
    if g.mmaOn f.t.toNat || s.drainOn p.gk f.t.toNat then .hold s true
    else
      let t := g.tile f.t.toNat
      let change := t.shape != f.shape || t.afmt != f.afmt
      .done ((s.modGroup p.gk (fun g => g.modTile f.t.toNat (fun t => { t with
        shape := f.shape
        afmt := f.afmt
        cells := if change then (List.range 1024).map (freeCell s.fresh) else t.cells
        ecc := t.ecc && !change }))).bumpBy (if change then 1024 else 0)))

/-- TZERO (R322). -/
def execTzero (f : OpTile) (s : State) : Host.Outcome State Fault Refusal :=
  execColl s (.tzero f) f.k (fun _ g => noTile f.t g) (fun p g =>
    if g.mmaOn f.t.toNat || s.drainOn p.gk f.t.toNat then .hold s true
    else .done (s.modGroup p.gk (fun g => g.modTile f.t.toNat (fun t =>
      { t with cells := List.replicate 1024 0, pois := false, ecc := false }))))

/-- The rows of a tile to registers (R323): code gives the register of a thread for the cells it holds. -/
def tmovf (s : State) (i : Instr) (k : BitVec 4) (t : BitVec 3) (a : BitVec 5) (code : Tile → Nat → Nat → Nat × Nat) :
    Host.Outcome State Fault Refusal :=
  execColl s i k (fun _ g => noTile t g) (fun p g =>
    if g.mmaOn t.toNat then .hold s true
    else
      let rs := (List.range 8).map (a.toNat + ·)
      (g.collWrite rs).act s (fun _ => onTile s g t (fun tile =>
        .done ((s.clearAll p.gk rs).modGroup p.gk (fun g => g.mapThreads (fun c th =>
          (List.range 8).foldl (fun th j =>
            let r := code tile j c
            (th.wn true (a.toNat + j) r.1 false).flag r.2) th))))))

/-- TMOVF.F32 (R323). -/
def execTmovfF32 (f : OpTmov32) (s : State) : Host.Outcome State Fault Refusal :=
  tmovf s (.tmovfF32 f) f.k f.t f.a (fun t j c => convert .fp32 (t.value (32 * (8 * f.q.toNat + j) + c)))

/-- TMOVF.BF16 (R323). -/
def execTmovfBf16 (f : OpTmov16) (s : State) : Host.Outcome State Fault Refusal :=
  tmovf s (.tmovfBf16 f) f.k f.t f.a (fun t j c =>
    let r := 16 * b2n f.h + 2 * j
    let lo := convert .bf16 (t.value (32 * r + c))
    let hi := convert .bf16 (t.value (32 * (r + 1) + c))
    (lo.1 + hi.1 * 65536, lo.2 ||| hi.2))

/-- Registers to rows of a tile (R323): cell gives the new cell of a row and column, if it is one of the rows. -/
def tmovt (s : State) (i : Instr) (k : BitVec 4) (t : BitVec 3) (a : BitVec 5)
    (cell : Group → Tile → Nat → Nat → Option (BitVec 96)) : Host.Outcome State Fault Refusal :=
  execColl s i k (fun _ g => noTile t g) (fun p g =>
    if g.mmaOn t.toNat || s.drainOn p.gk t.toNat then .hold s true
    else (g.collRead ((List.range 8).map (a.toNat + ·)) [] p.pc).act s (fun _ =>
      (g.collEcc ((List.range 8).map (a.toNat + ·)) [] p.pc).act s (fun _ => .done (s.modGroup p.gk (fun h => h.modTile t.toNat (fun tl =>
        { tl with cells := (List.range 1024).map (fun i => (cell g tl (i / 32) (i % 32)).getD (tl.cells.getD i 0)) }))))))

/-- TMOVT.F32 (R323). -/
def execTmovtF32 (f : OpTmov32) (s : State) : Host.Outcome State Fault Refusal :=
  tmovt s (.tmovtF32 f) f.k f.t f.a (fun g t r c =>
    if r / 8 = f.q.toNat then some (cellOf t.afmt .fp32 ((g.thr c).rn true (f.a.toNat + r % 8))) else none)

/-- TMOVT.BF16 (R323). -/
def execTmovtBf16 (f : OpTmov16) (s : State) : Host.Outcome State Fault Refusal :=
  tmovt s (.tmovtBf16 f) f.k f.t f.a (fun g t r c =>
    if r / 16 = b2n f.h then
      let w := (g.thr c).rn true (f.a.toNat + r % 16 / 2)
      some (cellOf t.afmt .bf16 (if r % 2 = 0 then w % 65536 else w / 65536))
    else none)

/-! ### Tile predicates and checks (R329, R330) -/

/-- A tile predicate from two. -/
def kop (s : State) (i : Instr) (f : OpKop) (fn : Bool → Bool → Bool) : Host.Outcome State Fault Refusal :=
  execColl s i f.k (fun _ _ => false) (fun p g =>
    .done (s.modGroup p.gk (fun g' => g'.setKp f.d (fn (g.kp f.d) (g.kp f.b)))))

/-- KOP.MOV (R329). -/
def execKopMov (f : OpKop) (s : State) : Host.Outcome State Fault Refusal := kop s (.kopMov f) f (fun _ b => b)

/-- KOP.AND (R329). -/
def execKopAnd (f : OpKop) (s : State) : Host.Outcome State Fault Refusal := kop s (.kopAnd f) f (fun d b => d && b)

/-- KOP.OR (R329). -/
def execKopOr (f : OpKop) (s : State) : Host.Outcome State Fault Refusal := kop s (.kopOr f) f (fun d b => d || b)

/-- KOP.ANDN (R329). -/
def execKopAndn (f : OpKop) (s : State) : Host.Outcome State Fault Refusal := kop s (.kopAndn f) f (fun d b => d && !b)

/-- KOP.NZ (R329). -/
def execKopNz (f : OpKopNz) (s : State) : Host.Outcome State Fault Refusal :=
  execColl s (.kopNz f) f.k (fun _ g => noTile f.t g) (fun p g =>
    if g.mmaOn f.t.toNat then .hold s true
    else onTile s g f.t (fun t => .done (s.modGroup p.gk (fun g' => g'.setKp f.d ((List.range 1024).any t.nonzero)))))

/-- KOP.FROMP (R329). -/
def execKopFromp (f : OpKopFromp) (s : State) : Host.Outcome State Fault Refusal :=
  execColl s (.kopFromp f) f.k (fun _ _ => false) (fun p g =>
    .done (s.modGroup p.gk (fun g' => g'.setKp f.d (lanes.any (fun t => (g.thr t).pred f.b)))))

/-- KOP.TOP (R329). -/
def execKopTop (f : OpKopTop) (s : State) : Host.Outcome State Fault Refusal :=
  execColl s (.kopTop f) f.k (fun _ _ => false) (fun p g =>
    .done (s.modGroup p.gk (fun g' => g'.mapThreads (fun _ th => th.setPred f.d (g.kp f.b)))))

/-- The residue of a row or column of a tile (R330). -/
def Tile.residue (t : Tile) (col : Bool) (i : Nat) : Nat :=
  ((List.range 32).map (fun j =>
    let n := t.image (if col then 32 * j + i else 32 * i + j)
    ((List.range 6).map (fun k => bits n (16 * k + 15) (16 * k))).sum)).sum % 65535

/-- TCHK (R330): it never raises ARRAY, whatever error the tile holds. -/
def execTchk (f : OpTchk) (s : State) : Host.Outcome State Fault Refusal :=
  execColl s (.tchk f) f.k (fun _ g => noTile f.t g) (fun p g =>
    if g.mmaOn f.t.toNat then .hold s true
    else (g.collWrite [f.a.toNat]).act s (fun _ =>
      let t := g.tile f.t.toNat
      .done ((s.clearAll p.gk [f.a.toNat]).modGroup p.gk (fun g' => g'.mapThreads (fun i th =>
        th.wn true f.a.toNat (t.residue f.m i + b2n t.pois * 2 ^ 31) false)))))

/-! ### The drain path (R324, R325) -/

/-- The fields of a drain descriptor (R324). -/
def DrainDesc.ofBlock (b : Block) : DrainDesc where
  dest := bits b.toNat 63 0
  rstr := sextN 32 (bits b.toNat 95 64)
  nofr := bit (bbyte b 12) 3
  sp := bit (bbyte b 12) 2
  df := bits (bbyte b 12) 1 0
  budget := bits b.toNat 127 112
  frec := bits b.toNat 145 128
  sumoff := bits b.toNat 177 160

/-- Is a scratchpad range outside 0 to 0x3FFFF? -/
def spadOut (start : Int) (n : Nat) : Bool := decide (start < 0) || decide (start + n > Config.spadBytes)

/-- The start of each of the 32 rows (R326). -/
def DrainDesc.rows (d : DrainDesc) : List Int := (List.range 32).map (fun r : Nat => (d.dest : Int) + (r : Int) * d.rstr)

/-- Is a descriptor invalid for a command: 0 TDRAIN, 1 TDRAIN.ADD, 2 TSTSP (R325)? -/
def drainBad (op : Nat) (b : Block) : Bool :=
  let d := DrainDesc.ofBlock b
  let es := if d.df = 1 then 2 else 4
  bits (bbyte b 12) 7 4 != 0 || bbyte b 13 != 0 || bits b.toNat 159 146 != 0 || bits b.toNat 191 178 != 0
    || b.toNat / 2 ^ 192 != 0 || decide (d.df > 1) || d.dest % es != 0
    || (op != 2 && d.rows.any (fun x => x % es != 0))
    || (!d.nofr && d.frec % 16 != 0) || (op == 2 && d.sumoff % 8 != 0)
    || decide (d.budget > if d.df = 1 then 64 else 96)
    || (!d.nofr && spadOut d.frec 16) || (op == 2 && spadOut d.sumoff 8)
    || (d.sp && (if op = 2 then spadOut d.dest (64 * (if d.df = 1 then 64 else 96))
        else d.rows.any (fun x => spadOut x (32 * es))))
    || (op == 1 && (d.df != 0 || d.dest % 64 != 0 || d.rstr % 64 != 0))
    || (op == 2 && d.dest % 64 != 0)

/-- Is a queue one that a drain command of this group may pop (R325)? -/
def drainQueueBad (s : State) (gk : GroupKey) (qn : Nat) : Bool :=
  match s.queueFor gk qn with
  | some q => !(q.mode == QMode.block && q.dir == QDir.ae && q.cons == gk)
  | none => true

/-- No failure yet (09 R281). -/
def FaultRec.none : FaultRec := { v := false, idx := 0, va := 0, fc := 0, kind := 0, sp := false, dmap := 0 }

/-- A drain command (R325). Where one thread has to stand for the 32 that issue it (its profiler entries and its record's order),
the model takes thread 0 (DESIGN CHOICE, log 71); a wait for a thread's commands counts it for each of them. -/
def drainWord (s : State) (i : Instr) (f : OpDrain) (op : Nat) : Host.Outcome State Fault Refusal :=
  execColl s i f.k (fun p g => noTile f.t g || drainQueueBad s p.gk f.b.toNat) (fun p _ =>
    match s.queueFor p.gk f.b.toNat with
    | none => .done s
    | some q =>
      let pop (s : State) : State := s.modFifo p.gk.team q.ref 0 Fifo.take
      let poison (r : Poison) : TrapInfo := .ofPoison { r with rtag := 0xFFFF } true p.pc p.pc p.pc
      match (q.fifo 0).head with
      | some (.data (.block b)) =>
        if drainBad op b then .poisonAll (.at .badarg p.pc) (pop s)
        else
          let accept (s : State) : Coll :=
            let d := DrainDesc.ofBlock b
            .done ((pop s).modTeam p.gk.team (fun tm => { tm with
              nextId := tm.nextId + 1
              drainq := tm.drainq ++ [{
                id := tm.nextId, wait := none, thr := { gk := p.gk, thr := 0 }, pc := p.pc, t0 := s.cycle
                frec := if d.nofr then none else some d.frec, fr := .none, fut := none
                kind := .drain op p.gk f.t.toNat d false [] false [] 0 }] }))
          if op = 1 then
            match s.energy p.gk 2 with
            | none => .hold (s.askEnergy p.gk 2) true
            | some s => accept (s.sketch { gk := p.gk, thr := 0 } p.pc 6 2)
          else accept s
      | some (.poison r) => .poisonAll (poison r) ((pop s).dropSlot p.gk.team (.poison r))
      | some _ => .poisonAll (poison (markerPoison q.ref)) (pop s)
      | none => .blockAll (.popEmpty q.ref 0))

/-- TDRAIN (R326). -/
def execTdrain (f : OpDrain) (s : State) : Host.Outcome State Fault Refusal := drainWord s (.tdrain f) f 0

/-- TDRAIN.ADD (R326). -/
def execTdrainAdd (f : OpDrain) (s : State) : Host.Outcome State Fault Refusal := drainWord s (.tdrainAdd f) f 1

/-- TSTSP (R328). -/
def execTstsp (f : OpDrain) (s : State) : Host.Outcome State Fault Refusal := drainWord s (.tstsp f) f 2

end Sys2Proof.Machine
end

