-- ==== Sys2Proof/Machine/QueueInstr.lean ====
section
/-! DEFINITION. The queue instructions: pops, pushes, markers, tests and configuration (09 R265-R271, 06 R184-R191,
17 R429, R430). -/

namespace Sys2Proof.Machine

/-! ### Roles (R265) -/

/-- Who may use a queue so: its modes, its directions, and the role of the group (some true: producer, some false:
consumer, none: either). -/
structure QUse where
  modes : List QMode
  dirs : List QDir
  prod : Option Bool
  deriving DecidableEq, Repr

/-- Is a queue name misused by a group: not instantiated for it, or against its mode, direction or role (R265, 07
R213)? -/
def State.misused (s : State) (name : Nat) (u : QUse) (gk : GroupKey) : Bool :=
  match s.queueFor gk name with
  | none => true
  | some q =>
    !u.modes.contains q.mode || !u.dirs.contains q.dir
      || (match u.prod with | some true => q.prod != gk | some false => q.cons != gk | none => false)

/-- The lanes of the pass whose own FIFO of a queue has been closed: a push of theirs raises ILLOP (R270), before what their
registers raise (14 R391). -/
def State.closedLanes (s : State) (name : Nat) : List Nat :=
  match s.pass.bind (fun p => s.queueFor p.gk name) with
  | some q => lanes.filter (fun t => (q.fifo (q.lane t)).closed)
  | none => []

/-- Every mode. -/
def allModes : List QMode := [.lane, .block, .outlier]
/-- Every direction. -/
def allDirs : List QDir := [.ae, .ea, .es]

/-- The directions in which a slice pops: the access slice from a back queue, the execute slice from a forward one. -/
def popDirs (exe : Bool) : List QDir := if exe then [.ae] else [.ea]
/-- The directions in which a slice pushes. -/
def pushDirs (exe : Bool) : List QDir := if exe then [.ea, .es] else [.ae]

/-- A lane's action on its queue and on the FIFO that is its own (R266). -/
def withQueue (s : State) (th : ThreadKey) (name : Nat) (k : Queue → Nat → Fifo → Act) : Act :=
  match s.queueFor th.gk name with
  | some q => k q (q.lane th.thr) (q.fifo (q.lane th.thr))
  | none => Act.illop s th

/-! ### Pops -/

/-- A loss of decoupling: an access thread's pop from a back queue finds no entry (R191). -/
def State.countLod (s : State) (th : ThreadKey) (q : Queue) : State :=
  if q.dir = .ea then
    let s := s.modTeam th.gk.team (fun t => { t with lod := (t.lod + 1) % 2 ^ 64 })
    let s := s.modCore (s.coreOf th.gk.team) (fun c => { c with latch := updAt c.latch 4 (· + 1) })
    s.sketch th (s.thread th).pc 3 1
  else s

/-- A destination cell takes a state bound by a pop. -/
def State.bindCell (s : State) (th : ThreadKey) (d : Nat) (st : RegSt) : State :=
  s.modThread th (fun t => t.setCell th.gk.exe d { t.cell th.gk.exe d with st := st, taint := false, ecc := false })

/-- A pop into a lane register (R186 rows 1-6, R267); m is the marker predicate, p7 where the pop names none. The poison of a
POISONED destination goes with its replay-table entry (DESIGN CHOICE, log 67); a poison entry popped to x0 leaves m as it is (07
R213; DESIGN CHOICE, log 68). -/
def popLane (s : State) (th : ThreadKey) (d : BitVec 5) (name : Nat) (m : BitVec 3) : Act :=
  withQueue s th name (fun q i f =>
    let k := th.gk.team
    let exe := th.gk.exe
    let t := s.thread th
    let discard := !exe && d == 0#5
    let taken (s : State) : State := (s.modFifo k q.ref i Fifo.take).clearPoison th d.toNat
    let poison (p : Poison) : Act :=
      if discard then Act.next ((taken s).dropSlot k (.poison p)) th
      else Act.raise ((taken s).bindCell th d.toNat (.wait (.replay p.rtag (some q.ref)) t.pc)) th
        (.ofPoison p exe t.pc t.pc (t.pc + 4))
    match f.head with
    | some (.data (.lane v)) =>
      Act.next (((taken s).bindCell th d.toNat (.transit (BitVec.setWidth 64 v))).modThread th (fun t => t.setPred m false)) th
    | some (.poison p) => poison p
    | some (.marker _) =>
      if m != 7#3 then Act.next ((s.modFifo k q.ref i Fifo.take).modThread th (fun t => t.setPred m true)) th
      else poison (markerPoison q.ref)
    | _ =>
      let s := s.countLod th q
      if m != 7#3 then .out (s.block th (.popEmpty q.ref i))
      else Act.next ((taken s).bindCell th d.toNat (.wait (.pos q.ref i f.nextOut) t.pc)) th)

/-- QPOP (R267). -/
def execQpop (f : OpQd) (s : State) : Host.Outcome State Fault Refusal :=
  execLanesIf s (.qpop f) { guard := f.g, srcs := [], dsts := [f.d.toNat], keep := true }
    (fun gk => s.misused f.qn.toNat { modes := [.lane], dirs := popDirs gk.exe, prod := some false } gk)
    (fun s th => popLane s th f.d f.qn.toNat f.mp)

/-- The slot of a set for an entry, as the pop finds it. -/
def SetSlot.ofQ : Option QSlot → SetSlot
  | some (.data (.block b)) => .data b
  | some (.poison p) => .poison p
  | some (.marker _) => .marker
  | _ => .missing

/-- The pop of n entries into a fragment set (R268): one state for the whole set. The trap is taken at the pop where the
head entry is present and poison (R186 rows 2, 6), or where every entry is present and one is (log 49). The poison of a POISONED
set goes with its replay-table entry (DESIGN CHOICE, log 67). -/
def popSet (s : State) (p : Pass) (g : Group) (q : Queue) (base n : Nat) (m : BitVec 3) : Coll :=
  let k := p.gk.team
  let f := q.fifo 0
  let regs := (List.range ((n + 1) / 2)).map (base + ·)
  let b : SetBind := {
    base := base, uin := lanes.filter (fun t => (g.thr t).uin), cut := [], n := n, q := q.ref, pos := f.nextOut
    slots := (List.range n).map (fun j => SetSlot.ofQ (f.slots[j]?)), origin := p.pc }
  let s := s.clearAll p.gk regs
  let s := (List.range n).foldl (fun s _ => s.modFifo k q.ref 0 Fifo.take) s
  let s := s.modGroup p.gk (fun g => { g with sets := g.sets ++ [b] })
  let head := match b.slots.head? with | some (.poison _) => true | some .marker => true | _ => false
  match b.poison, head || b.arrived with
  | some r, true => .poisonAll (.ofPoison r true p.pc p.pc (p.pc + 4)) (s.raisePoison { gk := p.gk, thr := 0 } base)
  | _, _ => .done (s.modGroup p.gk (fun g => g.mapThreads (fun _ th => th.setPred m false)))

/-- QPOPB (R268). -/
def execQpopb (f : OpQpopb) (s : State) : Host.Outcome State Fault Refusal :=
  let n := f.a.toNat + 1
  let regs := (List.range ((n + 1) / 2)).map (f.d.toNat + ·)
  execColl s (.qpopb f) 15#4
    (fun p _ => s.misused f.qn.toNat { modes := [.block], dirs := [.ae], prod := some false } p.gk)
    (fun p g => (g.collWrite regs).act s (fun _ =>
      match s.queueFor p.gk f.qn.toNat with
      | none => .done s
      | some q =>
        if f.mp = 7#3 then popSet s p g q f.d.toNat n 7#3
        else match (q.fifo 0).head with
          | none => .blockAll (.popEmpty q.ref 0)
          | some (.marker _) =>
            .done ((s.modFifo p.gk.team q.ref 0 Fifo.take).modGroup p.gk (fun g =>
              g.mapThreads (fun _ th => th.setPred f.mp true)))
          | some _ => popSet s p g q f.d.toNat n f.mp))

/-- The poison of a list register that is to be written is discarded (06 R186 row 14). -/
def State.clearOl (s : State) (gk : GroupKey) (n : Nat) : State :=
  match (s.group gk).map (fun g : Group => (g.ol n).st) with
  | some (OlSt.poisoned p _) =>
    (s.dropSlot gk.team (.poison p)).modGroup gk (fun g => { g with ols := updAt g.ols n (fun o => { o with st := .full }) })
  | _ => s

/-- QPOPO (R269). -/
def execQpopo (f : OpQpopo) (s : State) : Host.Outcome State Fault Refusal :=
  let n := b2n f.d
  execColl s (.qpopo f) 15#4
    (fun p g => decide (g.ols.length ≤ n)
      || s.misused f.qn.toNat { modes := [.outlier], dirs := [.ae], prod := some false } p.gk)
    (fun p g =>
      match (g.ol n).st with
      | .transit _ _ => .blockAll (.olWrite n)
      | .wait _ _ => .blockAll (.olWrite n)
      | _ =>
        match s.queueFor p.gk f.qn.toNat with
        | none => .done s
        | some q =>
          let k := p.gk.team
          let fi := q.fifo 0
          let s := (s.modFifo k q.ref 0 Fifo.take).clearOl p.gk n
          let bind (s : State) (st : OlSt) : State :=
            s.modGroup p.gk (fun g => { g with ols := updAt g.ols n (fun o => { o with st := st }) })
          let poison (r : Poison) : Coll :=
            .poisonAll (.ofPoison r true p.pc p.pc (p.pc + 4)) (bind s (.wait (.replay r.rtag (some q.ref)) p.pc))
          match fi.head with
          | some (.data (.olist c es)) => .done (bind s (.transit c es))
          | some (.poison r) => poison r
          | some (.marker _) => poison (markerPoison q.ref)
          | _ => .done (bind s (.wait (.pos q.ref 0 fi.nextOut) p.pc)))

/-! ### Pushes -/

/-- A lane pushes one entry: ILLOP after a close, BLOCKED while the FIFO is full (R266, R270, R186 row 17). -/
def pushLane (s : State) (th : ThreadKey) (name : Nat) (x : QSlot) (close : Bool) : Act :=
  withQueue s th name (fun q i f =>
    if f.closed then Act.illop s th
    else if !f.room q.limit 1 then .out (s.block th (.push q.ref i 1))
    else
      let s := s.push th.gk.team q i x
      let s := if close then s.modFifo th.gk.team q.ref i (fun f => { f with closed := true }) else s
      Act.next s th)

/-- QPUSH (R267). -/
def execQpush (f : OpQs) (s : State) : Host.Outcome State Fault Refusal :=
  execLanesIf s (.qpush f) { guard := f.g, srcs := [src f.d], dsts := [], bars := s.closedLanes f.qn.toNat }
    (fun gk => s.misused f.qn.toNat { modes := [.lane], dirs := pushDirs gk.exe, prod := some true } gk)
    (fun s th => pushLane s th f.qn.toNat (.data (.lane (((s.thread th).rd th.gk.exe f.d.toNat).setWidth 32))) false)

/-- QPUSHB (R268): n entries as one step. -/
def execQpushb (f : OpQpushb) (s : State) : Host.Outcome State Fault Refusal :=
  let n := f.a.toNat + 1
  let regs := (List.range ((n + 1) / 2)).map (f.d.toNat + ·)
  execColl s (.qpushb f) 15#4
    (fun p _ => s.misused f.qn.toNat { modes := [.block], dirs := [.ea, .es], prod := some true } p.gk
      || ((s.queueFor p.gk f.qn.toNat).map (fun q => q.closed)).getD false)
    (fun p g => (g.collRead regs [] p.pc).act s (fun _ =>
      match s.queueFor p.gk f.qn.toNat with
      | none => .done s
      | some q =>
        if q.limit < n then .trapAll (.at .badarg p.pc)
        else (g.collEcc regs [] p.pc).act s (fun _ =>
          if !(q.fifo 0).room q.limit n then .blockAll (.push q.ref 0 n)
          else .done ((List.range n).foldl (fun s j =>
            match (s.team p.gk.team).bind (fun t => t.queue q.ref) with
            | some q => s.push p.gk.team q 0 (.data (.block (g.blockAt lanes (f.d.toNat + j / 2) (j % 2))))
            | none => s) s))))

/-- QMARK (R270). -/
def execQmark (f : OpQ) (s : State) : Host.Outcome State Fault Refusal :=
  execLanesIf s (.qmark f) { guard := f.g, srcs := [], dsts := [], bars := s.closedLanes f.qn.toNat }
    (fun gk => s.misused f.qn.toNat { modes := [.lane, .block], dirs := [.ae, .ea], prod := some true } gk)
    (fun s th => pushLane s th f.qn.toNat (.marker false) false)

/-- QCLOSE (R270). -/
def execQclose (f : OpQ) (s : State) : Host.Outcome State Fault Refusal :=
  execLanesIf s (.qclose f) { guard := f.g, srcs := [], dsts := [], bars := s.closedLanes f.qn.toNat }
    (fun gk => s.misused f.qn.toNat { modes := allModes, dirs := [.ae, .ea], prod := some true } gk)
    (fun s th => pushLane s th f.qn.toNat (.marker true) true)

/-! ### Tests and configuration (R271) -/

/-- QPEEK (R271). A destination in WAIT or TRANSIT blocks it (R184) whatever the head is (log 50). -/
def execQpeek (f : OpQd) (s : State) : Host.Outcome State Fault Refusal :=
  execLanesIf s (.qpeek f) { guard := f.g, srcs := [], dsts := [f.d.toNat], keep := true }
    (fun gk => s.misused f.qn.toNat { modes := [.lane], dirs := allDirs, prod := some false } gk)
    (fun s th => withQueue s th f.qn.toNat (fun _ _ fi =>
      match fi.head with
      | some (.data (.lane v)) =>
        Act.next ((s.clearPoison th f.d.toNat).modThread th (fun t =>
          (t.wr th.gk.exe f.d.toNat (BitVec.setWidth 64 v) false).setPred f.mp true)) th
      | _ => Act.next (s.modThread th (fun t => t.setPred f.mp false)) th))

/-- The condition that QTEST tests (R271). -/
def qcond (q : Queue) (f : Fifo) (c : BitVec 5) : Bool :=
  if c = 0#5 then f.head.isSome
  else if c = 1#5 then (match f.head with | some (.marker _) => true | _ => false)
  else f.room q.limit 1

/-- QTEST (R271). -/
def execQtest (f : OpQtest) (s : State) : Host.Outcome State Fault Refusal :=
  execLanesIf s (.qtest f) { guard := f.g, srcs := [], dsts := [] }
    (fun gk => s.misused f.qn.toNat { modes := allModes, dirs := allDirs, prod := none } gk)
    (fun s th => withQueue s th f.qn.toNat (fun q _ fi =>
      Act.next (s.modThread th (fun t => t.setPred f.mp (qcond q fi f.a))) th))

/-- QCFG (R271). -/
def execQcfg (f : OpQa) (s : State) : Host.Outcome State Fault Refusal :=
  execLanesIf s (.qcfg f) { guard := f.g, srcs := [src f.a], dsts := [] }
    (fun gk => s.misused f.qn.toNat { modes := allModes, dirs := allDirs, prod := none } gk)
    (fun s th => withQueue s th f.qn.toNat (fun q _ _ =>
      let v := (s.thread th).rn th.gk.exe f.a.toNat
      if v = 0 ∨ q.depth < v then Act.cause s th .badarg
      else Act.next (s.modQueue th.gk.team q.ref (fun q => { q with limit := v })) th))

/-- The word of QSTAT (R271, 17 R429). -/
def qstatOf (q : Queue) (f : Fifo) : Nat :=
  (f.slots.filter (fun x => x != .claimed)).length + (q.limit - f.used) * 2 ^ 8
    + b2n (f.closed || q.closed) * 2 ^ 15 + q.limit * 2 ^ 16

/-- QSTAT (R271). -/
def execQstat (f : OpQs) (s : State) : Host.Outcome State Fault Refusal :=
  execLanesIf s (.qstat f) { guard := f.g, srcs := [], dsts := [f.d.toNat] }
    (fun gk => s.misused f.qn.toNat { modes := allModes, dirs := allDirs, prod := none } gk)
    (fun s th => withQueue s th f.qn.toNat (fun q _ fi =>
      Act.next (s.modThread th (fun t => t.wn th.gk.exe f.d.toNat (qstatOf q fi) false)) th))

end Sys2Proof.Machine
end

