-- ==== Sys2Proof/Machine/Engine.lean ====
section
/-! DEFINITION. Engine commands (05 R152-R154): acceptance, what their accesses wait for, their failures and fault
record (09 R281), and their performance (R154, 12 R350, 16 R423). -/

namespace Sys2Proof.Machine

/-! ### Streams (R152) -/

/-- The commands of a stream of a team: 0 copy, 1 gather/scatter, 2 drain. -/
def Team.stream (t : Team) (n : Nat) : List Cmd :=
  if n = 0 then t.copyq else if n = 1 then t.gsq else if n = 2 then t.drainq else []

/-- Change the commands of a stream. -/
def Team.setStream (t : Team) (n : Nat) (l : List Cmd) : Team :=
  if n = 0 then { t with copyq := l } else if n = 1 then { t with gsq := l } else if n = 2 then { t with drainq := l } else t

/-- The command at the head of a stream: the one whose accesses may be performed (R153). -/
def State.headCmd (s : State) (k : TeamKey) (n : Nat) : Option Cmd := (s.team k).bind (fun t => (t.stream n).head?)

/-- Change the head command of a stream. -/
def State.modHead (s : State) (k : TeamKey) (n : Nat) (f : Cmd → Cmd) : State :=
  s.modTeam k (fun t => t.setStream n (match t.stream n with | c :: r => f c :: r | [] => []))

/-- A command is accepted into a stream (R153); a copy-stream command takes the thread's pending future (12 R350). -/
def State.accept (s : State) (th : ThreadKey) (n : Nat) (frec : Option Nat) (kind : CmdKind) : State :=
  let r := s.takeId th.gk.team
  let u := s.thread th
  let fut := if n = 0 then u.fbind else none
  let c : Cmd := { id := r.1, wait := none, thr := th, pc := u.pc, t0 := s.cycle, frec := frec, fr := .none, fut := fut, kind := kind }
  let s := if n = 0 then r.2.modThread th (fun t => { t with fbind := none }) else r.2
  s.modTeam th.gk.team (fun t => t.setStream n (t.stream n ++ [c]))

/-! ### Waiting for the issuing thread's earlier accesses (R153) -/

/-- Has the thread a store before a number that is not ordered? -/
def State.storePending (s : State) (th : ThreadKey) (before : Nat) : Bool :=
  ((s.team th.gk.team).map (fun t =>
    t.stores.any (fun r => r.gk == th.gk && decide (r.id < before) && r.lanes.any (fun l => l.thr == th.thr)))).getD false

/-- May a command make accesses at all: its team stands on a core, its energy is granted, every earlier access of its thread
has been performed (R153)? -/
def State.cmdRuns (s : State) (c : Cmd) : Bool :=
  s.resident c.thr.gk.team && c.wait.isNone && !s.busyBefore c.thr c.id

/-- A command, as it accesses the memory of its context. -/
def State.cmdWho (s : State) (c : Cmd) : Who := s.unit c.thr.gk.team c.id

/-- The event of an access of a command: it waits for the walks of its addresses (01 R28), then acts. -/
def State.withWalks (s : State) (w : Who) (vas : List Nat) (k : Unit → State) : Host.Outcome State Fault Refusal :=
  match s.wantWalk w vas with
  | some s => .next s
  | none => .next (k ())

/-! ### Failures (R281) -/

/-- A failure of a command: the first in traversal order stands; the failure code of an MCAST is the lowest. -/
def FaultRec.note (f : FaultRec) (idx va fc kind : Nat) (sp : Bool) : FaultRec :=
  if f.v ∧ f.idx ≤ idx then f
  else { f with v := true, idx := idx, va := va, fc := fc, kind := if fc = 0 then kind else 0, sp := sp }

/-- A failed landing of an MCAST at a team of its cluster (R281). -/
def FaultRec.noteLanding (f : FaultRec) (fc team : Nat) : FaultRec :=
  { f with v := true, va := 0, fc := if f.v then min f.fc fc else fc, dmap := f.dmap ||| 2 ^ team }

/-- The 16 bytes of a fault record (R281). -/
def FaultRec.bytes (f : FaultRec) : List Byte :=
  leBytes 16 (f.va % 2 ^ 64
    + (1 + f.fc % 16 * 2 ^ 4 + f.kind % 16 * 2 ^ 8 + b2n f.sp * 2 ^ 12 + f.dmap % 2 ^ 12 * 2 ^ 32) * 2 ^ 64)

/-- Note the failure of a read or write of a command, by its outcome. -/
def Cmd.fail (c : Cmd) (idx va : Nat) (k : Option XKind) : Cmd :=
  { c with fr := match k with
      | some k => c.fr.note idx (va / 64 * 64) 0 k.code false
      | none => c.fr.note idx (va / 64 * 64) 1 0 false }

/-! ### Engine writes -/

/-- Is the line of a translated address uncorrectable? -/
def State.lineBad (s : State) (w : Who) (q : Phys) : Bool :=
  decide (s.readLine (s.partOf w.ctx) q.slot (q.pa / 64 * 64) 64 = .ecc)

/-- An engine stores data that it read as uncorrectable, into the line of an address (02 R71). -/
def State.engPoison (s : State) (w : Who) (va : Nat) : State × Option (XKind × Nat) :=
  let line := va / 64 * 64
  match s.translateNow w .write line with
  | .error e => (s, some (e, line))
  | .ok q =>
    if bit q.pte 13 then
      let b := freeBytes s.fresh 64
      (s.bump.homeWrite w q (b.take 1 ++ [0xFF#8] ++ b.drop 2), none)
    else ((s.storeBad (s.pol w.ctx q.pte) q.slot (q.pa / 64)).dropL1 q.pa 64, none)

/-! ### Performance (R154) -/

/-- The bytes that a command without failure has delivered, as its future reports them (R350). -/
def Cmd.delivered (c : Cmd) : Nat :=
  match c.kind with
  | .copy _ lay _ _ _ _ _ _ => lay.es * (lay.box.foldl (fun (a b : Nat) => a * (b + 1)) 1)
  | .mcast _ _ _ _ _ n _ _ => n
  | .qstream _ _ n _ _ => 64 * n
  | _ => 0

/-- A command is performed: its fault record is written, its future resolves, its latency is counted; it leaves its
stream. HENG of a stream is its number plus 1 (16 R423). -/
def State.performCmd (s : State) (k : TeamKey) (n : Nat) (c : Cmd) : State :=
  let s := match c.frec with
    | some off => if c.fr.v then s.spadWrite k off c.fr.bytes else s
    | none => s
  let s := match c.fut with
    | some e => (s.resolve e (if c.fr.v then 0 else c.delivered) c.fr.v).1
    | none => s
  let s := (s.modTeam k (fun t => t.setStream n ((t.stream n).filter (fun x => x.id != c.id)))).forget (.unit k c.id)
  s.completed (s.coreOf k) (n + 1) c.thr c.pc c.t0

/-! ### Energy (15 R402, R403) -/

/-- A lane that takes a cost before it may act: the set stalls until the grant (06 R172). -/
def withEnergy (s : State) (th : ThreadKey) (cost : Nat) (k : State → Act) : Act :=
  if cost = 0 then k s
  else match s.energy th.gk cost with
    | some s => k (s.sketch th (s.thread th).pc 6 cost)
    | none => .hold (s.askEnergy th.gk cost) true

end Sys2Proof.Machine
end

