-- ==== Sys2Proof/Machine/Fill.lean ====
section
/-! DEFINITION. Loads into queues, stores from queues, gathers and scatters, REPLAY (09 R272-R276, R282, 06 R187, R188,
17 R429-R431, 18 R433), and the events that perform them. -/

namespace Sys2Proof.Machine

/-! ### LDQ and LDBQ (R272) -/

/-- A load into a queue of every acting lane: it claims its position at issue and reads later. -/
def execFill (s : State) (i : Instr) (f : OpQs) (modes : List QMode) : Host.Outcome State Fault Refusal :=
  execLanesIf s i { guard := f.g, srcs := [src f.d], dsts := [], bars := s.closedLanes f.qn.toNat }
    (fun gk => s.misused f.qn.toNat { modes := modes, dirs := [.ae], prod := some true } gk)
    (fun s th => withQueue s th f.qn.toNat (fun q i fi =>
      let t := s.thread th
      let k := th.gk.team
      let va := t.rn false f.d.toNat
      let kind : FillKind := match q.mode with | .lane => .lane | .block => .block | .outlier => .olist
      let align := if q.mode = .lane then 4 else 64
      if fi.closed then Act.illop s th
      else if va % align != 0 then Act.cause s th .badarg
      else if !fi.room q.limit 1 then .out (s.block th (.push q.ref i 1))
      else if !s.collRoom k kind.entries then .hold (s.collWait th.gk) true
      else
        let r := (s.claim k q i).takeId k
        let tgt : FillTgt := if fi.dead then .drop else .pos q.ref i fi.nextIn
        let s := r.2.sketch th t.pc 5 kind.entries
        Act.next (s.modTeam k (fun t => { t with fills := t.fills ++
          [{ id := r.1, thr := th, pc := (s.thread th).pc, t0 := s.cycle, kind := kind, va := va, tgt := tgt }] })) th))

/-- LDQ (R272). -/
def execLdq (f : OpQs) (s : State) : Host.Outcome State Fault Refusal := execFill s (.ldq f) f [.lane, .outlier]

/-- LDBQ (R272). -/
def execLdbq (f : OpQs) (s : State) : Host.Outcome State Fault Refusal := execFill s (.ldbq f) f [.block]

/-- The list of an image (R272): its count, at most 64, and its 64 entries. -/
def olistOf (bs : List Byte) : QData :=
  .olist (min 64 (bits (leNat (bs.take 4)) 6 0)) ((List.range 64).map (fun i => BitVec.ofNat 32 (leNat ((bs.drop (64 + 4 * i)).take 4))))

/-- Read the lines of an access under their translations: all the bytes, or the first failure; KEYDEAD where the key slot has been
destroyed since (01 R37, R40). -/
def State.readLines (s : State) (ctx : Nat) (ls : List ((Nat × Nat) × XlatOut)) : Except (Option XKind × Nat) (List Byte) :=
  ls.foldl (fun acc x =>
    match acc, x.2 with
    | .error e, _ => .error e
    | .ok _, .fault k => .error (some k, x.1.1)
    | .ok bs, .ok q =>
      if !s.keyHolds q then .error (some .keydead, x.1.1)
      else match s.readLine (s.partOf ctx) q.slot q.pa x.1.2 with
        | .ok b => .ok (bs ++ b)
        | .keymis => .error (some .keymis, x.1.1)
        | .ecc => .error (none, x.1.1)) (.ok [])

/-- What the read of those lines leaves: the core has the translations, the slices the lines, the core's L1 no older copy (05
R156). -/
def State.linesDone (s : State) (w : Who) (ls : List ((Nat × Nat) × XlatOut)) : State :=
  ls.foldl (fun s x =>
    match x.2 with
    | .ok q =>
      if !s.keyHolds q then s
      else ((s.learn w.core w.ctx x.1.1).l2Touch (s.pol w.ctx q.pte) q.slot q.pa).dropL1Core w.core q.pa
    | .fault _ => s) (if s.shared then s else s.bump)

/-- The entry that an access delivers, or a poison entry whose replay-table entry is still to be named. -/
def fillEntry (kind : FillKind) (r : Except (Option XKind × Nat) (List Byte)) : QSlot :=
  let poison (cls kd va : Nat) : QSlot := .poison { va := BitVec.ofNat 64 va, sp := false, rtag := 0xFFFF, kind := kd, cls := cls }
  match r with
  | .ok bs =>
    match kind with
    | .lane => .data (.lane (BitVec.ofNat 32 (leNat bs)))
    | .block => .data (.block (blockOf bs))
    | .olist => .data (olistOf bs)
  | .error (some x, a) => poison 0 x.code a
  | .error (none, a) => poison 1 0 a

/-- What a load into a queue reads. A misaligned gather element has CLASS 0 and a free KIND (log 3). -/
def State.fillRead (s : State) (f : Fill) : QSlot × State :=
  let w := s.unit f.thr.gk.team f.id
  if f.va % (if f.kind = .lane then 4 else 64) != 0 then
    (.poison { va := BitVec.ofNat 64 f.va, sp := false, rtag := 0xFFFF, kind := (freeDword s.fresh 0).toNat % 16, cls := 0 }, s.bump)
  else
    let ls := s.fillLines f
    (fillEntry f.kind (s.readLines w.ctx ls), s.linesDone w ls)

/-- A replayable poison entry of a queue takes a free replay-table entry (06 R188), the lowest (log 52); none where no entry is
free. -/
def State.nameReplay (s : State) (th : ThreadKey) (kind : FillKind) (va : Nat) (q : Option QRef) (x : QSlot) :
    Option (QSlot × State) :=
  match x with
  | .poison p =>
    match (s.team th.gk.team).bind (fun t => t.freeReplayIx) with
    | some n => some (.poison { p with rtag := n, q := q }, s.modTeam th.gk.team (fun t =>
        { t with replay := updAt t.replay n (fun _ => some { kind := kind, va := va, thr := th, q := q }) }))
    | none => none
  | _ => some (x, s)

/-- May a load into a queue read: every earlier access of its thread to the same bytes has been performed (R156)? -/
def State.fillMay (s : State) (f : Fill) : Bool :=
  (s.fillLines f).all (fun x =>
    match x.2 with
    | .ok q => (s.storesAt f.thr f.id false q.slot q.pa x.1.2).isEmpty && !s.stqAt f.thr f.id false q.slot q.pa x.1.2
        && !s.fillAt f.thr f.id false q.slot q.pa x.1.2
    | .fault _ => true)

/-- The queue that a load delivers to. -/
def Fill.queue (f : Fill) : Option QRef :=
  match f.tgt with
  | .pos q _ _ => some q
  | _ => f.q

/-- A load into a queue is over. -/
def State.fillDone (s : State) (tk : TeamKey) (f : Fill) : State :=
  ((s.modTeam tk (fun t => { t with fills := t.fills.filter (fun x => x.id != f.id) })).forget (.unit tk f.id)).completed
    (s.coreOf tk) 0 f.thr f.pc f.t0 f.kind.entries

/-- A load into a queue delivers what it has read. Poison for which no replay-table entry is free stays with the access, which
stalls its group (06 R172, R188). -/
def State.fillLand (s : State) (tk : TeamKey) (f : Fill) (x : QSlot) : State :=
  let put (k : QSlot → State → State) : State :=
    match s.nameReplay f.thr f.kind f.va f.queue x with
    | some (x, s) => (k x s).fillDone tk f
    | none => s.modTeam tk (fun t => { t with fills := t.fills.map (fun y => if y.id = f.id then { y with stuck := true } else y) })
  match f.tgt with
  | .drop => s.fillDone tk f
  | .pos q fifo pos => put (fun x s => s.fillPos tk q fifo pos x)
  | .bound =>
    if s.groups.any (fun g => decide (g.key.team = tk) && g.waitsFor (.fill f.id)) then put (fun x s => s.deliver tk (.fill f.id) x)
    else s.fillDone tk f

/-- QUEUE_ENTRY_ARRIVAL (R186 rows 7, 8, 15, 16, R272, R282): the data of a load into a queue returns, and fills its
position or its destination. -/
def execQueueEntryArrival (tk : TeamKey) (id : Nat) (s : State) : Host.Outcome State Fault Refusal :=
  match (s.team tk).bind (fun t => t.fills.find? (fun f => f.id == id)) with
  | none => .next s
  | some f =>
    s.withWalks (s.unit tk id) (if f.xlat.isEmpty then (linePieces f.va f.kind.bytes).map (fun p => p.1) else []) (fun _ =>
      if !s.fillMay f then s
      else
        let r := s.fillRead f
        r.2.fillLand tk f r.1)

/-! ### REPLAY (R282) -/

/-- A register that a replay names waits for the numbered load: in WAIT bound to the replay, or POISONED by the entry and not
read yet (log 53). -/
def RegSt.rebind (st : RegSt) (rtag id : Nat) : RegSt :=
  match st with
  | .wait (.replay n _) o => if n = rtag then .wait (.fill id) o else st
  | .poisoned p o => if p.rtag = rtag then .wait (.fill id) o else st
  | _ => st

/-- A list register that a replay names waits for the numbered load. -/
def OlSt.rebind (st : OlSt) (rtag id : Nat) : OlSt :=
  match st with
  | .wait (.replay n _) o => if n = rtag then .wait (.fill id) o else st
  | .poisoned p o => if p.rtag = rtag then .wait (.fill id) o else st
  | _ => st

/-- A set entry that a replay names waits for the numbered load. -/
def SetSlot.rebind (x : SetSlot) (rtag id : Nat) : SetSlot :=
  match x with
  | .replaying (.replay n _) => if n = rtag then .replaying (.fill id) else x
  | .poison p => if p.rtag = rtag then .replaying (.fill id) else x
  | _ => x

/-- Every destination of a group that a replay names waits for the numbered load. -/
def Group.rebind (g : Group) (rtag id : Nat) : Group :=
  { g with
    threads := g.threads.map (fun th => { th with regs := th.regs.map (fun c => { c with st := c.st.rebind rtag id }) })
    ols := g.ols.map (fun o => { o with st := o.st.rebind rtag id })
    sets := g.sets.map (fun b => { b with slots := b.slots.map (fun x => x.rebind rtag id) }) }

/-- Is a slot the poison entry of a replay-table entry? -/
def QSlot.tagged (x : QSlot) (rtag : Nat) : Bool :=
  match x with
  | .poison p => p.rtag == rtag
  | _ => false

/-- The position of a queue that holds the poison entry of a replay-table entry. -/
def Team.poisonAt (t : Team) (rtag : Nat) : Option (QRef × Nat × Nat) :=
  t.queues.findSome? (fun q => (List.range q.fifos.length).findSome? (fun i =>
    let f := q.fifo i
    ((List.range f.slots.length).find? (fun j => (f.slots.getD j .claimed).tagged rtag)).map (fun j => (q.ref, i, f.nextOut + j))))

/-- REPLAY (R282). -/
def execReplay (f : OpA) (s : State) : Host.Outcome State Fault Refusal :=
  execLanes s (.replay f) { guard := f.g, srcs := [srcP f.a f.pa], dsts := [] } (fun s th =>
    let t := s.thread th
    let k := th.gk.team
    let v := t.rn false f.a.toNat
    let rtag := v % 65536
    match (s.team k).bind (fun tm => (tm.replay.getD rtag none).map (fun r => (tm, r))) with
    | none => Act.illop s th
    | some (tm, r) =>
      let vas := (linePieces r.va r.kind.bytes).map (fun p => p.1)
      if v / 65536 != 0 then Act.cause s th .badarg
      else if !s.collRoom k r.kind.entries then .hold (s.collWait th.gk) true
      else match s.wantWalk (s.readsWho th) vas with
      | some s => .hold s true
      | none =>
        let w := s.readsWho th
        let xs := vas.map (fun va => match s.translateNow w .read va with
          | .ok q => XlatOut.ok q
          | .error e => .fault e)
        let (id, s) := ((s.sketch th t.pc 5 r.kind.entries).forget (.reads th)).takeId k
        let s := s.freeReplay k rtag
        let bound := s.groups.any (fun g => decide (g.key.team = k) && g.rebind rtag id != g)
        let s := { s with groups := s.groups.map (fun g => if g.key.team = k then g.rebind rtag id else g) }
        let (s, tgt) : State × FillTgt :=
          if bound then (s, .bound)
          else match tm.poisonAt rtag with
            | some (q, i, pos) =>
              (s.modFifo k q i (fun fi => { fi with slots := updAt fi.slots (pos - fi.nextOut) (fun _ => .claimed) }), .pos q i pos)
            | none => (s, .drop)
        Act.next (s.modTeam k (fun tm => { tm with fills := tm.fills ++
          [{ id := id, thr := th, pc := t.pc, t0 := s.cycle, kind := r.kind, va := r.va, tgt := tgt, xlat := xs, q := r.q }] })) th)

/-! ### STQ (R273) -/

/-- STQ: the address is translated and checked at issue and bound to the thread's next entry position. The lanes that take
positions of one FIFO act together, in increasing index (06 R175). -/
def execStq (f : OpQs) (s : State) : Host.Outcome State Fault Refusal :=
  let rq (s : State) (th : ThreadKey) : MemReq :=
    { spad := false, va := (s.thread th).rn false f.d.toNat
      n := ((s.queueFor th.gk f.qn.toNat).map (fun q => q.stqBytes)).getD 4 }
  execAccIf s (.stq f) { guard := f.g, srcs := [src f.d], dsts := [] }
    (fun gk => s.misused f.qn.toNat { modes := [.lane, .block], dirs := [.es], prod := some false } gk)
    (fun s th => s.readyAt th .write (rq s th) (fun _ => false))
    (fun s th => (s.queueFor th.gk f.qn.toNat).bind (fun q => if q.mode = .lane then none else some 0))
    (fun _ s th => s.accessAct th .write (rq s th) (fun s l =>
      withQueue s th f.qn.toNat (fun q i fi =>
        let k := th.gk.team
        let data : Option QData := match fi.head with | some (.data d) => some d | _ => none
        let (id, s) := s.takeId k
        let s := s.modFifo k q.ref i Fifo.take
        Act.next (s.modQueue k q.ref (fun q => { q with stqs := q.stqs ++
          [{ id := id, thr := th, fifo := i, pos := fi.nextOut, va := (rq s th).va, phys := l.phys, data := data }] })) th)))

/-- The number that an entry's data is as a stored value. -/
def QData.num : QData → Nat
  | .lane v => v.toNat
  | .block b => b.toNat
  | .olist _ _ => 0

/-- An STQ whose entry has arrived, as a store of n bytes that waits to be performed. -/
def Stq.pend (e : Stq) (n : Nat) (d : QData) : PendStore :=
  { id := e.id, gk := e.thr.gk, pc := 0, spad := false, phys := e.phys, rel := false
    lanes := [{ thr := e.thr.thr, addr := e.phys.pa, n := n, val := d.num, va := e.va }] }

/-- STQ_WRITE (R273): the bound entry has arrived and is written, after the thread's earlier accesses of its bytes and
after its earlier loads have bound their values (05 R156, R158). -/
def execStqWrite (tk : TeamKey) (id : Nat) (s : State) : Host.Outcome State Fault Refusal :=
  match (s.team tk).bind (fun t => t.queues.findSome? (fun q =>
      (q.stqs.find? (fun e => e.id == id)).map (fun e => (q, e)))) with
  | none => .next s
  | some (q, e) =>
    match e.data with
    | none => .next s
    | some d =>
      let n := q.stqBytes
      let x := e.phys
      if (s.storesAt e.thr e.id false x.slot x.pa n).isEmpty && !s.stqAt e.thr e.id false x.slot x.pa n
          && !s.readingBefore e.thr e.id then
        .next (((s.performStore tk (e.pend n d)).modQueue tk q.ref (fun q => { q with stqs := q.stqs.filter (fun x => x.id != id) })).tevCheck tk.job)
      else .next s

/-! ### GATH, SCAT and GATH.r (R275, R276) -/

/-- The fields of x[a+1] (R275): fault record, whether none is written, index width in bytes, entries. -/
structure GsWord where
  frec : Nat
  nofr : Bool
  iw : Nat
  cnt : Nat
  deriving DecidableEq, Repr

/-- Decode x[a+1]. -/
def GsWord.ofNat (v : Nat) : GsWord :=
  { frec := bits v 36 19, nofr := bit v 18, iw := if bit v 17 then 8 else 4, cnt := bits v 16 0 }

/-- Does R255 refuse x[a], x[a+1]? -/
def gsBad (idx v : Nat) : Bool :=
  let w := GsWord.ofNat v
  bits v 63 37 != 0 || w.cnt = 0 || decide (65536 < w.cnt) || idx % w.iw != 0

/-- GATH (R275). A thread that has closed its own lane may push into none of them (R270; DESIGN CHOICE, log 69). -/
def execGath (f : OpQda) (s : State) : Host.Outcome State Fault Refusal :=
  let a := f.a.toNat
  execLanesIf s (.gath f) { guard := f.g, srcs := [src f.a, (a + 1, false), src f.d], dsts := [], bars := s.closedLanes f.qn.toNat }
    (fun gk => s.misused f.qn.toNat { modes := [.lane, .block], dirs := [.ae], prod := some true } gk)
    (fun s th => withQueue s th f.qn.toNat (fun q _ fi =>
      let t := s.thread th
      let idx := t.rn false a
      let v := t.rn false (a + 1)
      let w := GsWord.ofNat v
      if fi.closed then Act.illop s th
      else if gsBad idx v then Act.cause s th .badarg
      else Act.next (s.accept th 1 none (.gath q.ref (t.rn false f.d.toNat) idx w.cnt (w.iw == 8) (q.mode == .block) 0 [])) th))

/-- SCAT (R275). The alignment of FREC is checked where a record is to be written (log 54). -/
def execScat (f : OpScat) (s : State) : Host.Outcome State Fault Refusal :=
  let a := f.a.toNat
  execLanes s (.scat f) { guard := f.g, srcs := [src f.a, (a + 1, false), (a + 2, false), src f.d], dsts := [] } (fun s th =>
    let t := s.thread th
    let idx := t.rn false a
    let v := t.rn false (a + 1)
    let val := t.rn false (a + 2)
    let w := GsWord.ofNat v
    if gsBad idx v || (!w.nofr && w.frec % 16 != 0) || val % (if f.blk then 64 else 4) != 0 then Act.cause s th .badarg
    else Act.next (s.accept th 1 (if w.nofr then none else some w.frec)
      (.scat (t.rn false f.d.toNat) idx w.cnt val (w.iw == 8) f.blk 0 [])) th)

/-- GATH.r (R276): one element for each acting lane, as one chunk of the gather/scatter stream. -/
def execGathR (f : OpGathr) (s : State) : Host.Outcome State Fault Refusal :=
  execLoads s (.gathR f) { guard := f.g, srcs := [src f.a, src f.b], dsts := [f.d.toNat] } (fun base s th =>
    let t := s.thread th
    let r : MemReq := { spad := false, va := (t.rn false f.a.toNat + t.rn false f.b.toNat * dwBytes f.dw) % 2 ^ 64, n := dwBytes f.dw }
    if ((s.team th.gk.team).map (fun t => !t.gsq.isEmpty)).getD false then .hold s false
    else s.loadLane { d := f.d.toNat, w := if f.dw then 3#3 else 2#3, ord := .plain, consume := none, home := true } base th r
      (t.taintOf false f.a.toNat || t.taintOf false f.b.toNat))

/-! ### Chunks of the gather/scatter stream (R104) -/

/-- The address of the index of an entry. -/
def indexVa (idx w i : Nat) : Nat := (idx + i * w) % 2 ^ 64

/-- The entries of the next chunk (R104). -/
def chunkOf (cnt next : Nat) : List Nat := (List.range (min (64 - next % 64) (cnt - next))).map (next + ·)

/-- Has the page of an address still to be walked for an access that can wait? -/
def State.unwalked (s : State) (w : Who) (acc : Acc) (va : Nat) : Bool := w.ask.isSome && s.translate w acc va == .miss

/-- The walks that the addresses of a command need are asked for; lines that can be translated do not wait for them (01 R30). -/
def State.wantWalks (s : State) (w : Who) (vas : List Nat) : State :=
  match w.ask with
  | some a => (vas.filter (s.unwalked w .read)).foldl (fun s va => s.requestWalk w.ctx va a) s
  | none => s

/-- What the read of n bytes that do not leave their line gives. -/
def State.gsRead (s : State) (w : Who) (va n : Nat) : GsRead :=
  match s.readVirt w va n with
  | .ok bs => .num (leNat bs)
  | .error e => .fail e.1 (e.2 / 64 * 64)

/-- The indices of the entries whose index lines can be read are read; all those of a line in one moment (05 R161, R166). -/
def State.gsIndices (s : State) (w : Who) (idx wd : Nat) (cur : List GsElem) : List GsElem :=
  cur.map (fun e => if e.ix.isSome || s.unwalked w .read (indexVa idx wd e.i) then e
    else { e with ix := some (s.gsRead w (indexVa idx wd e.i) wd) })

/-- What a step of a command that has read the indices of a chunk leaves: the lines read, and requests for the walks of the
others. -/
def State.indicesDone (s : State) (w : Who) (idx wd : Nat) (cur : List GsElem) : State :=
  let vas := (cur.filter (fun e => e.ix.isNone)).map (fun e => indexVa idx wd e.i)
  ((vas.filter (fun va => !s.unwalked w .read va)).foldl (fun s va => s.readDone w va wd) s).wantWalks w vas

/-- A poison entry whose replay-table entry cannot be had (R275): of an element whose index line failed. -/
def indexPoison (k : Option XKind) (line : Nat) : QSlot :=
  .poison { va := BitVec.ofNat 64 line, sp := false, rtag := 0xFFFF, kind := (k.map XKind.code).getD 0, cls := if k.isSome then 0 else 1 }

/-- The FIFO of a queue that an element of a gather is pushed into (R275). -/
def gathLane (blk : Bool) (i : Nat) : Nat := if blk then 0 else i % 32

/-- The elements of a gather claim their entries of the queue in increasing order (03 R101, R275): those whose index is known,
while there is room. A lane whose consumer has exited takes none (08 R231). -/
def State.gathClaim (s : State) (k : TeamKey) (qr : QRef) (blk : Bool) : List GsElem → State × List GsElem
  | [] => (s, [])
  | e :: rest =>
    let lane := gathLane blk e.i
    if e.done || e.pos.isSome then
      let r := s.gathClaim k qr blk rest
      (r.1, e :: r.2)
    else match (s.team k).bind (fun t => t.queue qr) with
      | none => (s, e :: rest)
      | some q =>
        if (q.fifo lane).dead then
          let r := s.gathClaim k qr blk rest
          (r.1, { e with done := true } :: r.2)
        else if e.ix.isNone || !(q.fifo lane).room q.limit 1 then (s, e :: rest)
        else
          let r := (s.claim k q lane).gathClaim k qr blk rest
          (r.1, { e with pos := some (q.fifo lane).nextIn } :: r.2)

/-- The address of an element. -/
def elemAddr (base n : Nat) (blk : Bool) : Nat := (base + n * (if blk then 64 else 4)) % 2 ^ 64

/-- An element of a gather whose entry is claimed is read, where its address can be translated, and fills the entry; poison
needs a replay-table entry first. -/
def State.gathElem (s : State) (c : Cmd) (qr : QRef) (base : Nat) (blk : Bool) (e : GsElem) : State × GsElem :=
  let k := c.thr.gk.team
  let lane := gathLane blk e.i
  match e.done, e.pos, e.ix with
  | false, some pos, some (.fail kd line) => (s.fillPos k qr lane pos (indexPoison kd line), { e with done := true })
  | false, some pos, some (.num n) =>
    let va := elemAddr base n blk
    let kind : FillKind := if blk then .block else .lane
    if s.unwalked (s.cmdWho c) .read va then (s.wantWalks (s.cmdWho c) [va], e)
    else
      let r := s.fillRead { id := c.id, thr := c.thr, pc := c.pc, t0 := c.t0, kind := kind, va := va, tgt := .drop }
      match r.2.nameReplay c.thr kind va (some qr) r.1 with
      | some (x, s) => (s.fillPos k qr lane pos x, { e with done := true })
      | none => (s, e)
  | _, _, _ => (s, e)

/-- A function that moves the state and changes an element, over the elements in order. -/
def eachElem (f : State → GsElem → State × GsElem) : State → List GsElem → State × List GsElem
  | s, [] => (s, [])
  | s, e :: rest =>
    let x := f s e
    let r := eachElem f x.1 rest
    (r.1, x.2 :: r.2)

/-- A step of a gather: indices, claims, elements. -/
def State.gathStep (s : State) (c : Cmd) (qr : QRef) (base idx wd : Nat) (blk : Bool) (cur : List GsElem) :
    State × List GsElem :=
  let w := s.cmdWho c
  let r := (s.indicesDone w idx wd cur).gathClaim c.thr.gk.team qr blk (s.gsIndices w idx wd cur)
  eachElem (fun s e => s.gathElem c qr base blk e) r.1 r.2

/-- The failure code and kind of a read that failed (R281). -/
def failCode (e : Option XKind) : Nat × Nat :=
  match e with
  | some x => (0, x.code)
  | none => (1, 0)

/-- The values of a scatter chunk whose lines can be read are read. -/
def State.gsValues (s : State) (w : Who) (val es : Nat) (cur : List GsElem) : List GsElem :=
  cur.map (fun e =>
    let va := (val + es * e.i) % 2 ^ 64
    match e.ix, e.val with
    | some (.num _), none => if s.unwalked w .read va then e else { e with val := some (s.gsRead w va es) }
    | _, _ => e)

/-- What a step of a scatter that has read values leaves. -/
def State.valuesDone (s : State) (w : Who) (val es : Nat) (cur : List GsElem) : State :=
  let vas := (cur.filter (fun e => e.val.isNone && (match e.ix with | some (.num _) => true | _ => false))).map
    (fun e => (val + es * e.i) % 2 ^ 64)
  ((vas.filter (fun va => !s.unwalked w .read va)).foldl (fun s va => s.readDone w va es) s).wantWalks w vas

/-- Has an entry of a scatter been read: its index has failed, or its value is known? -/
def GsElem.isRead (e : GsElem) : Bool :=
  match e.ix with
  | none => false
  | some (.fail _ _) => true
  | some (.num _) => e.val.isSome

/-- A failure of an element of a scatter: place in traversal order, line, code, kind. -/
abbrev GsFail := Nat × Nat × Nat × Nat

/-- The failures of the reads of an entry of a scatter: of its index, of its value. -/
def GsElem.readFails (e : GsElem) : List GsFail :=
  match e.ix, e.val with
  | some (.fail k line), _ => [(3 * e.i, line, failCode k)]
  | _, some (.fail k line) => [(3 * e.i + 1, line, failCode k)]
  | _, _ => []

/-- Write an element of a scatter (R275): not where it is misaligned, cannot be translated or its line is uncorrectable; a value
that was read as uncorrectable is stored as 02 R71 states. -/
def State.scatWrite (s : State) (w : Who) (i va es : Nat) (v : Option (List Byte)) : State × List GsFail :=
  let fail (fc kd : Nat) : List GsFail := [(3 * i + 2, va / 64 * 64, fc, kd)]
  if va % es != 0 then (s, fail 4 0)
  else match s.translateNow w .write va with
    | .error k => (s, fail 0 k.code)
    | .ok q =>
      if s.lineBad w q then (s, fail 1 0)
      else match v with
        | some bs => ((s.learn w.core w.ctx va).homeWrite w q bs, [])
        | none => ((s.engPoison w va).1, [])

/-- Do two addresses reach one place, as the tables stand? -/
def State.sameDest (s : State) (w : Who) (a b : Nat) : Bool :=
  a == b || (match s.translateNow w .write a, s.translateNow w .write b with
    | .ok p, .ok q => p.pa == q.pa
    | _, _ => false)

/-- What an entry of a scatter writes: none where its index or the translation of its value has failed. -/
def GsElem.write (e : GsElem) (base es : Nat) (blk : Bool) : Option (Nat × Option (List Byte)) :=
  match e.ix, e.val with
  | some (.num n), some (.num v) => some (elemAddr base n blk, some (leBytes es v))
  | some (.num n), some (.fail none _) => some (elemAddr base n blk, none)
  | _, _ => none

/-- The writes of a scatter chunk in increasing order (R104): an element whose page has still to be walked waits, and with it
every later one of the same destination; late: the destinations that wait. -/
def State.scatWrites (s : State) (w : Who) (base es : Nat) (blk : Bool) :
    List Nat → List GsElem → State × List GsElem × List GsFail
  | _, [] => (s, [], [])
  | late, e :: rest =>
    match e.done, e.write base es blk with
    | false, some (va, v) =>
      if va % es = 0 ∧ (s.unwalked w .write va ∨ late.any (s.sameDest w va)) then
        let r := (s.wantWalks w [va]).scatWrites w base es blk (va :: late) rest
        (r.1, e :: r.2.1, r.2.2)
      else
        let x := s.scatWrite w e.i va es v
        let r := x.1.scatWrites w base es blk late rest
        (r.1, { e with done := true } :: r.2.1, e.readFails ++ x.2 ++ r.2.2)
    | false, none =>
      let r := s.scatWrites w base es blk late rest
      (r.1, { e with done := true } :: r.2.1, e.readFails ++ r.2.2)
    | true, _ =>
      let r := s.scatWrites w base es blk late rest
      (r.1, e :: r.2.1, r.2.2)

/-- A step of a scatter (R104, R275): indices, values, and once every value of the chunk has been read its writes. -/
def State.scatStep (s : State) (w : Who) (base idx wd val : Nat) (blk : Bool) (cur : List GsElem) :
    State × List GsElem × List GsFail :=
  let es := if blk then 64 else 4
  let c1 := s.gsIndices w idx wd cur
  let c2 := s.gsValues w val es c1
  let s := (s.indicesDone w idx wd cur).valuesDone w val es c1
  if c2.all GsElem.isRead then s.scatWrites w base es blk [] c2 else (s, c2, [])

/-- The chunk that a command works on: the one that it has begun, or its next. -/
def chunkNow (cnt next : Nat) (cur : List GsElem) : List GsElem :=
  if cur.isEmpty then (chunkOf cnt next).map (fun i => { i := i }) else cur

/-- The place and the chunk of a command after a step: a chunk of which every entry is over is left. -/
def chunkAfter (next : Nat) (cur : List GsElem) : Nat × List GsElem :=
  if cur.all (fun e => e.done) then (next + cur.length, []) else (next, cur)

/-- GATHER_CHUNK (R104): what can be done of the chunk of the command at the head of the gather/scatter stream. -/
def execGatherChunk (k : TeamKey) (s : State) : Host.Outcome State Fault Refusal :=
  match s.headCmd k 1 with
  | none => .next s
  | some c =>
    if !s.cmdRuns c then .next s
    else match c.kind with
      | .gath q base idx cnt wide blk next cur =>
        let r := s.gathStep c q base idx (if wide then 8 else 4) blk (chunkNow cnt next cur)
        let a := chunkAfter next r.2
        .next (r.1.modHead k 1 (fun c => { c with kind := .gath q base idx cnt wide blk a.1 a.2 }))
      | .scat base idx cnt val wide blk next cur =>
        let r := s.scatStep (s.cmdWho c) base idx (if wide then 8 else 4) val blk (chunkNow cnt next cur)
        let a := chunkAfter next r.2.1
        .next (r.1.modHead k 1 (fun c => { c with
          kind := .scat base idx cnt val wide blk a.1 a.2
          fr := r.2.2.foldl (fun (f : FaultRec) (x : GsFail) => f.note x.1 x.2.1 x.2.2.1 x.2.2.2 false) c.fr }))
      | _ => .next s

end Sys2Proof.Machine
end

