-- ==== Sys2Proof/Machine/Remote.lean ====
section
/-! DEFINITION. Remote channels (03 R115-R117, 09 R283-R286, 21 R439-R447): requests, the landing and delivery of their
responses, vectored completions, and the accesses that peers make (15 R411, R412). -/

namespace Sys2Proof.Machine

/-! ### RCH (R283) -/

/-- A channel of a team. -/
def Team.chan (t : Team) (ch : Nat) : Option Channel := t.chans.find? (fun c => c.num == ch)

/-- Change a channel of a team. -/
def State.modChan (s : State) (k : TeamKey) (ch : Nat) (f : Channel → Channel) : State :=
  s.modTeam k (fun t => { t with chans := t.chans.map (fun c => if c.num = ch then f c else c) })

/-- The peer table of a context (15 R411). -/
def State.peers (s : State) (ctx : Nat) : List PeerEntry := ((s.ctx ctx).map (fun c => c.peers)).getD []

/-- RCH (R283): the channel takes its peer and its vectoring for the requests after it. -/
def execRch (f : OpRG) (s : State) : Host.Outcome State Fault Refusal :=
  execLanes s (.rch f) { guard := f.g, srcs := [srcP f.a f.pa, srcP f.b f.pb], dsts := [f.d.toNat] } (fun s th =>
    let t := s.thread th
    let k := th.gk.team
    let a := t.rn false f.a.toNat
    let b := t.rn false f.b.toNat
    match (s.team k).bind (fun tm => tm.chan (bits a 5 0)) with
    | none => Act.illop s th
    | some c =>
      if bits a 63 7 != 0 || bits b 63 16 != 0 || decide ((s.peers (s.ctxOf k.job)).length ≤ b) then Act.cause s th .badarg
      else
        let s := s.modChan k c.num (fun c => { c with peer := b, uv := bit a 6 })
        let taint := t.taintOf false f.a.toNat || t.taintOf false f.b.toNat
        .done (s.modThread th (fun t => (t.wn false f.d.toNat (c.peer + b2n c.uv * 2 ^ 16) taint).advance)))

/-! ### Delivery (R116, R117, R285) -/

/-- n bytes of free values, from a number on. -/
def freeMany (fresh n : Nat) : List Byte :=
  ((List.range (cdiv n 64)).flatMap (fun i => freeBytes (fresh + i) 64)).take n

/-- A poison entry of a class that a read delivers to its queue: it names the remote address, and is not replayable (06 R187, log 70). -/
def RemReq.poison (r : RemReq) (cls : Nat) : QSlot :=
  .poison { va := BitVec.ofNat 64 r.raddr, sp := false, rtag := 0xFFFF, kind := 0, cls := cls }

/-- The entries that a completed read delivers to its queue; the pieces listed as bad are uncorrectable (14 R398). -/
def RemReq.entries (r : RemReq) (failed : Bool) (bad : List Nat) (data : List Byte) : List QSlot :=
  (List.range (cdiv r.len 64)).map (fun i =>
    if failed then r.poison 9
    else if bad.contains i then r.poison 1
    else .data (.block (blockOf (((data.drop (64 * i)).take 64)))))

/-- A piece of the data of a slot is uncorrectable (14 R398): its entry, where it has still to be pushed, is poison. -/
def ChSlot.spoil (x : ChSlot) (piece : Nat) : ChSlot :=
  match x.req with
  | some r =>
    if x.st = .reserved ∨ x.st = .landed then
      { x with
        bad := x.bad ++ [piece]
        todo := x.todo.mapIdx (fun i y => if i + cdiv r.len 64 = piece + x.todo.length then r.poison 1 else y) }
    else x
  | none => x

/-- Push entries to a queue while it has room: what is left, and the state. They come behind the close marker where the queue has
been closed since they were asked for (09 R270; DESIGN CHOICE, log 69). -/
def State.pushWhile (s : State) (k : TeamKey) (qr : QRef) : List QSlot → List QSlot × State
  | [] => ([], s)
  | x :: xs =>
    match (s.team k).bind (fun t => t.queue qr) with
    | none => ([], s)
    | some q => if (q.fifo 0).room q.limit 1 then (s.push k q 0 x).pushWhile k qr xs else (x :: xs, s)

/-- Signal the completion of a slot that landed in a cycle (R116): a credit and FREE, or a vectoring that becomes due (21 R440,
R447). -/
def State.signalSlot (s : State) (k : TeamKey) (ch n : Nat) (r : RemReq) (failed : Bool) (land : Nat) : State :=
  let s := s.completed (s.coreOf k) 4 r.thr r.pc r.t0
  if r.uv then
    if (s.thread r.thr).live && !r.dead then
      s.modTeam k (fun t => { t with vecq := insertDue t.vecq (r.thr, .channel ch n, land) })
    else s.finishChannel k ch n
  else
    let s := s.modSlot k ch n (fun _ => ChSlot.empty)
    if r.dk.isSome then s else s.phCredit k r.ph r.len failed

/-- Write the data of a read to the scratchpad: undefined bytes where it has failed (R285), uncorrectable ones in the lines of its
bad pieces (14 R398, log 70). -/
def State.landData (s : State) (k : TeamKey) (r : RemReq) (failed : Bool) (sl : ChSlot) : State :=
  if failed then (s.spadWrite k r.spo (freeMany s.fresh r.len)).bumpBy (cdiv r.len 64)
  else sl.bad.foldl (fun s i => s.spoilSpad k ((r.spo + 64 * i) / 64)) (s.spadWrite k r.spo (sl.data.take r.len))

/-- Deliver the completion of a slot: none where it has to wait, for room in the queue or for an earlier access of its
thread (05 R153). The entries of a request whose group has gone reach no queue. -/
def State.deliverSlot (s : State) (k : TeamKey) (ch n : Nat) : Option State × State :=
  match (s.team k).bind (fun t => t.slot ch n) with
  | none => (some s, s)
  | some sl =>
    match sl.req with
    | none => (some s, s)
    | some r =>
      let failed := sl.st == SlotSt.failed
      if s.busyBefore r.thr r.id && !r.dead then (none, s)
      else match r.dk with
        | some q =>
          if r.dead then (some (s.signalSlot k ch n r failed sl.land), s)
          else match s.pushWhile k q sl.todo with
          | ([], s) => (some ((s.modSlot k ch n (fun x => { x with todo := [] })).signalSlot k ch n r failed sl.land), s)
          | (rest, s) => (none, s.modSlot k ch n (fun x => { x with todo := rest }))
        | none =>
          let s := if r.put then s else s.landData k r failed sl
          (some (s.signalSlot k ch n r failed sl.land), s)

/-- Deliver the completions of a channel in landing order, as far as they can be. -/
def State.deliverChan (k : TeamKey) (ch : Nat) : List Nat → State → State
  | [], s => s.modChan k ch (fun c => { c with order := [] })
  | n :: rest, s =>
    match s.deliverSlot k ch n with
    | (some s, _) => State.deliverChan k ch rest s
    | (none, s) => s.modChan k ch (fun c => { c with order := n :: rest })

/-- A reserved slot completes: LANDED with its data, or FAILED. -/
def State.landSlot (s : State) (k : TeamKey) (ch n : Nat) (st : SlotSt) (data : List Byte) : State :=
  let s := s.modSlot k ch n (fun x => { x with
    st := st, data := data, land := s.cycle
    todo := match x.req with
      | some r => if r.dk.isSome then r.entries (st == SlotSt.failed) x.bad data else []
      | none => [] })
  let s := s.modChan k ch (fun c => { c with order := c.order ++ [n] })
  match (s.team k).bind (fun t => t.chan ch) with
  | some c => State.deliverChan k ch c.order s
  | none => s

/-! ### RGET and RPUT (R284, R285) -/

/-- The fields of a request word (R284). -/
structure ReqWord where
  ph : Nat
  spo : Nat
  qd : Nat
  dk : Bool
  len : Nat
  ch : Nat
  deriving DecidableEq, Repr

/-- Decode a request word. -/
def ReqWord.ofNat (v : Nat) : ReqWord :=
  { ph := bits v 55 38, spo := bits v 37 20, qd := bits v 19 15, dk := bit v 14, len := bits v 13 6 + 1, ch := bits v 5 0 }

/-- Does R255 or R284 refuse a request word on a channel? -/
def ReqWord.bad (w : ReqWord) (v : Nat) (put : Bool) (c : Channel) : Bool :=
  bits v 63 56 != 0 || (put && w.dk) || (!w.dk && decide (Config.spadBytes < w.spo + w.len))
    || (if c.uv then w.ph % 16 != 0 || decide (Config.spadBytes < w.ph + 16 * c.slots.length) else !w.dk && w.ph % 32 != 0)

/-- The queue that a read of blocks names (R285): a block queue in direction ae of which the group is the producer, and
which has not been closed (R270). -/
def State.blockDst (s : State) (gk : GroupKey) (qd : Nat) : Option QRef :=
  match s.queueFor gk qd with
  | some q => if q.mode = .block && q.dir = .ae && q.prod = gk && !(q.fifo 0).closed then some q.ref else none
  | none => none

/-- The set stalls for a slot (R115, 21 R441). -/
def State.slotWait (s : State) (gk : GroupKey) : State := s.modGroup gk (fun g => { g with slotw := true })

/-- A request takes the lowest FREE slot; it leaves once every earlier access of its thread has been performed (05 R153). With an
invalid peer it fails at once (15 R411). -/
def State.request (s : State) (th : ThreadKey) (put : Bool) (raddr : Nat) (w : ReqWord) (c : Channel) (n : Nat)
    (dk : Option QRef) : State :=
  let k := th.gk.team
  let (id, s) := s.takeId k
  let r : RemReq := {
    id := id, thr := th, pc := (s.thread th).pc, t0 := s.cycle, put := put, raddr := raddr, len := w.len, spo := w.spo
    ph := w.ph, dk := dk, uv := c.uv, peer := c.peer, src := if put then s.spadRead k w.spo w.len else []
    left := if s.busyBefore th id then none else some s.cycle }
  let s := s.modSlot k w.ch n (fun _ => { st := .reserved, req := some r, data := [], todo := [] })
  if (((s.peers (s.ctxOf k.job))[c.peer]?).map (fun e => e.valid)).getD false then s else s.landSlot k w.ch n .failed []

/-- RGET and RPUT (R285). -/
def execRemote (s : State) (i : Instr) (f : OpRG) (put : Bool) : Host.Outcome State Fault Refusal :=
  execLanes s i { guard := f.g, srcs := [srcP f.a f.pa, srcP f.b f.pb], dsts := [f.d.toNat], keep := true } (fun s th =>
    let t := s.thread th
    let k := th.gk.team
    let v := t.rn false f.b.toNat
    let w := ReqWord.ofNat v
    match (s.team k).bind (fun tm => tm.chan w.ch) with
    | none => Act.illop s th
    | some c =>
      let dst := s.blockDst th.gk w.qd
      if !put && w.dk && dst.isNone then Act.illop s th
      else if w.bad v put c then Act.cause s th .badarg
      else if put && !(s.storesAt th (s.nowId k) true 0 w.spo w.len).isEmpty then .hold s false
      else if put && s.spadEcc k w.spo w.len then Act.raise s th (.eccAt w.spo t.pc)
      else
        match c.slots.findIdx? (fun x => x.st == SlotSt.free) with
        | none => .hold (s.slotWait th.gk) true
        | some n =>
          let taint := t.taintOf false f.a.toNat || t.taintOf false f.b.toNat
          let s := s.clearPoison th f.d.toNat
          let s := s.request th put (t.rn false f.a.toNat) w c n (if w.dk then dst else none)
          .done (s.modThread th (fun t => (t.wn false f.d.toNat n taint).advance)))

/-- RGET (R285). -/
def execRget (f : OpRG) (s : State) : Host.Outcome State Fault Refusal := execRemote s (.rget f) f false

/-- RPUT (R285). -/
def execRput (f : OpRG) (s : State) : Host.Outcome State Fault Refusal := execRemote s (.rput f) f true

/-! ### Events -/

/-- The request of a reserved slot that has left the part and whose answer has still to come. -/
def State.reserved (s : State) (k : TeamKey) (ch n : Nat) : Option RemReq :=
  match (s.team k).bind (fun t => t.slot ch n) with
  | some sl => if sl.st = .reserved then sl.req.filter (fun r => r.left.isSome) else none
  | none => none

/-- A request that has not left leaves in a cycle in which no earlier access of its thread is still to be performed (05 R153). -/
def State.sendNow (s : State) (r : RemReq) : RemReq :=
  if r.left.isSome || (s.busyBefore r.thr r.id && !r.dead) then r else { r with left := some s.cycle }

/-- The requests of a team that leave in a cycle. -/
def State.sendRequests (s : State) (t : Team) : Team :=
  { t with chans := t.chans.map (fun c : Channel =>
      { c with slots := c.slots.map (fun x => { x with req := x.req.map s.sendNow }) }) }

/-- RESPONSE_LANDED (R116, R285): the data of a read, or the acknowledgement of a write, lands. -/
def execResponseLanded (k : TeamKey) (ch n : Nat) (data : List Byte) (s : State) : Host.Outcome State Fault Refusal :=
  match s.reserved k ch n with
  | some r => if r.put || data.length = r.len then .next (s.landSlot k ch n .landed data) else .next s
  | none => .next s

/-- ERROR_RESPONSE (15 R411): the peer refuses the request. -/
def execErrorResponse (k : TeamKey) (ch n : Nat) (s : State) : Host.Outcome State Fault Refusal :=
  match s.reserved k ch n with
  | some _ => .next (s.landSlot k ch n .failed [])
  | none => .next s

/-- RETRANSMISSION_EXHAUSTED (15 R411): no earlier than one budget after the request left. -/
def execRetransmissionExhausted (k : TeamKey) (ch n : Nat) (s : State) : Host.Outcome State Fault Refusal :=
  match s.reserved k ch n with
  | some r => if r.left.getD 0 + s.retx ≤ s.cycle then .next (s.landSlot k ch n .failed []) else .next s
  | none => .next s

/-- CHANNEL_QUEUE_DELIVERY (R116): a completion that waited, for room in its queue, is delivered. -/
def execChannelQueueDelivery (k : TeamKey) (ch n : Nat) (s : State) : Host.Outcome State Fault Refusal :=
  match (s.team k).bind (fun t => t.chan ch) with
  | some c => if c.order.head? = some n then .next (State.deliverChan k ch c.order s) else .next s
  | none => .next s

/-- COMPLETION_VECTORING (R286, 21 R440, R441): a completion due to a thread is delivered where it can be. -/
def execCompletionVectoring (th : ThreadKey) (s : State) : Host.Outcome State Fault Refusal :=
  match s.group th.gk with
  | some g => if s.resident th.gk.team && g.vectorable th.thr then .next (s.vectorNow th) else .next s
  | none => .next s

/-! ### Peers (15 R412) -/

/-- The first cycle in which the retransmissions of a request that has left can run out, and the last (15 R411). -/
def State.firstTry (s : State) (r : RemReq) : Option Nat := r.left.map (fun c => c + s.retx)

/-- The latest cycle in which the retransmissions of a request that has left run out (15 R411). -/
def State.lastTry (s : State) (r : RemReq) : Option Nat := r.left.map (fun c => c + s.retx + s.retx / 4)

/-- May a peer reach a range of a context's memory? -/
def State.exposed (s : State) (ctx peer va n : Nat) (write : Bool) : Bool :=
  ((s.ctx ctx).map (fun c => !c.ended && c.expo.any (fun e =>
    decide (e.lo ≤ va) && decide (va + n ≤ e.hi) && e.peers.contains peer && (!write || e.write)))).getD false

/-- What the outside is answered. -/
def State.answer (s : State) (x : HostOut) : State := { s with hostq := s.hostq ++ [x] }

/-- Is a peer's access refused (R410, R412): it has no security association, its size is none that the transport carries, or
the range is not exposed to it? -/
def State.refusesPeer (s : State) (ctx : Nat) (peer : PeerId) (va n : Nat) (write : Bool) : Bool :=
  !peer.assoc || n = 0 || decide (256 < n) || !s.exposed ctx peer.index va n write

/-- PEER_READ (R412): refused and counted, held while a checkpoint runs (15 R413), or performed under the context. -/
def execPeerRead (ctx : Nat) (peer : PeerId) (va n : Nat) (s : State) : Host.Outcome State Fault Refusal :=
  if s.ckpt then .next { s with heldPeer := s.heldPeer ++ [.peerRead ctx peer va n] }
  else if s.refusesPeer ctx peer va n false then .next ((s.countDev 5 1).answer .peerError)
  else match s.readVirt (manage ctx (ctx == 0)) va n with
    | .ok bs => .next ((s.readDone (manage ctx (ctx == 0)) va n).answer (.peerRead bs))
    | .error _ => .next (s.answer .peerError)

/-- PEER_WRITE (R412): refused and counted, held while a checkpoint runs, or performed under the context. -/
def execPeerWrite (ctx : Nat) (peer : PeerId) (va : Nat) (data : List Byte) (s : State) : Host.Outcome State Fault Refusal :=
  if s.ckpt then .next { s with heldPeer := s.heldPeer ++ [.peerWrite ctx peer va data] }
  else if s.refusesPeer ctx peer va data.length true then .next ((s.countDev 5 1).answer .peerError)
  else match s.writeVirt (manage ctx (ctx == 0)) va data with
    | (s, none) => .next (s.answer .peerDone)
    | (s, some _) => .next (s.answer .peerError)

end Sys2Proof.Machine
end

