-- ==== Sys2Proof/Machine/Fence.lean ====
section
/-! DEFINITION. FENCE, JOIN and ICSYNC.dev (09 R263, R264, 05 R146, R151, R154, R163, 08 R239), and the waits of the
instructions that release or acquire without an access (05 R147). -/

namespace Sys2Proof.Machine

/-! ### Waits -/

/-- Has a register still to receive the value of a pop (05 R151)? A pop whose entry has come as poison has delivered it (log
55); once the poison has been raised, the value is that of the replay. -/
def RegCell.popping (c : RegCell) : Bool :=
  match c.st with
  | .wait (.pos _ _ _) _ => true
  | .wait (.fill _) _ => true
  | .wait (.replay _ _) _ => true
  | .transit _ => true
  | _ => false

/-- Has the thread a pop whose value is still to be delivered? -/
def Thread.popping (t : Thread) : Bool := t.regs.any RegCell.popping

/-- A release (05 R148): the lane goes on only when its earlier accesses have been performed. -/
def afterQuiet (s : State) (th : ThreadKey) (k : State → Act) : Act := if s.quiet th then k s else .hold s false

/-- An acquire at cluster scope or wider (05 R163): the L1 of the thread's core is discarded. -/
def State.acquire (s : State) (th : ThreadKey) : State := s.clearL1 (s.coreOf th.gk.team)

/-! ### FENCE (R263) -/

/-- Has the thread an STQ that is not performed? Every later FENCE of the thread waits for it (09 R273). -/
def State.storing (s : State) (th : ThreadKey) : Bool :=
  ((s.team th.gk.team).map (fun t => t.queues.any (fun q : Queue => q.stqs.any (fun e => e.thr == th)))).getD false

/-- FENCE (R263): it waits for the thread's earlier pops, STQs and accesses, and as an acquire discards the L1. -/
def execFence (f : OpFence) (s : State) : Host.Outcome State Fault Refusal :=
  execLanes s (.fence f) { guard := f.g, srcs := [], dsts := [] } (fun s th =>
    let o := Order.ofOs f.os
    if (s.thread th).popping || s.storing th || (o.rel && !s.quiet th) || (o.acq && s.reading th) then .hold s false
    else Act.next (if o.acq && o.wide then s.acquire th else s) th)

/-! ### JOIN (R264) -/

/-- Is a command of the named streams, accepted before a number, still to be performed (05 R154)? -/
def Team.joining (t : Team) (mask : BitVec 5) (before : Nat) : Bool :=
  (List.range 3).any (fun n => mask.getLsbD n && (t.stream n).any (fun c => decide (c.id < before)))
  || (mask.getLsbD 3 && t.chans.any (fun c => (List.range c.slots.length).any (fun n =>
        match c.slots[n]? with
        | some sl => (sl.st == SlotSt.reserved || c.order.contains n) && (sl.req.map (fun r => decide (r.id < before))).getD false
        | none => false)))
  || (mask.getLsbD 4 && t.attn.any (fun c => decide (c.id < before)))

/-- JOIN (R264): the commands accepted before its first execution, which each lane notes at once. -/
def execJoin (f : OpJoin) (s : State) : Host.Outcome State Fault Refusal :=
  execLanes s (.join f) { guard := f.g, srcs := [], dsts := [] } (fun s th =>
    let k := th.gk.team
    let m := ((s.thread th).mark).getD (s.nowId k)
    if (s.thread th).popping || ((s.team k).map (fun t => t.joining f.mask m)).getD false then
      .wait (s.modThread th (fun t => { t with mark := some m })) false
    else Act.next (s.modThread th (fun t => { t with mark := none })) th)

/-! ### ICSYNC.dev (08 R239) -/

/-- Is a stream command one that a thread issued? A drain command is one of every thread of its group. -/
def Cmd.issuedBy (c : Cmd) (th : ThreadKey) : Bool :=
  match c.kind with
  | .drain _ gk _ _ _ _ _ _ _ => gk == th.gk
  | _ => c.thr == th

/-- Has the thread an engine command that is not performed? -/
def State.commanding (s : State) (th : ThreadKey) : Bool :=
  ((s.team th.gk.team).map (fun t =>
    (List.range 3).any (fun n => (t.stream n).any (fun c => c.issuedBy th))
    || t.chans.any (fun c => (List.range c.slots.length).any (fun n =>
        match c.slots[n]? with
        | some sl => (sl.st == SlotSt.reserved || c.order.contains n) && (sl.req.map (fun r => r.thr == th)).getD false
        | none => false))
    || t.attn.any (fun c => c.thr == th))).getD false

/-- ICSYNC.dev (08 R239): every instruction-cache line of every core is discarded, and the group's capture. -/
def execIcsyncDev (f : OpG) (s : State) : Host.Outcome State Fault Refusal :=
  execLanes s (.icsyncDev f) { guard := f.g, srcs := [], dsts := [] } (fun s th =>
    if !s.quiet th || s.commanding th then .hold s false
    else
      let s := { s with cores := s.cores.map (fun c : Nat × Core => (c.1, { c.2 with icache := [] })) }
      Act.next (s.modGroup th.gk (fun g => { g with loop := none })) th)

end Sys2Proof.Machine
end

