-- ==== Sys2Proof/Machine/KV.lean ====
section
/-! DEFINITION. The KV and prefix operations (04 R118-R127, 12 R356, R357): the table descriptor, the hash, the probe, the
overflow chains, and the instructions. -/

namespace Sys2Proof.Machine

/-! ### Table descriptors (R118, R119) -/

/-- The fields of the 128 bytes of a table descriptor. -/
def TableDesc.ofNat (n : Nat) : TableDesc where
  tbase := bits n 63 0
  nb := bits n 95 64
  kind := bits n 96 96
  hkv := bits n 107 104
  rb := bits n 115 112
  dh := bits n 124 120
  ovf := bits n 191 128
  free := bits n 255 192
  pbase := (List.range 8).map (fun i => bits n (575 + 64 * i) (512 + 64 * i))

/-- Is a reserved bit of the 128 bytes nonzero? -/
def descReserved (n : Nat) : Bool :=
  bits n 103 97 != 0 || bits n 111 108 != 0 || bits n 119 116 != 0 || bits n 127 125 != 0 || bits n 511 256 != 0

/-- Is a field of a descriptor out of its range, or an address misaligned (R119)? FREEHEAD, whose alignment R118 does not
give, is taken to be that of the dword it names (log 56). -/
def TableDesc.bad (d : TableDesc) : Bool :=
  d.nb == 0 || decide (2 ^ 24 < d.nb) || d.tbase % 128 != 0 || d.ovf % 8 != 0 || d.free % 8 != 0
    || d.pbase.any (fun p => p % 65536 != 0)

/-- Does an operation (FN of R356) accept a table kind (R119)? -/
def kindOk (op kind : Nat) : Bool := op == 2 || (if decide (op ≤ 1) then kind == 0 else kind == 1)

/-- What a probe home reads: a value of n bytes at a virtual address, or the cause. -/
abbrev KvRead := Nat → Nat → Except KvOut Nat

/-- The same, with causes of any type. -/
abbrev KvReader (ε : Type) := Nat → Nat → Except ε Nat

/-- Has a plain store or an atomic written bytes of a context's range since an operation was sent (R126)? -/
def State.kvClash (s : State) (w : Who) (since va n : Nat) : Bool :=
  (s.kvLog.drop since).any (fun x => (linePieces va n).any (fun p =>
    match s.translateNow w .read p.1 with
    | .ok q => overlaps q.pa p.2 x.1 x.2
    | .error _ => false))

/-- The reads of an operation (12 R357): after the walks they need. -/
def State.kvRead (s : State) (w : Who) : KvRead := fun va n =>
  let va := va % 2 ^ 64
  match s.firstMiss w ((linePieces va n).map (fun p => p.1)) with
  | some a => .error (.miss a)
  | none =>
    match s.readVirt w va n with
    | .ok bs => .ok (leNat bs)
    | .error (some x, a) => .error (.fault x a)
    | .error (none, a) => .error (.ecc a)

/-- The descriptor at an address, none where it is invalid whatever the operation (R119). -/
def readDesc {ε : Type} (rd : KvReader ε) (va : Nat) : Except ε (Option TableDesc) :=
  if va % 128 != 0 then .ok none
  else do
    let n ← rd va 128
    let d := TableDesc.ofNat n
    return if descReserved n || d.bad then none else some d

/-! ### Hash (R121) -/

/-- The mixed key. -/
def kvHash (key : Nat) : Nat :=
  let z := ((key ^^^ (key / 2 ^ 31)) * 0x7FB5D329728EA185) % 2 ^ 64
  let z := ((z ^^^ (z / 2 ^ 27)) * 0x81DADEF4BC2DD44D) % 2 ^ 64
  z ^^^ (z / 2 ^ 33)

/-- The bucket of a key. -/
def kvBucket (nb key : Nat) : Nat := kvHash key % (8 * nb) / 8

/-- The slots of the bucket in probe order. -/
def kvSlots (nb key : Nat) : List Nat := (List.range 8).map (fun i => (kvHash key % (8 * nb) % 8 + i) % 8)

/-! ### Entries (R120) -/

/-- A table entry. -/
structure KvEntry where
  key : Nat
  pblk : Nat
  ref : Nat
  st : Nat
  deriving DecidableEq, Repr

/-- The entry of 16 bytes. -/
def KvEntry.ofNat (n : Nat) : KvEntry := { key := bits n 63 0, pblk := bits n 95 64, ref := bits n 111 96, st := bits n 113 112 }

/-- The 16 bytes of an entry, reserved bits zero. -/
def KvEntry.bytes (e : KvEntry) : List Byte :=
  leBytes 16 (e.key % 2 ^ 64 + e.pblk % 2 ^ 32 * 2 ^ 64 + e.ref % 2 ^ 16 * 2 ^ 96 + e.st % 4 * 2 ^ 112)

/-- An entry that a probe has found: its address, the entry, and for a record of a chain the address of the dword that
links to it, with its NEXT. -/
structure KvHit where
  va : Nat
  e : KvEntry
  link : Option (Nat × Nat)
  deriving DecidableEq, Repr

/-- The probe of a bucket: the entry found, the first slot that an insert may take, and whether an EMPTY slot ended the
probe (R123). -/
def probeSlots {ε : Type} (rd : KvReader ε) (base key : Nat) : List Nat → Option Nat → Except ε (Option KvHit × Option Nat × Bool)
  | [], room => .ok (none, room, false)
  | i :: rest, room =>
    match rd (base + 16 * i) 16 with
    | .error x => .error x
    | .ok n =>
      let e := KvEntry.ofNat n
      let room' := room <|> some (base + 16 * i)
      if e.st = 0 then .ok (none, room', true)
      else if e.st = 1 then
        if e.key = key then .ok (some { va := base + 16 * i, e := e, link := none }, room, false)
        else probeSlots rd base key rest room
      else probeSlots rd base key rest room'

/-- The walk of an overflow chain (R125): it ends at 0 or at a record that is not 32-byte aligned. None: the chain runs
in a circle, and the walk does not end. link is the address of the dword that holds p. -/
def walkChain {ε : Type} (rd : KvReader ε) (key : Nat) : Nat → List Nat → Nat → Nat → Except ε (Option (Option KvHit))
  | 0, _, _, _ => .ok none
  | fuel + 1, seen, link, p =>
    if p = 0 ∨ p % 32 ≠ 0 then .ok (some none)
    else if seen.contains p then .ok none
    else
      match rd p 16, rd (p + 16) 8 with
      | .ok n, .ok next =>
        let e := KvEntry.ofNat n
        if e.st = 1 ∧ e.key = key then .ok (some (some { va := p, e := e, link := some (link, next) }))
        else walkChain rd key fuel (p :: seen) (p + 16) next
      | .error x, _ => .error x
      | _, .error x => .error x

/-- `find` (R123): the entry, and the slot of the bucket that an insert may take. None: it does not end. -/
def kvFind {ε : Type} (rd : KvReader ε) (d : TableDesc) (key : Nat) : Except ε (Option (Option KvHit × Option Nat)) := do
  let b := kvBucket d.nb key
  let (hit, room, empty) ← probeSlots rd (d.tbase + 128 * b) key (kvSlots d.nb key) none
  if hit.isSome || empty then return some (hit, room)
  else
    let link := d.ovf + 8 * b
    let p ← rd link 8
    let r ← walkChain rd key (2 ^ 59 + 1) [] link p
    return r.map (fun h => (h, room))

/-! ### The operations (R123) -/

/-- A result dword (R124). -/
def kvResult (status pblk ref : Nat) : Dword := BitVec.ofNat 64 (pblk % 2 ^ 32 + status * 2 ^ 32 + ref % 2 ^ 16 * 2 ^ 36)

/-- What an operation does: its result and its writes. -/
structure KvDone where
  out : Dword
  writes : List (Nat × List Byte)
  deriving DecidableEq, Repr

/-- A hit by a lookup or an insert: a prefix entry counts one more reference unless it is pinned. -/
def KvHit.use (h : KvHit) (kind status : Nat) : KvDone :=
  if kind = 1 ∧ h.e.ref ≠ 0xFFFF then
    { out := kvResult status h.e.pblk (h.e.ref + 1), writes := [(h.va, { h.e with ref := h.e.ref + 1 }.bytes)] }
  else { out := kvResult status h.e.pblk h.e.ref, writes := [] }

/-- The lookup. -/
def kvLook (kind : Nat) (hit : Option KvHit) : KvDone :=
  match hit with
  | none => { out := kvResult 1 0 0, writes := [] }
  | some h => h.use kind 0

/-- The insert; a full bucket takes a record of the free list (R125). -/
def kvIns {ε : Type} (rd : KvReader ε) (d : TableDesc) (key pblk : Nat) (hit : Option KvHit) (room : Option Nat) : Except ε KvDone :=
  match hit with
  | some h => .ok (h.use d.kind 3)
  | none =>
    let new : List Byte := ({ key := key, pblk := pblk, ref := 1, st := 1 } : KvEntry).bytes
    match room with
    | some va => .ok { out := kvResult 2 pblk 1, writes := [(va, new)] }
    | none => do
      let rec_ ← rd d.free 8
      if rec_ = 0 ∨ rec_ % 32 ≠ 0 then return { out := kvResult 6 0 0, writes := [] }
      else
        let next ← rd (rec_ + 16) 8
        let link := d.ovf + 8 * kvBucket d.nb key
        let head ← rd link 8
        return {
          out := kvResult 2 pblk 1
          writes := [(d.free, leBytes 8 next), (rec_, new ++ leBytes 8 head ++ leBytes 8 0), (link, leBytes 8 rec_)] }

/-- The delete. -/
def kvDel {ε : Type} (rd : KvReader ε) (d : TableDesc) (hit : Option KvHit) : Except ε KvDone :=
  match hit with
  | none => .ok { out := kvResult 1 0 0, writes := [] }
  | some h =>
    if d.kind = 1 ∧ h.e.ref = 0xFFFF then .ok { out := kvResult 5 h.e.pblk 0xFFFF, writes := [] }
    else if d.kind = 1 ∧ 1 < h.e.ref then
      .ok { out := kvResult 5 h.e.pblk (h.e.ref - 1), writes := [(h.va, { h.e with ref := h.e.ref - 1 }.bytes)] }
    else
      match h.link with
      | none => .ok { out := kvResult 4 h.e.pblk 0, writes := [(h.va, { h.e with st := 2 }.bytes)] }
      | some (link, next) => do
        let head ← rd d.free 8
        return {
          out := kvResult 4 h.e.pblk 0
          writes := [(link, leBytes 8 next), (h.va + 16, leBytes 8 head), (d.free, leBytes 8 h.va)] }

/-- An operation on a table: FN of R356, descriptor address, key, block. None: it does not end. -/
def kvPerform {ε : Type} (rd : KvReader ε) (op desc key pblk : Nat) : Except ε (Option KvDone) := do
  match ← readDesc rd desc with
  | none => return some { out := kvResult 7 0 0, writes := [] }
  | some d =>
    if !kindOk op d.kind then return some { out := kvResult 7 0 0, writes := [] }
    else
      match ← kvFind rd d key with
      | none => return none
      | some (hit, room) =>
        if op = 0 ∨ op = 3 then return some (kvLook d.kind hit)
        else if op = 2 then return some (← kvDel rd d hit)
        else return some (← kvIns rd d key pblk hit room)

/-! ### The instructions (R356, R357) -/

/-- Is a result one that acquires (R127): HIT or FOUND? -/
def kvAcquires (r : Dword) : Bool := bits r.toNat 35 32 == 0 || bits r.toNat 35 32 == 3

/-- A reader that knows some reads, and stops at the first other one with its address and size, or where a read fails. -/
def knownReads (rd : KvRead) (known : List (Nat × Nat)) : KvReader (Option (Nat × Nat)) := fun va n =>
  if known.contains (va, n) then (match rd va n with | .ok x => .ok x | .error _ => .error none) else .error (some (va, n))

/-- The reads of an operation in their order: those known and, while fuel lasts, the next one that it asks for. -/
def kvReads (rd : KvRead) (op : KvOp) : Nat → List (Nat × Nat) → List (Nat × Nat)
  | 0, known => known
  | fuel + 1, known =>
    match kvPerform (knownReads rd known) op.op op.desc op.key op.pblk with
    | .error (some x) => kvReads rd op fuel (known ++ [x])
    | _ => known

/-- What an operation reads, by address and size (R123-R125). -/
def KvOp.reads (op : KvOp) (rd : KvRead) : List (Nat × Nat) := kvReads rd op (2 ^ 60) []

/-- Has a plain store or an atomic written bytes of the table that an operation reads, since it was sent (R126)? -/
def State.kvClashes (s : State) (w : Who) (op : KvOp) : Bool :=
  !s.kvLog.isEmpty && (op.reads (s.kvRead w)).any (fun x => decide (x.1 ≠ op.desc) && s.kvClash w op.since (x.1 % 2 ^ 64) x.2)

/-- A KV operation: the lane waits for its earlier accesses (R127), sends the operation to the probe home, and waits for
the result or for the cause. -/
def execKv (s : State) (i : Instr) (f : OpRG) (op : Nat) : Host.Outcome State Fault Refusal :=
  let ins := op == 1 || op == 4
  let srcs := [srcP f.a f.pa, srcP f.b f.pb] ++ (if ins then [(f.b.toNat + 1, f.pb)] else [])
  execLanes s i { guard := f.g, srcs := srcs, dsts := [f.d.toNat], keep := true } (fun s th =>
    let t := s.thread th
    let close (s : State) : State := s.modThread th (fun t => { t with kv := none })
    match t.kv with
    | none =>
      afterQuiet s th (fun s => .hold (s.modThread th (fun t => { t with kv := some {
        op := op
        desc := t.rn false f.a.toNat
        key := t.rn false f.b.toNat
        pblk := if ins then t.rn false (f.b.toNat + 1) % 2 ^ 32 else 0
        since := s.kvLog.length
        out := none } })) false)
    | some k =>
      match k.out with
      | none => .hold s false
      | some (.miss _) => .hold s false
      | some (.result r acq) =>
        let taint := t.taintOf false f.a.toNat || t.taintOf false f.b.toNat || (ins && t.taintOf false (f.b.toNat + 1))
        let s := (close s).clearPoison th f.d.toNat
        let s := if acq then s.acquire th else s
        .done (s.modThread th (fun t => (t.wr false f.d.toNat r taint).advance))
      | some (.fault x va) => Act.raise (close s) th (.xlat x va t.pc)
      | some (.ecc va) => Act.raise (close s) th (.eccAt va t.pc))

/-- KVLOOK. -/
def execKvlook (f : OpRG) (s : State) : Host.Outcome State Fault Refusal := execKv s (.kvlook f) f 0
/-- KVINS. -/
def execKvins (f : OpRG) (s : State) : Host.Outcome State Fault Refusal := execKv s (.kvins f) f 1
/-- KVDEL. -/
def execKvdel (f : OpRG) (s : State) : Host.Outcome State Fault Refusal := execKv s (.kvdel f) f 2
/-- PFXLOOK. -/
def execPfxlook (f : OpRG) (s : State) : Host.Outcome State Fault Refusal := execKv s (.pfxlook f) f 3
/-- PFXINS. -/
def execPfxins (f : OpRG) (s : State) : Host.Outcome State Fault Refusal := execKv s (.pfxins f) f 4

/-! ### The probe (R122) -/

/-- The first write of an operation that fails translation (R357). -/
def State.kvWriteFault (s : State) (w : Who) (ws : List (Nat × List Byte)) : Option (XKind × Nat) :=
  ws.findSome? (fun x =>
    match s.translateNow w .write (x.1 % 2 ^ 64) with
    | .error e => some (e, x.1 % 2 ^ 64)
    | .ok _ => none)

/-- The writes of an operation, each at its home: every L1 copy of a line goes (03 R89). -/
def State.kvWrite (s : State) (w : Who) (ws : List (Nat × List Byte)) : State :=
  ws.foldl (fun s x => (s.writeVirt w (x.1 % 2 ^ 64) x.2).1) s

/-- The home of the bucket of an operation (R122): its slice and the bucket's address, none where the descriptor is bad. -/
def State.kvBucketHome (s : State) (w : Who) (op : KvOp) : Option (Nat × Nat × Nat) :=
  match readDesc (s.kvRead w) op.desc with
  | .ok (some d) =>
    let va := (d.tbase + 128 * kvBucket d.nb op.key) % 2 ^ 64
    match s.translateNow w .read va with
    | .ok q => some (s.homeSlice (s.partOf w.ctx) q.pa, w.ctx, va)
    | .error _ => none
  | _ => none

/-- What the reads of an operation leave: every line that it has read stands in its slice as the leaf says (03 R95) and in no
older copy in the core's L1 (05 R156), and the probe home holds the bucket (03 R96). -/
def State.kvHome (s : State) (w : Who) (op : KvOp) : State :=
  let home := s.kvBucketHome w op
  let s := (op.reads (s.kvRead w)).foldl (fun s x => s.readDone w (x.1 % 2 ^ 64) x.2) s
  match home with
  | some x => if s.kvHomes.contains x then s else { s with kvHomes := s.kvHomes ++ [x] }
  | none => s

/-- The operation of a thread has been performed, or has failed. -/
def State.kvAnswer (s : State) (th : ThreadKey) (o : KvOut) : State :=
  let s := (s.bump.forget (.kv th)).modThread th (fun t => { t with kv := t.kv.map (fun q => { q with out := some o }) })
  if s.kvBusy then s else { s with kvLog := [] }

/-- What an operation answers that has been performed: where plain stores or atomics have written what it reads, its result is
undefined (R126), and it acquires as the bytes it has acted on say (log 25). -/
def KvDone.answer (d : KvDone) (fresh : Nat) (clash : Bool) : KvOut :=
  .result (if clash then freeResult fresh else d.out) (kvAcquires d.out)

/-- KV_PROBE (R122, R123, R357): the operation of a thread is performed whole, or fails and leaves the table as it is. A chain
that runs in a circle, which R126 alone can bring about, gives an undefined result (log 25). -/
def execKvProbe (th : ThreadKey) (s : State) : Host.Outcome State Fault Refusal :=
  match (s.thread th).kv with
  | none => .next s
  | some q =>
    if q.out.isSome || !s.resident th.gk.team then .next s
    else
      let w := s.kvWho th
      match kvPerform (s.kvRead w) q.op q.desc q.key q.pblk with
      | .error (.miss va) => .next (s.requestWalk w.ctx va (.kv th))
      | .error o => .next ((s.kvHome w q).kvAnswer th o)
      | .ok none => .next ((s.kvHome w q).kvAnswer th (.result (freeResult s.fresh) false))
      | .ok (some d) =>
        s.withWalks w (d.writes.map (fun x => x.1 % 2 ^ 64)) (fun _ =>
          match s.kvWriteFault w d.writes with
          | some (x, va) => (s.kvHome w q).kvAnswer th (.fault x va)
          | none => ((s.kvHome w q).kvWrite w d.writes).kvAnswer th (d.answer s.fresh (s.kvClashes w q)))

end Sys2Proof.Machine
end

