-- ==== Sys2Proof/Machine/Attn.lean ====
section
/-! DEFINITION. The attention command (04 R128-R141, 12 R358): the record, its rejection, the triples of the gong units and
of a stack, and the delivery of a command's entries. -/

namespace Sys2Proof.Machine

/-! ### The command record (R130, R131) -/

/-- The fields of the 64 bytes of a command record. -/
structure AttRec where
  desc : Nat
  list : Nat
  nblk : Nat
  len : Nat
  scale : Nat
  deadline : Nat
  qoff : Nat
  hq : Nat
  kvh : Nat
  uv : Bool
  qn : Nat
  step : Nat
  land : Nat
  deriving DecidableEq, Repr

/-- Decode a record. -/
def AttRec.ofNat (n : Nat) : AttRec where
  desc := bits n 63 0
  list := bits n 127 64
  nblk := bits n 159 128
  len := bits n 191 160
  scale := bits n 223 192
  deadline := bits n 255 224
  qoff := bits n 287 256
  hq := bits n 290 288
  kvh := bits n 299 296
  uv := bit n 309
  qn := bits n 308 304
  step := bits n 351 320
  land := bits n 383 352

/-- Code 1 (R358): a reserved bit is nonzero, or a field that the record alone bounds is out of range. -/
def attReserved (n : Nat) : Bool :=
  let r := AttRec.ofNat n
  bits n 295 291 != 0 || bits n 303 300 != 0 || bits n 311 310 != 0 || bits n 319 312 != 0 || bits n 511 384 != 0
    || r.nblk == 0 || decide (65536 < r.nblk) || r.len == 0 || decide (64 * r.nblk < r.len)
    || r.qoff % 64 != 0 || (r.uv && r.land % 64 != 0)

/-- Head dimension (R118). -/
def TableDesc.dim (d : TableDesc) : Nat := 8 * (d.dh + 1)

/-- Bytes of a block (R128). -/
def TableDesc.blockBytes (d : TableDesc) : Nat := (d.hkv + 1) * 2 * 64 * (d.rb + 1) * 64

/-- The blocks after the header of a triple (R134). -/
def accBlocks (dim : Nat) : Nat := cdiv dim 15

/-- The queue that a command delivers into: a block queue that its team produces into; where it has several copies, the one that
the issuing group produces into, else the first of the team's list (log 42). -/
def State.attQueue (s : State) (gk : GroupKey) (qn : Nat) : Option QRef :=
  match s.team gk.team with
  | none => none
  | some t =>
    let l := t.queues.filter (fun q : Queue => q.ref.name == qn && q.mode == QMode.block)
    ((l.find? (fun q : Queue => q.prod == gk)) <|> l.head?).map (fun q => q.ref)

/-! ### Shares of a command (R132) -/

/-- The list positions of the blocks of a stack, with their physical block ids. -/
def stackBlocks (list : List Nat) (stack : Nat) : List (Nat × Nat) :=
  ((List.range list.length).zip list).filter (fun x => x.2 / 2 ^ 29 == stack)

/-- The blocks of a unit of a stack: every eighth. -/
def unitBlocks (l : List (Nat × Nat)) (unit : Nat) : List (Nat × Nat) :=
  ((List.range l.length).zip l).filterMap (fun x => if x.1 % 8 = unit then some x.2 else none)

/-- The participating stacks. -/
def stackMask (list : List Nat) : Nat := ((List.range 8).filter (fun s => list.any (fun b => b / 2 ^ 29 == s))).foldl (fun m s => m ||| 2 ^ s) 0

/-- The participating gong units with the blocks that each has. -/
def attUnits (list : List Nat) : List (Nat × Nat) :=
  (List.range 64).filterMap (fun u =>
    let n := (unitBlocks (stackBlocks list (u / 8)) (u % 8)).length
    if n = 0 then none else some (u, n))

/-! ### ATTD (R358) -/

/-- ATTD commands in flight of a core (R138). -/
def State.attInFlight (s : State) (core : Nat) : Nat :=
  ((s.teams.filter (fun t : Team => t.core == core)).map (fun t => t.attn.length)).sum

/-- A command is accepted (R138, R141): it enters the attention stream, and each unit asks for its energy. -/
def State.acceptAtt (s : State) (th : ThreadKey) (r : AttRec) (d : TableDesc) (list : List Nat) (dst : Option QRef) : State :=
  let k := th.gk.team
  let (id, s) := s.takeId k
  let dim := d.dim
  let q := (List.range (r.hq + 1)).map (fun j =>
    (List.range dim).map (fun e => (BitVec.ofNat 32 (leNat (s.spadRead k (r.qoff + 4 * dim * j + 4 * e) 4)) : Word)))
  let c : AttCmd := {
    id := id, thr := th, pc := (s.thread th).pc, t0 := s.cycle, desc := d, list := list, len := r.len
    scale := BitVec.ofNat 32 r.scale, deadline := r.deadline, nheads := r.hq + 1, kvh := r.kvh, query := q, dst := dst
    land := r.land, step := r.step, pmask := stackMask list, res := List.replicate 8 .none, late := [], first := 0
    closed := false, out := [], blk := 0, charged := [], fr := 0 }
  let s := s.modTeam k (fun t => { t with attn := t.attn ++ [c] })
  (attUnits list).foldl (fun (s : State) (u : Nat × Nat) =>
    s.ask (928 + u.1) { who := .inr (k, id, u.1), cost := cdiv (u.2 * d.blockBytes) 8192, cyc := s.cycle, rank := energyRank th.gk }) s

/-- The list of a command as its engine reads it at issue (R130, R132). -/
def listOf (n nblk : Nat) : List Nat := (List.range nblk).map (fun i => n / 2 ^ (32 * i) % 2 ^ 32)

/-- Does a command's scratchpad range pass the end (R131, R139)? -/
def AttRec.tooLong (r : AttRec) (d : TableDesc) (mask : Nat) : Bool :=
  decide (Config.spadBytes < r.qoff + 4 * d.dim * (r.hq + 1))
    || (r.uv && decide (Config.spadBytes < r.land
        + 64 * ((r.hq + 1) * ((if r.deadline = 0 then 1 else 2) + accBlocks d.dim) * (maskList 8 mask).length)))

/-- ATTD once its thread's earlier accesses are performed: its result where it is rejected, or the command. -/
def attIssue (s : State) (th : ThreadKey) (off : Nat) (k : State → Nat → Act) : Act :=
  let t := s.thread th
  let tk := th.gk.team
  if s.spadEcc tk off 64 then Act.raise s th (.eccAt off t.pc)
  else
    let n := leNat (s.spadRead tk off 64)
    let r := AttRec.ofNat n
    let fail (o : KvOut) : Act :=
      match o with
      | .fault x va => Act.raise (s.forget (.reads th)) th (.xlat x va t.pc)
      | .ecc va => Act.raise (s.forget (.reads th)) th (.eccAt va t.pc)
      | .miss va => .hold (s.requestWalk (s.ctxOf tk.job) va (.reads th)) true
      | .result _ _ => Act.cause s th .badarg
    let w := s.readsWho th
    let rd := s.kvRead w
    if attReserved n then k s 1
    else match readDesc rd r.desc with
      | .error o => fail o
      | .ok none => k s 2
      | .ok (some d) =>
        if d.kind != 0 then k s 2
        else if r.kvh > d.hkv then k s 1
        else match s.firstMiss w ((linePieces r.list (4 * r.nblk)).map (fun p => p.1)), s.readVirt w r.list (4 * r.nblk) with
          | some va, _ => fail (.miss va)
          | none, .error (some x, va) => fail (.fault x va)
          | none, .error (none, va) => fail (.ecc va)
          | none, .ok bs =>
            let list := listOf (leNat bs) r.nblk
            if r.tooLong d (stackMask list) then k s 3
            else if (s.attQueue th.gk r.qn).isNone then k s 4
            else if s.spadEcc tk r.qoff (4 * d.dim * (r.hq + 1)) then Act.raise s th (.eccAt r.qoff t.pc)
            else if 16 ≤ s.attInFlight (s.coreOf tk) then .hold s true
            else
              let s := (s.readDone w r.desc 128).readDone w r.list (4 * r.nblk)
              k (s.acceptAtt th r d list (if r.uv then none else s.attQueue th.gk r.qn)) 0

/-- ATTD (R358): a release (R140), then the command is accepted or rejected with its code. -/
def execAttd (f : OpDA) (s : State) : Host.Outcome State Fault Refusal :=
  execLanes s (.attd f) { guard := f.g, srcs := [srcP f.a f.pa], dsts := [f.d.toNat], keep := true } (fun s th =>
    let t := s.thread th
    let off := t.rn false f.a.toNat
    if off % 64 != 0 || decide (Config.spadBytes ≤ off) then Act.cause s th .badarg
    else afterQuiet s th (fun s => attIssue s th off (fun s code =>
      let taint := t.taintOf false f.a.toNat
      let s := (s.forget (.reads th)).clearPoison th f.d.toNat
      .done (s.modThread th (fun t => (t.wn false f.d.toNat code taint).advance)))))

/-! ### Triples (R132, R133) -/

/-- A running triple of a query head: m, s, and the accumulators. -/
structure Triple where
  m : Nat
  s : Nat
  acc : List Nat
  deriving DecidableEq, Repr

/-- The empty triple. -/
def Triple.empty (dim : Nat) : Triple := { m := 0xFF800000, s := 0, acc := List.replicate dim 0 }

/-- convert(x, FP32) of an exact value with its validity. -/
def rnd32 (x : FVal × Bool) : Nat := (convert .fp32 x.1 x.2).1

/-- The sum of an exact product and a code, rounded once. -/
def mulAdd (a b : FVal) (c : Nat) : Nat := rnd32 (a.fma b (f32 c))

/-- The dot product, one rounding a step. -/
def attDot (q : List Nat) (k : List FVal) : Nat := (q.zip k).foldl (fun (dot : Nat) x => mulAdd (f32 x.1) x.2 dot) 0

/-- One token of R132. -/
def Triple.token (t : Triple) (q : List Nat) (scale : Nat) (k v : List FVal) : Triple :=
  let x := rnd32 ((f32 (attDot q k)).mul (f32 scale))
  if (f32 x).cmp (f32 t.m) = some .gt then
    let c := (exp2Conv .fp32 ((f32 t.m).add (f32 x).neg).1).1
    { m := x
      s := mulAdd (f32 t.s) (f32 c) 0x3F800000
      acc := (t.acc.zip v).map (fun a => rnd32 ((f32 a.1).fma (f32 c) a.2)) }
  else
    let p := (exp2Conv .fp32 ((f32 x).add (f32 t.m).neg).1).1
    { m := t.m
      s := rnd32 ((f32 t.s).add (f32 p))
      acc := (t.acc.zip v).map (fun a => mulAdd (f32 p) a.2 a.1) }

/-- The merge of two triples (R133). -/
def Triple.merge (a b : Triple) : Triple :=
  let r := mergePair a.m a.s b.m b.s
  { m := r.1, s := r.2.1, acc := (a.acc.zip b.acc).map (fun x => (mergePair a.m x.1 b.m x.2).2.1) }

/-! ### Rows (R128, R129) -/

/-- The failure of a read of a gong unit: class and kind of R187. -/
abbrev AttErr := Nat × Nat

/-- The values of one 64-byte block of a row, or its failure (R129). -/
def attDecode (b : Block) : Except AttErr (List FVal) :=
  if blkSe b = 0xFF then .error (2, 0)
  else if blkFmt b = 0 ∨ 8 < blkFmt b then .error (4, 0)
  else match checkBlock b (some 0) with
    | none => .ok (decodeValues b [])
    | some .poison => .error (2, 0)
    | some .fmt => .error (3, 0)
    | some .hdr => .error (4, 0)
    | some .olref => .error (5, 0)

/-- A line of a block of a stack as its unit reads it from HBM (03 R79): translation and its checks, the place of R128, then the
data. -/
def State.gongLine (s : State) (w : Who) (stack va : Nat) : Except AttErr Block :=
  match s.translateNow w .read va with
  | .error x => .error (0, x.code)
  | .ok q =>
    if !bit q.pa 38 || hbmStack q.pa != stack then .error (6, 0)
    else match s.hbmRead q.slot q.pa 64 with
      | .ok bs => .ok (blockOf (maskFree s.fresh (s.foreign (s.partOf w.ctx) (q.pa / 64)) 0 bs))
      | .keymis => .error (0, XKind.keymis.code)
      | .ecc => .error (1, 0)

/-- The first D elements of a row of n blocks. -/
def State.gongRow (s : State) (w : Who) (stack va dim : Nat) : Nat → Except AttErr (List FVal)
  | 0 => if dim = 0 then .ok [] else .error (4, 0)
  | n + 1 => do
    let b ← s.gongLine w stack (va % 2 ^ 64)
    let vs ← attDecode b
    let rest ← s.gongRow w stack (va + 64) (dim - vs.length) n
    return vs.take dim ++ rest

/-- The address of a block. -/
def TableDesc.blockVa (d : TableDesc) (pblk : Nat) : Nat :=
  ((d.pbase.getD (pblk / 2 ^ 29) 0) + pblk % 2 ^ 29 * d.blockBytes) % 2 ^ 64

/-- The K and V rows of the tokens of a block that lie below LEN. -/
def State.gongBlock (s : State) (w : Who) (c : AttCmd) (i pblk : Nat) : Except AttErr (List (List FVal × List FVal)) :=
  let d := c.desc
  let rowB := 64 * (d.rb + 1)
  let base := d.blockVa pblk + c.kvh * (2 * 64 * rowB)
  (List.range (min 64 (c.len - 64 * i))).mapM (fun t => do
    let kr ← s.gongRow w (pblk / 2 ^ 29) (base + t * rowB) d.dim (d.rb + 1)
    let vr ← s.gongRow w (pblk / 2 ^ 29) (base + (64 + t) * rowB) d.dim (d.rb + 1)
    return (kr, vr))

/-- The rows of every block of a stack, or the poison of the first that fails in list order (R137). No rule makes such a poison
replayable: its RTAG is 0xFFFF in every CLASS (DEDUCED, log 76). -/
def State.gongRows (s : State) (w : Who) (c : AttCmd) :
    List (Nat × Nat) → Except Poison (List (List (List FVal × List FVal)))
  | [] => .ok []
  | (i, b) :: rest =>
    match s.gongBlock w c i b with
    | .error e => .error { va := BitVec.ofNat 64 (c.desc.blockVa b), sp := false, rtag := 0xFFFF, kind := e.2, cls := e.1 }
    | .ok rows => do
      let r ← s.gongRows w c rest
      return rows :: r

/-- A stack's triple for a query head: of each unit over its blocks, merged in increasing unit index (R132, R133). -/
def stackTriple (dim scale : Nat) (q : List Nat) (blocks : List (List (List FVal × List FVal))) : Triple :=
  let unit (u : Nat) : Triple :=
    let mine := ((List.range blocks.length).zip blocks).filter (fun x => x.1 % 8 == u)
    (mine.flatMap (fun x => x.2)).foldl (fun (t : Triple) r => t.token q scale r.1 r.2) (.empty dim)
  (List.range 7).foldl (fun (t : Triple) u => t.merge (unit (u + 1))) (unit 0)

/-- The words of a triple as a command keeps it. -/
def Triple.words (t : Triple) : List Word := ((t.m :: t.s :: t.acc).map (fun n => (BitVec.ofNat 32 n : Word)))

/-- The addresses of the lines that the units of a stack read. -/
def AttCmd.lines (c : AttCmd) (stack : Nat) : List Nat :=
  let rowB := 64 * (c.desc.rb + 1)
  (stackBlocks c.list stack).flatMap (fun x =>
    let base := c.desc.blockVa x.2 + c.kvh * (2 * 64 * rowB)
    (List.range (min 64 (c.len - 64 * x.1))).flatMap (fun t =>
      (List.range (c.desc.rb + 1)).flatMap (fun j =>
        [(base + t * rowB + 64 * j) % 2 ^ 64, (base + (64 + t) * rowB + 64 * j) % 2 ^ 64])))

/-- The slices write back what HBM has still to take of the lines that the units of a stack read. -/
def State.gongClean (s : State) (w : Who) (vas : List Nat) : State :=
  vas.foldl (fun s va =>
    match s.translateNow w .read va with
    | .ok q => (s.learn w.core w.ctx va).l2Clean (s.partOf w.ctx) q.slot (q.pa / 64)
    | .error _ => s) s

/-- The result of a stack. -/
def State.stackResult (s : State) (w : Who) (c : AttCmd) (stack : Nat) : StkRes :=
  match s.gongRows w c (stackBlocks c.list stack) with
  | .error p => .fail p
  | .ok rows => .triple (c.query.map (fun q => (stackTriple c.desc.dim c.scale.toNat (q.map BitVec.toNat) rows).words))

/-! ### Entries (R134, R135) -/

/-- The header block of an entry: KD 0 on time, 1 late marker, 2 late. -/
def attHeader (c : AttCmd) (m s : Word) (stack head kd nacc : Nat) : Block :=
  blockOf ([0#8, 0x7F#8] ++ leBytes 4 m.toNat ++ leBytes 4 s.toNat
    ++ [BitVec.ofNat 8 stack, BitVec.ofNat 8 head, BitVec.ofNat 8 kd, BitVec.ofNat 8 nacc]
    ++ leBytes 4 c.step ++ [BitVec.ofNat 8 c.pmask])

/-- An accumulator block: FP32, the elements beyond D zero. -/
def attAcc (acc : List Word) (a : Nat) : Block :=
  blockOf ([1#8, 0x7F#8] ++ ((acc.drop (15 * a)).take 15).flatMap (fun w => leBytes 4 w.toNat))

/-- The blocks of a triple. -/
def attTriple (c : AttCmd) (w : List Word) (stack head kd : Nat) : AttEntry :=
  let n := accBlocks c.desc.dim
  .blocks (attHeader c (w.getD 0 0) (w.getD 1 0) stack head kd n :: (List.range n).map (attAcc (w.drop 2)))

/-- A late marker; its M and S are free values (log 3). -/
def attMarker (c : AttCmd) (stack head : Nat) : AttEntry :=
  let w (i : Nat) : Word := (freeDword (c.fr + stack) (2 * head + i)).setWidth 32
  .blocks [attHeader c (w 0) (w 1) stack head 1 0]

/-- The poison entry of an abandoned stack (R136); its address is a free value (log 3). -/
def attLostPoison (fresh : Nat) : Poison :=
  { va := (Config.free fresh).setWidth 64, sp := false, rtag := 0xFFFF, kind := 0, cls := 7 }

/-- The entries of a stack whose result is known. -/
def AttCmd.entries (c : AttCmd) (stack kd : Nat) : List AttEntry :=
  (List.range c.nheads).map (fun h =>
    match c.res.getD stack .none with
    | .triple ws => attTriple c (ws.getD h []) stack h kd
    | .fail p => .poison p
    | .none => .blocks [])

/-- The first pass, as far as it can go (R135). n is the number of stacks still to look at. -/
def AttCmd.firstPass (c : AttCmd) : Nat → AttCmd
  | 0 => c
  | n + 1 =>
    if 8 ≤ c.first then c
    else if !c.pmask.testBit c.first then { c with first := c.first + 1 }.firstPass n
    else if c.late.contains c.first then
      { c with first := c.first + 1, out := c.out ++ (List.range c.nheads).map (attMarker c c.first) }.firstPass n
    else if c.res.getD c.first .none = .none then c
    else { c with first := c.first + 1, out := c.out ++ c.entries c.first 0 }.firstPass n

/-- The second pass: once every late stack has arrived, failed or been abandoned (R135, R136). -/
def AttCmd.secondPass (c : AttCmd) : AttCmd :=
  if 8 ≤ c.first && !c.closed && c.late.all (fun st => c.res.getD st .none != .none) then
    { c with closed := true, out := c.out ++ ((List.range 8).filter (fun st => c.late.contains st)).flatMap (fun st => c.entries st 2) }
  else c

/-- What a command has to deliver after a change. -/
def AttCmd.progress (c : AttCmd) : AttCmd := (c.firstPass 8).secondPass

/-- Change a command of a team. -/
def State.modAtt (s : State) (k : TeamKey) (id : Nat) (f : AttCmd → AttCmd) : State :=
  s.modTeam k (fun t => { t with attn := t.attn.map (fun c => if c.id = id then f c else c) })

/-- A command of a team. -/
def State.att (s : State) (k : TeamKey) (id : Nat) : Option AttCmd := (s.team k).bind (fun t => t.attn.find? (fun c => c.id == id))

/-- A count of a stack since the last clave tick (16 R428): 0 triples delivered, 1 late markers. -/
def State.countStk (s : State) (stack which n : Nat) : State :=
  { s with clave := { s.clave with stk := updAt s.clave.stk (2 * stack + which) (· + n) } }

/-! ### Events -/

/-- Has every unit of a stack its energy (R141)? -/
def AttCmd.ready (c : AttCmd) (stack : Nat) : Bool :=
  (attUnits c.list).all (fun u => u.1 / 8 != stack || c.charged.contains u.1)

/-- TRIPLE_ARRIVAL (R132, R135-R137): the result of a stack reaches the compute die; that of an abandoned stack is
discarded and counted. -/
def execTripleArrival (tk : TeamKey) (cmd stack : Nat) (s : State) : Host.Outcome State Fault Refusal :=
  match s.strays.find? (fun x => x.1 == tk && x.2.1 == cmd && x.2.2.1 == stack) with
  | some x => .next (({ s with strays := s.strays.erase x } : State).countDev 2 x.2.2.2)
  | none => match s.att tk cmd with
    | none => .next s
    | some c =>
      let w := s.unit tk cmd
      if c.pmask.testBit stack && decide (stack < 8) && c.res.getD stack .none == .none && c.ready stack then
        s.withWalks w (c.lines stack) (fun _ =>
          let s := s.gongClean w (c.lines stack)
          let r := s.stackResult w c stack
          let s := match r with
            | .triple _ => s.countStk stack 0 c.nheads
            | _ => s
          (if s.shared then s else s.bump).modAtt tk cmd (fun c => { c with res := updAt c.res stack (fun _ => r) }.progress))
      else .next s

/-- The stacks of a command whose triples have not arrived. -/
def AttCmd.missing (c : AttCmd) : List Nat := (maskList 8 c.pmask).filter (fun st => c.res.getD st .none == .none)

/-- ATTD_DEADLINE (R135, 16 R425): at issue + DEADLINE every missing stack is late. -/
def execAttdDeadline (tk : TeamKey) (cmd : Nat) (s : State) : Host.Outcome State Fault Refusal :=
  match s.att tk cmd with
  | none => .next s
  | some c =>
    if c.deadline = 0 ∨ s.cycle < c.t0 + c.deadline ∨ !c.late.isEmpty ∨ c.missing.isEmpty then .next s
    else
      let s := c.missing.foldl (fun (s : State) st => s.countStk st 1 c.nheads) s
      let units := (attUnits c.list).filter (fun u => c.missing.contains (u.1 / 8))
      let s := units.foldl (fun (s : State) u => s.assertLines (0x300 + u.1) none) s
      let fr := s.fresh
      .next ((s.modAtt tk cmd (fun c => { c with late := c.missing, fr := fr }.progress)).bumpBy 8)

/-- ATTLOST (R136): a late stack is abandoned 2^20 cycles after the deadline. -/
def execAttlost (tk : TeamKey) (cmd stack : Nat) (s : State) : Host.Outcome State Fault Refusal :=
  match s.att tk cmd with
  | none => .next s
  | some c =>
    if c.late.contains stack && c.res.getD stack .none == .none && decide (c.t0 + c.deadline + 2 ^ 20 ≤ s.cycle) then
      let s := { s with strays := s.strays ++ [(tk, cmd, stack, c.nheads)] }
      let p := attLostPoison s.fresh
      .next (s.bump.modAtt tk cmd (fun c => { c with res := updAt c.res stack (fun _ => .fail p) }.progress))
    else .next s

/-- Is an entry one whose first blocks have been delivered? -/
def AttEntry.begun : AttEntry → Bool
  | .blocks (b :: _) => blkFmt b != 0
  | _ => false

/-- Does another command of the team stand inside an entry of the same queue? -/
def Team.attBusy (t : Team) (c : AttCmd) : Bool :=
  t.attn.any (fun x => x.id != c.id && x.dst == c.dst && ((x.out.head?).map AttEntry.begun).getD false)

/-- The head entry of a command goes to its queue, as far as there is room (R138): what is left of it. -/
def State.attPush (s : State) (k : TeamKey) (q : QRef) (e : AttEntry) : Option AttEntry × State :=
  let l := match e with
    | .blocks bs => bs.map (fun b => QSlot.data (.block b))
    | .poison p => [.poison p]
  let (rest, s) := s.pushWhile k q l
  if rest.isEmpty then (none, s)
  else match e with
    | .blocks bs => (some (.blocks (bs.drop (bs.length - rest.length))), s)
    | .poison p => (some (.poison p), s)

/-- The blocks of an entry in a landing area (R139): a poison entry is one block with SE = 0xFF. -/
def AttEntry.landed (fresh : Nat) : AttEntry → List Byte
  | .blocks bs => bs.flatMap blockBytes
  | .poison _ => let b := freeBytes fresh 64; b.take 1 ++ [0xFF#8] ++ b.drop 2

/-- ATTD_ENTRY_DELIVERY (R135, R138, R139): the next entry of a command is delivered; the command that has delivered its
last is performed. -/
def execAttdEntryDelivery (tk : TeamKey) (cmd : Nat) (s : State) : Host.Outcome State Fault Refusal :=
  match s.att tk cmd, s.team tk with
  | some c, some t =>
    match c.out with
    | [] =>
      if c.closed then
        .next (((s.modTeam tk (fun t => { t with attn := t.attn.filter (fun x => x.id != cmd) })).forget (.unit tk cmd)).completed
          (s.coreOf tk) 5 c.thr c.pc c.t0)
      else .next s
    | e :: rest =>
      match c.dst with
      | some q =>
        if t.attBusy c then .next s
        else
          let (left, s) := s.attPush tk q e
          .next (s.modAtt tk cmd (fun c => { c with out := left.toList ++ rest }))
      | none =>
        let bs := e.landed s.fresh
        let off := c.land + 64 * c.blk
        let s := (s.spadWrite tk off bs).bump
        let s := s.modAtt tk cmd (fun c => { c with out := rest, blk := c.blk + bs.length / 64 })
        if (s.thread c.thr).live && !c.dead then
          .next (s.modTeam tk (fun t => { t with vecq := insertDue t.vecq (c.thr, .attd off, s.cycle) }))
        else .next s
  | _, _ => .next s

end Sys2Proof.Machine
end

