-- ==== Sys2Proof/Machine/Copy.lean ====
section
/-! DEFINITION. The copy stream: tensor boxes in and out of scratchpad (03 R105-R109, 09 R278, R279), lines into queues
(R274), multicasts over the drumline (03 R110-R114, 09 R280). -/

namespace Sys2Proof.Machine

/-! ### Layout records (03 R105, R106) -/

/-- The fields of a layout record's 64 bytes; box holds the sizes minus one. -/
def Layout.ofBlock (b : Block) : Layout where
  raw := b
  base := bits b.toNat 63 0
  es := (match bits b.toNat 69 67 with | 0 => 1 | 1 => 2 | 2 => 4 | 3 => 8 | _ => 64)
  ndim := bits b.toNat 66 64
  fillfmt := bits b.toNat 76 72
  fillse := bits b.toNat 87 80
  ext := (List.range 5).map (fun d => bits b.toNat (96 + 32 * d + 31) (96 + 32 * d))
  str := (List.range 4).map (fun d => sextN 40 (bits b.toNat (256 + 40 * d + 39) (256 + 40 * d)))
  box := (List.range 5).map (fun d => bits b.toNat (416 + 8 * d + 7) (416 + 8 * d))

/-- Bytes of a box. -/
def Layout.bytes (l : Layout) : Nat := l.es * (l.box.foldl (fun (a b : Nat) => a * (b + 1)) 1)

/-- Is a record invalid for a box at a scratchpad offset (R106)? -/
def Layout.invalid (l : Layout) (dst : Nat) : Bool :=
  let b := l.raw.toNat
  bits b 69 67 > 4 || l.ndim = 0 || l.ndim > 5
    || bits b 71 70 != 0 || bits b 79 77 != 0 || bits b 95 88 != 0 || bits b 511 456 != 0
    || (List.range 5).any (fun d =>
        if d < l.ndim then l.ext.getD d 0 == 0
        else l.ext.getD d 0 != 0 || l.box.getD d 0 != 0 || (decide (1 ≤ d) && l.str.getD (d - 1) 0 != 0))
    || l.base % l.es != 0 || l.str.any (fun x => x % (l.es : Int) != 0) || dst % l.es != 0
    || decide (Config.spadBytes < l.bytes) || decide (Config.spadBytes < dst + l.bytes)

/-! ### Boxes (03 R107) -/

/-- The coordinates of element e of a box, dimension 0 fastest. -/
def Layout.index (l : Layout) (e : Nat) : List Nat :=
  (l.box.foldl (fun (acc : List Nat × Nat) b => (acc.1 ++ [acc.2 % (b + 1)], acc.2 / (b + 1))) ([], e)).1

/-- The virtual address of element e of a box at given coordinates; none outside the tensor. -/
def Layout.elemVa (l : Layout) (coord : List Int) (e : Nat) : Option Nat :=
  let j := l.index e
  let p := (List.range l.ndim).map (fun d => coord.getD d 0 + (j.getD d 0 : Int))
  if (List.range l.ndim).all (fun d => decide (0 ≤ p.getD d 0) && decide (p.getD d 0 < (l.ext.getD d 0 : Int))) then
    some (wrapN 64 ((l.base : Int) + p.getD 0 0 * l.es
      + ((List.range (l.ndim - 1)).map (fun d => p.getD (d + 1) 0 * l.str.getD d 0)).foldl (fun (a b : Int) => a + b) 0))
  else none

/-- A fill element's bytes (R107). -/
def Layout.fill (l : Layout) : List Byte :=
  if l.es = 64 then [BitVec.ofNat 8 l.fillfmt, BitVec.ofNat 8 l.fillse] ++ List.replicate 62 0
  else List.replicate l.es 0

/-- A piece of a granule: its offset in the box, size, address (none: fill), the fill's bytes, its element. -/
structure Piece where
  off : Nat
  n : Nat
  va : Option Nat
  fill : List Byte
  elem : Nat
  deriving DecidableEq, Repr

/-- The pieces of the 32-byte granule at box offset 32·i. -/
def Layout.pieces (l : Layout) (coord : List Int) (i : Nat) : List Piece :=
  if l.es = 64 then
    let e := i / 2
    let o := 32 * (i % 2)
    [{ off := 32 * i, n := 32, va := (l.elemVa coord e).map (fun a => (a + o) % 2 ^ 64), fill := (l.fill.drop o).take 32, elem := e }]
  else
    (List.range (32 / l.es)).filterMap (fun k =>
      let e := 32 / l.es * i + k
      if e * l.es < l.bytes then
        some { off := e * l.es, n := l.es, va := l.elemVa coord e, fill := l.fill, elem := e }
      else none)

/-- Granules of a box. -/
def Layout.granules (l : Layout) : Nat := cdiv l.bytes 32

/-- Bytes of a granule. -/
def Layout.granBytes (l : Layout) (i : Nat) : Nat := min 32 (l.bytes - 32 * i)

/-! ### BCOPY and BSTORE -/

/-- Does R255 or R278 refuse the operands d and a of a copy-engine command? The alignment of the fault-record offset is checked
where a record is to be written (log 54). -/
def copyBad (d a : Nat) : Bool :=
  bits d 62 18 != 0 || (!bit d 63 && d % 16 != 0) || bits a 63 54 != 0 || bits a 53 36 % 32 != 0

/-- The fault-record offset of x[d] (R278). -/
def frecOf (d : Nat) : Option Nat := if bit d 63 then none else some (bits d 17 0)

/-- BCOPY and BSTORE (R279): the record is read, the energy of more than 4 KiB granted, the command accepted. -/
def execBox (s : State) (i : Instr) (f : OpRG) (store : Bool) : Host.Outcome State Fault Refusal :=
  let b := f.b.toNat
  execLanes s i
    { guard := f.g, srcs := [srcP f.a f.pa, srcP f.b f.pb, (b + 1, f.pb), (b + 2, f.pb), src f.d], dsts := [] }
    (fun s th =>
      let t := s.thread th
      let k := th.gk.team
      let d := t.rn false f.d.toNat
      let a := t.rn false f.a.toNat
      let b0 := t.rn false b
      let b1 := t.rn false (b + 1)
      let b2 := t.rn false (b + 2)
      let rec_ := bits a 17 0
      let box := bits a 35 18
      let ph := bits a 53 36
      if copyBad d a || rec_ % 64 != 0 || bits b2 63 32 != 0 then Act.cause s th .badarg
      else if !(s.storesAt th (s.nowId k) true 0 rec_ 64).isEmpty then .hold s false
      else if s.spadEcc k rec_ 64 then Act.raise s th (.eccAt rec_ t.pc)
      else
        let lay := Layout.ofBlock (blockOf (s.spadRead k rec_ 64))
        if lay.invalid box then Act.cause s th .badarg
        else
          let coord := [sextN 32 (bits b0 31 0), sextN 32 (bits b0 63 32), sextN 32 (bits b1 31 0), sextN 32 (bits b1 63 32),
            sextN 32 (bits b2 31 0)]
          withEnergy s th (if 4096 < lay.bytes then cdiv lay.bytes 4096 else 0) (fun s =>
            Act.next (s.accept th 0 (frecOf d) (.copy store lay coord box ph
              ([d, a, b0, b1, b2].map (BitVec.ofNat 64)) 0 {})) th))

/-- BCOPY (R279). -/
def execBcopy (f : OpRG) (s : State) : Host.Outcome State Fault Refusal := execBox s (.bcopy f) f false

/-- BSTORE (R279). -/
def execBstore (f : OpRG) (s : State) : Host.Outcome State Fault Refusal := execBox s (.bstore f) f true

/-! ### Moving a box (R107, R108, R279)

Destination bytes are written in the units of 05 R160, 32-byte-aligned granules of the destination; source lines are read
whole and once (05 R161, log 58); the box is credited in its own granules (R383). -/

/-- A failure of a piece: its box offset, its element, the line's address and, where it is of a read or write of memory, its
kind (none: uncorrectable data); spad: a source line of the scratchpad is uncorrectable. -/
structure CopyFail where
  off : Nat
  elem : Nat
  va : Nat
  kind : Option XKind
  spad : Bool
  deriving DecidableEq, Repr

/-- The command notes the failure of a piece (R281). -/
def Cmd.failPiece (c : Cmd) (x : CopyFail) : Cmd :=
  if x.spad then { c with fr := c.fr.note x.elem x.va 1 0 true } else c.fail x.elem x.va x.kind

/-- The pieces of a box in the order of R107's loop. -/
def Layout.whole (l : Layout) (coord : List Int) : List Piece := (List.range l.granules).flatMap (l.pieces coord)

/-- The pieces still to be moved. -/
def Layout.left (l : Layout) (coord : List Int) (gmap : Nat) (p : CopyProg) : List Piece :=
  (l.whole coord).filter (fun x => !bit gmap (x.off / 32) && p.moved.all (fun m => m.1 != x.off))

/-- The destination granule of a piece: of the scratchpad, of memory, or none where a BSTORE skips it. -/
def Piece.unit (x : Piece) (store : Bool) (box : Nat) : Nat × Nat :=
  if !store then (0, (box + x.off) / 32)
  else match x.va with
    | some va => (1, va / 32)
    | none => (2, x.off / 32)

/-- The source line of a piece: an address, or for a BSTORE a scratchpad offset; none where nothing is read. -/
def Piece.source (x : Piece) (store : Bool) (box : Nat) : Option Nat :=
  x.va.map (fun va => if store then (box + x.off) / 64 * 64 else va / 64 * 64)

/-- The source lines of some pieces that have still to be read. -/
def CopyProg.missing (p : CopyProg) (ps : List Piece) (store : Bool) (box : Nat) : List Nat :=
  ((ps.filterMap (fun x => x.source store box)).filter (fun a => p.lines.all (fun l => l.1 != a))).eraseDups

/-- The read of a source line. -/
def CopyProg.line (p : CopyProg) (a : Nat) : LineRead := ((p.lines.find? (fun l => l.1 == a)).map (fun l => l.2)).getD .ecc

/-- n bytes at an offset of a line. -/
def lineBytes (b : Block) (off n : Nat) : List Byte := ((blockBytes b).drop (off % 64)).take n

/-- Read a line of a context's memory. -/
def State.virtLine (s : State) (w : Who) (a : Nat) : LineRead :=
  match s.readVirt w a 64 with
  | .ok bs => .data (blockOf bs)
  | .error (some k, _) => .fault k
  | .error (none, _) => .ecc

/-- Read a line of a team's scratchpad. -/
def State.spadLine (s : State) (k : TeamKey) (a : Nat) : LineRead :=
  if s.spadEcc k a 64 then .ecc else .data (blockOf (s.spadRead k a 64))

/-- Change the progress of the copy at the head of the copy stream. -/
def State.modCopy (s : State) (k : TeamKey) (f : CopyProg → CopyProg) : State :=
  s.modHead k 0 (fun c => { c with kind := match c.kind with
    | .copy st lay co box ph ops g p => .copy st lay co box ph ops g (f p)
    | x => x })

/-- The engine reads the source lines that some pieces still need. -/
def State.copyReads (s : State) (k : TeamKey) (w : Who) (p : CopyProg) (ps : List Piece) (store : Bool) (box : Nat) :
    CopyProg × State :=
  let as := p.missing ps store box
  let p := { p with lines := p.lines ++ as.map (fun a => (a, if store then s.spadLine k a else s.virtLine w a)) }
  let s := s.modCopy k (fun _ => p)
  (p, if store then s else as.foldl (fun s a => s.readDone w a 64) s)

/-- A piece of a BCOPY lands: its fill, the bytes of its source line, or free values where the line could not be read. -/
def State.landPiece (s : State) (k : TeamKey) (box : Nat) (p : CopyProg) (x : Piece) : State × Option CopyFail :=
  let fails (va : Nat) (e : Option XKind) : State × Option CopyFail :=
    ((s.spadWrite k (box + x.off) (freeBytes s.fresh x.n)).bump, some { off := x.off, elem := x.elem, va := va, kind := e, spad := false })
  match x.va with
  | none => (s.spadWrite k (box + x.off) x.fill, none)
  | some va =>
    match p.line (va / 64 * 64) with
    | .data b => (s.spadWrite k (box + x.off) (lineBytes b va x.n), none)
    | .fault e => fails va (some e)
    | .ecc => fails va none

/-- A piece of a BSTORE is written, or fails; one whose source line is uncorrectable is written as 02 R71 states. -/
def State.storePiece (s : State) (w : Who) (box : Nat) (p : CopyProg) (x : Piece) : State × Option CopyFail :=
  match x.va with
  | none => (s, none)
  | some va =>
    let src := (box + x.off) / 64 * 64
    let r : (State × Option (XKind × Nat)) × Bool := match p.line src with
      | .data b => (s.writeVirt w va (lineBytes b (box + x.off) x.n), false)
      | _ => (s.engPoison w va, true)
    (r.1.1, match r.1.2 with
      | some e => some { off := x.off, elem := x.elem, va := e.2, kind := some e.1, spad := false }
      | none => if r.2 then some { off := x.off, elem := x.elem, va := src, kind := none, spad := true } else none)

/-- Move some pieces, each by f: the failures, in their order. -/
def State.movePieces (s : State) (f : State → Piece → State × Option CopyFail) (ps : List Piece) : State × List CopyFail :=
  ps.foldl (fun (acc : State × List CopyFail) x =>
    let r := f acc.1 x
    (r.1, acc.2 ++ r.2.toList)) (s, [])

/-- Credit a granule of the box once all its pieces have been moved, poisoned where one failed (R108, R279). -/
def State.creditGranule (s : State) (k : TeamKey) (j : Nat) : State :=
  match (s.headCmd k 0).map Cmd.kind with
  | some (.copy st lay co box ph ops g p) =>
    let mine := lay.pieces co j
    if !bit g j && mine.all (fun x => p.moved.any (fun m => m.1 == x.off)) then
      let p' := { p with moved := p.moved.filter (fun m => m.1 / 32 != j) }
      (s.modHead k 0 (fun c => { c with kind := .copy st lay co box ph ops (g ||| 2 ^ j) p' })).phCredit k ph (lay.granBytes j)
        (mine.any (fun x => p.moved.contains (x.off, true)))
    else s
  | _ => s

/-- Pieces of the copy at the head of the stream have been moved, with the failures they met: they are noted, and the granules
of the box that are complete are credited. -/
def State.piecesDone (s : State) (k : TeamKey) (ps : List Piece) (fails : List CopyFail) : State :=
  let s := s.modHead k 0 (fun c => fails.foldl Cmd.failPiece c)
  let s := s.modCopy k (fun p => { p with moved := p.moved ++ ps.map (fun x => (x.off, fails.any (fun y => y.off == x.off))) })
  ((ps.map (fun x => x.off / 32)).eraseDups).foldl (fun s j => s.creditGranule k j) s

/-- The pieces that move with the piece at a box offset: all those still to be moved of its destination granule. -/
def Layout.unitOf (l : Layout) (coord : List Int) (store : Bool) (box gmap off : Nat) (p : CopyProg) : List Piece :=
  match (l.left coord gmap p).find? (fun x => x.off == off) with
  | some x => (l.left coord gmap p).filter (fun y => y.unit store box == x.unit store box)
  | none => []

/-- The addresses of memory that the pieces reach and the engine has still to access. -/
def CopyProg.walks (p : CopyProg) (ps : List Piece) (store : Bool) (box : Nat) : List Nat :=
  if store then ps.filterMap (fun x => x.va) else p.missing ps store box

/-- COPY_GRANULE_LANDING (R107, R108): the scratchpad granule of the piece at a box offset lands, for the BCOPY at the head of
the stream. -/
def execCopyGranuleLanding (k : TeamKey) (off : Nat) (s : State) : Host.Outcome State Fault Refusal :=
  match s.headCmd k 0 with
  | none => .next s
  | some c =>
    match c.kind with
    | .copy false lay coord box _ _ gmap prog =>
      let ps := lay.unitOf coord false box gmap off prog
      if !s.cmdRuns c || ps.isEmpty then .next s
      else s.withWalks (s.cmdWho c) (prog.walks ps false box) (fun _ =>
        let r := s.copyReads k (s.cmdWho c) prog ps false box
        let m := r.2.movePieces (fun s x => s.landPiece k box r.1 x) ps
        m.1.piecesDone k ps m.2)
    | _ => .next s

/-- The pieces of a BSTORE that cover the whole line of an address, and its 64 bytes: none where some do not, or their source
is uncorrectable. -/
def wholeLine (ps : List Piece) (box va : Nat) (p : CopyProg) : Option (List Piece × List Byte) :=
  let mine := ps.filter (fun x => x.va.any (fun a => a / 64 == va / 64))
  let byte (j : Nat) : Option Byte :=
    (mine.filter (fun x => x.va.any (fun a => decide (a ≤ va / 64 * 64 + j) && decide (va / 64 * 64 + j < a + x.n)))).getLast?.bind (fun x =>
      match p.line ((box + x.off) / 64 * 64), x.va with
      | .data b, some a => (lineBytes b (box + x.off) x.n)[va / 64 * 64 + j - a]?
      | _, _ => none)
  let bs := (List.range 64).map byte
  if bs.all (fun b => b.isSome) && mine.all (fun x => match p.line ((box + x.off) / 64 * 64) with | .data _ => true | _ => false) then
    some (mine, bs.map (fun b => b.getD 0))
  else none

/-- The pieces that cover the uncorrectable line of an address whole, which go as one transfer (14 R446). -/
def State.wholeStore (s : State) (k : TeamKey) (w : Who) (left ps : List Piece) (box : Nat) (p : CopyProg) :
    Option (Nat × List Piece × List Byte) :=
  (ps.head?.bind Piece.va).bind (fun va =>
    match s.translateNow w .write (va / 64 * 64) with
    | .ok q =>
      if s.lineBad w q then
        let mine := left.filter (fun x => x.va.any (fun a => a / 64 == va / 64))
        (wholeLine left box va (s.copyReads k w p mine true box).1).map (fun r => (va / 64 * 64, r.1, r.2))
      else none
    | .error _ => none)

/-- BSTORE_GRANULE_WRITE (R279): the memory granule of the piece at a box offset is written, for the BSTORE at the head of the
stream. The granules that cover an uncorrectable line go as one transfer (14 R446). -/
def execBstoreGranuleWrite (k : TeamKey) (off : Nat) (s : State) : Host.Outcome State Fault Refusal :=
  match s.headCmd k 0 with
  | none => .next s
  | some c =>
    match c.kind with
    | .copy true lay coord box _ _ gmap prog =>
      let ps := lay.unitOf coord true box gmap off prog
      let w := s.cmdWho c
      if !s.cmdRuns c || ps.isEmpty then .next s
      else s.withWalks w (prog.walks ps true box) (fun _ =>
        match s.wholeStore k w (lay.left coord gmap prog) ps box prog with
        | some (line, mine, bs) =>
          let r := s.copyReads k w prog mine true box
          (r.2.writeVirt w line bs).1.piecesDone k mine []
        | none =>
          let r := s.copyReads k w prog ps true box
          let m := r.2.movePieces (fun s x => s.storePiece w box r.1 x) ps
          m.1.piecesDone k ps m.2)
    | _ => .next s

/-! ### QSTREAM (R274) -/

/-- QSTREAM (R274). -/
def execQstream (f : OpQda) (s : State) : Host.Outcome State Fault Refusal :=
  execLanesIf s (.qstream f) { guard := f.g, srcs := [src f.a, src f.d], dsts := [], bars := s.closedLanes f.qn.toNat }
    (fun gk => s.misused f.qn.toNat { modes := [.block], dirs := [.ae], prod := some true } gk)
    (fun s th => withQueue s th f.qn.toNat (fun q _ fi =>
      let t := s.thread th
      let off := t.rn false f.d.toNat
      let n := t.rn false f.a.toNat
      if fi.closed then Act.illop s th
      else if off % 64 != 0 || n = 0 || decide (4096 < n) || decide (Config.spadBytes < off + 64 * n) then Act.cause s th .badarg
      else Act.next (s.accept th 0 none (.qstream q.ref off n 0 ([off, n, f.qn.toNat].map (BitVec.ofNat 64)))) th))

/-- QSTREAM_LINE_PUSH (R274): the next line of the QSTREAM at the head of the stream becomes an entry. -/
def execQstreamLinePush (k : TeamKey) (s : State) : Host.Outcome State Fault Refusal :=
  match s.headCmd k 0 with
  | none => .next s
  | some c =>
    match c.kind with
    | .qstream qr off n next ops =>
      match (s.team k).bind (fun t => t.queue qr) with
      | none => .next s
      | some q =>
        if !s.cmdRuns c || decide (n ≤ next) || !(q.fifo 0).room q.limit 1 then .next s
        else
          let at_ := off + 64 * next
          let ecc := s.spadEcc k at_ 64
          let x : QSlot :=
            if ecc then .poison { va := BitVec.ofNat 64 at_, sp := true, rtag := 0xFFFF, kind := 0, cls := 1 }
            else .data (.block (blockOf (s.spadRead k at_ 64)))
          let s := s.modHead k 0 (fun c => { c with
            kind := .qstream qr off n (next + 1) ops, fr := if ecc then c.fr.note next at_ 1 0 true else c.fr })
          .next (s.push k q 0 x)
    | _ => .next s

/-! ### MCAST and the drumline -/

/-- MCAST (R278, R280, 03 R112). -/
def execMcast (f : OpRG) (s : State) : Host.Outcome State Fault Refusal :=
  execLanes s (.mcast f) { guard := f.g, srcs := [srcP f.a f.pa, srcP f.b f.pb, src f.d], dsts := [] }
    (fun s th =>
      let t := s.thread th
      let k := th.gk.team
      let d := t.rn false f.d.toNat
      let a := t.rn false f.a.toNat
      let b := t.rn false f.b.toNat
      let from_ := bits a 17 0
      let dst := bits a 35 18
      let n := bits b 12 0
      let rows := bits b 43 32
      let cols := bits b 27 16
      let (cw, ch, _) := s.cluster k
      if copyBad d a || from_ % 64 != 0 || dst % 64 != 0 || bits b 63 44 != 0 || bits b 31 28 != 0 || bits b 15 13 != 0
          || n % 64 != 0 || n = 0 || decide (4096 < n) || rows = 0 || cols = 0
          || decide (2 ^ ch ≤ rows) || decide (2 ^ cw ≤ cols)
          || decide (Config.spadBytes < from_ + n) || decide (Config.spadBytes < dst + n) then Act.cause s th .badarg
      else withEnergy s th (cdiv n 1024) (fun s =>
        Act.next (s.accept th 0 (frecOf d) (.mcast from_ dst (bits a 53 36) rows cols n 0
          ([d, a, b, 0, 0].map (BitVec.ofNat 64)))) th))

/-- A core's place on the mesh: column and row (00 R1). -/
def meshXy (core : Nat) : Nat × Nat := (core % Config.meshSide, core / Config.meshSide)

/-- The hops between two cores. -/
def hops (a b : Nat) : Nat :=
  let (x, y) := meshXy a
  let (u, v) := meshXy b
  (max x u - min x u) + (max y v - min y v)

/-- The router outputs on the route from a core to another, along the row and then the column (R110, R111): the
distance from the source, the router's core, the direction (0 west, 1 east, 2 north, 3 south, 4 its own core). -/
def route (src dst : Nat) : List (Nat × Nat × Nat) :=
  let (x, y) := meshXy src
  let (u, v) := meshXy dst
  let dx := max x u - min x u
  let dy := max y v - min y v
  (List.range dx).map (fun i => (i, Config.meshSide * y + (if x ≤ u then x + i else x - i), if x ≤ u then 1 else 0))
  ++ (List.range dy).map (fun i => (dx + i, Config.meshSide * (if y ≤ v then y + i else y - i) + u, if y ≤ v then 3 else 2))
  ++ [(dx + dy, dst, 4)]

/-- Collect the destinations that each router output serves. -/
def addPath (l : List ((Nat × Nat × Nat) × List Nat)) (key : Nat × Nat × Nat) (d : Nat) : List ((Nat × Nat × Nat) × List Nat) :=
  if l.any (fun e => e.1 == key) then l.map (fun e => if e.1 = key then (e.1, e.2 ++ [d]) else e) else l ++ [(key, [d])]

/-- The destinations of an MCAST: the masked cores of the cluster. -/
def mcastCores (origin cw ch rows cols : Nat) : List Nat :=
  (maskList ch rows).flatMap (fun r => (maskList cw cols).map (fun c => origin + Config.meshSide * r + c))

/-- Is a team to be saved: its slice has stopped, or it has yielded (13 R379, R382)? It injects no more flits, and those in
flight land. -/
def State.leavingCore (s : State) (t : Team) : Bool :=
  t.yielded || ((s.job t.key.job).map (fun j => match j.st with | .stopping _ => true | _ => false)).getD false

/-- MCAST_FLIT_INJECT (R111, R112): the next flit of the MCAST at the head of the stream injects, in a granted beat. -/
def execMcastFlitInject (k : TeamKey) (s : State) : Host.Outcome State Fault Refusal :=
  match s.headCmd k 0, s.team k with
  | some c, some t =>
    match c.kind with
    | .mcast from_ dst ph rows cols n next ops =>
      if !s.cmdRuns c || s.leavingCore t || decide (n ≤ 64 * next) || !t.beats.getLsbD (s.cycle % 64) then .next s
      else
        let (cw, ch, o) := s.cluster k
        let off := from_ + 64 * next
        let ds := mcastCores o cw ch rows cols
        let fl : Flit := {
          id := s.nextFlit, src := t.core, tk := k, cmd := c.id
          data := blockOf (t.spadRead off 64), bad := t.spadEcc off 64
          dst := dst + 64 * next, ph := ph
          dests := ds.map (fun d => (d, s.cycle + 3 + hops t.core d, false))
          path := ds.foldl (fun l d => (route t.core d).foldl (fun l (r : Nat × Nat × Nat) =>
            addPath l (s.cycle + 1 + r.1, r.2.1, r.2.2) d) l) [] }
        let s := { s with flits := s.flits ++ [fl], nextFlit := s.nextFlit + 1 }
        let s := s.modCore t.core (fun c => { c with latch := updAt c.latch 5 (· + 1) })
        .next (s.modHead k 0 (fun c => { c with kind := .mcast from_ dst ph rows cols n (next + 1) ops }))
    | _ => .next s
  | _, _ => .next s

/-- The flits that meet at a router output in this cycle: all but that of the lowest-numbered source are dropped there
(R114). A flit that no live destination lies behind does not reach the output. -/
def State.drumCycle (s : State) : State :=
  let here (f : Flit) : List ((Nat × Nat) × List Nat) :=
    f.path.filterMap (fun e =>
      let live := e.2.filter (fun d => f.dests.any (fun x => x.1 == d && !x.2.2))
      if e.1.1 = s.cycle && !live.isEmpty then some (e.1.2, live) else none)
  let keep (f : Flit) : Flit × Bool :=
    let lost := (here f).flatMap (fun e =>
      if s.flits.any (fun g => decide (g.src < f.src) && (here g).any (fun x => x.1 == e.1)) then e.2 else [])
    ({ f with
       path := f.path.filter (fun e => decide (s.cycle < e.1.1))
       dests := f.dests.map (fun x => if lost.contains x.1 then (x.1, x.2.1, true) else x) }, !lost.isEmpty)
  let drops := s.flits.filter (fun f => (keep f).2)
  let s := { s with flits := s.flits.map (fun f => (keep f).1) }
  drops.foldl (fun s f => s.modCore f.src (fun c => { c with colldrop := (c.colldrop + 1) % 2 ^ 64 })) s

/-- The TEAM index of a core in a cluster (R214). -/
def teamIx (origin cw core : Nat) : Nat :=
  (core / Config.meshSide - origin / Config.meshSide) * cw + (core % Config.meshSide - origin % Config.meshSide)

/-- Note the failure of a landing against its command (R113, R281). -/
def State.noteLanding (s : State) (f : Flit) (fc ix : Nat) : State :=
  s.modTeam f.tk (fun t => { t with copyq := t.copyq.map (fun c =>
    if c.id = f.cmd then { c with fr := c.fr.noteLanding fc ix } else c) })

/-- DRUMLINE_LANDING (R111, R113, R114): a flit lands at a destination, or fails there; 64 bytes are credited in
granules of 32, poisoned where the landing failed or the flit was dropped. The notice of a dropped flit acts in the cycle in
which the flit would have landed, or later; no rule gives its cycle (log 59). At a team that is not resident the phaser of its
image is poisoned. -/
def execDrumlineLanding (flit core : Nat) (s : State) : Host.Outcome State Fault Refusal :=
  match s.flits.find? (fun f => f.id == flit) with
  | none => .next s
  | some f =>
    match f.dests.find? (fun d => d.1 == core) with
    | none => .next s
    | some (_, due, dropped) =>
      if s.cycle < due then .next s
      else
        let (cw, _, o) := s.cluster f.tk
        let ix := teamIx o cw core
        let k : TeamKey := { f.tk with idx := ix }
        let runs := ((s.team k).map (fun t => t.resident && !t.ended && t.core == core)).getD false
        let fc : Option Nat := if dropped then some 3 else if f.bad then some 1 else if !runs then some 2 else none
        let s := { s with flits := (s.flits.map (fun g : Flit =>
          if g.id = flit then { g with dests := g.dests.filter (fun d => d.1 != core) } else g)).filter (fun g : Flit => !g.dests.isEmpty) }
        let s := match fc with
          | none => s.spadWrite k f.dst (blockBytes f.data)
          | some c => s.noteLanding f c ix
        let bad := fc.isSome
        if bad && !s.resident k then .next (s.phPoison k f.ph)
        else .next ((s.phCredit k f.ph 32 bad).phCredit k f.ph 32 bad)

end Sys2Proof.Machine
end

