-- ==== Sys2Proof/Machine/Phasers.lean ====
section
/-! DEFINITION. The phaser instructions (12 R332-R340), EXIT (08 R231), and the end of a phaser wait by its timeout (R337). -/

namespace Sys2Proof.Machine

/-- A lane writes its destination, whose poison the write discards, and is done. -/
def Act.ret (s : State) (th : ThreadKey) (d v : Nat) (taint : Bool) : Act :=
  .done ((s.clearPoison th d).modThread th (fun t => (t.wn th.gk.exe d v taint).advance))

/-- Must an access of a thread to its phaser wait: for the thread's earlier stores to it and, where it writes, for its
earlier loads into queues (05 R143, R156, R158)? -/
def State.phaserWaits (s : State) (th : ThreadKey) (off : Nat) (writes : Bool) : Bool :=
  !(s.storesAt th (s.nowId th.gk.team) true 0 off 32).isEmpty || (writes && s.reading th)

/-- Act on the phaser that a register names (R332, R255): its offset is checked, and what else raises BADARG whatever the
phaser holds (14 R391); what must come first has been performed, and it reads without error (14 R398). -/
def withPhaser (s : State) (th : ThreadKey) (a : Nat) (writes : Bool) (bad : Nat → Bool) (k : Nat → Act) : Act :=
  let off := (s.thread th).rn th.gk.exe a
  if off % 32 != 0 || decide (Config.spadBytes ≤ off) || bad off then Act.cause s th .badarg
  else if s.phaserWaits th off writes then .hold s false
  else if s.spadEcc th.gk.team off 32 then Act.raise s th (.eccAt off (s.thread th).pc)
  else k off

/-- The registration of a thread on a phaser (R333). -/
def Thread.regSlot (t : Thread) (off : Nat) : Option RegSlot :=
  (t.slots.find? (fun r => (r.map (fun x => x.off)) == some off)).join

/-- Change the registration of a thread on a phaser. -/
def Thread.modRegSlot (t : Thread) (off : Nat) (f : RegSlot → RegSlot) : Thread :=
  { t with slots := t.slots.map (fun r => r.map (fun x => if x.off = off then f x else x)) }

/-! ### Instructions -/

/-- PINIT (R339): the reset values of 03 R86, with a starting phase. -/
def execPinit (f : OpAB) (s : State) : Host.Outcome State Fault Refusal :=
  execLanes s (.pinit f) { guard := f.g, srcs := [srcP f.a f.pa, srcP f.b f.pb], dsts := [] } (fun s th =>
    let off := (s.thread th).rn th.gk.exe f.a.toNat
    let tk := th.gk.team
    if off % 32 != 0 || decide (Config.spadBytes ≤ off) then Act.cause s th .badarg
    else if s.phaserWaits th off true then .hold s false
    else
      Act.next (s.setPhaser tk off
        { phase := (s.thread th).rn th.gk.exe f.b.toNat % 2 ^ 32, nsig := 0, narr := 0, bcnt := 0, pois := false
          bcf := false, wmap := 0 }) th)

/-- PREG (R333). -/
def execPreg (f : OpPreg) (s : State) : Host.Outcome State Fault Refusal :=
  execLanes s (.preg f) { guard := f.g, srcs := [srcP f.a f.pa], dsts := [f.d.toNat], keep := true } (fun s th =>
    let full (off : Nat) : Bool := ((s.thread th).regSlot off).isNone && (s.thread th).slots.all (fun r => r.isSome)
    withPhaser s th f.a.toNat true full (fun off =>
      let tk := th.gk.team
      let taint := (s.thread th).taintOf th.gk.exe f.a.toNat
      let s := match (s.thread th).regSlot off with
        | some _ => s.phDereg th off
        | none => s
      match (s.thread th).slots.findIdx? (fun r => r.isNone) with
      | none => Act.cause s th .badarg
      | some i =>
        let sig := f.b.toNat % 2 == 1
        let p := s.phaser tk off
        let s := s.modThread th (fun t => { t with
          slots := updAt t.slots i (fun _ => some { off := off, sig := sig, wt := decide (2 ≤ f.b.toNat), last := none }) })
        let s := if sig then s.setPhaser tk off { p with nsig := min (p.nsig + 1) 0xFFFF } else s
        Act.ret s th f.d.toNat p.phase taint))

/-- PDEREG (R334). -/
def execPdereg (f : OpA) (s : State) : Host.Outcome State Fault Refusal :=
  execLanes s (.pdereg f) { guard := f.g, srcs := [srcP f.a f.pa], dsts := [] } (fun s th =>
    withPhaser s th f.a.toNat true (fun _ => false) (fun off => Act.next (s.phDereg th off) th))

/-- PARR (R335): a release of the thread's earlier accesses (05 R147). -/
def execParr (f : OpDA) (s : State) : Host.Outcome State Fault Refusal :=
  execLanes s (.parr f) { guard := f.g, srcs := [srcP f.a f.pa], dsts := [f.d.toNat], keep := true } (fun s th =>
    let stranger (off : Nat) : Bool := !(((s.thread th).regSlot off).map (fun r => r.sig)).getD false
    withPhaser s th f.a.toNat true stranger (fun off =>
      let tk := th.gk.team
      let p := s.phaser tk off
      match (s.thread th).regSlot off with
      | none => Act.cause s th .badarg
      | some r =>
        if r.last == some p.phase then Act.cause s th .badarg
        else afterQuiet s th (fun s =>
          let taint := (s.thread th).taintOf th.gk.exe f.a.toNat
          let s := s.modThread th (fun t => t.modRegSlot off (fun x => { x with last := some p.phase }))
          Act.ret ((s.setPhaser tk off { p with narr := p.narr + 1 }).phCheck tk off) th f.d.toNat p.phase taint)))

/-- PBYTES (R335). -/
def execPbytes (f : OpAB) (s : State) : Host.Outcome State Fault Refusal :=
  execLanes s (.pbytes f) { guard := f.g, srcs := [srcP f.a f.pa, srcP f.b f.pb], dsts := [] } (fun s th =>
    let b := sextN 32 ((s.thread th).rn th.gk.exe f.b.toNat)
    withPhaser s th f.a.toNat true (fun _ => decide (b < 0)) (fun off =>
      let tk := th.gk.team
      let p := s.phaser tk off
      if 2 ^ 31 - 1 < p.bcnt + b then Act.cause s th .badarg
      else Act.next ((s.setPhaser tk off { p with bcnt := p.bcnt + b }).phCheck tk off) th))

/-- The status word of R338. -/
def phStatus (done pois timeout bcf : Bool) : Nat := b2n done + 2 * b2n pois + 4 * b2n timeout + 8 * b2n bcf

/-- A wait has its result (R337): it is written, and a byte-count fault is then taken with the resume PC at the next
instruction. -/
def State.waited (s : State) (th : ThreadKey) (r : WaitRes) (write : State → WaitRes → State) : Act :=
  let pc := (s.thread th).pc
  let s := s.modThread th (fun t => { t with wres := none })
  let s := (write (if r.timeout then s else s.acquire th) r).modThread th Thread.advance
  if r.bc then
    Act.raise s th { TrapInfo.at .bytecount pc with resume := pc + 4, r29 := r.off, r30 := r.phase }
  else .done s

/-- PWAIT and PTEST.W (R337): a result that the thread has been given, a phase complete at issue, or a wait. -/
def phWait (s : State) (th : ThreadKey) (a b : Nat) (test : Bool) (write : State → WaitRes → State) : Act :=
  let stranger (off : Nat) : Bool :=
    (s.thread th).wres.isNone && !(((s.thread th).regSlot off).map (fun r => r.wt)).getD false
  withPhaser s th a true stranger (fun off =>
    let tk := th.gk.team
    let t := s.thread th
    let p := s.phaser tk off
    let phase := t.rn th.gk.exe b % 2 ^ 32
    match t.wres with
    | some r => s.waited th r write
    | none =>
      if phaseDone p.phase phase then
        s.waited th { off := off, phase := phase, pz := false, bc := false, timeout := false, bcf := p.bcf } write
      else
        let s := s.setPhaser tk off { p with wmap := p.wmap ||| 2 ^ wmapBit th.gk }
        .out (s.block th (.phaser off phase s.cycle (t.rn th.gk.exe (b + 1) % 2 ^ 32) test)))

/-- PWAIT (R337). -/
def execPwait (f : OpPwait) (s : State) : Host.Outcome State Fault Refusal :=
  let b := f.b.toNat
  execLanes s (.pwait f) { guard := f.g, srcs := [srcP f.a f.pa, srcP f.b f.pb, (b + 1, f.pb)], dsts := [] } (fun s th =>
    phWait s th f.a.toNat b false (fun s r => s.modThread th (fun t => t.setPred f.d (r.pz || r.timeout))))

/-- PTEST (R338). -/
def execPtest (f : OpRG) (s : State) : Host.Outcome State Fault Refusal :=
  execLanes s (.ptest f) { guard := f.g, srcs := [srcP f.a f.pa, srcP f.b f.pb], dsts := [f.d.toNat], keep := true } (fun s th =>
    withPhaser s th f.a.toNat false (fun _ => false) (fun off =>
      let t := s.thread th
      let exe := th.gk.exe
      let p := s.phaser th.gk.team off
      let done := phaseDone p.phase (t.rn exe f.b.toNat % 2 ^ 32)
      Act.ret (if done then s.acquire th else s) th f.d.toNat (phStatus done false false p.bcf)
        (t.taintOf exe f.a.toNat || t.taintOf exe f.b.toNat)))

/-- PTEST.W (R337, R338). -/
def execPtestW (f : OpRG) (s : State) : Host.Outcome State Fault Refusal :=
  let b := f.b.toNat
  execLanes s (.ptestW f)
    { guard := f.g, srcs := [srcP f.a f.pa, srcP f.b f.pb, (b + 1, f.pb)], dsts := [f.d.toNat], keep := true } (fun s th =>
    phWait s th f.a.toNat b true (fun s r =>
      let t := s.thread th
      let exe := th.gk.exe
      let taint := t.taintOf exe f.a.toNat || t.taintOf exe b || t.taintOf exe (b + 1)
      (s.clearPoison th f.d.toNat).modThread th (fun t =>
        t.wn exe f.d.toNat (phStatus (!r.timeout) r.pz r.timeout r.bcf) taint)))

/-! ### EXIT (08 R231) -/

/-- EXIT (R231). The deregistration of a signaller writes its phaser, after the thread's earlier accesses of it and its earlier
loads into queues (05 R156, R158). -/
def execExit (f : OpG) (s : State) : Host.Outcome State Fault Refusal :=
  execLanes s (.exit f) (opG f.g) (fun s th =>
    if (s.thread th).slots.any (fun r => (r.map (fun x => x.sig && s.phaserWaits th x.off true)).getD false) then .wait s false
    else .out (s.exitThread th))

/-! ### PHASER_TIMEOUT (R337) -/

/-- PHASER_TIMEOUT (R337): a wait whose timeout has passed ends with TIMEOUT. -/
def execPhaserTimeout (th : ThreadKey) (s : State) : Host.Outcome State Fault Refusal :=
  match (s.thread th).blk with
  | some (.phaser off phase start timeout _) =>
    if timeout = 0 ∨ s.cycle < start + timeout then .next s
    else
      let bcf := (s.phaser th.gk.team off).bcf
      .next (s.modThread th (fun t => { t with
        blk := none
        wres := some { off := off, phase := phase, pz := false, bc := false, timeout := true, bcf := bcf } }))
  | _ => .next s

end Sys2Proof.Machine
end

