-- ==== Sys2Proof/Machine/Tasks.lean ====
section
/-! DEFINITION. Task deques (12 R341-R345): the hardware part and the spill area of a team. -/

namespace Sys2Proof.Machine

/-! ### Records in registers (R341) -/

/-- A task record in the registers of a slice: one x register, or a pair of v registers. -/
def Thread.record (t : Thread) (exe : Bool) (r : Nat) : Nat :=
  if exe then t.rn true r + t.rn true (r + 1) * 2 ^ 32 else t.rn false r

/-- Write a task record; its destinations lose their poison. -/
def State.setRecord (s : State) (th : ThreadKey) (r v : Nat) (taint : Bool) : State :=
  if th.gk.exe then
    ((s.clearPoison th r).clearPoison th (r + 1)).modThread th (fun t => (t.wn true r v false).wn true (r + 1) (v / 2 ^ 32) false)
  else (s.clearPoison th r).modThread th (fun t => t.wn false r v taint)

/-- Is the pass one of an execute group? -/
def State.inExe (s : State) : Bool := (s.pass.map (fun p => p.gk.exe)).getD false

/-- The registers of a record. -/
def recordRegs (exe : Bool) (r : BitVec 5) : List Nat := if exe then [r.toNat, r.toNat + 1] else [r.toNat]

/-- Does a deque instruction raise ILLOP: a pair above r30, or a job without tasks (R342)? -/
def State.noTasks (s : State) (r : BitVec 5) (gk : GroupKey) : Bool :=
  (gk.exe && r == 31#5) || !((s.job gk.team.job).map (fun j => j.pipe.tasks)).getD false

/-! ### The deque (R342, R343) -/

/-- Records of the hardware part. -/
def dequeSize : Nat := 256

/-- Capacity of the spill area of a team's job. -/
def State.spillCap (s : State) (k : TeamKey) : Nat := ((s.job k.job).map (fun j => j.pipe.spillc)).getD 0

/-- The address of a spill record of a team (13 R368). -/
def State.spillVa (s : State) (k : TeamKey) (i : Nat) : Nat :=
  match s.job k.job with
  | some j => (j.pipe.spill + 8 * j.pipe.spillc * (k.clu * (j.pipe.cw * j.pipe.ch) + k.idx) + 8 * i) % 2 ^ 64
  | none => 0

/-- Translate a spill record of a team for a thread; a miss stalls its set (01 R28), and the thread's own accesses of its bytes come
first (05 R156). -/
def withSpill (s : State) (th : ThreadKey) (acc : Acc) (k : TeamKey) (i : Nat) (f : State → Phys → Act) : Act :=
  let va := s.spillVa k i
  match s.transFor th acc va with
  | .ok q t => if s.conflict th { spad := false, addr := q.pa, n := 8, phys := q } then .hold s false else f t q
  | .wait s => .hold s true
  | .fault x s => Act.raise s th (.xlat x va (s.thread th).pc)

/-- Read a spill record of a team for a thread at its home, or take the cause that the read raises (14 R398). -/
def spillRead (s : State) (th : ThreadKey) (k : TeamKey) (i : Nat) (f : State → Nat → Act) : Act :=
  withSpill s th .read k i (fun s q =>
    let r := s.homeRead (s.coreOf th.gk.team) (s.ctxOf th.gk.team.job) { spad := false, addr := q.pa, n := 8, phys := q }
    match r.1 with
    | .ok bs => f r.2 (leNat bs)
    | .keymis => Act.raise s th (.xlat .keymis (s.spillVa k i) (s.thread th).pc)
    | .ecc => Act.raise s th (.eccAt (s.spillVa k i) (s.thread th).pc))

/-! ### The order of a cycle (19 R434) -/

/-- Has a STEAL from one of some cores looked at a deque in this cycle? What must come before it comes in the next. -/
def State.robbed (s : State) (k : TeamKey) (by_ : Nat → Bool) : Bool :=
  s.thefts.any (fun x => x.1 == s.cycle && x.2.1 == k && by_ x.2.2)

/-- A STEAL from a core looks at deques. -/
def State.noteThefts (s : State) (core : Nat) (ks : List TeamKey) : State :=
  { s with thefts := s.thefts.filter (fun x => x.1 == s.cycle) ++ ks.map (fun k => (s.cycle, k, core)) }

/-! ### SPAWN, TAKE, STEAL (R343-R345) -/

/-- A deque instruction fails: its status is false. -/
def Act.noRecord (s : State) (th : ThreadKey) (ps : BitVec 3) : Act :=
  .done (s.modThread th (fun t => (t.setPred ps false).advance))

/-- A record is taken: an acquire at .clu scope (R345). -/
def Act.gotRecord (s : State) (th : ThreadKey) (ps : BitVec 3) (d v : Nat) (taint : Bool) : Act :=
  .done (((s.setRecord th d v taint).acquire th).modThread th (fun t => (t.setPred ps true).advance))

/-- SPAWN (R343): a release at .clu scope; it pushes at the bottom, or spills. -/
def execSpawn (f : OpSpawn) (s : State) : Host.Outcome State Fault Refusal :=
  execLanesIf s (.spawn f)
    { guard := f.g, srcs := (recordRegs s.inExe f.a).map (fun r => (r, false)), dsts := [] } (s.noTasks f.a)
    (fun s th => if s.robbed th.gk.team (fun _ => true) then .hold s false else afterQuiet s th (fun s =>
      let k := th.gk.team
      let v := (s.thread th).record th.gk.exe f.a.toNat
      match s.team k with
      | none => Act.illop s th
      | some t =>
        let done (s : State) : Act := .done (s.modThread th (fun t => (t.setPred f.ps true).advance))
        if t.deque.length < dequeSize then
          done (s.modTeam k (fun t => { t with deque := t.deque ++ [BitVec.ofNat 64 v] }))
        else if t.spill = s.spillCap k then Act.noRecord s th f.ps
        else
          let w : Who := { core := s.coreOf k, ctx := s.ctxOf k.job, priv := s.priv k.job, ask := none }
          withSpill s th .write k t.spill (fun s q =>
            done ((s.homeWrite w q (leBytes 8 v)).modTeam k (fun t => { t with spill := t.spill + 1, spillc := t.spillc + 1 })))))

/-- TAKE (R343). -/
def execTake (f : OpTake) (s : State) : Host.Outcome State Fault Refusal :=
  execLanesIf s (.take f) { guard := f.g, srcs := [], dsts := recordRegs s.inExe f.d, keep := true } (s.noTasks f.d)
    (fun s th =>
      let k := th.gk.team
      if s.robbed k (fun _ => true) then .hold s false
      else match s.team k with
      | none => Act.illop s th
      | some t =>
        if 0 < t.spill then
          spillRead s th k (t.spill - 1) (fun s v =>
            Act.gotRecord (s.modTeam k (fun t => { t with spill := t.spill - 1 })) th f.ps f.d.toNat v false)
        else
          match t.deque.getLast? with
          | some v =>
            Act.gotRecord (s.modTeam k (fun t => { t with deque := t.deque.dropLast })) th f.ps f.d.toNat v.toNat false
          | none => Act.noRecord s th f.ps)

/-- Is there a record in the deque of a team that is resident? A team that has ended keeps its records (13 R375). -/
def State.hasRecord (s : State) (k : TeamKey) : Bool :=
  ((s.team k).map (fun t => t.resident && (!t.deque.isEmpty || decide (0 < t.spill)))).getD false

/-- The victim of a STEAL (R344): none where the selector is out of range, else the TEAM index if a deque has a
record. -/
def State.victim (s : State) (k : TeamKey) (sel : Nat) : Option (Option Nat) :=
  let (cw, ch, _) := s.cluster k
  let area := cw * ch
  if sel < area then some (if s.hasRecord { k with idx := sel } then some sel else none)
  else if sel = 31 then
    let c := ((s.team k).map (fun t => t.cursor)).getD 0
    some (((List.range area).map (fun i => (c + i) % area)).find? (fun v => v != k.idx && s.hasRecord { k with idx := v }))
  else none

/-- The deques that a STEAL looks at, in order: the one it names, or from the cursor on the others up to the first with a
record. -/
def State.looksAt (s : State) (k : TeamKey) (sel : Nat) : List TeamKey :=
  let (cw, ch, _) := s.cluster k
  let area := cw * ch
  let c := ((s.team k).map (fun t => t.cursor)).getD 0
  let vs := if sel = 31 then ((List.range area).map (fun i => (c + i) % area)).filter (· != k.idx) else [sel]
  let n := ((vs.map (fun v => s.hasRecord { k with idx := v })).takeWhile (fun b => !b)).length
  (vs.take (n + 1)).map (fun v => { k with idx := v })

/-- Must a STEAL come in the next cycle: one from a higher core has looked at a deque of its, or any at its own? -/
def State.stealWaits (s : State) (k : TeamKey) (sel : Nat) : Bool :=
  (s.looksAt k sel).any (fun v => s.robbed v (fun c => v == k || decide (s.coreOf k < c)))

/-- STEAL (R344): the top of the victim's hardware part, or its last spill record where that part is empty. -/
def execSteal (f : OpSteal) (s : State) : Host.Outcome State Fault Refusal :=
  execLanesIf s (.steal f) { guard := f.g, srcs := [src f.a], dsts := recordRegs s.inExe f.d, keep := true } (s.noTasks f.d)
    (fun s th =>
      let k := th.gk.team
      let sel := (s.thread th).rn th.gk.exe f.a.toNat
      let taint := (s.thread th).taintOf th.gk.exe f.a.toNat
      let seen := (s.looksAt k sel).filter (· != k)
      match s.victim k sel with
      | none => Act.cause s th .badarg
      | some none => if s.stealWaits k sel then .hold s false else Act.noRecord (s.noteThefts (s.coreOf k) seen) th f.ps
      | some (some v) =>
        let vk : TeamKey := { k with idx := v }
        let (cw, ch, _) := s.cluster k
        let moved (s : State) : State :=
          if sel = 31 then s.modTeam k (fun t => { t with cursor := (v + 1) % (cw * ch) }) else s
        if s.stealWaits k sel then .hold s false
        else match s.team vk with
        | none => Act.noRecord s th f.ps
        | some t =>
          let s := s.noteThefts (s.coreOf k) seen
          match t.deque with
          | x :: rest =>
            Act.gotRecord (moved (s.modTeam vk (fun t => { t with deque := rest }))) th f.ps f.d.toNat x.toNat taint
          | [] =>
            spillRead s th vk (t.spill - 1) (fun s x =>
              Act.gotRecord (moved (s.modTeam vk (fun t => { t with spill := t.spill - 1 }))) th f.ps f.d.toNat x taint))

end Sys2Proof.Machine
end

