-- ==== Sys2Proof/Machine/Drain.lean ====
section
/-! DEFINITION. The drain stream (11 R324-R328, 05 R164): a drain command reads its tile, then writes or updates its
destination line by line; and the event that performs a command of any stream (05 R154). -/

namespace Sys2Proof.Machine

/-- The address of a row of a drain's destination: a scratchpad offset, or a virtual address. -/
def DrainDesc.at (d : DrainDesc) (x : Int) : Nat := if d.sp then x.toNat else wrapN 64 x

/-- The pieces of a run of bytes at an address, one for each line it touches. -/
def drainPieces (a : Nat) (bs : List Byte) : List DrainLine :=
  (linePieces a bs.length).map (fun p => { addr := p.1 % 2 ^ 64, data := (bs.drop (p.1 - a)).take p.2 })

/-- What a drain command writes, or adds to each word, from a tile (R326, R328), and whether TSTSP wrote it dense. -/
def drainLines (op : Nat) (t : Tile) (d : DrainDesc) : List DrainLine × Bool :=
  let bf := d.df == 1
  if op = 2 then
    let r := t.sparse bf d.budget
    ((List.range r.1.length).map (fun i =>
      { addr := (d.dest + 64 * i) % 2 ^ 64, data := blockBytes (r.1.getD i 0#512) }), r.2)
  else if op = 1 then
    ((List.range 64).map (fun i =>
      { addr := d.at ((d.dest : Int) + (i / 2 : Nat) * d.rstr + 64 * (i % 2 : Nat))
        data := (List.range 16).flatMap (fun c =>
          leBytes 12 (convert .a96 (t.value (32 * (i / 2) + 16 * (i % 2) + c))).1) }), false)
  else
    ((List.range 32).flatMap (fun r : Nat =>
      drainPieces (d.at ((d.dest : Int) + (r : Int) * d.rstr)) (codeBytes (if bf then 2 else 4) (t.rowCodes (if bf then .bf16 else .fp32) r))),
     false)

/-- The head of the drain stream reads its tile, once the group's earlier MMAs on it have completed (R325); a tile with an
uncorrectable error is ARRAY (14 R398). -/
def State.drainRead (s : State) (k : TeamKey) : State :=
  match s.headCmd k 2 with
  | none => s
  | some c =>
    match c.kind with
    | .drain op gk tile d false _ _ _ _ =>
      match s.group gk with
      | some g =>
        if g.mmaOn tile then s
        else if (g.tile tile).ecc then s.arrayFault gk tile c.pc
        else
          let r := drainLines op (g.tile tile) d
          s.modHead k 2 (fun c => { c with kind := .drain op gk tile d true r.1 r.2 [] 0 })
      | none => s
    | _ => s

/-- A line of the head drain is done, with the failure it met. -/
def State.drainDone (s : State) (k : TeamKey) (i seq : Nat) (fail : Option (Nat × Option XKind × Bool)) : State :=
  s.modHead k 2 (fun c =>
    let c := match c.kind with
      | .drain op gk tile d rd ls dn done q => { c with kind := .drain op gk tile d rd ls dn (done ++ [i]) (if q = 0 then seq else q) }
      | _ => c
    match fail with
    | none => c
    | some (va, k, true) => { c with fr := c.fr.note i (va / 64 * 64) (if k.isSome then 0 else 1) 0 true }
    | some (va, k, false) => c.fail i va k)

/-- The lines of a drain still to be written that lie in the line of an address: adjacent rows may share it, and their bytes in
it are written at once (05 R160). -/
def drainMates (ls : List DrainLine) (done : List Nat) (addr : Nat) : List (Nat × DrainLine) :=
  ((ls.mapIdx (fun j l => (j, l))).filter (fun x => x.2.addr / 64 == addr / 64 && !done.contains x.1))

/-- The bytes of a line that some of its parts write, the later parts last: all 64 from the line's address where they cover it,
else each part's own. Where rows of one command overlap, which no rule orders, the bytes of the higher row stand (DESIGN
CHOICE, log 78). -/
def mergeLines (parts : List DrainLine) : List DrainLine :=
  match parts with
  | [] => []
  | p :: _ =>
    let byte (j : Nat) : Option Byte :=
      (parts.filter (fun l => decide (l.addr % 64 ≤ j) && decide (j < l.addr % 64 + l.data.length))).getLast?.bind
        (fun l => l.data[j - l.addr % 64]?)
    let bs := (List.range 64).map byte
    if bs.all (fun b => b.isSome) then [{ addr := p.addr / 64 * 64, data := bs.map (fun b => b.getD 0) }] else parts

/-- DRAIN_LINE_WRITE (R326, R328): a line of the TDRAIN or TSTSP at the head of the stream is written. -/
def execDrainLineWrite (k : TeamKey) (i : Nat) (s : State) : Host.Outcome State Fault Refusal :=
  let s := match s.headCmd k 2 with
    | some c => if s.cmdRuns c then s.drainRead k else s
    | none => s
  match s.headCmd k 2 with
  | none => .next s
  | some c =>
    match c.kind with
    | .drain op _ _ d true ls _ done _ =>
      match ls[i]? with
      | none => .next s
      | some l =>
        let w := s.cmdWho c
        let mates := drainMates ls done l.addr
        let parts := mergeLines (mates.map (fun x => x.2))
        let allDone (s : State) (fail : Option (Nat × Option XKind × Bool)) : State :=
          mates.foldl (fun s x => s.drainDone k x.1 0 fail) s
        if op = 1 ∨ done.contains i ∨ !s.cmdRuns c then .next s
        else if d.sp then .next (allDone (parts.foldl (fun s p => s.spadWrite k p.addr p.data) s) none)
        else s.withWalks w [l.addr] (fun _ =>
          match s.translateNow w .write (l.addr / 64 * 64) with
          | .error e => allDone s (some (l.addr, some e, false))
          | .ok _ => allDone (parts.foldl (fun s p => (s.writeVirt w p.addr p.data).1) s) none)
    | _ => .next s

/-- The line of 16 sums of a line's words and 16 cells (R326). -/
def addCells (line cells : List Byte) : List Byte :=
  (List.range 16).flatMap (fun i =>
    let w := leNat ((line.drop (4 * i)).take 4)
    let c := leNat ((cells.drop (12 * i)).take 12)
    let r := FVal.add (f32 w) (fpDecode .a96 c)
    leBytes 4 (convert .fp32 r.1 r.2).1)

/-- The physical address of a line of a TDRAIN.ADD in device memory. -/
def State.addLine (s : State) (c : Cmd) (addr : Nat) : Option Nat :=
  match s.translateNow (s.cmdWho c) .write addr with
  | .ok q => some q.pa
  | .error _ => none

/-- Does a command that reached the home of its first line before number seq, with the same destination, still have to update
the line at a physical address (05 R164)? -/
def State.addBlocks (s : State) (b : Cmd) (first : Option Nat) (seq pa : Nat) : Bool :=
  match b.kind with
  | .drain 1 _ _ d _ ls _ done bseq =>
    bseq != 0 && decide (bseq < seq) && !d.sp && decide (s.addLine b d.dest = first)
      && (ls.mapIdx (fun j l => (j, l))).any (fun x => !done.contains x.1 && decide (s.addLine b x.2.addr = some pa))
  | _ => false

/-- May a TDRAIN.ADD update a line (05 R164): its first line comes first, and the commands with the same destination that
reached it before have updated this line? -/
def State.addMay (s : State) (c : Cmd) (i : Nat) : Bool :=
  match c.kind with
  | .drain _ _ _ d _ ls _ done seq =>
    if i = 0 then true
    else done.contains 0 && (d.sp ||
      match ls[i]?.bind (fun l => s.addLine c l.addr) with
      | none => true
      | some pa =>
        let first := s.addLine c d.dest
        first.isNone || s.teams.all (fun t => !(t.drainq.head?.any (fun b => s.addBlocks b first seq pa))))
  | _ => true

/-- TILE_UPDATE (R326, 05 R164): a line of the TDRAIN.ADD at the head of the stream is updated in one read-modify-write. -/
def execTileUpdate (k : TeamKey) (i : Nat) (s : State) : Host.Outcome State Fault Refusal :=
  let s := match s.headCmd k 2 with
    | some c => if s.cmdRuns c then s.drainRead k else s
    | none => s
  match s.headCmd k 2 with
  | none => .next s
  | some c =>
    match c.kind with
    | .drain 1 _ _ d true ls _ done _ =>
      match ls[i]? with
      | none => .next s
      | some l =>
        let w := s.cmdWho c
        if done.contains i || !s.cmdRuns c then .next s
        else s.withWalks w (if d.sp then [] else [l.addr]) (fun _ =>
          if !s.addMay c i then s
          else
            let seq := if i = 0 then s.nextFlit + 1 else 0
            let s := if i = 0 then { s with nextFlit := s.nextFlit + 1 } else s
            if d.sp then
              if s.spadEcc k l.addr 64 then s.drainDone k i seq (some (l.addr, none, true))
              else (s.spadWrite k l.addr (addCells (s.spadRead k l.addr 64) l.data)).drainDone k i seq none
            else
              match s.translateNow w .write l.addr with
              | .error e => s.drainDone k i seq (some (l.addr, some e, false))
              | .ok q =>
                match s.readLine (s.partOf w.ctx) q.slot q.pa 64 with
                | .keymis => s.drainDone k i seq (some (l.addr, some .keymis, false))
                | .ecc => s.drainDone k i seq (some (l.addr, none, false))
                | .ok bs =>
                  ((((if s.shared then s else s.bump).learn w.core w.ctx l.addr).homeWrite w q (addCells bs l.data))).drainDone k i seq none)
    | _ => .next s

/-! ### COMMAND_PERFORMED (05 R154) -/

/-- Has every part of a command been performed, so that only its end is due? -/
def State.cmdOver (s : State) (c : Cmd) : Bool :=
  match c.kind with
  | .copy _ lay _ _ _ _ g _ => (List.range lay.granules).all (fun i => bit g i)
  | .mcast _ _ _ _ _ n next _ => decide (n ≤ 64 * next) && !s.flits.any (fun f => f.tk == c.thr.gk.team && f.cmd == c.id)
  | .qstream _ _ n next _ => decide (n ≤ next)
  | .gath _ _ _ cnt _ _ next _ => decide (cnt ≤ next)
  | .scat _ _ cnt _ _ _ next _ => decide (cnt ≤ next)
  | .drain _ _ _ _ rd ls _ done _ => rd && (List.range ls.length).all (fun i => done.contains i)

/-- COMMAND_PERFORMED (05 R154, 09 R281, 12 R350): the command at the head of a stream is performed; TSTSP writes its
summary dword (11 R328). -/
def execCommandPerformed (k : TeamKey) (n : Nat) (s : State) : Host.Outcome State Fault Refusal :=
  match s.headCmd k n with
  | none => .next s
  | some c =>
    if !s.cmdRuns c || !s.cmdOver c then .next s
    else
      let s := match c.kind with
        | .drain 2 _ _ d _ ls dense _ _ => s.spadWrite k d.sumoff (leBytes 8 (ls.length + b2n dense * 2 ^ 16))
        | _ => s
      .next (s.performCmd k n c)

end Sys2Proof.Machine
end

