-- ==== Sys2Proof/Machine/Futures.lean ====
section
/-! DEFINITION. The future instructions (12 R346-R350) and the recheck of a wait without a record (R349). -/

namespace Sys2Proof.Machine

/-- Act on the event that a register names: it must lie in the context's event range (R346). -/
def withEvent (s : State) (th : ThreadKey) (a : Nat) (k : Nat → Act) : Act :=
  let id := (s.thread th).rn th.gk.exe a
  match s.ctx (s.ctxOf th.gk.team.job) with
  | some c => if c.evBase ≤ id ∧ id < c.evBase + c.evCount ∧ id < 65536 then k id else Act.cause s th .badarg
  | none => Act.cause s th .badarg

/-- Is an event RESOLVED or FAULTED? -/
def Event.over (e : Event) : Bool := decide (2 ≤ e.st)

/-- FNEW (R348): the state word is cleared and PENDING, and with mode 1 bound to the thread's next copy command. Waiter records
of an event that was EMPTY stay in use (13 R374, log 16). The thread's earlier loads into queues have bound their values (05
R158). -/
def execFnew (f : OpFnew) (s : State) : Host.Outcome State Fault Refusal :=
  execLanes s (.fnew f) { guard := f.g, srcs := [src f.a], dsts := [] } (fun s th =>
    withEvent s th f.a.toNat (fun id =>
      let e := s.event id
      let bind := f.b.toNat == 1
      if (e.st == 1 && decide (0 < e.wcnt)) || (bind && (s.thread th).fbind.isSome) then Act.cause s th .badarg
      else if s.reading th then .hold s false
      else
        let s := s.setEvent id { word := eventWord 0 0 false 1, waiters := e.waiters }
        Act.next (if bind then s.modThread th (fun t => { t with fbind := some id }) else s) th))

/-- FRES and FRES.F (R348): releases of the thread's earlier accesses (05 R147); a second resolution raises FUTDBL
after its effect. -/
def execResolve (s : State) (i : Instr) (f : OpFres) (fault : Bool) : Host.Outcome State Fault Refusal :=
  execLanes s i { guard := f.g, srcs := [src f.a, src f.b], dsts := [] } (fun s th =>
    withEvent s th f.a.toNat (fun id => afterQuiet s th (fun s =>
      let pc := (s.thread th).pc
      let v := (s.thread th).rn th.gk.exe f.b.toNat % 2 ^ 32
      let (s, won) := s.resolve id v fault
      let s := s.modThread th (fun t => (t.setPred f.ps won).advance)
      if won then .done s
      else Act.raise s th { TrapInfo.at .futdbl pc with resume := pc + 4, r29 := id, r30 := v })))

/-- FRES (R348). -/
def execFres (f : OpFres) (s : State) : Host.Outcome State Fault Refusal := execResolve s (.fres f) f false

/-- FRES.F (R348). -/
def execFresF (f : OpFres) (s : State) : Host.Outcome State Fault Refusal := execResolve s (.fresF f) f true

/-- FREG (R348, R349). -/
def execFreg (f : OpFres) (s : State) : Host.Outcome State Fault Refusal :=
  execLanes s (.freg f) { guard := f.g, srcs := [src f.a, src f.b], dsts := [] } (fun s th =>
    withEvent s th f.a.toNat (fun id => afterQuiet s th (fun s =>
      let (s, ok) := s.freg id ((s.thread th).rn th.gk.exe f.b.toNat % 2 ^ 32) th.gk.team.job
      .done (s.modThread th (fun t => (t.setPred f.ps ok).advance)))))

/-- Record a group as a waiter of an event, if it is not and if there is room (R348, R349): is it recorded now? -/
def State.recordWait (s : State) (id : Nat) (gk : GroupKey) : State × Bool :=
  if (s.event id).waiters.any (fun w => w.who == .inl gk) then (s, true)
  else match s.waiterRoom id gk.team.job with
    | some a => (s.addWaiter id (.inl gk) a, true)
    | none => (s, false)

/-- FWAIT (R348). -/
def execFwait (f : OpSteal) (s : State) : Host.Outcome State Fault Refusal :=
  execLanes s (.fwait f) { guard := f.g, srcs := [src f.a], dsts := [f.d.toNat], keep := true } (fun s th =>
    withEvent s th f.a.toNat (fun id =>
      let e := s.event id
      if e.over then
        let taint := (s.thread th).taintOf th.gk.exe f.a.toNat
        .done (((s.acquire th).clearPoison th f.d.toNat).modThread th (fun t =>
          ((t.wn th.gk.exe f.d.toNat e.value taint).setPred f.ps (e.st == 2)).advance))
      else if s.reading th then .hold s false
      else
        let (s, r) := s.recordWait id th.gk
        .out (s.block th (.future id r))))

/-- FSTAT and FSTAT.HI (R347). -/
def execStatus (s : State) (i : Instr) (f : OpDa) (hi : Bool) : Host.Outcome State Fault Refusal :=
  execLanes s i { guard := f.g, srcs := [src f.a], dsts := [f.d.toNat], keep := true } (fun s th =>
    withEvent s th f.a.toNat (fun id =>
      let e := s.event id
      let taint := (s.thread th).taintOf th.gk.exe f.a.toNat
      Act.ret (if e.over then s.acquire th else s) th f.d.toNat (if hi then e.value else e.word.toNat) taint))

/-- FSTAT (R347). -/
def execFstat (f : OpDa) (s : State) : Host.Outcome State Fault Refusal := execStatus s (.fstat f) f false

/-- FSTAT.HI (R347). -/
def execFstatHi (f : OpDa) (s : State) : Host.Outcome State Fault Refusal := execStatus s (.fstatHi f) f true

/-- FWAIT_RECHECK (R349): a wait without a record is woken if its event is over, and recorded if there is room now. -/
def execFwaitRecheck (th : ThreadKey) (s : State) : Host.Outcome State Fault Refusal :=
  match (s.thread th).blk with
  | some (.future id false) =>
    if s.cycle % 1024 != 0 then .next s
    else if (s.event id).over then .next (s.modThread th (fun t => { t with blk := none }))
    else
      let (s, r) := s.recordWait id th.gk
      .next (s.modThread th (fun t => { t with blk := some (.future id r) }))
  | _ => .next s

end Sys2Proof.Machine
end

