-- ==== Sys2Proof/Machine/Sched.lean ====
section
/-! DEFINITION. The scheduler's records: job records (13 R364, R365), pipeline records (R368-R371), the groups and
queues of a core (R372), admission (R365-R367, R373, R387), placement and selection (R376, R377). -/

namespace Sys2Proof.Machine

/-! ### Job records (R364) -/

/-- The event ids that a job record names in the fields from a bit on. -/
def recIds (r lo n : Nat) : List Nat := (List.range n).map (fun i => bits r (lo + 16 * i + 15) (lo + 16 * i))

/-- NREV, NWEV, the event ids used. -/
def recNrev (r : Nat) : Nat := bits r 202 200
/-- Events waited on. -/
def recNwev (r : Nat) : Nat := bits r 205 203
/-- REV0 to REV(NREV − 1). -/
def recRev (r : Nat) : List Nat := recIds r 256 (recNrev r)
/-- WEV0 to WEV(NWEV − 1). -/
def recWev (r : Nat) : List Nat := recIds r 320 (recNwev r)
/-- TEV, where TEVV is set. -/
def recTev (r : Nat) : Option Nat := if bit r 206 then some (bits r 239 224) else none
/-- CTXID. -/
def recCtx (r : Nat) : Nat := bits r 187 176
/-- KEYSLOT. -/
def recKey (r : Nat) : Nat := bits r 199 192

/-- A context that exists and has not ended. -/
def State.liveCtx (s : State) (c : Nat) : Option Ctx := (s.ctx c).bind (fun x => if x.ended then none else some x)

/-- Is an event id in a context's range (R374)? -/
def Ctx.hasEvent (c : Ctx) (id : Nat) : Bool := decide (c.evBase ≤ id) && decide (id < c.evBase + c.evCount)

/-- BADREC (R365). -/
def State.badRec (s : State) (r : Nat) : Bool :=
  bits r 191 188 != 0 || bit r 207 || bits r 255 240 != 0 || bits r 511 384 != 0
    || decide (4 < recNrev r) || decide (4 < recNwev r) || bits r 175 128 == 0 || bits r 63 0 % 64 != 0
    || (match s.liveCtx (recCtx r) with
        | some c => (recRev r ++ recWev r ++ (recTev r).toList).any (fun e => !c.hasEvent e)
        | none => false)

/-- BADCTX (R365). -/
def State.badCtx (s : State) (r : Nat) (issuer : Option Nat) : Bool :=
  match s.liveCtx (recCtx r) with
  | none => true
  | some c =>
    (recKey r != 0 && !c.slotmask.getLsbD (recKey r)) || (s.slot (recKey r)).st != .loaded
      || (match issuer with | some i => i != recCtx r | none => false)

/-! ### Pipeline records (R368-R371) -/

/-- The bytes of a pipeline record (R368), read through the job's context. -/
def State.readPipe (s : State) (ctx prec : Nat) : Option (List Byte) :=
  match s.readVirt (manage ctx (ctx == 0)) prec 64 with
  | .error _ => none
  | .ok h =>
    let v := leNat h
    let n := 32 * bits v 35 32 + 16 * bits v 46 40 + 16 * bits v 39 36
    if n = 0 then some h
    else match s.readVirt (manage ctx (ctx == 0)) ((prec + 64) % 2 ^ 64) n with
      | .error _ => none
      | .ok t => some (h ++ t)

/-- A stage entry (R369) of 32 bytes. -/
def stageOf (v : Nat) : Stage where
  entry := bits v 63 0
  gauge := bit v 68
  rset := bits v 67 65
  exe := bit v 64
  groups := bits v 79 72
  maxg := bits v 87 80
  depth := max 1 (bits v 95 88)
  olr := bits v 101 100
  tiles := bits v 99 96
  cores := bits v 123 112

/-- Does a stage entry break R369 or R371, in a cluster of an area? -/
def stageBad (v area : Nat) : Bool :=
  let g := stageOf v
  let top := if g.exe then 128 else 16
  bits v 1 0 != 0 || bits v 63 57 != 0 || bits v 71 69 != 0 || bits v 103 102 != 0 || bits v 111 104 != 0
    || bits v 127 124 != 0 || bits v 255 128 != 0
    || g.groups == 0 || decide (g.maxg < g.groups) || decide (top < g.maxg) || (g.rset == 0 && g.maxg != g.groups)
    || decide (2 < g.olr) || decide (8 < g.tiles) || (!g.exe && (g.olr != 0 || g.tiles != 0))
    || g.cores == 0 || decide (2 ^ area ≤ g.cores)

/-- A queue or channel entry (R370) of 16 bytes. -/
def declOf (v : Nat) : QDecl where
  name := bits v 5 0
  mode := bits v 9 8
  dir := bits v 11 10
  depth := bits v 22 16
  dest := bits v 30 28
  frm := bits v 26 24

/-- Do two stages stand in the slices that a direction requires (09 R265)? -/
def dirOk (dir : Nat) (src dst : Stage) : Bool := if dir = 0 then !src.exe && dst.exe else src.exe && !dst.exe

/-- Does a queue entry break R370 or R371? -/
def declBad (v : Nat) (stages : List Stage) : Bool :=
  let q := declOf v
  let cap := if q.mode = 0 ∨ q.mode = 1 then 64 else 16
  bits v 7 6 != 0 || bits v 15 12 != 0 || bit v 23 || bit v 31 || bit v 27 || bits v 127 32 != 0
    || q.depth == 0 || decide (cap < q.depth)
    || (if q.mode = 3 then q.dest != 0 || q.frm != 0
        else decide (31 < q.name) || q.dir == 3
          || (match stages[q.frm]?, stages[q.dest]? with
              | some a, some b =>
                !dirOk q.dir a b || a.groups != b.groups || a.rset != b.rset || (a.cores &&& b.cores) == 0
              | _, _ => true))

/-- Does a beat entry break R370? -/
def beatBad (v : Nat) : Bool := decide (11 < bits v 3 0) || bits v 63 4 != 0

/-- Do two entries of a list share a key? -/
def clash (l : List Nat) : Bool := l.eraseDups.length != l.length

/-- The entries of a table of n records of size bytes. -/
def recTable (bs : List Byte) (off size n : Nat) : List Nat :=
  (List.range n).map (fun i => leNat ((bs.drop (off + size * i)).take size))

/-- The pipeline of a record's bytes; none where it breaks a rule of R371 (BADPIPE). -/
def pipeOf (bs : List Byte) : Option Pipeline :=
  let h := leNat (bs.take 64)
  let cw := bits h 3 0
  let ch := bits h 7 4
  let nclu := bits h 25 16
  let nstg := bits h 35 32
  let nbeat := bits h 39 36
  let nqe := bits h 46 40
  let area := cw * ch
  let sv := recTable bs 64 32 nstg
  let qv := recTable bs (64 + 32 * nstg) 16 nqe
  let bv := recTable bs (64 + 32 * nstg + 16 * nqe) 16 nbeat
  let stages := sv.map stageOf
  let qs := qv.map declOf
  let bad :=
    cw == 0 || decide (12 < cw) || ch == 0 || decide (12 < ch) || decide (12 < area) || nclu == 0 || decide (576 < nclu)
      || bits h 15 8 != 0 || bits h 31 26 != 0 || bits h 63 48 != 0 || bits h 511 256 != 0
      || nstg == 0 || decide (8 < nstg) || decide (12 < nbeat) || decide (96 < nqe)
      || bits h 127 64 % 8 != 0 || bits h 255 192 % 16 != 0
      || sv.any (fun v => stageBad v area) || qv.any (fun v => declBad v stages) || bv.any beatBad
      || clash ((qs.filter (fun q => q.mode != 3)).map (fun q => q.name))
      || clash ((qs.filter (fun q => q.mode == 3)).map (fun q => q.name))
      || clash (bv.map (fun v => bits v 3 0))
      || stages.any (fun a => stages.any (fun b =>
          a.rset != 0 && a.rset == b.rset && (a.groups != b.groups || a.maxg != b.maxg)))
  if bad then none
  else some {
    cw := cw, ch := ch, nclu := nclu, tasks := bit h 47
    spill := bits h 127 64, spillc := bits h 159 128, evovfc := bits h 191 160, evovf := bits h 255 192
    stages := stages, queues := qs
    beats := bv.map (fun v => (bits v 3 0, BitVec.ofNat 64 (bits v 127 64))) }

/-! ### The groups of a core (R372) -/

/-- A planned group: stage, instance, slice, quadrant, GROUP index. -/
structure Plan where
  stage : Nat
  inst : Nat
  exe : Bool
  quad : Nat
  grp : Nat
  deriving DecidableEq, Repr

/-- The groups planned in a slice: the access slice, or a quadrant. -/
def planIn (l : List Plan) (exe : Bool) (quad : Nat) : List Plan := l.filter (fun p => p.exe == exe && p.quad == quad)

/-- The least GROUP index that no group of a slice has. -/
def planNext (l : List Plan) (exe : Bool) (quad : Nat) : Nat :=
  ((List.range 129).find? (fun i => !(planIn l exe quad).any (fun p => p.grp == i))).getD 129

/-- The quadrant that holds the fewest groups, the lowest on a tie. -/
def planQuad (l : List Plan) : Nat :=
  let n (q : Nat) : Nat := (planIn l true q).length
  (List.range 4).foldl (fun b q => if n q < n b then q else b) 0

/-- One more group of a stage. -/
def planAdd (l : List Plan) (exe : Bool) (stage inst : Nat) : List Plan :=
  let q := if exe then planQuad l else 0
  l ++ [{ stage := stage, inst := inst, exe := exe, quad := q, grp := planNext l exe q }]

/-- Does a stage run at a TEAM index? -/
def Stage.at (g : Stage) (pos : Nat) : Bool := g.cores.testBit pos

/-- The groups of a core at a TEAM index, with every replica set at its GROUPS count. -/
def Pipeline.plan (p : Pipeline) (pos : Nat) : List Plan :=
  (List.range p.stages.length).foldl (fun l i =>
    match p.stages[i]? with
    | some g => if g.at pos then (List.range g.groups).foldl (fun l n => planAdd l g.exe i n) l else l
    | none => l) []

/-- The bytes of queue memory of a declaration (03 R80). -/
def QDecl.bytes (q : QDecl) : Nat :=
  roundUp ((if q.mode = 0 then 128 else if q.mode = 1 then 64 else 256) * q.depth) 256

/-- Does an access stage run at a TEAM index? -/
def Pipeline.accessAt (p : Pipeline) (pos : Nat) : Bool := p.stages.any (fun g => !g.exe && g.at pos)

/-- Is a queue instantiated at a TEAM index? -/
def Pipeline.queueAt (p : Pipeline) (q : QDecl) (pos : Nat) : Bool :=
  match p.stages[q.frm]?, p.stages[q.dest]? with
  | some a, some b => a.at pos && b.at pos
  | _, _ => false

/-- The tiles of a stage. -/
def Pipeline.tilesOf (p : Pipeline) (stage : Nat) : Nat := ((p.stages[stage]?).map (fun g => g.tiles)).getD 0

/-- The instances that planned groups make of a stage. -/
def planCount (l : List Plan) (stage : Nat) : Nat := (l.filter (fun x => x.stage == stage)).length

/-- The queue memory that planned groups need at a TEAM index: queues, channels, return stacks (R372). -/
def Pipeline.queueMem (p : Pipeline) (pos : Nat) (l : List Plan) : Nat :=
  (p.queues.map (fun q =>
    if q.mode = 3 then (if p.accessAt pos then q.bytes else 0)
    else if p.queueAt q pos then q.bytes * planCount l q.frm else 0)).sum
  + (l.map (fun x => 256 * ((p.stages[x.stage]?).map (fun g => g.depth)).getD 0)).sum

/-- Have planned groups their group slots and tiles on a core (R372)? -/
def Pipeline.slotsFit (p : Pipeline) (l : List Plan) : Bool :=
  decide ((planIn l false 0).length ≤ 16)
    && (List.range 4).all (fun q =>
        decide ((planIn l true q).length ≤ 32) && decide (((planIn l true q).map (fun x => p.tilesOf x.stage)).sum ≤ 8))

/-- Do planned groups fit a core (R372)? -/
def Pipeline.fitsCore (p : Pipeline) (pos : Nat) (l : List Plan) : Bool :=
  p.slotsFit l && decide (p.queueMem pos l ≤ Config.queueBytes)

/-! ### Admission (R365, R367, R373) -/

/-- The partition of a context (01 R14): in shared mode every context runs in partition 0. -/
def State.partition (s : State) (ctx : Nat) : Partition :=
  (s.parts[(s.partOf ctx).getD 0]?).getD { sbase := 0, scnt := 0, cores := [] }

/-- The save reservation of a job (R387). -/
def Pipeline.need (p : Pipeline) : Nat := 65536 + 1572864 * p.cw * p.ch * p.nclu

/-- The jobs that have not ended. -/
def State.liveJobs (s : State) : List Job := s.jobs.filter (fun j => j.st != .ended)

/-- The checks of R365 on a record: a refusal status, or the pipeline. -/
def State.checkRecord (s : State) (r : Nat) (issuer : Option Nat) : Except Nat Pipeline :=
  let c := recCtx r
  if s.badRec r then .error 1
  else if s.badCtx r issuer then .error 2
  else match s.readPipe c (bits r 63 0) with
    | none => .error 3
    | some bs =>
      match pipeOf bs with
      | none => .error 4
      | some p =>
        if decide ((s.partition c).cores.length < p.cw * p.ch * p.nclu) || decide (24 < p.cw) || decide (24 < p.ch) then .error 5
        else if !(List.range (p.cw * p.ch)).all (fun pos => p.fitsCore pos (p.plan pos)) then .error 6
        else if ((s.ctx c).map (fun x => x.saveSize)).getD 0
            < p.need + ((s.liveJobs.filter (fun j => j.ctx == c)).map (fun j : Job => j.need)).sum then .error 7
        else if Config.nodeTable ≤ s.liveJobs.length then .error 8
        else .ok p

/-- The first job id from n on that no live job has (R367), the ids counted by the fuel. -/
def State.freeId (s : State) : Nat → Nat → Nat
  | 0, n => n
  | f + 1, n =>
    if s.liveJobs.any (fun j => j.id == n) then s.freeId f (if n = 0xFFFFFFFF then 0x10 else n + 1) else n

/-- Register a node with the next of its events, or keep the registration (R373). -/
def State.registerWev (s : State) (id ev : Nat) : State :=
  match s.freg ev id id with
  | (s, true) => s
  | (s, false) => s.modJob id (fun j => { j with regs := j.regs ++ [ev] })

/-- Admission of a record (R365-R367, R373): the refusal status, or the job id of the new node. -/
def State.acceptJob (s : State) (r : Nat) (issuer : Option Nat) : Except Nat (Nat × State) :=
  match s.checkRecord r issuer with
  | .error e => .error e
  | .ok p =>
    let id := s.freeId (s.liveJobs.length + 1) s.nextJob
    let c := recNwev r + bits r 223 208
    let j : Job := {
      id := id, ctx := recCtx r, keyslot := recKey r, deadline := bits r 127 64, budget := bits r 175 128, left := 0
      tev := recTev r, tevDone := false, rev := recRev r, pipe := p, counter := c, regs := []
      st := if c = 0 then .ready else .node, started := false, places := [], fault := none, aband := none, moving := 0
      need := p.need }
    let s := { s with jobs := s.jobs.filter (fun x => x.id != id) ++ [j], nextJob := if id = 0xFFFFFFFF then 0x10 else id + 1 }
    .ok (id, (recWev r).foldl (fun s e => s.registerWev id e) s)

/-! ### Placement (R376) -/

/-- The cores of a cluster's rectangle. -/
def rect (cw ch origin : Nat) : List Nat :=
  (List.range ch).flatMap (fun y => (List.range cw).map (fun x => origin + Config.meshSide * y + x))

/-- The cores that a job holds. -/
def Job.cores (j : Job) : List Nat :=
  match j.st with
  | .incoming => j.places.flatMap (rect j.pipe.cw j.pipe.ch)
  | .running => j.places.flatMap (rect j.pipe.cw j.pipe.ch)
  | .stopping _ => j.places.flatMap (rect j.pipe.cw j.pipe.ch)
  | .saving _ => j.places.flatMap (rect j.pipe.cw j.pipe.ch)
  | _ => []

/-- The origins of n clusters, taken one at a time on free cores in increasing order (R376). -/
def placeFrom (cw ch : Nat) (free : List Nat) : Nat → Option (List Nat)
  | 0 => some []
  | n + 1 =>
    match (List.range Config.cores).find? (fun o =>
      decide (o % Config.meshSide + cw ≤ Config.meshSide) && decide (o / Config.meshSide + ch ≤ Config.meshSide)
        && (rect cw ch o).all (fun c => free.contains c)) with
    | none => none
    | some o => (placeFrom cw ch (free.filter (fun c => !(rect cw ch o).contains c)) n).map (fun l => o :: l)

/-- The free cores of the partition of a job, as if some jobs had left. -/
def State.freeCores (s : State) (j : Job) (gone : List Nat) : List Nat :=
  let held := s.jobs.flatMap (fun x => if gone.contains x.id then [] else x.cores)
  (s.partition j.ctx).cores.filter (fun c => !held.contains c)

/-- Where a job's clusters would stand. -/
def State.place (s : State) (j : Job) (gone : List Nat) : Option (List Nat) :=
  placeFrom j.pipe.cw j.pipe.ch (s.freeCores j gone) j.pipe.nclu

/-! ### Selection (R377) -/

/-- Does a job come before another (R377)? -/
def Job.before (a b : Job) : Bool := decide (a.deadline < b.deadline) || (a.deadline == b.deadline && decide (a.id < b.id))

/-- Insert a job in the order of R377. -/
def insertJob (j : Job) : List Job → List Job
  | [] => [j]
  | x :: xs => if j.before x then j :: x :: xs else x :: insertJob j xs

/-- Jobs in the order of R377. -/
def sortJobs (l : List Job) : List Job := l.foldl (fun acc j => insertJob j acc) []

/-- The partition number of a job (01 R14). -/
def State.partNo (s : State) (j : Job) : Nat := (s.partOf j.ctx).getD 0

/-- The ready jobs of a partition that are not abandoned, in order; none while a checkpoint (15 R413) or a mode switch
(03 R97) empties the cores. -/
def State.readyJobs (s : State) (part : Nat) : List Job :=
  if s.ckpt || s.mswitch then [] else sortJobs (s.jobs.filter (fun j => decide (j.st = .ready) && j.aband.isNone && s.partNo j == part))

/-- The running slices with a deadline later than a job's, the latest first (R377). -/
def State.laterJobs (s : State) (j : Job) : List Nat :=
  ((sortJobs (s.jobs.filter (fun x => decide (x.st = .running) && s.partNo x == s.partNo j && decide (j.deadline < x.deadline)))).reverse).map
    (fun x : Job => x.id)

/-- What the scheduler decides for a ready job (R377): the slices that it pre-empts, none where it fits without, and where
it stands once they have left. -/
def State.choose (s : State) (j : Job) : Option (List Nat × List Nat) :=
  let l := s.laterJobs j
  (List.range (l.length + 1)).findSome? (fun n => (s.place j (l.take n)).map (fun p => (l.take n, p)))

/-- The first ready job of a partition that a decision can be made for (R377). -/
def State.nextReady (s : State) (part : Nat) : Option (Job × List Nat × List Nat) :=
  (s.readyJobs part).findSome? (fun j => (s.choose j).map (fun d => (j, d)))

/-- May a job be loaded now: it is the next, and fits; or the slices that it has pre-empted have left its cores (R377,
R382 step 6)? -/
def State.mayStart (s : State) (j : Job) : Option (List Nat) :=
  if j.aband.isSome then none else
  match j.st with
  | .incoming => if s.jobs.any (fun x => x.id != j.id && x.cores.any (fun c => j.cores.contains c)) then none else some j.places
  | _ =>
    match s.nextReady (s.partNo j) with
    | some (x, [], places) => if x.id = j.id then some places else none
    | _ => none

/-- No job waits for cores that others leave: a checkpoint or a mode switch empties them. -/
def State.unplace (s : State) : State :=
  { s with jobs := s.jobs.map (fun j : Job => if j.st = .incoming then { j with st := .ready, places := [] } else j) }

end Sys2Proof.Machine
end

