-- ==== Sys2Proof/Machine/Slices.lean ====
section
/-! DEFINITION. Slices of jobs: the teams of a job (13 R372, 01 R15), start and resume (13 R376, R378, R384, R386),
pre-emption and saving (R382, R383, R387), budgets (R378), replication (R380, R381), the end of a job (R375). -/

namespace Sys2Proof.Machine

/-! ### Teams (R372) -/

/-- The key of a planned group. -/
def Plan.key (x : Plan) (k : TeamKey) : GroupKey := { team := k, exe := x.exe, quad := x.quad, grp := x.grp }

/-- A planned group, as it starts (01 R15). -/
def Pipeline.group (p : Pipeline) (k : TeamKey) (x : Plan) : Group :=
  match p.stages[x.stage]? with
  | some g => Group.fresh (x.key k) x.stage x.inst (BitVec.ofNat 57 g.entry) g.depth g.tiles g.olr
  | none => Group.fresh (x.key k) x.stage x.inst 0 1 0 0

/-- The mode of a declaration. -/
def QDecl.qmode (q : QDecl) : QMode := if q.mode = 0 then .lane else if q.mode = 1 then .block else .outlier

/-- The direction of a declaration. -/
def QDecl.qdir (q : QDecl) : QDir := if q.dir = 0 then .ae else if q.dir = 1 then .ea else .es

/-- The copy of a queue for an instance, between the planned groups of its two stages. -/
def QDecl.copy (q : QDecl) (k : TeamKey) (plan : List Plan) (inst : Nat) : Option Queue :=
  match plan.find? (fun x => x.stage == q.frm && x.inst == inst), plan.find? (fun x => x.stage == q.dest && x.inst == inst) with
  | some a, some b =>
    some { ref := { name := q.name, inst := inst }, mode := q.qmode, dir := q.qdir, depth := q.depth, limit := q.depth
           prod := a.key k, cons := b.key k, fifos := List.replicate (if q.mode = 0 then 32 else 1) Fifo.empty, stqs := [] }
  | _, _ => none

/-- The copies of every queue for the instances below 128, between planned groups. -/
def Pipeline.copies (p : Pipeline) (k : TeamKey) (plan : List Plan) : List Queue :=
  (p.queues.filter (fun q => q.mode != 3)).flatMap (fun q => (List.range 128).filterMap (fun i => q.copy k plan i))

/-- The channels of a core (R372). -/
def Pipeline.channels (p : Pipeline) (pos : Nat) : List Channel :=
  if p.accessAt pos then
    (p.queues.filter (fun q => q.mode == 3)).map (fun q =>
      { num := q.name, peer := 0, uv := false, slots := List.replicate q.depth ChSlot.empty, order := [] })
  else []

/-- The instances of each replica set at GROUPS count (R380), by set number. -/
def Pipeline.reps (p : Pipeline) : List Nat :=
  (List.range 8).map (fun r => ((p.stages.find? (fun g => g.rset == r)).map (fun g => g.groups)).getD 0)

/-- The grant mask of a core (03 R112). -/
def Pipeline.beat (p : Pipeline) (pos : Nat) : BitVec 64 := ((p.beats.find? (fun b => b.1 == pos)).map (fun b => b.2)).getD 0

/-- A team as it starts (01 R15). -/
def Pipeline.team (p : Pipeline) (k : TeamKey) (core : Nat) : Team :=
  let plan := p.plan k.idx
  { key := k, core := core, resident := true, spad := [], spadBad := [], queues := p.copies k plan
    chans := p.channels k.idx, replay := List.replicate Config.replayEntries none, fills := [], reqs := [], stores := []
    copyq := [], gsq := [], drainq := [], attn := [], nextId := 0, deque := [], spill := 0
    cursor := (k.idx + 1) % (p.cw * p.ch), wdog := 24, qdead := 0, lod := 0, spillc := 0, beats := p.beat k.idx
    trig := false, yielded := false, ended := plan.isEmpty, reps := p.reps, vecq := [] }

/-- The core of a TEAM index in a cluster with an origin. -/
def Pipeline.coreAt (p : Pipeline) (origin idx : Nat) : Nat := origin + Config.meshSide * (idx / p.cw) + idx % p.cw

/-- Create the teams and groups of a job. -/
def State.build (s : State) (j : Job) (places : List Nat) : State :=
  let p := j.pipe
  let ks := (List.range p.nclu).flatMap (fun c => (List.range (p.cw * p.ch)).map (fun i => ({ job := j.id, clu := c, idx := i } : TeamKey)))
  let s := { s with
    teams := s.teams ++ ks.map (fun k : TeamKey => p.team k (p.coreAt (places.getD k.clu 0) k.idx))
    groups := s.groups ++ ks.flatMap (fun k : TeamKey => (p.plan k.idx).map (fun x => p.group k x)) }
  s.tevCheck j.id

/-! ### SLICE_START (R376-R378, R384, R386) -/

/-- Bytes of a copy command whose granules are not credited (R384). -/
def Cmd.remaining (c : Cmd) : Nat :=
  match c.kind with
  | .copy _ lay _ _ _ _ g _ => ((List.range lay.granules).map (fun i => if bit g i then 0 else lay.granBytes i)).sum
  | _ => 0

/-- A re-issued copy over 4 KiB asks the carillon again (R384). -/
def State.reissue (s : State) (k : TeamKey) : State :=
  match s.team k with
  | none => s
  | some t =>
    let cost (c : Cmd) : Option Nat := if 4096 < c.remaining then some (cdiv c.remaining 4096) else none
    let s := s.modTeam k (fun t => { t with copyq := t.copyq.map (fun c => { c with wait := cost c }) })
    t.copyq.foldl (fun s c =>
      match cost c with
      | some n => s.ask t.core { who := .inr (k, c.id, 0), cost := n, cyc := s.cycle, rank := energyRank c.thr.gk }
      | none => s) s

/-- A team becomes resident on a core: selection restarts (06 R192), and its copies are re-issued. One that has ended comes with
its deque (12 R342, 13 R375) and with what its threads have left in flight. -/
def State.resume (s : State) (k : TeamKey) (core : Nat) : State :=
  let s := s.modTeam k (fun t => { t with core := core, resident := true, yielded := false, qdead := 0 })
  (s.clearL1 core).reissue k

/-- A slice is loaded on the cores of its clusters (R376-R378); its budget runs from here. The cycles of a mode switch are
charged with those of the load (03 R97). -/
def State.startSlice (s : State) (j : Job) (places : List Nat) (switch : Nat) : State :=
  let n := Config.moveCycles s.fresh
  let s := s.bump.modJob j.id (fun j => { j with
    st := .running, started := true, places := places, left := j.budget, moving := n + switch })
  let s := if j.started then s else s.build j places
  (s.teams.filter (fun t => t.key.job == j.id)).foldl (fun s t =>
    s.resume t.key (j.pipe.coreAt (places.getD t.key.clu 0) t.key.idx)) s

/-- SLICE_START (R376-R378): the first ready job that fits is loaded, or one whose cores have been left for it. -/
def execSliceStart (job : Nat) (s : State) : Host.Outcome State Fault Refusal :=
  match s.job job with
  | none => .next s
  | some j =>
    match s.mayStart j with
    | none => .next s
    | some places => .next (s.startSlice j places 0)

/-! ### The invalidation of translations (12 R361, 01 R34) -/

/-- Does a TLBINV cover a translation? -/
def invEntry (k ctx va : Nat) (e : TlbEntry) : Bool :=
  if k = 0 then e.hits ctx va else if k = 1 then e.ctx == ctx else true

/-- Does a TLBINV cover an access of context c to address a that was translated by a leaf of a level? -/
def invAccess (k ctx va c a lvl : Nat) : Bool := invEntry k ctx va { ctx := c, base := a / pageSize lvl * pageSize lvl, lvl := lvl, pte := 0 }

/-- Does a TLBINV cover the outcome of a walk of context c? -/
def invResult (k ctx va c vpn : Nat) (o : WalkOut) : Bool :=
  match o with
  | .leaf _ lvl => invAccess k ctx va c (vpn * 65536) lvl
  | .fault _ => invAccess k ctx va c (vpn * 65536) 4

/-- Has a covered access been translated and not been performed (01 R34): a store, an STQ, a REPLAY? -/
def State.invWaits (s : State) (k ctx va : Nat) : Bool :=
  s.teams.any (fun t =>
    let c := s.ctxOf t.key.job
    t.stores.any (fun r => !r.spad && r.lanes.any (fun l => invAccess k ctx va c l.va l.lvl))
      || t.queues.any (fun q => q.stqs.any (fun e => invAccess k ctx va c e.va e.phys.lvl))
      || t.fills.any (fun f => ((linePieces f.va f.kind.bytes).zip f.xlat).any (fun x =>
          match x.2 with
          | .ok q => invAccess k ctx va c x.1.1 q.lvl
          | .fault _ => false)))

/-- The context in which a walk was asked for. -/
def State.askCtx (s : State) (a : Asker) : Nat :=
  match a with
  | .thread th => s.ctxOf th.gk.team.job
  | .reads th => s.ctxOf th.gk.team.job
  | .kv th => s.ctxOf th.gk.team.job
  | .unit k _ => s.ctxOf k.job
  | .prefetch _ => 4096

/-- Discard the covered translations and outcomes of walks; a covered walk in flight delivers to the accesses that wait for it
alone. -/
def State.invalidate (s : State) (k ctx va : Nat) : State :=
  { s with
    l2tlb := s.l2tlb.filter (fun e => !invEntry k ctx va e.2)
    cores := s.cores.map (fun p : Nat × Core => (p.1, { p.2 with tlb := p.2.tlb.filter (fun e => !invEntry k ctx va e) }))
    walks := s.walks.map (fun w => if k = 2 ∨ w.ctx = ctx then { w with stale := true } else w)
    results := s.results.filter (fun r => !invResult k ctx va (s.askCtx r.1) r.2.1 r.2.2)
    groups := s.groups.map (fun g => g.mapThreads (fun _ th =>
      match th.walk with
      | some (v, o) => if invResult k ctx va (s.ctxOf g.key.team.job) v o then { th with walk := none } else th
      | none => th)) }

/-- A TLBINV that a thread has begun is over once every covered access has been performed: it takes effect. -/
def State.invDone (s : State) (th : ThreadKey) (k ctx va : Nat) : Option State :=
  if s.invWaits k ctx va then none
  else some ((s.invalidate k ctx va).modThread th (fun t => { t.advance with inv := none }))

/-! ### What a save waits for (R382) -/

/-- Can a load into a queue not go on: it waits for an earlier access, or for a replay-table entry? -/
def State.fillStuck (s : State) (f : Fill) : Bool := f.stuck || !s.fillMay f

/-- Does an element of a gather wait for a walk, of its index line or of its own? -/
def State.elemWalks (s : State) (w : Who) (base idx wd : Nat) (blk : Bool) (e : GsElem) : Bool :=
  match e.ix with
  | none => s.unwalked w .read (indexVa idx wd e.i)
  | some (.num n) => e.pos.isSome && !e.done && s.unwalked w .read (elemAddr base n blk)
  | some (.fail _ _) => false

/-- Can the gather or scatter at the head of its stream not go on: its thread's earlier accesses cannot, or its queue has no
room for its next entry, or the replay table none for its poison? -/
def State.gsStuck (s : State) (k : TeamKey) : Bool :=
  match s.headCmd k 1 with
  | none => true
  | some c =>
    !s.cmdRuns c ||
    match c.kind with
    | .gath q base idx cnt wide blk next cur =>
      let wd := if wide then 8 else 4
      let cur := chunkNow cnt next cur
      !cur.isEmpty && !cur.any (s.elemWalks (s.cmdWho c) base idx wd blk) && (s.gathStep c q base idx wd blk cur).2 == cur
    | _ => false

/-- Does a flit in flight belong to the cluster of a team? -/
def Flit.inCluster (f : Flit) (k : TeamKey) : Bool := f.tk.job == k.job && f.tk.clu == k.clu

/-- Has everything that R382 lets run to completion done so, as far as it can without an instruction? -/
def State.settled (s : State) (t : Team) : Bool :=
  (s.groupsOf t.key).all (fun g => g.mmas.isEmpty
      && g.threads.all (fun th => (th.kv.map (fun v => v.out.isSome)).getD true && th.inv.isNone))
    && (s.core t.core).halted == 0#4
    && !s.flits.any (fun f => f.inCluster t.key)
    && t.reqs.isEmpty && t.drainq.isEmpty
    && t.stores.all (fun r => !s.storeReady r)
    && t.fills.all (fun f => s.fillStuck f)
    && s.gsStuck t.key

/-- The threads of a team that have begun a TLBINV. -/
def State.invalidating (s : State) (k : TeamKey) : List (ThreadKey × Nat × Nat × Nat) :=
  (s.groupsOf k).flatMap (fun g => lanes.filterMap (fun t =>
    (g.thr t).inv.map (fun x => (({ gk := g.key, thr := t } : ThreadKey), x))))

/-- A TLBINV in flight in a slice that is being pre-empted runs to completion (R382 step 3): its thread stands after it. -/
def State.finishInv (s : State) (x : ThreadKey × Nat × Nat × Nat) : State :=
  match s.invDone x.1 x.2.1 x.2.2.1 x.2.2.2 with
  | some s => s.modGroup x.1.gk (fun g => g.unhold x.1.thr)
  | none => s

/-! ### Saving (R382, R383, R387) -/

/-- The words that QPOPB delivered, where every block has arrived, in the registers of its set (06 R185): thread t of
register r takes word t mod 16 of block 2r + t / 16; an odd last block leaves zeros in threads 16-31. A cell of the handler bank
is that of the name four below (14 R392). -/
def SetBind.word (b : SetBind) (cell t : Nat) : Word :=
  let r := if b.uin.contains t && decide (32 ≤ cell) then cell - 4 else cell
  match b.slots.getD (2 * (r - b.base) + t / 16) .missing with
  | .data d => BitVec.ofNat 32 (bits d.toNat (32 * (t % 16) + 31) (32 * (t % 16)))
  | _ => 0

/-- Is a set ready to be written: all data? -/
def SetBind.whole (b : SetBind) : Bool := b.slots.all (fun x => match x with | .data _ => true | _ => false)

/-- Data that moves from queue memory is written (R186 row 9). -/
def Group.settle (g : Group) : Group :=
  let whole := g.sets.filter (fun b => b.whole)
  { g with
    sets := g.sets.filter (fun b => !b.whole)
    ols := g.ols.map (fun o => match o.st with | .transit n es => { cnt := n, es := es, st := .full } | _ => o)
    threads := (g.mapThreads (fun t th =>
      { th with regs := (List.range th.regs.length).map (fun i =>
          let c := th.regs.getD i (.mk' 0 false)
          match whole.find? (fun b => b.covers t i) with
          | some b => .mk' (BitVec.setWidth 64 (b.word i t)) false
          | none =>
            match c.st with
            | .transit v => { c with val := v, st := .full, taint := false, ecc := false }
            | _ => c) })).threads }

/-- Withdraw a team's energy requests from the island of its core. -/
def State.withdraw (s : State) (k : TeamKey) : State :=
  s.modIsland (s.coreOf k) (fun i => { i with reqs := i.reqs.filter (fun r =>
    match r.who with
    | .inl gk => gk.team != k
    | .inr (t, id, _) => !(t == k && ((s.team k).map (fun t => t.copyq.any (fun c => c.id == id))).getD false)) })

/-- A copy in flight is cancelled (R382 step 2): what it has not credited it begins anew. -/
def Cmd.cancel (c : Cmd) : Cmd :=
  { c with kind := match c.kind with
    | .copy st lay co box ph ops g _ => .copy st lay co box ph ops g {}
    | x => x }

/-- Does an asker belong to a team? -/
def Asker.ofTeam (a : Asker) (k : TeamKey) : Bool :=
  match a with
  | .thread th => decide (th.gk.team = k)
  | .reads th => decide (th.gk.team = k)
  | .kv th => decide (th.gk.team = k)
  | .unit t _ => decide (t = k)
  | .prefetch _ => false

/-- Save a team (R382 steps 2-5): destinations settle, selection restarts later, reservations end. -/
def State.saveTeam (s : State) (k : TeamKey) : State :=
  let s := (s.groupsOf k).foldl (fun (s : State) (g : Group) => s.endReservation g.key) (s.withdraw k)
  let s := { s with
    results := s.results.filter (fun r => !r.1.ofTeam k)
    groups := s.groups.map (fun g : Group => if g.key.team = k then
      { g.settle with
        hold := none, done := [], stalled := false, slotw := false, collw := false, began := none, iss := none, loop := none, wcount := 0
        threads := g.settle.threads.map (fun th : Thread => { th with walk := none }) }
    else g) }
  s.modTeam k (fun t => { t with resident := false, copyq := t.copyq.map Cmd.cancel })

/-- A restartable copy command record (R383). -/
def State.copyRecord (s : State) (c : Cmd) : List Byte :=
  let (kind, ops, next, lrec, gmap) : Nat × List Dword × Nat × List Byte × List Byte :=
    match c.kind with
    | .copy st lay _ _ _ ops g _ => (b2n st, ops, 0, blockBytes lay.raw, leBytes (roundUp (cdiv lay.granules 8) 64) g)
    | .mcast _ _ _ _ _ _ next ops => (2, ops, next, [], [])
    | .qstream _ _ _ next ops => (3, ops, next, [], [])
    | _ => (0, [], 0, [], [])
  let (fv, fid) : Nat × Nat := match c.fut with | some e => (1, e) | none => (0, 0)
  leBytes 8 (s.thrName c.thr + kind * 2 ^ 23)
    ++ (List.range 5).flatMap (fun i => leBytes 8 (ops.getD i 0).toNat)
    ++ leBytes 8 next ++ leBytes 8 (fid + fv * 2 ^ 16)
    ++ (lrec ++ List.replicate 64 0).take 64 ++ gmap

/-- Bytes of an entry of a queue. -/
def QMode.entry : QMode → Nat
  | .lane => 4
  | .block => 64
  | .outlier => 256

/-- Bytes of the entries present in a team's queues. -/
def Team.queued (t : Team) : Nat :=
  (t.queues.map (fun q => q.mode.entry * ((q.fifos.map (fun f => (f.slots.filter (fun x => x != .claimed)).length)).sum))).sum

/-- The teams of a context that stand in its save area. -/
def State.savedTeams (s : State) (ctx : Nat) : List Team :=
  s.teams.filter (fun t => s.ctxOf t.key.job == ctx && !t.resident)

/-- What the jobs of a context have reserved of its save area (R387). -/
def State.reservedSave (s : State) (ctx : Nat) : Nat := ((s.liveJobs.filter (fun j => j.ctx == ctx)).map (fun j : Job => j.need)).sum

/-- Write the header of a context's save area and its copy records (R387); where the rest of the image lies is not
architectural: the size, which every reservation bounds, and the place of the records are free (log 3). -/
def State.writeHeader (s : State) (ctx : Nat) : State :=
  match s.ctx ctx with
  | none => s
  | some c =>
    if c.saveSize = 0 then s
    else
      let ts := s.savedTeams ctx
      let recs := ts.flatMap (fun t => t.copyq.flatMap (fun c => s.copyRecord c))
      let off := 64 * (1 + (freeDword s.fresh 0).toNat % 512)
      let size := off + recs.length + (freeDword s.fresh 2).toNat % (min c.saveSize (s.reservedSave ctx) - (off + recs.length) + 1)
      let hdr := leBytes 8 size ++ leBytes 8 ((ts.map (fun t : Team => t.copyq.length)).sum)
        ++ leBytes 8 ((ts.map Team.queued).sum) ++ leBytes 8 off ++ List.replicate 32 0
      let s := s.bump
      let s := (s.writeVirt (manage ctx true) c.saveVa hdr).1
      (s.writeVirt (manage ctx true) ((c.saveVa + off) % 2 ^ 64) recs).1

/-! ### PREEMPT (R377, R379, R382) -/

/-- The teams of a job. -/
def State.teamsOf (s : State) (job : Nat) : List Team := s.teams.filter (fun t => t.key.job == job)

/-- Has every team of a slice yielded or ended, and one yielded (R379)? -/
def State.allYielded (s : State) (job : Nat) : Bool :=
  (s.teamsOf job).all (fun t => t.yielded || t.ended) && (s.teamsOf job).any (fun t => t.yielded && !t.ended)

/-- Has a team nothing left to perform (R375 step 1)? -/
def State.joined (s : State) (t : Team) : Bool :=
  t.ended && t.copyq.isEmpty && t.gsq.isEmpty && t.drainq.isEmpty && t.attn.isEmpty && t.stores.isEmpty && t.fills.isEmpty
    && t.chans.all (fun c => c.order.isEmpty && c.slots.all (fun x => x.st != SlotSt.reserved))
    && t.queues.all (fun q => q.stqs.isEmpty)
    && (s.groupsOf t.key).all (fun g => g.mmas.isEmpty)

/-- May a job end now? -/
def State.mayEnd (s : State) (j : Job) : Bool :=
  j.st != .ended && (j.started || j.aband.isSome) && (s.teamsOf j.id).all (fun t => s.joined t)

/-- Is the budget of a slice spent while it is loaded and has not ended (R378, R444): a slice whose teams have all yielded has (12
R354)? -/
def State.spent (s : State) (j : Job) : Bool :=
  (match j.st with | .running => true | .stopping oob => !oob | _ => false)
    && j.left == 0 && j.moving == 0 && !s.allYielded j.id

/-- The teams of a slice that leave their cores: all of one that has been stopped, or those that have yielded. -/
def State.leaving (s : State) (j : Job) : List Team :=
  let stop := match j.st with | .stopping _ => true | _ => false
  if j.moving != 0 then []
  else (s.teamsOf j.id).filter (fun t => t.resident && (stop || t.yielded))

/-- The teams of a slice that are to be saved, and can be. -/
def State.toSave (s : State) (j : Job) : List Team := (s.leaving j).filter (fun t => s.settled t)

/-- The TLBINVs in flight in the teams that leave, and can be completed. -/
def State.toFinish (s : State) (j : Job) : List (ThreadKey × Nat × Nat × Nat) :=
  ((s.leaving j).flatMap (fun t => s.invalidating t.key)).filter (fun x => (s.invDone x.1 x.2.1 x.2.2.1 x.2.2.2).isSome)

/-- The issue of a slice stops (R382 step 1). -/
def State.stopSlice (s : State) (job : Nat) (oob : Bool) : State := s.modJob job (fun j => { j with st := .stopping oob })

/-- Has a running slice an event of its own, which takes effect before a pre-emption (R388): its budget is spent, its job ends,
its teams have all yielded? A slice whose budget is spent in its load completes the load first (R444). -/
def State.ownEvent (s : State) (j : Job) : Bool := decide (j.left = 0) || s.mayEnd j || (j.moving == 0 && s.allYielded j.id)

/-- Is a running slice to be pre-empted (R377), or to make way for a checkpoint (15 R413) or a mode switch (03 R97)? Not while
it, or another slice of the same decision, has an event of its own (R388). -/
def State.mustLeave (s : State) (v : Job) : Bool :=
  !s.ownEvent v && (s.ckpt || s.mswitch ||
    match s.nextReady (s.partNo v) with
    | some (_, vs, _) => vs.contains v.id && !s.jobs.any (fun j => vs.contains j.id && s.ownEvent j)
    | none => false)

/-- A running slice must leave: for a checkpoint or a mode switch it stops alone; else the decision of R377 is carried out,
every slice that is pre-empted stops, and the ready job takes their cores. -/
def State.preempt (s : State) (j : Job) : State :=
  if s.ckpt || s.mswitch then s.stopSlice j.id false
  else
    match s.nextReady (s.partNo j) with
    | some (x, vs, places) =>
      (vs.foldl (fun (s : State) v => s.stopSlice v false) s).modJob x.id (fun y => { y with st := .incoming, places := places })
    | none => s

/-- Is a step of pre-emption due for a job: its slice must leave or has yielded, a TLBINV can be completed, a team can be
saved, or all are? -/
def State.preemptDue (s : State) (j : Job) : Bool :=
  match j.st with
  | .running => s.mustLeave j || (j.moving == 0 && s.allYielded j.id) || !(s.toFinish j).isEmpty || !(s.toSave j).isEmpty
  | .stopping _ => j.moving == 0 && !s.spent j
      && (!(s.toFinish j).isEmpty || !(s.toSave j).isEmpty || !(s.teamsOf j.id).any (fun t => t.resident))
  | _ => false

/-- Save the teams of a slice that can be saved, and bring the header of the save area up to date (R382, R387). -/
def State.saveSettled (s : State) (j : Job) : State :=
  let l := s.toSave j
  if l.isEmpty then s else (l.foldl (fun s t => s.saveTeam t.key) s).writeHeader j.ctx

/-- PREEMPT (R377, R379, R382): issue stops; a TLBINV in flight is completed; each team is saved once it has settled; then
the slice leaves its cores when the save has taken its cycles (R444). -/
def execPreempt (job : Nat) (s : State) : Host.Outcome State Fault Refusal :=
  match s.job job with
  | none => .next s
  | some j =>
    if !s.preemptDue j then .next s
    else
      let s := ((s.toFinish j).foldl State.finishInv s).saveSettled j
      match j.st with
      | .running =>
        if s.allYielded job then .next (s.stopSlice job false) else if s.mustLeave j then .next (s.preempt j) else .next s
      | .stopping oob =>
        if (s.teamsOf job).any (fun t => t.resident) then .next s
        else
          let n := Config.moveCycles s.fresh
          .next (s.bump.modJob job (fun j => { j with st := .saving oob, moving := n }))
      | _ => .next s

/-! ### BUDGET (R378, 14 R395) -/

/-- The threads of a team in the order of 14 R395: quadrants, the access slice, groups, threads. -/
def State.lowestLive (s : State) (k : TeamKey) : Option ThreadKey :=
  let gs := (s.groupsOf k).filter (fun g => g.threads.any (fun th => th.live))
  let rank (g : Group) : Nat := (if g.key.exe then g.key.quad else 4) * 256 + g.key.grp
  let best := gs.foldl (fun (b : Option Group) g =>
    match b with
    | none => some g
    | some x => if rank g < rank x then some g else some x) none
  best.bind (fun g => (lanes.find? (fun t => (g.thr t).live)).map (fun t => { gk := g.key, thr := t }))

/-- BUDGET (R378): a slice whose budget is spent, once it is loaded, is recorded for each team and saved; a team that has yielded
has ended its slice (12 R354). -/
def execBudget (job : Nat) (s : State) : Host.Outcome State Fault Refusal :=
  match s.job job with
  | none => .next s
  | some j =>
    if !s.spent j then .next s
    else
      let s := (s.teamsOf job).foldl (fun s t =>
        if t.ended || t.yielded then s
        else match s.lowestLive t.key with
          | some th => s.supRecord th .budget false false (s.thread th).pc 0 0
          | none => s) s
      .next (s.stopSlice job true)

/-! ### JOB_END (R375, 12 R350) -/

/-- JOB_END (R375): the events are resolved, what the job holds is released, its deque records are counted. -/
def execJobEnd (job : Nat) (s : State) : Host.Outcome State Fault Refusal :=
  match s.job job with
  | none => .next s
  | some j =>
    if !s.mayEnd j then .next s
    else
      let code := j.aband <|> j.fault
      let finish (s : State) (e : Nat) : State := (s.resolve e (code.getD 0) code.isSome).1
      let s := j.rev.foldl finish s
      let s := match j.tev with
        | some e => if (s.event e).over then s else finish s e
        | none => s
      let s := (s.teamsOf job).foldl (fun (s : State) (t : Team) => (s.groupsOf t.key).foldl (fun (s : State) (g : Group) => s.endReservation g.key) (s.withdraw t.key)) s
      let n : Nat := ((s.teamsOf job).map (fun t : Team => t.deque.length + t.spill)).sum
      let s := if n = 0 then s else s.countDev 4 n
      .next ({ s with
        teams := s.teams.filter (fun t => t.key.job != job)
        groups := s.groups.filter (fun g => g.key.team.job != job) }.modJob job (fun j => { j with st := .ended, moving := 0 }))

/-! ### Replication (R380, R381) -/

/-- Is a copy of a queue at least three quarters full (R380)? -/
def Queue.present (q : Queue) : Nat := (q.fifos.map (fun f => (f.slots.filter (fun x => x != .claimed)).length)).sum

/-- Positions of a copy at its limit. -/
def Queue.room (q : Queue) : Nat := q.fifos.length * q.limit

/-- A group as a planned group. -/
def Group.plan (g : Group) : Plan :=
  { stage := g.stage, inst := g.inst, exe := g.key.exe, quad := g.key.quad, grp := g.key.grp }

/-- The groups of a team that hold a group slot and tiles, as planned groups; here: those that have not retired alone. -/
def State.plans (s : State) (k : TeamKey) (here : Bool) : List Plan :=
  ((s.groupsOf k).filter (fun g => !(here && g.gone))).map Group.plan

/-- The queue copies of a team into a stage, or out of it. -/
def Team.copiesOf (t : Team) (p : Pipeline) (stage : Nat) (into : Bool) : List Queue :=
  t.queues.filter (fun q => (p.queues.find? (fun d => d.mode != 3 && d.name == q.ref.name)).any (fun d =>
    if into then d.dest == stage else d.frm == stage))

/-- Do the queues of a set ask for one more instance (R380)? -/
def Team.pressed (t : Team) (p : Pipeline) (set : Nat) : Bool :=
  (List.range p.stages.length).any (fun i =>
    match p.stages[i]? with
    | some g =>
      let ins := t.copiesOf p i true
      g.rset == set && g.gauge && g.at t.key.idx && !ins.isEmpty
        && ins.all (fun q => decide (3 * q.room ≤ 4 * q.present))
        && (t.copiesOf p i false).all (fun q => decide (4 * q.present ≤ q.room))
    | none => false)

/-- The stages of a replica set at a TEAM index. -/
def Pipeline.setStages (p : Pipeline) (set pos : Nat) : List Nat :=
  (List.range p.stages.length).filter (fun i =>
    match p.stages[i]? with
    | some g => g.rset == set && g.at pos
    | none => false)

/-- A set gains an instance where its queues ask for one and the core can hold it (R380): a retired group with work in flight
keeps its slot and its tiles, and its queue copies are freed (R381). -/
def State.gain (s : State) (k : TeamKey) (p : Pipeline) (set : Nat) : State :=
  match s.team k with
  | none => s
  | some t =>
    let n := t.reps.getD set 0
    let max := ((p.stages.find? (fun g => g.rset == set)).map (fun g => g.maxg)).getD 0
    if !t.pressed p set || decide (max ≤ n) then s
    else
      let old := s.plans k false
      let plan := (p.setStages set k.idx).foldl (fun l i =>
        planAdd l (((p.stages[i]?).map (fun g => g.exe)).getD false) i n) old
      let new := plan.drop old.length
      let here := s.plans k true ++ new
      if p.slotsFit plan && decide (p.queueMem k.idx here ≤ Config.queueBytes) then
        let s := { s with groups := s.groups ++ new.map (fun x => p.group k x) }
        s.modTeam k (fun t => { t with
          reps := updAt t.reps set (fun n => n + 1)
          queues := t.queues ++ (p.queues.filter (fun q => q.mode != 3)).filterMap (fun q =>
            if (p.setStages set k.idx).contains q.frm then q.copy k here n else none) })
      else s.modCore t.core (fun c => { c with repref := (c.repref + 1) % 2 ^ 64 })

/-- Is a thread BLOCKED on an empty queue (R381)? -/
def State.onEmpty (s : State) (k : TeamKey) (th : Thread) : Bool :=
  match th.blk with
  | some (.popEmpty q fifo) => ((s.team k).bind (fun t => t.queue q)).any (fun q => (q.fifo fifo).slots.isEmpty)
  | _ => false

/-- May the highest instance of a set retire (R381): at a JYIELD, or at a test point? -/
def State.mayRetire (s : State) (t : Team) (p : Pipeline) (set n : Nat) (test : Bool) : Bool :=
  let stages := p.setStages set t.key.idx
  let mine := (s.groupsOf t.key).filter (fun g => stages.contains g.stage && g.inst == n && !g.gone)
  mine.all (fun g => g.threads.all (fun th => !th.live || s.onEmpty t.key th))
    && stages.all (fun i =>
        !((p.stages[i]?).map (fun g => g.gauge)).getD false
          || ((t.copiesOf p i true).filter (fun q => q.ref.inst == n)).all (fun q =>
              q.fifos.all (fun f => f.slots.isEmpty) || (test && q.fifos.all (fun f => f.closed && !f.slots.contains (.marker true)))))

/-- Have some groups of a team still a command, an access or an MMA in flight? -/
def Team.owes (t : Team) (g : Group) : Bool :=
  !g.mmas.isEmpty || (List.range 3).any (fun n => (t.stream n).any (fun c => c.thr.gk == g.key))
    || t.stores.any (fun r => r.gk == g.key) || t.reqs.any (fun r => r.gk == g.key) || t.fills.any (fun f => f.thr.gk == g.key)
    || t.queues.any (fun q => q.stqs.any (fun e => e.thr.gk == g.key))

/-- The retired groups of a team that owe nothing leave their slots. -/
def State.sweep (s : State) (k : TeamKey) : State :=
  match s.team k with
  | some t => { s with groups := s.groups.filter (fun g => !(decide (g.key.team = k) && g.gone && !t.owes g)) }
  | none => s

/-- The remote requests and ATTD commands of groups that have gone deliver to no thread (21 R447). -/
def Team.orphan (t : Team) (mine : List GroupKey) : Team :=
  { t with
    chans := t.chans.map (fun c => { c with slots := c.slots.map (fun x =>
      { x with req := x.req.map (fun r => if mine.contains r.thr.gk then { r with dead := true } else r) }) })
    attn := t.attn.map (fun c => if mine.contains c.thr.gk then { c with dead := true } else c) }

/-- An energy request of a group is withdrawn. -/
def State.withdrawGroup (s : State) (gk : GroupKey) : State :=
  s.modIsland (s.coreOf gk.team) (fun i => { i with reqs := i.reqs.filter (fun r => r.who != .inl gk) })

/-- The stores of the STQs of a queue copy whose entries have arrived (09 R273). -/
def Queue.arrived (q : Queue) : List PendStore := q.stqs.filterMap (fun e => e.data.map (e.pend q.stqBytes))

/-- Retire the highest instance of a set if it may be (R381): its threads end, its reservations end (15 R404), its queue copies
are freed; a store whose entry has arrived stays to be performed (09 R273). A group whose commands or MMAs are in flight keeps its tiles until they are over (11 R325). -/
def State.retire (s : State) (k : TeamKey) (p : Pipeline) (set : Nat) (test : Bool) : State :=
  match s.team k with
  | none => s
  | some t =>
    let n := t.reps.getD set 0 - 1
    let least := ((p.stages.find? (fun g => g.rset == set)).map (fun g => g.groups)).getD 0
    if t.ended || t.reps.getD set 0 ≤ least || !s.mayRetire t p set n test then s
    else
      let stages := p.setStages set k.idx
      let mine := ((s.groupsOf k).filter (fun g => stages.contains g.stage && g.inst == n && !g.gone)).map (fun g : Group => g.key)
      let s := mine.foldl (fun s gk => ((s.killGroup gk).endReservation gk).withdrawGroup gk) s
      let s := mine.foldl (fun s gk => s.modGroup gk (fun g => { g with gone := true })) s
      (s.modTeam k (fun t => { t.orphan mine with
        reps := updAt t.reps set (fun n => n - 1)
        stores := t.stores ++ (t.queues.filter (fun q => mine.contains q.prod || mine.contains q.cons)).flatMap Queue.arrived
        queues := t.queues.filter (fun q => !(mine.contains q.prod || mine.contains q.cons)) })).sweep k

/-- REPLICATION_TEST (R380, R381): the test point of a core, skipped while its slice is saved or loaded (R388). -/
def execReplicationTest (k : TeamKey) (s : State) : Host.Outcome State Fault Refusal :=
  match s.job k.job, s.team k with
  | some j, some t =>
    if s.cycle % 1024 != 0 || j.st != .running || j.moving != 0 || !t.resident || t.yielded || t.ended then .next s
    else .next ((List.range 7).foldl (fun s i => ((s.sweep k).retire k j.pipe (i + 1) true).gain k j.pipe (i + 1)) s)
  | _, _ => .next s

/-! ### Admission by the host (R366, R373) -/

/-- ADMISSION_WRITE (R366): a write of exactly 64 bytes, aligned, is a record; any other is discarded and counted. While
the queue is full the endpoint takes no write. -/
def execAdmissionWrite (off len : Nat) (data : Block) (s : State) : Host.Outcome State Fault Refusal :=
  if len != 64 || off % 64 != 0 || decide (65536 ≤ off) then .next (s.countDev 0 1)
  else if s.admq.length < Config.admissionQueue then .next { s with admq := s.admq ++ [data] }
  else .next s

/-- ADMIT_JOB (R365, R366): the scheduler takes the oldest record; a refusal is answered with its status and its first 16
bytes. -/
def execAdmitJob (s : State) : Host.Outcome State Fault Refusal :=
  match s.admq with
  | [] => .next s
  | r :: rest =>
    if s.ckpt then .next s
    else
      let s := { s with admq := rest }
      match s.acceptJob r.toNat none with
      | .ok (_, s) => .next s
      | .error e => .next (s.answer (.admission e (r.setWidth 128)))

/-- REGISTRATION_RETRY (R373): the registrations that a node still owes are repeated. -/
def execRegistrationRetry (job : Nat) (s : State) : Host.Outcome State Fault Refusal :=
  match s.job job with
  | none => .next s
  | some j =>
    if s.cycle % 1024 != 0 || j.st != .node then .next s
    else .next (j.regs.foldl (fun s e => s.registerWev job e) (s.modJob job (fun j => { j with regs := [] })))

end Sys2Proof.Machine
end

