-- ==== Sys2Proof/Machine/Jobs.lean ====
section
/-! DEFINITION. The job instructions (12 R351-R355, 15 R404) and the privileged instructions (12 R359-R363). -/

namespace Sys2Proof.Machine

/-! ### Job instructions -/

/-- JLAUNCH (12 R352): the record is read from the scratchpad once, and admitted; a release at .dev scope. While a checkpoint
runs it waits, for admission is stopped (15 R413). -/
def execJlaunch (f : OpSteal) (s : State) : Host.Outcome State Fault Refusal :=
  execLanes s (.jlaunch f) { guard := f.g, srcs := [src f.a], dsts := [f.d.toNat], keep := true } (fun s th =>
    let k := th.gk.team
    let off := (s.thread th).rn th.gk.exe f.a.toNat
    if off % 64 != 0 || decide (Config.spadBytes ≤ off) then Act.cause s th .badarg
    else afterQuiet s th (fun s =>
      if s.ckpt then .hold s false
      else if s.spadEcc k off 64 then Act.raise s th (.eccAt off (s.thread th).pc)
      else
        let taint := (s.thread th).taintOf th.gk.exe f.a.toNat
        let (v, ok, s) : Nat × Bool × State :=
          match s.acceptJob (leNat (s.spadRead k off 64)) (some (s.ctxOf k.job)) with
          | .ok (id, s) => (id, true, s)
          | .error e => (e, false, s)
        .done ((s.clearPoison th f.d.toNat).modThread th (fun t =>
          ((t.wn th.gk.exe f.d.toNat v taint).setPred f.ps ok).advance))))

/-- TRIGGER (12 R353): a release; TEV resolves once every team has triggered or ended. -/
def execTrigger (f : OpG) (s : State) : Host.Outcome State Fault Refusal :=
  execLanes s (.trigger f) { guard := f.g, srcs := [], dsts := [] } (fun s th => afterQuiet s th (fun s =>
    let k := th.gk.team
    Act.next ((s.modTeam k (fun t => { t with trig := true })).tevCheck k.job) th))

/-- A team yields its slice, once (12 R354, 13 R379, R381): its reservations end, its idle replicas retire. -/
def State.yieldTeam (s : State) (k : TeamKey) : State :=
  match s.team k, s.job k.job with
  | some t, some j =>
    if t.yielded then s
    else
      let s := (s.groupsOf k).foldl (fun (s : State) (g : Group) => s.endReservation g.key) s
      let s := (List.range 7).foldl (fun s i => s.retire k j.pipe (i + 1) false) s
      let s := s.modTeam k (fun t => { t with yielded := true })
      if s.allYielded k.job then s.stopSlice k.job false else s
  | _, _ => s

/-- JYIELD (12 R354): the issuing threads resume after it, in the next slice. -/
def execJyield (f : OpG) (s : State) : Host.Outcome State Fault Refusal :=
  withPass s (fun p g =>
    let op : Op := { guard := f.g, srcs := [], dsts := [] }
    let s := runLanes p g (s.forbids p.gk (.jyield f)) op (fun s th => Act.next (s.yieldTeam th.gk.team) th) s [] none p.sel
    if p.sel.any (fun t => (g.thr t).pred f.g) then s.withSel [] else s)

/-- Has an earlier lane of the LEAVE being executed been granted: it stands at the next word? Its reservation stands while the
set stalls (12 R355). -/
def State.leaveStands (s : State) (th : ThreadKey) (guard : BitVec 3) : Bool :=
  match s.pass, s.group th.gk with
  | some p, some g => (p.sel ++ g.done).any (fun u =>
      decide (u < th.thr) && (g.thr u).pred guard && (g.thr u).cand && decide ((g.thr u).pc = p.pc + 4))
  | _, _ => false

/-- Does the request of a group's LEAVE wait for its grant? -/
def State.leaveAsked (s : State) (gk : GroupKey) : Bool :=
  (s.island (s.coreOf gk.team)).reqs.any (fun q => q.who == .inl gk && q.swap)

/-- LEAVE (12 R355, 15 R404): the group's reservation returns, and the new one is granted as any request. That of the lane
before returns at the grant. The limit is that of the moment of the request. -/
def execLeave (f : OpDa) (s : State) : Host.Outcome State Fault Refusal :=
  execLanes s (.leave f) { guard := f.g, srcs := [src f.a], dsts := [f.d.toNat], keep := true } (fun s th =>
    let r := (s.thread th).rn th.gk.exe f.a.toNat % 2 ^ 32
    let taint := (s.thread th).taintOf th.gk.exe f.a.toNat
    let granted := ((s.group th.gk).map (fun g => g.leave == some r)).getD false
    if !granted && !s.leaveAsked th.gk && decide ((s.island (s.coreOf th.gk.team)).rate < r) then Act.cause s th .badarg
    else if r = 0 then Act.ret (s.endReservation th.gk) th f.d.toNat 0 taint
    else if granted then
      Act.ret (s.modGroup th.gk (fun g => { g with leave := none })) th f.d.toNat r taint
    else
      let s := if s.leaveStands th f.g then s else s.endReservation th.gk
      .hold (s.ask (s.coreOf th.gk.team)
        { who := .inl th.gk, cost := r, cyc := s.cycle, rank := energyRank th.gk, swap := true }) true)

/-! ### SRET (12 R360) -/

/-- SRET (12 R360). -/
def execSret (f : OpSret) (s : State) : Host.Outcome State Fault Refusal :=
  execLanes s (.sret f) { guard := f.g, srcs := [src f.a], dsts := [f.d.toNat], keep := true } (fun s th =>
    let n := (s.thread th).rn th.gk.exe f.a.toNat
    let taint := (s.thread th).taintOf th.gk.exe f.a.toNat
    if n / 2 ^ 23 != 0 then Act.cause s th .badarg
    else
      let (s, ok) : State × Bool :=
        match s.named n with
        | some x => s.sretThread x f.m
        | none => (s, false)
      Act.ret s th f.d.toNat (b2n !ok) taint)

/-! ### TLBINV (12 R361, 01 R34) -/

/-- TLBINV (12 R361): d names the context; it holds the thread until every covered access has been performed. -/
def execTlbinv (f : OpTlbinv) (s : State) : Host.Outcome State Fault Refusal :=
  execLanes s (.tlbinv f) { guard := f.g, srcs := [src f.a, src f.d], dsts := [] } (fun s th =>
    let ctx := (s.thread th).rn th.gk.exe f.d.toNat
    let va := (s.thread th).rn th.gk.exe f.a.toNat
    match s.invDone th f.k.toNat ctx va with
    | some s => .done s
    | none => .hold (s.modThread th (fun t => { t with inv := some (f.k.toNat, ctx, va) })) false)

/-! ### CTXQ (12 R362) -/

/-- A dword of the header of a context's save area (13 R387); a free value where it cannot be read. -/
def State.saveHeader (s : State) (c : Ctx) (i : Nat) : Nat × State :=
  if c.saveSize = 0 then (0, s)
  else match s.readVirt (manage c.ctxid true) ((c.saveVa + 8 * i) % 2 ^ 64) 8 with
    | .ok bs => (leNat bs, if s.shared then s else s.bump)
    | .error _ => ((freeDword s.fresh 0).toNat, s.bump)

/-- An item about a context (12 R362). -/
def State.ctxItem (s : State) (ctx item : Nat) : Nat × State :=
  match s.ctx ctx with
  | none => (0, s)
  | some c =>
    let mine := s.liveJobs.filter (fun j => j.ctx == ctx)
    if item = 0 then
      (if c.ended then 3
       else if mine.any (fun j => (s.teamsOf j.id).any (fun t => t.resident)) then 1
       else if mine.any (fun j => j.started) then 2 else 0, s)
    else if item = 1 then (c.saveVa, s)
    else if item = 2 then (c.saveSize, s)
    else
      let r := s.saveHeader c (item - 2)
      (if item = 3 then r.1 % 2 ^ 32 else r.1, r.2)

/-- CTXQ (12 R362). -/
def execCtxq (f : OpCtxq) (s : State) : Host.Outcome State Fault Refusal :=
  execLanes s (.ctxq f) { guard := f.g, srcs := [src f.a], dsts := [f.d.toNat], keep := true } (fun s th =>
    let t := s.thread th
    let (v, s) := s.ctxItem (t.rn th.gk.exe f.a.toNat % 4096) f.item.toNat
    Act.ret s th f.d.toNat v (t.taintOf th.gk.exe f.a.toNat))

/-! ### HALTQ (12 R363) -/

/-- HALTQ (12 R363). -/
def execHaltq (f : OpDa) (s : State) : Host.Outcome State Fault Refusal :=
  execLanes s (.haltq f) { guard := f.g, srcs := [src f.a], dsts := [f.d.toNat], keep := true } (fun s th =>
    let v := (s.thread th).rn th.gk.exe f.a.toNat
    let taint := (s.thread th).taintOf th.gk.exe f.a.toNat
    let core := bits v 9 0
    let q := bits v 11 10
    if v / 2 ^ 13 != 0 || decide (Config.cores ≤ core) then Act.cause s th .badarg
    else
      let was := (s.core core).halted.getLsbD q
      let s := s.modCore core (fun c => { c with
        halted := if bit v 12 then c.halted ||| (1#4 <<< q) else c.halted &&& ~~~(1#4 <<< q) })
      Act.ret s th f.d.toNat (b2n was) taint)

end Sys2Proof.Machine
end

