-- ==== Sys2Proof/Machine/Watch.lean ====
section
/-! DEFINITION. Page walks as events (01 R28-R31), the carillon's grants and replenishment (15 R401-R405), the watchdog
(06 R182), queue deadlock (06 R189, R190), and the device machine check (14 R397, R398). -/

namespace Sys2Proof.Machine

/-! ### Page walks -/

/-- May a walker take a walk: one is free, and no other walk of the page is in flight (R28, R29)? -/
def State.walkMay (s : State) (w : Walk) : Bool :=
  !w.walking && decide ((s.walks.filter (fun x => x.walking)).length < Config.walkers)
    && !s.walks.any (fun x => x.walking && x.ctx == w.ctx && s.samePage w.ctx (x.vpn * 65536) (w.vpn * 65536))

/-- PAGE_WALK_START (R29): the oldest request that a walker can take. -/
def execPageWalkStart (s : State) : Host.Outcome State Fault Refusal :=
  match s.walks.findIdx? s.walkMay with
  | some i => .next { s with walks := updAt s.walks i (fun w => { w with walking := true }) }
  | none => .next s

/-- Does an access still wait for a walk? -/
def State.waiting (s : State) (a : Asker) : Bool :=
  match a with
  | .thread th => s.resident th.gk.team && (s.thread th).live
  | .reads th => s.resident th.gk.team && (s.thread th).live
  | .kv th => ((s.thread th).kv.map (fun k => k.out.isNone)).getD false
  | .unit k _ => (s.team k).isSome
  | .prefetch _ => true

/-- The outcome of a walk reaches an access that asked for it for some 64 KiB. -/
def State.walked (s : State) (a : Asker) (vpn : Nat) (out : WalkOut) : State :=
  match a with
  | .thread th => s.modThread th (fun x => { x with walk := some (vpn, out) })
  | .reads _ => { s with results := s.results ++ [(a, vpn, out)] }
  | .kv _ => { s with results := s.results ++ [(a, vpn, out)] }
  | .unit _ _ => { s with results := s.results ++ [(a, vpn, out)] }
  | .prefetch _ => s

/-- A leaf that a walk has found enters the second-level cache and the TLB of every core that waited for it (R26, R27). -/
def State.walkFills (s : State) (ctx va : Nat) (ws : List (Asker × Nat)) (pte : Dword) (lvl : Nat) : State :=
  let e : TlbEntry := { ctx := ctx, base := va / pageSize lvl * pageSize lvl, lvl := lvl, pte := pte }
  let s := ((ws.map (fun x => x.2)).eraseDups).foldl (fun s v => s.l2tlbFill (v * 65536) e) s
  ((ws.map (fun x => s.askCore x.1)).eraseDups).foldl (fun s c => s.tlbFill c e) s

/-- Does the outcome of a walk made for some 64 KiB answer a request for others: a fault does, a leaf where they lie in its
page? -/
def WalkOut.answers (o : WalkOut) (vpn other : Nat) : Bool :=
  match o with
  | .leaf _ lvl => vpn * 65536 / pageSize lvl == other * 65536 / pageSize lvl
  | .fault _ => true

/-- PAGE_WALK_RESULT (R28, R31): every access that waits receives the leaf or the fault; a leaf enters the caches
unless a TLBINV has covered it (12 R361). A request that was taken to be for the page, which has been split since, asks
again. -/
def execPageWalkResult (ctx vpn : Nat) (s : State) : Host.Outcome State Fault Refusal :=
  match s.walks.find? (fun w => w.walking && w.ctx == ctx && w.vpn == vpn) with
  | none => .next s
  | some w =>
    let va := vpn * 65536
    let out := s.walk ctx va
    let s := ({ s with walks := s.walks.filter (· != w) } : State).walkTouch ctx va
    let ws := w.waiters.filter (fun x => s.waiting x.1 && out.answers vpn x.2)
    let s := match out with
      | .leaf pte lvl => if w.stale then s else s.walkFills ctx va ws pte lvl
      | .fault _ => s
    .next (ws.foldl (fun (s : State) x => s.walked x.1 x.2 out) s)

/-! ### The carillon -/

/-- The part of a request's cost that LEVEL has to cover (R404). -/
def State.fromLevel (s : State) (r : EReq) : Nat :=
  match r.who with
  | .inl gk => ((s.group gk).map (fun g => g.rest r.cost)).getD r.cost
  | .inr _ => r.cost

/-- The account of an island as the request of a LEAVE finds it: the reservation that it replaces has returned (R404). -/
def State.swapped (s : State) (r : EReq) (i : Island) : Island :=
  match r.who with
  | .inl gk => { i with level := min (i.level + ((s.group gk).map (fun g => g.resv)).getD 0) i.cap }
  | .inr _ => i

/-- What a grant gives its requester: that of a LEAVE is the group's reservation from then on (R404). -/
def State.granted (s : State) (n : Nat) (r : EReq) : State :=
  match r.who with
  | .inl gk => s.modGroup gk (fun g =>
      if r.swap then { g with leave := some r.cost, resv := r.cost, stalled := false }
      else { g with grant := some r.cost, resv := g.resv - r.cost, stalled := false })
  | .inr (k, id, u) =>
    if 928 ≤ n then
      let s := match s.att k id with
        | some c => s.sketch c.thr c.pc 6 r.cost
        | none => s
      s.modAtt k id (fun c => { c with charged := c.charged ++ [u] })
    else
      let s := match (s.team k).bind (fun t => t.copyq.find? (fun c => c.id == id)) with
        | some c => s.sketch c.thr c.pc 6 r.cost
        | none => s
      s.modTeam k (fun t => { t with copyq := t.copyq.map (fun c => if c.id = id then { c with wait := none } else c) })

/-- What the grant of the first request of an island would leave its account as, and what it charges; none where its level does
not cover it. -/
def State.grantOf (s : State) (n : Nat) : Option (EReq × Island) :=
  let i := s.island n
  match i.reqs with
  | [] => none
  | r :: rest =>
    let j : Island := if r.swap then s.swapped r i else i
    let c := if r.swap then r.cost else s.fromLevel r
    if j.grants c then some (r, { j.charge c with reqs := rest }) else none

/-- CARILLON_GRANT (R403, R404): the first request of an island, where its level covers it. -/
def execCarillonGrant (island : Nat) (s : State) : Host.Outcome State Fault Refusal :=
  match s.grantOf island with
  | some (r, i) => .next ((s.modIsland island (fun _ => i)).granted island r)
  | none => .next s

/-- Tokens held in reservations on an island (R405). -/
def State.reserved' (s : State) (n : Nat) : Nat :=
  ((s.groups.filter (fun g => s.resident g.key.team && s.coreOf g.key.team == n)).map (fun g => g.resv)).sum

/-- The 16 bytes of an entry of the energy table (R405). -/
def State.energyEntry (s : State) (n : Nat) : List Byte :=
  let i := s.island n
  leBytes 8 (wrapN 32 i.level + s.reserved' n % 2 ^ 32 * 2 ^ 32) ++ leBytes 8 i.used

/-- REPLENISH (R401, R405): at each microsecond, before the requests of the cycle; then the energy table. -/
def execReplenish (s : State) : Host.Outcome State Fault Refusal :=
  if s.cycle % 1200 != 0 then .next s
  else
    let s := { s with islands := s.islands.map (fun x : Nat × Island => (x.1, { x.2 with level := min (x.2.level + x.2.rate) x.2.cap })) }
    match s.etab with
    | some a => .next (((List.range 1024).foldl (fun t n => t.writePhys 0 (a + 16 * n) (s.energyEntry n)) s).dropL1 a 16384)
    | none => .next s

/-! ### The watchdog (06 R182) -/

/-- Does the KV operation of a thread of a group wait for a walker (01 R29)? -/
def State.kvWalking (s : State) (gk : GroupKey) : Bool :=
  s.walks.any (fun w => !w.walking && w.waiters.any (fun x =>
    match x.1 with
    | .kv th => decide (th.gk = gk)
    | _ => false))

/-- Does the watchdog count of a group advance in a cycle? It stands while a thread of the team is stopped by the debugger (16
R416). -/
def State.watching (s : State) (g : Group) : Bool :=
  s.canIssue g && !g.stalled && !s.kvWalking g.key && g.cands.any (fun t => !g.selected.contains t)
    && !s.groups.any (fun h => decide (h.key.team = g.key.team)
      && h.threads.any (fun th => th.live && (th.stop.map (fun x => x.debug)).getD false))

/-- WDOG (R182): the threads of the selected set take the cause. -/
def execWdog (gk : GroupKey) (s : State) : Host.Outcome State Fault Refusal :=
  match s.group gk, s.team gk.team with
  | some g, some t =>
    if s.resident gk.team && !g.ended && decide (2 ^ t.wdog ≤ g.wcount) then
      let s := s.modGroup gk (fun g => { g with wcount := 0 })
      .next (g.selected.foldl (fun (s : State) i => s.takeTrap { gk := gk, thr := i } (.at .wdog (g.thr i).pc)) s)
    else .next s
  | _, _ => .next s

/-! ### Queue deadlock (06 R189, R190) -/

/-- Is a command in flight that will push into a queue (R189)? -/
def Team.producing (t : Team) (q : QRef) : Bool :=
  t.copyq.any (fun c => match c.kind with | .qstream r _ _ _ _ => r == q | _ => false)
  || t.gsq.any (fun c => match c.kind with | .gath r _ _ _ _ _ _ _ => r == q | _ => false)
  || t.fills.any (fun f => match f.tgt with | .pos r _ _ => r == q | _ => false)
  || t.attn.any (fun c => c.dst == some q)
  || t.chans.any (fun c => c.slots.any (fun x => x.st != SlotSt.free && (x.req.map (fun r => r.dk == some q)).getD false))

/-- Is an STQ bound to a position of a queue (R189)? -/
def Team.storing (t : Team) (q : QRef) : Bool := ((t.queue q).map (fun x => !x.stqs.isEmpty)).getD false

/-- Has the queue of a binding no command in flight that will push into it (R189)? A replay in flight is its own. -/
def Team.lost (t : Team) (b : Binding) : Bool :=
  match b with
  | .pos q _ _ => !t.producing q
  | .replay _ q => !(q.map t.producing).getD false
  | .fill id => !t.fills.any (fun f => f.id == id)

/-- The bindings that a register cell of a thread waits for. -/
def Thread.waits (th : Thread) (cell : Nat) : List Binding :=
  match (th.regs.getD cell (.mk' 0 false)).st with
  | .wait b _ => [b]
  | _ => []

/-- The bindings that a register set waits for. -/
def SetBind.waits (b : SetBind) : List Binding :=
  (List.range b.slots.length).filterMap (fun i =>
    match b.slots.getD i .missing with
    | .missing => some (.pos b.q 0 (b.pos + i))
    | .replaying x => some x
    | _ => none)

/-- The bindings that a list register waits for. -/
def OlReg.waits (o : OlReg) : List Binding :=
  match o.st with
  | .wait b _ => [b]
  | _ => []

/-- The bindings of the condition on which thread i of a group is blocked on a register. -/
def Group.waitsOf (g : Group) (i : Nat) (b : Blk) : List Binding :=
  let cell (r t : Nat) : List Binding :=
    match g.setOf t r with
    | some x => x.waits
    | none => (g.thr t).waits r
  match b with
  | .regRead r => cell r i
  | .regWrite r => cell r i
  | .fragRead r => lanes.flatMap (cell r)
  | .fragWrite r => lanes.flatMap (cell r)
  | .olRead o => ((g.ols[o]?).map OlReg.waits).getD []
  | .olWrite o => ((g.ols[o]?).map OlReg.waits).getD []
  | _ => []

/-- Is thread i of a group blocked on a condition that nothing in flight can end (R190)? -/
def Team.deadThread (t : Team) (g : Group) (i : Nat) : Bool :=
  match (g.thr i).blk with
  | none => false
  | some (.push q _ _) => !t.storing q
  | some (.popEmpty q _) => !t.producing q
  | some (.phaser _ _ _ _ _) => false
  | some (.future _ _) => false
  | some b => (g.waitsOf i b).any t.lost

/-- Does R190 hold for a team in this cycle? -/
def State.deadlocked (s : State) (t : Team) : Bool :=
  let l := (s.groupsOf t.key).flatMap (fun g => (lanes.filter (fun i => (g.thr i).live)).map (fun i => (g, i)))
  !l.isEmpty && l.all (fun x => t.deadThread x.1 x.2)

/-- Is any thread of a team STOPPED? -/
def State.anyStopped (s : State) (k : TeamKey) : Bool := (s.groupsOf k).any (fun g => g.threads.any (fun th => th.live && th.stop.isSome))

/-- QDEAD (R190): the lowest LIVE thread of each group takes it, and every group of the team ends. -/
def execQdead (tk : TeamKey) (s : State) : Host.Outcome State Fault Refusal :=
  match s.team tk with
  | none => .next s
  | some t =>
    if t.qdead < 4096 then .next s
    else
      let s := s.modTeam tk (fun t => { t with qdead := 0 })
      .next (((s.groupsOf tk).filter (fun g => !g.ended)).foldl (fun (s : State) g =>
        s.fatal g.key (((s.group g.key).bind (fun h => lanes.find? (fun i => (h.thr i).live))).toList) .qdead) s)

/-! ### Device machine check (R397, R398) -/

/-- The sources of R397. -/
def recordSource (src : Nat) : Bool :=
  decide (src < Config.cores) || (decide (0x400 ≤ src) && decide (src < 0x500)) || (decide (0x500 ≤ src) && decide (src < 0x508))
    || (decide (0x510 ≤ src) && decide (src < 0x518)) || (decide (0x520 ≤ src) && decide (src ≤ 0x522))

/-- A record of an error in state that no thread owns (R397): THR = 0; its context, depth and PC, which no thread gives, are free
values (log 3). -/
def State.machineCheck (s : State) (src : Nat) : State :=
  let f := (Config.free s.fresh).toNat
  s.bump.record src (Cause.mchk.code + bits f 19 0 * 2 ^ 39) (bits f 120 64) 0 0

/-- An entry of queue memory that holds an uncorrectable error is a poison entry of CLASS 1 (R398). -/
def QSlot.spoil (x : QSlot) : QSlot :=
  match x with
  | .data _ => .poison { va := BitVec.ofNat 64 Config.eccVa, sp := false, rtag := 0xFFFF, kind := 0, cls := 1 }
  | y => y

/-- What an error of a memory cell leaves (R398, log 60): what the cell then holds is undefined. A corrected error is counted (16 R422). -/
def State.softError (s : State) (e : SoftErr) : State :=
  match e with
  | .state src => if recordSource src then s.machineCheck src else s
  | .hbm line => if 64 * line < Config.deviceBytes then s.hbmBad line else s
  | .l2 ix => { s with l2 := updAt s.l2 ix (fun x => { x with bad := true }) }
  | .spad k line => s.spoilSpad k line
  | .reg th cell => (s.modThread th (fun t => { t with
      regs := updAt t.regs cell (fun c => { c with ecc := true, val := freeResult s.fresh }) })).bumpBy 1
  | .rstack th d => s.modThread th (fun t => if t.rsEcc.contains d then t else { t with rsEcc := t.rsEcc ++ [d] })
  | .response k ch n piece => s.modSlot k ch n (fun x => x.spoil piece)
  | .queue k name inst fifo ix =>
    s.modFifo k { name := name, inst := inst } fifo (fun f => { f with slots := updAt f.slots ix QSlot.spoil })
  | .tile gk n i => (s.modGroup gk (fun g => { g with tiles := updAt g.tiles n (fun t =>
      { t with ecc := true, cells := updAt t.cells i (fun _ => freeCell s.fresh 0) }) })).bumpBy 1
  | .list gk n => s.modGroup gk (fun g => { g with ols := updAt g.ols n (fun o => { o with ecc := true }) })
  | .icache core ix => if core < Config.cores then s.modCore core (fun c => { c with icache := c.icache.eraseIdx ix }) else s
  | .corrected (some core) => if core < Config.cores then s.modCore core (fun c => { c with corr := (c.corr + 1) % 2 ^ 64 }) else s
  | .corrected none => s.countDev 6 1

/-- MCHK (R397, R398): an error of a memory cell. -/
def execMchk (err : SoftErr) (s : State) : Host.Outcome State Fault Refusal := .next (s.softError err)

end Sys2Proof.Machine
end

