-- ==== Sys2Proof/Machine/Host.lean ====
section
/-! DEFINITION. What the host does: power-on (01 R41), the device-memory window (15 R408), and the commands of the
management mailbox (15 R409, R448) with what they do to slots, contexts, jobs, partitions and the carillon
(01 R37, R38, R42, 03 R97, 13 R374, R378, R379, R387, 15 R401, R405, R411-R413). -/

namespace Sys2Proof.Machine

/-- POWER_ON (01 R41): the part as it stands after power-on. -/
def execPowerOn (_s : State) : Host.Outcome State Fault Refusal := .next State.reset

/-! ### The device-memory window (R408) -/

/-- Bytes of the window. -/
def windowBytes : Nat := 2 ^ 30

/-- HOST_WINDOW_READ (R408): the data, an abort, or a poisoned completion with bytes of all ones; what fails is counted once. -/
def execHostWindowRead (off len : Nat) (s : State) : Host.Outcome State Fault Refusal :=
  if windowBytes < off + len ∨ len = 0 then .next s
  else if (s.slot s.window.2).st != .loaded then .next ((s.countDev 9 1).answer .readAbort)
  else match s.readPhys s.window.2 (s.window.1 + off) len with
    | .ok bs => .next (s.answer (.read bs))
    | .keymis => .next ((s.countDev 9 1).answer .readAbort)
    | .ecc => .next ((s.countDev 9 1).answer (.readPoisoned (List.replicate len 0xFF)))

/-- HOST_WINDOW_WRITE (R408): discarded and counted while the slot is not LOADED. -/
def execHostWindowWrite (off : Nat) (data : List Byte) (s : State) : Host.Outcome State Fault Refusal :=
  if windowBytes < off + data.length ∨ data = [] then .next s
  else if (s.slot s.window.2).st != .loaded then .next (s.countDev 9 1)
  else .next ((s.writePhys s.window.2 (s.window.1 + off) data).dropL1 (s.window.1 + off) data.length)

/-! ### Statuses (R448) -/

/-- Statuses of a mailbox response. -/
def stDone : Nat := 0
def stBadcmd : Nat := 1
def stBadarg : Nat := 2
def stBadstate : Nat := 3
def stBadwrap : Nat := 4
def stBadpart : Nat := 5
def stOverlap : Nat := 6

/-! ### Key slots (01 R37, R42) -/

/-- Change a key slot. -/
def State.setSlot (s : State) (n : Nat) (k : KeySlot) : State := { s with slots := tabSet s.slots n k }

/-- The scrub of R42: every line that carries the slot's tag is written with zeros under slot 0. -/
def State.scrub (s : State) (n : Nat) : State :=
  let ls := (s.tags.filter (fun t => t.2.1 == n)).map (fun t => t.1)
  { s with
    mem := s.mem.filter (fun c => !ls.contains (c.1 / 64))
    l2 := s.l2.filter (fun x => x.slot != n && !(x.slot == 0 && ls.contains x.line))
    tags := s.tags.filter (fun t => t.2.1 != n)
    bad := s.bad.filter (fun l => !ls.contains l)
    cores := s.cores.map (fun c : Nat × Core => (c.1, { c.2 with l1 := c.2.l1.filter (fun l => !ls.contains (l.line / 64)) })) }

/-- A key load into a client slot: refused where the slot is not EMPTY or the key does not unwrap; the epoch moves up
(R37). -/
def State.loadKey (s : State) (n : Nat) (unwraps : Bool) : Nat × State :=
  if n = 0 ∨ 255 < n then (stBadarg, s)
  else if (s.slot n).st != .empty then (stBadstate, s)
  else if !unwraps then (stBadwrap, s)
  else
    let e := (s.slot n).epoch
    let s := if e = 255 then s.scrub n else s
    (stDone, s.setSlot n { st := .loaded, epoch := (e + 1) % 256 })

/-- The release of a slot (R37). -/
def State.freeSlot (s : State) (n : Nat) : Nat × State :=
  if n = 0 ∨ 255 < n then (stBadarg, s)
  else if (s.slot n).st != .destroyed then (stBadstate, s)
  else (stDone, s.setSlot n { s.slot n with st := .empty })

/-! ### Contexts -/

/-- The context of an id that has not ended. -/
def State.liveCtx' (s : State) (c : Nat) : Option Ctx := s.ctxs.find? (fun x => x.ctxid == c && !x.ended)

/-- Change a context. -/
def State.modCtx (s : State) (c : Nat) (f : Ctx → Ctx) : State :=
  { s with ctxs := s.ctxs.map (fun x => if x.ctxid = c then f x else x) }

/-- The jobs of a context that have not ended. -/
def State.jobsIn (s : State) (c : Nat) : List Job := s.liveJobs.filter (fun j => j.ctx == c)

/-- Does a slice of the context stand on cores? -/
def State.sliceIn (s : State) (c : Nat) : Bool := (s.jobsIn c).any (fun j => !j.cores.isEmpty)

/-- The creation of a context (01 R13, R14, R36): for context 0 it sets the descriptor anew. -/
def State.createCtx (s : State) (d : CtxDesc) : Nat × State :=
  if 4095 < d.ctxid ∨ 7 < d.part ∨ 255 < d.ownslot ∨ 2 ^ 34 ≤ d.root ∨ (s.shared ∧ d.part ≠ 0)
      ∨ (d.ownslot ≠ 0 ∧ s.ctxs.any (fun c => !c.ended && c.ownslot == d.ownslot && c.ctxid != d.ctxid)) then (stBadarg, s)
  else if (s.liveCtx' d.ctxid).isSome && (d.ctxid != 0 || !(s.jobsIn 0).isEmpty) then (stBadstate, s)
  else
    let c : Ctx := { ctx0 with ctxid := d.ctxid, part := d.part, ownslot := d.ownslot, root := d.root, slotmask := d.slotmask }
    (stDone, { s with ctxs := s.ctxs.filter (fun x => x.ctxid != d.ctxid) ++ [c] })

/-- The save area (13 R387). -/
def State.setSave (s : State) (c va size : Nat) : Nat × State :=
  if (s.liveCtx' c).isNone || va % 65536 != 0 || size % 65536 != 0 || decide (2 ^ 64 < va + size) || !canonical va then (stBadarg, s)
  else if s.sliceIn c || !(s.jobsIn c).isEmpty then (stBadstate, s)
  else (stDone, s.modCtx c (fun x => { x with saveVa := va, saveSize := size }))

/-- The event range (13 R374). -/
def State.setRange (s : State) (c base count : Nat) : Nat × State :=
  if (s.liveCtx' c).isNone || decide (65536 < base + count) then (stBadarg, s)
  else if s.ctxs.any (fun x => !x.ended && x.ctxid != c && decide (x.evBase < base + count) && decide (base < x.evBase + x.evCount)
      && decide (0 < count) && decide (0 < x.evCount)) then (stOverlap, s)
  else (stDone, s.modCtx c (fun x => { x with evBase := base, evCount := count }))

/-- The peer table (15 R411). -/
def State.setPeers (s : State) (c count : Nat) (es : List PeerEntry) : Nat × State :=
  if (s.liveCtx' c).isNone || decide (65536 < count) || es.length != count then (stBadarg, s)
  else if s.sliceIn c then (stBadstate, s)
  else (stDone, s.modCtx c (fun x => { x with peers := es }))

/-- The end of a context (01 R38 steps 2-4): the lines under its slot are written back and leave the caches, its translations
and those that name the slot go, and the slot is DESTROYED. -/
def State.finishCtx (s : State) (c : Nat) : State :=
  let own := ((s.liveCtx' c).map (fun x => x.ownslot)).getD 0
  let names (e : TlbEntry) : Bool := e.ctx == c || (own != 0 && bits e.pte.toNat 53 46 == own)
  let held (n : Nat) : Bool := own != 0 && n == own
  let s := s.l2Flush (fun x => held x.slot)
  let s := { s with
    l2tlb := s.l2tlb.filter (fun e => !names e.2)
    walks := s.walks.filter (fun w => w.ctx != c)
    cores := s.cores.map (fun x : Nat × Core => (x.1, { x.2 with
      tlb := x.2.tlb.filter (fun e => !names e)
      l1 := x.2.l1.filter (fun l => !held l.slot)
      icache := x.2.icache.map (fun l : IcLine => { l with pieces := l.pieces.map (fun p : Option IcPiece => p.filter (fun p => !held p.slot)) }) })) }
  let s := if own != 0 && (s.slot own).st == .loaded then s.setSlot own { s.slot own with st := .destroyed } else s
  s.modCtx c (fun x => { x with ended := true })

/-- END (01 R38). -/
def State.endContext (s : State) (c : Nat) : Nat × State :=
  if (s.liveCtx' c).isNone then (stBadarg, s)
  else if !(s.jobsIn c).isEmpty || s.sliceIn c then (stBadstate, s)
  else (stDone, s.finishCtx c)

/-- A job is abandoned (01 R38, 13 R375): its events will be FAULTED with the code, its slices stop issuing, and what a save
has cancelled or left waiting goes. -/
def State.abandonJob (s : State) (code : Nat) (j : Job) : State :=
  let s := s.modJob j.id (fun j => { j with aband := some code, tevDone := true })
  let s := ((s.groups.filter (fun g => g.key.team.job == j.id)).map (fun g => g.key)).foldl (fun (s : State) k => s.killGroup k) s
  { s with teams := s.teams.map (fun t : Team =>
      if t.key.job = j.id then
        { t with
          ended := true
          copyq := if t.resident then t.copyq else []
          gsq := if t.resident then t.gsq else []
          fills := if t.resident then t.fills else []
          queues := if t.resident then t.queues else t.queues.map (fun q => { q with stqs := [] }) }
      else t) }

/-- ABANDON (01 R38): every live job is abandoned; once all have ended, the context ends. None: it has still to wait. -/
def State.abandonCtx (s : State) (c code : Nat) : Option Nat × State :=
  if (s.liveCtx' c).isNone || decide (2 ^ 32 ≤ code) then (some stBadarg, s)
  else
    let s := ((s.jobsIn c).filter (fun j => j.aband.isNone)).foldl (fun (s : State) j => s.abandonJob code j) s
    if (s.jobsIn c).isEmpty then (some stDone, s.finishCtx c) else (none, s)

/-! ### Jobs (13 R378, R379) -/

/-- The state of a job that is granted a budget: one that has left the ready set, or is about to, returns to it. -/
def JobSt.refilled : JobSt → JobSt
  | .outOfBudget => .ready
  | .stopping _ => .stopping false
  | .saving _ => .saving false
  | st => st

/-- A new budget: a job that has left the ready set returns to it. -/
def State.setBudget (s : State) (job b : Nat) : Nat × State :=
  if b = 0 ∨ 2 ^ 48 ≤ b ∨ !s.liveJobs.any (fun j => j.id == job) then (stBadarg, s)
  else (stDone, s.modJob job (fun j => { j with budget := b, st := j.st.refilled }))

/-- A new deadline. -/
def State.setDeadline (s : State) (job d : Nat) : Nat × State :=
  if 2 ^ 64 ≤ d ∨ !s.liveJobs.any (fun j => j.id == job) then (stBadarg, s)
  else (stDone, s.modJob job (fun j => { j with deadline := d }))

/-! ### Partitions (03 R93, R97) -/

/-- Are the cores of a table in the mesh, and each in one partition? -/
def tableCores (t : List Partition) : Bool :=
  decide (t.length ≤ 8) && !t.isEmpty && t.all (fun p => p.cores.all (fun c => decide (c < Config.cores)))
    && decide ((t.flatMap (fun p => p.cores)).Nodup)

/-- The rules of R93 on a table. -/
def tableOk (t : List Partition) : Bool :=
  t.all (fun p => decide (1 ≤ p.scnt) && decide (p.sbase + p.scnt ≤ 8))
    && decide ((t.flatMap (fun p => (List.range p.scnt).map (p.sbase + ·))).Nodup)

/-- The slices that start at once, each charged with the switch (R97 step 4). -/
def State.startAll (s : State) (n : Nat) (js : List Nat) : State :=
  js.foldl (fun (s : State) id =>
    match s.job id with
    | some j =>
      match s.mayStart j with
      | some places => s.startSlice j places n
      | none => s
    | none => s) s

/-- The caches are emptied for a mode switch (R97 step 2): dirty lines are written back. -/
def State.emptyCaches (s : State) : State :=
  let s := s.l2Flush (fun _ => true)
  { s with
    l2tlb := [], kvHomes := [], wpart := []
    cores := s.cores.map (fun x : Nat × Core => (x.1, { x.2 with tlb := [], l1 := [] })) }

/-- SET_PARTITION_TABLE (R97): a table that changes nothing is no mode switch. When every slice has left its cores, the caches
are emptied and the table is loaded. None: slices have still to leave. -/
def State.setParts (s : State) (shared : Bool) (t : List Partition) : Option Nat × State :=
  if !shared && !tableCores t then (some stBadarg, s)
  else if !shared && !tableOk t then (some stBadpart, s)
  else if shared == s.shared && (shared || decide (t = s.parts)) then (some stDone, s)
  else if s.jobs.any (fun j => !j.cores.isEmpty) then (none, { s.unplace with mswitch := true })
  else
    let n := Config.moveCycles s.fresh
    let s := { s.bump.emptyCaches with
      mswitch := false, shared := shared
      parts := if shared then State.reset.parts else t }
    (some stDone, s.startAll n ((sortJobs (s.jobs.filter (fun j => decide (j.st = .ready)))).map (fun j : Job => j.id)))

/-! ### The carillon (15 R401, R405) -/

/-- The energy table address. -/
def State.setEtab (s : State) (a : Nat) : Nat × State :=
  if a % 16 != 0 || decide (Config.deviceBytes < a + 16384) then (stBadarg, s) else (stDone, { s with etab := some a })

/-- RATE and CAP: a CAP below LEVEL lowers it. -/
def State.setRate (s : State) (n rate cap : Nat) : Nat × State :=
  if 1023 < n ∨ rate = 0 ∨ 65535 < rate ∨ cap < rate ∨ 4 * rate < cap then (stBadarg, s)
  else (stDone, s.modIsland n (fun i => { i with rate := rate, cap := cap, level := min i.level cap }))

/-! ### The window, peers -/

/-- The device-memory window (R408). -/
def State.setWin (s : State) (base slot : Nat) : Nat × State :=
  if base % windowBytes != 0 || decide (Config.deviceBytes < base + windowBytes) || decide (255 < slot) then (stBadarg, s)
  else (stDone, { s with window := (base, slot) })

/-- The retransmission budget (R411): 1 ms to 1 s of the device reference (R406). -/
def State.setRetx (s : State) (n : Nat) : Nat × State :=
  if n < 1200000 ∨ 1200000000 < n then (stBadarg, s) else (stDone, { s with retx := n })

/-- The exposure of a range (R412). -/
def State.expose (s : State) (c lo hi : Nat) (peers : List Nat) (write : Bool) : Nat × State :=
  if (s.liveCtx' c).isNone || decide (hi ≤ lo) || decide (2 ^ 64 < hi) || peers.any (fun p => decide (65535 < p)) then (stBadarg, s)
  else (stDone, s.modCtx c (fun x => { x with expo := x.expo ++ [{ lo := lo, hi := hi, peers := peers, write := write }] }))

/-! ### Checkpoint (R413) -/

/-- Has an attention command nothing more to deliver that it can: its results have come, and its next entry finds no room? -/
def State.attStuck (s : State) (t : Team) (c : AttCmd) : Bool :=
  c.missing.isEmpty &&
    match c.out, c.dst with
    | e :: _, some q => t.attBusy c || (s.attPush t.key q e).1 == some e
    | _ :: _, none => false
    | [], _ => !c.closed

/-- Can the next completion of a channel that has landed not be delivered, nor a part of it? -/
def State.slotStuck (s : State) (k : TeamKey) (c : Channel) : Bool :=
  match c.order with
  | [] => true
  | n :: _ =>
    let todo (s : State) : Option (List QSlot) := ((s.team k).bind (fun t => t.slot c.num n)).map (fun x => x.todo)
    match s.deliverSlot k c.num n with
    | (some _, _) => false
    | (none, u) => todo u == todo s

/-- Has every attention command and remote request of a team been delivered, as far as its queues take the entries (R413 step
2)? -/
def State.atRest (s : State) (t : Team) : Bool :=
  t.attn.all (fun c => s.attStuck t c)
    && t.chans.all (fun c => c.slots.all (fun x => x.st != SlotSt.reserved) && s.slotStuck t.key c)

/-- The image of a checkpoint (R413 step 3): every line that has been written since power-on, as ciphertext with its owner tag
(01 R41), and the save areas. Every other line holds zeros under slot 0. -/
def State.image (s : State) : Image where
  lines := (s.mem.map (fun c : Host.Cell => c.1 / 64) ++ s.tags.map (fun t : Nat × (Nat × Nat) => t.1)).eraseDups.map (fun n : Nat =>
    let t := s.lineTag n
    { line := n, slot := t.1, epoch := t.2, cipher := Config.cipher t.1 t.2 n (blockOf (cellRead s.mem (64 * n) 64)) })
  bad := s.bad
  teams := s.teams
  groups := s.groups

/-- Is the place for an image one that the command can name? -/
def ckptBad (d : CkptDest) : Bool :=
  match d with
  | .host a => decide (2 ^ 64 ≤ a)
  | .peer i => decide (65535 < i)

/-- CHECKPOINT (R413): admission stops and every slice is pre-empted; the L2 writes back what HBM has still to take, and the
image is sent; what was held goes on. -/
def State.runCheckpoint (s : State) (d : CkptDest) : Option Nat × State :=
  if ckptBad d then (some stBadarg, s)
  else if s.jobs.any (fun j => !j.cores.isEmpty) || !s.teams.all s.atRest then (none, { s.unplace with ckpt := true })
  else
    let held := s.heldPeer.map Move.event
    let s := s.l2Flush (fun x => x.dirty)
    (some stDone, ({ s with ckpt := false, heldPeer := [], agenda := s.agenda ++ held } : State).answer (.image d s.image))

/-! ### The mailbox (R409) -/

/-- A mailbox command where it can be carried out: its status. None: it has still to wait. -/
def State.carryOut (s : State) (c : MCmd) : Option Nat × State :=
  let now (r : Nat × State) : Option Nat × State := (some r.1, r.2)
  match c with
  | .keyLoad n u => now (s.loadKey n u)
  | .releaseSlot n => now (s.freeSlot n)
  | .createContext d => now (s.createCtx d)
  | .setSaveArea c va size => now (s.setSave c va size)
  | .setEventRange c b n => now (s.setRange c b n)
  | .setPeerTable c n es => now (s.setPeers c n es)
  | .endCtx c => now (s.endContext c)
  | .abandon c code => s.abandonCtx c code
  | .grantBudget j b => now (s.setBudget j b)
  | .grantDeadline j d => now (s.setDeadline j d)
  | .setPartitionTable sh t => s.setParts sh t
  | .setEnergyTable a => now (s.setEtab a)
  | .setRateCap n r c => now (s.setRate n r c)
  | .setWindow b n => now (s.setWin b n)
  | .setRetransmissionBudget n => now (s.setRetx n)
  | .exposeRegion c lo hi ps w => now (s.expose c lo hi ps w)
  | .checkpoint d => s.runCheckpoint d
  | .bad => (some stBadcmd, s)

/-- The status that a response carries (R409). -/
def MboxSlot.status (b : MboxSlot) : Nat := bits b.response.toNat 7 0

/-- A mailbox slot (R409). -/
def State.mboxSlot (s : State) (slot : Nat) : MboxSlot := tabGet { busy := false, command := 0, response := 0 } s.mbox slot

/-- A response with its status; the manual leaves its other bits open (log 61). -/
def respondWith (fresh st : Nat) : Block := (Config.free fresh >>> 8 <<< 8) ||| BitVec.ofNat 512 (st % 256)

/-- A command has completed: its slot holds its response. -/
def State.respond (s : State) (slot st : Nat) : State :=
  { s.bump with mbox := tabSet s.mbox slot { s.mboxSlot slot with busy := false, response := respondWith s.fresh st } }

/-- The mailbox goes on with its commands in the order in which they started, as far as they can be carried out: each
completion writes its status and raises MSI-X vector 0. -/
def State.runMbox (s : State) : Nat → State
  | 0 => s
  | n + 1 =>
    match s.mq with
    | [] => s
    | (slot, c) :: rest =>
      match s.carryOut c with
      | (none, s) => s
      | (some st, s) =>
        (({ s with mq := rest, msix := s.msix ||| 1#64 } : State).respond slot st).runMbox n

/-- A host write that starts a command on a slot, of 64 bytes: discarded and counted while the slot is busy. -/
def State.startMbox (s : State) (slot : Nat) (bytes : Block) (c : MCmd) : State :=
  if 16 ≤ slot then s
  else
    let b := s.mboxSlot slot
    if b.busy then s.countDev 1 1
    else
      let s := { s with mbox := tabSet s.mbox slot { b with busy := true, command := bytes }, mq := s.mq ++ [(slot, c)] }
      s.runMbox s.mq.length

/-- A dword of a block is written. -/
def setDword (b : Block) (i v : Nat) : Block := blockOf ((blockBytes b).take (8 * i) ++ leBytes 8 v ++ (blockBytes b).drop (8 * i + 8))

/-- A host write of a dword at an offset of the mailbox (R409): of a slot's command, the last of which starts it; the
response is the part's to write. -/
def State.mboxWrite (s : State) (off v : Nat) : State :=
  let slot := off / 128
  let i := off % 128 / 8
  let b := s.mboxSlot slot
  let c := setDword b.command i v
  if 8 ≤ i then s
  else if i = 7 then s.startMbox slot c ((Config.mboxCommand c).getD .bad)
  else { s with mbox := tabSet s.mbox slot { b with command := c } }

/-- A read of a dword of the mailbox: of a slot's command or of its response. -/
def State.mboxRead (s : State) (off : Nat) : Nat :=
  let b := s.mboxSlot (off / 128)
  let i := off % 128 / 8
  leNat (((blockBytes (if i < 8 then b.command else b.response)).drop (8 * (i % 8))).take 8)

/-- A command that an event names whole: its 64 bytes are not the manual's (log 61). -/
def State.mboxStart (s : State) (slot : Nat) (c : MCmd) : Host.Outcome State Fault Refusal :=
  .next (s.bump.startMbox slot (Config.free s.fresh) c)

/-- KEY_LOAD (01 R37, R42). -/
def execKeyLoad (ms slot : Nat) (unwraps : Bool) (s : State) : Host.Outcome State Fault Refusal :=
  s.mboxStart ms (.keyLoad slot unwraps)

/-- RELEASE_SLOT (01 R37). -/
def execReleaseSlot (ms slot : Nat) (s : State) : Host.Outcome State Fault Refusal := s.mboxStart ms (.releaseSlot slot)

/-- CREATE_CONTEXT (01 R13). -/
def execCreateContext (ms : Nat) (desc : CtxDesc) (s : State) : Host.Outcome State Fault Refusal :=
  s.mboxStart ms (.createContext desc)

/-- SET_SAVE_AREA (13 R387). -/
def execSetSaveArea (ms ctx va size : Nat) (s : State) : Host.Outcome State Fault Refusal :=
  s.mboxStart ms (.setSaveArea ctx va size)

/-- SET_EVENT_RANGE (13 R374). -/
def execSetEventRange (ms ctx base count : Nat) (s : State) : Host.Outcome State Fault Refusal :=
  s.mboxStart ms (.setEventRange ctx base count)

/-- SET_PEER_TABLE (15 R411). -/
def execSetPeerTable (ms ctx count : Nat) (entries : List PeerEntry) (s : State) : Host.Outcome State Fault Refusal :=
  s.mboxStart ms (.setPeerTable ctx count entries)

/-- END (01 R38). -/
def execEndCtx (ms ctx : Nat) (s : State) : Host.Outcome State Fault Refusal := s.mboxStart ms (.endCtx ctx)

/-- ABANDON (01 R38). -/
def execAbandon (ms ctx code : Nat) (s : State) : Host.Outcome State Fault Refusal := s.mboxStart ms (.abandon ctx code)

/-- GRANT_BUDGET (13 R378). -/
def execGrantBudget (ms job budget : Nat) (s : State) : Host.Outcome State Fault Refusal :=
  s.mboxStart ms (.grantBudget job budget)

/-- GRANT_DEADLINE (13 R379). -/
def execGrantDeadline (ms job deadline : Nat) (s : State) : Host.Outcome State Fault Refusal :=
  s.mboxStart ms (.grantDeadline job deadline)

/-- SET_PARTITION_TABLE (03 R93, R97). -/
def execSetPartitionTable (ms : Nat) (shared : Bool) (table : List Partition) (s : State) :
    Host.Outcome State Fault Refusal := s.mboxStart ms (.setPartitionTable shared table)

/-- SET_ENERGY_TABLE (15 R405). -/
def execSetEnergyTable (ms addr : Nat) (s : State) : Host.Outcome State Fault Refusal := s.mboxStart ms (.setEnergyTable addr)

/-- SET_RATE_CAP (15 R401). -/
def execSetRateCap (ms island rate cap : Nat) (s : State) : Host.Outcome State Fault Refusal :=
  s.mboxStart ms (.setRateCap island rate cap)

/-- SET_WINDOW (15 R408). -/
def execSetWindow (ms base slot : Nat) (s : State) : Host.Outcome State Fault Refusal := s.mboxStart ms (.setWindow base slot)

/-- SET_RETRANSMISSION_BUDGET (15 R411). -/
def execSetRetransmissionBudget (ms cycles : Nat) (s : State) : Host.Outcome State Fault Refusal :=
  s.mboxStart ms (.setRetransmissionBudget cycles)

/-- EXPOSE_REGION (15 R412). -/
def execExposeRegion (ms ctx lo hi : Nat) (peers : List Nat) (write : Bool) (s : State) :
    Host.Outcome State Fault Refusal := s.mboxStart ms (.exposeRegion ctx lo hi peers write)

/-- CHECKPOINT (15 R413). -/
def execCheckpoint (ms : CkptStart) (s : State) : Host.Outcome State Fault Refusal := s.mboxStart ms.slot (.checkpoint ms.dest)

end Sys2Proof.Machine
end

