-- ==== Sys2Proof/Machine/Debug.lean ====
section
/-! DEFINITION. BAR 2-3 (15 R407): the debug window and the trace window (16 R414-R428): stopping and resuming threads, a stopped thread's
state, the writes and reads of the registers, the crossbar, and the clave tick. -/

namespace Sys2Proof.Machine

/-! ### Stopping (R415, R416) -/

/-- The resident threads of a core. -/
def State.threadsOn (s : State) (core : Nat) : List ThreadKey :=
  match s.teamOn core with
  | some t => (s.groupsOf t.key).flatMap (fun g => lanes.map (fun i => { gk := g.key, thr := i }))
  | none => []

/-- A stop of every resident thread of a core. -/
def State.stopCore (s : State) (type core : Nat) : State :=
  (s.threadsOn core).foldl (fun (s : State) th => s.requestStop type th) s

/-- STOP (R415, R416): dword 1 of a core's block. Another core's name is ignored. -/
def State.stopWrite (s : State) (core : Nat) (v : Nat) : State :=
  if bits v 9 0 != core then s
  else if bit v 23 then s.stopCore 2 core
  else match s.named (bits v 22 0) with
    | some th => s.requestStop 2 th
    | none => s

/-- STOP (R416). -/
def execStop (core : Nat) (value : Dword) (s : State) : Host.Outcome State Fault Refusal :=
  if Config.cores ≤ core then .next s else .next (s.stopWrite core value.toNat)

/-- DEBUG_STOP (R416): a requested stop takes effect, where the thread stands at an instruction boundary. -/
def execDebugStop (th : ThreadKey) (s : State) : Host.Outcome State Fault Refusal :=
  if s.resident th.gk.team then .next (s.stopIfDue th) else .next s

/-! ### Resuming (R417) -/

/-- Is a thread debug-stopped? -/
def Thread.debugged (t : Thread) : Bool := t.live && (t.stop.map (fun x => x.debug)).getD false

/-- A debug-stopped thread resumes: at its PC, at PC + 4, or for one chain. -/
def Thread.resumeAt (t : Thread) (mode : Nat) : Thread :=
  if mode = 1 then
    { t with stop := none, pc := t.pc + 4, xfer := false, blk := none, wres := none, walk := none, kv := none, mark := none
             inv := none }
  else { t with stop := none, step := mode == 2 }

/-- RESUME (R417): dword 2 of a core's block. -/
def State.resumeWrite (s : State) (core : Nat) (v : Nat) : State :=
  if bits v 9 0 != core || bits v 24 23 == 3 then s
  else match s.named (bits v 22 0) with
    | some th => if (s.thread th).debugged then s.modThread th (fun t => t.resumeAt (bits v 24 23)) else s
    | none => s

/-- RESUME (R417). -/
def execResume (core : Nat) (value : Dword) (s : State) : Host.Outcome State Fault Refusal :=
  if Config.cores ≤ core then .next s else .next (s.resumeWrite core value.toNat)

/-! ### The sketch (R421) -/

/-- CLEAR (R421): every counter is zero and new seeds are drawn. -/
def State.clearSketch (s : State) (core : Nat) : State :=
  let n := s.fresh
  (s.modCore core (fun c => { c with sketch := [], seeds := n })).bump

/-- CLEAR (R421). -/
def execClear (core : Nat) (s : State) : Host.Outcome State Fault Refusal :=
  if Config.cores ≤ core then .next s else .next (s.clearSketch core)

/-! ### A stopped thread's registers (R417) -/

/-- The thread that THSEL names, where it is debug-stopped. -/
def State.shown (s : State) : Option ThreadKey :=
  (s.named s.thsel).bind (fun th => if (s.thread th).debugged then some th else none)

/-- What a register is bound to is discarded, as under row 14 of 06 R186. -/
def State.unbindReg (s : State) (th : ThreadKey) (r : Nat) : State :=
  match s.group th.gk with
  | none => s
  | some g =>
    let cell := cellIx (g.thr th.thr).uin r
    let free (s : State) (b : Binding) : State :=
      match b with
      | .replay n _ => if n = 0xFFFF then s else s.freeReplay th.gk.team n
      | _ => s
    match g.setOf th.thr cell with
    | some b =>
      let s := b.slots.foldl (fun (s : State) x => match x with
        | .poison q => s.dropSlot th.gk.team (.poison q)
        | .replaying q => free s q
        | _ => s) s
      let fr := s.fresh
      (s.modGroup th.gk (fun g => { g with
        sets := g.sets.filter (· != b)
        threads := (List.range g.threads.length).map (fun i =>
          let u := g.thr i
          { u with regs := (List.range u.regs.length).map (fun c =>
              if b.covers i c then .mk' (freeDword (fr + i) c) false else u.regs.getD c (.mk' 0 false)) }) })).bumpBy 32
    | none =>
      match ((g.thr th.thr).cell th.gk.exe r).st with
      | .wait b _ => free s b
      | .poisoned p _ => s.dropSlot th.gk.team (.poison p)
      | _ => s

/-- A write to a register of the shown thread (R417): it becomes FULL. -/
def State.writeShown (s : State) (r : Nat) (v : Dword) : State :=
  match s.shown with
  | some th => (s.unbindReg th r).modThread th (fun t => t.wr th.gk.exe r v false)
  | none => s

/-- DEBUG_REGISTER_WRITE (R417). -/
def execDebugRegisterWrite (off : Nat) (value : Dword) (s : State) : Host.Outcome State Fault Refusal :=
  if 0x70100 ≤ off ∧ off < 0x70200 ∧ off % 8 = 0 then .next (s.writeShown ((off - 0x70100) / 8) value) else .next s

/-! ### Register writes (R6, R414) -/

/-- A write to a dword of a core's debug block (R415). -/
def State.blockWrite (s : State) (core i : Nat) (v : Nat) : State :=
  let d (n : Nat) : Dword := BitVec.ofNat 64 (v % 2 ^ n)
  if i = 0 then s.modCore core (fun c => { c with dbg0 := d 21 })
  else if i = 1 then s.stopWrite core v
  else if i = 2 then s.resumeWrite core v
  else if i = 3 then
    let s := s.modCore core (fun c => { c with dbg3 := d 14 })
    if bit v 14 then s.clearSketch core else s
  else if i = 5 then s.modCore core (fun c => { c with dbg5 := d 8 })
  else if i = 7 then s.modCore core (fun c => { c with dbg7 := d 64 })
  else s

/-- A write to a register of the trace window (R419, R427). A write of TBASE or TSIZE sets the ring anew. -/
def State.traceWrite (s : State) (off v : Nat) : State :=
  if off = 0x80000 then { s with ring := { s.ring with tbase := bits v 63 16, wptr := 0 } }
  else if off = 0x80008 then
    let n := bits v 4 0
    { s with ring := { s.ring with tsize := if 16 ≤ n ∧ n ≤ 30 then n else 16, wptr := 0 } }
  else if off = 0x80018 then { s with ring := { s.ring with rptr := v } }
  else if off = 0x80020 then { s with ring := { s.ring with ten := bit v 0 } }
  else if off = 0x80100 then { s with clave := { s.clave with cbase := bits v 63 16 } }
  else if off = 0x80108 then
    let k := bits v 4 0
    { s with clave := { s.clave with ck := if 10 ≤ k ∧ k ≤ 24 then k else 10, nfr := bits v 20 5 } }
  else if off = 0x80110 then { s with clave := { s.clave with cen := bit v 0 } }
  else s

/-- A write at an offset of BAR 2-3 (15 R407): of the mailbox (15 R409), the debug window or the trace window (R6, R414).
Reserved fields and offsets that no map lists are ignored. -/
def State.windowWrite (s : State) (off v : Nat) : State :=
  if off % 8 != 0 then s
  else if off < 0x800 then s.mboxWrite off v
  else if decide (0x40000 ≤ off) && decide (off < 0x40000 + 64 * Config.cores) then
    s.blockWrite ((off - 0x40000) / 64) ((off - 0x40000) % 64 / 8) v
  else if decide (0x60100 ≤ off) && decide (off < 0x60180) then
    { s with xlines := tabSet s.xlines ((off - 0x60100) / 8) (BitVec.ofNat 64 (v % 2 ^ 15)) }
  else if off = 0x70000 then { s with thsel := v % 2 ^ 23 }
  else if decide (0x70100 ≤ off) && decide (off < 0x70200) then s.writeShown ((off - 0x70100) / 8) (BitVec.ofNat 64 v)
  else if decide (0x78000 ≤ off) && decide (off < 0x78000 + 8 * Config.cores) then
    s.modCore ((off - 0x78000) / 8) (fun c => { c with inject := BitVec.ofNat 64 (v % 2 ^ 34) })
  else s.traceWrite off v

/-- REGISTER_WRITE (R6, R414). -/
def execRegisterWrite (off : Nat) (value : Dword) (s : State) : Host.Outcome State Fault Refusal :=
  .next (s.windowWrite off value.toNat)

/-! ### Register reads (R414-R422) -/

/-- A read of a dword of a core's debug block (R415): write-only fields read 0. -/
def State.blockRead (s : State) (core i : Nat) : Nat :=
  let c := s.core core
  if i = 0 then c.dbg0.toNat
  else if i = 4 then
    let d := c.dbg3.toNat
    ((c.sketch.find? (fun e => e.1 == (bits d 13 12, bits d 11 0))).map (fun e => e.2)).getD 0
  else if i = 5 then c.dbg5.toNat
  else if i = 6 then
    let d := c.dbg5.toNat
    if 6 ≤ bits d 2 0 then 0 else (c.bins (bits d 2 0)).getD (bits d 7 3) 0
  else if i = 7 then c.dbg7.toNat
  else 0

/-- A fixed counter of a core (R422). -/
def State.counterRead (s : State) (core i : Nat) : Nat :=
  let c := s.core core
  let t := s.teamOn core
  if i = 0 then c.issue
  else if i = 1 then c.fused
  else if i = 2 then c.rerun
  else if i = 3 then (t.map (fun t => t.lod)).getD 0
  else if i = 4 then (t.map (fun t => t.spillc)).getD 0
  else if i = 5 then c.repref
  else if i = 6 then c.colldrop
  else c.corr

/-- The code of a full/empty state (R417). A load that has not returned leaves its register FULL. -/
def RegSt.code : RegSt → Nat
  | .full => 0
  | .load _ => 0
  | .transit _ => 1
  | .wait _ _ => 2
  | .poisoned _ _ => 3

/-- A read of the shown thread (R417). -/
def State.shownRead (s : State) (off : Nat) : Nat :=
  match s.shown with
  | none => 0
  | some th =>
    match s.group th.gk with
    | none => 0
    | some g =>
      let t := g.thr th.thr
      if decide (0x70100 ≤ off) && decide (off < 0x70200) then
        let r := (off - 0x70100) / 8
        if 2 ≤ (g.regState th.gk.exe th.thr r).code then 0 else t.rn th.gk.exe r
      else if off = 0x70200 then t.pc.toNat
      else if off = 0x70208 then t.depth % 256 + (t.preds ||| 0x80#8).toNat * 2 ^ 8 + b2n t.uin * 2 ^ 16
      else if decide (0x70210 ≤ off) && decide (off < 0x70310) then (g.regState th.gk.exe th.thr ((off - 0x70210) / 8)).code
      else 0

/-- A read of BAR 2-3: the mailbox, the debug window or the trace window; an offset that no map lists reads 0 (R414). -/
def State.windowRead (s : State) (off : Nat) : Nat :=
  if off % 8 != 0 then 0
  else if off < 0x800 then s.mboxRead off
  else if decide (0x40000 ≤ off) && decide (off < 0x40000 + 64 * Config.cores) then
    s.blockRead ((off - 0x40000) / 64) ((off - 0x40000) % 64 / 8)
  else if decide (0x50000 ≤ off) && decide (off < 0x50000 + 64 * Config.cores) then
    s.counterRead ((off - 0x50000) / 64) ((off - 0x50000) % 64 / 8)
  else if decide (0x60000 ≤ off) && decide (off < 0x60050) then tabGet 0 s.dctrs ((off - 0x60000) / 8)
  else if decide (0x60100 ≤ off) && decide (off < 0x60180) then (tabGet 0#64 s.xlines ((off - 0x60100) / 8)).toNat
  else if off = 0x70000 then s.thsel
  else if decide (0x70100 ≤ off) && decide (off < 0x70310) then s.shownRead off
  else if decide (0x78000 ≤ off) && decide (off < 0x78000 + 8 * Config.cores) then (s.core ((off - 0x78000) / 8)).inject.toNat
  else if off = 0x80000 then s.ring.tbase * 2 ^ 16
  else if off = 0x80008 then s.ring.tsize
  else if off = 0x80010 then s.ring.wptr
  else if off = 0x80018 then s.ring.rptr
  else if off = 0x80020 then b2n s.ring.ten
  else if off = 0x80100 then s.clave.cbase * 2 ^ 16
  else if off = 0x80108 then s.clave.ck + s.clave.nfr * 2 ^ 5
  else if off = 0x80110 then b2n s.clave.cen
  else 0

/-! ### The crossbar (R425, R426) -/

/-- TRIGIN (R425): an input pin asserts its source. The event takes the four management cores as pins 4 to 7: what makes one
of them assert its source, the manual does not say (log 62). -/
def execTrigin (pin : Nat) (s : State) : Host.Outcome State Fault Refusal :=
  if 8 ≤ pin then .next s else .next (s.assertLines (if pin < 4 then 0x3C0 + pin else 0x380 + (pin - 4)) none)

/-- A thread of a held set stands before the word that the set is held at: what it has begun of it has had no effect and is given
up. -/
def State.standBefore (s : State) (th : ThreadKey) : State :=
  ((s.modGroup th.gk (fun g => g.unhold th.thr)).forget (.kv th)).modThread th (fun t =>
    { t with kv := t.kv.filter (fun v => v.out.isSome), mark := none, inv := none })

/-- A stop of a thread that may not wait for the end of its instruction (R426). -/
def State.stopNow (s : State) (th : ThreadKey) : State :=
  match s.group th.gk with
  | some g => (if g.holds th.thr && (g.thr th.thr).dreq.isSome then s.standBefore th else s).stopIfDue th
  | none => s

/-- CSTOP on a core (R425, R426): its threads stop at the instruction boundary at which they stand (log 24); one of a held set at
that before the word that it waits in. -/
def State.stopAt (s : State) (core : Nat) : State :=
  (s.threadsOn core).foldl (fun (s : State) th => s.stopNow th) (s.stopCore 5 core)

/-- The actions of a line (R425), asserted by a core or by none. -/
def State.lineActions (s : State) (line : Nat) (core : Option Nat) : State :=
  let v := (tabGet 0#64 s.xlines line).toNat
  let s := if bit v 14 then s.answer (.pin (line % 4)) else s
  let s := if bit v 13 then { s with ring := { s.ring with ten := false } } else s
  let s := if bit v 12 then
      { s with cores := s.cores.map (fun c : Nat × Core => (c.1, { c.2 with dbg0 := c.2.dbg0 &&& ~~~12#64 })) }
    else s
  if bit v 11 then
    match core with
    | some c => s.stopAt c
    | none => (List.range Config.cores).foldl (fun (s : State) c => s.stopAt c) s
  else s

/-- CROSSBAR_ACTION (R426): the actions of the oldest assertion of a line take effect. -/
def execCrossbarAction (line : Nat) (s : State) : Host.Outcome State Fault Refusal :=
  match s.xpend.find? (fun x => x.1 == line) with
  | some x => .next ({ s with xpend := s.xpend.erase x }.lineActions line x.2.1)
  | none => .next s

/-! ### The clave tick (R427, R428) -/

/-- A latched count: 32 bits, saturating. -/
def latch32 (n : Nat) : List Byte := leBytes 4 (min n (2 ^ 32 - 1))

/-- The counts of busy and stalled cycles that only timing fixes, the n-th of a frame, from a free-value number on. -/
def busyWord (fresh n : Nat) : List Byte := latch32 (Config.busy (fresh * 65536 + n))

/-- The bytes of a frame after its header (R428): cores, slices, stacks. -/
def State.frameBody (s : State) : List Byte :=
  (List.range Config.cores).flatMap (fun c =>
    (List.range 9).flatMap (fun i => busyWord s.fresh (9 * c + i))
      ++ ((s.core c).latch.flatMap latch32) ++ latch32 0)
  ++ (List.range 1024).flatMap (fun i => busyWord s.fresh (6000 + i))
  ++ (List.range 8).flatMap (fun t =>
      (List.range 10).flatMap (fun i => busyWord s.fresh (8000 + 10 * t + i))
        ++ latch32 (s.clave.stk.getD (2 * t) 0) ++ latch32 (s.clave.stk.getD (2 * t + 1) 0) ++ List.replicate 16 0)

/-- The header of a frame (R428). -/
def State.frameHeader (s : State) : List Byte :=
  leBytes 8 (s.cycle / 2 ^ s.clave.ck) ++ leBytes 8 s.cycle ++ leBytes 8 s.clave.ck ++ leBytes 8 s.clave.lost
    ++ List.replicate 32 0

/-- The counts since the last tick begin again (R427). -/
def State.latchClear (s : State) : State :=
  { s with
    clave := { s.clave with stk := List.replicate 16 0 }
    cores := s.cores.map (fun x : Nat × Core => (x.1, { x.2 with latch := List.replicate 6 0 })) }

/-- CLAVE_TICK (R427, R428): the counts are latched into a frame; a third tick is merged into the next frame. While streaming is
disabled no tick occurs, and the counts since the last one go on. -/
def execClaveTick (s : State) : Host.Outcome State Fault Refusal :=
  let c := s.clave
  if s.cycle % 2 ^ c.ck != 0 || !c.cen then .next s
  else if 2 ≤ c.frames.length then .next ({ s with clave := { c with lost := c.lost + 1 } }.countDev 8 1)
  else
    let f := (s.cycle / 2 ^ c.ck, s.cycle, s.frameHeader ++ s.frameBody)
    .next ({ s.bump with clave := { c with frames := c.frames ++ [f], lost := 0 } } : State).latchClear

/-- CLAVE_FRAME_WRITE (R428): the oldest frame is written to its place in the ring, under slot 0. Where NFR + 1 is no power of two,
which R427 forbids with no consequence, the place is still n mod (NFR + 1) (DESIGN CHOICE, log 74). -/
def execClaveFrameWrite (s : State) : Host.Outcome State Fault Refusal :=
  match s.clave.frames with
  | [] => .next s
  | f :: rest =>
    let s := { s with clave := { s.clave with frames := rest } }
    let a := s.clave.cbase * 65536 + 65536 * (f.1 % (s.clave.nfr + 1))
    if Config.deviceBytes < a + 65536 then .next s
    else .next ((s.writePhys 0 a ((f.2.2 ++ List.replicate 65536 0).take 65536)).dropL1 a 65536)

end Sys2Proof.Machine
end

