-- ==== Sys2Proof/Machine/Dispatch.lean ====
section
/-! DEFINITION. Dispatch: one arm per constructor of `Instr`. -/

namespace Sys2Proof.Machine

/-- The meaning of an instruction or an event. -/
def exec (i : Instr) (s : State) : Host.Outcome State Fault Refusal :=
  match i with
  | .bra f => Sys2Proof.Machine.execBra f s
  | .call f => Sys2Proof.Machine.execCall f s
  | .nop f => Sys2Proof.Machine.execNop f s
  | .jmp f => Sys2Proof.Machine.execJmp f s
  | .calli f => Sys2Proof.Machine.execCalli f s
  | .ret f => Sys2Proof.Machine.execRet f s
  | .exit f => Sys2Proof.Machine.execExit f s
  | .yield f => Sys2Proof.Machine.execYield f s
  | .trap f => Sys2Proof.Machine.execTrap f s
  | .uret f => Sys2Proof.Machine.execUret f s
  | .setuv f => Sys2Proof.Machine.execSetuv f s
  | .bkpt f => Sys2Proof.Machine.execBkpt f s
  | .mark f => Sys2Proof.Machine.execMark f s
  | .icsync f => Sys2Proof.Machine.execIcsync f s
  | .icsyncDev f => Sys2Proof.Machine.execIcsyncDev f s
  | .cmp f => Sys2Proof.Machine.execCmp f s
  | .plopAnd f => Sys2Proof.Machine.execPlopAnd f s
  | .plopOr f => Sys2Proof.Machine.execPlopOr f s
  | .plopXor f => Sys2Proof.Machine.execPlopXor f s
  | .plopAndn f => Sys2Proof.Machine.execPlopAndn f s
  | .voteAny f => Sys2Proof.Machine.execVoteAny f s
  | .voteAll f => Sys2Proof.Machine.execVoteAll f s
  | .voteBallot f => Sys2Proof.Machine.execVoteBallot f s
  | .elect f => Sys2Proof.Machine.execElect f s
  | .shflIdx f => Sys2Proof.Machine.execShflIdx f s
  | .shflUp f => Sys2Proof.Machine.execShflUp f s
  | .shflDown f => Sys2Proof.Machine.execShflDown f s
  | .shflXor f => Sys2Proof.Machine.execShflXor f s
  | .csrr f => Sys2Proof.Machine.execCsrr f s
  | .csrw f => Sys2Proof.Machine.execCsrw f s
  | .csrs f => Sys2Proof.Machine.execCsrs f s
  | .csrc f => Sys2Proof.Machine.execCsrc f s
  | .add f => Sys2Proof.Machine.execAdd f s
  | .sub f => Sys2Proof.Machine.execSub f s
  | .mul f => Sys2Proof.Machine.execMul f s
  | .mulhiS f => Sys2Proof.Machine.execMulhiS f s
  | .mulhiU f => Sys2Proof.Machine.execMulhiU f s
  | .mad f => Sys2Proof.Machine.execMad f s
  | .divs f => Sys2Proof.Machine.execDivs f s
  | .divu f => Sys2Proof.Machine.execDivu f s
  | .rems f => Sys2Proof.Machine.execRems f s
  | .remu f => Sys2Proof.Machine.execRemu f s
  | .minS f => Sys2Proof.Machine.execMinS f s
  | .minU f => Sys2Proof.Machine.execMinU f s
  | .maxS f => Sys2Proof.Machine.execMaxS f s
  | .maxU f => Sys2Proof.Machine.execMaxU f s
  | .abs f => Sys2Proof.Machine.execAbs f s
  | .sel f => Sys2Proof.Machine.execSel f s
  | .and f => Sys2Proof.Machine.execAnd f s
  | .or f => Sys2Proof.Machine.execOr f s
  | .xor f => Sys2Proof.Machine.execXor f s
  | .andn f => Sys2Proof.Machine.execAndn f s
  | .shl f => Sys2Proof.Machine.execShl f s
  | .shr f => Sys2Proof.Machine.execShr f s
  | .sar f => Sys2Proof.Machine.execSar f s
  | .rol f => Sys2Proof.Machine.execRol f s
  | .clz f => Sys2Proof.Machine.execClz f s
  | .popc f => Sys2Proof.Machine.execPopc f s
  | .brev f => Sys2Proof.Machine.execBrev f s
  | .mov f => Sys2Proof.Machine.execMov f s
  | .bfx f => Sys2Proof.Machine.execBfx f s
  | .bfi f => Sys2Proof.Machine.execBfi f s
  | .movi f => Sys2Proof.Machine.execMovi f s
  | .movhi f => Sys2Proof.Machine.execMovhi f s
  | .addImm f => Sys2Proof.Machine.execAddImm f s
  | .andImm f => Sys2Proof.Machine.execAndImm f s
  | .orImm f => Sys2Proof.Machine.execOrImm f s
  | .xorImm f => Sys2Proof.Machine.execXorImm f s
  | .shlImm f => Sys2Proof.Machine.execShlImm f s
  | .shrImm f => Sys2Proof.Machine.execShrImm f s
  | .lea f => Sys2Proof.Machine.execLea f s
  | .fadd f => Sys2Proof.Machine.execFadd f s
  | .fsub f => Sys2Proof.Machine.execFsub f s
  | .fmul f => Sys2Proof.Machine.execFmul f s
  | .ffma f => Sys2Proof.Machine.execFfma f s
  | .fmin f => Sys2Proof.Machine.execFmin f s
  | .fmax f => Sys2Proof.Machine.execFmax f s
  | .fclass f => Sys2Proof.Machine.execFclass f s
  | .frnd f => Sys2Proof.Machine.execFrnd f s
  | .frcp f => Sys2Proof.Machine.execFrcp f s
  | .frsq f => Sys2Proof.Machine.execFrsq f s
  | .fsqrt f => Sys2Proof.Machine.execFsqrt f s
  | .fdiv f => Sys2Proof.Machine.execFdiv f s
  | .fexp2 f => Sys2Proof.Machine.execFexp2 f s
  | .flog2 f => Sys2Proof.Machine.execFlog2 f s
  | .fsin f => Sys2Proof.Machine.execFsin f s
  | .fcos f => Sys2Proof.Machine.execFcos f s
  | .hadd2Bf16 f => Sys2Proof.Machine.execHadd2Bf16 f s
  | .hmul2Bf16 f => Sys2Proof.Machine.execHmul2Bf16 f s
  | .hfma2Bf16 f => Sys2Proof.Machine.execHfma2Bf16 f s
  | .hadd2F16 f => Sys2Proof.Machine.execHadd2F16 f s
  | .hmul2F16 f => Sys2Proof.Machine.execHmul2F16 f s
  | .hfma2F16 f => Sys2Proof.Machine.execHfma2F16 f s
  | .fcvtF32Bf16 f => Sys2Proof.Machine.execFcvtF32Bf16 f s
  | .fcvtF32Bf16Hi f => Sys2Proof.Machine.execFcvtF32Bf16Hi f s
  | .fcvtF32F16 f => Sys2Proof.Machine.execFcvtF32F16 f s
  | .fcvtF32F16Hi f => Sys2Proof.Machine.execFcvtF32F16Hi f s
  | .fcvtBf16x2F32 f => Sys2Proof.Machine.execFcvtBf16x2F32 f s
  | .fcvtF16x2F32 f => Sys2Proof.Machine.execFcvtF16x2F32 f s
  | .icvtSwF32 f => Sys2Proof.Machine.execIcvtSwF32 f s
  | .icvtSwF32Rz f => Sys2Proof.Machine.execIcvtSwF32Rz f s
  | .icvtUwF32 f => Sys2Proof.Machine.execIcvtUwF32 f s
  | .icvtUwF32Rz f => Sys2Proof.Machine.execIcvtUwF32Rz f s
  | .icvtF32Sw f => Sys2Proof.Machine.execIcvtF32Sw f s
  | .icvtF32Uw f => Sys2Proof.Machine.execIcvtF32Uw f s
  | .fcmp f => Sys2Proof.Machine.execFcmp f s
  | .rope f => Sys2Proof.Machine.execRope f s
  | .amrg f => Sys2Proof.Machine.execAmrg f s
  | .qnt f => Sys2Proof.Machine.execQnt f s
  | .qscl f => Sys2Proof.Machine.execQscl f s
  | .dq f => Sys2Proof.Machine.execDq f s
  | .hdrr f => Sys2Proof.Machine.execHdrr f s
  | .hdrw f => Sys2Proof.Machine.execHdrw f s
  | .cbk f => Sys2Proof.Machine.execCbk f s
  | .mma f => Sys2Proof.Machine.execMma f s
  | .mmaz f => Sys2Proof.Machine.execMmaz f s
  | .tcfg f => Sys2Proof.Machine.execTcfg f s
  | .tzero f => Sys2Proof.Machine.execTzero f s
  | .kopMov f => Sys2Proof.Machine.execKopMov f s
  | .kopAnd f => Sys2Proof.Machine.execKopAnd f s
  | .kopOr f => Sys2Proof.Machine.execKopOr f s
  | .kopAndn f => Sys2Proof.Machine.execKopAndn f s
  | .kopNz f => Sys2Proof.Machine.execKopNz f s
  | .kopFromp f => Sys2Proof.Machine.execKopFromp f s
  | .kopTop f => Sys2Proof.Machine.execKopTop f s
  | .tchk f => Sys2Proof.Machine.execTchk f s
  | .tmovfF32 f => Sys2Proof.Machine.execTmovfF32 f s
  | .tmovfBf16 f => Sys2Proof.Machine.execTmovfBf16 f s
  | .tmovtF32 f => Sys2Proof.Machine.execTmovtF32 f s
  | .tmovtBf16 f => Sys2Proof.Machine.execTmovtBf16 f s
  | .tdrain f => Sys2Proof.Machine.execTdrain f s
  | .tdrainAdd f => Sys2Proof.Machine.execTdrainAdd f s
  | .tstsp f => Sys2Proof.Machine.execTstsp f s
  | .qpop f => Sys2Proof.Machine.execQpop f s
  | .qpopb f => Sys2Proof.Machine.execQpopb f s
  | .qpopo f => Sys2Proof.Machine.execQpopo f s
  | .qpush f => Sys2Proof.Machine.execQpush f s
  | .qpushb f => Sys2Proof.Machine.execQpushb f s
  | .qmark f => Sys2Proof.Machine.execQmark f s
  | .qpeek f => Sys2Proof.Machine.execQpeek f s
  | .qtest f => Sys2Proof.Machine.execQtest f s
  | .qcfg f => Sys2Proof.Machine.execQcfg f s
  | .qclose f => Sys2Proof.Machine.execQclose f s
  | .qstat f => Sys2Proof.Machine.execQstat f s
  | .ld f => Sys2Proof.Machine.execLd f s
  | .st f => Sys2Proof.Machine.execSt f s
  | .ldMa f => Sys2Proof.Machine.execLdMa f s
  | .stMa f => Sys2Proof.Machine.execStMa f s
  | .ldc f => Sys2Proof.Machine.execLdc f s
  | .atom f => Sys2Proof.Machine.execAtom f s
  | .red f => Sys2Proof.Machine.execRed f s
  | .atomMinmax f => Sys2Proof.Machine.execAtomMinmax f s
  | .redMinmax f => Sys2Proof.Machine.execRedMinmax f s
  | .cas f => Sys2Proof.Machine.execCas f s
  | .ldq f => Sys2Proof.Machine.execLdq f s
  | .ldbq f => Sys2Proof.Machine.execLdbq f s
  | .stq f => Sys2Proof.Machine.execStq f s
  | .qstream f => Sys2Proof.Machine.execQstream f s
  | .gath f => Sys2Proof.Machine.execGath f s
  | .scat f => Sys2Proof.Machine.execScat f s
  | .gathR f => Sys2Proof.Machine.execGathR f s
  | .pref f => Sys2Proof.Machine.execPref f s
  | .bcopy f => Sys2Proof.Machine.execBcopy f s
  | .bstore f => Sys2Proof.Machine.execBstore f s
  | .mcast f => Sys2Proof.Machine.execMcast f s
  | .replay f => Sys2Proof.Machine.execReplay f s
  | .rch f => Sys2Proof.Machine.execRch f s
  | .rget f => Sys2Proof.Machine.execRget f s
  | .rput f => Sys2Proof.Machine.execRput f s
  | .fence f => Sys2Proof.Machine.execFence f s
  | .join f => Sys2Proof.Machine.execJoin f s
  | .pinit f => Sys2Proof.Machine.execPinit f s
  | .preg f => Sys2Proof.Machine.execPreg f s
  | .pdereg f => Sys2Proof.Machine.execPdereg f s
  | .parr f => Sys2Proof.Machine.execParr f s
  | .pbytes f => Sys2Proof.Machine.execPbytes f s
  | .pwait f => Sys2Proof.Machine.execPwait f s
  | .ptest f => Sys2Proof.Machine.execPtest f s
  | .ptestW f => Sys2Proof.Machine.execPtestW f s
  | .spawn f => Sys2Proof.Machine.execSpawn f s
  | .take f => Sys2Proof.Machine.execTake f s
  | .steal f => Sys2Proof.Machine.execSteal f s
  | .fnew f => Sys2Proof.Machine.execFnew f s
  | .fres f => Sys2Proof.Machine.execFres f s
  | .fresF f => Sys2Proof.Machine.execFresF f s
  | .freg f => Sys2Proof.Machine.execFreg f s
  | .fwait f => Sys2Proof.Machine.execFwait f s
  | .fstat f => Sys2Proof.Machine.execFstat f s
  | .fstatHi f => Sys2Proof.Machine.execFstatHi f s
  | .jlaunch f => Sys2Proof.Machine.execJlaunch f s
  | .trigger f => Sys2Proof.Machine.execTrigger f s
  | .jyield f => Sys2Proof.Machine.execJyield f s
  | .leave f => Sys2Proof.Machine.execLeave f s
  | .kvlook f => Sys2Proof.Machine.execKvlook f s
  | .kvins f => Sys2Proof.Machine.execKvins f s
  | .kvdel f => Sys2Proof.Machine.execKvdel f s
  | .pfxlook f => Sys2Proof.Machine.execPfxlook f s
  | .pfxins f => Sys2Proof.Machine.execPfxins f s
  | .attd f => Sys2Proof.Machine.execAttd f s
  | .sret f => Sys2Proof.Machine.execSret f s
  | .tlbinv f => Sys2Proof.Machine.execTlbinv f s
  | .ctxq f => Sys2Proof.Machine.execCtxq f s
  | .haltq f => Sys2Proof.Machine.execHaltq f s
  | .powerOn => Sys2Proof.Machine.execPowerOn s
  | .admissionWrite off len data => Sys2Proof.Machine.execAdmissionWrite off len data s
  | .admitJob => Sys2Proof.Machine.execAdmitJob s
  | .hostWindowRead off len => Sys2Proof.Machine.execHostWindowRead off len s
  | .hostWindowWrite off data => Sys2Proof.Machine.execHostWindowWrite off data s
  | .keyLoad ms slot unwraps => Sys2Proof.Machine.execKeyLoad ms slot unwraps s
  | .releaseSlot ms slot => Sys2Proof.Machine.execReleaseSlot ms slot s
  | .createContext ms desc => Sys2Proof.Machine.execCreateContext ms desc s
  | .setSaveArea ms ctx va size => Sys2Proof.Machine.execSetSaveArea ms ctx va size s
  | .setEventRange ms ctx base count => Sys2Proof.Machine.execSetEventRange ms ctx base count s
  | .setPeerTable ms ctx count entries => Sys2Proof.Machine.execSetPeerTable ms ctx count entries s
  | .endCtx ms ctx => Sys2Proof.Machine.execEndCtx ms ctx s
  | .abandon ms ctx code => Sys2Proof.Machine.execAbandon ms ctx code s
  | .grantBudget ms job budget => Sys2Proof.Machine.execGrantBudget ms job budget s
  | .grantDeadline ms job deadline => Sys2Proof.Machine.execGrantDeadline ms job deadline s
  | .setPartitionTable ms shared table => Sys2Proof.Machine.execSetPartitionTable ms shared table s
  | .setEnergyTable ms addr => Sys2Proof.Machine.execSetEnergyTable ms addr s
  | .setRateCap ms island rate cap => Sys2Proof.Machine.execSetRateCap ms island rate cap s
  | .setWindow ms base slot => Sys2Proof.Machine.execSetWindow ms base slot s
  | .setRetransmissionBudget ms cycles => Sys2Proof.Machine.execSetRetransmissionBudget ms cycles s
  | .exposeRegion ms ctx lo hi peers write => Sys2Proof.Machine.execExposeRegion ms ctx lo hi peers write s
  | .checkpoint ms => Sys2Proof.Machine.execCheckpoint ms s
  | .stop core value => Sys2Proof.Machine.execStop core value s
  | .debugStop th => Sys2Proof.Machine.execDebugStop th s
  | .resume core value => Sys2Proof.Machine.execResume core value s
  | .clear core => Sys2Proof.Machine.execClear core s
  | .debugRegisterWrite off value => Sys2Proof.Machine.execDebugRegisterWrite off value s
  | .registerWrite off value => Sys2Proof.Machine.execRegisterWrite off value s
  | .trigin pin => Sys2Proof.Machine.execTrigin pin s
  | .crossbarAction line => Sys2Proof.Machine.execCrossbarAction line s
  | .replenish => Sys2Proof.Machine.execReplenish s
  | .carillonGrant island => Sys2Proof.Machine.execCarillonGrant island s
  | .wdog gk => Sys2Proof.Machine.execWdog gk s
  | .qdead tk => Sys2Proof.Machine.execQdead tk s
  | .budget job => Sys2Proof.Machine.execBudget job s
  | .phaserTimeout th => Sys2Proof.Machine.execPhaserTimeout th s
  | .fwaitRecheck th => Sys2Proof.Machine.execFwaitRecheck th s
  | .registrationRetry job => Sys2Proof.Machine.execRegistrationRetry job s
  | .replicationTest tk => Sys2Proof.Machine.execReplicationTest tk s
  | .sliceStart job => Sys2Proof.Machine.execSliceStart job s
  | .preempt job => Sys2Proof.Machine.execPreempt job s
  | .jobEnd job => Sys2Proof.Machine.execJobEnd job s
  | .pageWalkStart => Sys2Proof.Machine.execPageWalkStart s
  | .pageWalkResult ctx vpn => Sys2Proof.Machine.execPageWalkResult ctx vpn s
  | .loadReturn tk id => Sys2Proof.Machine.execLoadReturn tk id s
  | .queueEntryArrival tk id => Sys2Proof.Machine.execQueueEntryArrival tk id s
  | .stqWrite tk id => Sys2Proof.Machine.execStqWrite tk id s
  | .kvProbe th => Sys2Proof.Machine.execKvProbe th s
  | .copyGranuleLanding tk gran => Sys2Proof.Machine.execCopyGranuleLanding tk gran s
  | .bstoreGranuleWrite tk gran => Sys2Proof.Machine.execBstoreGranuleWrite tk gran s
  | .mcastFlitInject tk => Sys2Proof.Machine.execMcastFlitInject tk s
  | .drumlineLanding flit core => Sys2Proof.Machine.execDrumlineLanding flit core s
  | .qstreamLinePush tk => Sys2Proof.Machine.execQstreamLinePush tk s
  | .gatherChunk tk => Sys2Proof.Machine.execGatherChunk tk s
  | .drainLineWrite tk line => Sys2Proof.Machine.execDrainLineWrite tk line s
  | .tileUpdate tk line => Sys2Proof.Machine.execTileUpdate tk line s
  | .commandPerformed tk stream => Sys2Proof.Machine.execCommandPerformed tk stream s
  | .tripleArrival tk cmd stack => Sys2Proof.Machine.execTripleArrival tk cmd stack s
  | .attdDeadline tk cmd => Sys2Proof.Machine.execAttdDeadline tk cmd s
  | .attlost tk cmd stack => Sys2Proof.Machine.execAttlost tk cmd stack s
  | .attdEntryDelivery tk cmd => Sys2Proof.Machine.execAttdEntryDelivery tk cmd s
  | .responseLanded tk ch slot data => Sys2Proof.Machine.execResponseLanded tk ch slot data s
  | .errorResponse tk ch slot => Sys2Proof.Machine.execErrorResponse tk ch slot s
  | .retransmissionExhausted tk ch slot => Sys2Proof.Machine.execRetransmissionExhausted tk ch slot s
  | .channelQueueDelivery tk ch slot => Sys2Proof.Machine.execChannelQueueDelivery tk ch slot s
  | .completionVectoring th => Sys2Proof.Machine.execCompletionVectoring th s
  | .peerRead ctx peer va len => Sys2Proof.Machine.execPeerRead ctx peer va len s
  | .peerWrite ctx peer va data => Sys2Proof.Machine.execPeerWrite ctx peer va data s
  | .claveTick => Sys2Proof.Machine.execClaveTick s
  | .claveFrameWrite => Sys2Proof.Machine.execClaveFrameWrite s
  | .mchk src => Sys2Proof.Machine.execMchk src s
  | .storeOrdered tk id => Sys2Proof.Machine.execStoreOrdered tk id s
  | .mmaCompletion gk first second => Sys2Proof.Machine.execMmaCompletion gk first second s

end Sys2Proof.Machine
end

