-- ==== Sys2Proof/Machine/Time.lean ====
section
/-! DEFINITION. The next cycle: what counts and moves with time alone, and the events that are due in it (log 2). -/

namespace Sys2Proof.Machine

/-! ### Waking (06 R184) -/

/-- Has a register reached FULL or POISONED? A load in flight makes its reader wait in the pipeline (09 R260). -/
def RegSt.wakes : RegSt → Bool
  | .full => true
  | .load _ => true
  | .poisoned _ _ => true
  | _ => false

/-- The state of a register cell of thread i, or of the set that holds it. -/
def Group.cellState (g : Group) (i cell : Nat) : RegSt :=
  match g.setOf i cell with
  | some b => b.state
  | none => ((g.thr i).regs.getD cell (.mk' 0 false)).st

/-- Has a list register reached FULL or POISONED? -/
def OlReg.wakes (o : OlReg) : Bool :=
  match o.st with
  | .full => true
  | .poisoned _ _ => true
  | _ => false

/-- A FIFO of a team. -/
def Team.fifo (t : Team) (q : QRef) (i : Nat) : Option (Fifo × Nat) := (t.queue q).map (fun x => (x.fifo i, x.limit))

/-- Has the condition ended on which thread i is blocked (R184)? Phasers and futures wake their waiters themselves. A push of
more entries than a lowered limit is checked again (09 R268). -/
def Team.wakes (t : Team) (g : Group) (i : Nat) : Bool :=
  match (g.thr i).blk with
  | some (.regRead r) => (g.cellState i r).wakes
  | some (.regWrite r) => (g.cellState i r).wakes
  | some (.fragRead r) => lanes.all (fun u => (g.cellState u r).wakes)
  | some (.fragWrite r) => lanes.all (fun u => (g.cellState u r).wakes)
  | some (.olRead o) => ((g.ols[o]?).map OlReg.wakes).getD true
  | some (.olWrite o) => ((g.ols[o]?).map OlReg.wakes).getD true
  | some (.push q i n) => ((t.fifo q i).map (fun x => x.1.room x.2 n || decide (x.2 < n))).getD true
  | some (.popEmpty q i) => ((t.fifo q i).map (fun x => x.1.head.isSome)).getD true
  | _ => false

/-- Wake every blocked thread whose condition has ended. -/
def State.wake (s : State) : State :=
  { s with groups := s.groups.map (fun g =>
      if g.threads.any (fun th => th.blk.isSome) then
        match s.team g.key.team with
        | some t => g.mapThreads (fun i th => if th.blk.isSome && t.wakes g i then { th with blk := none } else th)
        | none => g
      else g) }

/-- A thread that is BLOCKED with a stop pending stops at once (16 R416). -/
def State.stopBlocked (s : State) : State :=
  (s.groups.filter (fun g => g.threads.any (fun th => th.blk.isSome && th.dreq.isSome))).foldl (fun (s : State) g =>
    (lanes.filter (fun i => (g.thr i).blk.isSome && (g.thr i).dreq.isSome)).foldl (fun (s : State) i => s.stopIfDue { gk := g.key, thr := i }) s) s

/-! ### What time alone moves -/

/-- A job in a cycle: its budget (13 R378), and the load or save in progress (R444). -/
def Job.passTime (j : Job) : Job :=
  match j.st with
  | .running => { j with left := j.left - 1, moving := j.moving - 1 }
  | .stopping _ => { j with left := j.left - 1, moving := j.moving - 1 }
  | .saving oob =>
    if j.moving ≤ 1 then { j with st := if oob then .outOfBudget else .ready, moving := 0 } else { j with moving := j.moving - 1 }
  | _ => j

/-- A group in a cycle: TRANSIT becomes FULL (06 R186 row 9), and the watchdog counts (R182). -/
def State.groupTime (s : State) (g : Group) : Group :=
  if s.resident g.key.team then
    let h := g.settle
    if s.watching g then { h with wcount := h.wcount + 1 } else h
  else g

/-- Does a halted quadrant hold a group of a team (12 R363)? -/
def State.haltedIn (s : State) (t : Team) : Bool :=
  (s.groupsOf t.key).any (fun g => !g.ended && g.key.exe && (s.core t.core).halted.getLsbD g.key.quad)

/-- A team in a cycle: its requests that leave the part, and its count towards QDEAD (06 R190), which a halted quadrant holds (12
R363). -/
def State.teamTime (s : State) (t : Team) : Team :=
  let t := s.sendRequests t
  if !t.resident || t.ended || s.anyStopped t.key then t
  else { t with qdead := if !s.deadlocked t then 0 else if s.haltedIn t then t.qdead else t.qdead + 1 }

/-- Where a group's selected set stalls in a cycle (06 R172): its PC and first thread. -/
def Team.stallsAt (t : Team) (g : Group) : Option (Pc × Nat) :=
  if g.stalled then g.hold.map (fun h => (h.1, h.2.headD 0))
  else if t.stuck g.key then g.current.head?.map (fun i => ((g.thr i).pc, i))
  else none

/-- Is a thread BLOCKED (06 R184), and not STOPPED (06 R190)? -/
def Thread.blocked (t : Thread) : Bool := t.blk.isSome && t.stop.isNone

/-- The sketch events of a cycle (16 R420): a selected set that stalls, and every blocked thread. -/
def State.sketchTime (s : State) : State :=
  (s.groups.filter (fun g => s.resident g.key.team && !g.ended)).foldl (fun (s : State) g =>
    let s := match (s.team g.key.team).bind (fun t => t.stallsAt g) with
      | some x => s.sketch { gk := g.key, thr := x.2 } x.1 2 1
      | none => s
    lanes.foldl (fun (s : State) i =>
      if (g.thr i).blocked then s.sketch { gk := g.key, thr := i } (g.thr i).pc 7 1 else s) s) s

/-- The counts of a core that a clave tick latches and that a cycle moves (16 R428, words 9 to 12): a set stalled for a
collector entry, a request waiting for tokens, every LIVE thread BLOCKED, a push blocked. -/
def State.claveTime (s : State) : State :=
  (s.teams.filter (fun t => t.resident && !t.ended)).foldl (fun (s : State) t =>
    let gs := s.groupsOf t.key
    let live := gs.flatMap (fun g => g.threads.filter (fun th => th.live))
    let full := gs.any (fun g => g.stalled && g.collw)
    let energy := !(s.island t.core).reqs.isEmpty
    let blocked := !live.isEmpty && live.all Thread.blocked
    let push := live.any (fun th => th.blocked && (match th.blk with | some (.push _ _ _) => true | _ => false))
    let add (n : Nat) (b : Bool) (l : List Nat) : List Nat := if b then updAt l n (· + 1) else l
    s.modCore t.core (fun c => { c with latch := add 0 full (add 1 energy (add 2 blocked (add 3 push c.latch))) })) s

/-! ### The events of a cycle -/

/-- An event of a thread, for the threads of a state that satisfy a condition. -/
def State.threadEvents (s : State) (p : Thread → Bool) (e : ThreadKey → Instr) : List Move :=
  s.groups.flatMap (fun g => (lanes.filter (fun i => p (g.thr i))).map (fun i => Move.event (e { gk := g.key, thr := i })))

/-- The carillon's grants of a cycle (15 R403): one for each request that waits. -/
def State.grantEvents (s : State) : List Move :=
  s.islands.flatMap (fun x => x.2.reqs.map (fun _ => Move.event (.carillonGrant x.1)))

/-- The drumline's events of a cycle (03 R111, R112): the landings that are due and a flit in each granted beat. -/
def State.drumEvents (s : State) : List Move :=
  s.flits.flatMap (fun f => (f.dests.filter (fun d => decide (d.2.1 ≤ s.cycle))).map (fun d => Move.event (.drumlineLanding f.id d.1)))
  ++ (s.teams.filter (fun t => t.resident && (match t.copyq.head? with
        | some c => (match c.kind with | .mcast _ _ _ _ _ _ _ _ => true | _ => false)
        | none => false))).map (fun t => Move.event (.mcastFlitInject t.key))

/-- The events at the multiples of 1,024 cycles (12 R349, 13 R373, R380). -/
def State.tests (s : State) : List Move :=
  if s.cycle % 1024 != 0 then []
  else
    (s.teams.filter (fun t => t.resident && !t.ended)).map (fun t => Move.event (.replicationTest t.key))
    ++ s.threadEvents (fun th => match th.blk with | some (.future _ false) => true | _ => false) (fun th => .fwaitRecheck th)
    ++ (s.jobs.filter (fun j => !j.regs.isEmpty)).map (fun j => Move.event (.registrationRetry j.id))

/-- The events of ATTD commands whose time has come (04 R135, R136). -/
def State.attEvents (s : State) : List Move :=
  s.teams.flatMap (fun t => t.attn.flatMap (fun c =>
    if c.deadline = 0 then []
    else
      (if c.t0 + c.deadline = s.cycle then [Move.event (.attdDeadline t.key c.id)] else [])
      ++ (if c.t0 + c.deadline + 2 ^ 20 ≤ s.cycle then c.missing.map (fun st => Move.event (.attlost t.key c.id st)) else [])))

/-- The requests whose retransmissions have run out (15 R411). -/
def State.remEvents (s : State) (last : RemReq → Option Nat) : List Move :=
  s.teams.flatMap (fun t => t.chans.flatMap (fun c =>
    ((List.range c.slots.length).filter (fun n =>
      (c.slots[n]?.map (fun x => decide (x.st = .reserved) && ((x.req.bind last).map (fun c => decide (c ≤ s.cycle))).getD false)).getD false)).map
      (fun n => Move.event (.retransmissionExhausted t.key c.num n))))

/-- The events that are due in a cycle. -/
def State.due (s : State) : List Move :=
  (if s.cycle % 1200 = 0 then [Move.event .replenish] else [])
  ++ s.grantEvents ++ s.drumEvents ++ s.tests ++ s.attEvents ++ s.remEvents s.lastTry
  ++ s.threadEvents (fun th => match th.blk with
      | some (.phaser _ _ start timeout _) => timeout != 0 && decide (start + timeout ≤ s.cycle)
      | _ => false) (fun th => .phaserTimeout th)
  ++ (s.jobs.filter s.spent).map (fun j => Move.event (.budget j.id))
  ++ (s.groups.filter (fun g => match s.team g.key.team with
      | some t => decide (2 ^ t.wdog ≤ g.wcount)
      | none => false)).map (fun g => Move.event (.wdog g.key))
  ++ (s.teams.filter (fun t => decide (4096 ≤ t.qdead))).map (fun t => Move.event (.qdead t.key))
  ++ (s.xpend.filter (fun x => decide (x.2.2 ≤ s.cycle))).map (fun x => Move.event (.crossbarAction x.1))
  ++ (if s.cycle % 2 ^ s.clave.ck = 0 then [Move.event .claveTick] else [])

/-- The next cycle: the completions of the last are counted (16 R423), then what time moves, the event queue, the mailbox, and
the events that are due come onto the agenda. -/
def State.tick (s : State) : State :=
  let s := s.countAll
  let s := { s with cycle := s.cycle + 1 }
  let s := { s with groups := s.groups.map s.groupTime, teams := s.teams.map s.teamTime, jobs := s.jobs.map Job.passTime }
  let s := (s.drumCycle.sketchTime.claveTime.drainRecords).runMbox s.mq.length
  { s with agenda := s.agenda ++ s.due }

end Sys2Proof.Machine
end

