-- ==== Sys2Proof/Machine/Moves.lean ====
section
/-! DEFINITION. The moves that may come next where no rule orders them (05 R152, R162; log 2), and the fusion of passes
(06 R179). -/

namespace Sys2Proof.Machine

/-- The passes that groups may issue. -/
def State.issueMoves (s : State) : List Move :=
  (s.groups.filter (fun g => s.canIssue g && !g.current.isEmpty)).map (fun g => Move.issue g.key)

/-- What the scheduler may do. -/
def State.schedMoves (s : State) : List Move :=
  (if s.admq.isEmpty || s.ckpt then [] else [Move.event .admitJob])
  ++ (s.jobs.filter (fun j => (decide (j.st = .ready) || decide (j.st = .incoming)) && (s.mayStart j).isSome)).map (fun j => Move.event (.sliceStart j.id))
  ++ (s.jobs.filter (fun j => s.preemptDue j)).map (fun j => Move.event (.preempt j.id))
  ++ (s.jobs.filter (fun j => s.mayEnd j)).map (fun j => Move.event (.jobEnd j.id))

/-- What the walkers may do. -/
def State.walkMoves (s : State) : List Move :=
  (if s.walks.any s.walkMay then [Move.event .pageWalkStart] else [])
  ++ (s.walks.filter (fun w => w.walking)).map (fun w => Move.event (.pageWalkResult w.ctx w.vpn))

/-- The events of the commands at the heads of a team's streams. -/
def Team.streamMoves (t : Team) (s : State) : List Move :=
  let k := t.key
  (match t.copyq.head? with
   | some c =>
     (match c.kind with
      | .copy false lay coord _ _ _ g p => (lay.left coord g p).map (fun x => Move.event (.copyGranuleLanding k x.off))
      | .copy true lay coord _ _ _ g p => (lay.left coord g p).map (fun x => Move.event (.bstoreGranuleWrite k x.off))
      | .qstream _ _ n next _ => if next < n then [Move.event (.qstreamLinePush k)] else []
      | _ => [])
   | none => [])
  ++ (if t.gsq.isEmpty then [] else [Move.event (.gatherChunk k)])
  ++ (match t.drainq.head? with
      | some c =>
        (match c.kind with
         | .drain op _ _ _ rd ls _ done _ =>
           ((List.range (if rd then ls.length else 1)).filter (fun i => !done.contains i)).map (fun i =>
             Move.event (if op = 1 then .tileUpdate k i else .drainLineWrite k i))
         | _ => [])
      | none => [])
  ++ (List.range 3).flatMap (fun n =>
      match (t.stream n).head? with
      | some c => if s.cmdOver c then [Move.event (.commandPerformed k n)] else []
      | none => [])

/-- The events of a team's accesses and requests in flight. -/
def Team.accessMoves (t : Team) (cycle : Nat) : List Move :=
  let k := t.key
  t.reqs.map (fun r => Move.event (.loadReturn k r.id))
  ++ t.fills.map (fun f => Move.event (.queueEntryArrival k f.id))
  ++ t.stores.map (fun r => Move.event (.storeOrdered k r.id))
  ++ t.queues.flatMap (fun q => (q.stqs.filter (fun e => e.data.isSome)).map (fun e => Move.event (.stqWrite k e.id)))
  ++ t.attn.flatMap (fun c => c.missing.map (fun st => Move.event (.tripleArrival k c.id st)) ++ [Move.event (.attdEntryDelivery k c.id)])
  ++ t.chans.flatMap (fun c => c.order.take 1 |>.map (fun n => Move.event (.channelQueueDelivery k c.num n)))
  ++ (t.vecq.filter (fun d => (t.dueNow cycle d.1).isSome)).map (fun d => Move.event (.completionVectoring d.1))

/-- The moves that may come next. -/
def State.moves (s : State) : List Move :=
  Move.tick :: s.issueMoves ++ s.schedMoves ++ s.walkMoves
  ++ s.teams.flatMap (fun t => t.streamMoves s ++ t.accessMoves s.cycle)
  ++ s.threadEvents (fun th => (th.kv.map (fun q => q.out.isNone)).getD false) (fun th => .kvProbe th)
  ++ s.threadEvents (fun th => th.dreq.isSome) (fun th => .debugStop th)
  ++ (s.groups.filter (fun g => !g.mmas.isEmpty)).map (fun g => Move.event (.mmaCompletion g.key none none))
  ++ s.strays.map (fun x => Move.event (.tripleArrival x.1 x.2.1 x.2.2.1))
  ++ s.remEvents s.firstTry
  ++ s.xpend.map (fun x => Move.event (.crossbarAction x.1))
  ++ (if s.clave.frames.isEmpty then [] else [Move.event .claveFrameWrite])

/-! ### Fusion (06 R179) -/

/-- May a word be issued by a fused pass (R179)? -/
def fusable : Instr → Bool
  | .mma _ | .mmaz _ | .tcfg _ | .tzero _ | .tmovfF32 _ | .tmovfBf16 _ | .tmovtF32 _ | .tmovtBf16 _ => false
  | .tdrain _ | .tdrainAdd _ | .tstsp _ | .tchk _ | .qpopb _ | .qpushb _ | .qpopo _ => false
  | .kopMov _ | .kopAnd _ | .kopOr _ | .kopAndn _ | .kopNz _ | .kopFromp _ | .kopTop _ => false
  | .voteAny _ | .voteAll _ | .voteBallot _ | .elect _ | .shflIdx _ | .shflUp _ | .shflDown _ | .shflXor _ => false
  | .qnt _ | .qscl _ | .dq _ | .hdrr _ => false
  | _ => true

/-- Where a set stands: the PC and DEPTH of its first thread. -/
def Group.stands (g : Group) (l : List Nat) : Option (Pc × Nat) := l.head?.map (fun t => ((g.thr t).pc, (g.thr t).depth))

/-- May the passes of two groups, which both begin, be one fused pass (R179)? Each word of the chain must be one that may. -/
def State.fuses (s : State) (g h : Group) : Bool :=
  let a := g.current
  let b := h.current
  g.key.exe && h.key.exe && decide (g.key.team = h.key.team) && g.key.quad == h.key.quad && decide (g.key.grp < h.key.grp)
    && s.canIssue g && s.canIssue h && !a.isEmpty && !b.isEmpty && g.stands a == h.stands b
    && g.heldNow.isEmpty && h.heldNow.isEmpty && decide (a.length + b.length ≤ 32)
    && (match s.fetch { gk := g.key, thr := a.headD 0 } (g.thr (a.headD 0)).pc with
        | .word w s => (s.fetchChain { gk := g.key, thr := a.headD 0 } 2 (g.thr (a.headD 0)).pc w).1.all
            (fun x => ((decode x.2).map fusable).getD false)
        | _ => false)

/-- Where the part fuses a pass with that of another group, which it may wherever R179 allows it, the pass of the higher
group comes next, and the fused pass is counted (16 R422). -/
def State.fuse (s : State) (m : Move) : State :=
  match m with
  | .issue gk =>
    if !Config.fuse s.fresh then s
    else
      match (s.group gk).bind (fun g => s.groups.find? (fun h => s.fuses g h)) with
      | some h =>
        ({ s with agenda := .issue h.key :: s.agenda }).modCore (s.coreOf gk.team) (fun c => { c with fused := (c.fused + 1) % 2 ^ 64 })
      | none => s
  | _ => s

/-- A cycle ends once its requests for energy have been granted as far as the levels cover them (15 R403). -/
def State.ending (s : State) (m : Move) : Move × State :=
  match m, s.grantEvents with
  | .tick, g :: rest => (g, { s with agenda := rest ++ [.tick] })
  | m, _ => (m, s)

/-- The move that comes next: the first of the agenda, else one of those that may. -/
def State.nextMove (s : State) : Move × State :=
  match s.agenda with
  | m :: rest => (m, { s with agenda := rest })
  | [] =>
    let m := s.moves.getD (Config.pick s.fresh % s.moves.length) .tick
    (s.fuse m).bump.ending m

end Sys2Proof.Machine
end

