-- ==== Sys2Proof/Machine/Step.lean ====
section
/-! DEFINITION. One step of the machine: the next move (log 2), and the placing of one instruction where the next step
issues it. -/

namespace Sys2Proof.Machine

/-- One move: an issue pass, an event, the next cycle. -/
def runMove (m : Move) (s : State) : Host.Outcome State Fault Refusal :=
  match m with
  | .issue gk => issueWith exec s gk
  | .event i => exec i s
  | .tick => .next s.tick

/-- One step: a move, then BLOCKED threads that are to stop do so (16 R416), and those whose conditions have ended wake (06
R184). -/
def step (s : State) : Host.Outcome State Fault Refusal :=
  match runMove s.nextMove.1 s.nextMove.2 with
  | .next t => .next t.stopBlocked.wake
  | o => o

/-! ### One instruction (log 15) -/

/-- The PC of the placed instruction: word 0 of a packet, in the first page. -/
def placedPc : Nat := 0xC000

/-- The job that runs it, in context 0. -/
def placedJob (id : Nat) : Job where
  id := id
  ctx := 0
  keyslot := 0
  deadline := 0
  budget := 2 ^ 48 - 1
  left := 2 ^ 48 - 1
  tev := none
  tevDone := false
  rev := []
  pipe := { cw := 1, ch := 1, nclu := 1, tasks := false, spill := 0, spillc := 0, evovfc := 0, evovf := 0, stages := []
            queues := [], beats := [] }
  counter := 0
  regs := []
  st := .running
  started := true
  places := [0]
  fault := none
  aband := none
  moving := 0
  need := 0

/-- The group that runs it: of the access slice, unless the word is one that the execute slice alone has. -/
def placedKey (id w : Nat) : GroupKey where
  team := { job := id, clu := 0, idx := 0 }
  exe := match decodeTableWord 32 w with
    | some i => !sliceOk false i
    | none => false
  quad := 0
  grp := 0

/-- The leaf that maps the first page to itself: readable, writable, executable, under slot 0. -/
def placedPte : Dword := 0x1F#64

/-- The state with one instruction where the next step issues it: a job of context 0 with one team of one group on core 0,
whose 32 threads stand at the word, a translation of its page, and the issue as the next move. -/
def State.withFetchWord (s : State) (nbits w : Nat) : State :=
  let id := s.nextJob
  let w := w % 2 ^ nbits
  let key := placedKey id w
  let j := placedJob id
  let e : TlbEntry := { ctx := 0, base := 0, lvl := 4, pte := placedPte }
  { s.writePhys 0 placedPc (leBytes 4 w) with
    jobs := j :: s.jobs
    teams := { j.pipe.team key.team 0 with ended := false } :: s.teams
    groups := Group.fresh key 0 0 (BitVec.ofNat 57 placedPc) 1 8 8 :: s.groups
    cores := tabSet s.cores 0 { s.core 0 with tlb := e :: (s.core 0).tlb }
    agenda := .issue key :: s.agenda }

end Sys2Proof.Machine
end

