-- ==== Sys2Proof/WellFormed.lean ====
section
/-! DEFINITION. Well-formed instructions: those with a word of their own (07 R209) whose fields hold values that no rule
of the instruction forbids in both slices (07 R203). -/

namespace Sys2Proof

/-- Has an instruction an encoding of its own: every word of the opcode table but, for a compare, a condition
beyond the ten of 08 R240, whose words are those of predicate logic? -/
def Instr.encodable (i : Instr) : Bool :=
  (encode false i).isSome && match i with
    | .cmp f => decide (f.cc ≤ 9#4)
    | _ => true

/-- An instruction that a program may hold: it has an encoding, and its fields hold legal values. Slices and privilege
are conditions on the group that issues it (07 R209, R210), not on the instruction. -/
def Instr.wellFormed (i : Instr) : Bool := i.encodable && Machine.legal i

end Sys2Proof
end

