-- ==== Sys2Proof/Safety.lean ====
section
/-! DEFINITION. The terms in which claims are stated: what a safe state is, what it is for a group to issue a word, and the
shapes of the states that words of one shape leave. -/

namespace Sys2Proof.Machine

/-! ### Safe states -/

/-- Two copies of the slices that a lookup tells apart (03 R92, 01 R39). -/
def L2Line.apart (x y : L2Line) : Prop := x.line ≠ y.line ∨ x.slot ≠ y.slot ∨ x.slice ≠ y.slice

/-- Device memory and every scratchpad are in canonical form, and no slice holds a line twice under one slot. -/
def State.memoryWf (s : State) : Prop :=
  Memory.wf s.mem = true ∧ (∀ t ∈ s.teams, Memory.wf t.spad = true) ∧ s.l2.Pairwise L2Line.apart

/-! ### A word that issues -/

/-- A pass p of group g is under way, no control transfer has brought a thread of it into the middle of a chain (07 R199), and
no encoding, slice or privilege rule forbids instruction i to g (07 R203, R209, R210). -/
def Issues (s : State) (i : Instr) (p : Pass) (g : Group) : Prop :=
  s.pass = some p ∧ s.group p.gk = some g ∧ s.forbids p.gk i = false ∧ p.mid = []

/-- The lanes that act: the selected ones whose guard is true (07 R200). -/
def Pass.acting (p : Pass) (g : Group) (q : BitVec 3) : List Nat := p.sel.filter (fun t => (g.thr t).pred q)

/-- The registers rs of lane t are full (06 R185), and hold no uncorrectable error (14 R398). -/
abbrev Group.fullAt (g : Group) (e : Bool) (t : Nat) (rs : List Nat) : Prop :=
  ∀ r ∈ rs, g.regState e t r = .full ∧ ((g.thr t).cell e r).ecc = false

/-- The registers rs of every lane that acts are full. -/
def Pass.ready (p : Pass) (g : Group) (q : BitVec 3) (rs : List Nat) : Prop := ∀ t ∈ p.acting g q, g.fullAt p.gk.exe t rs

/-! ### Lanes on their own registers -/

/-- The state after a word whose acting lanes each become `new` of what they were; the other selected lanes move past
the word, and nothing else changes. -/
def State.afterLanes (s : State) (p : Pass) (g : Group) (q : BitVec 3) (new : Nat → Thread → Thread) : State :=
  s.modGroup p.gk (fun h => h.mapThreads (fun t th =>
    if (p.acting g q).contains t then new t th else if p.sel.contains t then th.advance else th))

/-- Instruction i, under guard q and with the registers rs full, does `new` to each acting lane, and nothing else. -/
def LaneWise (i : Instr) (q : BitVec 3) (rs : List Nat) (new : Pass → Group → Nat → Thread → Thread) : Prop :=
  ∀ (s : State) (p : Pass) (g : Group), Issues s i p g → p.ready g q rs →
    exec i s = .next (s.afterLanes p g q (new p g))

/-! ### Values of registers -/

/-- A register of a thread as a bit vector of the slice's width (08 R222). -/
def Thread.val (th : Thread) (e : Bool) (r : BitVec 5) : BitVec (width e) := BitVec.ofNat _ (th.rn e r.toNat)

/-- A register written, full, with its taint (05 R150). -/
def Thread.put (th : Thread) (e : Bool) (r : BitVec 5) (v : BitVec (width e)) (taint : Bool) : Thread :=
  th.wn e r.toNat v.toNat taint

/-- Is any of some registers tainted (05 R150)? -/
def Thread.tainted (th : Thread) (e : Bool) (rs : List (BitVec 5)) : Bool := rs.any (fun r => th.taintOf e r.toNat)

/-- Instruction `c f` writes fn of a and b to d, modulo 2^W, and goes on to the next word (08 R222). -/
def Binary (c : OpRG → Instr) (fn : (w : Nat) → BitVec w → BitVec w → BitVec w) : Prop :=
  ∀ f, LaneWise (c f) f.g [f.a.toNat, f.b.toNat, f.d.toNat] (fun p _ _ th =>
    (th.put p.gk.exe f.d (fn _ (th.val p.gk.exe f.a) (th.val p.gk.exe f.b)) (th.tainted p.gk.exe [f.a, f.b])).advance)

/-- Instruction `c f` writes fn of the old d, a and b to d. -/
def Ternary (c : OpRG → Instr) (fn : (w : Nat) → BitVec w → BitVec w → BitVec w → BitVec w) : Prop :=
  ∀ f, LaneWise (c f) f.g [f.a.toNat, f.b.toNat, f.d.toNat, f.d.toNat] (fun p _ _ th =>
    (th.put p.gk.exe f.d (fn _ (th.val p.gk.exe f.d) (th.val p.gk.exe f.a) (th.val p.gk.exe f.b))
      (th.tainted p.gk.exe [f.a, f.b, f.d])).advance)

/-- Instruction `c f` writes fn of a to d. -/
def Unary (c : OpDA → Instr) (fn : (w : Nat) → BitVec w → BitVec w) : Prop :=
  ∀ f, LaneWise (c f) f.g [f.a.toNat, f.d.toNat] (fun p _ _ th =>
    (th.put p.gk.exe f.d (fn _ (th.val p.gk.exe f.a)) (th.tainted p.gk.exe [f.a])).advance)

/-- Instruction `c f` writes fn of the old d and the immediate to d. -/
def Immediate (c : OpRI → Instr) (fn : (w : Nat) → BitVec w → BitVec 14 → BitVec w) : Prop :=
  ∀ f, LaneWise (c f) f.g [f.d.toNat, f.d.toNat] (fun p _ _ th =>
    (th.put p.gk.exe f.d (fn _ (th.val p.gk.exe f.d) f.imm) (th.tainted p.gk.exe [f.d])).advance)

/-! ### Lanes one after another -/

/-- The state after the lanes of a list in their order (06 R175): a lane whose guard is true does `one`, another moves past
the word. -/
def State.inTurn (s : State) (p : Pass) (g : Group) (q : BitVec 3) (one : State → ThreadKey → State) : List Nat → State
  | [] => s
  | t :: ts =>
    (if (g.thr t).pred q then one s ⟨p.gk, t⟩ else s.modThread ⟨p.gk, t⟩ Thread.advance).inTurn p g q one ts

/-- Every lane whose guard is true meets `C` in its turn. -/
def State.meetsInTurn (s : State) (p : Pass) (g : Group) (q : BitVec 3) (C : State → ThreadKey → Prop)
    (one : State → ThreadKey → State) : List Nat → Prop
  | [] => True
  | t :: ts =>
    ((g.thr t).pred q = true → C s ⟨p.gk, t⟩) ∧
    (if (g.thr t).pred q then one s ⟨p.gk, t⟩ else s.modThread ⟨p.gk, t⟩ Thread.advance).meetsInTurn p g q C one ts

/-- The registers ds of a thread hold no poison that a write would discard, nor wait (06 R185). -/
def State.fullNow (s : State) (th : ThreadKey) (ds : List Nat) : Prop :=
  ∀ g, s.group th.gk = some g → g.fullAt th.gk.exe th.thr ds

/-- Instruction i, under guard q, with the registers rs full, and with `C` and the registers ds full for each acting lane
in its turn, does `one` for these lanes in turn, and nothing else. The lanes that act go on to the next word. -/
def LanesInTurn (i : Instr) (q : BitVec 3) (rs ds : List Nat) (C : State → ThreadKey → Prop)
    (one : State → ThreadKey → State) : Prop :=
  ∀ (s : State) (p : Pass) (g : Group), Issues s i p g → p.ready g q rs →
    s.meetsInTurn p g q (fun s th => s.fullNow th ds ∧ C s th) one p.sel →
    exec i s = .next ((s.inTurn p g q one p.sel).withSel p.sel)

/-- The same for a word whose acting lanes leave the pass. -/
def LanesLeave (i : Instr) (q : BitVec 3) (rs ds : List Nat) (C : State → ThreadKey → Prop)
    (one : State → ThreadKey → State) : Prop :=
  ∀ (s : State) (p : Pass) (g : Group), Issues s i p g → p.ready g q rs →
    s.meetsInTurn p g q (fun s th => s.fullNow th ds ∧ C s th) one p.sel →
    exec i s = .next ((s.inTurn p g q one p.sel).withSel (p.sel.filter (fun t => !(g.thr t).pred q)))

/-- The same as `LanesInTurn` for a word that names a queue or a unit that the group must have: `M` says that it has. -/
def LanesInTurnIf (i : Instr) (q : BitVec 3) (M : State → GroupKey → Prop) (rs ds : List Nat) (C : State → ThreadKey → Prop)
    (one : State → ThreadKey → State) : Prop :=
  ∀ (s : State) (p : Pass) (g : Group), Issues s i p g → M s p.gk → p.ready g q rs →
    s.meetsInTurn p g q (fun s th => s.fullNow th ds ∧ C s th) one p.sel →
    exec i s = .next ((s.inTurn p g q one p.sel).withSel p.sel)

/-- The same as `LanesLeave` for such a word. -/
def LanesLeaveIf (i : Instr) (q : BitVec 3) (M : State → GroupKey → Prop) (rs ds : List Nat) (C : State → ThreadKey → Prop)
    (one : State → ThreadKey → State) : Prop :=
  ∀ (s : State) (p : Pass) (g : Group), Issues s i p g → M s p.gk → p.ready g q rs →
    s.meetsInTurn p g q (fun s th => s.fullNow th ds ∧ C s th) one p.sel →
    exec i s = .next ((s.inTurn p g q one p.sel).withSel (p.sel.filter (fun t => !(g.thr t).pred q)))

/-! ### Lanes that access memory -/

/-- A lane's request need not wait: its address is aligned and in range (09 R255), its translation is at hand, and the
location has nothing of the thread still to be performed. -/
def State.reachable (s : State) (th : ThreadKey) (acc : Acc) (r : MemReq) (waits : Loc → Bool) : Prop :=
  r.bad = false ∧ (r.spad = true ∨ s.xlatReady th r.va = true) ∧ ∀ l t, s.locate th acc r = .ok l t → waits l = false

/-- Instruction i, under guard q and `M`, with the registers rs full, every acting lane's request reachable, and `C` and the registers ds full for each acting lane in its turn, does `one` for
these lanes in turn, and nothing else. `C` and `one` get the first access number that the word can take. -/
def AccessInTurn (i : Instr) (q : BitVec 3) (M : State → GroupKey → Prop) (rs ds : List Nat) (acc : Acc)
    (req : State → ThreadKey → MemReq) (waits : State → ThreadKey → Loc → Bool) (C : Nat → State → ThreadKey → Prop)
    (one : Nat → State → ThreadKey → State) : Prop :=
  ∀ (s : State) (p : Pass) (g : Group), Issues s i p g → M s p.gk → p.ready g q rs →
    (∀ t ∈ p.acting g q, s.reachable ⟨p.gk, t⟩ acc (req s ⟨p.gk, t⟩) (waits s ⟨p.gk, t⟩)) →
    s.meetsInTurn p g q (fun u th => u.fullNow th ds ∧ C (s.nowId p.gk.team) u th) (one (s.nowId p.gk.team)) p.sel →
    exec i s = .next ((s.inTurn p g q (one (s.nowId p.gk.team)) p.sel).withSel p.sel)

/-- The same where what a lane waits for before the word is `G`; with `stay`, the acting lanes go on to the next word,
else they leave the pass. -/
def RoomInTurn (i : Instr) (q : BitVec 3) (M : State → GroupKey → Prop) (rs ds : List Nat)
    (G : State → ThreadKey → Prop) (C : Nat → State → ThreadKey → Prop) (one : Nat → State → ThreadKey → State) (stay : Bool) : Prop :=
  ∀ (s : State) (p : Pass) (g : Group), Issues s i p g → M s p.gk → p.ready g q rs →
    (∀ t ∈ p.acting g q, G s ⟨p.gk, t⟩) →
    s.meetsInTurn p g q (fun u th => u.fullNow th ds ∧ C (s.nowId p.gk.team) u th) (one (s.nowId p.gk.team)) p.sel →
    exec i s = .next ((s.inTurn p g q (one (s.nowId p.gk.team)) p.sel).withSel
      (if stay then p.sel else p.sel.filter (fun t => !(g.thr t).pred q)))

/-! ### The group as a whole -/

/-- Instruction i, under tile predicate k with all 32 threads selected, and under `C`, leaves `new` of the state with every
selected thread past the word (11 R313). -/
def GroupWise (i : Instr) (k : BitVec 4) (C : State → Pass → Group → Prop) (new : State → Pass → Group → State) : Prop :=
  ∀ (s : State) (p : Pass) (g : Group), Issues s i p g → g.kp k = true → p.sel.length = 32 → C s p g →
    exec i s = .next (advanceSel (new s p g) p)

end Sys2Proof.Machine
end

