-- ==== Sys2Proof/Certificates/Slice0/Obligations.lean ====
section
/-! DEFINITION. The statements for the provers, after the rules of spec/. -/

open Sys2Proof Sys2Proof.Machine

namespace Sys2Proof.Claims

/-- The field position and length of BFX and BFI (08 R249): b[5:0] and b[14:8]. -/
def fieldPos {w : Nat} (b : BitVec w) : Nat := (b.extractLsb' 0 6).toNat
/-- The length. -/
def fieldLen {w : Nat} (b : BitVec w) : Nat := (b.extractLsb' 8 7).toNat

/-- The ten conditions of CMP (07 R211). -/
def compared {w : Nat} (cc : BitVec 4) (a b : BitVec w) : Bool :=
  match cc.toNat with
  | 0 => a == b
  | 1 => a != b
  | 2 => a.slt b
  | 3 => a.sle b
  | 4 => b.slt a
  | 5 => b.sle a
  | 6 => a.ult b
  | 7 => a.ule b
  | 8 => b.ult a
  | _ => b.ule a

/-- Instruction `c f` writes op of two predicates to P1 and its complement to P2 (08 R241). -/
def PredicateLogic (c : OpPlop → Instr) (op : Bool → Bool → Bool) : Prop :=
  ∀ f, LaneWise (c f) f.g [] (fun _ _ _ th =>
    ((th.setPred f.p1 (op (th.pred f.a) (th.pred f.b))).setPred f.p2 (!op (th.pred f.a) (th.pred f.b))).advance)

/-- Instruction `c f` gives each participant t the a of lane `source t b` where that lane takes part, else its own; d is
tainted where any source read by a participant is (08 R243, R252). -/
def Shuffle (c : OpRG → Instr) (source : Nat → Nat → Option Nat) : Prop :=
  ∀ f, LaneWise (c f) f.g [f.a.toNat, f.b.toNat, f.d.toNat] (fun p g t th =>
    let part := p.acting g f.g
    let own := th.val p.gk.exe f.a
    let v := match source t (th.val p.gk.exe f.b).toNat with
      | some u => if part.contains u then (g.thr u).val p.gk.exe f.a else own
      | none => own
    (th.put p.gk.exe f.d v (part.any (fun u => (g.thr u).tainted p.gk.exe [f.a, f.b]))).advance)

/-- Function fn of major m, with registers in every slot, is instruction `c` (07 R204, R209). -/
def RowRG (m : BitVec 6) (fn : BitVec 5) (c : OpRG → Instr) : Prop :=
  ∀ (k : Bool) (f : OpRG), decode (joinRG k m { g := f.g, d := f.d, a := f.a, b := f.b, pa := BitVec.ofBool f.pa
                                                pb := BitVec.ofBool f.pb, fn := fn }) = some (c f)

/-- Function fn of major m, with slot b zero, is instruction `c`, and no instruction with slot b not zero. -/
def RowDA (m : BitVec 6) (fn : BitVec 5) (c : OpDA → Instr) : Prop :=
  (∀ (k : Bool) (f : OpDA), decode (joinRG k m { g := f.g, d := f.d, a := f.a, b := 0#5, pa := BitVec.ofBool f.pa
                                                 pb := 0#1, fn := fn }) = some (c f)) ∧
  ∀ (k : Bool) (r : FmtRG), r.fn = fn → r.b ≠ 0#5 → decode (joinRG k m r) = none

/-- Functions n and above of major m are unallocated. -/
def NoRow (m : BitVec 6) (n : BitVec 5) : Prop := ∀ (k : Bool) (r : FmtRG), n ≤ r.fn → decode (joinRG k m r) = none

end Sys2Proof.Claims

open Sys2Proof.Claims

/-- Integer arithmetic, division, minimum, maximum and selection give the results of their tables. ADD, SUB, MUL, MULHI.s,
MULHI.u, MAD, DIVS, DIVU, REMS, REMU, MIN.s, MIN.u, MAX.s, MAX.u, ABS and SEL, issued by a group that may execute
them, with their registers full in every lane that acts, answer the next state: each lane that acts holds the table's
result modulo 2^W in d and stands at the next word, each selected lane whose guard is false stands at the next word,
and nothing else in the machine changes. Division by zero and the most negative dividend give the values of the table.
SEL is executed by every selected lane. Majors 0x08 and 0x09 hold them under the functions of the tables, and no
other. (R245, R246) -/
def Obligations.IntegerArithmeticComputesTheRules : Prop :=
  Binary .add (fun _ a b => a + b) ∧
  Binary .sub (fun _ a b => a - b) ∧
  Binary .mul (fun _ a b => a * b) ∧
  Binary .mulhiS (fun w a b => ((a.signExtend (2 * w) * b.signExtend (2 * w)) >>> w).setWidth w) ∧
  Binary .mulhiU (fun w a b => ((a.setWidth (2 * w) * b.setWidth (2 * w)) >>> w).setWidth w) ∧
  Ternary .mad (fun _ d a b => d + a * b) ∧
  Binary .divs (fun w a b => if b = 0 then BitVec.allOnes w else a.sdiv b) ∧
  Binary .divu (fun w a b => if b = 0 then BitVec.allOnes w else a / b) ∧
  Binary .rems (fun _ a b => if b = 0 then a else a.srem b) ∧
  Binary .remu (fun _ a b => if b = 0 then a else a % b) ∧
  Binary .minS (fun _ a b => if b.slt a then b else a) ∧
  Binary .minU (fun _ a b => if b < a then b else a) ∧
  Binary .maxS (fun _ a b => if a.slt b then b else a) ∧
  Binary .maxU (fun _ a b => if a < b then b else a) ∧
  Unary .abs (fun _ a => a.abs) ∧
  (∀ f : OpSel, LaneWise (.sel f) 7#3 [f.a.toNat, f.b.toNat, f.d.toNat] (fun p _ _ th =>
    (th.put p.gk.exe f.d (if th.pred f.pc then th.val p.gk.exe f.a else th.val p.gk.exe f.b)
      (th.tainted p.gk.exe [f.a, f.b])).advance)) ∧
  RowRG 8#6 0#5 .add ∧ RowRG 8#6 1#5 .sub ∧ RowRG 8#6 2#5 .mul ∧ RowRG 8#6 3#5 .mulhiS ∧ RowRG 8#6 4#5 .mulhiU ∧
  RowRG 8#6 5#5 .mad ∧ NoRow 8#6 6#5 ∧
  RowRG 9#6 0#5 .divs ∧ RowRG 9#6 1#5 .divu ∧ RowRG 9#6 2#5 .rems ∧ RowRG 9#6 3#5 .remu ∧ RowRG 9#6 4#5 .minS ∧
  RowRG 9#6 5#5 .minU ∧ RowRG 9#6 6#5 .maxS ∧ RowRG 9#6 7#5 .maxU ∧ RowDA 9#6 8#5 .abs ∧
  RowRG 9#6 9#5 (fun f => .sel { pc := f.g, d := f.d, a := f.a, b := f.b, pa := f.pa, pb := f.pb }) ∧ NoRow 9#6 10#5

/-- Logic, shifts, rotates, counts and bit fields give the results of their tables. AND, OR, XOR, ANDN, SHL, SHR, SAR,
ROL, CLZ, POPC, BREV, MOV, BFX and BFI, issued by a group that may execute them, with their registers full in every
lane that acts, answer the next state: each lane that acts holds the table's result in d and stands at the next word,
and nothing else changes. BFX gives the field of length b[14:8] at b[5:0], absent bits 0; BFI puts the low bits of a
at that field and leaves every other bit of d. Majors 0x0A and 0x0B hold them under the functions of the table, and no
other; the unary functions require b = 0. (R248, R249) -/
def Obligations.LogicShiftsAndBitFieldsComputeTheRules : Prop :=
  Binary .and (fun _ a b => a &&& b) ∧
  Binary .or (fun _ a b => a ||| b) ∧
  Binary .xor (fun _ a b => a ^^^ b) ∧
  Binary .andn (fun _ a b => a &&& ~~~b) ∧
  Binary .shl (fun w a b => a <<< (b.toNat % w)) ∧
  Binary .shr (fun w a b => a >>> (b.toNat % w)) ∧
  Binary .sar (fun w a b => a.sshiftRight (b.toNat % w)) ∧
  Binary .rol (fun w a b => a.rotateLeft (b.toNat % w)) ∧
  Unary .clz (fun _ a => a.clz) ∧
  Unary .popc (fun _ a => a.cpop) ∧
  Unary .brev (fun _ a => a.reverse) ∧
  Unary .mov (fun _ a => a) ∧
  Binary .bfx (fun w a b => (a >>> fieldPos b) &&& BitVec.ofNat w (2 ^ fieldLen b - 1)) ∧
  Ternary .bfi (fun w d a b =>
    let m : BitVec w := BitVec.ofNat w (2 ^ fieldLen b - 1) <<< fieldPos b
    (d &&& ~~~m) ||| ((a <<< fieldPos b) &&& m)) ∧
  RowRG 10#6 0#5 .and ∧ RowRG 10#6 1#5 .or ∧ RowRG 10#6 2#5 .xor ∧ RowRG 10#6 3#5 .andn ∧ RowRG 10#6 4#5 .shl ∧
  RowRG 10#6 5#5 .shr ∧ RowRG 10#6 6#5 .sar ∧ RowRG 10#6 7#5 .rol ∧ RowDA 10#6 8#5 .clz ∧ RowDA 10#6 9#5 .popc ∧
  RowDA 10#6 10#5 .brev ∧ RowDA 10#6 11#5 .mov ∧ NoRow 10#6 12#5 ∧
  RowRG 11#6 0#5 .bfx ∧ RowRG 11#6 1#5 .bfi ∧ NoRow 11#6 2#5

/-- The immediate words, LEA, compares, predicate logic, votes, elections and shuffles give the results of their rules.
MOVI, MOVHI, ADD, AND, OR, XOR, SHL and SHR with an immediate, and LEA hold the table's result in d (MOVI reads no
register; MOVI and MOVHI leave d untainted; LEA carries the taint of its base). CMP under each of its ten conditions,
PLOP.AND, PLOP.OR, PLOP.XOR and PLOP.ANDN write their result to P1 and its complement to P2; VOTE.ANY, VOTE.ALL,
VOTE.BALLOT and ELECT give each participant the OR, the AND, the mask of the participants with pa true, and whether it
is the lowest-indexed; SHFL.IDX, SHFL.UP, SHFL.DOWN and SHFL.XOR give each participant the a of its source lane where
that lane takes part, and its own a otherwise, all reads before any write. The words are issued by a group that may
execute them, with their registers full; the participants are the selected lanes whose guard is true; each goes to the
next word and nothing else changes. (R240, R241, R243, R250, R251) -/
def Obligations.ImmediatesComparesAndLanesFollowTheRules : Prop :=
  (∀ f : OpRI, LaneWise (.movi f) f.g [f.d.toNat] (fun p _ _ th =>
    (th.put p.gk.exe f.d (f.imm.signExtend _) false).advance)) ∧
  (∀ f : OpRI, LaneWise (.movhi f) f.g [f.d.toNat, f.d.toNat] (fun p _ _ th =>
    (th.put p.gk.exe f.d (th.val p.gk.exe f.d <<< 14 ||| f.imm.setWidth _) false).advance)) ∧
  Immediate .addImm (fun w d i => d + i.signExtend w) ∧
  Immediate .andImm (fun w d i => d &&& i.signExtend w) ∧
  Immediate .orImm (fun w d i => d ||| i.setWidth w) ∧
  Immediate .xorImm (fun w d i => d ^^^ i.setWidth w) ∧
  Immediate .shlImm (fun _ d i => d <<< i.toNat) ∧
  Immediate .shrImm (fun _ d i => d >>> i.toNat) ∧
  (∀ f : OpLea, LaneWise (.lea f) 7#3 [f.a.toNat, f.d.toNat] (fun _ _ _ th =>
    (th.put false f.d (th.val false f.a + f.off.signExtend _ <<< f.w.toNat) (th.tainted false [f.a])).advance)) ∧
  (∀ f : OpCmp, LaneWise (.cmp f) f.g [f.a.toNat, f.b.toNat] (fun p _ _ th =>
    ((th.setPred f.p1 (compared f.cc (th.val p.gk.exe f.a) (th.val p.gk.exe f.b))).setPred f.p2
      (!compared f.cc (th.val p.gk.exe f.a) (th.val p.gk.exe f.b))).advance)) ∧
  PredicateLogic .plopAnd (· && ·) ∧ PredicateLogic .plopOr (· || ·) ∧ PredicateLogic .plopXor (· ^^ ·) ∧
  PredicateLogic .plopAndn (fun a b => a && !b) ∧
  (∀ f : OpVote, LaneWise (.voteAny f) f.g [] (fun p g _ th =>
    (th.setPred f.d ((p.acting g f.g).any (fun u => (g.thr u).pred f.a))).advance)) ∧
  (∀ f : OpVote, LaneWise (.voteAll f) f.g [] (fun p g _ th =>
    (th.setPred f.d ((p.acting g f.g).all (fun u => (g.thr u).pred f.a))).advance)) ∧
  (∀ f : OpBallot, LaneWise (.voteBallot f) f.g [f.d.toNat] (fun p g _ th =>
    (th.wn p.gk.exe f.d.toNat (((p.acting g f.g).filter (fun u => (g.thr u).pred f.a)).map (2 ^ ·)).sum false).advance)) ∧
  (∀ f : OpElect, LaneWise (.elect f) f.g [] (fun p g t th =>
    (th.setPred f.d ((p.acting g f.g).all (fun u => decide (t ≤ u)))).advance)) ∧
  Shuffle .shflIdx (fun _ b => some (b % 32)) ∧
  Shuffle .shflUp (fun t b => if b ≤ t then some (t - b) else none) ∧
  Shuffle .shflDown (fun t b => if t + b ≤ 31 then some (t + b) else none) ∧
  Shuffle .shflXor (fun t b => some (t ^^^ (b % 32)))

namespace Sys2Proof.Claims

/-! ### Arithmetic of the execute slice -/

/-- MOD of source a as bits (07 R204, 10 R288): none, changed sign, cleared sign, set sign, of the sign bit at position n. -/
def modified (md : BitVec 2) (n : Nat) (a : BitVec 32) : BitVec 32 :=
  let sign : BitVec 32 := 1#32 <<< n
  match md.toNat with
  | 0 => a
  | 1 => a ^^^ sign
  | 2 => a &&& ~~~sign
  | _ => a ||| sign

/-- A thread that has written a result to d and added its events to FPSTAT (07 R216), at the next word. -/
def withResult (th : Thread) (d : BitVec 5) (r : Nat × Nat) : Thread :=
  let t := th.wn true d.toNat r.1 false
  { t with fpstat := th.fpstat ||| BitVec.ofNat 64 r.2 }.advance

/-- An FP32 register under MOD, as a code. -/
def modified32 (md : BitVec 2) (th : Thread) (a : BitVec 5) : Nat := (modified md 31 (th.val true a)).toNat

/-- Instruction `c f` gives d a result of a under MOD and b, with its events. -/
def Float2 (c : OpFp → Instr) (fn : Nat → Nat → Nat × Nat) : Prop :=
  ∀ f, LaneWise (c f) f.g [f.a.toNat, f.b.toNat, f.d.toNat] (fun _ _ _ th =>
    withResult th f.d (fn (modified32 f.md th f.a) (th.rn true f.b.toNat)))

/-- Instruction `c f` gives d a result of a under MOD, with its events. -/
def Float1 (c : OpFp1 → Instr) (fn : Nat → Nat × Nat) : Prop :=
  ∀ f, LaneWise (c f) f.g [f.a.toNat, f.d.toNat] (fun _ _ _ th => withResult th f.d (fn (modified32 f.md th f.a)))

/-- Instruction `c f` gives d a result of a, with its events. -/
def Converts (c : OpDA → Instr) (fn : Nat → Nat × Nat) : Prop :=
  ∀ f, LaneWise (c f) f.g [f.a.toNat, f.d.toNat] (fun _ _ _ th => withResult th f.d (fn (th.rn true f.a.toNat)))

/-- Two halves of one word, and the events of both. -/
def packed (lo hi : Nat × Nat) : Nat × Nat := (lo.1 + hi.1 * 2 ^ 16, lo.2 ||| hi.2)

/-- The halves of a word. -/
def lowHalf (w : Nat) : Nat := w % 2 ^ 16
/-- The high half. -/
def highHalf (w : Nat) : Nat := w / 2 ^ 16

/-- A register with MOD applied to each half (10 R288). -/
def modified16 (md : BitVec 2) (th : Thread) (a : BitVec 5) : Nat := (modified md 15 (modified md 31 (th.val true a))).toNat

/-- Instruction `c f` gives each half of d a result of the halves of a under MOD, b, and d where it reads d (10 R293). -/
def Halves (c : OpFp → Instr) (readsD : Bool) (fn : Nat → Nat → Nat → Nat × Nat) : Prop :=
  ∀ f, LaneWise (c f) f.g ([f.a.toNat, f.b.toNat] ++ (if readsD then [f.d.toNat] else []) ++ [f.d.toNat]) (fun _ _ _ th =>
    let a := modified16 f.md th f.a
    let b := th.rn true f.b.toNat
    let d := th.rn true f.d.toNat
    withResult th f.d (packed (fn (lowHalf a) (lowHalf b) (lowHalf d)) (fn (highHalf a) (highHalf b) (highHalf d))))

/-- The one rounding of an exact value into a format, NV where the operation was invalid (10 R287, 02 R75, R76). -/
def rounded (f : NumFmt) (r : FVal × Bool) : Nat × Nat := convert f r.1 r.2

/-- The value of a code as a rational number, where it is finite (02 R46). -/
def rational : FVal → Option ℚ
  | .fin n m e => some ((if n then -1 else 1) * m * (2 : ℚ) ^ e)
  | _ => none

/-- The bit of FCLASS for a code, from its sign, exponent and fraction (10 R290). -/
def classBit (a : BitVec 32) : Nat :=
  let neg := a.getLsbD 31
  let e := (a.extractLsb' 23 8).toNat
  let m := (a.extractLsb' 0 23).toNat
  if e = 255 then (if m = 0 then (if neg then 0 else 7) else if a.getLsbD 22 then 9 else 8)
  else if e = 0 then (if m = 0 then (if neg then 3 else 4) else if neg then 2 else 5)
  else if neg then 1 else 6

/-- What the words over register pairs write: the pair of d, and events. -/
def withPair (th : Thread) (d : BitVec 5) (r : Nat × Nat × Nat) : Thread :=
  let t := (th.wn true d.toNat r.1 false).wn true (d.toNat + 1) r.2.1 false
  { t with fpstat := th.fpstat ||| BitVec.ofNat 64 r.2.2 }

/-- The registers of a word over register pairs: a, a + 1, b, b + 1, then d, d + 1. -/
def pairRegs (f : OpRG) : List Nat := [f.a.toNat, f.a.toNat + 1, f.b.toNat, f.b.toNat + 1, f.d.toNat, f.d.toNat + 1]

/-- A block instruction under tile predicate k, with every selected lane a participant whose own registers are full, with the
scalars of the lowest full, with the list it reads full, and under `C`, does `f` to the group and moves the participants past the word (10 R300). -/
def BlockWise (i : Instr) (k : BitVec 4) (C : Pass → Group → Prop) (srcs : Nat → List Nat) (scalars : List Nat)
    (lst : Pass → Group → Option Nat) (dsts : Pass → Group → Nat → List Nat) (f : Pass → Group → Group → Group) : Prop :=
  ∀ (s : State) (p : Pass) (g : Group), Issues s i p g → g.kp k = true → p.sel ≠ [] → C p g →
    (∀ t ∈ p.sel, g.fullAt true t (srcs t ++ dsts p g t)) → (∀ t ∈ p.sel.take 1, g.fullAt true t scalars) →
    (∀ n, lst p g = some n → (g.ol n).st = .full ∧ (g.ol n).ecc = false) →
    exec i s = .next (s.modGroup p.gk (fun h =>
      (f p g h).mapThreads (fun t th => if p.sel.contains t then th.advance else th)))

/-- `qnt_block` on the elements and parameters of a QNT, from the participants (10 R303). -/
def quantised (f : OpQnt) (p : Pass) (g : Group) : Block × List Nat × Nat :=
  qntBlock (g.elements p.sel f.a.toNat (elemCount f.fmt.toNat)) (QParam.ofNat (g.scalar p.sel (f.a.toNat + 3))) f.fmt.toNat
    (g.scalar p.sel (f.a.toNat + 4)) (g.ol (b2n f.ol)).cnt f.elect

/-- A list register with values appended behind its count (10 R304). -/
def appended (vs : List Word) (o : OlReg) : OlReg :=
  { o with
    cnt := o.cnt + vs.length
    es := (List.range 64).map (fun j => if o.cnt ≤ j ∧ j < o.cnt + vs.length then vs.getD (j - o.cnt) 0 else o.es.getD j 0) }

end Sys2Proof.Claims

open Sys2Proof.Claims

/-- The FP32 words give each lane the result of its own operands under MOD, rounded once, with its own events. FADD, FSUB,
FMUL, FFMA, FMIN, FMAX, FCLASS, FRND, FRCP, FRSQ, FSQRT, FDIV, FEXP2, FLOG2, FSIN and FCOS, issued by an execute group
with their registers full, answer the next state: each lane that acts holds the result of its a, with the sign that
MOD gives it, its b and its old d; its FPSTAT gains the events of that result alone; it stands at the next word;
nothing else changes. The results are the exact ones of the model's arithmetic, rounded once (what a minimum, an
integral rounding, a quotient and a root are is stated in ArithmeticIsCorrectlyRounded). 0 times infinity sets NV
whatever FFMA adds (log 77, DESIGN CHOICE). Where the model's bounds of an FEXP2, FLOG2, FSIN or FCOS do not decide
the rounding, the result is the model's open value (log 14, DESIGN CHOICE). (R287, R288, R289, R290, R291) -/
def Obligations.FloatingPointWordsGiveTheirResults : Prop :=
  Float2 .fadd (fun a b => rounded .fp32 ((f32 a).add (f32 b))) ∧
  Float2 .fsub (fun a b => rounded .fp32 ((f32 a).add (f32 b).neg)) ∧
  Float2 .fmul (fun a b => rounded .fp32 ((f32 a).mul (f32 b))) ∧
  (∀ f : OpFp, LaneWise (.ffma f) f.g [f.a.toNat, f.b.toNat, f.d.toNat, f.d.toNat] (fun _ _ _ th =>
    withResult th f.d (rounded .fp32 ((f32 (modified32 f.md th f.a)).fma (f32 (th.rn true f.b.toNat))
      (f32 (th.rn true f.d.toNat)))))) ∧
  Float2 .fmin (minMaxNum false) ∧ Float2 .fmax (minMaxNum true) ∧
  Float1 .fclass (fun a => (2 ^ classBit (BitVec.ofNat 32 a), 0)) ∧
  (∀ f : OpFrnd, LaneWise (.frnd f) f.g [f.a.toNat, f.d.toNat] (fun _ _ _ th =>
    withResult th f.d (frndCode f.b.toNat (modified32 f.md th f.a)))) ∧
  Float1 .frcp (fun a => rounded .fp32 ((FVal.fin false 1 0).div (f32 a))) ∧
  Float1 .frsq (fun a => rounded .fp32 (f32 a).rsqrt) ∧
  Float1 .fsqrt (fun a => rounded .fp32 (f32 a).sqrt) ∧
  Float2 .fdiv (fun a b => rounded .fp32 ((f32 a).div (f32 b))) ∧
  Float1 .fexp2 (fun a => exp2Conv .fp32 (f32 a)) ∧ Float1 .flog2 (fun a => log2Conv .fp32 (f32 a)) ∧
  Float1 .fsin (fun a => sinPiConv .fp32 (f32 a)) ∧ Float1 .fcos (fun a => cosPiConv .fp32 (f32 a))

/-- The packed, conversion, header and codebook words give each lane the result of its own operands. HADD2, HMUL2 and
HFMA2 in BF16 and in FP16 compute the two halves on their own, each rounded once to its format; the FCVT and ICVT
words convert as their table says; HDRR reads the two bytes, OLB and OLN of the block at half h of a; HDRW changes SF
and SE in thread 16h alone; CBK gives thread t the weight t mod 8 of its index times b (the integer conversions are
stated in ArithmeticIsCorrectlyRounded). Issued by an execute group with their registers full, they answer the next
state in which each lane that acts holds its result, its FPSTAT gains its own events, it stands at the next word, and
nothing else changes. (R288, R293, R294, R295, R307, R308) -/
def Obligations.PackedWordsAndConversionsGiveTheirResults : Prop :=
  Halves .hadd2Bf16 false (fun a b _ => rounded .bf16 ((fpDecode .bf16 a).add (fpDecode .bf16 b))) ∧
  Halves .hmul2Bf16 false (fun a b _ => rounded .bf16 ((fpDecode .bf16 a).mul (fpDecode .bf16 b))) ∧
  Halves .hfma2Bf16 true (fun a b d => rounded .bf16 ((fpDecode .bf16 a).fma (fpDecode .bf16 b) (fpDecode .bf16 d))) ∧
  Halves .hadd2F16 false (fun a b _ => rounded .fp16 ((fpDecode .fp16 a).add (fpDecode .fp16 b))) ∧
  Halves .hmul2F16 false (fun a b _ => rounded .fp16 ((fpDecode .fp16 a).mul (fpDecode .fp16 b))) ∧
  Halves .hfma2F16 true (fun a b d => rounded .fp16 ((fpDecode .fp16 a).fma (fpDecode .fp16 b) (fpDecode .fp16 d))) ∧
  Converts .fcvtF32Bf16 (fun a => convert .fp32 (fpDecode .bf16 (lowHalf a))) ∧
  Converts .fcvtF32Bf16Hi (fun a => convert .fp32 (fpDecode .bf16 (highHalf a))) ∧
  Converts .fcvtF32F16 (fun a => convert .fp32 (fpDecode .fp16 (lowHalf a))) ∧
  Converts .fcvtF32F16Hi (fun a => convert .fp32 (fpDecode .fp16 (highHalf a))) ∧
  (∀ f : OpRG, LaneWise (.fcvtBf16x2F32 f) f.g [f.a.toNat, f.b.toNat, f.d.toNat] (fun _ _ _ th => withResult th f.d
    (packed (convert .bf16 (f32 (th.rn true f.a.toNat))) (convert .bf16 (f32 (th.rn true f.b.toNat)))))) ∧
  (∀ f : OpRG, LaneWise (.fcvtF16x2F32 f) f.g [f.a.toNat, f.b.toNat, f.d.toNat] (fun _ _ _ th => withResult th f.d
    (packed (convert .fp16 (f32 (th.rn true f.a.toNat))) (convert .fp16 (f32 (th.rn true f.b.toNat)))))) ∧
  Converts .icvtSwF32 (toInt32 true false) ∧ Converts .icvtSwF32Rz (toInt32 true true) ∧
  Converts .icvtUwF32 (toInt32 false false) ∧ Converts .icvtUwF32Rz (toInt32 false true) ∧
  Converts .icvtF32Sw (fun a => convert .fp32 (.ofInt (BitVec.ofNat 32 a).toInt)) ∧
  Converts .icvtF32Uw (fun a => convert .fp32 (.ofInt a)) ∧
  (∀ f : OpHdr, LaneWise (.hdrr f) f.g [f.a.toNat, f.d.toNat] (fun p g _ th =>
    let b := g.blockAt (p.acting g f.g) f.a.toNat (b2n f.h)
    (th.wn true f.d.toNat (bbyte b 0 + bbyte b 1 * 2 ^ 8 + blkOlb b * 2 ^ 16 + blkOln b * 2 ^ 22) false).advance)) ∧
  (∀ f : OpHdr, LaneWise (.hdrw f) f.g [f.a.toNat, f.d.toNat, f.d.toNat] (fun _ _ t th =>
    if t = 16 * b2n f.h then
      let a := th.val true f.a
      let d := th.val true f.d
      (th.wn true f.d.toNat (d.extractLsb' 16 16 ++ a.extractLsb' 0 8 ++ d.extractLsb' 7 1 ++ a.extractLsb' 8 2
        ++ d.extractLsb' 0 5).toNat false).advance
    else th.advance)) ∧
  ∀ f : OpRG, LaneWise (.cbk f) f.g [f.a.toNat, f.b.toNat, f.d.toNat] (fun _ _ t th =>
    let ix := lowHalf (th.rn true f.a.toNat)
    withResult th f.d (if ix = 0xFFFF then (nan32, fNV)
      else rounded .fp32 ((halves ((vq2Halves ix).getD (t % 8) 0)).mul (f32 (th.rn true f.b.toNat)))))

/-- FCMP, ROPE and AMRG give each lane the result of its own operands. FCMP writes its condition of the ordering of a and
b to P1 and the complement to P2, and sets NV for a signalling NaN and, under LT, LE, GT and GE, for any NaN; AMRG
writes the merge of the pairs (a, a+1) and (b, b+1) to (d, d+1); ROPE writes the rotated pair (both are stated in
ArithmeticIsCorrectlyRounded). Issued by an execute group with their registers full, they answer the next state in
which each lane that acts holds its result and events and stands at the next word. A lane of ROPE whose position is
2^24 or more writes NaNs, sets RANGE, and, where RANGEE is set, takes RANGE after it has written, with the next word
as its resume PC, and leaves the pass. (R296, R297, R298, R299) -/
def Obligations.CompareRotateAndMergeGiveTheirResults : Prop :=
  (∀ f : OpFcmp, LaneWise (.fcmp f) f.g [f.a.toNat, f.b.toNat] (fun _ _ _ th =>
    let x := f32 (th.rn true f.a.toNat)
    let y := f32 (th.rn true f.b.toNat)
    let v := match x.cmp y with
      | none => f.cc == 1#3 || f.cc == 7#3
      | some o => [o == .eq, o != .eq, o == .lt, o != .gt, o == .gt, o != .lt, true, false].getD f.cc.toNat false
    let nv := x.isSnan || y.isSnan || ((2 ≤ f.cc.toNat && f.cc.toNat ≤ 5) && (x.isNan || y.isNan))
    let t := (th.setPred f.p1 v).setPred f.p2 (!v)
    { t with fpstat := th.fpstat ||| (if nv then 16#64 else 0#64) }.advance)) ∧
  (∀ f : OpRG, LaneWise (.amrg f) f.g (pairRegs f) (fun _ _ _ th =>
    (withPair th f.d (mergePair (th.rn true f.a.toNat) (th.rn true (f.a.toNat + 1)) (th.rn true f.b.toNat)
      (th.rn true (f.b.toNat + 1)))).advance)) ∧
  (∀ f : OpRG, LanesInTurn (.rope f) f.g (pairRegs f) [f.d.toNat, f.d.toNat + 1]
    (fun s th => ¬((s.thread th).rn true f.b.toNat ≥ 2 ^ 24 ∧ (s.thread th).rangee = true))
    (fun s th => let t := s.thread th
      (s.modThread th (fun u => withPair u f.d (ropeResult (t.rn true f.a.toNat) (t.rn true (f.a.toNat + 1))
        (t.rn true f.b.toNat) (t.rn true (f.b.toNat + 1))))).modThread th Thread.advance)) ∧
  ∀ f : OpRG, LanesLeave (.rope f) f.g (pairRegs f) [f.d.toNat, f.d.toNat + 1]
    (fun s th => (s.thread th).rn true f.b.toNat ≥ 2 ^ 24 ∧ (s.thread th).rangee = true)
    (fun s th => let t := s.thread th
      (s.modThread th (fun u => withPair u f.d (nan32, nan32, fRANGE))).takeTrap th
        { TrapInfo.at .range t.pc with resume := t.pc + 4 })

/-- QNT, QSCL and DQ quantise and decode the block of their participants. With every selected lane a participant whose
registers are full (those that hold its own elements or words, and the scalar parameters of the lowest-indexed), a
tile predicate that is true and the list that is read full: QNT with a parameter word that R302 accepts and room in
its list writes the block to half h of B, appends the elected values to the list and records the events in every
participant; QSCL with an accepted parameter word writes the word with the chosen scales and the scale codes to B and
B + 1; DQ with a block that passes the checks against its list, and whose elements fit below v32, writes the decoded
elements, 32 to a register, with their events. What the checks, the blocks and the scales are is stated in
BlocksFollowTheirPseudocode. The participants go to the next word and nothing else changes. (R300, R301, R302, R303,
R304, R305, R306) -/
def Obligations.QuantiseAndDecodeWordsActOnBlocks : Prop :=
  (∀ f : OpQnt, BlockWise (.qnt f) f.k
    (fun p g => b2n f.ol < g.ols.length ∧
      qparamBad (g.scalar p.sel (f.a.toNat + 3)) (g.scalar p.sel (f.a.toNat + 4)) (groupCount f.fmt.toNat) = false ∧
      (g.ol (b2n f.ol)).cnt + (quantised f p g).2.1.length ≤ 64)
    (heldBy f.a.toNat (elemCount f.fmt.toNat)) [f.a.toNat + 3, f.a.toNat + 4] (fun _ _ => some (b2n f.ol))
    (fun _ _ t => if t / 16 == b2n f.h then [f.b.toNat] else [])
    (fun p g h =>
      let r := quantised f p g
      let xs := g.elements p.sel f.a.toNat (elemCount f.fmt.toNat)
      (({ h with ols := updAt h.ols (b2n f.ol) (appended (r.2.1.map (fun e => listCode (xs.getD e .zero)))) }).mapThreads
        (fun t th => if p.sel.contains t then { th with fpstat := th.fpstat ||| BitVec.ofNat 64 r.2.2 } else th)).putBlock
        p.sel f.b.toNat (b2n f.h) r.1)) ∧
  (∀ f : OpQscl, BlockWise (.qscl f) f.k
    (fun p g =>
      qparamBad (g.scalar p.sel (f.a.toNat + 3)) (g.scalar p.sel (f.a.toNat + 4)) (groupCount f.fmt.toNat) = false)
    (heldBy f.a.toNat (elemCount f.fmt.toNat)) [f.a.toNat + 3, f.a.toNat + 4] (fun _ _ => none)
    (fun _ _ _ => [f.b.toNat, f.b.toNat + 1])
    (fun p g h =>
      let w := g.scalar p.sel (f.a.toNat + 3)
      let r := qntScales (g.elements p.sel f.a.toNat (elemCount f.fmt.toNat)) (QParam.ofNat w) f.fmt.toNat
        (g.scalar p.sel (f.a.toNat + 4)) f.elect
      let word := w / 2 ^ 19 * 2 ^ 19 + 2 ^ 18 + bits w 17 11 * 2 ^ 11 + r.2.2.1 % 4 * 2 ^ 8 + r.2.1 % 2 ^ 8
      let bytes := ((List.range r.2.2.2.length).map (fun j => r.2.2.2.getD j 0 * 2 ^ (8 * j))).sum
      h.mapThreads (fun t th =>
        if p.sel.contains t then (th.wn true f.b.toNat word false).wn true (f.b.toNat + 1) bytes false else th))) ∧
  ∀ f : OpDq, BlockWise (.dq f) f.k
    (fun p g =>
      let b := g.blockAt p.sel f.a.toNat (b2n f.h)
      f.b.toNat + dqRegs (blkFmt b) ≤ 32 ∧ checkBlock b (some (g.ol (b2n f.ol)).cnt) = none)
    (fun t => if t / 16 = b2n f.h then [f.a.toNat] else []) [] (fun p g => if blkOln (g.blockAt p.sel f.a.toNat (b2n f.h)) != 0 then some (b2n f.ol) else none)
    (fun p g _ => (List.range (dqRegs (blkFmt (g.blockAt p.sel f.a.toNat (b2n f.h))))).map (f.b.toNat + ·))
    (fun p g h =>
      let b := g.blockAt p.sel f.a.toNat (b2n f.h)
      let vs := (decodeValues b (g.ol (b2n f.ol)).es).map (fun v => convert .fp32 v)
      h.mapThreads (fun t th => if p.sel.contains t then
        (List.range (dqRegs (blkFmt b))).foldl (fun th j =>
          let r := vs.getD (32 * j + t) (0, 0)
          let th := th.wn true (f.b.toNat + j) r.1 false
          { th with fpstat := th.fpstat ||| BitVec.ofNat 64 r.2 }) th
        else th))

/-- Sums and products of finite values are exact before their one rounding, which goes to the nearest code, ties to even.
For every two or three finite values, the model's sum, product and fused product are the rational sum, product and a
times b plus c, finite and not invalid; an exact zero sum is +0 unless both operands are -0. For FP32, BF16 and FP16
and every finite value x: where the converted code is finite, no finite code of the format lies nearer to x, and where
another lies equally near with another value, the converted code is even. Its sign is that of x. (R74, R75, R287,
R289) -/
def Obligations.ExactArithmeticIsExactAndRoundsToNearestEven : Prop :=
  (∀ (n k : Bool) (m l : Nat) (e d : Int),
    let x := FVal.fin n m e
    let y := FVal.fin k l d
    (∃ a b, rational x = some a ∧ rational y = some b ∧
      rational (x.add y).1 = some (a + b) ∧ (x.add y).2 = false ∧
      rational (x.mul y).1 = some (a * b) ∧ (x.mul y).2 = false ∧
      (a + b = 0 → (x.add y).1 = .fin (n && k && m = 0 && l = 0) 0 0) ∧
      ∀ (j : Bool) (i : Nat) (c : Int), ∃ z, rational (.fin j i c) = some z ∧
        rational (x.fma y (.fin j i c)).1 = some (a * b + z) ∧ (x.fma y (.fin j i c)).2 = false)) ∧
  ∀ f ∈ [NumFmt.fp32, NumFmt.bf16, NumFmt.fp16], ∀ (n : Bool) (m : Nat) (e : Int),
    let c := (convert f (.fin n m e)).1
    c < 2 ^ f.width ∧ c.testBit (f.width - 1) = n ∧
    ∀ x y, rational (.fin n m e) = some x → rational (fpDecode f c) = some y →
      ∀ c' z, c' < 2 ^ f.width → rational (fpDecode f c') = some z →
        |y - x| ≤ |z - x| ∧ (|y - x| = |z - x| → y ≠ z → c % 2 = 0)

namespace Sys2Proof.Claims

/-! ### Numbers, blocks and cells -/

/-- The FP32 code of a result is the one nearest to x, ties to even; beyond the middle of the last finite value and 2^128 it is
the infinity of x's sign (02 R74, R75). -/
def NearestF32 (c : Nat) (x : ℝ) : Prop :=
  c < 2 ^ 32 ∧ (x < 0 → c.testBit 31 = true) ∧ (0 < x → c.testBit 31 = false) ∧
  ((∃ y, rational (f32 c) = some y ∧ ∀ d z, d < 2 ^ 32 → rational (f32 d) = some z →
      |(y : ℝ) - x| ≤ |(z : ℝ) - x| ∧ (|(y : ℝ) - x| = |(z : ℝ) - x| → y ≠ z → c % 2 = 0)) ∨
    (c % 2 ^ 31 = 0x7F800000 ∧ 2 ^ 128 - 2 ^ 103 ≤ |x|))

/-- The code of an infinity of a sign. -/
def infinityCode (n : Bool) : Nat := if n then 0xFF800000 else 0x7F800000

/-- The code of a zero of a sign. -/
def zeroCode (n : Bool) : Nat := if n then 0x80000000 else 0

/-- The order of the FP32 codes that are no NaN, with -0 below +0 (10 R290). -/
def codeKey (c : Nat) : ℤ := if c.testBit 31 then -((c % 2 ^ 31 : Nat) : ℤ) - 1 else ((c % 2 ^ 31 : Nat) : ℤ)

/-- The integer that a value is rounded to: to nearest with ties to even, towards zero, down, up (10 R290). -/
def roundInt (mode : Nat) (x : ℚ) : ℤ :=
  match mode with
  | 0 => if x - ⌊x⌋ < 1 / 2 ∨ x - ⌊x⌋ = 1 / 2 ∧ ⌊x⌋ % 2 = 0 then ⌊x⌋ else ⌊x⌋ + 1
  | 1 => if x < 0 then ⌈x⌉ else ⌊x⌋
  | 2 => ⌊x⌋
  | _ => ⌈x⌉

/-- The exact sum of two results, with whether anything on the way was invalid. -/
def sumOf (p q : FVal × Bool) : FVal × Bool := ((p.1.add q.1).1, p.2 || q.2 || (p.1.add q.1).2)

/-- A result with its sign changed. -/
def negated (p : FVal × Bool) : FVal × Bool := (p.1.neg, p.2)

/-! Blocks -/

/-- n bits of a block from bit lo on (02 R56). -/
def bitsAt (b : Block) (lo n : Nat) : Nat := b.toNat / 2 ^ lo % 2 ^ n

/-- The groups of a format with scale bytes: their number, the bytes of one with its scale byte, its units, the bits of a
unit (02 R55, R78). -/
def grouping (fmt : Nat) : Nat × Nat × Nat × Nat :=
  if fmt = 4 ∨ fmt = 5 ∨ fmt = 6 then (2, 25, 24, 8) else if fmt = 7 ∨ fmt = 8 then (3, 19, 24, 6)
  else if fmt = 9 ∨ fmt = 10 then (4, 13, 24, 4) else if fmt = 11 then (8, 7, 3, 16) else (0, 0, 0, 0)

/-- The number of groups, and of the units of one. -/
def groupsOf (fmt : Nat) : Nat := (grouping fmt).1
/-- The units of a group. -/
def unitsOf (fmt : Nat) : Nat := (grouping fmt).2.2.1

/-- Unit k of a block, in order over its groups (02 R56). -/
def unitOf (b : Block) (fmt k : Nat) : Nat :=
  bitsAt b (8 * (2 + k / unitsOf fmt * (grouping fmt).2.1) + (grouping fmt).2.2.2 * (k % unitsOf fmt)) (grouping fmt).2.2.2

/-- The scale byte of group g (02 R55). -/
def scaleOf (b : Block) (fmt g : Nat) : Nat := bitsAt b (8 * (2 + (g + 1) * (grouping fmt).2.1 - 1)) 8

/-- Is unit k an escape (02 R62)? -/
def escapeAt (b : Block) (fmt k : Nat) : Bool :=
  (fmt == 9 || fmt == 10) && unitOf b fmt k == 8 || fmt == 11 && unitOf b fmt k == 0xFFFF

/-- The escapes among the first k units. -/
def escapesBefore (b : Block) (fmt k : Nat) : Nat := ((List.range k).filter (escapeAt b fmt)).length

/-- The bit where OLB stands, with OLN eight bits above it (02 R63). -/
def outlierBit (fmt : Nat) : Nat := if fmt = 11 then 8 * 58 else 8 * 54

/-- Does a format have escapes (02 R62)? -/
def escaping (fmt : Nat) : Bool := fmt == 9 || fmt == 10 || fmt == 11

/-- The bytes of a layout; those above it are reserved (02 R55, R57, R63). -/
def layoutBytes (fmt : Nat) : Nat :=
  if fmt = 0 then 64 else if fmt = 1 then 62 else if fmt = 2 ∨ fmt = 3 then 50
  else 2 + groupsOf fmt * (grouping fmt).2.1 + if escaping fmt then 2 else 0

/-- The width in bytes of a value of an SPB block (02 R59). -/
def spbBytes (b : Block) : Nat := if bitsAt b 23 1 = 1 then 2 else 4

/-- The columns below c that an SPB block has. -/
def columnsBelow (b : Block) (c : Nat) : Nat := ((List.range c).filter (fun j => bitsAt b (32 + j) 1 == 1)).length

/-- Check 3 of a block fails (02 R68). -/
def headerWrong (b : Block) : Prop :=
  let fmt := bitsAt b 0 5
  (bitsAt b 7 1 = 1 ∧ fmt ≠ 1 ∧ fmt ≠ 2 ∧ fmt ≠ 16) ∨
  (fmt = 16 ∧ (bitsAt b 21 2 ≠ 0 ∨ bitsAt b 30 2 ≠ 0 ∨ 56 / spbBytes b < bitsAt b 24 6 ∨ bitsAt b 24 6 ≠ columnsBelow b 32 ∨
    b.toNat / 2 ^ (8 * (8 + spbBytes b * bitsAt b 24 6)) ≠ 0)) ∨
  (fmt ≠ 16 ∧ (b.toNat / 2 ^ (8 * layoutBytes fmt) ≠ 0 ∨ (∃ g, g < groupsOf fmt ∧ 128 ≤ scaleOf b fmt g) ∨
    (escaping fmt = true ∧ (bitsAt b (outlierBit fmt + 6) 2 ≠ 0 ∨ bitsAt b (outlierBit fmt + 14) 2 ≠ 0 ∨
      bitsAt b (outlierBit fmt + 8) 6 ≠ escapesBefore b fmt (groupsOf fmt * unitsOf fmt)))))

/-- OLB plus the list entries of the escapes of a block (02 R64). -/
def listEnd (b : Block) : Nat :=
  let fmt := bitsAt b 0 5
  bitsAt b (outlierBit fmt) 6 + (if fmt = 11 then 8 else 1) * bitsAt b (outlierBit fmt + 8) 6

/-- The value of the block scale (02 R51). -/
def scaleValue (se sf : Nat) : ℚ := 2 ^ ((se : ℤ) - 127) * (1 + sf / 4)

/-- The block scale of a block. -/
def blockScaleOf (b : Block) : ℚ := scaleValue (bitsAt b 8 8) (bitsAt b 5 2)

/-- Element e of a list of values is the product of a code's value and a scale, where both are finite. -/
def ElemIs (vs : List FVal) (e : Nat) (code : FVal) (scale : Option ℚ) : Prop :=
  ∀ x y, rational code = some x → scale = some y → ∃ v, vs[e]? = some v ∧ rational v = some (x * y)

/-- A group scale times the block scale. -/
def groupScaleOf (b : Block) (fmt g : Nat) : Option ℚ := (rational (ue4m3 (scaleOf b fmt g))).map (· * blockScaleOf b)

/-! The quantiser -/

/-- |x| ≤ 2^k |y|, of values that are no NaN. -/
def atMost (k : Nat) (x y : FVal) : Bool :=
  match x, y with
  | _, .inf _ => true
  | .inf _, _ => false
  | .fin _ m e, .fin _ l d => decide ((m : ℚ) * 2 ^ e ≤ 2 ^ k * (l * 2 ^ d))
  | _, _ => false

/-- An element of a group is elected: its magnitude is above 2^RE times the (OLG + 1)-th largest (10 R303), which says that it
is not 0 and that at most OLG magnitudes reach its own over 2^RE. -/
def elected (p : QParam) (elect : Bool) (group : List FVal) (x : FVal) : Bool :=
  elect && decide (0 < p.olg) && !x.isNan && !x.isZero &&
    decide ((group.filter (fun y => !y.isNan && atMost p.re x y)).length ≤ p.olg)

/-- The 24 elements of group g. -/
def groupAt (xs : List FVal) (g : Nat) : List FVal := (xs.drop (24 * g)).take 24

/-- The elements of group g that the scales have to cover: those that are no NaN and not elected. -/
def plainOf (p : QParam) (elect : Bool) (xs : List FVal) (g : Nat) : List FVal :=
  (groupAt xs g).filter (fun x => !x.isNan && !elected p elect (groupAt xs g) x)

/-- Every value of a list is finite and at most a bound in magnitude. -/
def Covered (xs : List FVal) (bound : ℚ) : Prop := ∀ x ∈ xs, ∃ q, rational x = some q ∧ |q| ≤ bound

/-- The largest finite value L of a format (02 R75). -/
def largestValue (fmt : Nat) : ℚ :=
  match fmt with
  | 4 => 448 | 5 => 57344 | 6 => 127 | 7 => 28 | 8 => 15 / 2 | 9 => 6 | _ => 7

/-- The least exponent from lo to hi whose power of two covers, hi where none does. -/
def LeastExponent (covers : ℤ → Prop) (lo hi k : ℤ) : Prop :=
  lo ≤ k ∧ k ≤ hi ∧ (k = hi ∨ covers k) ∧ ∀ j, lo ≤ j → j < k → ¬covers j

/-- What an element is converted from (10 R303): 0 times it under a zero scale, else it over the scales. -/
def quotientOf (sg sb x : FVal) : FVal × Bool := if sg.isZero then x.mul .zero else x.div (sg.mul sb).1

/-! Cells -/

/-- A row and a column at group g hold only finite values, these, with the group scales and block scales of these values. -/
def FiniteGroup (ra rb : MRow) (g : Nat) (ps : List ℚ) (c : ℚ) : Prop :=
  (∀ x ∈ ra.group g ++ rb.group g, x.code.isNan = false ∧ x.code.isInf = false) ∧
  ((ra.group g).zip (rb.group g)).map (fun x => (rational (x.1.code.mul x.2.code).1).getD 0) = ps ∧
  ∃ s t u v, rational (ra.sgs.getD g .zero) = some s ∧ rational (rb.sgs.getD g .zero) = some t ∧ rational ra.sb = some u ∧
    rational rb.sb = some v ∧ c = s * t * u * v

/-- A cell after an outlier: C plus a product, rounded once (11 R314). -/
def plusProduct (acc : NumFmt) (x y : FVal) (c : Nat) : Nat := (convert acc (x.fma y (fpDecode acc c)).1).1

/-- A cell after the outliers of group g: those of the row in order, then those of the column that are none of the row's. -/
def withOutliers (acc : NumFmt) (ra rb : MRow) (g c : Nat) : Nat :=
  let l := (ra.group g).zip (rb.group g)
  let c := (l.filter (fun x => x.1.esc)).foldl (fun c x => plusProduct acc x.1.ol x.2.val c) c
  (l.filter (fun x => x.2.esc && !x.1.esc)).foldl (fun c x => plusProduct acc x.1.val x.2.ol c) c

/-- A rational number truncated towards zero to multiples of 2^q. -/
def towardsZero (q : ℤ) (p : ℚ) : ℤ := if p < 0 then ⌈p / 2 ^ q⌉ else ⌊p / 2 ^ q⌋

/-- S of `window_sum` for products whose largest has its leading bit at M (11 R316). -/
def windowed (M : ℤ) (ps : List ℚ) : ℚ :=
  let q := M - 121
  let t := (ps.map (towardsZero q)).sum
  2 ^ q * (match ps.find? (fun p => decide ((towardsZero q p : ℚ) * 2 ^ q ≠ p)) with
    | none => (t : ℚ)
    | some p => if t = 0 then (if p < 0 then -1 else 1) else (if t < 0 then -1 else 1) * ((t.natAbs ||| 1 : Nat) : ℚ))

end Sys2Proof.Claims

open Sys2Proof.Claims

/-- Minimum, rounding, division, roots, conversion to integers, rotation and merge compute what their rules say. FMIN and
FMAX give the lesser and the greater of two codes that are no NaN, with -0 below +0, else the operand that is no NaN.
FRND gives the integer of its mode with the sign of a. A quotient, a square root and a reciprocal square root of
finite values are the FP32 codes nearest to the exact ones; special operands give the values of the table. The
conversions to integers give the rounded value, or the nearest bound with SAT and NV. ROPE forms the phase exactly in
[0, 1), rounds its cosine and its sine, and rounds each output once. AMRG rounds the exact sum of x times the rounded
weights; of zeros of opposite sign m is a's (log 75, DESIGN CHOICE). (R290, R291, R292, R295, R297, R298, R299, R133) -/
def Obligations.ArithmeticIsCorrectlyRounded : Prop :=
  (∀ mx a b, a < 2 ^ 32 → b < 2 ^ 32 → minMaxNum mx a b =
    ((if (f32 a).isNan && (f32 b).isNan then nan32 else if (f32 a).isNan then b else if (f32 b).isNan then a
      else if (if mx then decide (codeKey a < codeKey b) else decide (codeKey b < codeKey a)) then b else a),
     if (f32 a).isSnan || (f32 b).isSnan then 16 else 0)) ∧
  (∀ mode c, mode < 4 → c < 2 ^ 32 →
    ((f32 c).isNan = true → frndCode mode c = (nan32, if (f32 c).isSnan then 16 else 0)) ∧
    ((f32 c).isInf = true → frndCode mode c = (c, 0)) ∧
    ∀ x, rational (f32 c) = some x → let r := frndCode mode c
      r.2 = 0 ∧ r.1 < 2 ^ 32 ∧ r.1.testBit 31 = c.testBit 31 ∧ rational (f32 r.1) = some (roundInt mode x)) ∧
  (∀ n k m l e d, m ≠ 0 → l ≠ 0 → ∃ a b, rational (.fin n m e) = some a ∧ rational (.fin k l d) = some b ∧
    NearestF32 (rounded .fp32 ((FVal.fin n m e).div (.fin k l d))).1 (((a / b : ℚ)) : ℝ)) ∧
  (∀ m e, m ≠ 0 → ∃ a, rational (.fin false m e) = some a ∧
    NearestF32 (rounded .fp32 (FVal.fin false m e).sqrt).1 (Real.sqrt (a : ℝ)) ∧
    NearestF32 (rounded .fp32 (FVal.fin false m e).rsqrt).1 (1 / Real.sqrt (a : ℝ))) ∧
  ((∀ x y : FVal, x.isNan = true ∨ y.isNan = true →
      rounded .fp32 (x.div y) = (nan32, if x.isSnan || y.isSnan then 16 else 0)) ∧
    (∀ s, rounded .fp32 (FVal.nan s).sqrt = (nan32, if s then 16 else 0) ∧
      rounded .fp32 (FVal.nan s).rsqrt = (nan32, if s then 16 else 0)) ∧
    (∀ n k m l e d, rounded .fp32 ((FVal.fin n 0 e).div (.fin k 0 d)) = (nan32, 16) ∧
      rounded .fp32 ((FVal.inf n).div (.inf k)) = (nan32, 16) ∧
      rounded .fp32 ((FVal.inf n).div (.fin k l d)) = (infinityCode (n != k), 0) ∧
      rounded .fp32 ((FVal.fin n m e).div (.inf k)) = (zeroCode (n != k), 0) ∧
      (m ≠ 0 → rounded .fp32 ((FVal.fin n m e).div (.fin k 0 d)) = (infinityCode (n != k), 0)) ∧
      (l ≠ 0 → rounded .fp32 ((FVal.fin n 0 e).div (.fin k l d)) = (zeroCode (n != k), 0))) ∧
    (∀ n m e, rounded .fp32 (FVal.fin n 0 e).sqrt = (zeroCode n, 0) ∧
      rounded .fp32 (FVal.fin n 0 e).rsqrt = (infinityCode n, 0) ∧
      (m ≠ 0 → rounded .fp32 (FVal.fin true m e).sqrt = (nan32, 16) ∧ rounded .fp32 (FVal.fin true m e).rsqrt = (nan32, 16))) ∧
    rounded .fp32 (FVal.inf false).sqrt = (infinityCode false, 0) ∧ rounded .fp32 (FVal.inf false).rsqrt = (0, 0) ∧
    rounded .fp32 (FVal.inf true).sqrt = (nan32, 16) ∧ rounded .fp32 (FVal.inf true).rsqrt = (nan32, 16) ∧
    exp2Conv .fp32 (.inf false) = (infinityCode false, 0) ∧ exp2Conv .fp32 (.inf true) = (0, 0) ∧
    (∀ n e, exp2Conv .fp32 (.fin n 0 e) = (0x3F800000, 0) ∧ log2Conv .fp32 (.fin n 0 e) = (infinityCode true, 0)) ∧
    log2Conv .fp32 (.inf false) = (infinityCode false, 0) ∧ log2Conv .fp32 (.inf true) = (nan32, 16) ∧
    log2Conv .fp32 (.fin false 1 0) = (0, 0) ∧ (∀ m e, m ≠ 0 → log2Conv .fp32 (.fin true m e) = (nan32, 16)) ∧
    (∀ n m e, 0 ≤ e → sinPiConv .fp32 (.fin n m e) = (zeroCode n, 0)) ∧
    (∀ n m, m % 2 = 1 → cosPiConv .fp32 (.fin n m (-1)) = (0, 0)) ∧
    ∀ n, sinPiConv .fp32 (.inf n) = (nan32, 16) ∧ cosPiConv .fp32 (.inf n) = (nan32, 16)) ∧
  (∀ signed rz c, c < 2 ^ 32 →
    let lo : ℤ := if signed then -(2 ^ 31) else 0
    let hi : ℤ := if signed then 2 ^ 31 - 1 else 2 ^ 32 - 1
    ((f32 c).isNan = true → toInt32 signed rz c = (0, 16)) ∧
    (∀ n, f32 c = .inf n → toInt32 signed rz c = (((if n then lo else hi) % 2 ^ 32).toNat, 24)) ∧
    ∀ x, rational (f32 c) = some x →
      let z := roundInt (if rz then 1 else 0) x
      toInt32 signed rz c = if z < lo then ((lo % 2 ^ 32).toNat, 24) else if hi < z then ((hi % 2 ^ 32).toNat, 24)
        else ((z % 2 ^ 32).toNat, if (z : ℚ) = x then 0 else 1)) ∧
  (∀ x0 x1 pos f, (2 ^ 24 ≤ pos → ropeResult x0 x1 pos f = (nan32, nan32, 32)) ∧
    (pos < 2 ^ 24 → (f32 f).isNan = true ∨ (f32 f).isInf = true → ropeResult x0 x1 pos f = (nan32, nan32, 16)) ∧
    ∀ q, pos < 2 ^ 24 → rational (f32 f) = some q → ∃ k j, rational (.fin false k j) = some (2 * Int.fract (pos * q)) ∧
      let c := f32 (cosPiConv .fp32 (.fin false k j)).1
      let s := f32 (sinPiConv .fp32 (.fin false k j)).1
      let a := rounded .fp32 (sumOf ((f32 x0).mul c) (negated ((f32 x1).mul s)))
      let b := rounded .fp32 (sumOf ((f32 x0).mul s) ((f32 x1).mul c))
      ropeResult x0 x1 pos f = (a.1, b.1, a.2 ||| b.2)) ∧
  ∀ am ax bm bx, ((f32 am).isNan = true ∨ (f32 bm).isNan = true →
      (mergePair am ax bm bx).1 = nan32 ∧ (mergePair am ax bm bx).2.1 = nan32) ∧
    (f32 am = .inf true → (f32 bm).isNan = false → mergePair am ax bm bx = (bm, bx, 0)) ∧
    (f32 bm = .inf true → (f32 am).isNan = false → f32 am ≠ .inf true → mergePair am ax bm bx = (am, ax, 0)) ∧
    ((f32 am).isNan = false → (f32 bm).isNan = false → f32 am ≠ .inf true → f32 bm ≠ .inf true →
      let m := if (f32 am).cmp (f32 bm) = some .lt then bm else am
      let weight (x : Nat) := f32 (exp2Conv .fp32 ((f32 x).add (f32 m).neg).1).1
      (mergePair am ax bm bx).1 = m ∧
      (mergePair am ax bm bx).2.1 = (rounded .fp32 (sumOf ((f32 ax).mul (weight am)) ((f32 bx).mul (weight bm)))).1)

/-- Block checks, decoding, election, scales and quantised blocks are those of the pseudocode. A block fails the first of
the four checks that its bytes break, and no other. An element of a decoded block is its code's value times its group
scale and its block scale, exactly; an escape is the next entry of the list from OLB on; a column that an SPB block
does not hold is 0. QNT elects an element that is above 2^RE times the (OLG + 1)-th largest magnitude of its group;
its block scale and its group scales are the given ones, or the least that cover the magnitudes of the other elements,
clamped. Each unit of the block is the escape code, or the element over the scales converted once, or 0 in a group
where a converted value is a NaN that the format has no code for (its scale byte is then 0x7F); OLB, OLN and the
reserved bytes are as the rules say. (R51, R53, R55, R59, R63, R64, R68, R77, R78, R303, R304) -/
def Obligations.BlocksFollowTheirPseudocode : Prop :=
  (∀ (b : Block) (n : Option Nat), let fmt := bitsAt b 0 5
    let fine := bitsAt b 8 8 ≠ 255 ∧ (fmt ≤ 11 ∨ fmt = 16)
    (bitsAt b 8 8 = 255 → checkBlock b n = some .poison) ∧
    (bitsAt b 8 8 ≠ 255 → ¬(fmt ≤ 11 ∨ fmt = 16) → checkBlock b n = some .fmt) ∧
    (fine → headerWrong b → checkBlock b n = some .hdr) ∧
    (fine → ¬headerWrong b → checkBlock b none = none ∧ ∀ count, checkBlock b (some count) =
      if escaping fmt = true ∧ bitsAt b (outlierBit fmt + 8) 6 ≠ 0 ∧ count < listEnd b then some .olref else none)) ∧
  (∀ (b : Block) (list : List Word), let fmt := bitsAt b 0 5
    let vs := decodeValues b list
    let entry (k : Nat) := f32 (list.getD (bitsAt b (outlierBit fmt) 6 + k) 0).toNat
    (fmt = 0 → vs = []) ∧
    (fmt = 1 → vs.length = 15 ∧ ∀ e, e < 15 → ElemIs vs e (f32 (bitsAt b (16 + 32 * e) 32)) (some (blockScaleOf b))) ∧
    (fmt = 2 ∨ fmt = 3 → vs.length = 24 ∧ ∀ e, e < 24 →
      ElemIs vs e (fpDecode (if fmt = 2 then .bf16 else .fp16) (bitsAt b (16 + 16 * e) 16)) (some (blockScaleOf b))) ∧
    (4 ≤ fmt ∧ fmt ≤ 10 → vs.length = 24 * groupsOf fmt ∧ ∀ e, e < 24 * groupsOf fmt →
      if escapeAt b fmt e then vs[e]? = some (entry (escapesBefore b fmt e))
      else ElemIs vs e (fpDecode (elemFmt fmt) (unitOf b fmt e)) (groupScaleOf b fmt (e / 24))) ∧
    (fmt = 11 → vs.length = 192 ∧ ∀ k j, k < 24 → j < 8 →
      if escapeAt b fmt k then vs[8 * k + j]? = some (entry (8 * escapesBefore b fmt k + j))
      else ElemIs vs (8 * k + j) (halves ((vq2Halves (unitOf b fmt k)).getD j 0)) (groupScaleOf b fmt (k / 3))) ∧
    (fmt = 16 → vs.length = 32 ∧ ∀ c, c < 32 →
      if bitsAt b (32 + c) 1 = 1 then ElemIs vs c (fpDecode (if bitsAt b 23 1 = 1 then .bf16 else .fp32)
        (bitsAt b (64 + 8 * spbBytes b * columnsBelow b c) (8 * spbBytes b))) (some (blockScaleOf b))
      else vs[c]? = some .zero)) ∧
  (∀ (xs : List FVal) (p : QParam) (fmt given : Nat) (el : Bool), 4 ≤ fmt → fmt ≤ 10 → xs.length = 24 * groupsOf fmt → p.sf < 4 →
    let r := qntScales xs p fmt given el
    let se := r.2.1
    let code (g : Nat) := r.2.2.2.getD g 0
    r.1 = (List.range (24 * groupsOf fmt)).map (fun e => elected p el (groupAt xs (e / 24)) (xs.getD e .zero)) ∧
    r.2.2.2.length = groupsOf fmt ∧
    (p.auto = false → se = p.se ∧ r.2.2.1 = p.sf) ∧
    (p.auto = true → r.2.2.1 = 0 ∧
      let A := (List.range (groupsOf fmt)).flatMap (plainOf p el xs)
      if ∀ x ∈ A, x.isZero = true then se = 127
      else LeastExponent (fun k => Covered A (2 ^ k * largestValue fmt)) (-127) 127 ((se : ℤ) - 127)) ∧
    ∀ g, g < groupsOf fmt →
      let A := plainOf p el xs g
      let covers (scale : ℚ) : Prop := Covered A (scale * largestValue fmt * scaleValue se r.2.2.1)
      let value (c : Nat) : ℚ := (rational (ue4m3 c)).getD 0
      if p.gfix then code g = given / 2 ^ (8 * g) % 2 ^ 8
      else if ∀ x ∈ A, x.isZero = true then code g = 0
      else if p.gfine then 0 < code g ∧ code g ≤ 0x7E ∧ (code g = 0x7E ∨ covers (value (code g))) ∧
        ∀ c, 0 < c → c < code g → ¬covers (value c)
      else ∃ k, LeastExponent (fun j => covers (2 ^ j)) (-9) 8 k ∧ code g < 0x7F ∧ rational (ue4m3 (code g)) = some (2 ^ k)) ∧
  ∀ (xs : List FVal) (p : QParam) (fmt given cnt : Nat) (el : Bool), 4 ≤ fmt → fmt ≤ 10 → xs.length = 24 * groupsOf fmt →
    p.sf < 4 → p.se < 256 →
    let s := qntScales xs p fmt given el
    let r := qntBlock xs p fmt given cnt el
    let b := r.1
    let chosen (e : Nat) : Bool := s.1.getD e false
    let from_ (e : Nat) : FVal × Bool := quotientOf (ue4m3 (s.2.2.2.getD (e / 24) 0)) (blockScale s.2.1 s.2.2.1) (xs.getD e .zero)
    let plain := (List.range (24 * groupsOf fmt)).filter (fun e => !chosen e)
    let nan (g : Nat) : Prop := 6 ≤ fmt ∧ ∃ e ∈ plain, e / 24 = g ∧ (from_ e).1.isNan = true
    bitsAt b 0 8 = fmt + 32 * s.2.2.1 ∧ bitsAt b 8 8 = s.2.1 ∧ b.toNat / 2 ^ (8 * layoutBytes fmt) = 0 ∧
    r.2.1 = (List.range (24 * groupsOf fmt)).filter chosen ∧
    r.2.2 = (plain.map (fun e => (rounded (elemFmt fmt) (from_ e)).2)).foldl (fun m c => m ||| c) 0 ∧
    (escaping fmt = true → bitsAt b (outlierBit fmt) 8 = (if r.2.1 = [] then 0 else cnt % 64) ∧
      bitsAt b (outlierBit fmt + 8) 8 = r.2.1.length % 64) ∧
    (∀ g, g < groupsOf fmt → (nan g → scaleOf b fmt g = 0x7F) ∧ (¬nan g → scaleOf b fmt g = s.2.2.2.getD g 0 % 256)) ∧
    ∀ e, e < 24 * groupsOf fmt → (chosen e = true → fmt ≤ 10 → 9 ≤ fmt → unitOf b fmt e = 8) ∧
      (chosen e = false → (nan (e / 24) → unitOf b fmt e = 0) ∧
        (¬nan (e / 24) → unitOf b fmt e = (rounded (elemFmt fmt) (from_ e)).1))

/-- A cell of an MMA gains each group's exact or windowed dense sum, rounded once, then its outliers in order. mma_cell
takes the 24-element groups in order. Where the row and the column hold no infinity and no NaN in a group, the cell
becomes the one rounding of itself plus S times the four scales: S is the exact sum of the products for narrow
operands, and for 16-bit operands the sum of the products truncated to 121 bits below the leading bit of the largest,
with the last bit set where bits were lost. A group with an infinity or a NaN gives a NaN where an element is a NaN, a
product is 0 times infinity, or products of both infinities occur, else the infinity of its infinite products. The
outliers of the row follow in order, then those of the column that are none of the row's, each product added and
rounded once. (R314, R315, R316, R317) -/
def Obligations.MatrixCellsFollowThePseudocode : Prop :=
  (∀ acc wide ra rb k c, mmaCell acc wide ra rb k c = (List.range (k / 24)).foldl (fun c g => mmaGroup acc wide ra rb g c) c) ∧
  (∀ (acc : NumFmt) (ra rb : MRow) (g c : Nat) (ps : List ℚ) (scale x : ℚ), FiniteGroup ra rb g ps scale →
    rational (fpDecode acc c) = some x → ∃ v, rational v = some (x + ps.sum * scale) ∧
      mmaGroup acc false ra rb g c = withOutliers acc ra rb g (convert acc v).1) ∧
  (∀ (acc : NumFmt) (ra rb : MRow) (g c : Nat) (ps : List ℚ) (scale x : ℚ), FiniteGroup ra rb g ps scale →
    rational (fpDecode acc c) = some x → ((∀ p ∈ ps, p = 0) → ∃ v, rational v = some x ∧
      mmaGroup acc true ra rb g c = withOutliers acc ra rb g (convert acc v).1) ∧
    ∀ M, (∃ p ∈ ps, p ≠ 0 ∧ Int.log 2 |p| = M) → (∀ p ∈ ps, p ≠ 0 → Int.log 2 |p| ≤ M) →
      ∃ v, rational v = some (x + windowed M ps * scale) ∧
        mmaGroup acc true ra rb g c = withOutliers acc ra rb g (convert acc v).1) ∧
  ∀ (acc : NumFmt) (wide : Bool) (ra rb : MRow) (g c : Nat),
    (∃ x ∈ ra.group g ++ rb.group g, x.code.isNan = true ∨ x.code.isInf = true) →
    let ps := ((ra.group g).zip (rb.group g)).map (fun x => (x.1.code.mul x.2.code).1)
    let S : FVal := if (∃ p ∈ ps, p.isNan = true) ∨ (FVal.inf false ∈ ps ∧ FVal.inf true ∈ ps) then .nan false
      else .inf (decide (FVal.inf true ∈ ps))
    mmaGroup acc wide ra rb g c = withOutliers acc ra rb g (convert acc ((fpDecode acc c).add
      ([ra.sgs.getD g .zero, rb.sgs.getD g .zero, ra.sb, rb.sb].foldl (fun s x => (s.mul x).1) S)).1).1

namespace Sys2Proof.Claims

/-! ### Control -/

/-- The address a B-format word reaches: its own plus 4 times the offset (08 R225). -/
def reach (pc : Pc) (off : BitVec 20) : Pc := pc + off.signExtend 57 * 4#57

/-- The address a register names: 57 bits of it, or 32 bits within the 4 GiB region of the word (08 R228). -/
def named (e : Bool) (pc : Pc) (th : Thread) (a : BitVec 5) : Pc :=
  if e then pc.extractLsb' 32 25 ++ BitVec.ofNat 32 (th.rn true a.toNat) else BitVec.ofNat 57 (th.rn false a.toNat)

/-- A thread sent to an address (07 R199). -/
def sentTo (th : Thread) (pc : Pc) : Thread := { th with pc := pc, xfer := true }

/-- A thread that has called an address: the return stack holds the next word at DEPTH, which has risen (08 R225). -/
def called (th : Thread) (pc : Pc) : Thread :=
  { th with
    pc := pc
    xfer := true
    rstack := updAt th.rstack th.depth (fun _ => th.pc + 4)
    depth := th.depth + 1
    rsEcc := th.rsEcc.filter (· != th.depth) }

/-- The effect of a word on a thread of the state. -/
def onThread (f : Thread → Thread) (s : State) (th : ThreadKey) : State := s.modThread th f

/-- A lane takes a cause at its own PC that reports nothing more. -/
def takes (c : Cause) (s : State) (th : ThreadKey) : State := s.takeTrap th (TrapInfo.at c (s.thread th).pc)

/-- A lane takes ILLOP, which reports the word of the pass (14 R396). -/
def takesIllop (s : State) (th : ThreadKey) : State :=
  s.takeTrap th (illop (s.thread th).pc ((s.pass.map (fun p => p.word)).getD 0))

/-- A control word, or the half that SEL10[9] selects in the execute slice (07 R215). -/
def shownWord (s : State) (th : ThreadKey) (sel : BitVec 10) : Nat :=
  let word := s.csrGet th (sel.extractLsb' 0 9).toNat
  if th.gk.exe then (if sel.getLsbD 9 then word / 2 ^ 32 % 2 ^ 32 else word % 2 ^ 32) else word % 2 ^ 64

/-- An access to OLCNT finds every list register of its group full and without an uncorrectable error; a write may find one
poisoned (06 R185, 08 R254; log 57, DEDUCED: a write of the count discards the poison of its list). -/
def countable (s : State) (th : ThreadKey) (sel : BitVec 10) (write : Bool) : Prop :=
  sel.extractLsb' 0 9 = 0x021#9 → ∀ g, s.group th.gk = some g → g.ended = false ∧
    (∀ o ∈ g.ols, o.st = .full ∨ write = true ∧ ∃ p c, o.st = .poisoned p c) ∧ ∀ o ∈ g.ols, o.ecc = false

/-- Instruction `c f` gives d the old word, then writes fn of it and a (08 R253). -/
def WritesControl (c : OpCsrw → Instr) (fn : BitVec 64 → BitVec 64 → BitVec 64) : Prop :=
  ∀ f, LanesInTurn (c f) f.g [f.a.toNat, f.d.toNat] [f.d.toNat] (fun s th => countable s th f.sel true) (fun s th =>
    let n := (f.sel.extractLsb' 0 9).toNat
    let old := shownWord s th f.sel
    let new := (fn (BitVec.ofNat 64 old) (BitVec.ofNat 64 ((s.thread th).rn th.gk.exe f.a.toNat))).toNat
    let word := s.csrGet th n
    let written :=
      if th.gk.exe then
        (if f.sel.getLsbD 9 then word / 2 ^ 64 * 2 ^ 64 + word % 2 ^ 32 + new % 2 ^ 32 * 2 ^ 32 else word / 2 ^ 32 * 2 ^ 32 + new % 2 ^ 32)
      else word / 2 ^ 64 * 2 ^ 64 + new
    (s.csrSet th n written).modThread th (fun t => (t.wn th.gk.exe f.d.toNat old false).advance))

end Sys2Proof.Claims

open Sys2Proof.Claims

/-- BRA, CALL, NOP, JMP, CALLI, SETUV and RET send each lane where their rules say, or raise their cause. BRA sends each
lane that acts to the address of the word plus 4 times its offset, and, taken by a lane, may start a capture; NOP only
advances; CALL, with DEPTH below the limit, pushes the next word's address, raises DEPTH and goes to its target, and
with DEPTH at the limit takes CALLDEPTH. The target T of a register is 57 bits of it, or, in the execute slice, the
register within the 4 GiB region of the word. With T[1:0] nonzero, JMP, CALLI and SETUV take ILLOP. With a good
target, JMP goes to T and CALLI acts as CALL. RET with DEPTH 0 takes CALLDEPTH and changes nothing; else it lowers
DEPTH and goes to the address at DEPTH, or takes ECC where that entry of the return stack holds an uncorrectable
error; it reads no register. The address that this ECC record names is the model's (log 8, DESIGN CHOICE:
Config.eccVa). A cause is taken at the lane's own PC, the lane leaves the pass, and nothing but the taking of the
cause happens. The other selected lanes advance. All complete for a group that may execute them. (R180, R225, R226,
R228, R229, R232, R398) -/
def Obligations.BranchesCallsJumpsAndReturnsFollowTheirRules : Prop :=
  (∀ f : OpBr, ∀ (s : State) (p : Pass) (g : Group), Issues s (.bra f) p g →
    exec (.bra f) s = .next (
      let t := s.afterLanes p g f.g (fun _ th => sentTo th (reach p.pc f.off))
      if p.acting g f.g = [] then t else t.modGroup p.gk (fun h => h.capture p.pc (reach p.pc f.off)))) ∧
  (∀ f : OpG, LaneWise (.nop f) f.g [] (fun _ _ _ th => { th with pc := th.pc + 4, xfer := false })) ∧
  (∀ f : OpBr, LanesInTurn (.call f) f.g [] [] (fun s th => (s.thread th).depth ≠ (s.thread th).rstack.length)
    (onThread (fun t => called t (reach t.pc f.off)))) ∧
  (∀ f : OpBr, LanesLeave (.call f) f.g [] [] (fun s th => (s.thread th).depth = (s.thread th).rstack.length)
    (takes .calldepth)) ∧
  (∀ f : OpA, LanesInTurn (.jmp f) f.g [f.a.toNat] []
    (fun s th => (named th.gk.exe (s.thread th).pc (s.thread th) f.a).extractLsb' 0 2 = 0#2)
    (fun s th => s.modThread th (fun t => sentTo t (named th.gk.exe (s.thread th).pc (s.thread th) f.a)))) ∧
  (∀ f : OpA, LanesLeave (.jmp f) f.g [f.a.toNat] []
    (fun s th => (named th.gk.exe (s.thread th).pc (s.thread th) f.a).extractLsb' 0 2 ≠ 0#2) takesIllop) ∧
  (∀ f : OpA, LanesInTurn (.calli f) f.g [f.a.toNat] []
    (fun s th => (named th.gk.exe (s.thread th).pc (s.thread th) f.a).extractLsb' 0 2 = 0#2 ∧
      (s.thread th).depth ≠ (s.thread th).rstack.length)
    (fun s th => s.modThread th (fun t => called t (named th.gk.exe (s.thread th).pc (s.thread th) f.a)))) ∧
  (∀ f : OpA, LanesLeave (.calli f) f.g [f.a.toNat] []
    (fun s th => (named th.gk.exe (s.thread th).pc (s.thread th) f.a).extractLsb' 0 2 ≠ 0#2) takesIllop) ∧
  (∀ f : OpA, LanesLeave (.calli f) f.g [f.a.toNat] []
    (fun s th => (named th.gk.exe (s.thread th).pc (s.thread th) f.a).extractLsb' 0 2 = 0#2 ∧
      (s.thread th).depth = (s.thread th).rstack.length) (takes .calldepth)) ∧
  (∀ f : OpDA, LanesLeave (.setuv f) f.g [f.a.toNat, f.d.toNat] [f.d.toNat]
    (fun s th => (named th.gk.exe (s.thread th).pc (s.thread th) f.a).extractLsb' 0 2 ≠ 0#2) takesIllop) ∧
  (∀ f : OpG, LanesInTurn (.ret f) f.g [] [] (fun s th => (s.thread th).depth ≠ 0 ∧ (s.thread th).depth - 1 ∉ (s.thread th).rsEcc)
    (onThread (fun t => { t with pc := t.rstack.getD (t.depth - 1) 0, xfer := true, depth := t.depth - 1 }))) ∧
  (∀ f : OpG, LanesLeave (.ret f) f.g [] [] (fun s th => (s.thread th).depth = 0) (takes .calldepth)) ∧
  ∀ f : OpG, LanesLeave (.ret f) f.g [] [] (fun s th => (s.thread th).depth ≠ 0 ∧ (s.thread th).depth - 1 ∈ (s.thread th).rsEcc)
    (fun s th => s.takeTrap th (.eccAt Config.eccVa (s.thread th).pc))

/-- TRAP, URET, SETUV, BKPT, MARK and ICSYNC do what their rules say. Each lane that acts takes, under TRAP, the cause
TRAP with its code, the value of a, and the next word as the resume PC; under URET in a handler it goes to UEPC and
clears UIN (outside one it takes ILLOP); under SETUV with a good target it receives the UVEC before it and sets UVEC
to the target, or to 0 where a is 0; under BKPT it stops for the debugger at the word where breakpoint stops are
enabled on its core, and advances otherwise; under MARK it advances, having appended a trace record where marker
tracing is enabled (with tracing disabled MARK reads no register and so needs none to be full). ICSYNC releases the
capture of the group and advances. (R233, R234, R235, R237, R238, R239) -/
def Obligations.HandlerAndMarkerWordsFollowTheRules : Prop :=
  (∀ f : OpACode, LanesLeave (.trap f) f.g [f.a.toNat] [] (fun _ _ => True) (fun s th =>
    let t := s.thread th
    s.takeTrap th { TrapInfo.at .trap t.pc with
      resume := t.pc + 4, hc := f.b.toNat * 2 ^ 16, r29 := t.rn th.gk.exe f.a.toNat })) ∧
  (∀ f : OpG, LanesInTurn (.uret f) f.g [] [] (fun s th => (s.thread th).uin = true)
    (onThread (fun t => { t with pc := t.uepc, uin := false, xfer := false }))) ∧
  (∀ f : OpG, LanesLeave (.uret f) f.g [] [] (fun s th => (s.thread th).uin = false) takesIllop) ∧
  (∀ f : OpDA, LanesInTurn (.setuv f) f.g [f.a.toNat, f.d.toNat] [f.d.toNat]
    (fun s th => (named th.gk.exe (s.thread th).pc (s.thread th) f.a).extractLsb' 0 2 = 0#2)
    (fun s th =>
      let t := s.thread th
      let old := ((s.group th.gk).map (fun g => g.uvec)).getD 0
      let new : Dword := if t.rn th.gk.exe f.a.toNat = 0 then 0 else (named th.gk.exe t.pc t f.a).setWidth 64
      (s.modGroup th.gk (fun g => { g with uvec := new })).modThread th (fun t =>
        (t.wn th.gk.exe f.d.toNat old.toNat false).advance))) ∧
  (∀ f : OpCode, LanesInTurn (.bkpt f) f.g [] [] (fun s th => (s.core (s.coreOf th.gk.team)).dbg0.getLsbD 0 = false)
    (onThread Thread.advance)) ∧
  (∀ f : OpCode, LanesLeave (.bkpt f) f.g [] [] (fun s th => (s.core (s.coreOf th.gk.team)).dbg0.getLsbD 0 = true)
    (fun s th => s.debugStopAs th f.b.toNat 1)) ∧
  (∀ f : OpACode, ∀ (s : State) (p : Pass) (g : Group), Issues s (.mark f) p g →
    let enabled := (s.core (s.coreOf p.gk.team)).dbg0.getLsbD 1
    (enabled = true → p.ready g f.g [f.a.toNat]) →
    exec (.mark f) s = .next ((s.inTurn p g f.g (fun s th =>
      let t := s.thread th
      (if enabled then s.trace th t.pc (t.rn th.gk.exe f.a.toNat) f.b.toNat 0 else s).modThread th Thread.advance)
      p.sel).withSel p.sel)) ∧
  ∀ f : OpG, ∀ (s : State) (p : Pass) (g : Group), Issues s (.icsync f) p g →
    exec (.icsync f) s = .next (
      let t := s.afterLanes p g f.g (fun _ th => th.advance)
      if p.acting g f.g = [] then t else t.modGroup p.gk (fun h => { h with loop := none }))

/-- EXIT ends its lanes; YIELD parks its lanes, owing every other candidate, and resets the watchdog count. EXIT, issued
by a group that may execute it, where what a thread did to the phasers on which it signals has been performed, makes
each lane that acts not LIVE, in increasing index, with the consequences of its rule, and the lane leaves the pass. A
LIVE thread that exits is then not LIVE, not blocked, not parked and registered on no phaser; none of its registers
waits or is POISONED, and their replay-table entries are free; its lane of each lane queue that its group consumes is
empty and discards; no STQ of it waits for data; no completion is due to it; no parked thread owes it. The group ends
with its last LIVE thread and only then. YIELD with a lane that acts moves every selected lane to the next word, parks
the lanes that act with the candidates outside them as their OWE sets, and resets the watchdog count of the group;
with no lane that acts it only advances. (R174, R231, R232) -/
def Obligations.ExitEndsAndYieldParks : Prop :=
  (∀ f : OpG, LanesLeave (.exit f) f.g [] []
    (fun s th => ∀ x, some x ∈ (s.thread th).slots → x.sig = true → s.phaserWaits th x.off true = false)
    (fun s th => s.exitThread th)) ∧
  (∀ (s : State) (th : ThreadKey) (g : Group) (tm : Team), s.group th.gk = some g → s.team th.gk.team = some tm →
    g.threads.length = 32 → th.thr < 32 → (g.thr th.thr).live = true →
    ∃ (u : State) (h : Group) (um : Team), s.exitThread th = u.endGroup th.gk ∧ u.group th.gk = some h ∧ u.team th.gk.team = some um ∧
      (h.thr th.thr).live = false ∧ (h.thr th.thr).blk = none ∧ (h.thr th.thr).park = false ∧
      (∀ x ∈ (h.thr th.thr).slots, x = none) ∧
      (∀ c ∈ (h.thr th.thr).regs, (∀ b o, c.st ≠ .wait b o) ∧ ∀ q o, c.st ≠ .poisoned q o) ∧
      (∀ n ∈ (g.thr th.thr).replays, um.replay.getD n none = none) ∧
      (∀ q ∈ um.queues, q.mode = .lane → q.cons = th.gk → (q.fifo th.thr).slots = [] ∧
        (th.thr < q.fifos.length → (q.fifo th.thr).dead = true)) ∧
      (∀ q ∈ um.queues, ∀ e ∈ q.stqs, e.thr = th → e.data.isSome = true) ∧ (∀ d ∈ um.vecq, d.1 ≠ th) ∧
      (∀ t, (h.thr t).park = true → (h.thr t).owe.getLsbD th.thr = false) ∧ h.wcount = 0) ∧
  (∀ (s : State) (gk : GroupKey) (g : Group), s.group gk = some g →
    ((∃ t ∈ g.threads, t.live = true) → s.endGroup gk = s) ∧
    ((∀ t ∈ g.threads, t.live = false) → ∃ h, (s.endGroup gk).group gk = some h ∧ h.ended = true)) ∧
  ∀ f : OpG, ∀ (s : State) (p : Pass) (g : Group), Issues s (.yield f) p g →
    exec (.yield f) s = .next (
      let t := s.modGroup p.gk (fun h => h.mapThreads (fun i th =>
        if p.sel.contains i && !(p.acting g f.g).contains i then th.advance else th))
      if p.acting g f.g = [] then t
      else t.modGroup p.gk (fun h => { h.onYield (p.acting g f.g) with wcount := 0 }))

/-- CSRR, CSRW, CSRS and CSRC read the old word and write a, old OR a, or old AND NOT a; OLCNT is written on POISONED
lists too (log 57). Issued by a group that may access the control word so, with its registers full, each lane that
acts, in increasing index (for OLCNT, with the list registers full, or, for a write, poisoned, which is the model's
reading: log 57, DEDUCED), receives in d the word, or the half that SEL10[9] selects in the execute slice, as it was
before its own write; CSRW writes a, CSRS old OR a, CSRC old AND NOT a, to that word or half, the other half as it
was; it advances. THREAD reads the thread index, GROUP the group index with the quadrant and bit 7 set in the access
slice alone, TEAM the index in the cluster, CORE the core, GRID the job, CLUSTER the cluster's origin, size and index,
DEPTH the depth, CYCLE the cycle count, BUDGET the cycles left, OLCNT the counts of the lists, QSTAT a bit for each
queue whose head is present and for each to which a push would block. Writing FPSTAT keeps bits 8 and 5 to 0; writing
WDOG clamps it to 16 to 40; writing UVEC keeps bits 56 to 2; writing OLCNT clamps each count to 64. (R183, R214, R215,
R216, R253) -/
def Obligations.ControlWordsReadAndWrite : Prop :=
  (∀ f : OpCsrr, LanesInTurn (.csrr f) f.g [f.d.toNat] [f.d.toNat] (fun s th => countable s th f.sel false) (fun s th =>
    s.modThread th (fun t => (t.wn th.gk.exe f.d.toNat (shownWord s th f.sel) false).advance))) ∧
  WritesControl .csrw (fun _ a => a) ∧
  WritesControl .csrs (fun old a => old ||| a) ∧
  WritesControl .csrc (fun old a => old &&& ~~~a) ∧
  ∀ (s : State) (th : ThreadKey) (g : Group) (tm : Team) (v : Nat),
    s.group th.gk = some g → s.team th.gk.team = some tm → th.thr < g.threads.length → v < 2 ^ 64 →
    s.csrGet th 0x000 = th.thr ∧
    s.csrGet th 0x001 = th.gk.grp + (if th.gk.exe then th.gk.quad * 32 else 128) ∧
    s.csrGet th 0x002 = th.gk.team.idx % 16 ∧ s.csrGet th 0x003 = tm.core ∧
    s.csrGet th 0x005 = th.gk.team.job % 2 ^ 32 ∧ s.csrGet th 0x006 = (g.thr th.thr).depth ∧
    s.csrGet th 0x010 = s.cycle % 2 ^ 64 ∧
    (s.csrSet th 0x020 v).csrGet th 0x020 = v &&& 0x13F ∧
    (s.csrSet th 0x030 v).csrGet th 0x030 = max 16 (min 40 (v % 64)) ∧
    (s.csrSet th 0x031 v).csrGet th 0x031 = v % 2 ^ 57 / 4 * 4 ∧
    (∀ j, s.job th.gk.team.job = some j →
      let o := j.places.getD th.gk.team.clu 0
      s.csrGet th 0x004 = o % 24 + o / 24 * 2 ^ 5 + j.pipe.cw % 2 ^ 4 * 2 ^ 10 + j.pipe.ch % 2 ^ 4 * 2 ^ 14
        + th.gk.team.clu % 2 ^ 16 * 2 ^ 32 ∧
      s.csrGet th 0x011 = j.left % 2 ^ 48) ∧
    (s.csrGet th 0x021 = ((g.ols[0]?).map (fun o => o.cnt)).getD 0 + ((g.ols[1]?).map (fun o => o.cnt)).getD 0 * 2 ^ 8) ∧
    (g.ols.length = 2 → (s.csrSet th 0x021 v).csrGet th 0x021 = min 64 (v % 2 ^ 7) + min 64 (v / 2 ^ 8 % 2 ^ 7) * 2 ^ 8) ∧
    ∀ n, n < 32 → let own := tm.queues.find? (fun q : Queue => q.ref.name == n && (q.prod == th.gk || q.cons == th.gk))
      ((s.csrGet th 0x022).testBit n = true ↔
        ∃ q, own = some q ∧ q.cons = th.gk ∧ (q.fifo (q.lane th.thr)).head.isSome = true) ∧
      ((s.csrGet th 0x022).testBit (32 + n) = true ↔
        ∃ q, own = some q ∧ q.prod = th.gk ∧ (q.fifo (q.lane th.thr)).room q.limit 1 = false)

namespace Sys2Proof.Claims

/-! ### Registers, exceptions, full/empty states -/

/-- The thread outside its handler: its own x28 to x31 or v28 to v31 are named again (14 R392). -/
def outside (th : Thread) : Thread := { th with uin := false }

/-- The thread inside its handler. -/
def inside (th : Thread) : Thread := { th with uin := true }

/-- The words whose lanes a rule forbids take ILLOP: in increasing index, each lane whose guard is true takes it at the
word, reporting the word, and leaves the pass; the others advance (07 R210, 14 R396). No lane is in the middle of a chain. -/
def Forbidden (i : Instr) (q : BitVec 3) : Prop :=
  ∀ (s : State) (p : Pass) (g : Group), s.pass = some p → s.group p.gk = some g → p.mid = [] →
    s.forbids p.gk i = true →
    exec i s = .next ((s.inTurn p g q (fun s th => s.takeTrap th (illop p.pc p.word)) p.sel).withSel
      (p.sel.filter (fun t => !(g.thr t).pred q)))

/-- A word of two sources meets the state of its first source, in a pass of one lane whose guard is true. -/
def SourceStates (c : OpRG → Instr) : Prop :=
  ∀ (f : OpRG) (s : State) (p : Pass) (g : Group) (t : Nat), Issues s (c f) p g → p.sel = [t] → (g.thr t).pred f.g = true →
    let th : ThreadKey := ⟨p.gk, t⟩
    let st := g.regState p.gk.exe t f.a.toNat
    (∀ v, st = .transit v → exec (c f) s = .next (s.holdSet p [] false)) ∧
    (∀ b o, st = .wait b o → f.pa = false →
      exec (c f) s = .next ((s.block th (.regRead (cellIx (g.thr t).uin f.a.toNat))).withSel [])) ∧
    (∀ b o, st = .wait b o → f.pa = true →
      exec (c f) s = .next ((s.takeTrap th { TrapInfo.at .decouple p.pc with r29 := f.a.toNat }).withSel [])) ∧
    (∀ q o, st = .poisoned q o →
      exec (c f) s = .next (((s.raisePoison th f.a.toNat).takeTrap th (.ofPoison q p.gk.exe o p.pc p.pc)).withSel []))

/-- A word of two sources, full, whose destination is a POISONED register of no fragment set, writes fn of them to it: the poison is
discarded, and its replay-table entry is freed (06 R186 row 14, R188). -/
def PoisonedDestination (c : OpRG → Instr) (fn : (w : Nat) → BitVec w → BitVec w → BitVec w) : Prop :=
  ∀ (f : OpRG) (s : State) (p : Pass) (g : Group) (t : Nat) (r : Poison) (o : Pc), Issues s (c f) p g → p.sel = [t] →
    (g.thr t).pred f.g = true → t < g.threads.length → g.fullAt p.gk.exe t [f.a.toNat, f.b.toNat] →
    g.setOf t (cellIx (g.thr t).uin f.d.toNat) = none → g.regState p.gk.exe t f.d.toNat = .poisoned r o →
    exec (c f) s = .next ((s.modTeam p.gk.team (fun tm =>
        if r.rtag = 0xFFFF then tm else { tm with replay := updAt tm.replay r.rtag (fun _ => none) })).modGroup p.gk (fun h =>
      h.mapThreads (fun i th => if i = t then (th.put p.gk.exe f.d (fn _ (th.val p.gk.exe f.a) (th.val p.gk.exe f.b))
        (th.tainted p.gk.exe [f.a, f.b])).advance else th)))

/-- A word of two sources meets the state of its destination, with its sources full. -/
def DestinationStates (c : OpRG → Instr) : Prop :=
  ∀ (f : OpRG) (s : State) (p : Pass) (g : Group) (t : Nat), Issues s (c f) p g → p.sel = [t] → (g.thr t).pred f.g = true →
    g.fullAt p.gk.exe t [f.a.toNat, f.b.toNat] →
    let th : ThreadKey := ⟨p.gk, t⟩
    let st := g.regState p.gk.exe t f.d.toNat
    (∀ v, st = .transit v → exec (c f) s = .next ((s.block th (.regWrite (cellIx (g.thr t).uin f.d.toNat))).withSel [])) ∧
    (∀ b o, st = .wait b o → exec (c f) s = .next ((s.block th (.regWrite (cellIx (g.thr t).uin f.d.toNat))).withSel []))

end Sys2Proof.Claims

open Sys2Proof.Claims

/-- Registers and predicates read what was last written; a word meets the states of its first source and its destination
as the rows say. x0 reads 0 and discards writes, p7 and k15 read true and discard writes; a write to any other
register, predicate or tile predicate is read back, modulo the width of the slice for a register, and leaves every
other one as it was; a write to registers 28 to 31 inside a handler leaves the values that these names have outside
it. For ADD, SUB, MUL, AND, OR, XOR, SHL, SHR, MIN.s, MAX.s, DIVS and REMS in a pass of one lane whose guard is true:
a first source in TRANSIT makes the set wait in the pipeline; in WAIT with its policy bit clear it blocks the thread,
with it set it raises DECOUPLE with the register's number; a POISONED source is put in WAIT for its replay and raises
POISON with the entry and the pop's PC; with full sources, a destination in TRANSIT or WAIT blocks the thread, and a
POISONED one is written: its poison is discarded, with its replay-table entry, and it is FULL. Nothing else happens.
(R184, R185, R186, R188, R212, R392) -/
def Obligations.RegistersAreReadAndWrittenInTheirStates : Prop :=
  (∀ (th : Thread) (v : Nat) (t : Bool), th.rn false 0 = 0 ∧ th.taintOf false 0 = false ∧ th.wn false 0 v t = th) ∧
  (∀ (th : Thread) (e : Bool) (r v : Nat) (t : Bool), th.regs.length = 36 → r < 32 → (e = true ∨ r ≠ 0) →
    (th.wn e r v t).rn e r = v % 2 ^ width e ∧ (th.wn e r v t).taintOf e r = (!e && t) ∧
    ∀ u, u < 32 → u ≠ r → (th.wn e r v t).rn e u = th.rn e u) ∧
  (∀ (th : Thread) (e : Bool) (r v : Nat) (t : Bool) (u : Nat), 28 ≤ r → r < 32 → u < 32 →
    (outside ((inside th).wn e r v t)).rn e u = (outside th).rn e u) ∧
  (∀ (th : Thread) (b : Bool), th.pred 7#3 = true ∧ th.setPred 7#3 b = th) ∧
  (∀ (th : Thread) (p : BitVec 3) (b : Bool), p ≠ 7#3 → (th.setPred p b).pred p = b ∧
    ∀ q, q ≠ p → (th.setPred p b).pred q = th.pred q) ∧
  (∀ (g : Group) (b : Bool), g.kp 15#4 = true ∧ g.setKp 15#4 b = g) ∧
  (∀ (g : Group) (k : BitVec 4) (b : Bool), k ≠ 15#4 → (g.setKp k b).kp k = b ∧ ∀ j, j ≠ k → (g.setKp k b).kp j = g.kp j) ∧
  (SourceStates .add ∧ SourceStates .sub ∧ SourceStates .mul ∧ SourceStates .and ∧ SourceStates .or ∧ SourceStates .xor ∧
    SourceStates .shl ∧ SourceStates .shr ∧ SourceStates .minS ∧ SourceStates .maxS ∧ SourceStates .divs ∧ SourceStates .rems) ∧
  DestinationStates .add ∧ DestinationStates .sub ∧ DestinationStates .mul ∧ DestinationStates .and ∧ DestinationStates .or ∧
  DestinationStates .xor ∧ DestinationStates .shl ∧ DestinationStates .shr ∧ DestinationStates .minS ∧ DestinationStates .maxS ∧
  DestinationStates .divs ∧ DestinationStates .rems ∧
  PoisonedDestination .add (fun _ a b => a + b) ∧ PoisonedDestination .sub (fun _ a b => a - b) ∧
  PoisonedDestination .mul (fun _ a b => a * b) ∧ PoisonedDestination .and (fun _ a b => a &&& b) ∧
  PoisonedDestination .or (fun _ a b => a ||| b) ∧ PoisonedDestination .xor (fun _ a b => a ^^^ b) ∧
  PoisonedDestination .shl (fun w a b => a <<< (b.toNat % w)) ∧ PoisonedDestination .shr (fun w a b => a >>> (b.toNat % w)) ∧
  PoisonedDestination .minS (fun _ a b => if b.slt a then b else a) ∧
  PoisonedDestination .maxS (fun _ a b => if a.slt b then b else a) ∧
  PoisonedDestination .divs (fun w a b => if b = 0 then BitVec.allOnes w else a.sdiv b) ∧
  PoisonedDestination .rems (fun _ a b => if b = 0 then a else a.srem b)

/-- A user-level cause with a handler registered and none running vectors its thread. For every user-level cause whose
group's UVEC is nonzero and whose thread's UIN is 0: UEPC is the resume PC, UIN is set, the PC is the handler's with
its two low bits 0, DEPTH is unchanged, registers 28 to 31 read the cause word and the three words of the record,
untainted and FULL whatever fragment set held them, every register read outside the handler is as before, every other
thread and memory are as before, and no record is produced. (R236, R392, R393) -/
def Obligations.UserCausesVectorTheirThread : Prop :=
  ∀ (s : State) (th : ThreadKey) (g : Group) (i : TrapInfo), s.group th.gk = some g → th.thr < g.threads.length →
    (g.thr th.thr).regs.length = 36 → i.cause.user = true → g.uvec ≠ 0 → (g.thr th.thr).uin = false →
    let t := g.thr th.thr
    let u := (s.takeTrap th i).thread th
    let e := th.gk.exe
    u.uepc = i.resume ∧ u.uin = true ∧ u.pc = (g.uvec.setWidth 57 >>> 2) <<< 2 ∧ u.depth = t.depth ∧
    u.rn e 28 = (i.hc + i.cause.code) % 2 ^ width e ∧ u.rn e 29 = i.r29 % 2 ^ width e ∧
    u.rn e 30 = i.r30 % 2 ^ width e ∧ u.rn e 31 = i.r31 % 2 ^ width e ∧
    (∀ r, 28 ≤ r → r < 32 → u.taintOf e r = false ∧ (u.cell e r).st = .full) ∧
    ((∀ b ∈ g.sets, b.base + (b.n + 1) / 2 ≤ 32) → ∃ h, (s.takeTrap th i).group th.gk = some h ∧
      ∀ r, 28 ≤ r → r < 32 → h.regState e th.thr r = .full) ∧
    (∀ r, r < 32 → (outside u).rn e r = t.rn e r) ∧
    (∀ v, v ≠ th → (s.takeTrap th i).thread v = s.thread v) ∧
    (s.takeTrap th i).evq = s.evq ∧ (s.takeTrap th i).held = s.held ∧ (s.takeTrap th i).mem = s.mem

/-- A supervisor cause, and a user-level cause that finds no handler or a running one, stop their thread with a record.
For every cause but BUDGET, the group-fatal ICONV, QDEAD and ARRAY, and MCHK, that is not a user-level one finding
UVEC nonzero and UIN 0: the thread is STOPPED with the resume PC and the raising PC, and keeps LIVE, PC, DEPTH,
registers, predicates and UIN; one record is produced, with the code, NEST and NOH as the rule gives them, the
thread's name, DEPTH and context in dword 0, the raising PC, the address, and in dword 3 the source's sequence number,
the core and AUX; the record enters the event queue, or is held by its source while the queue is full or the source
holds an earlier one; the next record of the core has the next number; memory is as before. (R394, R395, R396) -/
def Obligations.OtherCausesStopTheirThread : Prop :=
  ∀ (s : State) (th : ThreadKey) (g : Group) (i : TrapInfo), s.group th.gk = some g → th.thr < g.threads.length →
    i.cause ≠ .budget → i.cause ≠ .iconv → i.cause ≠ .qdead → i.cause ≠ .array → i.cause ≠ .mchk →
    (i.cause.user = true → g.uvec = 0 ∨ (g.thr th.thr).uin = true) →
    let t := g.thr th.thr
    let u := (s.takeTrap th i).thread th
    let core := s.coreOf th.gk.team
    let seq := tabGet 0 s.seqs core
    let noh := b2n (i.cause.user && g.uvec == 0)
    let nest := b2n (i.cause.user && t.uin)
    let r : SupRecord := {
      d0 := BitVec.ofNat 64 (i.cause.code + nest * 2 ^ 8 + noh * 2 ^ 9 + s.thrName th * 2 ^ 16 + t.depth % 256 * 2 ^ 39
        + s.ctxOf th.gk.team.job % 4096 * 2 ^ 47)
      d1 := BitVec.ofNat 64 i.raising.toNat
      d2 := BitVec.ofNat 64 i.addr
      d3 := BitVec.ofNat 64 (seq * 2 ^ 48 + core * 2 ^ 32 + i.aux % 2 ^ 32) }
    u.stop = some { debug := false, resume := i.resume, raising := i.raising } ∧
    u.live = t.live ∧ u.pc = t.pc ∧ u.depth = t.depth ∧ u.regs = t.regs ∧ u.preds = t.preds ∧ u.uin = t.uin ∧
    (if s.evq.length < 4096 ∧ ∀ x ∈ s.held, (x.d3.extractLsb' 32 16).toNat ≠ core then (s.takeTrap th i).evq = s.evq ++ [r] ∧ (s.takeTrap th i).held = s.held
      else (s.takeTrap th i).evq = s.evq ∧ (s.takeTrap th i).held = s.held ++ [r]) ∧
    tabGet 0 (s.takeTrap th i).seqs core = (seq + 1) % 2 ^ 16 ∧ (s.takeTrap th i).mem = s.mem

/-- A group-fatal cause produces its takers' records, ends every thread of its group and marks the job with its first
code. When ICONV, QDEAD or ARRAY is taken by threads of a group, each of them produces one record, in order, with the
code, its name, DEPTH and context, its PC and the next sequence numbers of the core; the records enter the event queue
while it has room and the core holds none, and are held after that. The job is marked, then each thread of the group
exits in increasing index (as ExitEndsAndYieldParks says), without a further record. No thread of the group is then
LIVE, the group has ended, and the job, where it was not marked already, is marked with the code of the cause. (R395) -/
def Obligations.GroupFatalCausesEndTheirGroup : Prop :=
  ∀ (s : State) (gk : GroupKey) (takers : List Nat) (c : Cause) (pc : Option Pc) (g : Group), s.group gk = some g →
    g.threads.length = 32 →
    (let core := s.coreOf gk.team
     let seq := tabGet 0 s.seqs core
     let rs : List SupRecord := takers.zipIdx.map (fun x => {
       d0 := BitVec.ofNat 64 (c.code + s.thrName ⟨gk, x.1⟩ * 2 ^ 16 + (g.thr x.1).depth % 256 * 2 ^ 39
         + s.ctxOf gk.team.job % 4096 * 2 ^ 47)
       d1 := BitVec.ofNat 64 (pc.getD (g.thr x.1).pc).toNat
       d2 := 0
       d3 := BitVec.ofNat 64 ((seq + x.2) % 2 ^ 16 * 2 ^ 48 + core * 2 ^ 32) })
     let n := if ∃ x ∈ s.held, (x.d3.extractLsb' 32 16).toNat = core then 0 else 4096 - s.evq.length
     ∃ u : State, s.fatal gk takers c pc =
         (lanes.foldl (fun v t => v.exitThread ⟨gk, t⟩) (u.modJob gk.team.job (fun j => { j with fault := j.fault <|> some c.code }))).endGroup gk ∧
       u.evq = s.evq ++ rs.take n ∧ u.held = s.held ++ rs.drop n ∧ u.groups = s.groups ∧ u.teams = s.teams ∧ u.jobs = s.jobs ∧
       u.mem = s.mem) ∧
    (∃ h, (s.fatal gk takers c pc).group gk = some h ∧ h.ended = true ∧ ∀ t, t < 32 → (h.thr t).live = false) ∧
    ∀ j k, s.job gk.team.job = some j → (s.fatal gk takers c pc).job gk.team.job = some k → k.fault = (j.fault <|> some c.code)

/-- Lane words that a slice, encoding, policy, pair or privilege rule forbids raise ILLOP and have no other effect. For
SRET, TLBINV, CTXQ and HALTQ (privileged: outside context 0), and for RCH, RGET, RPUT, BCOPY, BSTORE, MCAST, REPLAY,
SCAT, ATTD, KVINS, PFXINS, ROPE, CSRR, CSRW, FENCE, JOIN, SPAWN, TAKE, STEAL, PREG, PWAIT, PTEST.W, FNEW: where the
word's slice, encoding or privilege is not the group's, and no lane stands in the middle of a chain, each lane whose
guard is true takes ILLOP, in increasing index, the others advance, and nothing else happens. What is forbidden: the
privileged words outside context 0, with K = 3 or an item above 4; the access words in the execute slice, and ROPE in
the access slice; BCOPY, BSTORE and SCAT with a triple, and ROPE, KVINS, PFXINS, PWAIT, PTEST.W and, in the execute
slice, SPAWN, TAKE and STEAL with a pair, that would pass register 31; FENCE of order 0, JOIN of no stream, PREG and
FNEW of a mode that there is not; a control word that the slice does not have, or cannot write; nothing else. A word
of these with a reserved field that is not zero, or with a policy bit on a slot that it does not read as a register,
decodes to no instruction. (R202, R203, R209, R210, R215) -/
def Obligations.ForbiddenWordsRaiseIllop : Prop :=
  (∀ f, Forbidden (.sret f) f.g) ∧ (∀ f, Forbidden (.tlbinv f) f.g) ∧ (∀ f, Forbidden (.ctxq f) f.g) ∧
  (∀ f, Forbidden (.haltq f) f.g) ∧ (∀ f, Forbidden (.rch f) f.g) ∧ (∀ f, Forbidden (.rget f) f.g) ∧
  (∀ f, Forbidden (.rput f) f.g) ∧ (∀ f, Forbidden (.bcopy f) f.g) ∧ (∀ f, Forbidden (.bstore f) f.g) ∧
  (∀ f, Forbidden (.mcast f) f.g) ∧ (∀ f, Forbidden (.replay f) f.g) ∧ (∀ f, Forbidden (.scat f) f.g) ∧
  (∀ f, Forbidden (.attd f) f.g) ∧ (∀ f, Forbidden (.kvins f) f.g) ∧ (∀ f, Forbidden (.pfxins f) f.g) ∧
  (∀ f, Forbidden (.rope f) f.g) ∧ (∀ f, Forbidden (.csrr f) f.g) ∧ (∀ f, Forbidden (.spawn f) f.g) ∧
  (∀ f, Forbidden (.take f) f.g) ∧ (∀ f, Forbidden (.steal f) f.g) ∧ (∀ f, Forbidden (.csrw f) f.g) ∧
  (∀ f, Forbidden (.fence f) f.g) ∧ (∀ f, Forbidden (.join f) f.g) ∧ (∀ f, Forbidden (.pwait f) f.g) ∧ (∀ f, Forbidden (.ptestW f) f.g) ∧
  (∀ f, Forbidden (.preg f) f.g) ∧ (∀ f, Forbidden (.fnew f) f.g) ∧
  (∀ (s : State) (gk : GroupKey), let no (i : Instr) (p : Prop) : Prop := s.forbids gk i = true ↔ p
    let low := s.ctxOf gk.team.job ≠ 0
    let exe := gk.exe = true
    (∀ f, no (.sret f) low) ∧ (∀ f, no (.haltq f) low) ∧ (∀ f : OpTlbinv, no (.tlbinv f) (low ∨ f.k = 3#2)) ∧
    (∀ f : OpCtxq, no (.ctxq f) (low ∨ 4 < f.item.toNat)) ∧
    (∀ f, no (.rch f) exe ∧ no (.rget f) exe ∧ no (.rput f) exe ∧ no (.mcast f) exe) ∧ (∀ f, no (.replay f) exe) ∧
    (∀ f, no (.attd f) exe) ∧ (∀ f : OpRG, no (.bcopy f) (exe ∨ 29 < f.b.toNat) ∧ no (.bstore f) (exe ∨ 29 < f.b.toNat)) ∧
    (∀ f : OpScat, no (.scat f) (exe ∨ 29 < f.a.toNat)) ∧
    (∀ f : OpRG, no (.kvins f) (exe ∨ 30 < f.b.toNat) ∧ no (.pfxins f) (exe ∨ 30 < f.b.toNat)) ∧
    (∀ f : OpRG, no (.rope f) (¬exe ∨ 30 < f.a.toNat ∨ 30 < f.b.toNat ∨ 30 < f.d.toNat)) ∧
    (∀ f : OpFence, no (.fence f) (exe ∨ f.os = 0#4)) ∧ (∀ f : OpJoin, no (.join f) (exe ∨ f.mask = 0#5)) ∧
    (∀ f : OpSpawn, no (.spawn f) (exe ∧ 30 < f.a.toNat)) ∧ (∀ f : OpTake, no (.take f) (exe ∧ 30 < f.d.toNat)) ∧
    (∀ f : OpSteal, no (.steal f) (exe ∧ 30 < f.d.toNat)) ∧ (∀ f : OpPreg, no (.preg f) (f.b = 0#5 ∨ 3 < f.b.toNat)) ∧
    (∀ f : OpPwait, no (.pwait f) (30 < f.b.toNat)) ∧ (∀ f : OpRG, no (.ptestW f) (30 < f.b.toNat)) ∧
    (∀ f : OpFnew, no (.fnew f) (1 < f.b.toNat)) ∧
    (∀ f : OpCsrr, let n := (f.sel.extractLsb' 0 9).toNat
      no (.csrr f) (¬(n ∈ [0, 1, 2, 3, 4, 5, 6, 0x10, 0x11, 0x22, 0x30, 0x31] ∨ exe ∧ n ∈ [0x20, 0x21]) ∨
        ¬exe ∧ f.sel.getLsbD 9 = true)) ∧
    ∀ f : OpCsrw, let n := (f.sel.extractLsb' 0 9).toNat
      no (.csrw f) (¬(n ∈ [0x30, 0x31] ∨ exe ∧ n ∈ [0x20, 0x21]) ∨ ¬exe ∧ f.sel.getLsbD 9 = true)) ∧
  ∀ c : Bool,
    (∀ r : FmtRG, (r.fn = 3#5 → r.d ≠ 0 ∨ r.b ≠ 0 ∨ r.pb ≠ 0 → decode (joinRG c 0x33#6 r) = none) ∧
      (r.fn = 1#5 → r.pb ≠ 0 → decode (joinRG c 0x36#6 r) = none) ∧
      (r.fn = 5#5 → 8 ≤ r.d.toNat → decode (joinRG c 0x36#6 r) = none) ∧
      (r.fn = 5#5 → r.b ≠ 0 ∨ r.pb ≠ 0 → decode (joinRG c 0x3A#6 r) = none)) ∧
    (∀ r : FmtQF, r.fn = 5#4 → 2 ≤ r.qn.toNat ∨ r.mp ≠ 7#3 → decode (joinQF c 0x32#6 r) = none) ∧
    (∀ r : FmtSYS, (r.fn = 0#2 → r.a ≠ 0 → decode (joinSYS c 0x06#6 r) = none) ∧
      (r.fn = 0#2 → r.d ≠ 0 ∨ r.a ≠ 0 ∨ 16 ≤ r.sel.toNat → decode (joinSYS c 0x35#6 r) = none) ∧
      (r.fn = 1#2 → r.d ≠ 0 ∨ r.a ≠ 0 ∨ 32 ≤ r.sel.toNat → decode (joinSYS c 0x35#6 r) = none) ∧
      (r.fn = 0#2 → 2 ≤ r.sel.toNat → decode (joinSYS c 0x3B#6 r) = none) ∧
      (r.fn = 1#2 → 4 ≤ r.sel.toNat → decode (joinSYS c 0x3B#6 r) = none) ∧
      (r.fn = 0#2 → 8 ≤ r.sel.toNat → decode (joinSYS c 0x3C#6 r) = none) ∧
      (r.fn = 0#2 → r.sel ≠ 0 → decode (joinSYS c 0x3D#6 r) = none)) ∧
    ∀ r : FmtTASK, (r.fn = 0#4 → r.d ≠ 0 ∨ r.b ≠ 0 → decode (joinTASK c 0x37#6 r) = none) ∧
      (r.fn = 1#4 → r.a ≠ 0 ∨ r.b ≠ 0 → decode (joinTASK c 0x37#6 r) = none) ∧
      (r.fn = 2#4 → r.b ≠ 0 → decode (joinTASK c 0x37#6 r) = none) ∧
      (r.fn = 0#4 → r.d ≠ 0 ∨ r.ps ≠ 7#3 → decode (joinTASK c 0x38#6 r) = none)

namespace Sys2Proof.Claims

/-! ### Tiles -/

/-- A declared tile with no earlier MMA of the group to complete (11 R318, R321, R323). -/
abbrev tileIdle (g : Group) (t : BitVec 3) : Prop := t.toNat < g.tiles.length ∧ ∀ m ∈ g.mmas, m.tile ≠ t.toNat

/-- The same for a tile that is read: it holds no uncorrectable error (14 R398). -/
abbrev tileSound (g : Group) (t : BitVec 3) : Prop := tileIdle g t ∧ (g.tile t.toNat).ecc = false

/-- A tile that may also be written: no earlier drain command has still to read it (11 R318, R325). -/
abbrev tileFree (s : State) (p : Pass) (g : Group) (t : BitVec 3) : Prop := tileIdle g t ∧ s.drainOn p.gk t.toNat = false

/-- The registers rs of all 32 threads are full. -/
abbrev allFull (g : Group) (rs : List Nat) : Prop := ∀ t, t < 32 → g.fullAt true t rs

/-- n registers from a on. -/
def regRun (a n : Nat) : List Nat := (List.range n).map (a + ·)

/-- The state with one tile of the group changed. -/
def withTile (s : State) (p : Pass) (t : BitVec 3) (f : Tile → Tile) : State := s.modGroup p.gk (fun h => h.modTile t.toNat f)

/-- The state with a tile predicate of the group set. -/
def withKp (s : State) (p : Pass) (k : BitVec 4) (v : Bool) : State := s.modGroup p.gk (fun h => h.setKp k v)

/-- The cells of a tile by row and column. -/
def cellsBy (f : Nat → Nat → BitVec 96) : List (BitVec 96) := (List.range 1024).map (fun i => f (i / 32) (i % 32))

/-- Registers a to a + 7 of every thread from a function of register and thread, with its events. -/
def withRegs (s : State) (p : Pass) (a : Nat) (code : Nat → Nat → Nat × Nat) : State :=
  s.modGroup p.gk (fun h => h.mapThreads (fun c th => (List.range 8).foldl (fun th j =>
    let u := th.wn true (a + j) (code j c).1 false
    { u with fpstat := u.fpstat ||| BitVec.ofNat 64 (code j c).2 }) th))

/-- The sum of the six 16-bit pieces of a cell's image (11 R330). -/
def pieces16 (n : Nat) : Nat :=
  n % 2 ^ 16 + n / 2 ^ 16 % 2 ^ 16 + n / 2 ^ 32 % 2 ^ 16 + n / 2 ^ 48 % 2 ^ 16 + n / 2 ^ 64 % 2 ^ 16 + n / 2 ^ 80 % 2 ^ 16

/-- A tile operation of KOP on two predicates. -/
def TilePredicate (c : OpKop → Instr) (op : Bool → Bool → Bool) : Prop :=
  ∀ f, GroupWise (c f) f.k (fun _ _ _ => True) (fun s p g => withKp s p f.d (op (g.kp f.d) (g.kp f.b)))

/-- A group-collective word is checked in the order of 11 R313: what the group has not declared raises ILLOP on the selected
threads; a false tile predicate retires the word; a selected set of fewer than 32 threads takes ICONV, which is fatal. -/
def Collective (i : Instr) (k : BitVec 4) (D : State → Pass → Group → Prop) : Prop :=
  ∀ (s : State) (p : Pass) (g : Group), Issues s i p g →
    (¬D s p g → exec i s = .next (trapSel s p (illop p.pc p.word))) ∧
    (D s p g → g.kp k = false → exec i s = .next (advanceSel s p)) ∧
    (D s p g → g.kp k = true → p.sel.length ≠ 32 → exec i s = .next ((s.fatal p.gk p.sel .iconv).withSel []))

/-- A tile that the group has declared. -/
abbrev declaredTile (t : BitVec 3) (_ : State) (_ : Pass) (g : Group) : Prop := t.toNat < g.tiles.length

/-- The queue that a name reaches for a group, if it is of a mode and direction and the group has the role. -/
def queueOf (s : State) (gk : GroupKey) (name : Nat) (m : List QMode) (d : List QDir) (prod : Option Bool) (q : Queue) : Prop :=
  s.queueFor gk name = some q ∧ q.mode ∈ m ∧ q.dir ∈ d ∧ (prod = some true → q.prod = gk) ∧ (prod = some false → q.cons = gk)

/-- A block queue of direction ae that the group consumes (11 R325). -/
def drainQueue (s : State) (gk : GroupKey) (name : Nat) : Prop := ∃ q, queueOf s gk name [.block] [.ae] (some false) q

/-- The blocks of a fragment. -/
def fragmentAt (g : Group) (r : BitVec 5) : List Block := g.fragment r.toNat (g.span r)

/-- What an MMA needs to pass its checks (11 R313 steps 4 to 7, R318). -/
abbrev mmaGood (f : OpMma) (s : State) (p : Pass) (g : Group) : Prop :=
  f.t.toNat < g.tiles.length ∧ b2n f.ol < g.ols.length ∧ s.drainOn p.gk f.t.toNat = false ∧
  f.a.toNat + g.span f.a ≤ 32 ∧ f.b.toNat + g.span f.b ≤ 32 ∧
  allFull g (regRun f.a.toNat (g.span f.a) ++ regRun f.b.toNat (g.span f.b)) ∧
  (∀ n ∈ mmaOls f g, (g.ol n).st = .full ∧ (g.ol n).ecc = false) ∧
  (∀ x ∈ fragmentAt g f.a, checkBlock x (some (g.ol (b2n f.ol)).cnt) = none ∧ blkFmt x = blkFmt ((fragmentAt g f.a).headD 0)) ∧
  (∀ x ∈ fragmentAt g f.b, checkBlock x (some (g.ol (1 - b2n f.ol)).cnt) = none ∧
    blkFmt x = blkFmt ((fragmentAt g f.b).headD 0)) ∧
  widthClass (blkFmt ((fragmentAt g f.a).headD 0)) ≠ 0 ∧ widthClass (blkFmt ((fragmentAt g f.b).headD 0)) ≠ 0 ∧
  (f.fmt = 0#4 ∨ f.fmt.toNat = blkFmt ((fragmentAt g f.a).headD 0)) ∧
  (f.var = 0#3 ∨ f.var.toNat = widthClass (blkFmt ((fragmentAt g f.b).headD 0)))

/-- What an MMA needs to pass its checks and to start (15 R402). -/
def mmaPasses (f : OpMma) (s : State) (p : Pass) (g : Group) : Prop := mmaGood f s p g ∧ ∃ u, s.energy p.gk 6 = some u

/-- The state once an MMA has read its fragments and lists: it waits to complete, and an armed injection is consumed. -/
def mmaIssued (f : OpMma) (zero : Bool) (s : State) (p : Pass) (g : Group) : State :=
  match s.energy p.gk 6 with
  | none => s
  | some u =>
    let (i1, i2, v) := (u.sketch ⟨p.gk, 0⟩ p.pc 6 6).takeInjection p.gk
    v.modGroup p.gk (fun h => { h with mmas := h.mmas ++ [{
      tile := f.t.toNat, pc := p.pc, zero := zero, fa := fragmentAt g f.a, fb := fragmentAt g f.b
      la := (h.ol (b2n f.ol)).es, lb := (h.ol (1 - b2n f.ol)).es, inj1 := i1, inj2 := i2 }] })

/-- The cell that an MMA leaves at a row and column of a tile: C of `mma_cell`, from +0 or the cell before it, of the
product's row and column, exchanged under SHAPE 1 (11 R314, R321). -/
def mmaCellAt (m : PendMma) (t : Tile) (r c : Nat) : BitVec 96 :=
  let k := mmaK m.fa m.fb
  let wide := widthClass (blkFmt (m.fa.headD 0)) == 1 || widthClass (blkFmt (m.fb.headD 0)) == 1
  let row := (fragRows m.fa m.la k).getD (if t.shape then c else r) ⟨[], [], .zero⟩
  let col := (fragRows m.fb m.lb k).getD (if t.shape then r else c) ⟨[], [], .zero⟩
  BitVec.ofNat 96 (mmaCell (cellFmt t.afmt) wide row col k (if m.zero then 0 else t.image (32 * r + c)))

/-- A soft error that strikes a sum of the MMA (11 R319, R320). -/
def strikes (m : PendMma) (u : Upset) : Prop := u.grp < mmaK m.fa m.fb / 24 ∧ u.row < 32 ∧ u.col < 32

/-- Every selected thread is blocked on the same wait, and leaves the pass (06 R184). -/
def blockedSel (s : State) (p : Pass) (b : Blk) : State :=
  (p.sel.foldl (fun s t => s.block ⟨p.gk, t⟩ b) s).withSel []

/-- Instruction i, under tile predicate k with all 32 threads selected, and under `C`, leaves `out` with no thread in the pass. -/
def CollStops (i : Instr) (k : BitVec 4) (C : State → Pass → Group → Prop) (out : State → Pass → Group → State) : Prop :=
  ∀ (s : State) (p : Pass) (g : Group), Issues s i p g → g.kp k = true → p.sel.length = 32 → C s p g →
    exec i s = .next (out s p g)

/-- The replay-table entry of a discarded poison entry is free (06 R188). -/
def freed (s : State) (k : TeamKey) (r : Poison) : State :=
  if r.rtag = 0xFFFF then s else s.modTeam k (fun t => { t with replay := updAt t.replay r.rtag (fun _ => none) })

/-- The fields of a drain descriptor (11 R324). -/
def descriptorOf (b : Block) : DrainDesc where
  dest := bitsAt b 0 64
  rstr := (BitVec.ofNat 32 (bitsAt b 64 32)).toInt
  df := bitsAt b 96 2
  sp := bitsAt b 98 1 == 1
  nofr := bitsAt b 99 1 == 1
  budget := bitsAt b 112 16
  frec := bitsAt b 128 18
  sumoff := bitsAt b 160 18

/-- A range of a scratchpad runs past 0x3FFFF, or starts below it. -/
def beyondSpad (start : Int) (n : Nat) : Prop := start < 0 ∨ 2 ^ 18 < start + n

/-- A descriptor is invalid for command op: 0 TDRAIN, 1 TDRAIN.ADD, 2 TSTSP (11 R324, R325). -/
def invalidDescriptor (op : Nat) (b : Block) : Prop :=
  let d := descriptorOf b
  let size := if d.df = 1 then 2 else 4
  let row (r : Nat) : Int := d.dest + r * d.rstr
  bitsAt b 100 12 ≠ 0 ∨ bitsAt b 146 14 ≠ 0 ∨ bitsAt b 178 14 ≠ 0 ∨ bitsAt b 192 320 ≠ 0 ∨ 1 < d.df ∨ d.dest % size ≠ 0 ∨
  (op ≠ 2 ∧ ∃ r, r < 32 ∧ row r % size ≠ 0) ∨ (d.nofr = false ∧ (d.frec % 16 ≠ 0 ∨ beyondSpad d.frec 16)) ∨
  (op = 2 ∧ (d.sumoff % 8 ≠ 0 ∨ beyondSpad d.sumoff 8 ∨ d.dest % 64 ≠ 0)) ∨ (if d.df = 1 then 64 else 96) < d.budget ∨
  (d.sp = true ∧ if op = 2 then beyondSpad d.dest (64 * if d.df = 1 then 64 else 96)
    else ∃ r, r < 32 ∧ beyondSpad (row r) (32 * size)) ∨
  (op = 1 ∧ (d.df ≠ 0 ∨ d.dest % 64 ≠ 0 ∨ d.rstr % 64 ≠ 0))

/-- A drain command is accepted: its descriptor leaves the queue, it is the last of the drain stream (11 R325). -/
def drainAccepted (op : Nat) (f : OpDrain) (s : State) (p : Pass) (q : Queue) (b : Block) : State :=
  let d := descriptorOf b
  (s.modFifo p.gk.team q.ref 0 Fifo.take).modTeam p.gk.team (fun tm => { tm with
    nextId := tm.nextId + 1
    drainq := tm.drainq ++ [{
      id := tm.nextId, wait := none, thr := ⟨p.gk, 0⟩, pc := p.pc, t0 := s.cycle
      frec := if d.nofr then none else some d.frec
      fr := { v := false, idx := 0, va := 0, fc := 0, kind := 0, sp := false, dmap := 0 }, fut := none
      kind := .drain op p.gk f.t.toNat d false [] false [] 0 }] })

/-- Drain word `c f` meets a queue whose head is absent, a poison entry or a marker (11 R325). -/
def DrainHeads (c : OpDrain → Instr) : Prop :=
  ∀ (f : OpDrain) (q : Queue),
    let M (s : State) (p : Pass) (g : Group) : Prop :=
      f.t.toNat < g.tiles.length ∧ queueOf s p.gk f.b.toNat [.block] [.ae] (some false) q
    let taken (s : State) (p : Pass) := s.modFifo p.gk.team q.ref 0 Fifo.take
    CollStops (c f) f.k (fun s p g => M s p g ∧ (q.fifo 0).head = none) (fun s p _ => blockedSel s p (.popEmpty q.ref 0)) ∧
    (∀ r, CollStops (c f) f.k (fun s p g => M s p g ∧ (q.fifo 0).head = some (.poison r)) (fun s p _ =>
      trapSel (freed (taken s p) p.gk.team r) p (.ofPoison { r with rtag := 0xFFFF } true p.pc p.pc p.pc))) ∧
    ∀ x, CollStops (c f) f.k (fun s p g => M s p g ∧ (q.fifo 0).head = some (.marker x)) (fun s p _ =>
      trapSel (taken s p) p (.ofPoison (markerPoison q.ref) true p.pc p.pc p.pc))

/-- Drain word `c f` takes a valid descriptor at the head of its queue, where the group has its energy. -/
def Drains (c : OpDrain → Instr) (op : Nat) : Prop :=
  ∀ (f : OpDrain) (s : State) (p : Pass) (g : Group) (q : Queue) (b : Block), Issues s (c f) p g → g.kp f.k = true →
    p.sel.length = 32 → f.t.toNat < g.tiles.length → queueOf s p.gk f.b.toNat [.block] [.ae] (some false) q →
    (q.fifo 0).head = some (.data (.block b)) →
    (invalidDescriptor op b →
      exec (c f) s = .next (trapSel (s.modFifo p.gk.team q.ref 0 Fifo.take) p (.at .badarg p.pc))) ∧
    (¬invalidDescriptor op b → op ≠ 1 → exec (c f) s = .next (advanceSel (drainAccepted op f s p q b) p)) ∧
    (∀ u, ¬invalidDescriptor op b → op = 1 → s.energy p.gk 2 = some u →
      exec (c f) s = .next (advanceSel (drainAccepted op f (u.sketch ⟨p.gk, 0⟩ p.pc 6 2) p q b) p))

end Sys2Proof.Claims

open Sys2Proof.Claims

/-- Group-collective words check their declarations, their tile predicate and the selected set, in that order. MMA, MMAZ,
TCFG, TZERO, KOP in its seven forms, TCHK, TMOVF, TMOVT, TDRAIN, TDRAIN.ADD, TSTSP, QPOPB, QPUSHB and QPOPO, issued by
an execute group: a tile, list or queue that the group has not, or not so, raises ILLOP on the selected threads; then
a false tile predicate retires the word with no effect but the advance; then, unless all 32 threads are selected,
ICONV ends the group. (R178, R208, R313) -/
def Obligations.CollectiveWordsAreCheckedInOrder : Prop :=
  (∀ f, Collective (.mma f) f.k (fun _ _ g => f.t.toNat < g.tiles.length ∧ b2n f.ol < g.ols.length)) ∧
  (∀ f, Collective (.mmaz f) f.k (fun _ _ g => f.t.toNat < g.tiles.length ∧ b2n f.ol < g.ols.length)) ∧
  (∀ f, Collective (.tcfg f) f.k (declaredTile f.t)) ∧ (∀ f, Collective (.tzero f) f.k (declaredTile f.t)) ∧
  (∀ f, Collective (.kopMov f) f.k (fun _ _ _ => True)) ∧ (∀ f, Collective (.kopAnd f) f.k (fun _ _ _ => True)) ∧
  (∀ f, Collective (.kopOr f) f.k (fun _ _ _ => True)) ∧ (∀ f, Collective (.kopAndn f) f.k (fun _ _ _ => True)) ∧
  (∀ f, Collective (.kopNz f) f.k (declaredTile f.t)) ∧ (∀ f, Collective (.kopFromp f) f.k (fun _ _ _ => True)) ∧
  (∀ f, Collective (.kopTop f) f.k (fun _ _ _ => True)) ∧ (∀ f, Collective (.tchk f) f.k (declaredTile f.t)) ∧
  (∀ f, Collective (.tmovfF32 f) f.k (declaredTile f.t)) ∧ (∀ f, Collective (.tmovfBf16 f) f.k (declaredTile f.t)) ∧
  (∀ f, Collective (.tmovtF32 f) f.k (declaredTile f.t)) ∧ (∀ f, Collective (.tmovtBf16 f) f.k (declaredTile f.t)) ∧
  (∀ f, Collective (.tdrain f) f.k (fun s p g => f.t.toNat < g.tiles.length ∧ drainQueue s p.gk f.b.toNat)) ∧
  (∀ f, Collective (.tdrainAdd f) f.k (fun s p g => f.t.toNat < g.tiles.length ∧ drainQueue s p.gk f.b.toNat)) ∧
  (∀ f, Collective (.tstsp f) f.k (fun s p g => f.t.toNat < g.tiles.length ∧ drainQueue s p.gk f.b.toNat)) ∧
  (∀ f, Collective (.qpopb f) 15#4 (fun s p _ => ∃ q, queueOf s p.gk f.qn.toNat [.block] [.ae] (some false) q)) ∧
  (∀ f, Collective (.qpushb f) 15#4 (fun s p _ => ∃ q, queueOf s p.gk f.qn.toNat [.block] [.ea, .es] (some true) q ∧
    q.closed = false)) ∧
  ∀ f, Collective (.qpopo f) 15#4 (fun s p g => b2n f.d < g.ols.length ∧
    ∃ q, queueOf s p.gk f.qn.toNat [.outlier] [.ae] (some false) q)

/-- Configuration, zeroing, transfers, tile predicates and checks of tiles give their results. TCFG, TZERO, KOP.MOV,
KOP.AND, KOP.OR, KOP.ANDN, KOP.NZ, KOP.FROMP, KOP.TOP, TCHK, TMOVF and TMOVT, issued by an execute group with all 32
threads, a true tile predicate, and a tile that nothing earlier of the group has still to write or read and that holds
no uncorrectable error where the word reads it (which TCHK does not ask), complete. TCFG sets SHAPE and AFMT, and
leaves the cells as they are where neither changes; where one does, they are free values (log 3). TZERO makes every
cell +0 and clears the poison mark. The KOP forms write the predicates of their table. TCHK writes the residue of the
row or column and the mark. TMOVF writes each row's cells converted, with the events of each thread's own conversions;
TMOVT writes the named rows, widened, and leaves the others. Nothing else changes but the PCs. (R321, R322, R323,
R329, R330) -/
def Obligations.TileWordsGiveTheirResults : Prop :=
  (∀ f : OpTcfg, GroupWise (.tcfg f) f.k (fun s p g => tileFree s p g f.t) (fun s p g =>
    if (g.tile f.t.toNat).shape = f.shape ∧ (g.tile f.t.toNat).afmt = f.afmt then
      withTile s p f.t (fun t => { t with shape := f.shape, afmt := f.afmt })
    else { withTile s p f.t (fun t => { t with
        shape := f.shape, afmt := f.afmt, cells := (List.range 1024).map (freeCell s.fresh), ecc := false }) with
      fresh := s.fresh + 1024 })) ∧
  (∀ f : OpTile, GroupWise (.tzero f) f.k (fun s p g => tileFree s p g f.t) (fun s p _ =>
    withTile s p f.t (fun t => { t with cells := List.replicate 1024 0, pois := false, ecc := false }))) ∧
  TilePredicate .kopMov (fun _ b => b) ∧ TilePredicate .kopAnd (· && ·) ∧ TilePredicate .kopOr (· || ·) ∧
  TilePredicate .kopAndn (fun d b => d && !b) ∧
  (∀ f : OpKopNz, GroupWise (.kopNz f) f.k (fun _ _ g => tileSound g f.t) (fun s p g =>
    withKp s p f.d ((List.range 1024).any (g.tile f.t.toNat).nonzero))) ∧
  (∀ f : OpKopFromp, GroupWise (.kopFromp f) f.k (fun _ _ _ => True) (fun s p g =>
    withKp s p f.d ((List.range 32).any (fun t => (g.thr t).pred f.b)))) ∧
  (∀ f : OpKopTop, GroupWise (.kopTop f) f.k (fun _ _ _ => True) (fun s p g =>
    s.modGroup p.gk (fun h => h.mapThreads (fun _ th => th.setPred f.d (g.kp f.b))))) ∧
  (∀ f : OpTchk, GroupWise (.tchk f) f.k (fun _ _ g => tileIdle g f.t ∧ allFull g [f.a.toNat]) (fun s p g =>
    let t := g.tile f.t.toNat
    s.modGroup p.gk (fun h => h.mapThreads (fun i th => th.wn true f.a.toNat
      (((List.range 32).map (fun j => pieces16 (t.image (if f.m then 32 * j + i else 32 * i + j)))).sum % 65535
        + b2n t.pois * 2 ^ 31) false)))) ∧
  (∀ f : OpTmov32, GroupWise (.tmovfF32 f) f.k (fun _ _ g => tileSound g f.t ∧ allFull g (regRun f.a.toNat 8)) (fun s p g =>
    withRegs s p f.a.toNat (fun j c => convert .fp32 ((g.tile f.t.toNat).value (32 * (8 * f.q.toNat + j) + c))))) ∧
  (∀ f : OpTmov16, GroupWise (.tmovfBf16 f) f.k (fun _ _ g => tileSound g f.t ∧ allFull g (regRun f.a.toNat 8)) (fun s p g =>
    withRegs s p f.a.toNat (fun j c =>
      let at_ (r : Nat) := convert .bf16 ((g.tile f.t.toNat).value (32 * (16 * b2n f.h + r) + c))
      packed (at_ (2 * j)) (at_ (2 * j + 1))))) ∧
  (∀ f : OpTmov32, GroupWise (.tmovtF32 f) f.k (fun s p g => tileFree s p g f.t ∧ allFull g (regRun f.a.toNat 8))
    (fun s p g => withTile s p f.t (fun t => { t with
      cells := cellsBy (fun r c => if r / 8 = f.q.toNat
        then cellOf t.afmt .fp32 ((g.thr c).rn true (f.a.toNat + r % 8)) else t.cells.getD (32 * r + c) 0) }))) ∧
  ∀ f : OpTmov16, GroupWise (.tmovtBf16 f) f.k (fun s p g => tileFree s p g f.t ∧ allFull g (regRun f.a.toNat 8))
    (fun s p g => withTile s p f.t (fun t => { t with
      cells := cellsBy (fun r c => if r / 16 = b2n f.h then
          (let w := (g.thr c).rn true (f.a.toNat + r % 16 / 2)
           cellOf t.afmt .bf16 (if r % 2 = 0 then lowHalf w else highHalf w))
        else t.cells.getD (32 * r + c) 0) }))

/-- An MMA reads its fragments and lists at issue, and writes every cell of its tile once when it completes. MMA and MMAZ,
issued by an execute group with all 32 threads and a true tile predicate, with both fragments in the register file and
full, both lists full, every block good against its list and of one format with its fragment, the formats those of the
word, the tile read by every earlier drain command, and the energy at hand: the blocks of both fragments and the
entries of both lists are held with the tile's number, an armed injection for the group is consumed, the threads stand
at the next word. For the oldest MMA of a group, on a tile without an uncorrectable error unless it is an MMAZ, struck
by nothing: every cell becomes mma_cell of its row and column, from the cell's value or, for MMAZ, from +0, exchanged
under SHAPE 1 (what mma_cell gives is stated in MatrixCellsFollowThePseudocode); MMAZ clears the poison mark; the MMA
is done; nothing else changes. One soft error in a sum of the first pass, and none in the second, leaves the same
tiles and advances the core's rerun counter. An error in each pass, or an MMA on a tile with an uncorrectable error,
ends the group, with the job marked ARRAY where it had no mark. (R312, R313, R314, R320, R321) -/
def Obligations.MmaReadsAtIssueAndWritesAtCompletion : Prop :=
  (∀ f, GroupWise (.mma f) f.k (mmaPasses f) (mmaIssued f false)) ∧
  (∀ f, GroupWise (.mmaz f) f.k (mmaPasses f) (mmaIssued f true)) ∧
  ∀ (s : State) (gk : GroupKey) (g : Group) (m : PendMma) (rest : List PendMma), s.group gk = some g →
    g.mmas = m :: rest → m.inj1 = none → m.inj2 = none →
    let clean := s.modGroup gk (fun h => ({ h with mmas := rest }).modTile m.tile (fun t =>
      { t with cells := cellsBy (mmaCellAt m t), pois := t.pois && !m.zero, ecc := t.ecc && !m.zero }))
    let sound := (g.tile m.tile).ecc = false ∨ m.zero = true
    let ends (t : State) := ∃ h, t.group gk = some h ∧ h.ended = true ∧
      ∀ j k, s.job gk.team.job = some j → t.job gk.team.job = some k → k.fault = (j.fault <|> some Cause.array.code)
    (m.tile < g.tiles.length → sound → exec (.mmaCompletion gk none none) s = .next clean) ∧
    (∀ u, strikes m u → m.tile < g.tiles.length → sound → ∃ t, exec (.mmaCompletion gk (some u) none) s = .next t ∧
      (t.group gk).map (fun h => h.tiles) = (clean.group gk).map (fun h => h.tiles) ∧
      (t.core (s.coreOf gk.team)).rerun = ((s.core (s.coreOf gk.team)).rerun + 1) % 2 ^ 64) ∧
    (∀ u v, strikes m u → strikes m v → g.threads.length = 32 →
      ∃ t, exec (.mmaCompletion gk (some u) (some v)) s = .next t ∧ ends t) ∧
    ∀ u v, ¬sound → g.threads.length = 32 → ∃ t, exec (.mmaCompletion gk u v) s = .next t ∧ ends t

/-- TDRAIN, TDRAIN.ADD and TSTSP take the descriptor at the head of their queue. Issued by an execute group with all 32
threads, a true tile predicate, a declared tile and a block queue of direction ae that it consumes: an absent head
blocks the 32 threads; a poison entry or a marker is removed, and POISON is raised on the 32 threads with RTAG 0xFFFF;
a block is the descriptor and is removed: an invalid one (a reserved bit, DF, the alignments, the scratchpad ranges
and the budget) raises BADARG on the 32 threads, and nothing else happens; a valid one is the last command of the
team's drain stream, with the fields of its layout, and the threads stand at the next word. TDRAIN.ADD has its energy
granted first. The command is kept under thread 0 (log 71, DESIGN CHOICE). (R188, R324, R325) -/
def Obligations.DrainWordsTakeTheirDescriptors : Prop :=
  (Drains .tdrain 0 ∧ Drains .tdrainAdd 1 ∧ Drains .tstsp 2) ∧ DrainHeads .tdrain ∧ DrainHeads .tdrainAdd ∧ DrainHeads .tstsp

namespace Sys2Proof.Claims

/-! ### Queues -/

/-- A group has a queue of these modes and directions under a name, in the role. -/
def hasQueue (name : Nat) (m : List QMode) (d : Bool → List QDir) (prod : Option Bool) (s : State) (gk : GroupKey) : Prop :=
  ∃ q, queueOf s gk name m (d gk.exe) prod q

/-- A function of a lane's queue, the number of its FIFO and that FIFO. -/
def onQueue (name : Nat) (k : State → ThreadKey → Queue → Nat → Fifo → State) (s : State) (th : ThreadKey) : State :=
  match s.queueFor th.gk name with
  | some q => k s th q (q.lane th.thr) (q.fifo (q.lane th.thr))
  | none => s

/-- A condition on a lane's queue and FIFO. -/
def queueMeets (name : Nat) (C : State → ThreadKey → Queue → Fifo → Prop) (s : State) (th : ThreadKey) : Prop :=
  ∃ q, s.queueFor th.gk name = some q ∧ C s th q (q.fifo (q.lane th.thr))

/-- The head position of a FIFO leaves it. -/
def popped (s : State) (th : ThreadKey) (q : Queue) (i : Nat) : State :=
  s.modFifo th.gk.team q.ref i (fun f => { f with nextOut := f.nextOut + 1, slots := f.slots.drop 1 })

/-- A destination register is bound by a pop; x0 takes nothing. -/
def bound (th : ThreadKey) (d : BitVec 5) (st : RegSt) (t : Thread) : Thread :=
  t.setCell th.gk.exe d.toNat { t.cell th.gk.exe d.toNat with st := st, taint := false }

/-- Does a pop discard what it takes: is its destination x0 (07 R213)? -/
abbrev discards (th : ThreadKey) (d : BitVec 5) : Prop := th.gk.exe = false ∧ d = 0#5

/-- The directions in which a slice pops (09 R265). -/
def popsFrom (exe : Bool) : List QDir := if exe then [.ae] else [.ea]
/-- The directions in which a slice pushes. -/
def pushesTo (exe : Bool) : List QDir := if exe then [.ea, .es] else [.ae]

/-- A FIFO that holds what has been pushed and not popped, and takes n more entries. -/
abbrev takesMore (q : Queue) (f : Fifo) (n : Nat) : Prop :=
  f.closed = false ∧ f.dead = false ∧ f.nextOut ≤ f.nextIn ∧ f.nextIn - f.nextOut + n ≤ q.limit

/-- Entries stand behind those of a FIFO. -/
def pushed (s : State) (k : TeamKey) (q : Queue) (i : Nat) (xs : List QSlot) : State :=
  s.modFifo k q.ref i (fun f => { f with nextIn := f.nextIn + xs.length, slots := f.slots ++ xs })

/-- An entry position as a fragment set finds it: a block, poison, a marker, or nothing yet. -/
def found (x : Option QSlot) : SetSlot :=
  match x with
  | some (.data (.block b)) => .data b
  | some (.poison r) => .poison r
  | some (.marker _) => .marker
  | _ => .missing

/-- The poison that an entry gives a fragment set: its own, or that of a marker (06 R186 row 6, 09 R268). -/
def entryPoison (q : Queue) (x : Option QSlot) : Option Poison :=
  match x with
  | some (.poison r) => some r
  | some (.marker _) => some (markerPoison q.ref)
  | _ => none

/-- The first poison of n entries of the one FIFO of a queue. -/
def firstPoison (q : Queue) (n : Nat) : Option Poison := (List.range n).findSome? (fun j => entryPoison q ((q.fifo 0).slots[j]?))

/-- A pop of n entries raises the poison r: it is the head's, or the first of entries that have all arrived (log 49, DEDUCED). -/
def raisesNow (q : Queue) (n : Nat) (r : Poison) : Prop :=
  firstPoison q n = some r ∧ (entryPoison q ((q.fifo 0).slots[0]?) = some r ∨
    ∀ j, j < n → ∃ x, (q.fifo 0).slots[j]? = some x ∧ found (some x) ≠ .missing)

/-- A barred lane takes ILLOP at the word of the pass (09 R270). -/
def takesBarred (s : State) (th : ThreadKey) : State :=
  match s.pass with
  | some p => s.takeTrap th (illop p.pc p.word)
  | none => s

/-- A FIFO whose pops have run ahead of its pushes: the next entry goes to what has claimed its position (06 R186 rows 3, 7). -/
abbrev runAhead (q : Queue) (f : Fifo) (n : Nat) : Prop :=
  f.closed = false ∧ f.dead = false ∧ f.nextIn < f.nextOut ∧ n ≤ q.limit

/-- Word `i` pushes entry x from each acting lane into its FIFO: with room the entry stands behind the others; a full FIFO
blocks the thread; a closed one raises ILLOP whatever the registers hold; the lane of an exited thread discards; an entry whose
position a pop has claimed goes to that pop's destination (06 R186 rows 7 and 17, 08 R231, 09 R266, R270). -/
def Pushes (i : Instr) (q : BitVec 3) (name : Nat) (m : List QMode) (d : Bool → List QDir) (rs : List Nat)
    (x : State → ThreadKey → QSlot) (close : Bool) : Prop :=
  LanesInTurnIf i q (hasQueue name m d (some true)) rs [] (queueMeets name (fun _ _ q f => takesMore q f 1))
    (onQueue name (fun s th q n _ =>
      let t := pushed s th.gk.team q n [x s th]
      (if close then t.modFifo th.gk.team q.ref n (fun f => { f with closed := true }) else t).modThread th Thread.advance)) ∧
  LanesLeaveIf i q (hasQueue name m d (some true)) rs []
    (queueMeets name (fun _ _ q f => f.closed = false ∧ f.dead = false ∧ q.limit < f.nextIn - f.nextOut + 1))
    (onQueue name (fun s th q n _ => s.block th (.push q.ref n 1))) ∧
  LanesLeaveIf i q (hasQueue name m d (some true)) [] [] (queueMeets name (fun _ _ _ f => f.closed = true)) takesBarred ∧
  LanesInTurnIf i q (hasQueue name m d (some true)) rs [] (queueMeets name (fun _ _ q f => runAhead q f 1))
    (onQueue name (fun s th q n f =>
      let t := (s.modFifo th.gk.team q.ref n (fun f => { f with nextIn := f.nextIn + 1 })).arriveBound th.gk.team q n f.nextIn (x s th)
      (if close then t.modFifo th.gk.team q.ref n (fun f => { f with closed := true }) else t).modThread th Thread.advance)) ∧
  LanesInTurnIf i q (hasQueue name m d (some true)) rs [] (queueMeets name (fun _ _ _ f => f.closed = false ∧ f.dead = true))
    (onQueue name (fun s th q n _ =>
      (if close then s.modFifo th.gk.team q.ref n (fun f => { f with closed := true }) else s).modThread th Thread.advance))

/-- The registers of a fragment set of n blocks (09 R268). -/
def setRegs (d : BitVec 5) (n : Nat) : List Nat := (List.range ((n + 1) / 2)).map (d.toNat + ·)

/-- The set of a pop of n entries; it keeps which threads are in their handlers (14 R392). -/
def poppedSet (p : Pass) (g : Group) (q : Queue) (d : BitVec 5) (n : Nat) : SetBind where
  base := d.toNat
  uin := lanes.filter (fun t => (g.thr t).uin)
  cut := []
  n := n
  q := q.ref
  pos := (q.fifo 0).nextOut
  slots := (List.range n).map (fun j => found ((q.fifo 0).slots[j]?))
  origin := p.pc

end Sys2Proof.Claims

open Sys2Proof.Claims

/-- QPOP takes, claims, blocks or traps as the state of its head entry says. QPOP of a lane queue that the group consumes,
in its direction, with its destination full. A value at the head is removed, the destination is in TRANSIT with it (x0
discards it), and the marker predicate is false. Without a marker predicate, an absent head is claimed and the
destination waits for it; with one, the thread is blocked. With one, a marker at the head is removed, the predicate is
true and the register is not written. A poison entry at the head is removed and raises POISON at the pop, to resume
behind it, with the destination waiting for its replay; so does, without a marker predicate, a marker, as a poison of
class MARKER; into x0 either is discarded, with its replay-table entry, and a marker predicate stays as it was (log
68, DESIGN CHOICE). A pop by the access slice from a back queue that finds no entry counts as a loss of decoupling.
(R186, R188, R191, R213, R267) -/
def Obligations.PopsFollowTheRows : Prop :=
  ∀ f : OpQd,
    let M := hasQueue f.qn.toNat [.lane] popsFrom (some false)
    let meets (C : ThreadKey → Fifo → Prop) := queueMeets f.qn.toNat (fun s th _ fi => s.fullNow th [f.d.toNat] ∧ C th fi)
    LanesInTurnIf (.qpop f) f.g M [f.d.toNat] [f.d.toNat] (meets (fun _ fi => ∃ v, fi.head = some (.data (.lane v))))
      (onQueue f.qn.toNat (fun s th q i fi =>
        let v : Dword := match fi.head with | some (.data (.lane v)) => v.setWidth 64 | _ => 0
        (popped s th q i).modThread th (fun t => ((bound th f.d (.transit v) t).setPred f.mp false).advance))) ∧
    (f.mp = 7#3 → LanesInTurnIf (.qpop f) f.g M [f.d.toNat] [f.d.toNat] (meets (fun _ fi => fi.head = none))
      (onQueue f.qn.toNat (fun s th q i fi =>
        (popped (s.countLod th q) th q i).modThread th (fun t =>
          (bound th f.d (.wait (.pos q.ref i fi.nextOut) (s.thread th).pc) t).advance)))) ∧
    (f.mp ≠ 7#3 → LanesLeaveIf (.qpop f) f.g M [f.d.toNat] [f.d.toNat] (meets (fun _ fi => fi.head = none))
      (onQueue f.qn.toNat (fun s th q i _ => (s.countLod th q).block th (.popEmpty q.ref i)))) ∧
    (f.mp ≠ 7#3 → LanesInTurnIf (.qpop f) f.g M [f.d.toNat] [f.d.toNat] (meets (fun _ fi => ∃ c, fi.head = some (.marker c)))
      (onQueue f.qn.toNat (fun s th q i _ => (popped s th q i).modThread th (fun t => (t.setPred f.mp true).advance)))) ∧
    (∀ r : Poison, LanesLeaveIf (.qpop f) f.g M [f.d.toNat] [f.d.toNat]
      (meets (fun th fi => ¬discards th f.d ∧ fi.head = some (.poison r)))
      (onQueue f.qn.toNat (fun s th q i _ =>
        let pc := (s.thread th).pc
        ((popped s th q i).modThread th (bound th f.d (.wait (.replay r.rtag (some q.ref)) pc))).takeTrap th
          (.ofPoison r th.gk.exe pc pc (pc + 4))))) ∧
    (f.mp = 7#3 → LanesLeaveIf (.qpop f) f.g M [f.d.toNat] [f.d.toNat]
      (meets (fun th fi => ¬discards th f.d ∧ ∃ c, fi.head = some (.marker c)))
      (onQueue f.qn.toNat (fun s th q i _ =>
        let pc := (s.thread th).pc
        ((popped s th q i).modThread th (bound th f.d (.wait (.replay 0xFFFF (some q.ref)) pc))).takeTrap th
          (.ofPoison (markerPoison q.ref) th.gk.exe pc pc (pc + 4))))) ∧
    (∀ r : Poison, LanesInTurnIf (.qpop f) f.g M [f.d.toNat] [f.d.toNat]
      (meets (fun th fi => discards th f.d ∧ fi.head = some (.poison r)))
      (onQueue f.qn.toNat (fun s th q i _ => (freed (popped s th q i) th.gk.team r).modThread th Thread.advance))) ∧
    (f.mp = 7#3 → LanesInTurnIf (.qpop f) f.g M [f.d.toNat] [f.d.toNat]
      (meets (fun th fi => discards th f.d ∧ ∃ c, fi.head = some (.marker c)))
      (onQueue f.qn.toNat (fun s th q i _ => (popped s th q i).modThread th Thread.advance)))

/-- QPUSH, QMARK and QCLOSE put their entry behind the others, block at a full FIFO and raise ILLOP after a close. QPUSH
puts the low 32 bits of d into the lane of its thread; QMARK puts a marker, QCLOSE a close marker, after which the
FIFO is closed, into the lane, or into the one FIFO of a block or (QCLOSE) outlier queue. Each, with a group that
produces the queue in its direction and its registers full: with room the entry stands behind the others and the lane
advances; in a FIFO at its limit the thread is blocked; after a close the lane takes ILLOP, whatever its register
holds; into the lane of a thread that has exited the entry is discarded. Where the pops have run ahead of the pushes,
the entry goes to what has claimed its position: a register that waits for it is in TRANSIT with a value, and POISONED
by a marker; an STQ has its data. (R186, R231, R266, R267, R270) -/
def Obligations.PushesAndMarkersJoinTheirQueue : Prop :=
  (∀ f : OpQs, Pushes (.qpush f) f.g f.qn.toNat [.lane] pushesTo [f.d.toNat] (fun s th =>
    .data (.lane (BitVec.ofNat 32 ((s.thread th).rn th.gk.exe f.d.toNat)))) false) ∧
  (∀ f : OpQ, Pushes (.qmark f) f.g f.qn.toNat [.lane, .block] (fun _ => [.ae, .ea]) [] (fun _ _ => .marker false) false) ∧
  (∀ f : OpQ, Pushes (.qclose f) f.g f.qn.toNat [.lane, .block, .outlier] (fun _ => [.ae, .ea]) [] (fun _ _ => .marker true) true) ∧
  ∀ (s : State) (gk : GroupKey) (g : Group) (q : Queue) (n pos : Nat), s.group gk = some g →
    (∀ (t c : Nat) (x : RegCell) (o : Pc), (∀ e ∈ q.stqs, ¬(e.fifo = n ∧ e.pos = pos)) → t < g.threads.length →
      (g.thr t).regs[c]? = some x → x.st = .wait (.pos q.ref n pos) o →
      (∀ v, ∃ h, (s.arriveBound gk.team q n pos (.data (.lane v))).group gk = some h ∧
        (h.thr t).regs[c]? = some { x with st := .transit (v.setWidth 64) }) ∧
      ∀ m, ∃ h, (s.arriveBound gk.team q n pos (.marker m)).group gk = some h ∧
        (h.thr t).regs[c]? = some { x with st := .poisoned (markerPoison q.ref) o }) ∧
    ∀ (d : QData), (∃ e ∈ q.stqs, e.fifo = n ∧ e.pos = pos) →
      s.arriveBound gk.team q n pos (.data d) = s.modQueue gk.team q.ref (fun x => { x with
        stqs := x.stqs.map (fun e => if e.fifo = n ∧ e.pos = pos then { e with data := some d } else e) })

/-- QPEEK, QTEST, QSTAT and QCFG give the results of their table. QPEEK writes d and true where the head of the lane is a
value, else false and nothing more. QTEST writes whether a head is present, whether it is a marker, or whether a push
would not block. QSTAT writes the entries present, the positions free below the limit, the close and the limit. QCFG
sets the limit to a value of 1 to the declared depth, and raises BADARG otherwise. No entry is removed. (R271) -/
def Obligations.QueueTestsAndLimitsFollowTheTable : Prop :=
  (∀ f : OpQd, LanesInTurnIf (.qpeek f) f.g (hasQueue f.qn.toNat [.lane] (fun _ => [.ae, .ea, .es]) (some false)) [f.d.toNat]
    [f.d.toNat] (queueMeets f.qn.toNat (fun s th _ _ => s.fullNow th [f.d.toNat]))
    (onQueue f.qn.toNat (fun s th _ _ fi =>
      match fi.head with
      | some (.data (.lane v)) => s.modThread th (fun t => ((t.wn th.gk.exe f.d.toNat v.toNat false).setPred f.mp true).advance)
      | _ => s.modThread th (fun t => (t.setPred f.mp false).advance)))) ∧
  (∀ f : OpQtest, LanesInTurnIf (.qtest f) f.g
    (hasQueue f.qn.toNat [.lane, .block, .outlier] (fun _ => [.ae, .ea, .es]) none) [] [] (queueMeets f.qn.toNat (fun _ _ _ _ => True))
    (onQueue f.qn.toNat (fun s th q _ fi =>
      let holds : Bool := match f.a.toNat with
        | 0 => fi.head.isSome
        | 1 => (match fi.head with | some (.marker _) => true | _ => false)
        | _ => fi.dead || decide (fi.nextIn - fi.nextOut + 1 ≤ q.limit)
      s.modThread th (fun t => (t.setPred f.mp holds).advance)))) ∧
  (∀ f : OpQs, LanesInTurnIf (.qstat f) f.g
    (hasQueue f.qn.toNat [.lane, .block, .outlier] (fun _ => [.ae, .ea, .es]) none) [f.d.toNat] [f.d.toNat]
    (queueMeets f.qn.toNat (fun _ _ _ _ => True))
    (onQueue f.qn.toNat (fun s th q _ fi => s.modThread th (fun t => (t.wn th.gk.exe f.d.toNat
      ((fi.slots.filter (fun x => x != .claimed)).length + (q.limit - (fi.nextIn - fi.nextOut)) * 2 ^ 8
        + b2n (fi.closed || q.fifos.all (fun x => x.closed)) * 2 ^ 15 + q.limit * 2 ^ 16) false).advance)))) ∧
  (∀ f : OpQa, LanesInTurnIf (.qcfg f) f.g
    (hasQueue f.qn.toNat [.lane, .block, .outlier] (fun _ => [.ae, .ea, .es]) none) [f.a.toNat] []
    (queueMeets f.qn.toNat (fun s th q _ => let v := (s.thread th).rn th.gk.exe f.a.toNat; v ≠ 0 ∧ v ≤ q.depth))
    (onQueue f.qn.toNat (fun s th q _ _ =>
      (s.modQueue th.gk.team q.ref (fun x => { x with limit := (s.thread th).rn th.gk.exe f.a.toNat })).modThread th
        Thread.advance))) ∧
  ∀ f : OpQa, LanesLeaveIf (.qcfg f) f.g
    (hasQueue f.qn.toNat [.lane, .block, .outlier] (fun _ => [.ae, .ea, .es]) none) [f.a.toNat] []
    (queueMeets f.qn.toNat (fun s th q _ => let v := (s.thread th).rn th.gk.exe f.a.toNat; v = 0 ∨ q.depth < v))
    (takes .badarg)

/-- QPOPB, QPUSHB and QPOPO move whole blocks and lists between queues and register sets. With all 32 threads and the
registers full: QPOPB of n entries takes n positions of the queue, binds the set, and makes the predicate false in
every thread; where the head is poison, or all n have arrived and one is, it raises POISON on the 32 threads with the
first such record, to resume behind it, and the set waits for its replay (when the trap is taken is log 49, DEDUCED);
a marker counts as poison of class MARKER. In the marker form an absent head blocks the 32 threads, and a marker at
the head is removed alone and the predicate is true. QPUSHB puts the n blocks of the set behind the others, as one
step, where n positions are free below the limit; it blocks the 32 threads where they are not, and raises BADARG where
n exceeds the limit. QPOPO takes the head: a list is in transit to the register, an absent head is claimed and the
register waits for it, a poison entry or a marker raises POISON on the 32 threads and the register waits for its
replay. (R185, R186, R268, R269) -/
def Obligations.BlockAndListTransfersMoveWholeSets : Prop :=
  (∀ (f : OpQpopb) (q : Queue), GroupWise (.qpopb f) 15#4
    (fun s p g => queueOf s p.gk f.qn.toNat [.block] [.ae] (some false) q ∧ allFull g (setRegs f.d (f.a.toNat + 1)) ∧
      (∀ r, ¬raisesNow q (f.a.toNat + 1) r) ∧ (f.mp = 7#3 ∨ (q.fifo 0).head ≠ none))
    (fun s p g => (s.modFifo p.gk.team q.ref 0 (fun fi =>
        { fi with nextOut := fi.nextOut + (f.a.toNat + 1), slots := fi.slots.drop (f.a.toNat + 1) })).modGroup p.gk
      (fun h => { h with sets := h.sets ++ [poppedSet p g q f.d (f.a.toNat + 1)] }.mapThreads (fun _ th => th.setPred f.mp false)))) ∧
  (∀ (f : OpQpopb) (q : Queue) (r : Poison), CollStops (.qpopb f) 15#4
    (fun s p g => queueOf s p.gk f.qn.toNat [.block] [.ae] (some false) q ∧ allFull g (setRegs f.d (f.a.toNat + 1)) ∧
      raisesNow q (f.a.toNat + 1) r ∧ (f.mp = 7#3 ∨ ((q.fifo 0).head ≠ none ∧ ∀ c, (q.fifo 0).head ≠ some (.marker c))))
    (fun s p g => trapSel ((((s.modFifo p.gk.team q.ref 0 (fun fi =>
        { fi with nextOut := fi.nextOut + (f.a.toNat + 1), slots := fi.slots.drop (f.a.toNat + 1) })).modGroup p.gk
      (fun h => { h with sets := h.sets ++ [poppedSet p g q f.d (f.a.toNat + 1)] })).raisePoison ⟨p.gk, 0⟩ f.d.toNat)) p
      (.ofPoison r true p.pc p.pc (p.pc + 4)))) ∧
  (∀ (f : OpQpopb) (q : Queue), f.mp ≠ 7#3 → CollStops (.qpopb f) 15#4
    (fun s p g => queueOf s p.gk f.qn.toNat [.block] [.ae] (some false) q ∧ allFull g (setRegs f.d (f.a.toNat + 1)) ∧
      (q.fifo 0).head = none) (fun s p _ => blockedSel s p (.popEmpty q.ref 0))) ∧
  (∀ (f : OpQpushb) (q : Queue),
    let M (s : State) (p : Pass) (g : Group) : Prop := queueOf s p.gk f.qn.toNat [.block] [.ea, .es] (some true) q ∧
      q.closed = false ∧ allFull g (setRegs f.d (f.a.toNat + 1))
    CollStops (.qpushb f) 15#4 (fun s p g => M s p g ∧ q.limit < f.a.toNat + 1)
      (fun s p _ => trapSel s p (.at .badarg p.pc)) ∧
    CollStops (.qpushb f) 15#4 (fun s p g => M s p g ∧ f.a.toNat + 1 ≤ q.limit ∧ (q.fifo 0).dead = false ∧
        q.limit < (q.fifo 0).nextIn - (q.fifo 0).nextOut + (f.a.toNat + 1))
      (fun s p _ => blockedSel s p (.push q.ref 0 (f.a.toNat + 1)))) ∧
  (∀ (f : OpQpopo) (q : Queue) (r : Poison), CollStops (.qpopo f) 15#4
    (fun s p g => b2n f.d < g.ols.length ∧ queueOf s p.gk f.qn.toNat [.outlier] [.ae] (some false) q ∧
      (g.ol (b2n f.d)).st = .full ∧ entryPoison q (q.fifo 0).head = some r)
    (fun s p _ => trapSel ((s.modFifo p.gk.team q.ref 0 Fifo.take).modGroup p.gk (fun h => { h with
      ols := updAt h.ols (b2n f.d) (fun o => { o with st := .wait (.replay r.rtag (some q.ref)) p.pc }) })) p
      (.ofPoison r true p.pc p.pc (p.pc + 4)))) ∧
  (∀ (f : OpQpopb) (q : Queue), f.mp ≠ 7#3 → GroupWise (.qpopb f) 15#4
    (fun s p g => queueOf s p.gk f.qn.toNat [.block] [.ae] (some false) q ∧ allFull g (setRegs f.d (f.a.toNat + 1)) ∧
      ∃ c, (q.fifo 0).head = some (.marker c))
    (fun s p _ => (s.modFifo p.gk.team q.ref 0 Fifo.take).modGroup p.gk (fun h =>
      h.mapThreads (fun _ th => th.setPred f.mp true)))) ∧
  (∀ (f : OpQpushb) (q : Queue) (tm : Team), GroupWise (.qpushb f) 15#4
    (fun s p g => queueOf s p.gk f.qn.toNat [.block] [.ea, .es] (some true) q ∧ q.closed = false ∧ q.fifos ≠ [] ∧
      s.team p.gk.team = some tm ∧ tm.queue q.ref = some q ∧
      allFull g (setRegs f.d (f.a.toNat + 1)) ∧ f.a.toNat + 1 ≤ q.limit ∧ takesMore q (q.fifo 0) (f.a.toNat + 1))
    (fun s p g => pushed s p.gk.team q 0 ((List.range (f.a.toNat + 1)).map (fun j =>
      .data (.block (g.blockAt lanes (f.d.toNat + j / 2) (j % 2))))))) ∧
  ∀ (f : OpQpopo) (q : Queue), GroupWise (.qpopo f) 15#4
    (fun s p g => b2n f.d < g.ols.length ∧ queueOf s p.gk f.qn.toNat [.outlier] [.ae] (some false) q ∧
      (g.ol (b2n f.d)).st = .full ∧ ((q.fifo 0).head = none ∨ ∃ n es, (q.fifo 0).head = some (.data (.olist n es))))
    (fun s p _ => (s.modFifo p.gk.team q.ref 0 Fifo.take).modGroup p.gk (fun h => { h with
      ols := updAt h.ols (b2n f.d) (fun o => { o with st := match (q.fifo 0).head with
        | some (.data (.olist n es)) => .transit n es
        | _ => .wait (.pos q.ref 0 (q.fifo 0).nextOut) p.pc }) }))

namespace Sys2Proof.Claims

/-! ### Memory -/

/-- The request of a word of the MEM format: x[a] + sext(OFF12) × size (09 R257). -/
def memReq (f : OpMem) (s : State) (th : ThreadKey) : MemReq where
  spad := false
  va := ((s.thread th).val false f.a + f.off.signExtend (width false) <<< (f.w.toNat % 4)).toNat
  n := 2 ^ (f.w.toNat % 4)

/-- The request of a word of the MA format: x[a], in scratchpad with SP = 1 (09 R258). -/
def maReq (f : OpMa) (s : State) (th : ThreadKey) : MemReq where
  spad := f.sp
  va := (s.thread th).rn false f.a.toNat
  n := 2 ^ (f.w.toNat % 4)

/-- The request of an atomic: 32 or 64 bits at x[a]. -/
def atReq (a : BitVec 5) (sp dw : Bool) (s : State) (th : ThreadKey) : MemReq where
  spad := sp
  va := (s.thread th).rn false a.toNat
  n := if dw then 8 else 4

/-- Does a load read at the home slice: under an acquire of cluster scope or wider, by a tainted address, as a consume of
such a scope, as a GATH.r (05 R150, R163, 09 R259)? -/
def atHome (k : LoadKind) (taint : Bool) : Bool :=
  k.home || taint || (k.ord.acq && k.ord.wide) || (match k.consume with | some sc => decide (3 ≤ sc) | none => false)

/-- A wide acquire discards the L1 first (05 R163). -/
def acquired (o : Order) (s : State) (th : ThreadKey) : State :=
  if o.acq && o.wide then s.clearL1 (s.coreOf th.gk.team) else s

/-- A load can read: its address is good and translated, nothing of its thread is to be performed there first, there is a
collector entry to join or to take (03 R102, R103), and its data is good. -/
def loads (k : LoadKind) (taint : Bool) (r : MemReq) (base : Nat) (s : State) (th : ThreadKey) : Prop :=
  r.bad = false ∧ ∃ l t bs u, s.locate th .read r = .ok l t ∧ t.loadWaits th k.ord.acq l = false ∧
    t.collFull th base (!k.ord.acq) l.spad (l.addr / 64) = false ∧
    (acquired k.ord t th).loadFrom th (atHome k taint) l = (.ok bs, u)

/-- A lane has loaded: its destination waits for the value that the collector holds, and it stands at the next word. -/
def loaded (k : LoadKind) (taint : Bool) (r : MemReq) (base : Nat) (s : State) (th : ThreadKey) : State :=
  match s.locate th .read r with
  | .ok l t =>
    match (acquired k.ord t th).loadFrom th (atHome k taint) l with
    | (.ok bs, u) =>
      (u.bindLoad th base k.d (loadValue k.w (leNat bs)) (taint || k.consume.isSome) (!k.ord.acq) l.spad
        (l.addr / 64)).modThread th Thread.advance
    | (_, u) => u
  | _ => s

/-- Load word i reads the request of each acting lane. -/
def Loads (i : Instr) (q : BitVec 3) (a d : BitVec 5) (w : BitVec 3) (ord : Order) (consume : Option Nat)
    (req : State → ThreadKey → MemReq) : Prop :=
  let k : LoadKind := { d := d.toNat, w := w, ord := ord, consume := consume }
  let taint (s : State) (th : ThreadKey) : Bool := (s.thread th).taintOf false a.toNat
  RoomInTurn i q (fun _ _ => True) [a.toNat, d.toNat] [d.toNat] (fun _ _ => True)
    (fun base s th => loads k (taint s th) (req s th) base s th) (fun base s th => loaded k (taint s th) (req s th) base s th) true

/-- Store word i puts the value of d among the stores that wait to be ordered: with those of the same word to the same line,
or in a collector entry of its own. -/
def Stores (i : Instr) (q : BitVec 3) (a d : BitVec 5) (rel : Bool) (req : State → ThreadKey → MemReq) : Prop :=
  AccessInTurn i q (fun _ _ => True) [a.toNat, d.toNat] [] .write req (fun _ _ _ => false)
    (fun base s th => (req s th).bad = false ∧ ∃ l t, s.locate th .write (req s th) = .ok l t ∧
      (l.spad = true ∨ (t.joinsStore th base l).isSome = true ∨ t.collRoom th.gk.team 1 = true))
    (fun base s th => match s.locate th .write (req s th) with
      | .ok l t => (t.bindStore th base l (req s th).va ((s.thread th).rn false d.toNat) rel).modThread th Thread.advance
      | _ => s)

/-- What an atomic reads: the scratchpad's bytes, or the line's at its home slice. -/
def atomicRead (s : State) (th : ThreadKey) (l : Loc) : DataOut × State :=
  if l.spad then (if s.spadEcc th.gk.team l.addr l.n then (.ecc, s) else (.ok (s.spadRead th.gk.team l.addr l.n), s))
  else s.homeRead (s.coreOf th.gk.team) (s.ctxOf th.gk.team.job) l

/-- A lane has performed its atomic: the new value written, the predicate of CAS set, the old value on its way to d. -/
def performed (r : MemReq) (o : Order) (new : Nat → Option Nat) (pred : Option (BitVec 3)) (d : Option (BitVec 5)) (taint : Bool)
    (base : Nat) (s : State) (th : ThreadKey) : State :=
  match s.locate th .atomic r with
  | .ok l t =>
    match atomicRead t th l with
    | (.ok bs, u) =>
      let u := match new (leNat bs) with | some v => u.atomWrite th.gk.team l v | none => u
      let u := acquired o u th
      let u := match pred with | some p => u.modThread th (fun x => x.setPred p (new (leNat bs)).isSome) | none => u
      let u := match d with | some d => u.bindLoad th base d.toNat (leNat bs) taint false l.spad (l.addr / 64) | none => u
      u.modThread th Thread.advance
    | (_, u) => u
  | _ => s

/-- Atomic word i of registers rs does one read-modify-write for each acting lane. -/
def Atomic (i : Instr) (rs ds : List Nat) (o : Order) (req : State → ThreadKey → MemReq) (new : Thread → Nat → Option Nat)
    (pred : Option (BitVec 3)) (d : Option (BitVec 5)) (taint : Thread → Bool) : Prop :=
  AccessInTurn i 7#3 (fun _ _ => True) rs ds .atomic req (fun s th => s.atomWaits th o)
    (fun base s th => (req s th).bad = false ∧ ∃ l t bs u, s.locate th .atomic (req s th) = .ok l t ∧
      t.collFull th base false l.spad (l.addr / 64) = false ∧ atomicRead t th l = (.ok bs, u))
    (fun base s th => performed (req s th) o (new (s.thread th)) pred d (taint (s.thread th)) base s th)

/-- Words of ATOM and its minima and maxima. -/
def AtomWord (c : OpAtom → Instr) (fn : BitVec 3 → Nat → Nat → Nat → Nat) : Prop :=
  ∀ f : OpAtom, let w := if f.dw then 64 else 32
    Atomic (c f) [f.a.toNat, f.b.toNat, f.d.toNat] [f.d.toNat] (.ofOs f.os) (atReq f.a f.sp f.dw)
      (fun t old => some (fn f.op w old (t.rn false f.b.toNat % 2 ^ w))) none (some f.d)
      (fun t => t.taintOf false f.a.toNat || t.taintOf false f.b.toNat)

/-- Words of RED and its minima and maxima. -/
def RedWord (c : OpRed → Instr) (fn : BitVec 3 → Nat → Nat → Nat → Nat) : Prop :=
  ∀ f : OpRed, let w := if f.dw then 64 else 32
    Atomic (c f) [f.a.toNat, f.b.toNat] [] (.ofOs f.os) (atReq f.a f.sp f.dw)
      (fun t old => some (fn f.op w old (t.rn false f.b.toNat % 2 ^ w))) none none (fun _ => false)

/-- No byte is undefined to a partition (03 R94). In shared mode none is. -/
def Definite (s : State) : Prop := ∀ part line, s.foreign part line = 0

/-- The copy of a line that slices hold, if any, is the one that a reader of a partition and slot finds, and it is what HBM has
still to take or what HBM holds. -/
def ownCopy (s : State) (part : Option Nat) (slot line : Nat) : Prop :=
  ∀ x ∈ s.l2, x.line = line → x.slot = slot ∧ x.slice = s.homeSlice part (64 * line) ∧
    (x.dirty = true ∨ x.bad = false ∧ s.hbmRead slot (64 * line) 64 = .ok (blockBytes x.data))

/-- A lane of a store within a line. -/
def inLine (line : Nat) (l : StLane) : Prop := 64 * line ≤ l.addr ∧ l.addr + l.n ≤ 64 * line + 64

end Sys2Proof.Claims

open Sys2Proof.Claims

/-- LD, LD of the MA format and LDC read their location and bind the value to their destination. Issued by an access group
with the registers full, and each acting lane's address in its turn aligned, in range, translated without a walk, with
nothing of its thread still to be performed there that the load must wait for, with a collector entry to join or to
take, and with good data: each lane that acts, in increasing index, reads its location, at the home slice where it
acquires at cluster scope or wider, consumes so or has a tainted address; its destination waits for the value, zero-
or sign-extended (LDC's with its taint), and it stands at the next word. The addresses are x[a] + sext(OFF12) × size,
and x[a]. (R30, R102, R103, R257, R258, R259, R260) -/
def Obligations.LoadsReadTheirLocation : Prop :=
  (∀ f : OpMem, Loads (.ld f) 7#3 f.a f.d f.w .plain none (memReq f)) ∧
  (∀ f : OpMa, Loads (.ldMa f) f.g f.a f.d f.w (.ofOs f.os) none (maReq f)) ∧
  (∀ f : OpMa, Loads (.ldc f) f.g f.a f.d f.w .plain (some (f.os.toNat - 5)) (maReq f)) ∧
  ∀ (w : BitVec 3) (v : Nat), v < 2 ^ (8 * 2 ^ (w.toNat % 4)) →
    loadValue w v = if w.getLsbD 2 then ((BitVec.ofNat (8 * 2 ^ (w.toNat % 4)) v).signExtend 64).toNat else v

/-- What a load finds is its thread's own store, else the scratchpad or the line at its home slice, and its return fills
the register. A load that lies within the latest overlapping store of its own thread, to that space and key slot,
takes its bytes. With no such store, a scratchpad load takes the team's bytes, and ECC in an uncorrectable line; a
load at the home slice, in shared mode, takes the bytes of the slice's copy of the line under its slot, ECC where that
is uncorrectable, and with no copy there the bytes of memory from a good line of the slot's epoch, KEYMIS from a line
of another, ECC from an uncorrectable one. When a collector entry returns, every register that waits for it is full
with its value and taint. (R41, R84, R92, R93, R142, R156, R260, R398) -/
def Obligations.LoadsFindTheirValue : Prop :=
  (∀ (s : State) (th : ThreadKey) (b : Bool) (l : Loc) (x : StLane),
    (s.storesAt th (s.nowId th.gk.team) l.spad l.slot l.addr l.n).getLast? = some x → x.addr ≤ l.addr → l.addr + l.n ≤ x.addr + x.n →
    s.loadFrom th b l = (.ok (leBytes l.n (x.val / 2 ^ (8 * (l.addr - x.addr)) % 2 ^ (8 * l.n))), s)) ∧
  (∀ (s : State) (th : ThreadKey) (b : Bool) (l : Loc) (tm : Team), s.storesAt th (s.nowId th.gk.team) l.spad l.slot l.addr l.n = [] →
    l.spad = true → s.team th.gk.team = some tm →
    s.loadFrom th b l = (if tm.spadEcc l.addr l.n then .ecc else .ok (cellRead tm.spad l.addr l.n), s)) ∧
  (∀ (s : State) (th : ThreadKey) (l : Loc), s.storesAt th (s.nowId th.gk.team) l.spad l.slot l.addr l.n = [] →
    l.spad = false → s.shared = true →
    (s.loadFrom th true l).1 =
      match s.l2.find? (fun x => x.line == l.addr / 64 && x.slot == l.slot &&
          x.slice == foldPa l.addr) with
      | some x => if x.bad then .ecc else .ok (((blockBytes x.data).drop (l.addr % 64)).take l.n)
      | none =>
        if s.bad.contains (l.addr / 64) then .ecc
        else if s.lineTag (l.addr / 64) = (l.slot, (s.slot l.slot).epoch) then .ok (cellRead s.mem l.addr l.n) else .keymis) ∧
  ∀ (s : State) (tk : TeamKey) (id : Nat) (tm : Team) (r : LineReq), s.team tk = some tm →
    tm.reqs.find? (fun x => x.id == id) = some r → ∃ t, exec (.loadReturn tk id) s = .next t ∧
      ∀ d ∈ r.lanes, (∀ e ∈ r.lanes, e.thr = d.thr → e.cell = d.cell → e = d) →
        ∀ c, (s.thread d.thr).regs[d.cell]? = some c → c.st = .load id →
          (t.thread d.thr).regs[d.cell]? = some { val := d.val, st := .full, taint := d.taint }

/-- ST and the store of the MA format are checked and translated at issue and wait to be ordered. Issued by an access
group with the registers full, and each acting lane's address aligned, in range, and translated without a walk, with a
collector entry to join or to take in its turn: each lane's value is among the team's stores that wait to be ordered,
with its address, as a release where the word says so, and the lane stands at the next word. Memory is as before.
(R257, R258, R259) -/
def Obligations.StoresWaitToBeOrdered : Prop :=
  (∀ f : OpMem, Stores (.st f) 7#3 f.a f.d false (memReq f)) ∧
  (∀ f : OpMa, Stores (.stMa f) f.g f.a f.d (decide (f.os ≠ 0#4)) (maReq f)) ∧
  ∀ (s : State) (th : ThreadKey) (base : Nat) (l : Loc) (va v : Nat) (rel : Bool),
    (s.bindStore th base l va v rel).mem = s.mem ∧
    ∀ t, ((s.bindStore th base l va v rel).team t).map (fun m => m.spad) = (s.team t).map (fun m => m.spad)

/-- A store that is ordered writes its lanes' bytes and no other byte. A store that may be ordered, whose key slot is
still LOADED under its epoch, whose lanes lie in one line of device memory, and whose partition finds no byte
undefined by R94: when it is ordered, the partition reads under the slot, at every address of the line whose bytes it
could read, the byte of the highest lane that covers it, else the byte before; where the line read KEYMIS, the
uncovered bytes read 0; an uncorrectable line reads correctly once the lanes cover it, and stays uncorrectable
otherwise; every other line reads as before. (Both for lines whose copies in the slices are those that the partition
finds under the slot, not yet taken by HBM or equal to it.) A store whose slot has been destroyed or loaded anew is
discarded: memory and the slices are as before. A store to the scratchpad leaves every byte as before but the lanes'
own. The store waits no longer. Memory, slices and scratchpad are in the canonical form that every step keeps. (R37,
R40, R41, R95, R175, R259, R446) -/
def Obligations.OrderedStoresWriteTheirBytes : Prop :=
  (∀ (s : State) (tk : TeamKey) (id line q : Nat) (tm : Team) (r : PendStore), s.memoryWf → Definite s →
    s.team tk = some tm → tm.stores.find? (fun x => x.id == id) = some r → s.storeReady r = true → r.spad = false →
    r.lanes ≠ [] → (∀ l ∈ r.lanes, inLine line l ∧ l.n ≠ 0) → s.keyHolds r.phys = true →
    s.partOf (s.ctxOf tk.job) = some q → ownCopy s (some q) r.phys.slot line →
    ∃ t, exec (.storeOrdered tk id) s = .next t ∧ (∀ u, t.team tk = some u → ∀ x ∈ u.stores, x.id ≠ id) ∧
      let before (a : Nat) := s.readLine (some q) r.phys.slot a 1
      let after (a : Nat) := t.readLine (some q) r.phys.slot a 1
      (∀ a, a / 64 = line → ∀ v, before a = .ok [v] → after a = .ok [(r.byteAt a).getD v]) ∧
      (∀ a, a / 64 = line → before a = .keymis → after a = .ok [(r.byteAt a).getD 0]) ∧
      (∀ a, a / 64 = line → before a = .ecc → (∀ b, b / 64 = line → (r.byteAt b).isSome = true) →
        after a = .ok [(r.byteAt a).getD 0]) ∧
      (∀ a, a / 64 = line → before a = .ecc → (∃ b, b / 64 = line ∧ r.byteAt b = none) → after a = .ecc) ∧
      ∀ a, a / 64 ≠ line → ownCopy s (some q) r.phys.slot (a / 64) → after a = before a) ∧
  (∀ (s : State) (tk : TeamKey) (id : Nat) (tm : Team) (r : PendStore), s.team tk = some tm →
    tm.stores.find? (fun x => x.id == id) = some r → s.storeReady r = true → r.spad = false → s.keyHolds r.phys = false →
    ∃ t, exec (.storeOrdered tk id) s = .next t ∧ (∀ u, t.team tk = some u → ∀ x ∈ u.stores, x.id ≠ id) ∧
      t.mem = s.mem ∧ t.tags = s.tags ∧ t.bad = s.bad ∧ t.l2 = s.l2 ∧ t.wpart = s.wpart) ∧
  ∀ (s : State) (tk : TeamKey) (id : Nat) (tm : Team) (r : PendStore), s.team tk = some tm →
    tm.stores.find? (fun x => x.id == id) = some r → s.storeReady r = true → r.spad = true →
    Memory.wf tm.spad = true →
    ∃ t u, exec (.storeOrdered tk id) s = .next t ∧ t.team tk = some u ∧ (∀ x ∈ u.stores, x.id ≠ id) ∧ t.mem = s.mem ∧
      ∀ a, cellGet u.spad a = (r.byteAt a).getD (cellGet tm.spad a)

/-- ATOM, RED, their minima and maxima, and CAS perform one read-modify-write a lane and return the old value. Issued by
an access group with the registers full, and each acting lane's address aligned, in range, translated without a walk,
with nothing of its thread still to be performed that the atomic must wait for, and in its turn a collector entry to
take, or one of the same word on its line to join (log 66, DEDUCED): each lane that acts, in increasing index, reads
its location, writes the new value of the table (CAS only where the old value equals d), and, but for RED, has the old
value on its way to d, tainted where a source was; CAS writes its predicate; the lane stands at the next word. (R261,
R262) -/
def Obligations.AtomicsAreOneReadModifyWrite : Prop :=
  AtomWord .atom atomNew ∧ AtomWord .atomMinmax minmaxNew ∧ RedWord .red atomNew ∧ RedWord .redMinmax minmaxNew ∧
  (∀ f : OpCas, let w := if f.dw then 64 else 32
    Atomic (.cas f) [f.a.toNat, f.b.toNat, f.d.toNat, f.d.toNat] [f.d.toNat] (.ofOs f.os) (atReq f.a f.sp f.dw)
      (fun t old => if old = t.rn false f.d.toNat % 2 ^ w then some (t.rn false f.b.toNat % 2 ^ w) else none)
      (some f.ps) (some f.d)
      (fun t => t.taintOf false f.a.toNat || t.taintOf false f.b.toNat || t.taintOf false f.d.toNat)) ∧
  ∀ (w : Nat) (a b : BitVec w), w = 32 ∨ w = 64 →
    atomNew 0#3 w a.toNat b.toNat = (a + b).toNat ∧ atomNew 1#3 w a.toNat b.toNat = (a &&& b).toNat ∧
    atomNew 2#3 w a.toNat b.toNat = (a ||| b).toNat ∧ atomNew 3#3 w a.toNat b.toNat = (a ^^^ b).toNat ∧
    atomNew 4#3 w a.toNat b.toNat = b.toNat ∧ atomNew 5#3 w a.toNat b.toNat = (a + 1).toNat ∧
    atomNew 6#3 w a.toNat b.toNat = (a - 1).toNat ∧
    minmaxNew 0#3 w a.toNat b.toNat = (if a.sle b then a else b).toNat ∧ minmaxNew 1#3 w a.toNat b.toNat = min a.toNat b.toNat ∧
    minmaxNew 2#3 w a.toNat b.toNat = (if b.sle a then a else b).toNat ∧ minmaxNew 3#3 w a.toNat b.toNat = max a.toNat b.toNat

namespace Sys2Proof.Claims

/-! ### Engines -/

/-- x[r] of a lane. -/
def xreg (s : State) (th : ThreadKey) (r : Nat) : Nat := (s.thread th).rn false r

/-- A lane moves past the word. -/
def onward (s : State) (th : ThreadKey) : State := s.modThread th Thread.advance

/-- The alignment of an entry in memory (09 R272). -/
def entryAlign (q : Queue) : Nat := if q.mode = .lane then 4 else 64

/-- What a load into a queue reads (09 R272). -/
def entryKind (q : Queue) : FillKind := match q.mode with | .lane => .lane | .block => .block | .outlier => .olist

/-- The lines that a load into a queue reads, each with a collector entry (03 R102, 09 R272). -/
def entryLines : FillKind → Nat
  | .lane => 1
  | .block => 1
  | .olist => 5

/-- Load word i claims the next position of its queue for the entry at x[d] (09 R272); what it reads for a FIFO whose consumer has
exited is dropped (08 R231), and where the pops have run ahead the entry goes to what has claimed its position (06 R186). -/
def Fills (i : Instr) (f : OpQs) (modes : List QMode) : Prop :=
  let M := hasQueue f.qn.toNat modes (fun _ => [.ae]) (some true)
  let meets (C : State → ThreadKey → Queue → Fifo → Prop) := queueMeets f.qn.toNat (fun s th q fi =>
    C s th q fi ∧ fi.closed = false ∧ xreg s th f.d.toNat % entryAlign q = 0)
  LanesInTurnIf i f.g M [f.d.toNat] [] (meets (fun s th q fi => (fi.dead = true ∨ takesMore q fi 1 ∨ runAhead q fi 1) ∧
      s.collRoom th.gk.team (entryLines (entryKind q)) = true))
    (onQueue f.qn.toNat (fun s th q n fi =>
      let k := th.gk.team
      let u := s.modFifo k q.ref n (fun x => if x.dead then x else
        { x with nextIn := x.nextIn + 1, slots := if x.nextOut ≤ x.nextIn then x.slots ++ [.claimed] else x.slots })
      let t := (u.takeId k).2.sketch th (s.thread th).pc 5 (entryLines (entryKind q))
      onward (t.modTeam k (fun tm => { tm with fills := tm.fills ++
        [{ id := u.nowId k, thr := th, pc := (t.thread th).pc, t0 := t.cycle, kind := entryKind q, va := xreg s th f.d.toNat
           tgt := if fi.dead then .drop else .pos q.ref n fi.nextIn }] })) th)) ∧
  LanesLeaveIf i f.g M [f.d.toNat] []
    (meets (fun _ _ q fi => fi.dead = false ∧ q.limit < fi.nextIn - fi.nextOut + 1))
    (onQueue f.qn.toNat (fun s th q n _ => s.block th (.push q.ref n 1))) ∧
  LanesLeaveIf i f.g M [] [] (queueMeets f.qn.toNat (fun _ _ _ fi => fi.closed = true)) takesBarred ∧
  LanesLeaveIf i f.g M [f.d.toNat] []
    (queueMeets f.qn.toNat (fun s th q fi => fi.closed = false ∧ xreg s th f.d.toNat % entryAlign q ≠ 0)) (takes .badarg)

/-- The request of an STQ (09 R273). -/
def stqReq (f : OpQs) (s : State) (th : ThreadKey) : MemReq where
  spad := false
  va := xreg s th f.d.toNat
  n := ((s.queueFor th.gk f.qn.toNat).map (fun q => if q.mode = .block then 64 else 4)).getD 4

/-- The request of a GATH.r: x[a] + x[b] × s modulo 2^64 (09 R276). -/
def gathReq (f : OpGathr) (s : State) (th : ThreadKey) : MemReq where
  spad := false
  va := (xreg s th f.a.toNat + xreg s th f.b.toNat * (if f.dw then 8 else 4)) % 2 ^ 64
  n := if f.dw then 8 else 4

/-- The replay-table entry that x[a] names. -/
def replayOf (f : OpA) (s : State) (th : ThreadKey) : Option Replay :=
  (s.team th.gk.team).bind (fun tm => tm.replay.getD (xreg s th f.a.toNat % 2 ^ 16) none)

/-- The addresses of the lines that a repeated access reads. -/
def replayLines (r : Replay) : List Nat := (linePieces r.va r.kind.bytes).map (fun p => p.1)

/-- The access of an entry is repeated for a target, under the translations of the state in which it issues (09 R282). -/
def again (s u : State) (th : ThreadKey) (r : Replay) (tgt : FillTgt) : State :=
  onward (u.modTeam th.gk.team (fun tm => { tm with fills := tm.fills ++
    [{ id := s.nowId th.gk.team, thr := th, pc := (s.thread th).pc, t0 := s.cycle, kind := r.kind, va := r.va, tgt := tgt
       xlat := (replayLines r).map (fun va =>
         match s.translateNow (s.readsWho th) .read va with | .ok q => .ok q | .error e => .fault e)
       q := r.q }] })) th

/-- A lane has issued a REPLAY (09 R282). -/
def replayed (f : OpA) (s : State) (th : ThreadKey) : State :=
  let k := th.gk.team
  let rtag := xreg s th f.a.toNat % 2 ^ 16
  let id := s.nowId k
  match s.team k, replayOf f s th with
  | some tm, some r =>
    let u := (((s.sketch th (s.thread th).pc 5 (entryLines r.kind)).forget (.reads th)).takeId k).2.freeReplay k rtag
    let v := { u with groups := u.groups.map (fun g => if g.key.team = k then g.rebind rtag id else g) }
    if u.groups.any (fun g => decide (g.key.team = k) && g.rebind rtag id != g) then again s v th r .bound
    else match tm.poisonAt rtag with
      | some (q, i, pos) =>
        again s (v.modFifo k q i (fun fi => { fi with slots := updAt fi.slots (pos - fi.nextOut) (fun _ => .claimed) })) th r
          (.pos q i pos)
      | none => again s v th r .drop
  | _, _ => s

/-- What a GATH.r is beside its address: it reads at the home slice and extends with zeros (09 R276). -/
def gathKind (f : OpGathr) : LoadKind :=
  { d := f.d.toNat, w := if f.dw then 3#3 else 2#3, ord := .plain, consume := none, home := true }

/-- The index list and word of GATH and SCAT are good (09 R275, R255). -/
abbrev indexGood (idx v : Nat) : Prop :=
  bits v 63 37 = 0 ∧ 1 ≤ bits v 16 0 ∧ bits v 16 0 ≤ 65536 ∧ idx % (if bit v 17 then 8 else 4) = 0

/-- A cost has been granted to a lane's group, or is none (15 R403). -/
def granted (s : State) (th : ThreadKey) (cost : Nat) : Prop := cost = 0 ∨ ∃ u, s.energy th.gk cost = some u

/-- The state with a granted cost taken. -/
def charged (s : State) (th : ThreadKey) (cost : Nat) : State :=
  if cost = 0 then s else match s.energy th.gk cost with | some u => u.sketch th (u.thread th).pc 6 cost | none => s

/-- The fault-record offset of x[d] (09 R278). -/
def recordOf (d : Nat) : Option Nat := if bit d 63 then none else some (bits d 17 0)

/-- The operands x[d] and x[a] of a copy command have zero reserved bits, an aligned fault record and an aligned
phaser (09 R278, R255). -/
abbrev copyGood (d a : Nat) : Prop :=
  bits d 62 18 = 0 ∧ (bit d 63 = false → d % 16 = 0) ∧ bits a 63 54 = 0 ∧ bits a 53 36 % 32 = 0

/-- The layout record that x[a] names. -/
def layoutAt (f : OpRG) (s : State) (th : ThreadKey) : Layout :=
  Layout.ofBlock (blockOf (s.spadRead th.gk.team (bits (xreg s th f.a.toNat) 17 0) 64))

/-- The energy of a box (03 R109). -/
def boxCost (l : Layout) : Nat := if 4096 < l.bytes then (l.bytes + 4095) / 4096 else 0

/-- Word `c f` has BCOPY or BSTORE accepted (09 R278, R279). -/
def Boxes (c : OpRG → Instr) (store : Bool) : Prop :=
  ∀ f : OpRG, LanesInTurn (c f) f.g [f.a.toNat, f.b.toNat, f.b.toNat + 1, f.b.toNat + 2, f.d.toNat] []
    (fun s th =>
      let a := xreg s th f.a.toNat
      copyGood (xreg s th f.d.toNat) a ∧ bits a 17 0 % 64 = 0 ∧ bits (xreg s th (f.b.toNat + 2)) 63 32 = 0 ∧
      s.storesAt th (s.nowId th.gk.team) true 0 (bits a 17 0) 64 = [] ∧ s.spadEcc th.gk.team (bits a 17 0) 64 = false ∧
      (layoutAt f s th).invalid (bits a 35 18) = false ∧ granted s th (boxCost (layoutAt f s th)))
    (fun s th =>
      let d := xreg s th f.d.toNat
      let a := xreg s th f.a.toNat
      let b (n : Nat) := xreg s th (f.b.toNat + n)
      let c (v lo : Nat) := sextN 32 (bits v (lo + 31) lo)
      onward ((charged s th (boxCost (layoutAt f s th))).accept th 0 (recordOf d)
        (.copy store (layoutAt f s th) [c (b 0) 0, c (b 0) 32, c (b 1) 0, c (b 1) 32, c (b 2) 0] (bits a 35 18) (bits a 53 36)
          ([d, a, b 0, b 1, b 2].map (BitVec.ofNat 64)) 0 {})) th)

/-- The request word of RGET and RPUT is good on a channel (09 R284, R255). -/
abbrev requestGood (v : Nat) (put : Bool) (c : Channel) : Prop :=
  bits v 63 56 = 0 ∧ (put = true → bit v 14 = false) ∧
  (bit v 14 = false → bits v 37 20 + (bits v 13 6 + 1) ≤ 2 ^ 18) ∧
  (c.uv = true → bits v 55 38 % 16 = 0 ∧ bits v 55 38 + 16 * c.slots.length ≤ 2 ^ 18) ∧
  (c.uv = false → bit v 14 = false → bits v 55 38 % 32 = 0)

/-- The channel a lane's request word names. -/
def chanOf (f : OpRG) (s : State) (th : ThreadKey) : Option Channel :=
  (s.team th.gk.team).bind (fun tm => tm.chan (bits (xreg s th f.b.toNat) 5 0))

/-- The lowest FREE slot of a channel. -/
def freeSlot (c : Channel) : Option Nat := c.slots.findIdx? (fun x => x.st == SlotSt.free)

/-- A lane has reserved a slot with its request, which leaves at once unless an earlier access of the thread is still to be performed (05
R153); one to an invalid peer fails at once (15 R411). -/
def requested (f : OpRG) (put : Bool) (s : State) (th : ThreadKey) : State :=
  let k := th.gk.team
  let v := xreg s th f.b.toNat
  match chanOf f s th with
  | none => s
  | some c =>
    let n := (freeSlot c).getD 0
    let r : RemReq := {
      id := s.nowId k, thr := th, pc := (s.thread th).pc, t0 := s.cycle, put := put, raddr := xreg s th f.a.toNat
      len := bits v 13 6 + 1, spo := bits v 37 20, ph := bits v 55 38
      dk := if bit v 14 then s.blockDst th.gk (bits v 19 15) else none
      uv := c.uv, peer := c.peer, src := if put then s.spadRead k (bits v 37 20) (bits v 13 6 + 1) else []
      left := if s.busyBefore th (s.nowId k) then none else some s.cycle }
    let u := (s.takeId k).2.modSlot k (bits v 5 0) n (fun _ => { st := .reserved, req := some r, data := [], todo := [] })
    let u := if (((s.peers (s.ctxOf k.job))[c.peer]?).map (fun e => e.valid)).getD false then u else u.landSlot k (bits v 5 0) n .failed []
    u.modThread th (fun t =>
      (t.wn false f.d.toNat n ((s.thread th).tainted false [f.a, f.b])).advance)

/-- Word `c f` sends a request (09 R285). -/
def Requests (c : OpRG → Instr) (put : Bool) : Prop :=
  ∀ f : OpRG, LanesInTurn (c f) f.g [f.a.toNat, f.b.toNat, f.d.toNat] [f.d.toNat]
    (fun s th =>
      let v := xreg s th f.b.toNat
      s.fullNow th [f.d.toNat] ∧ (put = false → bit v 14 = true → s.blockDst th.gk (bits v 19 15) ≠ none) ∧
      (put = true → s.storesAt th (s.nowId th.gk.team) true 0 (bits v 37 20) (bits v 13 6 + 1) = [] ∧
        s.spadEcc th.gk.team (bits v 37 20) (bits v 13 6 + 1) = false) ∧
      ∃ ch n, chanOf f s th = some ch ∧ requestGood v put ch ∧ freeSlot ch = some n)
    (requested f put)

end Sys2Proof.Claims

open Sys2Proof.Claims

/-- LDQ and LDBQ claim the next position at issue, and STQ binds its address to the next entry. LDQ on a lane or outlier
queue and LDBQ on a block queue, of direction ae, produced by the group, with a collector entry free for each line
that the lane reads (five for an outlier list): the lane claims the next position of its FIFO, the load is in flight
for that position, and the lane advances; into the lane of an exited thread what is read will be dropped; where the
pops have run ahead, the position is one that a pop has claimed. A FIFO at its limit blocks the thread, a closed one
raises ILLOP whatever the register holds, a misaligned address BADARG. STQ on a lane or block queue of direction es
that the group consumes: the address is translated and checked, the head position is taken, and the STQ holds that
position with its data where the entry is present. (R102, R103, R186, R231, R255, R270, R272, R273) -/
def Obligations.QueueLoadsAndStoresClaimPositions : Prop :=
  (∀ f, Fills (.ldq f) f [.lane, .outlier]) ∧ (∀ f, Fills (.ldbq f) f [.block]) ∧
  ∀ f : OpQs, AccessInTurn (.stq f) f.g (hasQueue f.qn.toNat [.lane, .block] (fun _ => [.es]) (some false)) [f.d.toNat] [] .write
    (stqReq f) (fun _ _ _ => false)
    (fun _ s th => (stqReq f s th).bad = false ∧
      ∃ l t, s.locate th .write (stqReq f s th) = .ok l t ∧ (t.queueFor th.gk f.qn.toNat).isSome)
    (fun _ s th => match s.locate th .write (stqReq f s th) with
      | .ok l t => onQueue f.qn.toNat (fun t th q n fi =>
          let k := th.gk.team
          onward ((((t.takeId k).2.modFifo k q.ref n (fun x =>
              { x with nextOut := x.nextOut + 1, slots := x.slots.drop 1 }))).modQueue k q.ref (fun q => { q with
            stqs := q.stqs ++ [{ id := t.nowId k, thr := th, fifo := n, pos := fi.nextOut, va := xreg t th f.d.toNat
                                 phys := l.phys
                                 data := match fi.head with | some (.data d) => some d | _ => none }] })) th) t th
      | _ => s)

/-- REPLAY repeats the recorded access, GATH.r loads x[a] + x[b] × s, PREF brings a line into the L1 or L2. REPLAY of a
16-bit tag that names a replay-table entry in use, with its lines translated by the caches or by walks that have been
waited for, and a collector entry for each: the entry is freed, every destination bound to the tag, and (log 53,
DEDUCED) every POISONED one that nothing has read yet, waits for the repeated access, or else the position that holds
the poison entry is claimed and not filled, or else the data will be dropped; the access with its recorded operands,
under the translations of that moment, is in flight, and the lane advances. A tag of no entry raises ILLOP; nonzero
upper bits raise BADARG. GATH.r, with an empty gather/scatter stream, and a collector entry and a reachable location
for each lane in its turn, reads its element at the home slice and binds d to the zero-extended value. PREF brings the
line of x[d] into the L1 where the translation is at hand, a is 0 and CL is 00, else into the L2; a miss asks for the
walk; what fails is dropped; the lane advances. (R22, R28, R92, R188, R255, R276, R277, R282) -/
def Obligations.ReplaysAndGathersReadOneLocation : Prop :=
  (∀ f : OpA,
    LanesInTurn (.replay f) f.g [f.a.toNat] [] (fun s th => xreg s th f.a.toNat < 2 ^ 16 ∧
        ∃ r, replayOf f s th = some r ∧ s.collRoom th.gk.team (entryLines r.kind) = true ∧
          ∀ va ∈ replayLines r, s.translate (s.readsWho th) .read va ≠ .miss)
      (replayed f) ∧
    LanesLeave (.replay f) f.g [f.a.toNat] [] (fun s th => replayOf f s th = none) takesIllop ∧
    LanesLeave (.replay f) f.g [f.a.toNat] [] (fun s th => 2 ^ 16 ≤ xreg s th f.a.toNat ∧ (replayOf f s th).isSome) (takes .badarg)) ∧
  (∀ f : OpGathr, let taint (s : State) (th : ThreadKey) : Bool := (s.thread th).tainted false [f.a, f.b]
    RoomInTurn (.gathR f) f.g (fun _ _ => True) [f.a.toNat, f.b.toNat, f.d.toNat] [f.d.toNat] (fun _ _ => True)
      (fun base s th => (∀ tm, s.team th.gk.team = some tm → tm.gsq = []) ∧
        loads (gathKind f) (taint s th) (gathReq f s th) base s th)
      (fun base s th => loaded (gathKind f) (taint s th) (gathReq f s th) base s th) true) ∧
  ∀ f : OpPref, LanesInTurn (.pref f) f.g [f.d.toNat] [] (fun _ _ => True) (fun s th =>
    let core := s.coreOf th.gk.team
    let ctx := s.ctxOf th.gk.team.job
    let va := xreg s th f.d.toNat
    let w : Who := { core := core, ctx := ctx, priv := s.priv th.gk.team.job, ask := some (.prefetch core) }
    match s.translate w .read va with
    | .ok p =>
      let u := s.learn core ctx va
      onward (if f.l2 = false ∧ bits p.pte 7 6 = 0 then (u.l1Read core ctx { spad := false, addr := p.pa, n := 1, phys := p }).2
        else u.l2Touch (u.pol ctx p.pte) p.slot p.pa) th
    | .miss => onward (s.requestWalk ctx va (.prefetch core)) th
    | .fault _ => onward s th)

/-- BCOPY, BSTORE, MCAST, QSTREAM, GATH and SCAT are accepted at the end of their stream. With operands that R255, R274,
R275 and R278 to R280 admit, the energy of a copy over 4 KiB or of an MCAST granted, and the layout record readable
and valid: the command stands at the end of the copy stream (BCOPY, BSTORE, MCAST, QSTREAM) or of the gather/scatter
stream (GATH, SCAT) with its operands as they are, its fault record named or none, and the thread's pending future
where it is a copy command; no register is written, and the lane advances. The alignment of a record's place counts
only where a record is wanted (log 54, DEDUCED). A QSTREAM or GATH of a lane that has been closed raises ILLOP (GATH:
the thread's own lane, log 69, DESIGN CHOICE). (R105, R109, R152, R255, R270, R274, R275, R278, R279, R280) -/
def Obligations.EngineCommandsJoinTheirStream : Prop :=
  Boxes .bcopy false ∧ Boxes .bstore true ∧
  (∀ f : OpRG, LanesInTurn (.mcast f) f.g [f.a.toNat, f.b.toNat, f.d.toNat] []
    (fun s th =>
      let a := xreg s th f.a.toNat
      let b := xreg s th f.b.toNat
      copyGood (xreg s th f.d.toNat) a ∧ bits a 17 0 % 64 = 0 ∧ bits a 35 18 % 64 = 0 ∧ bits b 63 44 = 0 ∧ bits b 31 28 = 0 ∧
      bits b 15 13 = 0 ∧ bits b 12 0 % 64 = 0 ∧ 64 ≤ bits b 12 0 ∧ bits b 12 0 ≤ 4096 ∧ bits b 43 32 ≠ 0 ∧ bits b 27 16 ≠ 0 ∧
      bits b 43 32 < 2 ^ (s.cluster th.gk.team).2.1 ∧ bits b 27 16 < 2 ^ (s.cluster th.gk.team).1 ∧
      bits a 17 0 + bits b 12 0 ≤ 2 ^ 18 ∧ bits a 35 18 + bits b 12 0 ≤ 2 ^ 18 ∧ granted s th ((bits b 12 0 + 1023) / 1024))
    (fun s th =>
      let d := xreg s th f.d.toNat
      let a := xreg s th f.a.toNat
      let b := xreg s th f.b.toNat
      onward ((charged s th ((bits b 12 0 + 1023) / 1024)).accept th 0 (recordOf d)
        (.mcast (bits a 17 0) (bits a 35 18) (bits a 53 36) (bits b 43 32) (bits b 27 16) (bits b 12 0) 0
          ([d, a, b, 0, 0].map (BitVec.ofNat 64)))) th)) ∧
  (∀ f : OpQda, LanesInTurnIf (.qstream f) f.g (hasQueue f.qn.toNat [.block] (fun _ => [.ae]) (some true)) [f.a.toNat, f.d.toNat] []
    (queueMeets f.qn.toNat (fun s th _ fi =>
      let off := xreg s th f.d.toNat
      let n := xreg s th f.a.toNat
      fi.closed = false ∧ off % 64 = 0 ∧ 1 ≤ n ∧ n ≤ 4096 ∧ off + 64 * n ≤ 2 ^ 18))
    (onQueue f.qn.toNat (fun s th q _ _ =>
      let off := xreg s th f.d.toNat
      let n := xreg s th f.a.toNat
      onward (s.accept th 0 none (.qstream q.ref off n 0 ([off, n, f.qn.toNat].map (BitVec.ofNat 64)))) th))) ∧
  (∀ f : OpQda, LanesInTurnIf (.gath f) f.g (hasQueue f.qn.toNat [.lane, .block] (fun _ => [.ae]) (some true))
    [f.a.toNat, f.a.toNat + 1, f.d.toNat] []
    (queueMeets f.qn.toNat (fun s th _ fi =>
      fi.closed = false ∧ indexGood (xreg s th f.a.toNat) (xreg s th (f.a.toNat + 1))))
    (onQueue f.qn.toNat (fun s th q _ _ =>
      let v := xreg s th (f.a.toNat + 1)
      onward (s.accept th 1 none (.gath q.ref (xreg s th f.d.toNat) (xreg s th f.a.toNat) (bits v 16 0) (bit v 17)
        (q.mode == .block) 0 [])) th))) ∧
  (∀ f : OpQda, LanesLeaveIf (.qstream f) f.g (hasQueue f.qn.toNat [.block] (fun _ => [.ae]) (some true)) [] []
    (queueMeets f.qn.toNat (fun _ _ _ fi => fi.closed = true)) takesBarred) ∧
  (∀ f : OpQda, LanesLeaveIf (.gath f) f.g (hasQueue f.qn.toNat [.lane, .block] (fun _ => [.ae]) (some true)) [] []
    (queueMeets f.qn.toNat (fun _ _ _ fi => fi.closed = true)) takesBarred) ∧
  ∀ f : OpScat, LanesInTurn (.scat f) f.g [f.a.toNat, f.a.toNat + 1, f.a.toNat + 2, f.d.toNat] []
    (fun s th =>
      let v := xreg s th (f.a.toNat + 1)
      indexGood (xreg s th f.a.toNat) v ∧ (bit v 18 = false → bits v 36 19 % 16 = 0) ∧
      xreg s th (f.a.toNat + 2) % (if f.blk then 64 else 4) = 0)
    (fun s th =>
      let v := xreg s th (f.a.toNat + 1)
      onward (s.accept th 1 (if bit v 18 then none else some (bits v 36 19))
        (.scat (xreg s th f.d.toNat) (xreg s th f.a.toNat) (bits v 16 0) (xreg s th (f.a.toNat + 2)) (bit v 17) f.blk 0 [])) th)

/-- RCH sets its channel; RGET and RPUT reserve the lowest FREE slot with their request. RCH on a declared channel, with
zero reserved bits and a peer of the context's table, writes the former peer and UV to d and sets both. RGET and RPUT,
with a request word that R284 and R255 admit on the channel and a FREE slot: the lowest FREE slot is RESERVED with the
remote address, length, offsets, queue and the channel's peer and UV as they are, an RPUT with its source bytes; the
request leaves at once, or where an access of the thread before it is not performed, later; a request to an invalid
peer is FAILED at once; d receives the slot number. (R115, R153, R255, R283, R284, R285, R411) -/
def Obligations.RemoteWordsReserveTheirSlot : Prop :=
  (∀ f : OpRG, LanesInTurn (.rch f) f.g [f.a.toNat, f.b.toNat, f.d.toNat] [f.d.toNat]
    (fun s th =>
      let a := xreg s th f.a.toNat
      let b := xreg s th f.b.toNat
      a < 2 ^ 7 ∧ b < 2 ^ 16 ∧ b < (s.peers (s.ctxOf th.gk.team.job)).length ∧
      ∃ tm c, s.team th.gk.team = some tm ∧ tm.chan (a % 2 ^ 6) = some c)
    (fun s th =>
      let a := xreg s th f.a.toNat
      match (s.team th.gk.team).bind (fun tm => tm.chan (a % 2 ^ 6)) with
      | some c =>
        (s.modChan th.gk.team c.num (fun c => { c with peer := xreg s th f.b.toNat, uv := bit a 6 })).modThread th (fun t =>
          (t.wn false f.d.toNat (c.peer + (if c.uv then 2 ^ 16 else 0)) ((s.thread th).tainted false [f.a, f.b])).advance)
      | none => s)) ∧
  Requests .rget false ∧ Requests .rput true

namespace Sys2Proof.Claims

/-! ### Events of the engines -/

/-- Command c stands at the head of stream n of team k, does `kind`, and may make accesses: its team is resident, its energy
granted, and every earlier access of its thread performed (05 R152, R153). -/
def heads (s : State) (k : TeamKey) (n : Nat) (c : Cmd) (kind : CmdKind) : Prop :=
  s.headCmd k n = some c ∧ c.kind = kind ∧ s.resident c.thr.gk.team = true ∧ c.wait = none ∧ s.busyBefore c.thr c.id = false

/-- No address of a list needs a walk that has still to be made (01 R28). -/
abbrev walked (s : State) (w : Who) (vas : List Nat) : Prop := s.wantWalk w vas = none

/-- The pieces of a box that a copy has still to move: in granules not yet credited, at offsets not yet moved (03 R107). -/
def toMove (lay : Layout) (coord : List Int) (gmap : Nat) (p : CopyProg) : List Piece :=
  ((List.range lay.granules).flatMap (lay.pieces coord)).filter (fun x =>
    !bit gmap (x.off / 32) && p.moved.all (fun m => m.1 != x.off))

/-- The pieces that move with one: those of its 32-byte-aligned granule of the destination (05 R160). -/
def sameGranule (lay : Layout) (coord : List Int) (store : Bool) (box gmap : Nat) (p : CopyProg) (x : Piece) : List Piece :=
  (toMove lay coord gmap p).filter (fun y => y.unit store box == x.unit store box)

/-- The source lines of some pieces that the engine has not read yet. -/
def sources (p : CopyProg) (ps : List Piece) (store : Bool) (box : Nat) : List Nat :=
  ((ps.filterMap (fun x => x.va.map (fun va => if store then (box + x.off) / 64 * 64 else va / 64 * 64))).filter
    (fun a => p.lines.all (fun l => l.1 != a))).eraseDups

/-- A piece of a BCOPY lands: zeros or the fill outside the tensor, the data of its line inside, and free values with a
failure where the line could not be read (03 R107, 09 R281). -/
def landed (k : TeamKey) (box : Nat) (p : CopyProg) (s : State) (x : Piece) : State × Option CopyFail :=
  match x.va with
  | none => (s.spadWrite k (box + x.off) x.fill, none)
  | some va =>
    let lost (e : Option XKind) : State × Option CopyFail :=
      ((s.spadWrite k (box + x.off) (freeBytes s.fresh x.n)).bump,
       some { off := x.off, elem := x.elem, va := va, kind := e, spad := false })
    match p.line (va / 64 * 64) with
    | .data b => (s.spadWrite k (box + x.off) (((blockBytes b).drop (va % 64)).take x.n), none)
    | .fault e => lost (some e)
    | .ecc => lost none

/-- A piece of a BSTORE is written, or fails; none outside the tensor (09 R279, 02 R71). -/
def stored (w : Who) (box : Nat) (p : CopyProg) (s : State) (x : Piece) : State × Option CopyFail :=
  match x.va with
  | none => (s, none)
  | some va =>
    let src := (box + x.off) / 64 * 64
    let fail (e : XKind × Nat) : CopyFail := { off := x.off, elem := x.elem, va := e.2, kind := some e.1, spad := false }
    match p.line src with
    | .data b =>
      match s.writeVirt w va (((blockBytes b).drop ((box + x.off) % 64)).take x.n) with
      | (u, none) => (u, none)
      | (u, some e) => (u, some (fail e))
    | _ =>
      match s.engPoison w va with
      | (u, none) => (u, some { off := x.off, elem := x.elem, va := src, kind := none, spad := true })
      | (u, some e) => (u, some (fail e))

/-- The entries of the next chunk of a GATH or SCAT: up to the next multiple of 64 (03 R104). -/
def nextChunk (cnt next : Nat) : List Nat := (List.range (min (64 - next % 64) (cnt - next))).map (next + ·)

/-- The bytes of an index. -/
def indexBytes (wide : Bool) : Nat := if wide then 8 else 4

/-- The entries that a GATH or SCAT works on: those of the chunk that it has begun, or of its next one (03 R104). -/
def working (cnt next : Nat) (cur : List GsElem) : List GsElem := if cur = [] then (nextChunk cnt next).map (fun i => { i := i }) else cur

/-- What the read of n bytes within a line gives: a number, or its failure and line. -/
def numberAt (s : State) (w : Who) (va n : Nat) : GsRead :=
  match s.readVirt w va n with
  | .ok bs => .num (leNat bs)
  | .error e => .fail e.1 (e.2 / 64 * 64)

/-- An entry whose index line can be translated has its index read (09 R275). -/
def indexed (s : State) (w : Who) (idx wd : Nat) (e : GsElem) : GsElem :=
  let va := (idx + e.i * wd) % 2 ^ 64
  if e.ix = none ∧ s.translate w .read va ≠ .miss then { e with ix := some (numberAt s w va wd) } else e

/-- An entry of a SCAT whose index is known has its value read, where its line can be translated. -/
def valued (s : State) (w : Who) (val es : Nat) (e : GsElem) : GsElem :=
  let va := (val + es * e.i) % 2 ^ 64
  match e.ix with
  | some (.num _) => if e.val = none ∧ s.translate w .read va ≠ .miss then { e with val := some (numberAt s w va es) } else e
  | _ => e

/-- All that an entry of a SCAT reads has been read: its index has failed, or its value is known. -/
def readWhole (e : GsElem) : Prop := (∃ k l, e.ix = some (.fail k l)) ∨ ((∃ n, e.ix = some (.num n)) ∧ e.val ≠ none)

/-- The failure code and kind of a read that failed (09 R281). -/
def failed (e : Option XKind) : Nat × Nat := match e with | some x => (0, x.code) | none => (1, 0)

/-- What writing element i of a SCAT at an address leaves, and its failure: misaligned, not translated, an uncorrectable line; a
value read as uncorrectable is stored with its poison (09 R275, 02 R71). -/
def elementWritten (s : State) (w : Who) (i va es : Nat) (v : Option (List Byte)) : State × List GsFail :=
  let at_ (fc kd : Nat) : State × List GsFail := (s, [(3 * i + 2, va / 64 * 64, fc, kd)])
  if va % es ≠ 0 then at_ 4 0
  else match s.translateNow w .write va with
    | .error k => at_ 0 k.code
    | .ok q =>
      if s.lineBad w q then at_ 1 0
      else (match v with | some bs => (s.learn w.core w.ctx va).homeWrite w q bs | none => (s.engPoison w va).1, [])

/-- Element e of a SCAT, with a write of v at va still to come, writes next, or waits for the walk of its page; the elements behind it
go on, but for those of a destination of which one waits (03 R104). late: the destinations that wait. -/
def WritesNext (s : State) (w : Who) (base es : Nat) (blk : Bool) (late : List Nat) (e : GsElem) (rest : List GsElem)
    (fails : List GsFail) (va : Nat) (v : Option (List Byte)) : Prop :=
  let stays : Prop := va % es = 0 ∧ (s.translate w .write va = .miss ∨ ∃ a ∈ late, s.sameDest w va a = true)
  (stays →
    let r := (s.wantWalks w [va]).scatWrites w base es blk (va :: late) rest
    s.scatWrites w base es blk late (e :: rest) = (r.1, e :: r.2.1, r.2.2)) ∧
  (¬stays →
    let x := elementWritten s w e.i va es v
    let r := x.1.scatWrites w base es blk late rest
    s.scatWrites w base es blk late (e :: rest) = (r.1, { e with done := true } :: r.2.1, fails ++ x.2 ++ r.2.2))

/-- Line i of the head drain is l, not done, and the drain has read its tile. -/
abbrev drainLineAt (s : State) (k : TeamKey) (c : Cmd) (op : Nat) (d : DrainDesc) (ls : List DrainLine) (done : List Nat) (i : Nat)
    (l : DrainLine) : Prop :=
  ∃ gk tile dense seq, heads s k 2 c (.drain op gk tile d true ls dense done seq) ∧ ls[i]? = some l ∧ i ∉ done

/-- Parts of a drain are done, with the failure that they met. -/
def partsDone (k : TeamKey) (mates : List (Nat × DrainLine)) (fail : Option (Nat × Option XKind × Bool)) (s : State) : State :=
  mates.foldl (fun s x => s.drainDone k x.1 0 fail) s

/-- What a landing of a flit at a core comes to: none, delivered; a failure code (03 R113, R114, 09 R281). -/
def landingCode (s : State) (f : Flit) (k : TeamKey) (core : Nat) (dropped : Bool) : Option Nat :=
  if dropped then some 3
  else if f.bad then some 1
  else if ((s.team k).map (fun t => t.resident && !t.ended && t.core == core)).getD false then none
  else some 2

/-- A flit has reached a destination. -/
def arrived (s : State) (flit core : Nat) : State :=
  { s with flits := (s.flits.map (fun g : Flit =>
      if g.id = flit then { g with dests := g.dests.filter (fun d => d.1 != core) } else g)).filter (fun g : Flit => !g.dests.isEmpty) }

/-- A command leaves its stream, with its latency counted (05 R154, 16 R423). -/
def retired (s : State) (k : TeamKey) (n : Nat) (c : Cmd) : State :=
  let u := (s.modTeam k (fun t => t.setStream n ((t.stream n).filter (fun x => x.id != c.id)))).forget (.unit k c.id)
  u.completed (u.coreOf k) (n + 1) c.thr c.pc c.t0

end Sys2Proof.Claims

open Sys2Proof.Claims

/-- The events of the copy stream move a granule, an entry or a flit, and credit their phaser. For the command at the head
of the copy stream that may make accesses, with its translations at hand: a piece of a BCOPY lands with every piece
still to be moved of its 32-byte-aligned granule of the scratchpad, once the engine has read, whole, the source lines
that it had not read; each piece takes its data, the fill outside the tensor, or free values where its line failed; so
for a BSTORE and granules of memory, whose pieces that cover an uncorrectable line go as one transfer; the failures
are noted, and each granule of the box that is complete is credited, poisoned on a failure. A QSTREAM pushes its next
line, or a poison entry. An MCAST injects its next flit in a granted beat, unless its team is to be saved, due at each
destination 3 cycles and one for each hop later. A flit that lands writes its line at the destination's team, or notes
its failure there, and credits twice 32 bytes; a failure at a team that is not resident poisons the phaser of its
image and credits nothing. (The cycle in which a drop notice acts is the model's choice: log 59. That a line is read
once is log 58.) (R107, R108, R111, R112, R113, R114, R160, R161, R274, R279, R446) -/
def Obligations.CopyEngineMovesGranulesAndFlits : Prop :=
  (∀ s k off c lay coord box ph ops gmap p x, heads s k 0 c (.copy false lay coord box ph ops gmap p) →
    (toMove lay coord gmap p).find? (fun y => y.off == off) = some x →
    let ps := sameGranule lay coord false box gmap p x
    let as := sources p ps false box
    walked s (s.cmdWho c) as →
    let q : CopyProg := { p with lines := p.lines ++ as.map (fun a => (a, s.virtLine (s.cmdWho c) a)) }
    let u := as.foldl (fun s a => s.readDone (s.cmdWho c) a 64) (s.modCopy k (fun _ => q))
    let r := u.movePieces (landed k box q) ps
    exec (.copyGranuleLanding k off) s = .next (r.1.piecesDone k ps r.2)) ∧
  (∀ s k off c lay coord box ph ops gmap p x, heads s k 0 c (.copy true lay coord box ph ops gmap p) →
    (toMove lay coord gmap p).find? (fun y => y.off == off) = some x →
    let ps := sameGranule lay coord true box gmap p x
    walked s (s.cmdWho c) (ps.filterMap (fun y => y.va)) →
    let read (qs : List Piece) : CopyProg × State :=
      let q : CopyProg := { p with lines := p.lines ++ (sources p qs true box).map (fun a => (a, s.spadLine k a)) }
      (q, s.modCopy k (fun _ => q))
    (s.wholeStore k (s.cmdWho c) (toMove lay coord gmap p) ps box p = none →
      let r := (read ps).2.movePieces (stored (s.cmdWho c) box (read ps).1) ps
      exec (.bstoreGranuleWrite k off) s = .next (r.1.piecesDone k ps r.2)) ∧
    ∀ line mine bs, s.wholeStore k (s.cmdWho c) (toMove lay coord gmap p) ps box p = some (line, mine, bs) →
      exec (.bstoreGranuleWrite k off) s = .next (((read mine).2.writeVirt (s.cmdWho c) line bs).1.piecesDone k mine [])) ∧
  (∀ s k c q off n next ops tm qu, heads s k 0 c (.qstream q off n next ops) → s.team k = some tm → tm.queue q = some qu →
    next < n → (qu.fifo 0).room qu.limit 1 = true →
    let a := off + 64 * next
    let bad := s.spadEcc k a 64
    let u := s.modHead k 0 (fun c => { c with
      kind := .qstream q off n (next + 1) ops, fr := if bad then c.fr.note next a 1 0 true else c.fr })
    exec (.qstreamLinePush k) s = .next (u.push k qu 0
      (if bad then .poison { va := BitVec.ofNat 64 a, sp := true, rtag := 0xFFFF, kind := 0, cls := 1 }
       else .data (.block (blockOf (s.spadRead k a 64)))))) ∧
  (∀ s k c tm src dst ph rows cols n next ops, heads s k 0 c (.mcast src dst ph rows cols n next ops) → s.team k = some tm →
    s.leavingCore tm = false → 64 * next < n → tm.beats.getLsbD (s.cycle % 64) = true →
    ∃ path,
      let cl := s.cluster k
      let fl : Flit := {
        id := s.nextFlit, src := tm.core, tk := k, cmd := c.id
        data := blockOf (tm.spadRead (src + 64 * next) 64), bad := tm.spadEcc (src + 64 * next) 64
        dst := dst + 64 * next, ph := ph
        dests := (mcastCores cl.2.2 cl.1 cl.2.1 rows cols).map (fun d => (d, s.cycle + 3 + hops tm.core d, false))
        path := path }
      exec (.mcastFlitInject k) s = .next
        ((({ s with flits := s.flits ++ [fl], nextFlit := s.nextFlit + 1 }).modCore tm.core (fun c =>
            { c with latch := updAt c.latch 5 (· + 1) })).modHead k 0 (fun c =>
          { c with kind := .mcast src dst ph rows cols n (next + 1) ops }))) ∧
  (∀ (s : State) (flit core : Nat) (f : Flit) (due : Nat) (dropped : Bool), s.flits.find? (fun f => f.id == flit) = some f →
    f.dests.find? (fun d => d.1 == core) = some (core, due, dropped) → due ≤ s.cycle →
    let cl := s.cluster f.tk
    let ix := teamIx cl.2.2 cl.1 core
    let k : TeamKey := { f.tk with idx := ix }
    let code := landingCode s f k core dropped
    let u := arrived s flit core
    let v := match code with
      | none => u.spadWrite k f.dst (blockBytes f.data)
      | some e => u.noteLanding f e ix
    exec (.drumlineLanding flit core) s = .next
      (if code.isSome ∧ s.resident k = false then v.phPoison k f.ph
       else (v.phCredit k f.ph 32 code.isSome).phCredit k f.ph 32 code.isSome))

/-- The events of the gather/scatter and drain streams do the next part of their command; a command that is over is
performed. For the head of its stream that may make accesses: a GATH reads the indices of its chunk whose pages need
no walk, all those of one line in one moment; elements whose index is known claim their entries in increasing order
while there is room; a claimed element whose page needs no walk is read and fills its entry, as poison under a replay-
table entry, which it waits for; one whose index line failed is a poison entry without one. A SCAT reads indices and
values; once all of its chunk have been read it writes the elements in increasing order, with their failures; one
whose page needs a walk waits, and with it the later ones of its destination. A chunk whose entries are all done is
left. A drain, with its translations at hand, reads its tile once the MMAs on it have completed, and takes ARRAY where
the tile holds an uncorrectable error; the parts of a TDRAIN or TSTSP in one destination line are then written at
once, and a line of TDRAIN.ADD becomes, in one read-modify-write, the 16 FP32 sums of its words and the cells. A
command with every part done writes its fault record if it has one to write, resolves its future with the bytes
delivered, and leaves its stream. (R71, R101, R104, R154, R164, R275, R281, R325, R326, R328, R350, R398) -/
def Obligations.OtherEnginesAndCommandEndsDoTheirWork : Prop :=
  (∀ s k c q base idx cnt wide blk next cur, heads s k 1 c (.gath q base idx cnt wide blk next cur) →
    let wd := indexBytes wide
    let now := working cnt next cur
    let r := (s.indicesDone (s.cmdWho c) idx wd now).gathClaim c.thr.gk.team q blk (now.map (indexed s (s.cmdWho c) idx wd))
    let x := eachElem (fun s e => s.gathElem c q base blk e) r.1 r.2
    exec (.gatherChunk k) s = .next (x.1.modHead k 1 (fun c => { c with
      kind := if ∀ e ∈ x.2, e.done = true then .gath q base idx cnt wide blk (next + x.2.length) []
        else .gath q base idx cnt wide blk next x.2 }))) ∧
  (∀ (s : State) w idx wd e f, e.ix = none → f.ix = none →
    (idx + e.i * wd) % 2 ^ 64 / 64 = (idx + f.i * wd) % 2 ^ 64 / 64 →
    (indexed s w idx wd e).ix.isSome = (indexed s w idx wd f).ix.isSome) ∧
  (∀ (s : State) tk q blk e rest qu, (s.team tk).bind (fun t => t.queue q) = some qu → e.done = false → e.pos = none →
    let lane := if blk = true then 0 else e.i % 32
    let fi := qu.fifo lane
    (fi.dead = true → s.gathClaim tk q blk (e :: rest) = ((s.gathClaim tk q blk rest).1,
      { e with done := true } :: (s.gathClaim tk q blk rest).2)) ∧
    (fi.dead = false → (e.ix = none ∨ fi.room qu.limit 1 = false) → s.gathClaim tk q blk (e :: rest) = (s, e :: rest)) ∧
    (fi.dead = false → e.ix ≠ none → fi.room qu.limit 1 = true →
      let r := (s.claim tk qu lane).gathClaim tk q blk rest
      s.gathClaim tk q blk (e :: rest) = (r.1, { e with pos := some fi.nextIn } :: r.2))) ∧
  (∀ (s : State) c q base blk e pos, e.done = false → e.pos = some pos →
    let lane := if blk = true then 0 else e.i % 32
    (∀ kd line, e.ix = some (.fail kd line) → s.gathElem c q base blk e = (s.fillPos c.thr.gk.team q lane pos
      (.poison { va := BitVec.ofNat 64 line, sp := false, rtag := 0xFFFF, kind := (failed kd).2, cls := (failed kd).1 }),
      { e with done := true })) ∧
    ∀ n, e.ix = some (.num n) →
      let va := (base + n * (if blk = true then 64 else 4)) % 2 ^ 64
      let kind : FillKind := if blk = true then .block else .lane
      (s.translate (s.cmdWho c) .read va = .miss → (s.gathElem c q base blk e).2 = e) ∧
      (s.translate (s.cmdWho c) .read va ≠ .miss →
        let r := s.fillRead { id := c.id, thr := c.thr, pc := c.pc, t0 := c.t0, kind := kind, va := va, tgt := .drop }
        (∀ x u, r.2.nameReplay c.thr kind va (some q) r.1 = some (x, u) →
          s.gathElem c q base blk e = (u.fillPos c.thr.gk.team q lane pos x, { e with done := true })) ∧
        (r.2.nameReplay c.thr kind va (some q) r.1 = none → s.gathElem c q base blk e = (s, e)))) ∧
  (∀ s k c base idx cnt val wide blk next cur, heads s k 1 c (.scat base idx cnt val wide blk next cur) →
    let w := s.cmdWho c
    let wd := indexBytes wide
    let es := if blk = true then 64 else 4
    let c1 := (working cnt next cur).map (indexed s w idx wd)
    let c2 := c1.map (valued s w val es)
    let u := (s.indicesDone w idx wd (working cnt next cur)).valuesDone w val es c1
    let leaves (r : State × List GsElem × List GsFail) : State := r.1.modHead k 1 (fun c => { c with
      kind := if ∀ e ∈ r.2.1, e.done = true then .scat base idx cnt val wide blk (next + r.2.1.length) []
        else .scat base idx cnt val wide blk next r.2.1
      fr := r.2.2.foldl (fun f x => f.note x.1 x.2.1 x.2.2.1 x.2.2.2 false) c.fr })
    ((∀ e ∈ c2, readWhole e) → exec (.gatherChunk k) s = .next (leaves (u.scatWrites w base es blk [] c2))) ∧
    (¬(∀ e ∈ c2, readWhole e) → exec (.gatherChunk k) s = .next (leaves (u, c2, [])))) ∧
  (∀ (s : State) w base es blk late e rest n, w.ask ≠ none → e.done = false → e.ix = some (.num n) →
    let va := (base + n * (if blk = true then 64 else 4)) % 2 ^ 64
    (∀ x, e.val = some (.num x) → WritesNext s w base es blk late e rest [] va (some (leBytes es x))) ∧
    (∀ line, e.val = some (.fail none line) → WritesNext s w base es blk late e rest [(3 * e.i + 1, line, 1, 0)] va none) ∧
    ∀ k line, e.val = some (.fail (some k) line) →
      let r := s.scatWrites w base es blk late rest
      s.scatWrites w base es blk late (e :: rest) = (r.1, { e with done := true } :: r.2.1, (3 * e.i + 1, line, 0, k.code) :: r.2.2)) ∧
  (∀ s k c op gk tile d ls dense done seq g, heads s k 2 c (.drain op gk tile d false ls dense done seq) →
    s.group gk = some g → g.mmaOn tile = false → (g.tile tile).ecc = false →
    let r := drainLines op (g.tile tile) d
    s.drainRead k = s.modHead k 2 (fun c => { c with kind := .drain op gk tile d true r.1 r.2 [] 0 }) ∧
    ∀ i, exec (.drainLineWrite k i) s = exec (.drainLineWrite k i) (s.drainRead k) ∧
      exec (.tileUpdate k i) s = exec (.tileUpdate k i) (s.drainRead k)) ∧
  (∀ s k c op gk tile d ls dense done seq g, heads s k 2 c (.drain op gk tile d false ls dense done seq) →
    s.group gk = some g → g.mmaOn tile = false → (g.tile tile).ecc = true → s.drainRead k = s.arrayFault gk tile c.pc) ∧
  (∀ s k c op d ls done i l, op ≠ 1 → drainLineAt s k c op d ls done i l →
    let mates := drainMates ls done l.addr
    let parts := mergeLines (mates.map (fun x => x.2))
    (d.sp = true → exec (.drainLineWrite k i) s
      = .next (partsDone k mates none (parts.foldl (fun s p => s.spadWrite k p.addr p.data) s))) ∧
    (d.sp = false → walked s (s.cmdWho c) [l.addr] → exec (.drainLineWrite k i) s = .next (
      match s.translateNow (s.cmdWho c) .write (l.addr / 64 * 64) with
      | .error e => partsDone k mates (some (l.addr, some e, false)) s
      | .ok _ => partsDone k mates none (parts.foldl (fun s p => (s.writeVirt (s.cmdWho c) p.addr p.data).1) s)))) ∧
  (∀ (s : State) k c d ls done i l, drainLineAt s k c 1 d ls done i l → s.addMay c i = true →
    let seq := if i = 0 then s.nextFlit + 1 else 0
    let u := if i = 0 then { s with nextFlit := s.nextFlit + 1 } else s
    let w := s.cmdWho c
    (d.sp = true → exec (.tileUpdate k i) s = .next (
      if u.spadEcc k l.addr 64 then u.drainDone k i seq (some (l.addr, none, true))
      else (u.spadWrite k l.addr (addCells (u.spadRead k l.addr 64) l.data)).drainDone k i seq none)) ∧
    (d.sp = false → walked s w [l.addr] → exec (.tileUpdate k i) s = .next (
      match u.translateNow w .write l.addr with
      | .error e => u.drainDone k i seq (some (l.addr, some e, false))
      | .ok q =>
        match u.readLine (u.partOf w.ctx) q.slot q.pa 64 with
        | .keymis => u.drainDone k i seq (some (l.addr, some .keymis, false))
        | .ecc => u.drainDone k i seq (some (l.addr, none, false))
        | .ok bs => (((if u.shared then u else u.bump).learn w.core w.ctx l.addr).homeWrite w q (addCells bs l.data)).drainDone
            k i seq none))) ∧
  (∀ s k n c, s.headCmd k n = some c → s.cmdRuns c = true → s.cmdOver c = true →
    let u := match c.kind with
      | .drain 2 _ _ d _ ls dense _ _ => s.spadWrite k d.sumoff (leBytes 8 (ls.length + (if dense then 2 ^ 16 else 0)))
      | _ => s
    let v := match c.frec with
      | some off => if c.fr.v then u.spadWrite k off c.fr.bytes else u
      | none => u
    let w := match c.fut with
      | some e => (v.resolve e (if c.fr.v then 0 else c.delivered) c.fr.v).1
      | none => v
    exec (.commandPerformed k n) s = .next (retired w k n c))

namespace Sys2Proof.Claims

/-! ### Events of memory -/

/-- The queue that a load into a queue, or its replay, delivers to. -/
def ofQueue (f : Fill) : Option QRef := match f.tgt with | .pos q _ _ => some q | _ => f.q

/-- A load into a queue has delivered what it read: it leaves the loads in flight, the walks made for it are forgotten, and its
latency is counted, once for each of its lines (16 R423, 03 R102). -/
def fillDone (s : State) (tk : TeamKey) (f : Fill) (n : Nat) : State :=
  ((s.modTeam tk (fun t => { t with fills := t.fills.filter (fun x => x.id != f.id) })).forget (.unit tk f.id)).completed
    (s.coreOf tk) 0 f.thr f.pc f.t0 n

/-- Load f into a queue of team tk is in flight, its translations stand or need no walk that has still to be made, and nothing of
its thread before it is still to be performed where it reads (05 R156). -/
def filling (s : State) (tk : TeamKey) (f : Fill) : Prop :=
  (s.team tk).bind (fun t => t.fills.find? (fun x => x.id == f.id)) = some f ∧ s.fillMay f = true ∧
  walked s (s.unit tk f.id) (if f.xlat.isEmpty then (linePieces f.va f.kind.bytes).map (fun p => p.1) else [])

/-- The bytes of what a load into a queue reads, and the lines that it may take of the collector (09 R272, 03 R102). -/
def kindBytes (k : FillKind) : Nat := match k with | .lane => 4 | .block => 64 | .olist => 320

/-- The entry that a load into a queue makes of its bytes (09 R272). -/
def entryOf (k : FillKind) (bs : List Byte) : QSlot :=
  match k with
  | .lane => .data (.lane (BitVec.ofNat 32 (leNat bs)))
  | .block => .data (.block (blockOf bs))
  | .olist => .data (olistOf bs)

/-- The poison entry of a line that cannot be read: CLASS 0 and the kind of the fault, or CLASS 1 (06 R187). -/
def poisonOf (e : Option XKind) (va : Nat) : Poison :=
  { va := BitVec.ofNat 64 va, sp := false, rtag := 0xFFFF, kind := (e.map XKind.code).getD 0, cls := if e.isSome then 0 else 1 }

/-- A line of an access gives its bytes. -/
def lineRead (s : State) (ctx : Nat) (x : (Nat × Nat) × XlatOut) (bs : List Byte) : Prop :=
  ∃ q, x.2 = .ok q ∧ s.keyHolds q = true ∧ s.readLine (s.partOf ctx) q.slot q.pa x.1.2 = .ok bs

/-- A line of an access fails: in translation, by its key slot destroyed since (01 R37, R40), by its key, or uncorrectable (01 R23,
R25, 14 R398). -/
def lineFails (s : State) (ctx : Nat) (x : (Nat × Nat) × XlatOut) (e : Option XKind) : Prop :=
  (∃ k, x.2 = .fault k ∧ e = some k) ∨
  (∃ q, x.2 = .ok q ∧ s.keyHolds q = false ∧ e = some .keydead) ∨
  (∃ q, x.2 = .ok q ∧ s.keyHolds q = true ∧ s.readLine (s.partOf ctx) q.slot q.pa x.1.2 = .keymis ∧ e = some .keymis) ∨
  ∃ q, x.2 = .ok q ∧ s.keyHolds q = true ∧ s.readLine (s.partOf ctx) q.slot q.pa x.1.2 = .ecc ∧ e = none

/-- The STQ e of queue q of team tk has its entry d, nothing before it is still to be performed where it writes, and every
earlier load of its thread has bound its value. -/
def storing (s : State) (tk : TeamKey) (q : Queue) (e : Stq) (d : QData) : Prop :=
  (s.team tk).bind (fun t => t.queues.findSome? (fun q => (q.stqs.find? (fun x => x.id == e.id)).map (fun e => (q, e)))) = some (q, e) ∧
  e.data = some d ∧ s.storesAt e.thr e.id false e.phys.slot e.phys.pa q.stqBytes = [] ∧
  s.stqAt e.thr e.id false e.phys.slot e.phys.pa q.stqBytes = false ∧ s.readingBefore e.thr e.id = false

/-- A KV operation has its outcome (04 R124); the writes of others in flight are remembered only while an operation waits
(R126, log 25). -/
def probed (s : State) (th : ThreadKey) (o : KvOut) : State :=
  let u := (s.bump.forget (.kv th)).modThread th (fun t => { t with kv := t.kv.map (fun q => { q with out := some o }) })
  if u.groups.any (fun g => g.threads.any (fun t => (t.kv.map (fun k => k.out.isNone)).getD false)) then u else { u with kvLog := [] }

/-- A walk is over for the accesses that wait for it: each has the outcome. -/
def reached (s : State) (ws : List (Asker × Nat)) (out : WalkOut) : State :=
  ws.foldl (fun (s : State) x => s.walked x.1 x.2 out) s

/-- The slots of a list can be read, and hold no EMPTY slot and no entry of the key (04 R120, R123). -/
def passes (rd : KvRead) (base key : Nat) (slot : Nat → Nat) (l : List Nat) : Prop :=
  ∀ i ∈ l, rd (base + 16 * i) 16 = .ok (slot i) ∧ (KvEntry.ofNat (slot i)).st ≠ 0 ∧
    ¬ ((KvEntry.ofNat (slot i)).st = 1 ∧ (KvEntry.ofNat (slot i)).key = key)

/-- The first of some slots that an insert may take: one that holds no entry (04 R123). -/
def roomIn (base : Nat) (slot : Nat → Nat) (l : List Nat) : Option Nat :=
  (l.find? (fun i => (KvEntry.ofNat (slot i)).st != 1)).map (fun i => base + 16 * i)

/-- A chain runs from the record at p, which the dword at `link` names, through the records of a list, none of which holds the
key, to p' (04 R125). -/
def chain (rd : KvRead) (key : Nat) : Nat → Nat → List Nat → Nat → Nat → Prop
  | link, p, [], link', p' => link = link' ∧ p = p'
  | _, p, r :: rs, link', p' => r = p ∧ p ≠ 0 ∧ p % 32 = 0 ∧ ∃ n next, rd p 16 = .ok n ∧ rd (p + 16) 8 = .ok next ∧
      ¬ ((KvEntry.ofNat n).st = 1 ∧ (KvEntry.ofNat n).key = key) ∧ chain rd key (p + 16) next rs link' p'

/-- A hit: a prefix entry counts one more reference unless it is pinned (04 R123). -/
def used (kind status : Nat) (h : KvHit) : KvDone :=
  if kind = 1 ∧ h.e.ref ≠ 0xFFFF then
    { out := kvResult status h.e.pblk (h.e.ref + 1), writes := [(h.va, KvEntry.bytes { h.e with ref := h.e.ref + 1 })] }
  else { out := kvResult status h.e.pblk h.e.ref, writes := [] }

/-- The operation that FN names, on what the probe found (04 R123, 12 R356). -/
def kvAct (rd : KvRead) (op : Nat) (d : TableDesc) (key pblk : Nat) (hit : Option KvHit) (room : Option Nat) :
    Except KvOut (Option KvDone) :=
  if op = 0 ∨ op = 3 then .ok (some (kvLook d.kind hit))
  else if op = 2 then (kvDel rd d hit).map some
  else (kvIns rd d key pblk hit room).map some

end Sys2Proof.Claims

open Sys2Proof.Claims

/-- A load into a queue delivers its entry, an STQ writes its entry, a KV operation is performed, a walk serves what
waits. A load into a queue whose thread's earlier accesses are performed and whose addresses need no walk reads its
lines in order: an entry of their bytes, or a poison entry with the class, kind and address of the first line that
fails (KEYDEAD where its key slot is no longer that of the translation), which takes a free replay-table entry (the
model's choice among them, log 52: the lowest); where none is free the access stays and stalls its group. The entry
fills its position, or the destinations that wait for it, or is dropped. An STQ whose entry has come writes it and
leaves its queue. A KV operation of a resident thread asks for a walk that it needs; else it is performed whole: it
answers its result and its writes are made, or it answers the fault of its read or of its first write that fails, and
writes nothing; where a plain store or an atomic has written bytes that it reads, and on a chain that runs in a
circle, its result is 64 free bits; what it acquires then follows the bytes it acted on (log 25). The oldest walk
request that a walker may take is taken. A walk that ends leaves the requests and gives its outcome to every access
that still waits (a leaf: whose address lies in its page); a leaf enters the translation caches unless a TLBINV has
covered the walk. (R26, R28, R29, R37, R122, R126, R186, R188, R272, R273, R282, R357) -/
def Obligations.QueueLoadsStoresProbesAndWalksPerform : Prop :=
  (∀ (s : State) (f : Fill) (bss : List (List Byte)), f.va % (if f.kind = .lane then 4 else 64) = 0 →
    List.Forall₂ (lineRead s (s.ctxOf f.thr.gk.team.job)) (s.fillLines f) bss →
    s.fillRead f = (entryOf f.kind bss.flatten, s.linesDone (s.unit f.thr.gk.team f.id) (s.fillLines f))) ∧
  (∀ (s : State) (f : Fill) (bss : List (List Byte)) ls x rest e, f.va % (if f.kind = .lane then 4 else 64) = 0 →
    s.fillLines f = ls ++ x :: rest → List.Forall₂ (lineRead s (s.ctxOf f.thr.gk.team.job)) ls bss →
    lineFails s (s.ctxOf f.thr.gk.team.job) x e →
    s.fillRead f = (.poison (poisonOf e x.1.1), s.linesDone (s.unit f.thr.gk.team f.id) (s.fillLines f))) ∧
  (∀ (s : State) (th : ThreadKey) (kind : FillKind) (va : Nat) (q : Option QRef) (d : QData),
    s.nameReplay th kind va q (.data d) = some (.data d, s)) ∧
  (∀ (s : State) (th : ThreadKey) (kind : FillKind) (va : Nat) (q : Option QRef) (p : Poison) (tm : Team) (n : Nat), s.team th.gk.team = some tm →
    n < 64 → tm.replay.getD n none = none → (∀ m < n, tm.replay.getD m none ≠ none) →
    s.nameReplay th kind va q (.poison p) = some (.poison { p with rtag := n, q := q }, s.modTeam th.gk.team (fun t =>
      { t with replay := updAt t.replay n (fun _ => some { kind := kind, va := va, thr := th, q := q }) }))) ∧
  (∀ (s : State) (th : ThreadKey) (kind : FillKind) (va : Nat) (q : Option QRef) (p : Poison) (tm : Team), s.team th.gk.team = some tm →
    (∀ m < 64, tm.replay.getD m none ≠ none) → s.nameReplay th kind va q (.poison p) = none) ∧
  (∀ (s : State) tk f, filling s tk f → f.tgt = .drop →
    exec (.queueEntryArrival tk f.id) s = .next (fillDone (s.fillRead f).2 tk f (f.kind.entries))) ∧
  (∀ (s : State) tk f q fifo pos x u, filling s tk f → f.tgt = .pos q fifo pos →
    (s.fillRead f).2.nameReplay f.thr f.kind f.va (ofQueue f) (s.fillRead f).1 = some (x, u) →
    exec (.queueEntryArrival tk f.id) s = .next (fillDone (u.fillPos tk q fifo pos x) tk f (f.kind.entries))) ∧
  (∀ (s : State) tk f x u, filling s tk f → f.tgt = .bound →
    (s.fillRead f).2.groups.any (fun g => decide (g.key.team = tk) && g.waitsFor (.fill f.id)) = true →
    (s.fillRead f).2.nameReplay f.thr f.kind f.va (ofQueue f) (s.fillRead f).1 = some (x, u) →
    exec (.queueEntryArrival tk f.id) s = .next (fillDone (u.deliver tk (.fill f.id) x) tk f (f.kind.entries))) ∧
  (∀ (s : State) tk f q fifo pos, filling s tk f → f.tgt = .pos q fifo pos →
    (s.fillRead f).2.nameReplay f.thr f.kind f.va (ofQueue f) (s.fillRead f).1 = none →
    exec (.queueEntryArrival tk f.id) s = .next ((s.fillRead f).2.modTeam tk (fun t =>
      { t with fills := t.fills.map (fun y => if y.id = f.id then { y with stuck := true } else y) }))) ∧
  (∀ (s : State) tk q e d, storing s tk q e d →
    let r : PendStore := { id := e.id, gk := e.thr.gk, pc := 0, spad := false, phys := e.phys, rel := false
                           lanes := [{ thr := e.thr.thr, addr := e.phys.pa, n := q.stqBytes, val := d.num, va := e.va }] }
    exec (.stqWrite tk e.id) s = .next (((s.performStore tk r).modQueue tk q.ref (fun q =>
      { q with stqs := q.stqs.filter (fun x => x.id != e.id) })).tevCheck tk.job)) ∧
  (∀ (s : State) (th : ThreadKey) (q : KvOp), (s.thread th).kv = some q → q.out = none → s.resident th.gk.team = true →
    let w := s.kvWho th
    let u := s.kvHome w q
    let op := kvPerform (s.kvRead w) q.op q.desc q.key q.pblk
    (∀ va, op = .error (.miss va) → exec (.kvProbe th) s = .next (s.requestWalk w.ctx va (.kv th))) ∧
    (∀ o, op = .error o → (∀ va, o ≠ .miss va) → exec (.kvProbe th) s = .next (probed u th o)) ∧
    (op = .ok none → exec (.kvProbe th) s = .next (probed u th (.result (freeResult s.fresh) false))) ∧
    (∀ d x va, op = .ok (some d) → walked s w (d.writes.map (fun x => x.1 % 2 ^ 64)) → s.kvWriteFault w d.writes = some (x, va) →
      exec (.kvProbe th) s = .next (probed u th (.fault x va))) ∧
    (s.kvLog.drop q.since = [] → s.kvClashes w q = false) ∧
    ∀ d, op = .ok (some d) → walked s w (d.writes.map (fun x => x.1 % 2 ^ 64)) → s.kvWriteFault w d.writes = none →
      exec (.kvProbe th) s = .next (probed (u.kvWrite w d.writes) th
        (.result (if s.kvClashes w q then freeResult s.fresh else d.out) (kvAcquires d.out)))) ∧
  (∀ (s : State) i, s.walks.findIdx? s.walkMay = some i →
    exec .pageWalkStart s = .next { s with walks := updAt s.walks i (fun w => { w with walking := true }) }) ∧
  (∀ (s : State) (w : Walk), s.walks.find? (fun x => x.walking && x.ctx == w.ctx && x.vpn == w.vpn) = some w →
    let va := w.vpn * 65536
    let u := ({ s with walks := s.walks.filter (· != w) } : State).walkTouch w.ctx va
    let ws := w.waiters.filter (fun x => u.waiting x.1)
    let inPage (lvl : Nat) := ws.filter (fun x => va / pageSize lvl == x.2 * 65536 / pageSize lvl)
    (∀ pte lvl, s.walk w.ctx va = .leaf pte lvl → w.stale = true →
      exec (.pageWalkResult w.ctx w.vpn) s = .next (reached u (inPage lvl) (.leaf pte lvl))) ∧
    (∀ pte lvl, s.walk w.ctx va = .leaf pte lvl → w.stale = false →
      exec (.pageWalkResult w.ctx w.vpn) s = .next (reached (u.walkFills w.ctx va (inPage lvl) pte lvl) (inPage lvl) (.leaf pte lvl))) ∧
    ∀ k, s.walk w.ctx va = .fault k → exec (.pageWalkResult w.ctx w.vpn) s = .next (reached u ws (.fault k)))

/-- A KV operation finds its key in probe order and acts on the entry as its pseudocode says. A descriptor at an address
that is not 128-byte aligned, with a nonzero reserved bit or a field out of range, and an operation that the table's
kind refuses, answer status 7 (FREEHEAD's alignment is the model's choice, log 56). The hash of the key names the
bucket and its first slot, from which the probe looks at the eight slots in order. It passes slots that hold no entry
of the key, finds the first that does, ends at an EMPTY slot, and reports the first slot an insert may take. Past a
bucket without either it walks the overflow chain from the bucket's head through NEXT until a record of the key or the
chain's end; a chain in a circle gives no outcome (log 25). On a valid descriptor the operation is the lookup, insert
or delete of what the probe found. A lookup of no entry answers status 1; a prefix hit counts one more reference
unless it is pinned. An insert of a key that is there answers status 3; into a slot it writes an entry with one
reference and answers status 2; into a full bucket it takes the first record of the free list to the chain's head, or
answers status 6. A delete of a prefix entry with more references counts one less and answers status 5; else the entry
is marked deleted, or its record goes from the chain to the free list, and the answer is status 4. (R119, R121, R123,
R124, R125, R126) -/
def Obligations.KvOperationsFollowThePseudocode : Prop :=
  (∀ (rd : KvRead) op desc key pblk, desc % 128 ≠ 0 → kvPerform rd op desc key pblk = .ok (some { out := kvResult 7 0 0, writes := [] })) ∧
  (∀ (rd : KvRead) op desc key pblk n, desc % 128 = 0 → rd desc 128 = .ok n →
    descReserved n = true ∨ (TableDesc.ofNat n).bad = true ∨ kindOk op (TableDesc.ofNat n).kind = false →
    kvPerform rd op desc key pblk = .ok (some { out := kvResult 7 0 0, writes := [] })) ∧
  (∀ (nb : Nat) (key : BitVec 64), 0 < nb →
    let z := (key ^^^ (key >>> 31)) * 0x7FB5D329728EA185#64
    let z := (z ^^^ (z >>> 27)) * 0x81DADEF4BC2DD44D#64
    let index := (z ^^^ (z >>> 33)).toNat % (8 * nb)
    kvBucket nb key.toNat = index / 8 ∧ kvBucket nb key.toNat < nb ∧
    kvSlots nb key.toNat = [0, 1, 2, 3, 4, 5, 6, 7].map (fun i => (index % 8 + i) % 8)) ∧
  (∀ (rd : KvRead) (base key : Nat) (l : List Nat) (room : Option Nat) (hit : KvHit) (r : Option Nat) (b : Bool),
    probeSlots rd base key l room = .ok (some hit, r, b) →
    ∃ i ∈ l, ∃ n, hit.va = base + 16 * i ∧ rd hit.va 16 = .ok n ∧ hit.e = KvEntry.ofNat n ∧ hit.e.st = 1 ∧ hit.e.key = key ∧
      hit.link = none) ∧
  (∀ (rd : KvRead) (base key : Nat) (slot : Nat → Nat) (l rest : List Nat) (i n : Nat), passes rd base key slot l →
    rd (base + 16 * i) 16 = .ok n →
    ((KvEntry.ofNat n).st = 1 → (KvEntry.ofNat n).key = key → probeSlots rd base key (l ++ i :: rest) none =
      .ok (some { va := base + 16 * i, e := KvEntry.ofNat n, link := none }, roomIn base slot l, false)) ∧
    ((KvEntry.ofNat n).st = 0 → probeSlots rd base key (l ++ i :: rest) none =
      .ok (none, some ((roomIn base slot l).getD (base + 16 * i)), true))) ∧
  (∀ (rd : KvRead) (base key : Nat) (slot : Nat → Nat) (l : List Nat), passes rd base key slot l →
    probeSlots rd base key l none = .ok (none, roomIn base slot l, false)) ∧
  (∀ (rd : KvRead) (base key : Nat) (slot : Nat → Nat) (l rest : List Nat) (i : Nat) (x : KvOut), passes rd base key slot l →
    rd (base + 16 * i) 16 = .error x → probeSlots rd base key (l ++ i :: rest) none = .error x) ∧
  (∀ (rd : KvRead) (key link p : Nat) (rs : List Nat) (link' p' fuel : Nat), chain rd key link p rs link' p' → rs.Nodup →
    rs.length < fuel →
    (p' = 0 ∨ p' % 32 ≠ 0 → walkChain rd key fuel [] link p = .ok (some none)) ∧
    (∀ n next, p' ≠ 0 → p' % 32 = 0 → p' ∉ rs → rd p' 16 = .ok n → rd (p' + 16) 8 = .ok next → (KvEntry.ofNat n).st = 1 →
      (KvEntry.ofNat n).key = key →
      walkChain rd key fuel [] link p = .ok (some (some { va := p', e := KvEntry.ofNat n, link := some (link', next) }))) ∧
    (p' ∈ rs → walkChain rd key fuel [] link p = .ok none)) ∧
  (∀ (rd : KvRead) op desc key pblk n hit room ended, desc % 128 = 0 → rd desc 128 = .ok n →
    let d := TableDesc.ofNat n
    let b := kvBucket d.nb key
    descReserved n = false → d.bad = false → kindOk op d.kind = true →
    probeSlots rd (d.tbase + 128 * b) key (kvSlots d.nb key) none = .ok (hit, room, ended) →
    (hit.isSome = true ∨ ended = true → kvPerform rd op desc key pblk = kvAct rd op d key pblk hit room) ∧
    (∀ p, hit = none → ended = false → rd (d.ovf + 8 * b) 8 = .ok p →
      (∀ h, walkChain rd key (2 ^ 59 + 1) [] (d.ovf + 8 * b) p = .ok (some h) →
        kvPerform rd op desc key pblk = kvAct rd op d key pblk h room) ∧
      (walkChain rd key (2 ^ 59 + 1) [] (d.ovf + 8 * b) p = .ok none → kvPerform rd op desc key pblk = .ok none))) ∧
  (∀ kind, kvLook kind none = { out := kvResult 1 0 0, writes := [] }) ∧
  (∀ kind (h : KvHit), kvLook kind (some h) = used kind 0 h) ∧
  (∀ (rd : KvRead) (d : TableDesc) key pblk h room, kvIns rd d key pblk (some h) room = .ok (used d.kind 3 h)) ∧
  (∀ (rd : KvRead) (d : TableDesc) key pblk va, kvIns rd d key pblk none (some va) =
    .ok { out := kvResult 2 pblk 1, writes := [(va, KvEntry.bytes { key := key, pblk := pblk, ref := 1, st := 1 })] }) ∧
  (∀ (rd : KvRead) (d : TableDesc) key pblk r, rd d.free 8 = .ok r →
    (r = 0 ∨ r % 32 ≠ 0 → kvIns rd d key pblk none none = .ok { out := kvResult 6 0 0, writes := [] }) ∧
    ∀ next head, r ≠ 0 → r % 32 = 0 → rd (r + 16) 8 = .ok next → rd (d.ovf + 8 * kvBucket d.nb key) 8 = .ok head →
      kvIns rd d key pblk none none = .ok { out := kvResult 2 pblk 1, writes :=
        [(d.free, leBytes 8 next),
         (r, KvEntry.bytes { key := key, pblk := pblk, ref := 1, st := 1 } ++ leBytes 8 head ++ leBytes 8 0),
         (d.ovf + 8 * kvBucket d.nb key, leBytes 8 r)] }) ∧
  (∀ (rd : KvRead) (d : TableDesc), kvDel rd d none = .ok { out := kvResult 1 0 0, writes := [] }) ∧
  (∀ (rd : KvRead) (d : TableDesc) (h : KvHit), d.kind = 1 → 1 < h.e.ref →
    kvDel rd d (some h) = .ok (if h.e.ref = 0xFFFF then { out := kvResult 5 h.e.pblk 0xFFFF, writes := [] }
      else { out := kvResult 5 h.e.pblk (h.e.ref - 1), writes := [(h.va, KvEntry.bytes { h.e with ref := h.e.ref - 1 })] })) ∧
  (∀ (rd : KvRead) (d : TableDesc) (h : KvHit), h.link = none → d.kind ≠ 1 ∨ h.e.ref ≤ 1 → kvDel rd d (some h) =
    .ok { out := kvResult 4 h.e.pblk 0, writes := [(h.va, KvEntry.bytes { h.e with st := 2 })] }) ∧
  (∀ (rd : KvRead) (d : TableDesc) (h : KvHit) link next head, h.link = some (link, next) → d.kind ≠ 1 ∨ h.e.ref ≤ 1 →
    rd d.free 8 = .ok head → kvDel rd d (some h) = .ok { out := kvResult 4 h.e.pblk 0, writes :=
      [(link, leBytes 8 next), (h.va + 16, leBytes 8 head), (d.free, leBytes 8 h.va)] }) ∧
  ∀ status pblk ref, pblk < 2 ^ 32 → status < 16 → ref < 2 ^ 16 →
    bits (kvResult status pblk ref).toNat 31 0 = pblk ∧ bits (kvResult status pblk ref).toNat 35 32 = status ∧
    bits (kvResult status pblk ref).toNat 51 36 = ref ∧ bits (kvResult status pblk ref).toNat 63 52 = 0

namespace Sys2Proof.Claims

/-! ### Events of remote channels and attention -/

/-- An attention command takes the result of a stack and makes the entries that follow from it (04 R135, R136). -/
def takesResult (s : State) (tk : TeamKey) (cmd stack : Nat) (r : StkRes) : State :=
  s.modAtt tk cmd (fun c => AttCmd.progress { c with res := updAt c.res stack (fun _ => r) })

/-- A peer's request is one that the device takes: of a peer with a security association, of at most 256 bytes, in a range that
the context exposes to this peer (15 R410, R412). -/
def peerMay (s : State) (ctx : Nat) (peer : PeerId) (va n : Nat) (write : Bool) : Prop :=
  peer.assoc = true ∧ 0 < n ∧ n ≤ 256 ∧ s.exposed ctx peer.index va n write = true

/-- A completion is no longer due to a thread, and has been finished; the thread's resume PC is in its handler bank, with the
two words of the completion (09 R286, 21 R439). -/
def vectored (s : State) (th : ThreadKey) (d : ThreadKey × Due × Nat) : State :=
  let bank := s.dueBank th.gk.team d.2.1
  let u := (s.modTeam th.gk.team (fun t => { t with vecq := t.vecq.erase d })).finishDue th d.2.1
  let pc := (u.thread th).pc
  let v := u.fillBank th 0 bank.1 bank.2 pc.toNat
  (v.modGroup th.gk (fun g => if g.holds th.thr then g.unhold th.thr else g)).vector th pc

end Sys2Proof.Claims

open Sys2Proof.Claims

/-- Responses, completions, attention results and the accesses of peers have their effect. A response to a reserved slot
lands with its data, a refusal or an exhausted budget fails the slot; the completions of a channel are delivered in
landing order, one after the other (log 27), each once the earlier accesses of its thread are performed: a read writes
its bytes, free values where it failed or its data are uncorrectable (log 70), and credits its phaser, or becomes due
to its thread; the entries of a read of blocks are the blocks, poison of CLASS 9 where it failed, of CLASS 1 where its
data are uncorrectable. A completion of an earlier cycle due to a thread that can take it vectors the thread (log 27).
The result of a stack reaches its command; at the deadline every missing stack is late; a late stack is abandoned 2^20
cycles after, with a poison entry of a free address (log 13). An entry goes to its queue or its landing area, and a
command without further entries ends. A peer's access is held while a checkpoint runs (R413, log 32), refused and
counted where the peer has no association or the range is not exposed to it, else performed. (R116, R132, R135, R136,
R138, R139, R153, R285, R286, R398, R411, R412) -/
def Obligations.ResponsesTriplesAndPeersArrive : Prop :=
  (∀ (s : State) k ch n data r, s.reserved k ch n = some r → (r.put = true ∨ data.length = r.len) →
    exec (.responseLanded k ch n data) s = .next (s.landSlot k ch n .landed data)) ∧
  (∀ (s : State) k ch n r, s.reserved k ch n = some r → exec (.errorResponse k ch n) s = .next (s.landSlot k ch n .failed [])) ∧
  (∀ (s : State) k ch n r, s.reserved k ch n = some r → (∀ c, r.left = some c → c + s.retx ≤ s.cycle) →
    exec (.retransmissionExhausted k ch n) s = .next (s.landSlot k ch n .failed [])) ∧
  (∀ (s : State) k ch n tm c l, s.team k = some tm → tm.chan ch = some c → c.order = n :: l →
    exec (.channelQueueDelivery k ch n) s = .next (match s.deliverSlot k ch n with
      | (some u, _) => State.deliverChan k ch l u
      | (none, u) => u.modChan k ch (fun c => { c with order := n :: l }))) ∧
  (∀ (s : State) k ch n tm sl r, s.team k = some tm → tm.slot ch n = some sl → sl.req = some r →
    s.busyBefore r.thr r.id = false ∨ r.dead = true → r.dk = none →
    let failed := sl.st == SlotSt.failed
    let u := if r.put then s
      else if failed then (s.spadWrite k r.spo (freeMany s.fresh r.len)).bumpBy ((r.len + 63) / 64)
      else sl.bad.foldl (fun s i => s.spoilSpad k ((r.spo + 64 * i) / 64)) (s.spadWrite k r.spo (sl.data.take r.len))
    let v := u.completed (u.coreOf k) 4 r.thr r.pc r.t0
    (r.uv = false → (s.deliverSlot k ch n).1 = some ((v.modSlot k ch n (fun _ => ChSlot.empty)).phCredit k r.ph r.len failed)) ∧
    (r.uv = true → (v.thread r.thr).live = true → r.dead = false → (s.deliverSlot k ch n).1 =
      some (v.modTeam k (fun t => { t with vecq := insertDue t.vecq (r.thr, .channel ch n, sl.land) }))) ∧
    (r.uv = true → (v.thread r.thr).live = false ∨ r.dead = true → (s.deliverSlot k ch n).1 = some (v.finishChannel k ch n))) ∧
  (∀ (s : State) k ch n tm sl r, s.team k = some tm → tm.slot ch n = some sl → sl.req = some r →
    s.busyBefore r.thr r.id = true → r.dead = false → s.deliverSlot k ch n = (none, s)) ∧
  (∀ (r : RemReq) bad data i, i < (r.len + 63) / 64 →
    let poison (cls : Nat) : QSlot := .poison { va := BitVec.ofNat 64 r.raddr, sp := false, rtag := 0xFFFF, kind := 0, cls := cls }
    (r.entries true bad data)[i]? = some (poison 9) ∧ (i ∈ bad → (r.entries false bad data)[i]? = some (poison 1)) ∧
    (i ∉ bad → (r.entries false bad data)[i]? = some (.data (.block (blockOf ((data.drop (64 * i)).take 64)))))) ∧
  (∀ (s : State) th g tm d, s.group th.gk = some g → s.resident th.gk.team = true → g.vectorable th.thr = true →
    s.team th.gk.team = some tm → tm.vecq.find? (fun x => x.1 == th) = some d → d.2.2 < s.cycle →
    tm.landedBefore th d.2.1 d.2.2 = false →
    exec (.completionVectoring th) s = .next (vectored s th d)) ∧
  (∀ (s : State) tk cmd stack c, (∀ h, (tk, cmd, stack, h) ∉ s.strays) → s.att tk cmd = some c → stack < 8 →
    c.pmask.testBit stack = true → c.res.getD stack .none = .none → c.ready stack = true →
    let w := s.unit tk cmd
    walked s w (c.lines stack) →
    let v := s.gongClean w (c.lines stack)
    let r := v.stackResult w c stack
    let u := match r with
      | .triple _ => v.countStk stack 0 c.nheads
      | _ => v
    exec (.tripleArrival tk cmd stack) s = .next (takesResult (if u.shared then u else u.bump) tk cmd stack r)) ∧
  (∀ (s : State) tk cmd stack x, s.strays.find? (fun y => y.1 == tk && y.2.1 == cmd && y.2.2.1 == stack) = some x →
    exec (.tripleArrival tk cmd stack) s = .next (State.countDev { s with strays := s.strays.erase x } 2 x.2.2.2)) ∧
  (∀ (s : State) tk cmd c, s.att tk cmd = some c → c.deadline ≠ 0 → c.t0 + c.deadline ≤ s.cycle → c.late = [] →
    c.missing ≠ [] →
    let u := c.missing.foldl (fun (s : State) st => s.countStk st 1 c.nheads) s
    let v := ((attUnits c.list).filter (fun x => c.missing.contains (x.1 / 8))).foldl
      (fun (s : State) x => s.assertLines (0x300 + x.1) none) u
    exec (.attdDeadline tk cmd) s = .next
      ((v.modAtt tk cmd (fun c => AttCmd.progress { c with late := c.missing, fr := v.fresh })).bumpBy 8)) ∧
  (∀ (s : State) tk cmd stack c, s.att tk cmd = some c → stack ∈ c.late → c.res.getD stack .none = .none →
    c.t0 + c.deadline + 2 ^ 20 ≤ s.cycle →
    exec (.attlost tk cmd stack) s = .next
      (takesResult (State.bump { s with strays := s.strays ++ [(tk, cmd, stack, c.nheads)] }) tk cmd stack (.fail (attLostPoison s.fresh)))) ∧
  (∀ (s : State) tk cmd c tm, s.att tk cmd = some c → s.team tk = some tm → c.out = [] → c.closed = true →
    let u := s.modTeam tk (fun t => { t with attn := t.attn.filter (fun x => x.id != cmd) })
    exec (.attdEntryDelivery tk cmd) s = .next ((u.forget (.unit tk cmd)).completed (s.coreOf tk) 5 c.thr c.pc c.t0)) ∧
  (∀ (s : State) tk cmd c tm e rest q, s.att tk cmd = some c → s.team tk = some tm → c.out = e :: rest → c.dst = some q →
    tm.attBusy c = false →
    let r := s.attPush tk q e
    exec (.attdEntryDelivery tk cmd) s = .next (r.2.modAtt tk cmd (fun c => { c with out := r.1.toList ++ rest }))) ∧
  (∀ (s : State) tk cmd c tm e rest, s.att tk cmd = some c → s.team tk = some tm → c.out = e :: rest → c.dst = none →
    let bs := e.landed s.fresh
    let off := c.land + 64 * c.blk
    let u := (State.bump (s.spadWrite tk off bs)).modAtt tk cmd (fun c => { c with out := rest, blk := c.blk + bs.length / 64 })
    exec (.attdEntryDelivery tk cmd) s = .next (if (u.thread c.thr).live = true ∧ c.dead = false then
      u.modTeam tk (fun t => { t with vecq := insertDue t.vecq (c.thr, .attd off, s.cycle) }) else u)) ∧
  (∀ (s : State) ctx peer va n, s.ckpt = false → peerMay s ctx peer va n false →
    (∀ bs, s.readVirt (manage ctx (ctx == 0)) va n = .ok bs →
      exec (.peerRead ctx peer va n) s = .next ((s.readDone (manage ctx (ctx == 0)) va n).answer (.peerRead bs))) ∧
    ∀ e, s.readVirt (manage ctx (ctx == 0)) va n = .error e → exec (.peerRead ctx peer va n) s = .next (s.answer .peerError)) ∧
  (∀ (s : State) ctx peer va data, s.ckpt = false → peerMay s ctx peer va data.length true →
    let r := s.writeVirt (manage ctx (ctx == 0)) va data
    exec (.peerWrite ctx peer va data) s = .next (r.1.answer (if r.2.isSome then .peerError else .peerDone))) ∧
  (∀ (s : State) ctx peer va n data, s.ckpt = true →
    exec (.peerRead ctx peer va n) s = .next { s with heldPeer := s.heldPeer ++ [.peerRead ctx peer va n] } ∧
    exec (.peerWrite ctx peer va data) s = .next { s with heldPeer := s.heldPeer ++ [.peerWrite ctx peer va data] }) ∧
  ∀ (s : State) ctx peer va n data, s.ckpt = false →
    (¬ peerMay s ctx peer va n false → exec (.peerRead ctx peer va n) s = .next ((s.countDev 5 1).answer .peerError)) ∧
    (¬ peerMay s ctx peer va data.length true →
      exec (.peerWrite ctx peer va data) s = .next ((s.countDev 5 1).answer .peerError))

namespace Sys2Proof.Claims

/-! ### Events of time and of the scheduler -/

/-- A TLBINV in flight in a team that leaves is completed where every access that it covers has been performed; then the teams
that can be saved are, and the header of the save area says so (13 R382, R387). -/
def savesMade (s : State) (j : Job) : State :=
  let u := (s.toFinish j).foldl State.finishInv s
  let v := (u.toSave j).foldl (fun s t => s.saveTeam t.key) u
  if u.toSave j = [] then u else v.writeHeader j.ctx

/-- The events of a job are resolved at its end (13 R375, 12 R350): FAULTED with the code of its fault or of its abandonment,
else READY with 0; TEV where it is not over. -/
def eventsEnded (s : State) (j : Job) : State :=
  let code := j.aband <|> j.fault
  let finish (s : State) (e : Nat) : State := (s.resolve e (code.getD 0) code.isSome).1
  let u := j.rev.foldl finish s
  match j.tev with
  | some e => if (u.event e).over then u else finish u e
  | none => u

/-- What the teams of a job hold is given back: energy requests and reservations (13 R375). -/
def holdingsFreed (s : State) (job : Nat) : State :=
  (s.teamsOf job).foldl (fun (s : State) (t : Team) =>
    (s.groupsOf t.key).foldl (fun (s : State) (g : Group) => s.endReservation g.key) (s.withdraw t.key)) s

/-- The records in the deques of a job's teams (12 R344). -/
def dequeRecords (s : State) (job : Nat) : Nat := ((s.teamsOf job).map (fun t : Team => t.deque.length + t.spill)).sum

end Sys2Proof.Claims

open Sys2Proof.Claims

/-- Timeouts, watchdogs, queue deadlock and the carillon act on what they name. A grant gives the first request of an
island its cost when the level covers it; for the request of a LEAVE the reservation that it replaces has returned
first, and its cost is the group's reservation from the grant on (R404). At each microsecond every island's level
rises by its rate, capped, and the energy table is written, 16 bytes for each island. A watchdog that has run out
makes the threads of the selected set, also those that have performed the word it is held at, take WDOG; a team in
deadlock for 4,096 cycles ends its groups with QDEAD, recorded for the lowest LIVE thread of each. A phaser wait whose
time has passed ends with TIMEOUT. At a multiple of 1,024 cycles a wait without a record is woken if its event is
over, else tries to record. (R182, R190, R337, R349, R395, R401, R403, R404, R405) -/
def Obligations.TimeAndTheCarillonAct : Prop :=
  (∀ (s : State) n r rest, (s.island n).reqs = r :: rest → r.swap = false → (s.island n).grants (s.fromLevel r) = true →
    exec (.carillonGrant n) s = .next (State.granted (s.modIsland n (fun i => { i with
      level := i.level - s.fromLevel r, used := i.used + s.fromLevel r, reqs := rest })) n r)) ∧
  (∀ (s : State) n r rest gk g, (s.island n).reqs = r :: rest → r.swap = true → r.who = .inl gk → s.group gk = some g →
    let back := min ((s.island n).level + g.resv) (s.island n).cap
    (Island.grants { s.island n with level := back } r.cost) = true →
    exec (.carillonGrant n) s = .next ((s.modIsland n (fun i => { i with
      level := back - r.cost, used := i.used + r.cost, reqs := rest })).modGroup gk (fun g =>
        { g with leave := some r.cost, resv := r.cost, stalled := false }))) ∧
  (∀ (s : State), s.cycle % 1200 = 0 →
    let u := { s with islands := s.islands.map (fun x : Nat × Island =>
      (x.1, { x.2 with level := min (x.2.level + x.2.rate) x.2.cap })) }
    exec .replenish s = .next (match s.etab with
      | some a => ((List.range 1024).foldl (fun t n => t.writePhys 0 (a + 16 * n) (u.energyEntry n)) u).dropL1 a 16384
      | none => u)) ∧
  (∀ (s : State) gk g t, s.group gk = some g → s.team gk.team = some t → s.resident gk.team = true → g.ended = false →
    2 ^ t.wdog ≤ g.wcount →
    exec (.wdog gk) s = .next (g.selected.foldl (fun (s : State) i => s.takeTrap ⟨gk, i⟩ (.at .wdog (g.thr i).pc))
      (s.modGroup gk (fun g => { g with wcount := 0 })))) ∧
  (∀ (s : State) k t, s.team k = some t → 4096 ≤ t.qdead →
    let u := s.modTeam k (fun t => { t with qdead := 0 })
    exec (.qdead k) s = .next (((u.groupsOf k).filter (fun g => !g.ended)).foldl (fun (s : State) g =>
      s.fatal g.key (((s.group g.key).bind (fun h => lanes.find? (fun i => (h.thr i).live))).toList) .qdead) u)) ∧
  (∀ (s : State) th off phase start timeout test, (s.thread th).blk = some (.phaser off phase start timeout test) →
    timeout ≠ 0 → start + timeout ≤ s.cycle →
    exec (.phaserTimeout th) s = .next (s.modThread th (fun t => { t with
      blk := none
      wres := some { off := off, phase := phase, pz := false, bc := false, timeout := true
                     bcf := (s.phaser th.gk.team off).bcf } }))) ∧
  (∀ (s : State) th id, (s.thread th).blk = some (.future id false) → s.cycle % 1024 = 0 → (s.event id).over = true →
    exec (.fwaitRecheck th) s = .next (s.modThread th (fun t => { t with blk := none }))) ∧
  (∀ (s : State) th id, (s.thread th).blk = some (.future id false) → s.cycle % 1024 = 0 → (s.event id).over = false →
    let r := s.recordWait id th.gk
    exec (.fwaitRecheck th) s = .next (r.1.modThread th (fun t => { t with blk := some (.future id r.2) })))

/-- Records are admitted, slices placed, started, pre-empted and saved, budgets ended, jobs ended. An aligned host write
of 64 bytes joins an admission queue with room, and is not taken by a full one, which loses no record; one of another
size or alignment is discarded and counted. The oldest record is admitted, or answered with its status and first 16
bytes. Clusters are placed on distinct free cores, a rectangle each. A job that may be loaded starts on its places. A
slice that must leave, or whose teams have all yielded, stops; its settled teams are saved, the header of the save
area with them, and when none is on a core the slice has left (that it stops and is saved in two phases is log 19,
DEDUCED). A budget spent before the slice has ended, also while it stops, is recorded once for each team that has not
ended or yielded, and stops the slice. A job whose teams have ended, with nothing left to perform, has its events
resolved and its holdings freed, and leaves; an EMPTY TEV is resolved with them (log 16, DEDUCED). At a multiple of
1,024 cycles replicas are tested, a retirement before a gain (log 20, DEDUCED), and owed registrations repeated.
(R350, R354, R366, R373, R375, R377, R378, R380, R381, R382, R387, R444) -/
def Obligations.TheSchedulerTakesStartsSavesAndEndsJobs : Prop :=
  (∀ (s : State) off data, off % 64 = 0 → off < 65536 → s.admq.length < Config.admissionQueue →
    exec (.admissionWrite off 64 data) s = .next { s with admq := s.admq ++ [data] }) ∧
  (∀ (s : State) off data, off % 64 = 0 → off < 65536 → Config.admissionQueue ≤ s.admq.length →
    exec (.admissionWrite off 64 data) s = .next s) ∧
  (∀ (s : State) off len data, len ≠ 64 ∨ off % 64 ≠ 0 ∨ 65536 ≤ off →
    exec (.admissionWrite off len data) s = .next (s.countDev 0 1)) ∧
  (∀ (s : State) r rest, s.admq = r :: rest → s.ckpt = false →
    exec .admitJob s = .next (match State.acceptJob { s with admq := rest } r.toNat none with
      | .ok x => x.2
      | .error e => State.answer { s with admq := rest } (.admission e (r.setWidth 128)))) ∧
  (∀ cw ch free n l, placeFrom cw ch free n = some l → l.length = n ∧
    (∀ o ∈ l, o % 24 + cw ≤ 24 ∧ o / 24 + ch ≤ 24 ∧ ∀ c ∈ rect cw ch o, c ∈ free) ∧
    l.Pairwise (fun a b => ∀ c ∈ rect cw ch a, c ∉ rect cw ch b)) ∧
  (∀ (s : State) job j places, s.job job = some j → s.mayStart j = some places →
    exec (.sliceStart job) s = .next (s.startSlice j places 0)) ∧
  (∀ (s : State) job j, s.job job = some j → j.st = .running → s.preemptDue j = true →
    let u := savesMade s j
    (u.allYielded job = true → exec (.preempt job) s = .next (u.stopSlice job false)) ∧
    (u.allYielded job = false → u.mustLeave j = true → exec (.preempt job) s = .next (u.preempt j)) ∧
    (u.allYielded job = false → u.mustLeave j = false → exec (.preempt job) s = .next u)) ∧
  (∀ (s : State) job j oob, s.job job = some j → j.st = .stopping oob → s.preemptDue j = true →
    let u := savesMade s j
    ((∃ t ∈ u.teamsOf job, t.resident = true) → exec (.preempt job) s = .next u) ∧
    ((¬∃ t ∈ u.teamsOf job, t.resident = true) →
      exec (.preempt job) s = .next (u.bump.modJob job (fun j => { j with st := .saving oob, moving := Config.moveCycles u.fresh })))) ∧
  (∀ (s : State) job j, s.job job = some j → j.st = .running ∨ j.st = .stopping false → j.left = 0 → j.moving = 0 →
    s.allYielded job = false →
    exec (.budget job) s = .next (((s.teamsOf job).foldl (fun (s : State) t =>
      if t.ended = true ∨ t.yielded = true then s
      else match s.lowestLive t.key with
        | some th => s.supRecord th .budget false false (s.thread th).pc 0 0
        | none => s) s).stopSlice job true)) ∧
  (∀ (s : State) job j, s.job job = some j → s.mayEnd j = true →
    let u := holdingsFreed (eventsEnded s j) job
    let v := if dequeRecords u job = 0 then u else u.countDev 4 (dequeRecords u job)
    exec (.jobEnd job) s = .next (State.modJob { v with
      teams := v.teams.filter (fun t => t.key.job != job)
      groups := v.groups.filter (fun g => g.key.team.job != job) } job (fun j => { j with st := .ended, moving := 0 }))) ∧
  (∀ (s : State) k j t, s.job k.job = some j → s.team k = some t → s.cycle % 1024 = 0 → j.st = .running → j.moving = 0 →
    t.resident = true → t.yielded = false → t.ended = false →
    exec (.replicationTest k) s = .next ((List.range 7).foldl (fun s i => ((s.sweep k).retire k j.pipe (i + 1) true).gain k j.pipe (i + 1)) s)) ∧
  (∀ (s : State) job j, s.job job = some j → s.cycle % 1024 = 0 → j.st = .node →
    exec (.registrationRetry job) s = .next (j.regs.foldl (fun (s : State) e =>
      match s.freg e job job with
      | (u, true) => u
      | (u, false) => u.modJob job (fun j => { j with regs := j.regs ++ [e] }))
      (s.modJob job (fun j => { j with regs := [] }))))

namespace Sys2Proof.Claims

/-! ### Synchronisation, tasks, futures, jobs -/

/-- The value of a lane's register in its slice. -/
def reg (s : State) (th : ThreadKey) (r : BitVec 5) : Nat := (s.thread th).rn th.gk.exe r.toNat

/-- The taint of some registers of a lane. -/
def taints (s : State) (th : ThreadKey) (rs : List (BitVec 5)) : Bool := (s.thread th).tainted th.gk.exe rs

/-- A lane's register takes a value, which discards a poison it held, and the lane moves past the word. -/
def gives (s : State) (th : ThreadKey) (d : BitVec 5) (v : Nat) (taint : Bool) : State :=
  (s.clearPoison th d.toNat).modThread th (fun t => (t.wn th.gk.exe d.toNat v taint).advance)

/-- A lane's status predicate takes a value, and the lane moves past the word. -/
def status (s : State) (th : ThreadKey) (p : BitVec 3) (v : Bool) : State :=
  s.modThread th (fun t => (t.setPred p v).advance)

/-- Register a names a phaser: its offset is aligned and in the scratchpad (12 R332, R255). -/
abbrev phaserThere (a : BitVec 5) (s : State) (th : ThreadKey) : Prop := reg s th a % 32 = 0 ∧ reg s th a < Config.spadBytes

/-- What the lane did before an access of its phaser has been performed: its stores to it and, before a write, its loads into
queues (05 R156, R158). -/
abbrev phaserTurn (a : BitVec 5) (writes : Bool) (s : State) (th : ThreadKey) : Prop :=
  phaserThere a s th ∧ s.storesAt th (s.nowId th.gk.team) true 0 (reg s th a) 32 = [] ∧ (writes = true → s.reading th = false)

/-- The phaser that register a names can be acted on: nothing has to come first, and it reads without error (14 R398). -/
abbrev phaserGood (a : BitVec 5) (s : State) (th : ThreadKey) : Prop :=
  phaserTurn a true s th ∧ s.spadEcc th.gk.team (reg s th a) 32 = false

/-- The phaser that register a names can be read. -/
abbrev phaserSeen (a : BitVec 5) (s : State) (th : ThreadKey) : Prop :=
  phaserTurn a false s th ∧ s.spadEcc th.gk.team (reg s th a) 32 = false

/-- Word i with another offset in register a raises BADARG (09 R255). -/
def Misplaced (i : Instr) (q : BitVec 3) (rs ds : List Nat) (a : BitVec 5) : Prop :=
  LanesLeave i q rs ds (fun s th => ¬phaserThere a s th) (takes .badarg)

/-- The phaser that register a names. -/
def phaserOf (a : BitVec 5) (s : State) (th : ThreadKey) : Phaser := s.phaser th.gk.team (reg s th a)

/-- The fields of the phaser that register a names become p, and the completion check runs (12 R336). -/
def checked (a : BitVec 5) (s u : State) (th : ThreadKey) (p : Phaser) : State :=
  (u.setPhaser th.gk.team (reg s th a) p).phCheck th.gk.team (reg s th a)

/-- Phase b is complete when PHASE is p: (p - b) mod 2^32 lies between 1 and 2^31 - 1 (12 R337). -/
abbrev completePhase (p b : Nat) : Prop :=
  1 ≤ (BitVec.ofNat 32 p - BitVec.ofNat 32 b).toNat ∧ (BitVec.ofNat 32 p - BitVec.ofNat 32 b).toNat < 2 ^ 31

/-- A PREG registers: the first free slot takes the role, NSIG counts a signaller, d receives PHASE (12 R333). -/
def registered (f : OpPreg) (s : State) (th : ThreadKey) : State :=
  let k := th.gk.team
  let off := reg s th f.a
  let u := if ((s.thread th).regSlot off).isSome then s.phDereg th off else s
  let p := u.phaser k off
  match (u.thread th).slots.findIdx? (fun r => r.isNone) with
  | some i =>
    let v := u.modThread th (fun t => { t with
      slots := updAt t.slots i (fun _ => some { off := off, sig := f.b.toNat % 2 == 1, wt := decide (2 ≤ f.b.toNat), last := none }) })
    gives (if f.b.toNat % 2 = 1 then v.setPhaser k off { p with nsig := min (p.nsig + 1) 0xFFFF } else v) th f.d p.phase
      (taints s th [f.a])
  | none => s

/-- A wait that has its result ends: `out` writes it; an acquire discards the L1 unless it has timed out (12 R337). -/
def ended (s : State) (th : ThreadKey) (r : WaitRes) (out : State → WaitRes → State) : State :=
  let u := s.modThread th (fun t => { t with wres := none })
  onward (out (if r.timeout then u else u.acquire th) r) th

/-- Word i waits on the phaser of a for the phase of b: it ends at once on a phase that is complete, blocks on another with
its group marked in WMAP, ends with the result that it has been given, and takes BYTECOUNT where that has one; a lane that is no
waiter raises BADARG (12 R337). -/
def Waits (i : Instr) (q : BitVec 3) (rs ds : List Nat) (a : BitVec 5) (b : BitVec 5) (test : Bool)
    (out : ThreadKey → State → WaitRes → State) : Prop :=
  let phase (s : State) (th : ThreadKey) : Nat := reg s th b % 2 ^ 32
  let waiter (s : State) (th : ThreadKey) : Prop := ∃ r, (s.thread th).regSlot (reg s th a) = some r ∧ r.wt = true
  LanesInTurn i q rs ds (fun s th => phaserGood a s th ∧ (s.thread th).wres = none ∧ waiter s th ∧
      completePhase (phaserOf a s th).phase (phase s th))
    (fun s th => ended s th { off := reg s th a, phase := phase s th, pz := false, bc := false, timeout := false
                              bcf := (phaserOf a s th).bcf } (out th)) ∧
  LanesLeave i q rs ds (fun s th => phaserGood a s th ∧ (s.thread th).wres = none ∧ waiter s th ∧
      ¬completePhase (phaserOf a s th).phase (phase s th))
    (fun s th => (s.setPhaser th.gk.team (reg s th a) { phaserOf a s th with
        wmap := (phaserOf a s th).wmap ||| 2 ^ wmapBit th.gk }).block th
      (.phaser (reg s th a) (phase s th) s.cycle ((s.thread th).rn th.gk.exe (b.toNat + 1) % 2 ^ 32) test)) ∧
  LanesInTurn i q rs ds (fun s th => phaserGood a s th ∧ ∃ r, (s.thread th).wres = some r ∧ r.bc = false)
    (fun s th => match (s.thread th).wres with | some r => ended s th r (out th) | none => s) ∧
  LanesLeave i q rs ds (fun s th => phaserGood a s th ∧ ∃ r, (s.thread th).wres = some r ∧ r.bc = true)
    (fun s th => match (s.thread th).wres with
      | some r => (ended s th r (out th)).takeTrap th { TrapInfo.at .bytecount (s.thread th).pc with
          resume := (s.thread th).pc + 4, r29 := r.off, r30 := r.phase }
      | none => s) ∧
  LanesLeave i q rs ds (fun s th => phaserThere a s th ∧ (s.thread th).wres = none ∧ ¬waiter s th) (takes .badarg) ∧
  Misplaced i q rs ds a

/-- The group may use deques: its slice is e, a pair lies below r31, the job enables tasks (12 R341, R342). -/
def tasksIn (e : Bool) (r : BitVec 5) (s : State) (gk : GroupKey) : Prop :=
  gk.exe = e ∧ (e = true → r ≠ 31#5) ∧ ∃ j, s.job gk.team.job = some j ∧ j.pipe.tasks = true

/-- The registers of a record (12 R341). -/
def recordOfRegs (e : Bool) (r : BitVec 5) : List Nat := if e then [r.toNat, r.toNat + 1] else [r.toNat]

/-- The record in the registers of a lane. -/
def recordIn (s : State) (th : ThreadKey) (r : BitVec 5) : Nat :=
  if th.gk.exe then reg s th r + (s.thread th).rn true (r.toNat + 1) * 2 ^ 32 else reg s th r

/-- A lane receives a record: an acquire at .clu scope, with a true status (12 R345). -/
def received (s : State) (th : ThreadKey) (ps : BitVec 3) (d : BitVec 5) (v : Nat) (taint : Bool) : State :=
  status ((s.setRecord th d.toNat v taint).acquire th) th ps true

/-- No STEAL has looked at a deque in this cycle (19 R434). -/
def unrobbed (s : State) (k : TeamKey) : Prop := ∀ x ∈ s.thefts, x.1 = s.cycle → x.2.1 ≠ k

/-- A STEAL has looked at its deques. -/
def looked (f : OpSteal) (s : State) (th : ThreadKey) : State :=
  s.noteThefts (s.coreOf th.gk.team) ((s.looksAt th.gk.team (reg s th f.a)).filter (· != th.gk.team))

/-- A spill area as its team's core writes it (12 R343). -/
def spillWho (s : State) (k : TeamKey) : Who := { core := s.coreOf k, ctx := s.ctxOf k.job, priv := s.priv k.job, ask := none }

/-- The spill record i of team k, as it reads at its home for a lane, and what the read leaves; none where it does not
read, or an access of the lane's thread to it has still to be performed (05 R156). -/
def spilled (s : State) (th : ThreadKey) (k : TeamKey) (i : Nat) : Option (Nat × State) :=
  match s.transFor th .read (s.spillVa k i) with
  | .ok q u =>
    match u.homeRead (u.coreOf th.gk.team) (u.ctxOf th.gk.team.job) { spad := false, addr := q.pa, n := 8, phys := q } with
    | (.ok bs, v) =>
      if s.conflict th { spad := false, addr := q.pa, n := 8, phys := q } then none else some (leNat bs, v)
    | _ => none
  | _ => none

/-- The event that register a names lies in the range of the lane's context (12 R346). -/
def eventGood (a : BitVec 5) (s : State) (th : ThreadKey) : Prop :=
  ∃ c, s.ctx (s.ctxOf th.gk.team.job) = some c ∧ c.evBase ≤ reg s th a ∧ reg s th a < c.evBase + c.evCount ∧ reg s th a < 2 ^ 16

/-- The event that register a names. -/
def eventOf (a : BitVec 5) (s : State) (th : ThreadKey) : Event := s.event (reg s th a)

/-- FRES and FRES.F as `c f` (12 R348). -/
def Resolves (c : OpFres → Instr) (fault : Bool) : Prop :=
  ∀ f : OpFres,
    LanesInTurn (c f) f.g [f.a.toNat, f.b.toNat] []
      (fun s th => eventGood f.a s th ∧ s.quiet th = true ∧ (eventOf f.a s th).st < 2)
      (fun s th =>
        let e := eventOf f.a s th
        let u := s.setEvent (reg s th f.a)
          { word := eventWord (reg s th f.b % 2 ^ 32) 0 e.dbl (if fault then 3 else 2), waiters := [] }
        status (e.waiters.foldl (fun u w => u.serveWaiter (reg s th f.a) w) u) th f.ps true) ∧
    LanesLeave (c f) f.g [f.a.toNat, f.b.toNat] []
      (fun s th => eventGood f.a s th ∧ s.quiet th = true ∧ 2 ≤ (eventOf f.a s th).st)
      (fun s th =>
        let e := eventOf f.a s th
        (status (s.setEvent (reg s th f.a) { e with word := e.word ||| 4#64 }) th f.ps false).takeTrap th
          { TrapInfo.at .futdbl (s.thread th).pc with
            resume := (s.thread th).pc + 4, r29 := reg s th f.a, r30 := reg s th f.b % 2 ^ 32 })

/-- A KV word of operation op sends its operation once the lane's accesses are performed, waits for the probe home, and
delivers the result or takes the cause (12 R356, R357, 04 R127). -/
def KvWord (c : OpRG → Instr) (op : Nat) (ins : Bool) : Prop :=
  ∀ f : OpRG,
    let rs := [f.a.toNat, f.b.toNat] ++ (if ins then [f.b.toNat + 1] else []) ++ [f.d.toNat]
    (∀ (s : State) (p : Pass) (g : Group) (t : Nat), Issues s (c f) p g → p.sel = [t] → (g.thr t).pred f.g = true →
      g.fullAt p.gk.exe t rs → (s.thread ⟨p.gk, t⟩).kv = none → s.quiet ⟨p.gk, t⟩ = true →
      exec (c f) s = .next ((s.modThread ⟨p.gk, t⟩ (fun u => { u with kv := some {
        op := op
        desc := xreg s ⟨p.gk, t⟩ f.a.toNat
        key := xreg s ⟨p.gk, t⟩ f.b.toNat
        pblk := if ins then xreg s ⟨p.gk, t⟩ (f.b.toNat + 1) % 2 ^ 32 else 0
        since := s.kvLog.length
        out := none } })).holdSet p [] false)) ∧
    LanesInTurn (c f) f.g rs [f.d.toNat]
      (fun s th => ∃ k r acq, (s.thread th).kv = some k ∧ k.out = some (.result r acq))
      (fun s th => match (s.thread th).kv.bind (fun k => k.out) with
        | some (.result r acq) =>
          let u := (s.modThread th (fun t => { t with kv := none })).clearPoison th f.d.toNat
          let u := if acq = true then u.acquire th else u
          u.modThread th (fun t => (t.wn false f.d.toNat r.toNat
            ((s.thread th).tainted false [f.a, f.b] || (ins && (s.thread th).taintOf false (f.b.toNat + 1)))).advance)
        | _ => s) ∧
    LanesLeave (c f) f.g rs [f.d.toNat]
      (fun s th => ∃ k x va, (s.thread th).kv = some k ∧ k.out = some (.fault x va))
      (fun s th => match (s.thread th).kv.bind (fun k => k.out) with
        | some (.fault x va) =>
          (s.modThread th (fun t => { t with kv := none })).takeTrap th (.xlat x va (s.thread th).pc)
        | _ => s) ∧
    LanesLeave (c f) f.g rs [f.d.toNat]
      (fun s th => ∃ k va, (s.thread th).kv = some k ∧ k.out = some (.ecc va))
      (fun s th => match (s.thread th).kv.bind (fun k => k.out) with
        | some (.ecc va) => (s.modThread th (fun t => { t with kv := none })).takeTrap th (.eccAt va (s.thread th).pc)
        | _ => s)

/-- The record of an ATTD (04 R130). -/
def attAt (f : OpDA) (s : State) (th : ThreadKey) : Nat := leNat (s.spadRead th.gk.team (reg s th f.a) 64)

/-- The fields of that record. -/
def attFields (f : OpDA) (s : State) (th : ThreadKey) : AttRec := AttRec.ofNat (attAt f s th)

/-- What an ATTD reads of its table, as it issues (04 R119). -/
def attReads (_ : OpDA) (s : State) (th : ThreadKey) : KvRead :=
  s.kvRead (s.readsWho th)

/-- An ATTD comes to its checks: the record is aligned, the lane's accesses are performed, the record reads without error. -/
def attChecked (f : OpDA) (s : State) (th : ThreadKey) : Prop :=
  th.gk.exe = false ∧ reg s th f.a % 64 = 0 ∧ reg s th f.a < Config.spadBytes ∧ s.quiet th = true ∧
  s.spadEcc th.gk.team (reg s th f.a) 64 = false

/-- It has a good record and the descriptor d of a KV table, of which it names a head, and the block list reads as `list`. -/
def attTable (f : OpDA) (s : State) (th : ThreadKey) (d : TableDesc) (list : List Nat) : Prop :=
  let r := attFields f s th
  attChecked f s th ∧ attReserved (attAt f s th) = false ∧ readDesc (attReads f s th) r.desc = .ok (some d) ∧ d.kind = 0 ∧
  r.kvh ≤ d.hkv ∧ walked s (s.readsWho th) ((linePieces r.list (4 * r.nblk)).map (fun p => p.1)) ∧
  ∃ bs, s.readVirt (s.readsWho th) r.list (4 * r.nblk) = .ok bs ∧ list = listOf (leNat bs) r.nblk

/-- Lanes whose ATTD meets C get code v in d, and nothing is sent (12 R358). -/
def AttdGives (C : OpDA → State → ThreadKey → Prop) (v : Nat) : Prop :=
  ∀ f : OpDA, LanesInTurn (.attd f) f.g [f.a.toNat, f.d.toNat] [f.d.toNat] (C f)
    (fun s th => gives (s.forget (.reads th)) th f.d v (taints s th [f.a]))

end Sys2Proof.Claims

open Sys2Proof.Claims

/-- FENCE, JOIN and ICSYNC.dev let a lane go on once what they wait for has been performed. A FENCE whose lane has no pop
in flight, as a release no access to be performed, as an acquire no read to be bound, lets the lane go on, and as an
acquire of cluster scope or wider discards the L1 of its core. A JOIN whose lane has no pop in flight lets it go on
once no command of the named streams accepted before its first execution is in flight; where none of its lanes may go
on, each notes that moment at once, and the set waits. A POISONED destination counts as delivered (log 55, DEDUCED).
ICSYNC.dev, once the lane's accesses and commands, and the drains of its group, are performed, discards every line of
every instruction cache and the group's capture. (R146, R151, R154, R163, R239, R263, R264) -/
def Obligations.FencesAndJoinsWaitForEarlierWork : Prop :=
  (∀ f : OpFence, f.os ≠ 0#4 → LanesInTurn (.fence f) f.g [] []
    (fun s th => (s.thread th).popping = false ∧ ((Order.ofOs f.os).rel = true → s.quiet th = true) ∧
      ((Order.ofOs f.os).acq = true → s.reading th = false))
    (fun s th => onward (if (Order.ofOs f.os).acq ∧ 3 ≤ (Order.ofOs f.os).scope then s.clearL1 (s.coreOf th.gk.team) else s) th)) ∧
  (∀ f : OpJoin, LanesInTurn (.join f) f.g [] []
    (fun s th => (s.thread th).popping = false ∧
      ∀ tm, s.team th.gk.team = some tm → tm.joining f.mask (((s.thread th).mark).getD (s.nowId th.gk.team)) = false)
    (onThread (fun t => { t with mark := none, pc := t.pc + 4, xfer := false }))) ∧
  (∀ (f : OpJoin) (s : State) (p : Pass) (g : Group) (tm : Team), Issues s (.join f) p g → p.sel ≠ [] → s.team p.gk.team = some tm →
    (∀ t ∈ p.sel, (g.thr t).pred f.g = true ∧ ((g.thr t).popping = true ∨
      tm.joining f.mask ((g.thr t).mark.getD (s.nowId p.gk.team)) = true)) →
    exec (.join f) s = .next ((p.sel.foldl (fun u t => u.modThread ⟨p.gk, t⟩ (fun x =>
      { x with mark := some (x.mark.getD (s.nowId p.gk.team)) })) s).holdSet p [] false)) ∧
  ∀ f : OpG, LanesInTurn (.icsyncDev f) f.g [] [] (fun s th => s.quiet th = true ∧ s.commanding th = false)
    (fun s th => onward ({ s with cores := s.cores.map (fun c : Nat × Core => (c.1, { c.2 with icache := [] })) }.modGroup th.gk
      (fun g => { g with loop := none })) th)

/-- The completion check of a phaser follows its pseudocode. ph_check of a phaser whose BCNT is below 0 sets BCF and
completes the phase poisoned, with a byte-count fault; of one with NARR = NSIG and BCNT = 0 it completes the phase
with POIS; of any other it changes nothing. A completion raises PHASE by 1 modulo 2^32, zeroes NARR, BCNT and POIS,
wakes each thread that waits for a phase now complete, with its result, and leaves in WMAP the groups that still hold
a waiting thread. A credit of n bytes reads the fields as they stand then, subtracts n from BCNT, sets POIS if it is
poisoned or the phaser's line is uncorrectable (log 70, DEDUCED), and runs the check, so that it counts against the
phase it finds. (R108, R336, R337) -/
def Obligations.PhasersCountAndComplete : Prop :=
  ∀ (s : State) (k : TeamKey) (off : Nat),
    let p := s.phaser k off
    let complete (p : Phaser) (pz bc : Bool) : State :=
      let u : State := { s with groups := s.groups.map (fun g : Group => if g.key.team = k then { g with threads := g.threads.map (fun th : Thread =>
        match th.waitsOn off with
        | some b => if phaseDone ((p.phase + 1) % 2 ^ 32) b then { th with
            blk := none
            wres := some { off := off, phase := p.phase, pz := pz, bc := bc, timeout := false, bcf := p.bcf } } else th
        | none => th) } else g) }
      u.setPhaser k off { phase := (p.phase + 1) % 2 ^ 32, nsig := p.nsig, narr := 0, bcnt := 0, pois := false, bcf := p.bcf
                          wmap := u.phWaiters k off }
    (p.bcnt < 0 → s.phCheck k off = complete { p with bcf := true } true true) ∧
    (p.bcnt = 0 → p.narr = p.nsig → s.phCheck k off = complete p p.pois false) ∧
    (0 < p.bcnt ∨ (p.bcnt = 0 ∧ p.narr ≠ p.nsig) → s.phCheck k off = s) ∧
    ∀ (n : Nat) (bad : Bool), s.phCredit k off n bad =
      (s.setPhaser k off { p with bcnt := p.bcnt - n, pois := p.pois || bad || s.spadEcc k off 32 }).phCheck k off

/-- The phaser words act on the phaser that register a names, and wait or report as R337 and R338 say. PINIT writes the
reset fields with PHASE b. PREG gives up a registration the thread holds there, then fills a free slot with the role,
counts a signaller, and gives PHASE to d. PDEREG takes the registration away. PARR of a signaller that has not arrived
counts it, gives d the phase, runs the check. PBYTES adds b, which is not negative, to BCNT while the sum stays below
2^31, and runs the check. PTEST gives DONE and BCF. PWAIT and PTEST.W of a waiter end at once on a complete phase,
block on another, and deliver the result they are given. BADARG is raised by PREG of a thread without a free slot, by
PARR of a thread that is no signaller or has arrived in the phase, by PBYTES of a negative b or of a sum from 2^31 on,
by PWAIT and PTEST.W of a thread that is no waiter, and by every one of these words for an offset that is not a
multiple of 32 in the scratchpad. (R255, R332, R333, R334, R335, R337, R338, R339, R391) -/
def Obligations.PhaserWordsActOnTheirPhaser : Prop :=
  (∀ f : OpAB, LanesInTurn (.pinit f) f.g [f.a.toNat, f.b.toNat] [] (phaserTurn f.a true) (fun s th =>
    onward (s.setPhaser th.gk.team (reg s th f.a)
      { phase := reg s th f.b % 2 ^ 32, nsig := 0, narr := 0, bcnt := 0, pois := false, bcf := false, wmap := 0 }) th)) ∧
  (∀ f : OpPreg, LanesInTurn (.preg f) f.g [f.a.toNat, f.d.toNat] [f.d.toNat]
    (fun s th => phaserGood f.a s th ∧
      none ∈ ((if ((s.thread th).regSlot (reg s th f.a)).isSome then s.phDereg th (reg s th f.a) else s).thread th).slots)
    (registered f)) ∧
  (∀ f : OpPreg, LanesLeave (.preg f) f.g [f.a.toNat, f.d.toNat] [f.d.toNat]
    (fun s th => phaserThere f.a s th ∧ (s.thread th).regSlot (reg s th f.a) = none ∧ none ∉ (s.thread th).slots)
    (takes .badarg)) ∧
  (∀ f : OpA, LanesInTurn (.pdereg f) f.g [f.a.toNat] [] (phaserGood f.a) (fun s th => onward (s.phDereg th (reg s th f.a)) th)) ∧
  (∀ f : OpDA, LanesInTurn (.parr f) f.g [f.a.toNat, f.d.toNat] [f.d.toNat]
    (fun s th => phaserGood f.a s th ∧ s.quiet th = true ∧
      ∃ r, (s.thread th).regSlot (reg s th f.a) = some r ∧ r.sig = true ∧ r.last ≠ some (phaserOf f.a s th).phase)
    (fun s th =>
      let p := phaserOf f.a s th
      let u := s.modThread th (fun t => t.modRegSlot (reg s th f.a) (fun x => { x with last := some p.phase }))
      gives (checked f.a s u th { p with narr := p.narr + 1 }) th f.d p.phase (taints s th [f.a]))) ∧
  (∀ f : OpDA, LanesLeave (.parr f) f.g [f.a.toNat, f.d.toNat] [f.d.toNat]
    (fun s th => (phaserThere f.a s th ∧ ∀ r, (s.thread th).regSlot (reg s th f.a) = some r → r.sig = false) ∨
      (phaserGood f.a s th ∧ ∀ r, (s.thread th).regSlot (reg s th f.a) = some r → r.last = some (phaserOf f.a s th).phase))
    (takes .badarg)) ∧
  (∀ f : OpAB, LanesInTurn (.pbytes f) f.g [f.a.toNat, f.b.toNat] []
    (fun s th => phaserGood f.a s th ∧ 0 ≤ sextN 32 (reg s th f.b) ∧
      (phaserOf f.a s th).bcnt + sextN 32 (reg s th f.b) < 2 ^ 31)
    (fun s th =>
      let p := phaserOf f.a s th
      onward (checked f.a s s th { p with bcnt := p.bcnt + sextN 32 (reg s th f.b) }) th)) ∧
  (∀ f : OpAB, LanesLeave (.pbytes f) f.g [f.a.toNat, f.b.toNat] []
    (fun s th => (phaserThere f.a s th ∧ sextN 32 (reg s th f.b) < 0) ∨
      (phaserGood f.a s th ∧ 2 ^ 31 ≤ (phaserOf f.a s th).bcnt + sextN 32 (reg s th f.b)))
    (takes .badarg)) ∧
  (∀ f : OpRG, LanesInTurn (.ptest f) f.g [f.a.toNat, f.b.toNat, f.d.toNat] [f.d.toNat]
    (fun s th => phaserSeen f.a s th ∧ completePhase (phaserOf f.a s th).phase (reg s th f.b % 2 ^ 32))
    (fun s th => gives (s.acquire th) th f.d (1 + (if (phaserOf f.a s th).bcf then 8 else 0)) (taints s th [f.a, f.b]))) ∧
  (∀ f : OpRG, LanesInTurn (.ptest f) f.g [f.a.toNat, f.b.toNat, f.d.toNat] [f.d.toNat]
    (fun s th => phaserSeen f.a s th ∧ ¬completePhase (phaserOf f.a s th).phase (reg s th f.b % 2 ^ 32))
    (fun s th => gives s th f.d (if (phaserOf f.a s th).bcf then 8 else 0) (taints s th [f.a, f.b]))) ∧
  (∀ f : OpPwait, Waits (.pwait f) f.g [f.a.toNat, f.b.toNat, f.b.toNat + 1] [] f.a f.b false
    (fun th s r => s.modThread th (fun t => t.setPred f.d (r.pz || r.timeout)))) ∧
  (∀ f : OpRG, Waits (.ptestW f) f.g [f.a.toNat, f.b.toNat, f.b.toNat + 1, f.d.toNat] [f.d.toNat] f.a f.b true
    (fun th s r => (s.clearPoison th f.d.toNat).modThread th (fun t => t.wn th.gk.exe f.d.toNat
      ((if r.timeout then 4 else 1) + (if r.pz then 2 else 0) + (if r.bcf then 8 else 0))
      ((s.thread th).tainted th.gk.exe [f.a, f.b] || (s.thread th).taintOf th.gk.exe (f.b.toNat + 1))))) ∧
  (∀ f : OpAB, Misplaced (.pinit f) f.g [f.a.toNat, f.b.toNat] [] f.a ∧ Misplaced (.pbytes f) f.g [f.a.toNat, f.b.toNat] [] f.a) ∧
  (∀ f : OpPreg, Misplaced (.preg f) f.g [f.a.toNat, f.d.toNat] [f.d.toNat] f.a) ∧
  (∀ f : OpA, Misplaced (.pdereg f) f.g [f.a.toNat] [] f.a) ∧
  (∀ f : OpDA, Misplaced (.parr f) f.g [f.a.toNat, f.d.toNat] [f.d.toNat] f.a) ∧
  ∀ f : OpRG, Misplaced (.ptest f) f.g [f.a.toNat, f.b.toNat, f.d.toNat] [f.d.toNat] f.a

/-- SPAWN, TAKE and STEAL move one record each, and report it in their status. In a job with tasks, a pair below r31, on a
deque that no STEAL has looked at in this cycle (19 R434): SPAWN, a release, pushes the record at the bottom of a
hardware part with room, else writes it at spill index s and adds 1 to s and the spill counter, else (s = C) leaves a
false status. TAKE takes spill index s - 1 while s > 0, else the bottom of the hardware part, else leaves a false
status. STEAL of a victim takes the top of its hardware part, else its spill index s - 1, where no STEAL from a higher
core has looked at its deques in this cycle; selector 31 moves the thief's cursor behind the victim; without a record
the status is false; any other selector raises BADARG. A record received is an acquire at .clu scope. (R341, R342,
R343, R344, R345, R398, R434) -/
def Obligations.DequesHoldTheirRecords : Prop :=
  (∀ (f : OpSpawn) (e : Bool),
    LanesInTurnIf (.spawn f) f.g (tasksIn e f.a) (recordOfRegs e f.a) []
      (fun s th => unrobbed s th.gk.team ∧ s.quiet th = true ∧ ∃ tm, s.team th.gk.team = some tm ∧ tm.deque.length < 256)
      (fun s th => status (s.modTeam th.gk.team (fun t => { t with deque := t.deque ++ [BitVec.ofNat 64 (recordIn s th f.a)] })) th f.ps true) ∧
    LanesInTurnIf (.spawn f) f.g (tasksIn e f.a) (recordOfRegs e f.a) []
      (fun s th => unrobbed s th.gk.team ∧ s.quiet th = true ∧ ∃ tm q u, s.team th.gk.team = some tm ∧ 256 ≤ tm.deque.length ∧
        tm.spill ≠ s.spillCap th.gk.team ∧ s.transFor th .write (s.spillVa th.gk.team tm.spill) = .ok q u)
      (fun s th => match (s.team th.gk.team).map (fun tm => s.transFor th .write (s.spillVa th.gk.team tm.spill)) with
        | some (.ok q u) => status ((u.homeWrite (spillWho s th.gk.team) q (leBytes 8 (recordIn s th f.a))).modTeam th.gk.team
            (fun t => { t with spill := t.spill + 1, spillc := t.spillc + 1 })) th f.ps true
        | _ => s) ∧
    LanesInTurnIf (.spawn f) f.g (tasksIn e f.a) (recordOfRegs e f.a) []
      (fun s th => unrobbed s th.gk.team ∧ s.quiet th = true ∧ ∃ tm, s.team th.gk.team = some tm ∧ 256 ≤ tm.deque.length ∧
        tm.spill = s.spillCap th.gk.team)
      (fun s th => status s th f.ps false)) ∧
  (∀ (f : OpTake) (e : Bool),
    LanesInTurnIf (.take f) f.g (tasksIn e f.d) (recordOfRegs e f.d) (recordOfRegs e f.d)
      (fun s th => unrobbed s th.gk.team ∧ ∃ tm v, s.team th.gk.team = some tm ∧ tm.spill = 0 ∧ tm.deque.getLast? = some v)
      (fun s th => match (s.team th.gk.team).bind (fun tm => tm.deque.getLast?) with
        | some v => received (s.modTeam th.gk.team (fun t => { t with deque := t.deque.dropLast })) th f.ps f.d v.toNat false
        | none => s) ∧
    LanesInTurnIf (.take f) f.g (tasksIn e f.d) (recordOfRegs e f.d) (recordOfRegs e f.d)
      (fun s th => unrobbed s th.gk.team ∧ ∃ tm x, s.team th.gk.team = some tm ∧ 0 < tm.spill ∧
        spilled s th th.gk.team (tm.spill - 1) = some x)
      (fun s th => match (s.team th.gk.team).bind (fun tm => spilled s th th.gk.team (tm.spill - 1)) with
        | some (v, u) => received (u.modTeam th.gk.team (fun t => { t with spill := t.spill - 1 })) th f.ps f.d v false
        | none => s) ∧
    LanesInTurnIf (.take f) f.g (tasksIn e f.d) (recordOfRegs e f.d) (recordOfRegs e f.d)
      (fun s th => unrobbed s th.gk.team ∧ ∃ tm, s.team th.gk.team = some tm ∧ tm.spill = 0 ∧ tm.deque = [])
      (fun s th => status s th f.ps false)) ∧
  ∀ (f : OpSteal) (e : Bool),
    let rs := f.a.toNat :: recordOfRegs e f.d
    let free (s : State) (th : ThreadKey) : Prop := s.stealWaits th.gk.team (reg s th f.a) = false
    let victim (s : State) (th : ThreadKey) (v : Nat) (tm : Team) : Prop :=
      s.victim th.gk.team (reg s th f.a) = some (some v) ∧ s.team { th.gk.team with idx := v } = some tm
    let moved (s u : State) (th : ThreadKey) (v : Nat) : State :=
      if reg s th f.a = 31 then u.modTeam th.gk.team (fun t => { t with
        cursor := (v + 1) % ((s.cluster th.gk.team).1 * (s.cluster th.gk.team).2.1) }) else u
    (∀ v, LanesInTurnIf (.steal f) f.g (tasksIn e f.d) rs (recordOfRegs e f.d)
      (fun s th => free s th ∧ ∃ tm x rest, victim s th v tm ∧ tm.deque = x :: rest)
      (fun s th => match s.team { th.gk.team with idx := v } with
        | some tm => received (moved s ((looked f s th).modTeam { th.gk.team with idx := v } (fun t => { t with deque := tm.deque.tail })) th v)
            th f.ps f.d (tm.deque.headD 0).toNat (taints s th [f.a])
        | none => s)) ∧
    (∀ v, LanesInTurnIf (.steal f) f.g (tasksIn e f.d) rs (recordOfRegs e f.d)
      (fun s th => free s th ∧ ∃ tm x, victim s th v tm ∧ tm.deque = [] ∧
        spilled (looked f s th) th { th.gk.team with idx := v } (tm.spill - 1) = some x)
      (fun s th => match (s.team { th.gk.team with idx := v }).bind (fun tm =>
          spilled (looked f s th) th { th.gk.team with idx := v } (tm.spill - 1)) with
        | some (x, u) => received (moved s (u.modTeam { th.gk.team with idx := v } (fun t => { t with spill := t.spill - 1 })) th v) th
            f.ps f.d x (taints s th [f.a])
        | none => s)) ∧
    LanesInTurnIf (.steal f) f.g (tasksIn e f.d) rs (recordOfRegs e f.d)
      (fun s th => free s th ∧ s.victim th.gk.team (reg s th f.a) = some none) (fun s th => status (looked f s th) th f.ps false) ∧
    LanesLeaveIf (.steal f) f.g (tasksIn e f.d) rs (recordOfRegs e f.d)
      (fun s th => s.victim th.gk.team (reg s th f.a) = none) (takes .badarg)

/-- The future words act on the event that register a names as the pseudocode of R348 says. With an id in the context's
event range: FNEW makes a future that is not PENDING with waiters PENDING with a state word that is clear otherwise
(waiter records of an EMPTY one stay, log 16), and with mode 1 binds it to the thread, which has no binding. FRES and
FRES.F, releases, resolve an EMPTY or PENDING future, serve every waiter (where software has written over its overflow
record, or not: R374 leaves it undefined, log 47) and leave a true status; on another they set DBL, leave a false
status and take FUTDBL. FREG decrements the counter of a future that is over, else records the node where a record is
free. FWAIT gives VALUE of a future that is over, and blocks on another, recording its group where a record is free.
FSTAT and FSTAT.HI give the state word and its upper half. For every one of these words an id outside the range raises
BADARG. (R346, R347, R348, R349, R350, R374) -/
def Obligations.FuturesFollowTheirPseudocode : Prop :=
  (∀ f : OpFnew, LanesInTurn (.fnew f) f.g [f.a.toNat] []
    (fun s th => eventGood f.a s th ∧ ((eventOf f.a s th).st = 1 → (eventOf f.a s th).wcnt = 0) ∧
      (f.b = 1#5 → (s.thread th).fbind = none) ∧ s.reading th = false)
    (fun s th =>
      let u := s.setEvent (reg s th f.a) { word := 1#64, waiters := (eventOf f.a s th).waiters }
      onward (if f.b = 1#5 then u.modThread th (fun t => { t with fbind := some (reg s th f.a) }) else u) th)) ∧
  (∀ f : OpFnew, LanesLeave (.fnew f) f.g [f.a.toNat] []
    (fun s th => eventGood f.a s th ∧ (((eventOf f.a s th).st = 1 ∧ 0 < (eventOf f.a s th).wcnt) ∨
      (f.b = 1#5 ∧ (s.thread th).fbind ≠ none)))
    (takes .badarg)) ∧
  Resolves .fres false ∧ Resolves .fresF true ∧
  (∀ (s : State) (id : Nat) (w : Waiter),
    let served := match w.who with | .inl gk => s.wakeFuture id gk | .inr n => s.decNode n id
    (w.area = none → s.serveWaiter id w = served) ∧
    ∀ r, w.area = some r → (s.intact r = true → s.serveWaiter id w = served) ∧
      (s.intact r = false → s.serveWaiter id w = s.bump ∨ s.serveWaiter id w =
        (match w.who with | .inl gk => s.bump.wakeFuture id gk | .inr n => s.bump.decNode n id))) ∧
  (∀ f : OpFres, LanesInTurn (.freg f) f.g [f.a.toNat, f.b.toNat] []
    (fun s th => eventGood f.a s th ∧ s.quiet th = true)
    (fun s th =>
      let n := reg s th f.b % 2 ^ 32
      let id := reg s th f.a
      if 2 ≤ (eventOf f.a s th).st then status (s.decNode n id) th f.ps true
      else match s.waiterRoom id th.gk.team.job with
        | some area => status (s.addWaiter id (.inr n) area) th f.ps true
        | none => status s th f.ps false)) ∧
  (∀ f : OpSteal, LanesInTurn (.fwait f) f.g [f.a.toNat, f.d.toNat] [f.d.toNat]
    (fun s th => eventGood f.a s th ∧ 2 ≤ (eventOf f.a s th).st)
    (fun s th => ((s.acquire th).clearPoison th f.d.toNat).modThread th (fun t =>
      ((t.wn th.gk.exe f.d.toNat (eventOf f.a s th).value (taints s th [f.a])).setPred f.ps ((eventOf f.a s th).st == 2)).advance))) ∧
  (∀ f : OpSteal, LanesLeave (.fwait f) f.g [f.a.toNat, f.d.toNat] [f.d.toNat]
    (fun s th => eventGood f.a s th ∧ (eventOf f.a s th).st < 2 ∧ s.reading th = false)
    (fun s th =>
      let id := reg s th f.a
      if (eventOf f.a s th).waiters.any (fun w => w.who == .inl th.gk) then s.block th (.future id true)
      else match s.waiterRoom id th.gk.team.job with
        | some area => (s.addWaiter id (.inl th.gk) area).block th (.future id true)
        | none => s.block th (.future id false))) ∧
  (∀ f : OpDa, LanesInTurn (.fstat f) f.g [f.a.toNat, f.d.toNat] [f.d.toNat] (eventGood f.a)
    (fun s th => gives (if 2 ≤ (eventOf f.a s th).st then s.acquire th else s) th f.d (eventOf f.a s th).word.toNat
      (taints s th [f.a]))) ∧
  (∀ f : OpDa, LanesInTurn (.fstatHi f) f.g [f.a.toNat, f.d.toNat] [f.d.toNat] (eventGood f.a)
    (fun s th => gives (if 2 ≤ (eventOf f.a s th).st then s.acquire th else s) th f.d (eventOf f.a s th).value
      (taints s th [f.a]))) ∧
  (∀ f : OpFnew, LanesLeave (.fnew f) f.g [f.a.toNat] [] (fun s th => ¬eventGood f.a s th) (takes .badarg)) ∧
  (∀ (f : OpFres) (i : Instr), i = .fres f ∨ i = .fresF f ∨ i = .freg f →
    LanesLeave i f.g [f.a.toNat, f.b.toNat] [] (fun s th => ¬eventGood f.a s th) (takes .badarg)) ∧
  (∀ f : OpSteal, LanesLeave (.fwait f) f.g [f.a.toNat, f.d.toNat] [f.d.toNat] (fun s th => ¬eventGood f.a s th) (takes .badarg)) ∧
  ∀ (f : OpDa) (i : Instr), i = .fstat f ∨ i = .fstatHi f →
    LanesLeave i f.g [f.a.toNat, f.d.toNat] [f.d.toNat] (fun s th => ¬eventGood f.a s th) (takes .badarg)

/-- JLAUNCH, TRIGGER, JYIELD and LEAVE do what R351 to R355 say. JLAUNCH of an aligned record that reads without error, a
release, gives (while no checkpoint runs, log 32) d the job id and a true status where the scheduler takes the job,
else the refusal status and a false one. TRIGGER, a release, marks the team and resolves TEV where every team has
triggered or ended. JYIELD moves each acting thread past the word and yields the team, and the pass ends. LEAVE for 0
returns the group's reservation to LEVEL; else it returns it, unless that of an earlier lane stands until the grant
(log 30), asks for the tokens of a and holds the set, and once they are granted, which makes them the reservation, has
them in d; a request above the island's rate at the moment it is made raises BADARG. A misaligned record, or one past
the scratchpad, of JLAUNCH raises BADARG. (R255, R351, R352, R353, R354, R355, R404) -/
def Obligations.JobWordsLaunchTriggerYieldAndReserve : Prop :=
  (∀ f : OpSteal, LanesInTurn (.jlaunch f) f.g [f.a.toNat, f.d.toNat] [f.d.toNat]
    (fun s th => reg s th f.a % 64 = 0 ∧ reg s th f.a < Config.spadBytes ∧ s.quiet th = true ∧ s.ckpt = false ∧
      s.spadEcc th.gk.team (reg s th f.a) 64 = false)
    (fun s th =>
      let done (u : State) (v : Nat) (ok : Bool) : State := (u.clearPoison th f.d.toNat).modThread th (fun t =>
        ((t.wn th.gk.exe f.d.toNat v (taints s th [f.a])).setPred f.ps ok).advance)
      match s.acceptJob (leNat (s.spadRead th.gk.team (reg s th f.a) 64)) (some (s.ctxOf th.gk.team.job)) with
      | .ok (id, u) => done u id true
      | .error e => done s e false)) ∧
  (∀ f : OpSteal, LanesLeave (.jlaunch f) f.g [f.a.toNat, f.d.toNat] [f.d.toNat]
    (fun s th => reg s th f.a % 64 ≠ 0 ∨ Config.spadBytes ≤ reg s th f.a) (takes .badarg)) ∧
  (∀ f : OpG, LanesInTurn (.trigger f) f.g [] [] (fun s th => s.quiet th = true) (fun s th =>
    onward ((s.modTeam th.gk.team (fun t => { t with trig := true })).tevCheck th.gk.team.job) th)) ∧
  (∀ (f : OpG) (s : State) (p : Pass) (g : Group), Issues s (.jyield f) p g → p.acting g f.g ≠ [] →
    exec (.jyield f) s = .next ((s.inTurn p g f.g (fun s th => onward (s.yieldTeam th.gk.team) th) p.sel).withSel [])) ∧
  (∀ f : OpDa, LanesInTurn (.leave f) f.g [f.a.toNat, f.d.toNat] [f.d.toNat]
    (fun s th => reg s th f.a % 2 ^ 32 = 0)
    (fun s th => gives (s.endReservation th.gk) th f.d 0 (taints s th [f.a]))) ∧
  (∀ f : OpDa, LanesInTurn (.leave f) f.g [f.a.toNat, f.d.toNat] [f.d.toNat]
    (fun s th => reg s th f.a % 2 ^ 32 ≠ 0 ∧ ∃ g, s.group th.gk = some g ∧ g.leave = some (reg s th f.a % 2 ^ 32))
    (fun s th => gives (s.modGroup th.gk (fun g => { g with leave := none })) th f.d
      (reg s th f.a % 2 ^ 32) (taints s th [f.a]))) ∧
  (∀ (f : OpDa) (s : State) (p : Pass) (g : Group) (t : Nat), Issues s (.leave f) p g → p.sel = [t] →
    (g.thr t).pred f.g = true → g.fullAt p.gk.exe t [f.a.toNat, f.d.toNat] →
    let th : ThreadKey := ⟨p.gk, t⟩
    let r := reg s th f.a % 2 ^ 32
    r ≠ 0 → r ≤ (s.island (s.coreOf p.gk.team)).rate ∨ s.leaveAsked p.gk = true → g.leave ≠ some r → s.leaveStands th f.g = false →
    exec (.leave f) s = .next (((s.endReservation p.gk).ask (s.coreOf p.gk.team)
      { who := .inl p.gk, cost := r, cyc := s.cycle, rank := energyRank p.gk, swap := true }).holdSet p [] true)) ∧
  ∀ f : OpDa, LanesLeave (.leave f) f.g [f.a.toNat, f.d.toNat] [f.d.toNat]
    (fun s th => (s.island (s.coreOf th.gk.team)).rate < reg s th f.a % 2 ^ 32 ∧ s.leaveAsked th.gk = false ∧
      ∀ g, s.group th.gk = some g → g.leave ≠ some (reg s th f.a % 2 ^ 32)) (takes .badarg)

/-- SRET, TLBINV, CTXQ and HALTQ do for context 0 what R360 to R363 say. SRET of a thread that a supervisor cause has
stopped clears the stop, sets its PC to the resume PC, or with M past the raising instruction, and gives 0; of any
other, and of a thread of a group that has ended, it gives 1 and changes nothing. TLBINV discards the covered
translations once no covered access waits to be performed, and holds its set until then. CTXQ gives the item of the
context. HALTQ sets or clears the halt of the quadrant and gives what it was. A name, core or reserved bit out of
range raises BADARG (that a core from 576 on does is log 30, DEDUCED). (R34, R359, R360, R361, R362, R363, R396) -/
def Obligations.PrivilegedWordsServeTheSystem : Prop :=
  (∀ f : OpSret, LanesInTurn (.sret f) f.g [f.a.toNat, f.d.toNat] [f.d.toNat]
    (fun s th => reg s th f.a < 2 ^ 23 ∧ ∃ x g st, s.named (reg s th f.a) = some x ∧ s.group x.gk = some g ∧ g.ended = false ∧
      (g.thr x.thr).stop = some st ∧ st.debug = false)
    (fun s th => match s.named (reg s th f.a) with
      | some x => (match (s.thread x).stop with
        | some st => gives (s.modThread x (fun t => { t with
            stop := none
            pc := if f.m then st.raising + 4 else st.resume
            xfer := false
            wres := if f.m then none else t.wres
            kv := if f.m then none else t.kv
            mark := if f.m then none else t.mark
            inv := if f.m then none else t.inv })) th f.d 0 (taints s th [f.a])
        | none => s)
      | none => s)) ∧
  (∀ f : OpSret, LanesInTurn (.sret f) f.g [f.a.toNat, f.d.toNat] [f.d.toNat]
    (fun s th => reg s th f.a < 2 ^ 23 ∧ ∀ x g st, s.named (reg s th f.a) = some x → s.group x.gk = some g →
      (g.thr x.thr).stop = some st → st.debug = true ∨ g.ended = true)
    (fun s th => gives s th f.d 1 (taints s th [f.a]))) ∧
  (∀ f : OpSret, LanesLeave (.sret f) f.g [f.a.toNat, f.d.toNat] [f.d.toNat] (fun s th => 2 ^ 23 ≤ reg s th f.a) (takes .badarg)) ∧
  (∀ f : OpTlbinv, LanesInTurn (.tlbinv f) f.g [f.a.toNat, f.d.toNat] []
    (fun s th => s.invWaits f.k.toNat (reg s th f.d) (reg s th f.a) = false)
    (fun s th => (s.invalidate f.k.toNat (reg s th f.d) (reg s th f.a)).modThread th (fun t => { t.advance with inv := none }))) ∧
  (∀ (f : OpTlbinv) (s : State) (p : Pass) (g : Group) (t : Nat), Issues s (.tlbinv f) p g → p.sel = [t] →
    (g.thr t).pred f.g = true → g.fullAt p.gk.exe t [f.a.toNat, f.d.toNat] →
    let th : ThreadKey := ⟨p.gk, t⟩
    s.invWaits f.k.toNat (reg s th f.d) (reg s th f.a) = true →
    exec (.tlbinv f) s = .next ((s.modThread th (fun u => { u with inv := some (f.k.toNat, reg s th f.d, reg s th f.a) })).holdSet p [] false)) ∧
  (∀ f : OpCtxq, LanesInTurn (.ctxq f) f.g [f.a.toNat, f.d.toNat] [f.d.toNat] (fun _ _ => True) (fun s th =>
    let r := s.ctxItem (reg s th f.a % 2 ^ 12) f.item.toNat
    gives r.2 th f.d r.1 (taints s th [f.a]))) ∧
  (∀ f : OpDa, LanesInTurn (.haltq f) f.g [f.a.toNat, f.d.toNat] [f.d.toNat]
    (fun s th => reg s th f.a < 2 ^ 13 ∧ bits (reg s th f.a) 9 0 < 576)
    (fun s th =>
      let v := reg s th f.a
      let q := bits v 11 10
      let was := (s.core (bits v 9 0)).halted.getLsbD q
      gives (s.modCore (bits v 9 0) (fun c => { c with
        halted := if bit v 12 then c.halted ||| (1#4 <<< q) else c.halted &&& ~~~(1#4 <<< q) })) th f.d (if was then 1 else 0)
        (taints s th [f.a]))) ∧
  ∀ f : OpDa, LanesLeave (.haltq f) f.g [f.a.toNat, f.d.toNat] [f.d.toNat]
    (fun s th => 2 ^ 13 ≤ reg s th f.a ∨ 576 ≤ bits (reg s th f.a) 9 0) (takes .badarg)

/-- KV and prefix words send one operation and deliver its result; ATTD is accepted or gives its code. KVLOOK, KVINS,
KVDEL, PFXLOOK and PFXINS, in a pass of one ready lane whose accesses are performed, send operation, descriptor, key
and block to the probe home and hold the set. A lane whose result is there writes it to d and goes on, with an acquire
where the table answered HIT or FOUND; a failed access takes XLAT, an uncorrectable one ECC, and leaves nothing
behind. ATTD of an aligned record, once the lane's accesses are performed, gives d the code that R131 and R358 name,
the first in this order: 1 for a reserved bit or a field out of range, 2 for an invalid descriptor or one of another
kind, 1 for a head that the table has not, 3 for a scratchpad range past its end, 4 for a QN that is no block queue
the team produces into (with or without UV). Code 1 for a misaligned QOFF or LAND and for a head above HKV, and the
order, are the model's choice (log 26). A command that is accepted joins the attention stream of the team with code 0.
A misaligned record raises BADARG (log 26). (R119, R127, R130, R131, R138, R140, R356, R357, R358) -/
def Obligations.KvWordsWaitForTheirProbe : Prop :=
  (∀ r : Dword, kvAcquires r = true ↔ bits r.toNat 35 32 = 0 ∨ bits r.toNat 35 32 = 3) ∧
  KvWord .kvlook 0 false ∧ KvWord .kvins 1 true ∧ KvWord .kvdel 2 false ∧ KvWord .pfxlook 3 false ∧ KvWord .pfxins 4 true ∧
  AttdGives (fun f s th => attChecked f s th ∧ attReserved (attAt f s th) = true) 1 ∧
  AttdGives (fun f s th => attChecked f s th ∧ attReserved (attAt f s th) = false ∧
    (readDesc (attReads f s th) (attFields f s th).desc = .ok none ∨
      ∃ d, readDesc (attReads f s th) (attFields f s th).desc = .ok (some d) ∧ d.kind ≠ 0)) 2 ∧
  AttdGives (fun f s th => attChecked f s th ∧ attReserved (attAt f s th) = false ∧
    ∃ d, readDesc (attReads f s th) (attFields f s th).desc = .ok (some d) ∧ d.kind = 0 ∧ d.hkv < (attFields f s th).kvh) 1 ∧
  AttdGives (fun f s th => ∃ d l, attTable f s th d l ∧ (attFields f s th).tooLong d (stackMask l) = true) 3 ∧
  AttdGives (fun f s th => ∃ d l, attTable f s th d l ∧ (attFields f s th).tooLong d (stackMask l) = false ∧
    s.attQueue th.gk (attFields f s th).qn = none) 4 ∧
  (∀ (s : State) (gk : GroupKey) (qn : Nat), s.attQueue gk qn = none ↔
    ∀ t, s.team gk.team = some t → ∀ q ∈ t.queues, q.ref.name = qn → q.mode ≠ .block) ∧
  (∀ f : OpDA, LanesInTurn (.attd f) f.g [f.a.toNat, f.d.toNat] [f.d.toNat]
    (fun s th =>
      let k := th.gk.team
      let r := attFields f s th
      ∃ d l, attTable f s th d l ∧ r.tooLong d (stackMask l) = false ∧ s.attQueue th.gk r.qn ≠ none ∧
        s.spadEcc k r.qoff (4 * d.dim * (r.hq + 1)) = false ∧ s.attInFlight (s.coreOf k) < 16)
    (fun s th =>
      let r := attFields f s th
      let w := s.readsWho th
      match readDesc (attReads f s th) r.desc, s.readVirt w r.list (4 * r.nblk) with
      | .ok (some d), .ok bs =>
        let u := (s.readDone w r.desc 128).readDone w r.list (4 * r.nblk)
        gives ((u.acceptAtt th r d (listOf (leNat bs) r.nblk) (if r.uv then none else u.attQueue th.gk r.qn)).forget (.reads th))
          th f.d 0 (taints s th [f.a])
      | _, _ => s)) ∧
  ∀ f : OpDA, LanesLeave (.attd f) f.g [f.a.toNat, f.d.toNat] [f.d.toNat]
    (fun s th => th.gk.exe = false ∧ (reg s th f.a % 64 ≠ 0 ∨ Config.spadBytes ≤ reg s th f.a)) (takes .badarg)

namespace Sys2Proof.Claims

/-! ### The host -/

/-- A mailbox slot is idle, and no command waits before it (15 R409). -/
def idleSlot (s : State) (ms : Nat) : Prop := ms < 16 ∧ (s.mboxSlot ms).busy = false ∧ s.mq = []

/-- A command that an event names has started on a slot: the slot is busy, with bytes that the manual does not give (log 61). -/
def begun (s : State) (ms : Nat) (c : MCmd) : State :=
  { s.bump with
    mbox := tabSet s.mbox ms { s.mboxSlot ms with busy := true, command := Config.free s.fresh }
    mq := [(ms, c)] }

/-- Mailbox word i does `effect` and completes with a status: the slot is idle again and holds a response with the status, and
MSI-X vector 0 is raised (15 R409, R448). -/
def Completes (s : State) (ms : Nat) (i : Instr) (c : MCmd) (effect : State → State) (st : Nat) : Prop :=
  exec i s = .next (
    let u := effect (begun s ms c)
    { u.bump with
      mq := [], msix := u.msix ||| 1#64
      mbox := tabSet u.mbox ms { u.mboxSlot ms with busy := false, response := respondWith u.fresh st } })

/-- The mailbox word of an instruction: its slot and its command (15 R409). -/
def mailWord (i : Instr) : Option (Nat × MCmd) :=
  match i with
  | .keyLoad ms n u => some (ms, .keyLoad n u)
  | .releaseSlot ms n => some (ms, .releaseSlot n)
  | .createContext ms d => some (ms, .createContext d)
  | .setSaveArea ms c va n => some (ms, .setSaveArea c va n)
  | .setEventRange ms c b n => some (ms, .setEventRange c b n)
  | .setPeerTable ms c n es => some (ms, .setPeerTable c n es)
  | .endCtx ms c => some (ms, .endCtx c)
  | .abandon ms c code => some (ms, .abandon c code)
  | .grantBudget ms j b => some (ms, .grantBudget j b)
  | .grantDeadline ms j d => some (ms, .grantDeadline j d)
  | .setPartitionTable ms sh t => some (ms, .setPartitionTable sh t)
  | .setEnergyTable ms a => some (ms, .setEnergyTable a)
  | .setRateCap ms n r c => some (ms, .setRateCap n r c)
  | .setWindow ms b n => some (ms, .setWindow b n)
  | .setRetransmissionBudget ms n => some (ms, .setRetransmissionBudget n)
  | .exposeRegion ms c lo hi ps w => some (ms, .exposeRegion c lo hi ps w)
  | .checkpoint x => some (x.slot, .checkpoint x.dest)
  | _ => none

/-- The context of an id exists and has not ended. -/
def liveContext (s : State) (c : Nat) : Prop := ∃ x ∈ s.ctxs, x.ctxid = c ∧ x.ended = false

/-- No job of a context is live. -/
def idleContext (s : State) (c : Nat) : Prop := ∀ j ∈ s.jobs, j.ctx = c → j.st = .ended

/-- A context's fields change. -/
def ctxSet (c : Nat) (f : Ctx → Ctx) (s : State) : State := { s with ctxs := s.ctxs.map (fun x => if x.ctxid = c then f x else x) }

end Sys2Proof.Claims

open Sys2Proof.Claims

/-- Power-on, the device-memory window and every mailbox command have their effect. POWER_ON leaves the state after power-
on. A window access under a LOADED slot reads or writes device memory from the window's base, with bytes of all ones
for an uncorrectable read; under another slot a read aborts, a write is discarded, and both are counted. On an idle
slot each mailbox command whose conditions hold has its effect, answers status 0 in the low byte of the response (its
other bits, like the command's bytes, are free values: log 61), leaves the slot idle and raises MSI-X vector 0; a key
load into a slot that is not EMPTY, or whose key does not unwrap, changes no slot. 64 bytes whose last dword the host
writes at its register, and that are no command (which bytes are one is an open function: log 61), answer BADCMD
(status 1). Every mailbox command on a busy slot is discarded and counted. A mode switch starts the ready jobs,
charged with its cycles. ABANDON, SET_PARTITION_TABLE and CHECKPOINT keep their slot busy while they wait: CHECKPOINT
while a slice has a core, or a team is owed a result or a completion that its queues would take. A context that ends
leaves no translation of its own and no line under its slot in an L2 slice; its LOADED slot is DESTROYED. The order in
which rates, contexts, jobs and partitions take these changes, and what a checkpoint holds back and sends, are the
model's reading of R401, R38, R97 and R413 (logs 10, 22, 32, 36). (R37, R38, R41, R97, R374, R378, R387, R401, R408,
R409, R413, R448) -/
def Obligations.TheHostReachesTheDevice : Prop :=
  (∀ s, exec .powerOn s = .next State.reset) ∧
  (∀ (s : State) off len bs, 0 < len → off + len ≤ 2 ^ 30 → (s.slot s.window.2).st = .loaded →
    s.readPhys s.window.2 (s.window.1 + off) len = .ok bs →
    exec (.hostWindowRead off len) s = .next (s.answer (.read bs))) ∧
  (∀ (s : State) off len, 0 < len → off + len ≤ 2 ^ 30 → (s.slot s.window.2).st = .loaded →
    s.readPhys s.window.2 (s.window.1 + off) len = .ecc →
    exec (.hostWindowRead off len) s = .next ((s.countDev 9 1).answer (.readPoisoned (List.replicate len 0xFF)))) ∧
  (∀ (s : State) off len data, 0 < len → off + len ≤ 2 ^ 30 → data ≠ [] → off + data.length ≤ 2 ^ 30 →
    (s.slot s.window.2).st ≠ .loaded → exec (.hostWindowRead off len) s = .next ((s.countDev 9 1).answer .readAbort) ∧
      exec (.hostWindowWrite off data) s = .next (s.countDev 9 1)) ∧
  (∀ (s : State) off data, data ≠ [] → off + data.length ≤ 2 ^ 30 → (s.slot s.window.2).st = .loaded →
    exec (.hostWindowWrite off data) s = .next
      ((s.writePhys s.window.2 (s.window.1 + off) data).dropL1 (s.window.1 + off) data.length)) ∧
  (∀ (s : State) i ms c, mailWord i = some (ms, c) →
    (ms < 16 → (s.mboxSlot ms).busy = true → exec i s = .next (s.bump.countDev 1 1)) ∧
    (16 ≤ ms → exec i s = .next s.bump)) ∧
  (∀ fresh st, st < 256 → (respondWith fresh st).toNat % 256 = st) ∧
  (∀ (s : State) ms n, idleSlot s ms → 1 ≤ n → n ≤ 255 →
    let epoch := (s.slot n).epoch
    ((s.slot n).st = .empty → Completes s ms (.keyLoad ms n true) (.keyLoad n true)
      (fun s => (if epoch = 255 then s.scrub n else s).setSlot n { st := .loaded, epoch := (epoch + 1) % 256 }) 0) ∧
    ((s.slot n).st = .empty → Completes s ms (.keyLoad ms n false) (.keyLoad n false) id 4) ∧
    ((s.slot n).st ≠ .empty → ∀ u, Completes s ms (.keyLoad ms n u) (.keyLoad n u) id 3) ∧
    ((s.slot n).st = .destroyed →
      Completes s ms (.releaseSlot ms n) (.releaseSlot n) (fun s => s.setSlot n { st := .empty, epoch := epoch }) 0)) ∧
  (∀ (s : State) ms (d : CtxDesc), idleSlot s ms → d.ctxid ≤ 4095 → d.part ≤ 7 → d.ownslot ≤ 255 → d.root < 2 ^ 34 →
    (s.shared = true → d.part = 0) → (d.ownslot ≠ 0 → ∀ c ∈ s.ctxs, c.ended = false → c.ownslot = d.ownslot → c.ctxid = d.ctxid) →
    ¬liveContext s d.ctxid →
    Completes s ms (.createContext ms d) (.createContext d) (fun s => { s with
      ctxs := s.ctxs.filter (fun x => x.ctxid != d.ctxid) ++ [{ ctx0 with
        ctxid := d.ctxid, part := d.part, ownslot := d.ownslot, root := d.root, slotmask := d.slotmask }] }) 0) ∧
  (∀ (s : State) ms c, idleSlot s ms → liveContext s c →
    (∀ va size, idleContext s c → va % 65536 = 0 → size % 65536 = 0 → va + size ≤ 2 ^ 64 → canonical va = true →
      Completes s ms (.setSaveArea ms c va size) (.setSaveArea c va size) (ctxSet c (fun x => { x with saveVa := va, saveSize := size })) 0) ∧
    (∀ base n, base + n ≤ 65536 →
      (∀ x ∈ s.ctxs, x.ended = false → x.ctxid ≠ c → x.evBase + x.evCount ≤ base ∨ base + n ≤ x.evBase ∨ n = 0 ∨ x.evCount = 0) →
      Completes s ms (.setEventRange ms c base n) (.setEventRange c base n) (ctxSet c (fun x => { x with evBase := base, evCount := n })) 0) ∧
    (∀ es : List PeerEntry, es.length ≤ 65536 → s.sliceIn c = false →
      Completes s ms (.setPeerTable ms c es.length es) (.setPeerTable c es.length es) (ctxSet c (fun x => { x with peers := es })) 0) ∧
    (∀ lo hi ps w, lo < hi → hi ≤ 2 ^ 64 → (∀ p ∈ ps, p ≤ 65535) →
      Completes s ms (.exposeRegion ms c lo hi ps w) (.exposeRegion c lo hi ps w)
        (ctxSet c (fun x => { x with expo := x.expo ++ [{ lo := lo, hi := hi, peers := ps, write := w }] })) 0) ∧
    (idleContext s c → Completes s ms (.endCtx ms c) (.endCtx c) (fun s => s.finishCtx c) 0) ∧
    (∀ code, code < 2 ^ 32 → idleContext s c → Completes s ms (.abandon ms c code) (.abandon c code) (fun s => s.finishCtx c) 0) ∧
    (∀ code, code < 2 ^ 32 →
      let u := ((s.jobsIn c).filter (fun j => j.aband.isNone)).foldl (fun (s : State) j => s.abandonJob code j)
        (begun s ms (.abandon c code))
      u.jobsIn c ≠ [] → exec (.abandon ms c code) s = .next u)) ∧
  (∀ (s : State) ms job, idleSlot s ms → (∃ j ∈ s.jobs, j.id = job ∧ j.st ≠ .ended) →
    (∀ b, 1 ≤ b → b < 2 ^ 48 → Completes s ms (.grantBudget ms job b) (.grantBudget job b)
      (fun s => s.modJob job (fun j => { j with budget := b, st := j.st.refilled })) 0) ∧
    (∀ d, d < 2 ^ 64 → Completes s ms (.grantDeadline ms job d) (.grantDeadline job d)
      (fun s => s.modJob job (fun j => { j with deadline := d })) 0)) ∧
  (∀ (s : State) ms, idleSlot s ms →
    (∀ a, a % 16 = 0 → a + 16384 ≤ 2 ^ 39 → Completes s ms (.setEnergyTable ms a) (.setEnergyTable a) (fun s => { s with etab := some a }) 0) ∧
    (∀ n rate cap, n ≤ 1023 → 1 ≤ rate → rate ≤ 65535 → rate ≤ cap → cap ≤ 4 * rate →
      Completes s ms (.setRateCap ms n rate cap) (.setRateCap n rate cap)
        (fun s => s.modIsland n (fun i => { i with rate := rate, cap := cap, level := min i.level cap })) 0) ∧
    (∀ base n, base % 2 ^ 30 = 0 → base + 2 ^ 30 ≤ 2 ^ 39 → n ≤ 255 →
      Completes s ms (.setWindow ms base n) (.setWindow base n) (fun s => { s with window := (base, n) }) 0) ∧
    (∀ n, 1200000 ≤ n → n ≤ 1200000000 →
      Completes s ms (.setRetransmissionBudget ms n) (.setRetransmissionBudget n) (fun s => { s with retx := n }) 0)) ∧
  (∀ (s : State) ms shared t, idleSlot s ms → (shared = false → tableCores t = true ∧ tableOk t = true) →
    let same : Prop := shared = s.shared ∧ (shared = true ∨ t = s.parts)
    (same → Completes s ms (.setPartitionTable ms shared t) (.setPartitionTable shared t) id 0) ∧
    (¬same → (∀ j ∈ s.jobs, j.cores = []) →
      Completes s ms (.setPartitionTable ms shared t) (.setPartitionTable shared t) (fun s =>
        let u := s.bump.l2Flush (fun _ => true)
        let v : State := { u with
          mswitch := false, shared := shared, l2tlb := [], kvHomes := [], wpart := []
          parts := if shared then State.reset.parts else t
          cores := u.cores.map (fun x : Nat × Core => (x.1, { x.2 with tlb := [], l1 := [] })) }
        v.startAll (Config.moveCycles s.fresh) ((sortJobs (v.jobs.filter (fun j => decide (j.st = .ready)))).map (fun j : Job => j.id))) 0) ∧
    (¬same → (∃ j ∈ s.jobs, j.cores ≠ []) → exec (.setPartitionTable ms shared t) s =
      .next { (begun s ms (.setPartitionTable shared t)).unplace with mswitch := true })) ∧
  (∀ (s : State) (x : CkptStart), idleSlot s x.slot →
    (ckptBad x.dest = true → Completes s x.slot (.checkpoint x) (.checkpoint x.dest) id 2) ∧
    (ckptBad x.dest = false → (∀ j ∈ s.jobs, j.cores = []) → (∀ t ∈ s.teams, (begun s x.slot (.checkpoint x.dest)).atRest t = true) →
      Completes s x.slot (.checkpoint x) (.checkpoint x.dest) (fun s =>
        let u := s.l2Flush (fun l => l.dirty)
        let v : State := { u with ckpt := false, heldPeer := [], agenda := u.agenda ++ s.heldPeer.map Move.event }
        v.answer (.image x.dest v.image)) 0) ∧
    (ckptBad x.dest = false → (∃ j ∈ s.jobs, j.cores ≠ []) ∨ (∃ t ∈ s.teams, (begun s x.slot (.checkpoint x.dest)).atRest t = false) → exec (.checkpoint x) s =
      .next { (begun s x.slot (.checkpoint x.dest)).unplace with ckpt := true })) ∧
  (∀ (s : State) (t : Team), s.atRest t = true →
    (∀ c ∈ t.attn, c.missing = []) ∧ ∀ c ∈ t.chans, ∀ x ∈ c.slots, x.st ≠ .reserved) ∧
  (∀ (s : State) ms (v : Dword), ms < 16 → (s.mboxSlot ms).busy = false → s.mq = [] →
    let c := blockOf ((blockBytes (s.mboxSlot ms).command).take 56 ++ leBytes 8 v.toNat)
    let u : State := { s with mbox := tabSet s.mbox ms { s.mboxSlot ms with busy := true, command := c } }
    Config.mboxCommand c = none → exec (.registerWrite (128 * ms + 56) v) s = .next { u.bump with
      msix := s.msix ||| 1#64
      mbox := tabSet u.mbox ms { u.mboxSlot ms with busy := false, response := respondWith u.fresh 1 } }) ∧
  ∀ (s : State) c,
    let t := s.finishCtx c
    (∀ x ∈ t.ctxs, x.ctxid = c → x.ended = true) ∧ (∀ e ∈ t.l2tlb, e.2.ctx ≠ c) ∧ (∀ x ∈ t.cores, ∀ e ∈ x.2.tlb, e.ctx ≠ c) ∧
    ∀ x, s.liveCtx' c = some x → x.ownslot ≠ 0 → (∀ l ∈ t.l2, l.slot ≠ x.ownslot) ∧ ((s.slot x.ownslot).st = .loaded → (t.slot x.ownslot).st = .destroyed)

namespace Sys2Proof.Claims

/-! ### Debug and trace -/

/-- A thread debug-stops at its PC, with its record of type `type` and code 0 (16 R416, R418). -/
def debugStopped (s : State) (th : ThreadKey) (type : Nat) : State :=
  let u := s.trace th (s.thread th).pc 0 0 type
  (u.stopThread th true (s.thread th).pc (s.thread th).pc).modThread th (fun t => { t with dreq := none, step := false })

/-- A write of register r of the thread that THSEL names (16 R417). -/
def shownWritten (s : State) (r : Nat) (v : Dword) : State :=
  match s.shown with
  | some th => (s.unbindReg th r).modThread th (fun t => t.wr th.gk.exe r v false)
  | none => s

/-- The registers of a debug block that a write sets, by dword (16 R415). -/
def blockSet (s : State) (core i : Nat) (v : Nat) : State :=
  let d (n : Nat) : Dword := BitVec.ofNat 64 (v % 2 ^ n)
  match i with
  | 0 => s.modCore core (fun c => { c with dbg0 := d 21 })
  | 5 => s.modCore core (fun c => { c with dbg5 := d 8 })
  | 7 => s.modCore core (fun c => { c with dbg7 := d 64 })
  | _ => s

/-- A thread leaves the set that its group holds and stands before the word of it; of that word it has done nothing. -/
def standsBefore (s : State) (th : ThreadKey) : State :=
  ((s.modGroup th.gk (fun g => g.unhold th.thr)).forget (.kv th)).modThread th (fun t =>
    { t with kv := t.kv.filter (fun v => v.out.isSome), mark := none, inv := none })

/-- CSTOP on a core (16 R425, R426): a stop of type 5 is requested of every resident thread, and each stops at the instruction
boundary at which it stands, or before the word at which its set is held (log 24). -/
def stopsNow (s : State) (core : Nat) : State :=
  (s.threadsOn core).foldl (fun (s : State) th => s.stopNow th) ((s.threadsOn core).foldl (fun (s : State) th => s.requestStop 5 th) s)

end Sys2Proof.Claims

open Sys2Proof.Claims

/-- The debugger stops and resumes threads and writes registers, the crossbar acts, the clave tick makes frames, MCHK
records. STOP of a core, where its core field names the block's core, requests it of every resident thread, else of
the thread it names; a BLOCKED thread stops at once, another at its next boundary. RESUME of a debug-stopped thread
lets it go on at its PC, at PC + 4 (which ends a wait and drops a pending result: log 23, DEDUCED), or for one chain.
A write of TBASE or TSIZE zeroes WPTR (log 23). CLEAR empties the sketch. A register write changes the register at its
offset and no other. An input pin asserts its source's lines (pins 4 to 7 are the management cores' sources, log 62);
the oldest assertion of a line has its actions, of the line's value at that moment; a thread of a held set then stops
before the word that the set is held at (log 24, DEDUCED). A clave tick latches a frame while fewer than two are
buffered, else is counted; while streaming is disabled it does nothing; the oldest frame is written to its place. An
error in state that no thread owns makes a record of its source; one in a memory line, a scratchpad line, a register,
a return stack, a tile, a list or the data of a channel slot marks it for its reader, with free bytes where it stands;
a queue entry becomes poison of class 1; an instruction cache line is dropped; a corrected error is counted (the
event's arguments: log 60). (R397, R398, R414, R415, R416, R417, R419, R421, R425, R426, R427, R428) -/
def Obligations.DebugTraceAndMachineChecksFollowTheRules : Prop :=
  (∀ (s : State) core (v : Dword), core < 576 →
    (bits v.toNat 9 0 ≠ core → exec (.stop core v) s = .next s) ∧
    (bits v.toNat 9 0 = core → bit v.toNat 23 = true → exec (.stop core v) s = .next ((s.threadsOn core).foldl (fun (s : State) th => s.requestStop 2 th) s)) ∧
    (∀ th, bit v.toNat 23 = false → bits v.toNat 9 0 = core → s.named (bits v.toNat 22 0) = some th →
      exec (.stop core v) s = .next (s.requestStop 2 th)) ∧
    (∀ th, bits v.toNat 9 0 = core → s.named (bits v.toNat 22 0) = some th → (s.thread th).live = true →
      ((s.thread th).stop.map (fun x => x.debug)) = some true →
      (bits v.toNat 24 23 = 0 → exec (.resume core v) s = .next (s.modThread th (fun t => { t with stop := none, step := false }))) ∧
      (bits v.toNat 24 23 = 1 → exec (.resume core v) s = .next (s.modThread th (fun t => { t with
        stop := none, pc := t.pc + 4, xfer := false, blk := none, wres := none, walk := none, kv := none, mark := none
        inv := none }))) ∧
      (bits v.toNat 24 23 = 2 → exec (.resume core v) s = .next (s.modThread th (fun t => { t with stop := none, step := true })))) ∧
    exec (.clear core) s = .next (State.bump (s.modCore core (fun c => { c with sketch := [], seeds := s.fresh })))) ∧
  (∀ (s : State) type th, (s.thread th).live = true → (s.thread th).stop = none →
    ((s.thread th).blk.isSome = true → type ≠ 4 → s.requestStop type th = debugStopped s th type) ∧
    ((s.thread th).blk = none → s.requestStop type th = s.modThread th (fun t => { t with dreq := t.dreq <|> some type }))) ∧
  (∀ (s : State) th g type, s.group th.gk = some g → s.resident th.gk.team = true → (g.thr th.thr).dreq = some type → type ≠ 4 →
    (g.thr th.thr).live = true → (g.thr th.thr).stop = none → th.thr < g.threads.length →
    (g.holds th.thr = false ∨ (g.thr th.thr).blk.isSome = true) →
    exec (.debugStop th) s = .next (debugStopped s th type)) ∧
  (∀ (s : State) off (v : Dword), 0x70100 ≤ off → off < 0x70200 → off % 8 = 0 →
    exec (.debugRegisterWrite off v) s = .next (shownWritten s ((off - 0x70100) / 8) v)) ∧
  (∀ (s : State) off (v : Dword),
    (off % 8 ≠ 0 → exec (.registerWrite off v) s = .next s) ∧
    (∀ core i, core < 576 → off = 0x40000 + 64 * core + 8 * i → (i = 0 ∨ i = 4 ∨ i = 5 ∨ i = 6 ∨ i = 7) →
      exec (.registerWrite off v) s = .next (blockSet s core i v.toNat)) ∧
    (∀ core, core < 576 →
      (off = 0x40000 + 64 * core + 8 → exec (.registerWrite off v) s = exec (.stop core v) s) ∧
      (off = 0x40000 + 64 * core + 16 → exec (.registerWrite off v) s = exec (.resume core v) s) ∧
      (off = 0x40000 + 64 * core + 24 →
        let u := s.modCore core (fun c => { c with dbg3 := BitVec.ofNat 64 (v.toNat % 2 ^ 14) })
        exec (.registerWrite off v) s = if bit v.toNat 14 then exec (.clear core) u else .next u)) ∧
    (∀ line, line < 16 → off = 0x60100 + 8 * line → exec (.registerWrite off v) s =
      .next { s with xlines := tabSet s.xlines line (BitVec.ofNat 64 (v.toNat % 2 ^ 15)) }) ∧
    (off = 0x70000 → exec (.registerWrite off v) s = .next { s with thsel := v.toNat % 2 ^ 23 }) ∧
    (∀ core, core < 576 → off = 0x78000 + 8 * core → exec (.registerWrite off v) s =
      .next (s.modCore core (fun c => { c with inject := BitVec.ofNat 64 (v.toNat % 2 ^ 34) }))) ∧
    (off = 0x80000 → exec (.registerWrite off v) s = .next { s with ring := { s.ring with tbase := bits v.toNat 63 16, wptr := 0 } }) ∧
    (off = 0x80008 → exec (.registerWrite off v) s = .next { s with ring := { s.ring with
      tsize := if 16 ≤ bits v.toNat 4 0 ∧ bits v.toNat 4 0 ≤ 30 then bits v.toNat 4 0 else 16, wptr := 0 } }) ∧
    (off = 0x80018 → exec (.registerWrite off v) s = .next { s with ring := { s.ring with rptr := v.toNat } }) ∧
    (off = 0x80020 → exec (.registerWrite off v) s = .next { s with ring := { s.ring with ten := bit v.toNat 0 } }) ∧
    (off = 0x80100 → exec (.registerWrite off v) s = .next { s with clave := { s.clave with cbase := bits v.toNat 63 16 } }) ∧
    (off = 0x80108 → exec (.registerWrite off v) s = .next { s with clave := { s.clave with
      ck := if 10 ≤ bits v.toNat 4 0 ∧ bits v.toNat 4 0 ≤ 24 then bits v.toNat 4 0 else 10, nfr := bits v.toNat 20 5 } }) ∧
    (off = 0x80110 → exec (.registerWrite off v) s = .next { s with clave := { s.clave with cen := bit v.toNat 0 } })) ∧
  (∀ (s : State) pin, pin < 8 → exec (.trigin pin) s = .next { s with
    xpend := s.xpend ++ ((List.range 16).filter (fun j => bit (tabGet 0#64 s.xlines j).toNat 10 &&
      decide (bits (tabGet 0#64 s.xlines j).toNat 9 0 = (if pin < 4 then 0x3C0 + pin else 0x37C + pin)))).map (fun j => (j, none, s.cycle + 64)) }) ∧
  (∀ (s : State) line x, s.xpend.find? (fun y => y.1 == line) = some x →
    let v := (tabGet 0#64 s.xlines line).toNat
    let u := { s with xpend := s.xpend.erase x }
    let u := if bit v 14 then u.answer (.pin (line % 4)) else u
    let u := if bit v 13 then { u with ring := { u.ring with ten := false } } else u
    let u := if bit v 12 then { u with cores := u.cores.map (fun c : Nat × Core => (c.1, { c.2 with dbg0 := c.2.dbg0 &&& ~~~12#64 })) } else u
    exec (.crossbarAction line) s = .next (if bit v 11 then
      match x.2.1 with
      | some c => stopsNow u c
      | none => (List.range 576).foldl stopsNow u
    else u)) ∧
  (∀ (s : State) th g type, s.group th.gk = some g → (g.thr th.thr).dreq = some type → (g.thr th.thr).live = true →
    (g.thr th.thr).stop = none → th.thr < g.threads.length → type ≠ 4 →
    (g.holds th.thr = false → s.stopNow th = debugStopped s th type) ∧
    (g.holds th.thr = true → s.stopNow th = debugStopped (standsBefore s th) th type)) ∧
  (∀ (s : State), s.clave.cen = false → exec .claveTick s = .next s) ∧
  (∀ (s : State), s.clave.cen = true → s.cycle % 2 ^ s.clave.ck = 0 →
    (s.clave.frames.length < 2 → exec .claveTick s = .next { s.bump with
      clave := { s.clave with
        frames := s.clave.frames ++ [(s.cycle / 2 ^ s.clave.ck, s.cycle, s.frameHeader ++ s.frameBody)]
        lost := 0, stk := List.replicate 16 0 }
      cores := s.cores.map (fun x : Nat × Core => (x.1, { x.2 with latch := List.replicate 6 0 })) }) ∧
    (2 ≤ s.clave.frames.length → exec .claveTick s =
      .next (State.countDev { s with clave := { s.clave with lost := s.clave.lost + 1 } } 8 1))) ∧
  (∀ (s : State) f rest, s.clave.frames = f :: rest →
    let u := { s with clave := { s.clave with frames := rest } }
    let a := s.clave.cbase * 65536 + 65536 * (f.1 % (s.clave.nfr + 1))
    a + 65536 ≤ 2 ^ 39 → exec .claveFrameWrite s =
      .next ((u.writePhys 0 a ((f.2.2 ++ List.replicate 65536 0).take 65536)).dropL1 a 65536)) ∧
  (∀ (s : State) src, recordSource src = true →
    ∃ ctx pc : Nat, ctx < 2 ^ 20 ∧ pc < 2 ^ 57 ∧
      exec (.mchk (.state src)) s = .next (s.bump.record src (Cause.mchk.code + ctx * 2 ^ 39) pc 0 0)) ∧
  (∀ (s : State) line, 64 * line < 2 ^ 39 → exec (.mchk (.hbm line)) s = .next (s.hbmBad line)) ∧
  (∀ (s : State) ix, exec (.mchk (.l2 ix)) s = .next { s with l2 := updAt s.l2 ix (fun x => { x with bad := true }) }) ∧
  (∀ (s : State) k line, 64 * line < Config.spadBytes → ∃ bs : List Byte, bs.length = 64 ∧
    exec (.mchk (.spad k line)) s = .next { s.modTeam k (fun t =>
      let u := t.spadWrite (64 * line) bs
      { u with spadBad := u.spadBad ++ [line] }) with fresh := s.fresh + 1 }) ∧
  (∀ (s : State) th cell, ∃ v : Dword, exec (.mchk (.reg th cell)) s =
    .next ((s.modThread th (fun t => { t with regs := updAt t.regs cell (fun c => { c with ecc := true, val := v }) })).bumpBy 1)) ∧
  (∀ (s : State) k ch n piece, exec (.mchk (.response k ch n piece)) s = .next (s.modSlot k ch n (fun x => x.spoil piece))) ∧
  (∀ (x : ChSlot) (r : RemReq) piece, x.req = some r → (x.spoil piece).st = x.st ∧
    ((x.st = .reserved ∨ x.st = .landed) → (x.spoil piece).bad = x.bad ++ [piece])) ∧
  (∀ (s : State) th d, exec (.mchk (.rstack th d)) s =
    .next (s.modThread th (fun t => if t.rsEcc.contains d then t else { t with rsEcc := t.rsEcc ++ [d] }))) ∧
  (∀ (s : State) k name inst fifo ix, exec (.mchk (.queue k name inst fifo ix)) s =
    .next (s.modFifo k { name := name, inst := inst } fifo (fun f => { f with slots := updAt f.slots ix QSlot.spoil }))) ∧
  (∀ v, ∃ va, (QSlot.data v).spoil = .poison { va := va, sp := false, rtag := 0xFFFF, kind := 0, cls := 1 }) ∧
  (∀ (s : State) core ix, core < 576 →
    exec (.mchk (.icache core ix)) s = .next (s.modCore core (fun c => { c with icache := c.icache.eraseIdx ix }))) ∧
  (∀ (s : State) gk n,
    (∀ i, ∃ c : BitVec 96, exec (.mchk (.tile gk n i)) s = .next ((s.modGroup gk (fun g => { g with tiles := updAt g.tiles n (fun t =>
      { t with ecc := true, cells := updAt t.cells i (fun _ => c) }) })).bumpBy 1)) ∧
    exec (.mchk (.list gk n)) s = .next (s.modGroup gk (fun g => { g with ols := updAt g.ols n (fun o => { o with ecc := true }) }))) ∧
  ∀ (s : State) core, (core < 576 → exec (.mchk (.corrected (some core))) s =
      .next (s.modCore core (fun c => { c with corr := (c.corr + 1) % 2 ^ 64 }))) ∧
    exec (.mchk (.corrected none)) s = .next (s.countDev 6 1)

namespace Sys2Proof.Claims

/-! ### The whole machine -/

/-- The state in which a group's threads have passed their instruction boundary (16 R416, 21 R440). -/
def bounded (s : State) (gk : GroupKey) : State := lanes.foldl (fun s t => s.boundary ⟨gk, t⟩) s

/-- The group is made ready for the set it issues: a new set forgets the old; a capture that does not span the PC ends
(06 R173, R180). -/
def readied (s : State) (gk : GroupKey) (pc : Pc) : State :=
  (s.modGroup gk (fun g =>
      if g.heldNow.isEmpty then { g.prepare with hold := none, done := [], stalled := false, slotw := false, collw := false, began := none, iss := none }
      else { g with slotw := false, collw := false })).modGroup gk
    (fun g => { g with loop := g.loop.bind (fun l => if l.spans pc then some l else none) })

/-- What a step does after its one word: a set that is held has not issued; else its lanes are together again, and the issue
is counted, of the word's n threads and of the pass as it began (06 R172, 16 R420, R422); the threads of the set that a debugger
steps stop (16 R417). A word that ends its group ends the pass. -/
def issueOver (y : State) (p : Pass) (n : Nat) (set : List Nat) : State :=
  match y.pass with
  | some q =>
    if q.held then ({ y with pass := none }).stepped p.gk set true
    else (((y.mergeDone p).sketch ⟨p.gk, p.sel.headD 0⟩ p.pc 0 n).afterPass p.gk p.began.1 p.began.2 false).stepped p.gk set false
  | none => (y.afterPass p.gk p.began.1 p.began.2 false).stepped p.gk set false

/-- The outcome after which BLOCKED threads that are to stop do so (16 R416), and those whose conditions have ended wake (06
R184). -/
def woken (o : Host.Outcome State Fault Refusal) (f : State → State) : Host.Outcome State Fault Refusal :=
  match o with
  | .next t => .next (f t).stopBlocked.wake
  | o => o

/-- Is a row of the opcode table an event, which has no word? -/
def isEvent (i : Instr) : Bool := (encode false i).isNone

end Sys2Proof.Claims

open Sys2Proof.Claims

/-- Every well-formed instruction has a word that decodes to it, and a word that decodes is the word of its instruction.
For every well-formed instruction and chain bit there is a word that encodes it, that decodes to it, and that carries
the chain bit. A word that decodes to an instruction is the word that encodes it under the word's chain bit. No word
of an unallocated or reserved major decodes. (R200, R204, R209, R210) -/
def Obligations.WordsAndInstructionsAgree : Prop :=
  (∀ (i : Instr) (c : Bool), i.wellFormed = true → ∃ w, encode c i = some w ∧ decode w = some i ∧ chainOf w = c) ∧
  (∀ (w : Word) (i : Instr), decode w = some i → encode (chainOf w) i = some w) ∧
  ∀ w : Word, majorPipe (majorOf w).toNat = none → decode w = none

/-- Words written out from the spec's encodings decode to their instructions. Eight words, each from an example or a table
of the spec, decode to the instruction they stand for (NOP, BRA, CMP, JOIN, LD, CAS, QPOP, TAKE); the chain bit of a
word is bit 31, and the word decodes the same with it set; two words that no row matches do not decode. (R195, R204,
R209) -/
def Obligations.EncodedWordsDecode : Prop :=
  decode 0x07C00000#32 = some (.nop { g := 7#3 }) ∧
  decode 0x02800005#32 = some (.bra { g := 2#3, off := 5#20 }) ∧
  decode 0x09CA0882#32 = some (.cmp { g := 7#3, p1 := 1#3, p2 := 2#3, a := 1#5, b := 2#5, pa := false, pb := false, cc := 2#4 }) ∧
  decode 0x6BC00015#32 = some (.join { g := 7#3, mask := 5#5 }) ∧
  decode 0x58516002#32 = some (.ld ⟨5, 2, 6, 2⟩) ∧ decode 0x628C7470#32 = some (.cas ⟨2, 6, 7, 8, 14, false, false⟩) ∧
  decode 0x49C60210#32 = some (.qpop ⟨7, 3, 4, 1⟩) ∧ decode 0x6FCC0021#32 = some (.take ⟨7, 6, 2⟩) ∧
  chainOf 0x07C00000#32 = false ∧ chainOf 0x87C00000#32 = true ∧
  decode 0x87C00000#32 = decode 0x07C00000#32 ∧
  decode 0x00000000#32 = none ∧ decode 0x07C0001F#32 = none

/-- A step whose group's PC holds the word of an instruction is exec of that instruction, with the issue around it. When
the next move is the issue of a group that may issue, whose set stands at a PC where the fetch gives a word with chain
bit 0 that decodes to i, and no thread of the set came there by a transfer, the step is exec of i on the state with
that pass; then the set, unless it is held, is together again, the issue is counted, of the threads that the word was
issued to when the pass began, parks are cleared, stepped threads stop, and threads whose conditions have ended wake.
A word that decodes to no instruction is ILLOP for each thread of the set whose guard field is true; the others move
past it. When the next move is an event, the step is exec of the event, then the wake. A fetch without a capture gives
the word that the instruction cache holds for its translated address; where it holds none, that of the four bytes in
memory, little-endian, and the line comes into the cache. Four bytes decode as their word. (R172, R173, R184, R193,
R194, R195, R200, R203, R417, R420, R422) -/
def Obligations.AStepRunsTheDecodedInstruction : Prop :=
  (∀ (s : State) (gk : GroupKey) (rest : List Move) (g h : Group) (t : Nat) (ts : List Nat) (w : Word) (i : Instr) (x : State),
    s.agenda = .issue gk :: rest →
    let u := bounded { s with agenda := rest } gk
    u.group gk = some g → u.canIssue g = true → g.current = t :: ts →
    let pc := (g.thr t).pc
    (readied u gk pc).fetch ⟨gk, t⟩ pc = .word w x → chainOf w = false →
    (∀ j ∈ t :: ts, (x.thread ⟨gk, j⟩).xfer = false) → x.group gk = some h →
    let n := h.iss.getD (((t :: ts).filter (fun j => (h.thr j).pred (guardOf w))).length)
    let p : Pass := { gk := gk, sel := t :: ts, pc := pc, word := w, held := false, mid := [], iss := n, began := h.began.getD (pc, t :: ts) }
    let ended (y : State) : State := issueOver y p n (lanes.filter (fun j => (t :: ts).contains j || h.done.contains j))
    (decode w = some i → step s = woken (exec i { x with pass := some p }) ended) ∧
    (decode w = none → step s = woken (.next
      ((({ x with pass := some p } : State).inTurn p h (guardField w) (fun u th => u.takeTrap th (illop pc w)) p.sel).withSel
        (p.sel.filter (fun j => !(h.thr j).pred (guardField w))))) ended)) ∧
  (∀ (s : State) (i : Instr) (rest : List Move), s.agenda = .event i :: rest →
    step s = woken (exec i { s with agenda := rest }) id) ∧
  (∀ (s : State) (th : ThreadKey) (pc : Pc) (q : Phys) (u : State),
    (s.group th.gk).bind (fun g => g.loop) = none → s.transFor th .fetch (pcVa pc) = .ok q u → pc.toNat % 4 = 0 →
    let ctx := u.ctxOf th.gk.team.job
    let n := u.coreOf th.gk.team
    let four (bs : List Byte) : Word := BitVec.ofNat 32 (leNat ((bs.drop (pc.toNat % 64)).take 4))
    (∀ x, (u.core n).icPiece ctx (pcVa pc) q = some x → s.fetch th pc = .word (four (blockBytes x.data)) u) ∧
    (∀ bs, (u.core n).icPiece ctx (pcVa pc) q = none → u.readLine (u.partOf ctx) q.slot (q.pa / 64 * 64) 64 = .ok bs →
      s.fetch th pc = .word (four bs)
        (u.icFill { core := n, ctx := ctx, priv := u.priv th.gk.team.job, ask := none } (pcVa pc) q bs))) ∧
  ∀ (b0 b1 b2 b3 : Byte) (rest : List Byte), decodeBytes (b0 :: b1 :: b2 :: b3 :: rest) =
    (decode (b3 ++ b2 ++ b1 ++ b0)).map (fun i => (i, rest))

/-- After power-on device memory is zero under slot 0, every client slot is empty, and every island is at its cap. In the
reset state every byte of device memory reads 0; every line carries slot 0 and epoch 0; slot 0 is LOADED, every other
slot EMPTY with epoch 0; the L2 is shared; the cycle count is 0; no job, team or group exists; every island has the
RATE and CAP of the table, with LEVEL at CAP. Device memory and every scratchpad are in canonical form, which is the
model's own; that no line is held by an L2 slice is the model's choice (logs 1 and 44, DESIGN CHOICE). (R36, R37, R41,
R93, R401) -/
def Obligations.ResetIsTheStateAfterPowerOn : Prop :=
  State.reset.memoryWf ∧ State.reset.l2 = [] ∧ (∀ a n, cellRead State.reset.mem a n = List.replicate n 0#8) ∧
  (∀ l, State.reset.lineTag l = (0, 0)) ∧
  State.reset.slot 0 = { st := .loaded, epoch := 0 } ∧
  (∀ n, n ≠ 0 → State.reset.slot n = { st := .empty, epoch := 0 }) ∧
  State.reset.shared = true ∧ State.reset.cycle = 0 ∧
  State.reset.jobs = [] ∧ State.reset.teams = [] ∧ State.reset.groups = [] ∧
  ∀ n, n < 1024 → ∃ rate cap : Nat, (n < 576 → rate = 3600 ∧ cap = 7200) ∧
    (576 ≤ n ∧ n < 832 → rate = 1200 ∧ cap = 2400) ∧ (832 ≤ n ∧ n < 928 → rate = 600 ∧ cap = 1200) ∧
    (928 ≤ n ∧ n < 992 → rate = 400 ∧ cap = 800) ∧ (992 ≤ n → rate = 2000 ∧ cap = 4000) ∧
    State.reset.island n = { level := cap, rate := rate, cap := cap, used := 0, reqs := [] }

/-- A step answers a next state unless an instruction's word stands on the agenda as an event. In every state whose next
move on the agenda, if there is one, is not an instruction's word put there as an event, the step answers a next
state: no instruction, event or cycle ends in a fault or a refusal of the model. Every cause of R389 is an exception
that the machine takes. Left out is a state in which a word that only a pass issues stands on the agenda as an event,
which no step puts there (log 37). Every event and, within an issue pass, every word answers a next state. (R172,
R202, R389) -/
def Obligations.EveryStepAnswersANextState : Prop :=
  (∀ (i : Instr) (s : State), isEvent i = true ∨ (∃ p g, s.pass = some p ∧ s.group p.gk = some g) → ∃ t, exec i s = .next t) ∧
  ∀ s : State, (∀ i rest, s.agenda = .event i :: rest → isEvent i = true) → ∃ t, step s = .next t

/-- Every step keeps device memory, every scratchpad and the L2 slices in canonical form. In every state whose device
memory and scratchpads are canonical (addresses strictly rising, no listed zero) and whose L2 slices each hold no line
twice under one slot (03 R92, 01 R39), the state a step answers has them so, so that memories with the same bytes are
the same data whatever instruction, event or cycle the step is. The form is the model's own; that an unwritten byte
reads 0 is R41 (device memory) and R15 (scratchpads). (R15, R39, R41, R92, R446) -/
def Obligations.EveryStepKeepsMemoryCanonical : Prop :=
  ∀ s t : State, s.memoryWf → step s = .next t → t.memoryWf
end

