-- ==== Sys2Proof/Laws/State.lean ====
section
/-! SUPPORT. The fields of the state under each of its updates: what an update leaves alone reads as before, and the
field it changes reads as it says. -/

namespace Sys2Proof.Machine

/-! ### `State.modGroup` -/

@[simp] theorem State.modGroup_cycle (s : State) (k : GroupKey) (f : Group → Group) : (s.modGroup k f).cycle = s.cycle := rfl
@[simp] theorem State.modGroup_mem (s : State) (k : GroupKey) (f : Group → Group) : (s.modGroup k f).mem = s.mem := rfl
@[simp] theorem State.modGroup_tags (s : State) (k : GroupKey) (f : Group → Group) : (s.modGroup k f).tags = s.tags := rfl
@[simp] theorem State.modGroup_bad (s : State) (k : GroupKey) (f : Group → Group) : (s.modGroup k f).bad = s.bad := rfl
@[simp] theorem State.modGroup_l2 (s : State) (k : GroupKey) (f : Group → Group) : (s.modGroup k f).l2 = s.l2 := rfl
@[simp] theorem State.modGroup_wpart (s : State) (k : GroupKey) (f : Group → Group) : (s.modGroup k f).wpart = s.wpart := rfl
@[simp] theorem State.modGroup_l2tlb (s : State) (k : GroupKey) (f : Group → Group) : (s.modGroup k f).l2tlb = s.l2tlb := rfl
@[simp] theorem State.modGroup_walks (s : State) (k : GroupKey) (f : Group → Group) : (s.modGroup k f).walks = s.walks := rfl
@[simp] theorem State.modGroup_results (s : State) (k : GroupKey) (f : Group → Group) : (s.modGroup k f).results = s.results := rfl
@[simp] theorem State.modGroup_kvHomes (s : State) (k : GroupKey) (f : Group → Group) : (s.modGroup k f).kvHomes = s.kvHomes := rfl
@[simp] theorem State.modGroup_kvLog (s : State) (k : GroupKey) (f : Group → Group) : (s.modGroup k f).kvLog = s.kvLog := rfl
@[simp] theorem State.modGroup_slots (s : State) (k : GroupKey) (f : Group → Group) : (s.modGroup k f).slots = s.slots := rfl
@[simp] theorem State.modGroup_ctxs (s : State) (k : GroupKey) (f : Group → Group) : (s.modGroup k f).ctxs = s.ctxs := rfl
@[simp] theorem State.modGroup_shared (s : State) (k : GroupKey) (f : Group → Group) : (s.modGroup k f).shared = s.shared := rfl
@[simp] theorem State.modGroup_parts (s : State) (k : GroupKey) (f : Group → Group) : (s.modGroup k f).parts = s.parts := rfl
@[simp] theorem State.modGroup_jobs (s : State) (k : GroupKey) (f : Group → Group) : (s.modGroup k f).jobs = s.jobs := rfl
@[simp] theorem State.modGroup_nextJob (s : State) (k : GroupKey) (f : Group → Group) : (s.modGroup k f).nextJob = s.nextJob := rfl
@[simp] theorem State.modGroup_teams (s : State) (k : GroupKey) (f : Group → Group) : (s.modGroup k f).teams = s.teams := rfl
@[simp] theorem State.modGroup_cores (s : State) (k : GroupKey) (f : Group → Group) : (s.modGroup k f).cores = s.cores := rfl
@[simp] theorem State.modGroup_admq (s : State) (k : GroupKey) (f : Group → Group) : (s.modGroup k f).admq = s.admq := rfl
@[simp] theorem State.modGroup_events (s : State) (k : GroupKey) (f : Group → Group) : (s.modGroup k f).events = s.events := rfl
@[simp] theorem State.modGroup_islands (s : State) (k : GroupKey) (f : Group → Group) : (s.modGroup k f).islands = s.islands := rfl
@[simp] theorem State.modGroup_etab (s : State) (k : GroupKey) (f : Group → Group) : (s.modGroup k f).etab = s.etab := rfl
@[simp] theorem State.modGroup_evq (s : State) (k : GroupKey) (f : Group → Group) : (s.modGroup k f).evq = s.evq := rfl
@[simp] theorem State.modGroup_held (s : State) (k : GroupKey) (f : Group → Group) : (s.modGroup k f).held = s.held := rfl
@[simp] theorem State.modGroup_seqs (s : State) (k : GroupKey) (f : Group → Group) : (s.modGroup k f).seqs = s.seqs := rfl
@[simp] theorem State.modGroup_window (s : State) (k : GroupKey) (f : Group → Group) : (s.modGroup k f).window = s.window := rfl
@[simp] theorem State.modGroup_mbox (s : State) (k : GroupKey) (f : Group → Group) : (s.modGroup k f).mbox = s.mbox := rfl
@[simp] theorem State.modGroup_mq (s : State) (k : GroupKey) (f : Group → Group) : (s.modGroup k f).mq = s.mq := rfl
@[simp] theorem State.modGroup_msix (s : State) (k : GroupKey) (f : Group → Group) : (s.modGroup k f).msix = s.msix := rfl
@[simp] theorem State.modGroup_retx (s : State) (k : GroupKey) (f : Group → Group) : (s.modGroup k f).retx = s.retx := rfl
@[simp] theorem State.modGroup_hostq (s : State) (k : GroupKey) (f : Group → Group) : (s.modGroup k f).hostq = s.hostq := rfl
@[simp] theorem State.modGroup_dctrs (s : State) (k : GroupKey) (f : Group → Group) : (s.modGroup k f).dctrs = s.dctrs := rfl
@[simp] theorem State.modGroup_ring (s : State) (k : GroupKey) (f : Group → Group) : (s.modGroup k f).ring = s.ring := rfl
@[simp] theorem State.modGroup_clave (s : State) (k : GroupKey) (f : Group → Group) : (s.modGroup k f).clave = s.clave := rfl
@[simp] theorem State.modGroup_xlines (s : State) (k : GroupKey) (f : Group → Group) : (s.modGroup k f).xlines = s.xlines := rfl
@[simp] theorem State.modGroup_xpend (s : State) (k : GroupKey) (f : Group → Group) : (s.modGroup k f).xpend = s.xpend := rfl
@[simp] theorem State.modGroup_thsel (s : State) (k : GroupKey) (f : Group → Group) : (s.modGroup k f).thsel = s.thsel := rfl
@[simp] theorem State.modGroup_flits (s : State) (k : GroupKey) (f : Group → Group) : (s.modGroup k f).flits = s.flits := rfl
@[simp] theorem State.modGroup_nextFlit (s : State) (k : GroupKey) (f : Group → Group) : (s.modGroup k f).nextFlit = s.nextFlit := rfl
@[simp] theorem State.modGroup_ckpt (s : State) (k : GroupKey) (f : Group → Group) : (s.modGroup k f).ckpt = s.ckpt := rfl
@[simp] theorem State.modGroup_mswitch (s : State) (k : GroupKey) (f : Group → Group) : (s.modGroup k f).mswitch = s.mswitch := rfl
@[simp] theorem State.modGroup_heldPeer (s : State) (k : GroupKey) (f : Group → Group) : (s.modGroup k f).heldPeer = s.heldPeer := rfl
@[simp] theorem State.modGroup_strays (s : State) (k : GroupKey) (f : Group → Group) : (s.modGroup k f).strays = s.strays := rfl
@[simp] theorem State.modGroup_compl (s : State) (k : GroupKey) (f : Group → Group) : (s.modGroup k f).compl = s.compl := rfl
@[simp] theorem State.modGroup_thefts (s : State) (k : GroupKey) (f : Group → Group) : (s.modGroup k f).thefts = s.thefts := rfl
@[simp] theorem State.modGroup_fresh (s : State) (k : GroupKey) (f : Group → Group) : (s.modGroup k f).fresh = s.fresh := rfl
@[simp] theorem State.modGroup_agenda (s : State) (k : GroupKey) (f : Group → Group) : (s.modGroup k f).agenda = s.agenda := rfl
@[simp] theorem State.modGroup_pass (s : State) (k : GroupKey) (f : Group → Group) : (s.modGroup k f).pass = s.pass := rfl

/-! ### `State.modThread` -/

@[simp] theorem State.modThread_cycle (s : State) (th : ThreadKey) (f : Thread → Thread) : (s.modThread th f).cycle = s.cycle := rfl
@[simp] theorem State.modThread_mem (s : State) (th : ThreadKey) (f : Thread → Thread) : (s.modThread th f).mem = s.mem := rfl
@[simp] theorem State.modThread_tags (s : State) (th : ThreadKey) (f : Thread → Thread) : (s.modThread th f).tags = s.tags := rfl
@[simp] theorem State.modThread_bad (s : State) (th : ThreadKey) (f : Thread → Thread) : (s.modThread th f).bad = s.bad := rfl
@[simp] theorem State.modThread_l2 (s : State) (th : ThreadKey) (f : Thread → Thread) : (s.modThread th f).l2 = s.l2 := rfl
@[simp] theorem State.modThread_wpart (s : State) (th : ThreadKey) (f : Thread → Thread) : (s.modThread th f).wpart = s.wpart := rfl
@[simp] theorem State.modThread_l2tlb (s : State) (th : ThreadKey) (f : Thread → Thread) : (s.modThread th f).l2tlb = s.l2tlb := rfl
@[simp] theorem State.modThread_walks (s : State) (th : ThreadKey) (f : Thread → Thread) : (s.modThread th f).walks = s.walks := rfl
@[simp] theorem State.modThread_results (s : State) (th : ThreadKey) (f : Thread → Thread) : (s.modThread th f).results = s.results := rfl
@[simp] theorem State.modThread_kvHomes (s : State) (th : ThreadKey) (f : Thread → Thread) : (s.modThread th f).kvHomes = s.kvHomes := rfl
@[simp] theorem State.modThread_kvLog (s : State) (th : ThreadKey) (f : Thread → Thread) : (s.modThread th f).kvLog = s.kvLog := rfl
@[simp] theorem State.modThread_slots (s : State) (th : ThreadKey) (f : Thread → Thread) : (s.modThread th f).slots = s.slots := rfl
@[simp] theorem State.modThread_ctxs (s : State) (th : ThreadKey) (f : Thread → Thread) : (s.modThread th f).ctxs = s.ctxs := rfl
@[simp] theorem State.modThread_shared (s : State) (th : ThreadKey) (f : Thread → Thread) : (s.modThread th f).shared = s.shared := rfl
@[simp] theorem State.modThread_parts (s : State) (th : ThreadKey) (f : Thread → Thread) : (s.modThread th f).parts = s.parts := rfl
@[simp] theorem State.modThread_jobs (s : State) (th : ThreadKey) (f : Thread → Thread) : (s.modThread th f).jobs = s.jobs := rfl
@[simp] theorem State.modThread_nextJob (s : State) (th : ThreadKey) (f : Thread → Thread) : (s.modThread th f).nextJob = s.nextJob := rfl
@[simp] theorem State.modThread_teams (s : State) (th : ThreadKey) (f : Thread → Thread) : (s.modThread th f).teams = s.teams := rfl
@[simp] theorem State.modThread_cores (s : State) (th : ThreadKey) (f : Thread → Thread) : (s.modThread th f).cores = s.cores := rfl
@[simp] theorem State.modThread_admq (s : State) (th : ThreadKey) (f : Thread → Thread) : (s.modThread th f).admq = s.admq := rfl
@[simp] theorem State.modThread_events (s : State) (th : ThreadKey) (f : Thread → Thread) : (s.modThread th f).events = s.events := rfl
@[simp] theorem State.modThread_islands (s : State) (th : ThreadKey) (f : Thread → Thread) : (s.modThread th f).islands = s.islands := rfl
@[simp] theorem State.modThread_etab (s : State) (th : ThreadKey) (f : Thread → Thread) : (s.modThread th f).etab = s.etab := rfl
@[simp] theorem State.modThread_evq (s : State) (th : ThreadKey) (f : Thread → Thread) : (s.modThread th f).evq = s.evq := rfl
@[simp] theorem State.modThread_held (s : State) (th : ThreadKey) (f : Thread → Thread) : (s.modThread th f).held = s.held := rfl
@[simp] theorem State.modThread_seqs (s : State) (th : ThreadKey) (f : Thread → Thread) : (s.modThread th f).seqs = s.seqs := rfl
@[simp] theorem State.modThread_window (s : State) (th : ThreadKey) (f : Thread → Thread) : (s.modThread th f).window = s.window := rfl
@[simp] theorem State.modThread_mbox (s : State) (th : ThreadKey) (f : Thread → Thread) : (s.modThread th f).mbox = s.mbox := rfl
@[simp] theorem State.modThread_mq (s : State) (th : ThreadKey) (f : Thread → Thread) : (s.modThread th f).mq = s.mq := rfl
@[simp] theorem State.modThread_msix (s : State) (th : ThreadKey) (f : Thread → Thread) : (s.modThread th f).msix = s.msix := rfl
@[simp] theorem State.modThread_retx (s : State) (th : ThreadKey) (f : Thread → Thread) : (s.modThread th f).retx = s.retx := rfl
@[simp] theorem State.modThread_hostq (s : State) (th : ThreadKey) (f : Thread → Thread) : (s.modThread th f).hostq = s.hostq := rfl
@[simp] theorem State.modThread_dctrs (s : State) (th : ThreadKey) (f : Thread → Thread) : (s.modThread th f).dctrs = s.dctrs := rfl
@[simp] theorem State.modThread_ring (s : State) (th : ThreadKey) (f : Thread → Thread) : (s.modThread th f).ring = s.ring := rfl
@[simp] theorem State.modThread_clave (s : State) (th : ThreadKey) (f : Thread → Thread) : (s.modThread th f).clave = s.clave := rfl
@[simp] theorem State.modThread_xlines (s : State) (th : ThreadKey) (f : Thread → Thread) : (s.modThread th f).xlines = s.xlines := rfl
@[simp] theorem State.modThread_xpend (s : State) (th : ThreadKey) (f : Thread → Thread) : (s.modThread th f).xpend = s.xpend := rfl
@[simp] theorem State.modThread_thsel (s : State) (th : ThreadKey) (f : Thread → Thread) : (s.modThread th f).thsel = s.thsel := rfl
@[simp] theorem State.modThread_flits (s : State) (th : ThreadKey) (f : Thread → Thread) : (s.modThread th f).flits = s.flits := rfl
@[simp] theorem State.modThread_nextFlit (s : State) (th : ThreadKey) (f : Thread → Thread) : (s.modThread th f).nextFlit = s.nextFlit := rfl
@[simp] theorem State.modThread_ckpt (s : State) (th : ThreadKey) (f : Thread → Thread) : (s.modThread th f).ckpt = s.ckpt := rfl
@[simp] theorem State.modThread_mswitch (s : State) (th : ThreadKey) (f : Thread → Thread) : (s.modThread th f).mswitch = s.mswitch := rfl
@[simp] theorem State.modThread_heldPeer (s : State) (th : ThreadKey) (f : Thread → Thread) : (s.modThread th f).heldPeer = s.heldPeer := rfl
@[simp] theorem State.modThread_strays (s : State) (th : ThreadKey) (f : Thread → Thread) : (s.modThread th f).strays = s.strays := rfl
@[simp] theorem State.modThread_compl (s : State) (th : ThreadKey) (f : Thread → Thread) : (s.modThread th f).compl = s.compl := rfl
@[simp] theorem State.modThread_thefts (s : State) (th : ThreadKey) (f : Thread → Thread) : (s.modThread th f).thefts = s.thefts := rfl
@[simp] theorem State.modThread_fresh (s : State) (th : ThreadKey) (f : Thread → Thread) : (s.modThread th f).fresh = s.fresh := rfl
@[simp] theorem State.modThread_agenda (s : State) (th : ThreadKey) (f : Thread → Thread) : (s.modThread th f).agenda = s.agenda := rfl
@[simp] theorem State.modThread_pass (s : State) (th : ThreadKey) (f : Thread → Thread) : (s.modThread th f).pass = s.pass := rfl

/-! ### `State.modTeam` -/

@[simp] theorem State.modTeam_cycle (s : State) (k : TeamKey) (f : Team → Team) : (s.modTeam k f).cycle = s.cycle := rfl
@[simp] theorem State.modTeam_mem (s : State) (k : TeamKey) (f : Team → Team) : (s.modTeam k f).mem = s.mem := rfl
@[simp] theorem State.modTeam_tags (s : State) (k : TeamKey) (f : Team → Team) : (s.modTeam k f).tags = s.tags := rfl
@[simp] theorem State.modTeam_bad (s : State) (k : TeamKey) (f : Team → Team) : (s.modTeam k f).bad = s.bad := rfl
@[simp] theorem State.modTeam_l2 (s : State) (k : TeamKey) (f : Team → Team) : (s.modTeam k f).l2 = s.l2 := rfl
@[simp] theorem State.modTeam_wpart (s : State) (k : TeamKey) (f : Team → Team) : (s.modTeam k f).wpart = s.wpart := rfl
@[simp] theorem State.modTeam_l2tlb (s : State) (k : TeamKey) (f : Team → Team) : (s.modTeam k f).l2tlb = s.l2tlb := rfl
@[simp] theorem State.modTeam_walks (s : State) (k : TeamKey) (f : Team → Team) : (s.modTeam k f).walks = s.walks := rfl
@[simp] theorem State.modTeam_results (s : State) (k : TeamKey) (f : Team → Team) : (s.modTeam k f).results = s.results := rfl
@[simp] theorem State.modTeam_kvHomes (s : State) (k : TeamKey) (f : Team → Team) : (s.modTeam k f).kvHomes = s.kvHomes := rfl
@[simp] theorem State.modTeam_kvLog (s : State) (k : TeamKey) (f : Team → Team) : (s.modTeam k f).kvLog = s.kvLog := rfl
@[simp] theorem State.modTeam_slots (s : State) (k : TeamKey) (f : Team → Team) : (s.modTeam k f).slots = s.slots := rfl
@[simp] theorem State.modTeam_ctxs (s : State) (k : TeamKey) (f : Team → Team) : (s.modTeam k f).ctxs = s.ctxs := rfl
@[simp] theorem State.modTeam_shared (s : State) (k : TeamKey) (f : Team → Team) : (s.modTeam k f).shared = s.shared := rfl
@[simp] theorem State.modTeam_parts (s : State) (k : TeamKey) (f : Team → Team) : (s.modTeam k f).parts = s.parts := rfl
@[simp] theorem State.modTeam_jobs (s : State) (k : TeamKey) (f : Team → Team) : (s.modTeam k f).jobs = s.jobs := rfl
@[simp] theorem State.modTeam_nextJob (s : State) (k : TeamKey) (f : Team → Team) : (s.modTeam k f).nextJob = s.nextJob := rfl
@[simp] theorem State.modTeam_groups (s : State) (k : TeamKey) (f : Team → Team) : (s.modTeam k f).groups = s.groups := rfl
@[simp] theorem State.modTeam_cores (s : State) (k : TeamKey) (f : Team → Team) : (s.modTeam k f).cores = s.cores := rfl
@[simp] theorem State.modTeam_admq (s : State) (k : TeamKey) (f : Team → Team) : (s.modTeam k f).admq = s.admq := rfl
@[simp] theorem State.modTeam_events (s : State) (k : TeamKey) (f : Team → Team) : (s.modTeam k f).events = s.events := rfl
@[simp] theorem State.modTeam_islands (s : State) (k : TeamKey) (f : Team → Team) : (s.modTeam k f).islands = s.islands := rfl
@[simp] theorem State.modTeam_etab (s : State) (k : TeamKey) (f : Team → Team) : (s.modTeam k f).etab = s.etab := rfl
@[simp] theorem State.modTeam_evq (s : State) (k : TeamKey) (f : Team → Team) : (s.modTeam k f).evq = s.evq := rfl
@[simp] theorem State.modTeam_held (s : State) (k : TeamKey) (f : Team → Team) : (s.modTeam k f).held = s.held := rfl
@[simp] theorem State.modTeam_seqs (s : State) (k : TeamKey) (f : Team → Team) : (s.modTeam k f).seqs = s.seqs := rfl
@[simp] theorem State.modTeam_window (s : State) (k : TeamKey) (f : Team → Team) : (s.modTeam k f).window = s.window := rfl
@[simp] theorem State.modTeam_mbox (s : State) (k : TeamKey) (f : Team → Team) : (s.modTeam k f).mbox = s.mbox := rfl
@[simp] theorem State.modTeam_mq (s : State) (k : TeamKey) (f : Team → Team) : (s.modTeam k f).mq = s.mq := rfl
@[simp] theorem State.modTeam_msix (s : State) (k : TeamKey) (f : Team → Team) : (s.modTeam k f).msix = s.msix := rfl
@[simp] theorem State.modTeam_retx (s : State) (k : TeamKey) (f : Team → Team) : (s.modTeam k f).retx = s.retx := rfl
@[simp] theorem State.modTeam_hostq (s : State) (k : TeamKey) (f : Team → Team) : (s.modTeam k f).hostq = s.hostq := rfl
@[simp] theorem State.modTeam_dctrs (s : State) (k : TeamKey) (f : Team → Team) : (s.modTeam k f).dctrs = s.dctrs := rfl
@[simp] theorem State.modTeam_ring (s : State) (k : TeamKey) (f : Team → Team) : (s.modTeam k f).ring = s.ring := rfl
@[simp] theorem State.modTeam_clave (s : State) (k : TeamKey) (f : Team → Team) : (s.modTeam k f).clave = s.clave := rfl
@[simp] theorem State.modTeam_xlines (s : State) (k : TeamKey) (f : Team → Team) : (s.modTeam k f).xlines = s.xlines := rfl
@[simp] theorem State.modTeam_xpend (s : State) (k : TeamKey) (f : Team → Team) : (s.modTeam k f).xpend = s.xpend := rfl
@[simp] theorem State.modTeam_thsel (s : State) (k : TeamKey) (f : Team → Team) : (s.modTeam k f).thsel = s.thsel := rfl
@[simp] theorem State.modTeam_flits (s : State) (k : TeamKey) (f : Team → Team) : (s.modTeam k f).flits = s.flits := rfl
@[simp] theorem State.modTeam_nextFlit (s : State) (k : TeamKey) (f : Team → Team) : (s.modTeam k f).nextFlit = s.nextFlit := rfl
@[simp] theorem State.modTeam_ckpt (s : State) (k : TeamKey) (f : Team → Team) : (s.modTeam k f).ckpt = s.ckpt := rfl
@[simp] theorem State.modTeam_mswitch (s : State) (k : TeamKey) (f : Team → Team) : (s.modTeam k f).mswitch = s.mswitch := rfl
@[simp] theorem State.modTeam_heldPeer (s : State) (k : TeamKey) (f : Team → Team) : (s.modTeam k f).heldPeer = s.heldPeer := rfl
@[simp] theorem State.modTeam_strays (s : State) (k : TeamKey) (f : Team → Team) : (s.modTeam k f).strays = s.strays := rfl
@[simp] theorem State.modTeam_compl (s : State) (k : TeamKey) (f : Team → Team) : (s.modTeam k f).compl = s.compl := rfl
@[simp] theorem State.modTeam_thefts (s : State) (k : TeamKey) (f : Team → Team) : (s.modTeam k f).thefts = s.thefts := rfl
@[simp] theorem State.modTeam_fresh (s : State) (k : TeamKey) (f : Team → Team) : (s.modTeam k f).fresh = s.fresh := rfl
@[simp] theorem State.modTeam_agenda (s : State) (k : TeamKey) (f : Team → Team) : (s.modTeam k f).agenda = s.agenda := rfl
@[simp] theorem State.modTeam_pass (s : State) (k : TeamKey) (f : Team → Team) : (s.modTeam k f).pass = s.pass := rfl

/-! ### `State.modJob` -/

@[simp] theorem State.modJob_cycle (s : State) (n : Nat) (f : Job → Job) : (s.modJob n f).cycle = s.cycle := rfl
@[simp] theorem State.modJob_mem (s : State) (n : Nat) (f : Job → Job) : (s.modJob n f).mem = s.mem := rfl
@[simp] theorem State.modJob_tags (s : State) (n : Nat) (f : Job → Job) : (s.modJob n f).tags = s.tags := rfl
@[simp] theorem State.modJob_bad (s : State) (n : Nat) (f : Job → Job) : (s.modJob n f).bad = s.bad := rfl
@[simp] theorem State.modJob_l2 (s : State) (n : Nat) (f : Job → Job) : (s.modJob n f).l2 = s.l2 := rfl
@[simp] theorem State.modJob_wpart (s : State) (n : Nat) (f : Job → Job) : (s.modJob n f).wpart = s.wpart := rfl
@[simp] theorem State.modJob_l2tlb (s : State) (n : Nat) (f : Job → Job) : (s.modJob n f).l2tlb = s.l2tlb := rfl
@[simp] theorem State.modJob_walks (s : State) (n : Nat) (f : Job → Job) : (s.modJob n f).walks = s.walks := rfl
@[simp] theorem State.modJob_results (s : State) (n : Nat) (f : Job → Job) : (s.modJob n f).results = s.results := rfl
@[simp] theorem State.modJob_kvHomes (s : State) (n : Nat) (f : Job → Job) : (s.modJob n f).kvHomes = s.kvHomes := rfl
@[simp] theorem State.modJob_kvLog (s : State) (n : Nat) (f : Job → Job) : (s.modJob n f).kvLog = s.kvLog := rfl
@[simp] theorem State.modJob_slots (s : State) (n : Nat) (f : Job → Job) : (s.modJob n f).slots = s.slots := rfl
@[simp] theorem State.modJob_ctxs (s : State) (n : Nat) (f : Job → Job) : (s.modJob n f).ctxs = s.ctxs := rfl
@[simp] theorem State.modJob_shared (s : State) (n : Nat) (f : Job → Job) : (s.modJob n f).shared = s.shared := rfl
@[simp] theorem State.modJob_parts (s : State) (n : Nat) (f : Job → Job) : (s.modJob n f).parts = s.parts := rfl
@[simp] theorem State.modJob_nextJob (s : State) (n : Nat) (f : Job → Job) : (s.modJob n f).nextJob = s.nextJob := rfl
@[simp] theorem State.modJob_teams (s : State) (n : Nat) (f : Job → Job) : (s.modJob n f).teams = s.teams := rfl
@[simp] theorem State.modJob_groups (s : State) (n : Nat) (f : Job → Job) : (s.modJob n f).groups = s.groups := rfl
@[simp] theorem State.modJob_cores (s : State) (n : Nat) (f : Job → Job) : (s.modJob n f).cores = s.cores := rfl
@[simp] theorem State.modJob_admq (s : State) (n : Nat) (f : Job → Job) : (s.modJob n f).admq = s.admq := rfl
@[simp] theorem State.modJob_events (s : State) (n : Nat) (f : Job → Job) : (s.modJob n f).events = s.events := rfl
@[simp] theorem State.modJob_islands (s : State) (n : Nat) (f : Job → Job) : (s.modJob n f).islands = s.islands := rfl
@[simp] theorem State.modJob_etab (s : State) (n : Nat) (f : Job → Job) : (s.modJob n f).etab = s.etab := rfl
@[simp] theorem State.modJob_evq (s : State) (n : Nat) (f : Job → Job) : (s.modJob n f).evq = s.evq := rfl
@[simp] theorem State.modJob_held (s : State) (n : Nat) (f : Job → Job) : (s.modJob n f).held = s.held := rfl
@[simp] theorem State.modJob_seqs (s : State) (n : Nat) (f : Job → Job) : (s.modJob n f).seqs = s.seqs := rfl
@[simp] theorem State.modJob_window (s : State) (n : Nat) (f : Job → Job) : (s.modJob n f).window = s.window := rfl
@[simp] theorem State.modJob_mbox (s : State) (n : Nat) (f : Job → Job) : (s.modJob n f).mbox = s.mbox := rfl
@[simp] theorem State.modJob_mq (s : State) (n : Nat) (f : Job → Job) : (s.modJob n f).mq = s.mq := rfl
@[simp] theorem State.modJob_msix (s : State) (n : Nat) (f : Job → Job) : (s.modJob n f).msix = s.msix := rfl
@[simp] theorem State.modJob_retx (s : State) (n : Nat) (f : Job → Job) : (s.modJob n f).retx = s.retx := rfl
@[simp] theorem State.modJob_hostq (s : State) (n : Nat) (f : Job → Job) : (s.modJob n f).hostq = s.hostq := rfl
@[simp] theorem State.modJob_dctrs (s : State) (n : Nat) (f : Job → Job) : (s.modJob n f).dctrs = s.dctrs := rfl
@[simp] theorem State.modJob_ring (s : State) (n : Nat) (f : Job → Job) : (s.modJob n f).ring = s.ring := rfl
@[simp] theorem State.modJob_clave (s : State) (n : Nat) (f : Job → Job) : (s.modJob n f).clave = s.clave := rfl
@[simp] theorem State.modJob_xlines (s : State) (n : Nat) (f : Job → Job) : (s.modJob n f).xlines = s.xlines := rfl
@[simp] theorem State.modJob_xpend (s : State) (n : Nat) (f : Job → Job) : (s.modJob n f).xpend = s.xpend := rfl
@[simp] theorem State.modJob_thsel (s : State) (n : Nat) (f : Job → Job) : (s.modJob n f).thsel = s.thsel := rfl
@[simp] theorem State.modJob_flits (s : State) (n : Nat) (f : Job → Job) : (s.modJob n f).flits = s.flits := rfl
@[simp] theorem State.modJob_nextFlit (s : State) (n : Nat) (f : Job → Job) : (s.modJob n f).nextFlit = s.nextFlit := rfl
@[simp] theorem State.modJob_ckpt (s : State) (n : Nat) (f : Job → Job) : (s.modJob n f).ckpt = s.ckpt := rfl
@[simp] theorem State.modJob_mswitch (s : State) (n : Nat) (f : Job → Job) : (s.modJob n f).mswitch = s.mswitch := rfl
@[simp] theorem State.modJob_heldPeer (s : State) (n : Nat) (f : Job → Job) : (s.modJob n f).heldPeer = s.heldPeer := rfl
@[simp] theorem State.modJob_strays (s : State) (n : Nat) (f : Job → Job) : (s.modJob n f).strays = s.strays := rfl
@[simp] theorem State.modJob_compl (s : State) (n : Nat) (f : Job → Job) : (s.modJob n f).compl = s.compl := rfl
@[simp] theorem State.modJob_thefts (s : State) (n : Nat) (f : Job → Job) : (s.modJob n f).thefts = s.thefts := rfl
@[simp] theorem State.modJob_fresh (s : State) (n : Nat) (f : Job → Job) : (s.modJob n f).fresh = s.fresh := rfl
@[simp] theorem State.modJob_agenda (s : State) (n : Nat) (f : Job → Job) : (s.modJob n f).agenda = s.agenda := rfl
@[simp] theorem State.modJob_pass (s : State) (n : Nat) (f : Job → Job) : (s.modJob n f).pass = s.pass := rfl

/-! ### `State.modCore` -/

@[simp] theorem State.modCore_cycle (s : State) (n : Nat) (f : Core → Core) : (s.modCore n f).cycle = s.cycle := rfl
@[simp] theorem State.modCore_mem (s : State) (n : Nat) (f : Core → Core) : (s.modCore n f).mem = s.mem := rfl
@[simp] theorem State.modCore_tags (s : State) (n : Nat) (f : Core → Core) : (s.modCore n f).tags = s.tags := rfl
@[simp] theorem State.modCore_bad (s : State) (n : Nat) (f : Core → Core) : (s.modCore n f).bad = s.bad := rfl
@[simp] theorem State.modCore_l2 (s : State) (n : Nat) (f : Core → Core) : (s.modCore n f).l2 = s.l2 := rfl
@[simp] theorem State.modCore_wpart (s : State) (n : Nat) (f : Core → Core) : (s.modCore n f).wpart = s.wpart := rfl
@[simp] theorem State.modCore_l2tlb (s : State) (n : Nat) (f : Core → Core) : (s.modCore n f).l2tlb = s.l2tlb := rfl
@[simp] theorem State.modCore_walks (s : State) (n : Nat) (f : Core → Core) : (s.modCore n f).walks = s.walks := rfl
@[simp] theorem State.modCore_results (s : State) (n : Nat) (f : Core → Core) : (s.modCore n f).results = s.results := rfl
@[simp] theorem State.modCore_kvHomes (s : State) (n : Nat) (f : Core → Core) : (s.modCore n f).kvHomes = s.kvHomes := rfl
@[simp] theorem State.modCore_kvLog (s : State) (n : Nat) (f : Core → Core) : (s.modCore n f).kvLog = s.kvLog := rfl
@[simp] theorem State.modCore_slots (s : State) (n : Nat) (f : Core → Core) : (s.modCore n f).slots = s.slots := rfl
@[simp] theorem State.modCore_ctxs (s : State) (n : Nat) (f : Core → Core) : (s.modCore n f).ctxs = s.ctxs := rfl
@[simp] theorem State.modCore_shared (s : State) (n : Nat) (f : Core → Core) : (s.modCore n f).shared = s.shared := rfl
@[simp] theorem State.modCore_parts (s : State) (n : Nat) (f : Core → Core) : (s.modCore n f).parts = s.parts := rfl
@[simp] theorem State.modCore_jobs (s : State) (n : Nat) (f : Core → Core) : (s.modCore n f).jobs = s.jobs := rfl
@[simp] theorem State.modCore_nextJob (s : State) (n : Nat) (f : Core → Core) : (s.modCore n f).nextJob = s.nextJob := rfl
@[simp] theorem State.modCore_teams (s : State) (n : Nat) (f : Core → Core) : (s.modCore n f).teams = s.teams := rfl
@[simp] theorem State.modCore_groups (s : State) (n : Nat) (f : Core → Core) : (s.modCore n f).groups = s.groups := rfl
@[simp] theorem State.modCore_admq (s : State) (n : Nat) (f : Core → Core) : (s.modCore n f).admq = s.admq := rfl
@[simp] theorem State.modCore_events (s : State) (n : Nat) (f : Core → Core) : (s.modCore n f).events = s.events := rfl
@[simp] theorem State.modCore_islands (s : State) (n : Nat) (f : Core → Core) : (s.modCore n f).islands = s.islands := rfl
@[simp] theorem State.modCore_etab (s : State) (n : Nat) (f : Core → Core) : (s.modCore n f).etab = s.etab := rfl
@[simp] theorem State.modCore_evq (s : State) (n : Nat) (f : Core → Core) : (s.modCore n f).evq = s.evq := rfl
@[simp] theorem State.modCore_held (s : State) (n : Nat) (f : Core → Core) : (s.modCore n f).held = s.held := rfl
@[simp] theorem State.modCore_seqs (s : State) (n : Nat) (f : Core → Core) : (s.modCore n f).seqs = s.seqs := rfl
@[simp] theorem State.modCore_window (s : State) (n : Nat) (f : Core → Core) : (s.modCore n f).window = s.window := rfl
@[simp] theorem State.modCore_mbox (s : State) (n : Nat) (f : Core → Core) : (s.modCore n f).mbox = s.mbox := rfl
@[simp] theorem State.modCore_mq (s : State) (n : Nat) (f : Core → Core) : (s.modCore n f).mq = s.mq := rfl
@[simp] theorem State.modCore_msix (s : State) (n : Nat) (f : Core → Core) : (s.modCore n f).msix = s.msix := rfl
@[simp] theorem State.modCore_retx (s : State) (n : Nat) (f : Core → Core) : (s.modCore n f).retx = s.retx := rfl
@[simp] theorem State.modCore_hostq (s : State) (n : Nat) (f : Core → Core) : (s.modCore n f).hostq = s.hostq := rfl
@[simp] theorem State.modCore_dctrs (s : State) (n : Nat) (f : Core → Core) : (s.modCore n f).dctrs = s.dctrs := rfl
@[simp] theorem State.modCore_ring (s : State) (n : Nat) (f : Core → Core) : (s.modCore n f).ring = s.ring := rfl
@[simp] theorem State.modCore_clave (s : State) (n : Nat) (f : Core → Core) : (s.modCore n f).clave = s.clave := rfl
@[simp] theorem State.modCore_xlines (s : State) (n : Nat) (f : Core → Core) : (s.modCore n f).xlines = s.xlines := rfl
@[simp] theorem State.modCore_xpend (s : State) (n : Nat) (f : Core → Core) : (s.modCore n f).xpend = s.xpend := rfl
@[simp] theorem State.modCore_thsel (s : State) (n : Nat) (f : Core → Core) : (s.modCore n f).thsel = s.thsel := rfl
@[simp] theorem State.modCore_flits (s : State) (n : Nat) (f : Core → Core) : (s.modCore n f).flits = s.flits := rfl
@[simp] theorem State.modCore_nextFlit (s : State) (n : Nat) (f : Core → Core) : (s.modCore n f).nextFlit = s.nextFlit := rfl
@[simp] theorem State.modCore_ckpt (s : State) (n : Nat) (f : Core → Core) : (s.modCore n f).ckpt = s.ckpt := rfl
@[simp] theorem State.modCore_mswitch (s : State) (n : Nat) (f : Core → Core) : (s.modCore n f).mswitch = s.mswitch := rfl
@[simp] theorem State.modCore_heldPeer (s : State) (n : Nat) (f : Core → Core) : (s.modCore n f).heldPeer = s.heldPeer := rfl
@[simp] theorem State.modCore_strays (s : State) (n : Nat) (f : Core → Core) : (s.modCore n f).strays = s.strays := rfl
@[simp] theorem State.modCore_compl (s : State) (n : Nat) (f : Core → Core) : (s.modCore n f).compl = s.compl := rfl
@[simp] theorem State.modCore_thefts (s : State) (n : Nat) (f : Core → Core) : (s.modCore n f).thefts = s.thefts := rfl
@[simp] theorem State.modCore_fresh (s : State) (n : Nat) (f : Core → Core) : (s.modCore n f).fresh = s.fresh := rfl
@[simp] theorem State.modCore_agenda (s : State) (n : Nat) (f : Core → Core) : (s.modCore n f).agenda = s.agenda := rfl
@[simp] theorem State.modCore_pass (s : State) (n : Nat) (f : Core → Core) : (s.modCore n f).pass = s.pass := rfl

/-! ### `State.modIsland` -/

@[simp] theorem State.modIsland_cycle (s : State) (n : Nat) (f : Island → Island) : (s.modIsland n f).cycle = s.cycle := rfl
@[simp] theorem State.modIsland_mem (s : State) (n : Nat) (f : Island → Island) : (s.modIsland n f).mem = s.mem := rfl
@[simp] theorem State.modIsland_tags (s : State) (n : Nat) (f : Island → Island) : (s.modIsland n f).tags = s.tags := rfl
@[simp] theorem State.modIsland_bad (s : State) (n : Nat) (f : Island → Island) : (s.modIsland n f).bad = s.bad := rfl
@[simp] theorem State.modIsland_l2 (s : State) (n : Nat) (f : Island → Island) : (s.modIsland n f).l2 = s.l2 := rfl
@[simp] theorem State.modIsland_wpart (s : State) (n : Nat) (f : Island → Island) : (s.modIsland n f).wpart = s.wpart := rfl
@[simp] theorem State.modIsland_l2tlb (s : State) (n : Nat) (f : Island → Island) : (s.modIsland n f).l2tlb = s.l2tlb := rfl
@[simp] theorem State.modIsland_walks (s : State) (n : Nat) (f : Island → Island) : (s.modIsland n f).walks = s.walks := rfl
@[simp] theorem State.modIsland_results (s : State) (n : Nat) (f : Island → Island) : (s.modIsland n f).results = s.results := rfl
@[simp] theorem State.modIsland_kvHomes (s : State) (n : Nat) (f : Island → Island) : (s.modIsland n f).kvHomes = s.kvHomes := rfl
@[simp] theorem State.modIsland_kvLog (s : State) (n : Nat) (f : Island → Island) : (s.modIsland n f).kvLog = s.kvLog := rfl
@[simp] theorem State.modIsland_slots (s : State) (n : Nat) (f : Island → Island) : (s.modIsland n f).slots = s.slots := rfl
@[simp] theorem State.modIsland_ctxs (s : State) (n : Nat) (f : Island → Island) : (s.modIsland n f).ctxs = s.ctxs := rfl
@[simp] theorem State.modIsland_shared (s : State) (n : Nat) (f : Island → Island) : (s.modIsland n f).shared = s.shared := rfl
@[simp] theorem State.modIsland_parts (s : State) (n : Nat) (f : Island → Island) : (s.modIsland n f).parts = s.parts := rfl
@[simp] theorem State.modIsland_jobs (s : State) (n : Nat) (f : Island → Island) : (s.modIsland n f).jobs = s.jobs := rfl
@[simp] theorem State.modIsland_nextJob (s : State) (n : Nat) (f : Island → Island) : (s.modIsland n f).nextJob = s.nextJob := rfl
@[simp] theorem State.modIsland_teams (s : State) (n : Nat) (f : Island → Island) : (s.modIsland n f).teams = s.teams := rfl
@[simp] theorem State.modIsland_groups (s : State) (n : Nat) (f : Island → Island) : (s.modIsland n f).groups = s.groups := rfl
@[simp] theorem State.modIsland_cores (s : State) (n : Nat) (f : Island → Island) : (s.modIsland n f).cores = s.cores := rfl
@[simp] theorem State.modIsland_admq (s : State) (n : Nat) (f : Island → Island) : (s.modIsland n f).admq = s.admq := rfl
@[simp] theorem State.modIsland_events (s : State) (n : Nat) (f : Island → Island) : (s.modIsland n f).events = s.events := rfl
@[simp] theorem State.modIsland_etab (s : State) (n : Nat) (f : Island → Island) : (s.modIsland n f).etab = s.etab := rfl
@[simp] theorem State.modIsland_evq (s : State) (n : Nat) (f : Island → Island) : (s.modIsland n f).evq = s.evq := rfl
@[simp] theorem State.modIsland_held (s : State) (n : Nat) (f : Island → Island) : (s.modIsland n f).held = s.held := rfl
@[simp] theorem State.modIsland_seqs (s : State) (n : Nat) (f : Island → Island) : (s.modIsland n f).seqs = s.seqs := rfl
@[simp] theorem State.modIsland_window (s : State) (n : Nat) (f : Island → Island) : (s.modIsland n f).window = s.window := rfl
@[simp] theorem State.modIsland_mbox (s : State) (n : Nat) (f : Island → Island) : (s.modIsland n f).mbox = s.mbox := rfl
@[simp] theorem State.modIsland_mq (s : State) (n : Nat) (f : Island → Island) : (s.modIsland n f).mq = s.mq := rfl
@[simp] theorem State.modIsland_msix (s : State) (n : Nat) (f : Island → Island) : (s.modIsland n f).msix = s.msix := rfl
@[simp] theorem State.modIsland_retx (s : State) (n : Nat) (f : Island → Island) : (s.modIsland n f).retx = s.retx := rfl
@[simp] theorem State.modIsland_hostq (s : State) (n : Nat) (f : Island → Island) : (s.modIsland n f).hostq = s.hostq := rfl
@[simp] theorem State.modIsland_dctrs (s : State) (n : Nat) (f : Island → Island) : (s.modIsland n f).dctrs = s.dctrs := rfl
@[simp] theorem State.modIsland_ring (s : State) (n : Nat) (f : Island → Island) : (s.modIsland n f).ring = s.ring := rfl
@[simp] theorem State.modIsland_clave (s : State) (n : Nat) (f : Island → Island) : (s.modIsland n f).clave = s.clave := rfl
@[simp] theorem State.modIsland_xlines (s : State) (n : Nat) (f : Island → Island) : (s.modIsland n f).xlines = s.xlines := rfl
@[simp] theorem State.modIsland_xpend (s : State) (n : Nat) (f : Island → Island) : (s.modIsland n f).xpend = s.xpend := rfl
@[simp] theorem State.modIsland_thsel (s : State) (n : Nat) (f : Island → Island) : (s.modIsland n f).thsel = s.thsel := rfl
@[simp] theorem State.modIsland_flits (s : State) (n : Nat) (f : Island → Island) : (s.modIsland n f).flits = s.flits := rfl
@[simp] theorem State.modIsland_nextFlit (s : State) (n : Nat) (f : Island → Island) : (s.modIsland n f).nextFlit = s.nextFlit := rfl
@[simp] theorem State.modIsland_ckpt (s : State) (n : Nat) (f : Island → Island) : (s.modIsland n f).ckpt = s.ckpt := rfl
@[simp] theorem State.modIsland_mswitch (s : State) (n : Nat) (f : Island → Island) : (s.modIsland n f).mswitch = s.mswitch := rfl
@[simp] theorem State.modIsland_heldPeer (s : State) (n : Nat) (f : Island → Island) : (s.modIsland n f).heldPeer = s.heldPeer := rfl
@[simp] theorem State.modIsland_strays (s : State) (n : Nat) (f : Island → Island) : (s.modIsland n f).strays = s.strays := rfl
@[simp] theorem State.modIsland_compl (s : State) (n : Nat) (f : Island → Island) : (s.modIsland n f).compl = s.compl := rfl
@[simp] theorem State.modIsland_thefts (s : State) (n : Nat) (f : Island → Island) : (s.modIsland n f).thefts = s.thefts := rfl
@[simp] theorem State.modIsland_fresh (s : State) (n : Nat) (f : Island → Island) : (s.modIsland n f).fresh = s.fresh := rfl
@[simp] theorem State.modIsland_agenda (s : State) (n : Nat) (f : Island → Island) : (s.modIsland n f).agenda = s.agenda := rfl
@[simp] theorem State.modIsland_pass (s : State) (n : Nat) (f : Island → Island) : (s.modIsland n f).pass = s.pass := rfl

/-! ### `State.setEvent` -/

@[simp] theorem State.setEvent_cycle (s : State) (n : Nat) (e : Event) : (s.setEvent n e).cycle = s.cycle := rfl
@[simp] theorem State.setEvent_mem (s : State) (n : Nat) (e : Event) : (s.setEvent n e).mem = s.mem := rfl
@[simp] theorem State.setEvent_tags (s : State) (n : Nat) (e : Event) : (s.setEvent n e).tags = s.tags := rfl
@[simp] theorem State.setEvent_bad (s : State) (n : Nat) (e : Event) : (s.setEvent n e).bad = s.bad := rfl
@[simp] theorem State.setEvent_l2 (s : State) (n : Nat) (e : Event) : (s.setEvent n e).l2 = s.l2 := rfl
@[simp] theorem State.setEvent_wpart (s : State) (n : Nat) (e : Event) : (s.setEvent n e).wpart = s.wpart := rfl
@[simp] theorem State.setEvent_l2tlb (s : State) (n : Nat) (e : Event) : (s.setEvent n e).l2tlb = s.l2tlb := rfl
@[simp] theorem State.setEvent_walks (s : State) (n : Nat) (e : Event) : (s.setEvent n e).walks = s.walks := rfl
@[simp] theorem State.setEvent_results (s : State) (n : Nat) (e : Event) : (s.setEvent n e).results = s.results := rfl
@[simp] theorem State.setEvent_kvHomes (s : State) (n : Nat) (e : Event) : (s.setEvent n e).kvHomes = s.kvHomes := rfl
@[simp] theorem State.setEvent_kvLog (s : State) (n : Nat) (e : Event) : (s.setEvent n e).kvLog = s.kvLog := rfl
@[simp] theorem State.setEvent_slots (s : State) (n : Nat) (e : Event) : (s.setEvent n e).slots = s.slots := rfl
@[simp] theorem State.setEvent_ctxs (s : State) (n : Nat) (e : Event) : (s.setEvent n e).ctxs = s.ctxs := rfl
@[simp] theorem State.setEvent_shared (s : State) (n : Nat) (e : Event) : (s.setEvent n e).shared = s.shared := rfl
@[simp] theorem State.setEvent_parts (s : State) (n : Nat) (e : Event) : (s.setEvent n e).parts = s.parts := rfl
@[simp] theorem State.setEvent_jobs (s : State) (n : Nat) (e : Event) : (s.setEvent n e).jobs = s.jobs := rfl
@[simp] theorem State.setEvent_nextJob (s : State) (n : Nat) (e : Event) : (s.setEvent n e).nextJob = s.nextJob := rfl
@[simp] theorem State.setEvent_teams (s : State) (n : Nat) (e : Event) : (s.setEvent n e).teams = s.teams := rfl
@[simp] theorem State.setEvent_groups (s : State) (n : Nat) (e : Event) : (s.setEvent n e).groups = s.groups := rfl
@[simp] theorem State.setEvent_cores (s : State) (n : Nat) (e : Event) : (s.setEvent n e).cores = s.cores := rfl
@[simp] theorem State.setEvent_admq (s : State) (n : Nat) (e : Event) : (s.setEvent n e).admq = s.admq := rfl
@[simp] theorem State.setEvent_islands (s : State) (n : Nat) (e : Event) : (s.setEvent n e).islands = s.islands := rfl
@[simp] theorem State.setEvent_etab (s : State) (n : Nat) (e : Event) : (s.setEvent n e).etab = s.etab := rfl
@[simp] theorem State.setEvent_evq (s : State) (n : Nat) (e : Event) : (s.setEvent n e).evq = s.evq := rfl
@[simp] theorem State.setEvent_held (s : State) (n : Nat) (e : Event) : (s.setEvent n e).held = s.held := rfl
@[simp] theorem State.setEvent_seqs (s : State) (n : Nat) (e : Event) : (s.setEvent n e).seqs = s.seqs := rfl
@[simp] theorem State.setEvent_window (s : State) (n : Nat) (e : Event) : (s.setEvent n e).window = s.window := rfl
@[simp] theorem State.setEvent_mbox (s : State) (n : Nat) (e : Event) : (s.setEvent n e).mbox = s.mbox := rfl
@[simp] theorem State.setEvent_mq (s : State) (n : Nat) (e : Event) : (s.setEvent n e).mq = s.mq := rfl
@[simp] theorem State.setEvent_msix (s : State) (n : Nat) (e : Event) : (s.setEvent n e).msix = s.msix := rfl
@[simp] theorem State.setEvent_retx (s : State) (n : Nat) (e : Event) : (s.setEvent n e).retx = s.retx := rfl
@[simp] theorem State.setEvent_hostq (s : State) (n : Nat) (e : Event) : (s.setEvent n e).hostq = s.hostq := rfl
@[simp] theorem State.setEvent_dctrs (s : State) (n : Nat) (e : Event) : (s.setEvent n e).dctrs = s.dctrs := rfl
@[simp] theorem State.setEvent_ring (s : State) (n : Nat) (e : Event) : (s.setEvent n e).ring = s.ring := rfl
@[simp] theorem State.setEvent_clave (s : State) (n : Nat) (e : Event) : (s.setEvent n e).clave = s.clave := rfl
@[simp] theorem State.setEvent_xlines (s : State) (n : Nat) (e : Event) : (s.setEvent n e).xlines = s.xlines := rfl
@[simp] theorem State.setEvent_xpend (s : State) (n : Nat) (e : Event) : (s.setEvent n e).xpend = s.xpend := rfl
@[simp] theorem State.setEvent_thsel (s : State) (n : Nat) (e : Event) : (s.setEvent n e).thsel = s.thsel := rfl
@[simp] theorem State.setEvent_flits (s : State) (n : Nat) (e : Event) : (s.setEvent n e).flits = s.flits := rfl
@[simp] theorem State.setEvent_nextFlit (s : State) (n : Nat) (e : Event) : (s.setEvent n e).nextFlit = s.nextFlit := rfl
@[simp] theorem State.setEvent_ckpt (s : State) (n : Nat) (e : Event) : (s.setEvent n e).ckpt = s.ckpt := rfl
@[simp] theorem State.setEvent_mswitch (s : State) (n : Nat) (e : Event) : (s.setEvent n e).mswitch = s.mswitch := rfl
@[simp] theorem State.setEvent_heldPeer (s : State) (n : Nat) (e : Event) : (s.setEvent n e).heldPeer = s.heldPeer := rfl
@[simp] theorem State.setEvent_strays (s : State) (n : Nat) (e : Event) : (s.setEvent n e).strays = s.strays := rfl
@[simp] theorem State.setEvent_compl (s : State) (n : Nat) (e : Event) : (s.setEvent n e).compl = s.compl := rfl
@[simp] theorem State.setEvent_thefts (s : State) (n : Nat) (e : Event) : (s.setEvent n e).thefts = s.thefts := rfl
@[simp] theorem State.setEvent_fresh (s : State) (n : Nat) (e : Event) : (s.setEvent n e).fresh = s.fresh := rfl
@[simp] theorem State.setEvent_agenda (s : State) (n : Nat) (e : Event) : (s.setEvent n e).agenda = s.agenda := rfl
@[simp] theorem State.setEvent_pass (s : State) (n : Nat) (e : Event) : (s.setEvent n e).pass = s.pass := rfl

/-! ### `State.countDev` -/

@[simp] theorem State.countDev_cycle (s : State) (i n : Nat) : (s.countDev i n).cycle = s.cycle := rfl
@[simp] theorem State.countDev_mem (s : State) (i n : Nat) : (s.countDev i n).mem = s.mem := rfl
@[simp] theorem State.countDev_tags (s : State) (i n : Nat) : (s.countDev i n).tags = s.tags := rfl
@[simp] theorem State.countDev_bad (s : State) (i n : Nat) : (s.countDev i n).bad = s.bad := rfl
@[simp] theorem State.countDev_l2 (s : State) (i n : Nat) : (s.countDev i n).l2 = s.l2 := rfl
@[simp] theorem State.countDev_wpart (s : State) (i n : Nat) : (s.countDev i n).wpart = s.wpart := rfl
@[simp] theorem State.countDev_l2tlb (s : State) (i n : Nat) : (s.countDev i n).l2tlb = s.l2tlb := rfl
@[simp] theorem State.countDev_walks (s : State) (i n : Nat) : (s.countDev i n).walks = s.walks := rfl
@[simp] theorem State.countDev_results (s : State) (i n : Nat) : (s.countDev i n).results = s.results := rfl
@[simp] theorem State.countDev_kvHomes (s : State) (i n : Nat) : (s.countDev i n).kvHomes = s.kvHomes := rfl
@[simp] theorem State.countDev_kvLog (s : State) (i n : Nat) : (s.countDev i n).kvLog = s.kvLog := rfl
@[simp] theorem State.countDev_slots (s : State) (i n : Nat) : (s.countDev i n).slots = s.slots := rfl
@[simp] theorem State.countDev_ctxs (s : State) (i n : Nat) : (s.countDev i n).ctxs = s.ctxs := rfl
@[simp] theorem State.countDev_shared (s : State) (i n : Nat) : (s.countDev i n).shared = s.shared := rfl
@[simp] theorem State.countDev_parts (s : State) (i n : Nat) : (s.countDev i n).parts = s.parts := rfl
@[simp] theorem State.countDev_jobs (s : State) (i n : Nat) : (s.countDev i n).jobs = s.jobs := rfl
@[simp] theorem State.countDev_nextJob (s : State) (i n : Nat) : (s.countDev i n).nextJob = s.nextJob := rfl
@[simp] theorem State.countDev_teams (s : State) (i n : Nat) : (s.countDev i n).teams = s.teams := rfl
@[simp] theorem State.countDev_groups (s : State) (i n : Nat) : (s.countDev i n).groups = s.groups := rfl
@[simp] theorem State.countDev_cores (s : State) (i n : Nat) : (s.countDev i n).cores = s.cores := rfl
@[simp] theorem State.countDev_admq (s : State) (i n : Nat) : (s.countDev i n).admq = s.admq := rfl
@[simp] theorem State.countDev_events (s : State) (i n : Nat) : (s.countDev i n).events = s.events := rfl
@[simp] theorem State.countDev_islands (s : State) (i n : Nat) : (s.countDev i n).islands = s.islands := rfl
@[simp] theorem State.countDev_etab (s : State) (i n : Nat) : (s.countDev i n).etab = s.etab := rfl
@[simp] theorem State.countDev_evq (s : State) (i n : Nat) : (s.countDev i n).evq = s.evq := rfl
@[simp] theorem State.countDev_held (s : State) (i n : Nat) : (s.countDev i n).held = s.held := rfl
@[simp] theorem State.countDev_seqs (s : State) (i n : Nat) : (s.countDev i n).seqs = s.seqs := rfl
@[simp] theorem State.countDev_window (s : State) (i n : Nat) : (s.countDev i n).window = s.window := rfl
@[simp] theorem State.countDev_mbox (s : State) (i n : Nat) : (s.countDev i n).mbox = s.mbox := rfl
@[simp] theorem State.countDev_mq (s : State) (i n : Nat) : (s.countDev i n).mq = s.mq := rfl
@[simp] theorem State.countDev_msix (s : State) (i n : Nat) : (s.countDev i n).msix = s.msix := rfl
@[simp] theorem State.countDev_retx (s : State) (i n : Nat) : (s.countDev i n).retx = s.retx := rfl
@[simp] theorem State.countDev_hostq (s : State) (i n : Nat) : (s.countDev i n).hostq = s.hostq := rfl
@[simp] theorem State.countDev_ring (s : State) (i n : Nat) : (s.countDev i n).ring = s.ring := rfl
@[simp] theorem State.countDev_clave (s : State) (i n : Nat) : (s.countDev i n).clave = s.clave := rfl
@[simp] theorem State.countDev_xlines (s : State) (i n : Nat) : (s.countDev i n).xlines = s.xlines := rfl
@[simp] theorem State.countDev_xpend (s : State) (i n : Nat) : (s.countDev i n).xpend = s.xpend := rfl
@[simp] theorem State.countDev_thsel (s : State) (i n : Nat) : (s.countDev i n).thsel = s.thsel := rfl
@[simp] theorem State.countDev_flits (s : State) (i n : Nat) : (s.countDev i n).flits = s.flits := rfl
@[simp] theorem State.countDev_nextFlit (s : State) (i n : Nat) : (s.countDev i n).nextFlit = s.nextFlit := rfl
@[simp] theorem State.countDev_ckpt (s : State) (i n : Nat) : (s.countDev i n).ckpt = s.ckpt := rfl
@[simp] theorem State.countDev_mswitch (s : State) (i n : Nat) : (s.countDev i n).mswitch = s.mswitch := rfl
@[simp] theorem State.countDev_heldPeer (s : State) (i n : Nat) : (s.countDev i n).heldPeer = s.heldPeer := rfl
@[simp] theorem State.countDev_strays (s : State) (i n : Nat) : (s.countDev i n).strays = s.strays := rfl
@[simp] theorem State.countDev_compl (s : State) (i n : Nat) : (s.countDev i n).compl = s.compl := rfl
@[simp] theorem State.countDev_thefts (s : State) (i n : Nat) : (s.countDev i n).thefts = s.thefts := rfl
@[simp] theorem State.countDev_fresh (s : State) (i n : Nat) : (s.countDev i n).fresh = s.fresh := rfl
@[simp] theorem State.countDev_agenda (s : State) (i n : Nat) : (s.countDev i n).agenda = s.agenda := rfl
@[simp] theorem State.countDev_pass (s : State) (i n : Nat) : (s.countDev i n).pass = s.pass := rfl

/-! ### `State.withSel` -/

@[simp] theorem State.withSel_cycle (s : State) (l : List Nat) : (s.withSel l).cycle = s.cycle := rfl
@[simp] theorem State.withSel_mem (s : State) (l : List Nat) : (s.withSel l).mem = s.mem := rfl
@[simp] theorem State.withSel_tags (s : State) (l : List Nat) : (s.withSel l).tags = s.tags := rfl
@[simp] theorem State.withSel_bad (s : State) (l : List Nat) : (s.withSel l).bad = s.bad := rfl
@[simp] theorem State.withSel_l2 (s : State) (l : List Nat) : (s.withSel l).l2 = s.l2 := rfl
@[simp] theorem State.withSel_wpart (s : State) (l : List Nat) : (s.withSel l).wpart = s.wpart := rfl
@[simp] theorem State.withSel_l2tlb (s : State) (l : List Nat) : (s.withSel l).l2tlb = s.l2tlb := rfl
@[simp] theorem State.withSel_walks (s : State) (l : List Nat) : (s.withSel l).walks = s.walks := rfl
@[simp] theorem State.withSel_results (s : State) (l : List Nat) : (s.withSel l).results = s.results := rfl
@[simp] theorem State.withSel_kvHomes (s : State) (l : List Nat) : (s.withSel l).kvHomes = s.kvHomes := rfl
@[simp] theorem State.withSel_kvLog (s : State) (l : List Nat) : (s.withSel l).kvLog = s.kvLog := rfl
@[simp] theorem State.withSel_slots (s : State) (l : List Nat) : (s.withSel l).slots = s.slots := rfl
@[simp] theorem State.withSel_ctxs (s : State) (l : List Nat) : (s.withSel l).ctxs = s.ctxs := rfl
@[simp] theorem State.withSel_shared (s : State) (l : List Nat) : (s.withSel l).shared = s.shared := rfl
@[simp] theorem State.withSel_parts (s : State) (l : List Nat) : (s.withSel l).parts = s.parts := rfl
@[simp] theorem State.withSel_jobs (s : State) (l : List Nat) : (s.withSel l).jobs = s.jobs := rfl
@[simp] theorem State.withSel_nextJob (s : State) (l : List Nat) : (s.withSel l).nextJob = s.nextJob := rfl
@[simp] theorem State.withSel_teams (s : State) (l : List Nat) : (s.withSel l).teams = s.teams := rfl
@[simp] theorem State.withSel_groups (s : State) (l : List Nat) : (s.withSel l).groups = s.groups := rfl
@[simp] theorem State.withSel_cores (s : State) (l : List Nat) : (s.withSel l).cores = s.cores := rfl
@[simp] theorem State.withSel_admq (s : State) (l : List Nat) : (s.withSel l).admq = s.admq := rfl
@[simp] theorem State.withSel_events (s : State) (l : List Nat) : (s.withSel l).events = s.events := rfl
@[simp] theorem State.withSel_islands (s : State) (l : List Nat) : (s.withSel l).islands = s.islands := rfl
@[simp] theorem State.withSel_etab (s : State) (l : List Nat) : (s.withSel l).etab = s.etab := rfl
@[simp] theorem State.withSel_evq (s : State) (l : List Nat) : (s.withSel l).evq = s.evq := rfl
@[simp] theorem State.withSel_held (s : State) (l : List Nat) : (s.withSel l).held = s.held := rfl
@[simp] theorem State.withSel_seqs (s : State) (l : List Nat) : (s.withSel l).seqs = s.seqs := rfl
@[simp] theorem State.withSel_window (s : State) (l : List Nat) : (s.withSel l).window = s.window := rfl
@[simp] theorem State.withSel_mbox (s : State) (l : List Nat) : (s.withSel l).mbox = s.mbox := rfl
@[simp] theorem State.withSel_mq (s : State) (l : List Nat) : (s.withSel l).mq = s.mq := rfl
@[simp] theorem State.withSel_msix (s : State) (l : List Nat) : (s.withSel l).msix = s.msix := rfl
@[simp] theorem State.withSel_retx (s : State) (l : List Nat) : (s.withSel l).retx = s.retx := rfl
@[simp] theorem State.withSel_hostq (s : State) (l : List Nat) : (s.withSel l).hostq = s.hostq := rfl
@[simp] theorem State.withSel_dctrs (s : State) (l : List Nat) : (s.withSel l).dctrs = s.dctrs := rfl
@[simp] theorem State.withSel_ring (s : State) (l : List Nat) : (s.withSel l).ring = s.ring := rfl
@[simp] theorem State.withSel_clave (s : State) (l : List Nat) : (s.withSel l).clave = s.clave := rfl
@[simp] theorem State.withSel_xlines (s : State) (l : List Nat) : (s.withSel l).xlines = s.xlines := rfl
@[simp] theorem State.withSel_xpend (s : State) (l : List Nat) : (s.withSel l).xpend = s.xpend := rfl
@[simp] theorem State.withSel_thsel (s : State) (l : List Nat) : (s.withSel l).thsel = s.thsel := rfl
@[simp] theorem State.withSel_flits (s : State) (l : List Nat) : (s.withSel l).flits = s.flits := rfl
@[simp] theorem State.withSel_nextFlit (s : State) (l : List Nat) : (s.withSel l).nextFlit = s.nextFlit := rfl
@[simp] theorem State.withSel_ckpt (s : State) (l : List Nat) : (s.withSel l).ckpt = s.ckpt := rfl
@[simp] theorem State.withSel_mswitch (s : State) (l : List Nat) : (s.withSel l).mswitch = s.mswitch := rfl
@[simp] theorem State.withSel_heldPeer (s : State) (l : List Nat) : (s.withSel l).heldPeer = s.heldPeer := rfl
@[simp] theorem State.withSel_strays (s : State) (l : List Nat) : (s.withSel l).strays = s.strays := rfl
@[simp] theorem State.withSel_compl (s : State) (l : List Nat) : (s.withSel l).compl = s.compl := rfl
@[simp] theorem State.withSel_thefts (s : State) (l : List Nat) : (s.withSel l).thefts = s.thefts := rfl
@[simp] theorem State.withSel_fresh (s : State) (l : List Nat) : (s.withSel l).fresh = s.fresh := rfl
@[simp] theorem State.withSel_agenda (s : State) (l : List Nat) : (s.withSel l).agenda = s.agenda := rfl

/-! ### `State.withHeld` -/

@[simp] theorem State.withHeld_cycle (s : State) : (s.withHeld).cycle = s.cycle := rfl
@[simp] theorem State.withHeld_mem (s : State) : (s.withHeld).mem = s.mem := rfl
@[simp] theorem State.withHeld_tags (s : State) : (s.withHeld).tags = s.tags := rfl
@[simp] theorem State.withHeld_bad (s : State) : (s.withHeld).bad = s.bad := rfl
@[simp] theorem State.withHeld_l2 (s : State) : (s.withHeld).l2 = s.l2 := rfl
@[simp] theorem State.withHeld_wpart (s : State) : (s.withHeld).wpart = s.wpart := rfl
@[simp] theorem State.withHeld_l2tlb (s : State) : (s.withHeld).l2tlb = s.l2tlb := rfl
@[simp] theorem State.withHeld_walks (s : State) : (s.withHeld).walks = s.walks := rfl
@[simp] theorem State.withHeld_results (s : State) : (s.withHeld).results = s.results := rfl
@[simp] theorem State.withHeld_kvHomes (s : State) : (s.withHeld).kvHomes = s.kvHomes := rfl
@[simp] theorem State.withHeld_kvLog (s : State) : (s.withHeld).kvLog = s.kvLog := rfl
@[simp] theorem State.withHeld_slots (s : State) : (s.withHeld).slots = s.slots := rfl
@[simp] theorem State.withHeld_ctxs (s : State) : (s.withHeld).ctxs = s.ctxs := rfl
@[simp] theorem State.withHeld_shared (s : State) : (s.withHeld).shared = s.shared := rfl
@[simp] theorem State.withHeld_parts (s : State) : (s.withHeld).parts = s.parts := rfl
@[simp] theorem State.withHeld_jobs (s : State) : (s.withHeld).jobs = s.jobs := rfl
@[simp] theorem State.withHeld_nextJob (s : State) : (s.withHeld).nextJob = s.nextJob := rfl
@[simp] theorem State.withHeld_teams (s : State) : (s.withHeld).teams = s.teams := rfl
@[simp] theorem State.withHeld_groups (s : State) : (s.withHeld).groups = s.groups := rfl
@[simp] theorem State.withHeld_cores (s : State) : (s.withHeld).cores = s.cores := rfl
@[simp] theorem State.withHeld_admq (s : State) : (s.withHeld).admq = s.admq := rfl
@[simp] theorem State.withHeld_events (s : State) : (s.withHeld).events = s.events := rfl
@[simp] theorem State.withHeld_islands (s : State) : (s.withHeld).islands = s.islands := rfl
@[simp] theorem State.withHeld_etab (s : State) : (s.withHeld).etab = s.etab := rfl
@[simp] theorem State.withHeld_evq (s : State) : (s.withHeld).evq = s.evq := rfl
@[simp] theorem State.withHeld_held (s : State) : (s.withHeld).held = s.held := rfl
@[simp] theorem State.withHeld_seqs (s : State) : (s.withHeld).seqs = s.seqs := rfl
@[simp] theorem State.withHeld_window (s : State) : (s.withHeld).window = s.window := rfl
@[simp] theorem State.withHeld_mbox (s : State) : (s.withHeld).mbox = s.mbox := rfl
@[simp] theorem State.withHeld_mq (s : State) : (s.withHeld).mq = s.mq := rfl
@[simp] theorem State.withHeld_msix (s : State) : (s.withHeld).msix = s.msix := rfl
@[simp] theorem State.withHeld_retx (s : State) : (s.withHeld).retx = s.retx := rfl
@[simp] theorem State.withHeld_hostq (s : State) : (s.withHeld).hostq = s.hostq := rfl
@[simp] theorem State.withHeld_dctrs (s : State) : (s.withHeld).dctrs = s.dctrs := rfl
@[simp] theorem State.withHeld_ring (s : State) : (s.withHeld).ring = s.ring := rfl
@[simp] theorem State.withHeld_clave (s : State) : (s.withHeld).clave = s.clave := rfl
@[simp] theorem State.withHeld_xlines (s : State) : (s.withHeld).xlines = s.xlines := rfl
@[simp] theorem State.withHeld_xpend (s : State) : (s.withHeld).xpend = s.xpend := rfl
@[simp] theorem State.withHeld_thsel (s : State) : (s.withHeld).thsel = s.thsel := rfl
@[simp] theorem State.withHeld_flits (s : State) : (s.withHeld).flits = s.flits := rfl
@[simp] theorem State.withHeld_nextFlit (s : State) : (s.withHeld).nextFlit = s.nextFlit := rfl
@[simp] theorem State.withHeld_ckpt (s : State) : (s.withHeld).ckpt = s.ckpt := rfl
@[simp] theorem State.withHeld_mswitch (s : State) : (s.withHeld).mswitch = s.mswitch := rfl
@[simp] theorem State.withHeld_heldPeer (s : State) : (s.withHeld).heldPeer = s.heldPeer := rfl
@[simp] theorem State.withHeld_strays (s : State) : (s.withHeld).strays = s.strays := rfl
@[simp] theorem State.withHeld_compl (s : State) : (s.withHeld).compl = s.compl := rfl
@[simp] theorem State.withHeld_thefts (s : State) : (s.withHeld).thefts = s.thefts := rfl
@[simp] theorem State.withHeld_fresh (s : State) : (s.withHeld).fresh = s.fresh := rfl
@[simp] theorem State.withHeld_agenda (s : State) : (s.withHeld).agenda = s.agenda := rfl

/-! ### `State.bump` -/

@[simp] theorem State.bump_cycle (s : State) : (s.bump).cycle = s.cycle := rfl
@[simp] theorem State.bump_mem (s : State) : (s.bump).mem = s.mem := rfl
@[simp] theorem State.bump_tags (s : State) : (s.bump).tags = s.tags := rfl
@[simp] theorem State.bump_bad (s : State) : (s.bump).bad = s.bad := rfl
@[simp] theorem State.bump_l2 (s : State) : (s.bump).l2 = s.l2 := rfl
@[simp] theorem State.bump_wpart (s : State) : (s.bump).wpart = s.wpart := rfl
@[simp] theorem State.bump_l2tlb (s : State) : (s.bump).l2tlb = s.l2tlb := rfl
@[simp] theorem State.bump_walks (s : State) : (s.bump).walks = s.walks := rfl
@[simp] theorem State.bump_results (s : State) : (s.bump).results = s.results := rfl
@[simp] theorem State.bump_kvHomes (s : State) : (s.bump).kvHomes = s.kvHomes := rfl
@[simp] theorem State.bump_kvLog (s : State) : (s.bump).kvLog = s.kvLog := rfl
@[simp] theorem State.bump_slots (s : State) : (s.bump).slots = s.slots := rfl
@[simp] theorem State.bump_ctxs (s : State) : (s.bump).ctxs = s.ctxs := rfl
@[simp] theorem State.bump_shared (s : State) : (s.bump).shared = s.shared := rfl
@[simp] theorem State.bump_parts (s : State) : (s.bump).parts = s.parts := rfl
@[simp] theorem State.bump_jobs (s : State) : (s.bump).jobs = s.jobs := rfl
@[simp] theorem State.bump_nextJob (s : State) : (s.bump).nextJob = s.nextJob := rfl
@[simp] theorem State.bump_teams (s : State) : (s.bump).teams = s.teams := rfl
@[simp] theorem State.bump_groups (s : State) : (s.bump).groups = s.groups := rfl
@[simp] theorem State.bump_cores (s : State) : (s.bump).cores = s.cores := rfl
@[simp] theorem State.bump_admq (s : State) : (s.bump).admq = s.admq := rfl
@[simp] theorem State.bump_events (s : State) : (s.bump).events = s.events := rfl
@[simp] theorem State.bump_islands (s : State) : (s.bump).islands = s.islands := rfl
@[simp] theorem State.bump_etab (s : State) : (s.bump).etab = s.etab := rfl
@[simp] theorem State.bump_evq (s : State) : (s.bump).evq = s.evq := rfl
@[simp] theorem State.bump_held (s : State) : (s.bump).held = s.held := rfl
@[simp] theorem State.bump_seqs (s : State) : (s.bump).seqs = s.seqs := rfl
@[simp] theorem State.bump_window (s : State) : (s.bump).window = s.window := rfl
@[simp] theorem State.bump_mbox (s : State) : (s.bump).mbox = s.mbox := rfl
@[simp] theorem State.bump_mq (s : State) : (s.bump).mq = s.mq := rfl
@[simp] theorem State.bump_msix (s : State) : (s.bump).msix = s.msix := rfl
@[simp] theorem State.bump_retx (s : State) : (s.bump).retx = s.retx := rfl
@[simp] theorem State.bump_hostq (s : State) : (s.bump).hostq = s.hostq := rfl
@[simp] theorem State.bump_dctrs (s : State) : (s.bump).dctrs = s.dctrs := rfl
@[simp] theorem State.bump_ring (s : State) : (s.bump).ring = s.ring := rfl
@[simp] theorem State.bump_clave (s : State) : (s.bump).clave = s.clave := rfl
@[simp] theorem State.bump_xlines (s : State) : (s.bump).xlines = s.xlines := rfl
@[simp] theorem State.bump_xpend (s : State) : (s.bump).xpend = s.xpend := rfl
@[simp] theorem State.bump_thsel (s : State) : (s.bump).thsel = s.thsel := rfl
@[simp] theorem State.bump_flits (s : State) : (s.bump).flits = s.flits := rfl
@[simp] theorem State.bump_nextFlit (s : State) : (s.bump).nextFlit = s.nextFlit := rfl
@[simp] theorem State.bump_ckpt (s : State) : (s.bump).ckpt = s.ckpt := rfl
@[simp] theorem State.bump_mswitch (s : State) : (s.bump).mswitch = s.mswitch := rfl
@[simp] theorem State.bump_heldPeer (s : State) : (s.bump).heldPeer = s.heldPeer := rfl
@[simp] theorem State.bump_strays (s : State) : (s.bump).strays = s.strays := rfl
@[simp] theorem State.bump_compl (s : State) : (s.bump).compl = s.compl := rfl
@[simp] theorem State.bump_thefts (s : State) : (s.bump).thefts = s.thefts := rfl
@[simp] theorem State.bump_agenda (s : State) : (s.bump).agenda = s.agenda := rfl
@[simp] theorem State.bump_pass (s : State) : (s.bump).pass = s.pass := rfl

/-! ### `State.bumpBy` -/

@[simp] theorem State.bumpBy_cycle (s : State) (n : Nat) : (s.bumpBy n).cycle = s.cycle := rfl
@[simp] theorem State.bumpBy_mem (s : State) (n : Nat) : (s.bumpBy n).mem = s.mem := rfl
@[simp] theorem State.bumpBy_tags (s : State) (n : Nat) : (s.bumpBy n).tags = s.tags := rfl
@[simp] theorem State.bumpBy_bad (s : State) (n : Nat) : (s.bumpBy n).bad = s.bad := rfl
@[simp] theorem State.bumpBy_l2 (s : State) (n : Nat) : (s.bumpBy n).l2 = s.l2 := rfl
@[simp] theorem State.bumpBy_wpart (s : State) (n : Nat) : (s.bumpBy n).wpart = s.wpart := rfl
@[simp] theorem State.bumpBy_l2tlb (s : State) (n : Nat) : (s.bumpBy n).l2tlb = s.l2tlb := rfl
@[simp] theorem State.bumpBy_walks (s : State) (n : Nat) : (s.bumpBy n).walks = s.walks := rfl
@[simp] theorem State.bumpBy_results (s : State) (n : Nat) : (s.bumpBy n).results = s.results := rfl
@[simp] theorem State.bumpBy_kvHomes (s : State) (n : Nat) : (s.bumpBy n).kvHomes = s.kvHomes := rfl
@[simp] theorem State.bumpBy_kvLog (s : State) (n : Nat) : (s.bumpBy n).kvLog = s.kvLog := rfl
@[simp] theorem State.bumpBy_slots (s : State) (n : Nat) : (s.bumpBy n).slots = s.slots := rfl
@[simp] theorem State.bumpBy_ctxs (s : State) (n : Nat) : (s.bumpBy n).ctxs = s.ctxs := rfl
@[simp] theorem State.bumpBy_shared (s : State) (n : Nat) : (s.bumpBy n).shared = s.shared := rfl
@[simp] theorem State.bumpBy_parts (s : State) (n : Nat) : (s.bumpBy n).parts = s.parts := rfl
@[simp] theorem State.bumpBy_jobs (s : State) (n : Nat) : (s.bumpBy n).jobs = s.jobs := rfl
@[simp] theorem State.bumpBy_nextJob (s : State) (n : Nat) : (s.bumpBy n).nextJob = s.nextJob := rfl
@[simp] theorem State.bumpBy_teams (s : State) (n : Nat) : (s.bumpBy n).teams = s.teams := rfl
@[simp] theorem State.bumpBy_groups (s : State) (n : Nat) : (s.bumpBy n).groups = s.groups := rfl
@[simp] theorem State.bumpBy_cores (s : State) (n : Nat) : (s.bumpBy n).cores = s.cores := rfl
@[simp] theorem State.bumpBy_admq (s : State) (n : Nat) : (s.bumpBy n).admq = s.admq := rfl
@[simp] theorem State.bumpBy_events (s : State) (n : Nat) : (s.bumpBy n).events = s.events := rfl
@[simp] theorem State.bumpBy_islands (s : State) (n : Nat) : (s.bumpBy n).islands = s.islands := rfl
@[simp] theorem State.bumpBy_etab (s : State) (n : Nat) : (s.bumpBy n).etab = s.etab := rfl
@[simp] theorem State.bumpBy_evq (s : State) (n : Nat) : (s.bumpBy n).evq = s.evq := rfl
@[simp] theorem State.bumpBy_held (s : State) (n : Nat) : (s.bumpBy n).held = s.held := rfl
@[simp] theorem State.bumpBy_seqs (s : State) (n : Nat) : (s.bumpBy n).seqs = s.seqs := rfl
@[simp] theorem State.bumpBy_window (s : State) (n : Nat) : (s.bumpBy n).window = s.window := rfl
@[simp] theorem State.bumpBy_mbox (s : State) (n : Nat) : (s.bumpBy n).mbox = s.mbox := rfl
@[simp] theorem State.bumpBy_mq (s : State) (n : Nat) : (s.bumpBy n).mq = s.mq := rfl
@[simp] theorem State.bumpBy_msix (s : State) (n : Nat) : (s.bumpBy n).msix = s.msix := rfl
@[simp] theorem State.bumpBy_retx (s : State) (n : Nat) : (s.bumpBy n).retx = s.retx := rfl
@[simp] theorem State.bumpBy_hostq (s : State) (n : Nat) : (s.bumpBy n).hostq = s.hostq := rfl
@[simp] theorem State.bumpBy_dctrs (s : State) (n : Nat) : (s.bumpBy n).dctrs = s.dctrs := rfl
@[simp] theorem State.bumpBy_ring (s : State) (n : Nat) : (s.bumpBy n).ring = s.ring := rfl
@[simp] theorem State.bumpBy_clave (s : State) (n : Nat) : (s.bumpBy n).clave = s.clave := rfl
@[simp] theorem State.bumpBy_xlines (s : State) (n : Nat) : (s.bumpBy n).xlines = s.xlines := rfl
@[simp] theorem State.bumpBy_xpend (s : State) (n : Nat) : (s.bumpBy n).xpend = s.xpend := rfl
@[simp] theorem State.bumpBy_thsel (s : State) (n : Nat) : (s.bumpBy n).thsel = s.thsel := rfl
@[simp] theorem State.bumpBy_flits (s : State) (n : Nat) : (s.bumpBy n).flits = s.flits := rfl
@[simp] theorem State.bumpBy_nextFlit (s : State) (n : Nat) : (s.bumpBy n).nextFlit = s.nextFlit := rfl
@[simp] theorem State.bumpBy_ckpt (s : State) (n : Nat) : (s.bumpBy n).ckpt = s.ckpt := rfl
@[simp] theorem State.bumpBy_mswitch (s : State) (n : Nat) : (s.bumpBy n).mswitch = s.mswitch := rfl
@[simp] theorem State.bumpBy_heldPeer (s : State) (n : Nat) : (s.bumpBy n).heldPeer = s.heldPeer := rfl
@[simp] theorem State.bumpBy_strays (s : State) (n : Nat) : (s.bumpBy n).strays = s.strays := rfl
@[simp] theorem State.bumpBy_compl (s : State) (n : Nat) : (s.bumpBy n).compl = s.compl := rfl
@[simp] theorem State.bumpBy_thefts (s : State) (n : Nat) : (s.bumpBy n).thefts = s.thefts := rfl
@[simp] theorem State.bumpBy_agenda (s : State) (n : Nat) : (s.bumpBy n).agenda = s.agenda := rfl
@[simp] theorem State.bumpBy_pass (s : State) (n : Nat) : (s.bumpBy n).pass = s.pass := rfl

/-! ### `State.noteThefts` -/

@[simp] theorem State.noteThefts_cycle (s : State) (n : Nat) (l : List TeamKey) : (s.noteThefts n l).cycle = s.cycle := rfl
@[simp] theorem State.noteThefts_mem (s : State) (n : Nat) (l : List TeamKey) : (s.noteThefts n l).mem = s.mem := rfl
@[simp] theorem State.noteThefts_tags (s : State) (n : Nat) (l : List TeamKey) : (s.noteThefts n l).tags = s.tags := rfl
@[simp] theorem State.noteThefts_bad (s : State) (n : Nat) (l : List TeamKey) : (s.noteThefts n l).bad = s.bad := rfl
@[simp] theorem State.noteThefts_l2 (s : State) (n : Nat) (l : List TeamKey) : (s.noteThefts n l).l2 = s.l2 := rfl
@[simp] theorem State.noteThefts_wpart (s : State) (n : Nat) (l : List TeamKey) : (s.noteThefts n l).wpart = s.wpart := rfl
@[simp] theorem State.noteThefts_l2tlb (s : State) (n : Nat) (l : List TeamKey) : (s.noteThefts n l).l2tlb = s.l2tlb := rfl
@[simp] theorem State.noteThefts_walks (s : State) (n : Nat) (l : List TeamKey) : (s.noteThefts n l).walks = s.walks := rfl
@[simp] theorem State.noteThefts_results (s : State) (n : Nat) (l : List TeamKey) : (s.noteThefts n l).results = s.results := rfl
@[simp] theorem State.noteThefts_kvHomes (s : State) (n : Nat) (l : List TeamKey) : (s.noteThefts n l).kvHomes = s.kvHomes := rfl
@[simp] theorem State.noteThefts_kvLog (s : State) (n : Nat) (l : List TeamKey) : (s.noteThefts n l).kvLog = s.kvLog := rfl
@[simp] theorem State.noteThefts_slots (s : State) (n : Nat) (l : List TeamKey) : (s.noteThefts n l).slots = s.slots := rfl
@[simp] theorem State.noteThefts_ctxs (s : State) (n : Nat) (l : List TeamKey) : (s.noteThefts n l).ctxs = s.ctxs := rfl
@[simp] theorem State.noteThefts_shared (s : State) (n : Nat) (l : List TeamKey) : (s.noteThefts n l).shared = s.shared := rfl
@[simp] theorem State.noteThefts_parts (s : State) (n : Nat) (l : List TeamKey) : (s.noteThefts n l).parts = s.parts := rfl
@[simp] theorem State.noteThefts_jobs (s : State) (n : Nat) (l : List TeamKey) : (s.noteThefts n l).jobs = s.jobs := rfl
@[simp] theorem State.noteThefts_nextJob (s : State) (n : Nat) (l : List TeamKey) : (s.noteThefts n l).nextJob = s.nextJob := rfl
@[simp] theorem State.noteThefts_teams (s : State) (n : Nat) (l : List TeamKey) : (s.noteThefts n l).teams = s.teams := rfl
@[simp] theorem State.noteThefts_groups (s : State) (n : Nat) (l : List TeamKey) : (s.noteThefts n l).groups = s.groups := rfl
@[simp] theorem State.noteThefts_cores (s : State) (n : Nat) (l : List TeamKey) : (s.noteThefts n l).cores = s.cores := rfl
@[simp] theorem State.noteThefts_admq (s : State) (n : Nat) (l : List TeamKey) : (s.noteThefts n l).admq = s.admq := rfl
@[simp] theorem State.noteThefts_events (s : State) (n : Nat) (l : List TeamKey) : (s.noteThefts n l).events = s.events := rfl
@[simp] theorem State.noteThefts_islands (s : State) (n : Nat) (l : List TeamKey) : (s.noteThefts n l).islands = s.islands := rfl
@[simp] theorem State.noteThefts_etab (s : State) (n : Nat) (l : List TeamKey) : (s.noteThefts n l).etab = s.etab := rfl
@[simp] theorem State.noteThefts_evq (s : State) (n : Nat) (l : List TeamKey) : (s.noteThefts n l).evq = s.evq := rfl
@[simp] theorem State.noteThefts_held (s : State) (n : Nat) (l : List TeamKey) : (s.noteThefts n l).held = s.held := rfl
@[simp] theorem State.noteThefts_seqs (s : State) (n : Nat) (l : List TeamKey) : (s.noteThefts n l).seqs = s.seqs := rfl
@[simp] theorem State.noteThefts_window (s : State) (n : Nat) (l : List TeamKey) : (s.noteThefts n l).window = s.window := rfl
@[simp] theorem State.noteThefts_mbox (s : State) (n : Nat) (l : List TeamKey) : (s.noteThefts n l).mbox = s.mbox := rfl
@[simp] theorem State.noteThefts_mq (s : State) (n : Nat) (l : List TeamKey) : (s.noteThefts n l).mq = s.mq := rfl
@[simp] theorem State.noteThefts_msix (s : State) (n : Nat) (l : List TeamKey) : (s.noteThefts n l).msix = s.msix := rfl
@[simp] theorem State.noteThefts_retx (s : State) (n : Nat) (l : List TeamKey) : (s.noteThefts n l).retx = s.retx := rfl
@[simp] theorem State.noteThefts_hostq (s : State) (n : Nat) (l : List TeamKey) : (s.noteThefts n l).hostq = s.hostq := rfl
@[simp] theorem State.noteThefts_dctrs (s : State) (n : Nat) (l : List TeamKey) : (s.noteThefts n l).dctrs = s.dctrs := rfl
@[simp] theorem State.noteThefts_ring (s : State) (n : Nat) (l : List TeamKey) : (s.noteThefts n l).ring = s.ring := rfl
@[simp] theorem State.noteThefts_clave (s : State) (n : Nat) (l : List TeamKey) : (s.noteThefts n l).clave = s.clave := rfl
@[simp] theorem State.noteThefts_xlines (s : State) (n : Nat) (l : List TeamKey) : (s.noteThefts n l).xlines = s.xlines := rfl
@[simp] theorem State.noteThefts_xpend (s : State) (n : Nat) (l : List TeamKey) : (s.noteThefts n l).xpend = s.xpend := rfl
@[simp] theorem State.noteThefts_thsel (s : State) (n : Nat) (l : List TeamKey) : (s.noteThefts n l).thsel = s.thsel := rfl
@[simp] theorem State.noteThefts_flits (s : State) (n : Nat) (l : List TeamKey) : (s.noteThefts n l).flits = s.flits := rfl
@[simp] theorem State.noteThefts_nextFlit (s : State) (n : Nat) (l : List TeamKey) : (s.noteThefts n l).nextFlit = s.nextFlit := rfl
@[simp] theorem State.noteThefts_ckpt (s : State) (n : Nat) (l : List TeamKey) : (s.noteThefts n l).ckpt = s.ckpt := rfl
@[simp] theorem State.noteThefts_mswitch (s : State) (n : Nat) (l : List TeamKey) : (s.noteThefts n l).mswitch = s.mswitch := rfl
@[simp] theorem State.noteThefts_heldPeer (s : State) (n : Nat) (l : List TeamKey) : (s.noteThefts n l).heldPeer = s.heldPeer := rfl
@[simp] theorem State.noteThefts_strays (s : State) (n : Nat) (l : List TeamKey) : (s.noteThefts n l).strays = s.strays := rfl
@[simp] theorem State.noteThefts_compl (s : State) (n : Nat) (l : List TeamKey) : (s.noteThefts n l).compl = s.compl := rfl
@[simp] theorem State.noteThefts_fresh (s : State) (n : Nat) (l : List TeamKey) : (s.noteThefts n l).fresh = s.fresh := rfl
@[simp] theorem State.noteThefts_agenda (s : State) (n : Nat) (l : List TeamKey) : (s.noteThefts n l).agenda = s.agenda := rfl
@[simp] theorem State.noteThefts_pass (s : State) (n : Nat) (l : List TeamKey) : (s.noteThefts n l).pass = s.pass := rfl

/-! ### `State.answer` -/

@[simp] theorem State.answer_cycle (s : State) (x : HostOut) : (s.answer x).cycle = s.cycle := rfl
@[simp] theorem State.answer_mem (s : State) (x : HostOut) : (s.answer x).mem = s.mem := rfl
@[simp] theorem State.answer_tags (s : State) (x : HostOut) : (s.answer x).tags = s.tags := rfl
@[simp] theorem State.answer_bad (s : State) (x : HostOut) : (s.answer x).bad = s.bad := rfl
@[simp] theorem State.answer_l2 (s : State) (x : HostOut) : (s.answer x).l2 = s.l2 := rfl
@[simp] theorem State.answer_wpart (s : State) (x : HostOut) : (s.answer x).wpart = s.wpart := rfl
@[simp] theorem State.answer_l2tlb (s : State) (x : HostOut) : (s.answer x).l2tlb = s.l2tlb := rfl
@[simp] theorem State.answer_walks (s : State) (x : HostOut) : (s.answer x).walks = s.walks := rfl
@[simp] theorem State.answer_results (s : State) (x : HostOut) : (s.answer x).results = s.results := rfl
@[simp] theorem State.answer_kvHomes (s : State) (x : HostOut) : (s.answer x).kvHomes = s.kvHomes := rfl
@[simp] theorem State.answer_kvLog (s : State) (x : HostOut) : (s.answer x).kvLog = s.kvLog := rfl
@[simp] theorem State.answer_slots (s : State) (x : HostOut) : (s.answer x).slots = s.slots := rfl
@[simp] theorem State.answer_ctxs (s : State) (x : HostOut) : (s.answer x).ctxs = s.ctxs := rfl
@[simp] theorem State.answer_shared (s : State) (x : HostOut) : (s.answer x).shared = s.shared := rfl
@[simp] theorem State.answer_parts (s : State) (x : HostOut) : (s.answer x).parts = s.parts := rfl
@[simp] theorem State.answer_jobs (s : State) (x : HostOut) : (s.answer x).jobs = s.jobs := rfl
@[simp] theorem State.answer_nextJob (s : State) (x : HostOut) : (s.answer x).nextJob = s.nextJob := rfl
@[simp] theorem State.answer_teams (s : State) (x : HostOut) : (s.answer x).teams = s.teams := rfl
@[simp] theorem State.answer_groups (s : State) (x : HostOut) : (s.answer x).groups = s.groups := rfl
@[simp] theorem State.answer_cores (s : State) (x : HostOut) : (s.answer x).cores = s.cores := rfl
@[simp] theorem State.answer_admq (s : State) (x : HostOut) : (s.answer x).admq = s.admq := rfl
@[simp] theorem State.answer_events (s : State) (x : HostOut) : (s.answer x).events = s.events := rfl
@[simp] theorem State.answer_islands (s : State) (x : HostOut) : (s.answer x).islands = s.islands := rfl
@[simp] theorem State.answer_etab (s : State) (x : HostOut) : (s.answer x).etab = s.etab := rfl
@[simp] theorem State.answer_evq (s : State) (x : HostOut) : (s.answer x).evq = s.evq := rfl
@[simp] theorem State.answer_held (s : State) (x : HostOut) : (s.answer x).held = s.held := rfl
@[simp] theorem State.answer_seqs (s : State) (x : HostOut) : (s.answer x).seqs = s.seqs := rfl
@[simp] theorem State.answer_window (s : State) (x : HostOut) : (s.answer x).window = s.window := rfl
@[simp] theorem State.answer_mbox (s : State) (x : HostOut) : (s.answer x).mbox = s.mbox := rfl
@[simp] theorem State.answer_mq (s : State) (x : HostOut) : (s.answer x).mq = s.mq := rfl
@[simp] theorem State.answer_msix (s : State) (x : HostOut) : (s.answer x).msix = s.msix := rfl
@[simp] theorem State.answer_retx (s : State) (x : HostOut) : (s.answer x).retx = s.retx := rfl
@[simp] theorem State.answer_dctrs (s : State) (x : HostOut) : (s.answer x).dctrs = s.dctrs := rfl
@[simp] theorem State.answer_ring (s : State) (x : HostOut) : (s.answer x).ring = s.ring := rfl
@[simp] theorem State.answer_clave (s : State) (x : HostOut) : (s.answer x).clave = s.clave := rfl
@[simp] theorem State.answer_xlines (s : State) (x : HostOut) : (s.answer x).xlines = s.xlines := rfl
@[simp] theorem State.answer_xpend (s : State) (x : HostOut) : (s.answer x).xpend = s.xpend := rfl
@[simp] theorem State.answer_thsel (s : State) (x : HostOut) : (s.answer x).thsel = s.thsel := rfl
@[simp] theorem State.answer_flits (s : State) (x : HostOut) : (s.answer x).flits = s.flits := rfl
@[simp] theorem State.answer_nextFlit (s : State) (x : HostOut) : (s.answer x).nextFlit = s.nextFlit := rfl
@[simp] theorem State.answer_ckpt (s : State) (x : HostOut) : (s.answer x).ckpt = s.ckpt := rfl
@[simp] theorem State.answer_mswitch (s : State) (x : HostOut) : (s.answer x).mswitch = s.mswitch := rfl
@[simp] theorem State.answer_heldPeer (s : State) (x : HostOut) : (s.answer x).heldPeer = s.heldPeer := rfl
@[simp] theorem State.answer_strays (s : State) (x : HostOut) : (s.answer x).strays = s.strays := rfl
@[simp] theorem State.answer_compl (s : State) (x : HostOut) : (s.answer x).compl = s.compl := rfl
@[simp] theorem State.answer_thefts (s : State) (x : HostOut) : (s.answer x).thefts = s.thefts := rfl
@[simp] theorem State.answer_fresh (s : State) (x : HostOut) : (s.answer x).fresh = s.fresh := rfl
@[simp] theorem State.answer_agenda (s : State) (x : HostOut) : (s.answer x).agenda = s.agenda := rfl
@[simp] theorem State.answer_pass (s : State) (x : HostOut) : (s.answer x).pass = s.pass := rfl

/-! ### `Group.modThr` -/

@[simp] theorem Group.modThr_key (g : Group) (t : Nat) (f : Thread → Thread) : (g.modThr t f).key = g.key := rfl
@[simp] theorem Group.modThr_stage (g : Group) (t : Nat) (f : Thread → Thread) : (g.modThr t f).stage = g.stage := rfl
@[simp] theorem Group.modThr_inst (g : Group) (t : Nat) (f : Thread → Thread) : (g.modThr t f).inst = g.inst := rfl
@[simp] theorem Group.modThr_uvec (g : Group) (t : Nat) (f : Thread → Thread) : (g.modThr t f).uvec = g.uvec := rfl
@[simp] theorem Group.modThr_tiles (g : Group) (t : Nat) (f : Thread → Thread) : (g.modThr t f).tiles = g.tiles := rfl
@[simp] theorem Group.modThr_kpred (g : Group) (t : Nat) (f : Thread → Thread) : (g.modThr t f).kpred = g.kpred := rfl
@[simp] theorem Group.modThr_ols (g : Group) (t : Nat) (f : Thread → Thread) : (g.modThr t f).ols = g.ols := rfl
@[simp] theorem Group.modThr_sets (g : Group) (t : Nat) (f : Thread → Thread) : (g.modThr t f).sets = g.sets := rfl
@[simp] theorem Group.modThr_loop (g : Group) (t : Nat) (f : Thread → Thread) : (g.modThr t f).loop = g.loop := rfl
@[simp] theorem Group.modThr_wcount (g : Group) (t : Nat) (f : Thread → Thread) : (g.modThr t f).wcount = g.wcount := rfl
@[simp] theorem Group.modThr_hold (g : Group) (t : Nat) (f : Thread → Thread) : (g.modThr t f).hold = g.hold := rfl
@[simp] theorem Group.modThr_done (g : Group) (t : Nat) (f : Thread → Thread) : (g.modThr t f).done = g.done := rfl
@[simp] theorem Group.modThr_stalled (g : Group) (t : Nat) (f : Thread → Thread) : (g.modThr t f).stalled = g.stalled := rfl
@[simp] theorem Group.modThr_slotw (g : Group) (t : Nat) (f : Thread → Thread) : (g.modThr t f).slotw = g.slotw := rfl
@[simp] theorem Group.modThr_collw (g : Group) (t : Nat) (f : Thread → Thread) : (g.modThr t f).collw = g.collw := rfl
@[simp] theorem Group.modThr_began (g : Group) (t : Nat) (f : Thread → Thread) : (g.modThr t f).began = g.began := rfl
@[simp] theorem Group.modThr_iss (g : Group) (t : Nat) (f : Thread → Thread) : (g.modThr t f).iss = g.iss := rfl
@[simp] theorem Group.modThr_resv (g : Group) (t : Nat) (f : Thread → Thread) : (g.modThr t f).resv = g.resv := rfl
@[simp] theorem Group.modThr_grant (g : Group) (t : Nat) (f : Thread → Thread) : (g.modThr t f).grant = g.grant := rfl
@[simp] theorem Group.modThr_leave (g : Group) (t : Nat) (f : Thread → Thread) : (g.modThr t f).leave = g.leave := rfl
@[simp] theorem Group.modThr_mmas (g : Group) (t : Nat) (f : Thread → Thread) : (g.modThr t f).mmas = g.mmas := rfl
@[simp] theorem Group.modThr_ended (g : Group) (t : Nat) (f : Thread → Thread) : (g.modThr t f).ended = g.ended := rfl
@[simp] theorem Group.modThr_gone (g : Group) (t : Nat) (f : Thread → Thread) : (g.modThr t f).gone = g.gone := rfl

/-! ### `Group.mapThreads` -/

@[simp] theorem Group.mapThreads_key (g : Group) (f : Nat → Thread → Thread) : (g.mapThreads f).key = g.key := rfl
@[simp] theorem Group.mapThreads_stage (g : Group) (f : Nat → Thread → Thread) : (g.mapThreads f).stage = g.stage := rfl
@[simp] theorem Group.mapThreads_inst (g : Group) (f : Nat → Thread → Thread) : (g.mapThreads f).inst = g.inst := rfl
@[simp] theorem Group.mapThreads_uvec (g : Group) (f : Nat → Thread → Thread) : (g.mapThreads f).uvec = g.uvec := rfl
@[simp] theorem Group.mapThreads_tiles (g : Group) (f : Nat → Thread → Thread) : (g.mapThreads f).tiles = g.tiles := rfl
@[simp] theorem Group.mapThreads_kpred (g : Group) (f : Nat → Thread → Thread) : (g.mapThreads f).kpred = g.kpred := rfl
@[simp] theorem Group.mapThreads_ols (g : Group) (f : Nat → Thread → Thread) : (g.mapThreads f).ols = g.ols := rfl
@[simp] theorem Group.mapThreads_sets (g : Group) (f : Nat → Thread → Thread) : (g.mapThreads f).sets = g.sets := rfl
@[simp] theorem Group.mapThreads_loop (g : Group) (f : Nat → Thread → Thread) : (g.mapThreads f).loop = g.loop := rfl
@[simp] theorem Group.mapThreads_wcount (g : Group) (f : Nat → Thread → Thread) : (g.mapThreads f).wcount = g.wcount := rfl
@[simp] theorem Group.mapThreads_hold (g : Group) (f : Nat → Thread → Thread) : (g.mapThreads f).hold = g.hold := rfl
@[simp] theorem Group.mapThreads_done (g : Group) (f : Nat → Thread → Thread) : (g.mapThreads f).done = g.done := rfl
@[simp] theorem Group.mapThreads_stalled (g : Group) (f : Nat → Thread → Thread) : (g.mapThreads f).stalled = g.stalled := rfl
@[simp] theorem Group.mapThreads_slotw (g : Group) (f : Nat → Thread → Thread) : (g.mapThreads f).slotw = g.slotw := rfl
@[simp] theorem Group.mapThreads_collw (g : Group) (f : Nat → Thread → Thread) : (g.mapThreads f).collw = g.collw := rfl
@[simp] theorem Group.mapThreads_began (g : Group) (f : Nat → Thread → Thread) : (g.mapThreads f).began = g.began := rfl
@[simp] theorem Group.mapThreads_iss (g : Group) (f : Nat → Thread → Thread) : (g.mapThreads f).iss = g.iss := rfl
@[simp] theorem Group.mapThreads_resv (g : Group) (f : Nat → Thread → Thread) : (g.mapThreads f).resv = g.resv := rfl
@[simp] theorem Group.mapThreads_grant (g : Group) (f : Nat → Thread → Thread) : (g.mapThreads f).grant = g.grant := rfl
@[simp] theorem Group.mapThreads_leave (g : Group) (f : Nat → Thread → Thread) : (g.mapThreads f).leave = g.leave := rfl
@[simp] theorem Group.mapThreads_mmas (g : Group) (f : Nat → Thread → Thread) : (g.mapThreads f).mmas = g.mmas := rfl
@[simp] theorem Group.mapThreads_ended (g : Group) (f : Nat → Thread → Thread) : (g.mapThreads f).ended = g.ended := rfl
@[simp] theorem Group.mapThreads_gone (g : Group) (f : Nat → Thread → Thread) : (g.mapThreads f).gone = g.gone := rfl

/-! ### `Group.unhold` -/

@[simp] theorem Group.unhold_key (g : Group) (t : Nat) : (g.unhold t).key = g.key := rfl
@[simp] theorem Group.unhold_stage (g : Group) (t : Nat) : (g.unhold t).stage = g.stage := rfl
@[simp] theorem Group.unhold_inst (g : Group) (t : Nat) : (g.unhold t).inst = g.inst := rfl
@[simp] theorem Group.unhold_threads (g : Group) (t : Nat) : (g.unhold t).threads = g.threads := rfl
@[simp] theorem Group.unhold_uvec (g : Group) (t : Nat) : (g.unhold t).uvec = g.uvec := rfl
@[simp] theorem Group.unhold_tiles (g : Group) (t : Nat) : (g.unhold t).tiles = g.tiles := rfl
@[simp] theorem Group.unhold_kpred (g : Group) (t : Nat) : (g.unhold t).kpred = g.kpred := rfl
@[simp] theorem Group.unhold_ols (g : Group) (t : Nat) : (g.unhold t).ols = g.ols := rfl
@[simp] theorem Group.unhold_sets (g : Group) (t : Nat) : (g.unhold t).sets = g.sets := rfl
@[simp] theorem Group.unhold_loop (g : Group) (t : Nat) : (g.unhold t).loop = g.loop := rfl
@[simp] theorem Group.unhold_wcount (g : Group) (t : Nat) : (g.unhold t).wcount = g.wcount := rfl
@[simp] theorem Group.unhold_slotw (g : Group) (t : Nat) : (g.unhold t).slotw = g.slotw := rfl
@[simp] theorem Group.unhold_collw (g : Group) (t : Nat) : (g.unhold t).collw = g.collw := rfl
@[simp] theorem Group.unhold_began (g : Group) (t : Nat) : (g.unhold t).began = g.began := rfl
@[simp] theorem Group.unhold_iss (g : Group) (t : Nat) : (g.unhold t).iss = g.iss := rfl
@[simp] theorem Group.unhold_resv (g : Group) (t : Nat) : (g.unhold t).resv = g.resv := rfl
@[simp] theorem Group.unhold_grant (g : Group) (t : Nat) : (g.unhold t).grant = g.grant := rfl
@[simp] theorem Group.unhold_leave (g : Group) (t : Nat) : (g.unhold t).leave = g.leave := rfl
@[simp] theorem Group.unhold_mmas (g : Group) (t : Nat) : (g.unhold t).mmas = g.mmas := rfl
@[simp] theorem Group.unhold_ended (g : Group) (t : Nat) : (g.unhold t).ended = g.ended := rfl
@[simp] theorem Group.unhold_gone (g : Group) (t : Nat) : (g.unhold t).gone = g.gone := rfl

/-! ### `Group.onLeave` -/

@[simp] theorem Group.onLeave_key (g : Group) (l : List Nat) : (g.onLeave l).key = g.key := rfl
@[simp] theorem Group.onLeave_stage (g : Group) (l : List Nat) : (g.onLeave l).stage = g.stage := rfl
@[simp] theorem Group.onLeave_inst (g : Group) (l : List Nat) : (g.onLeave l).inst = g.inst := rfl
@[simp] theorem Group.onLeave_uvec (g : Group) (l : List Nat) : (g.onLeave l).uvec = g.uvec := rfl
@[simp] theorem Group.onLeave_tiles (g : Group) (l : List Nat) : (g.onLeave l).tiles = g.tiles := rfl
@[simp] theorem Group.onLeave_kpred (g : Group) (l : List Nat) : (g.onLeave l).kpred = g.kpred := rfl
@[simp] theorem Group.onLeave_ols (g : Group) (l : List Nat) : (g.onLeave l).ols = g.ols := rfl
@[simp] theorem Group.onLeave_sets (g : Group) (l : List Nat) : (g.onLeave l).sets = g.sets := rfl
@[simp] theorem Group.onLeave_loop (g : Group) (l : List Nat) : (g.onLeave l).loop = g.loop := rfl
@[simp] theorem Group.onLeave_wcount (g : Group) (l : List Nat) : (g.onLeave l).wcount = g.wcount := rfl
@[simp] theorem Group.onLeave_hold (g : Group) (l : List Nat) : (g.onLeave l).hold = g.hold := rfl
@[simp] theorem Group.onLeave_done (g : Group) (l : List Nat) : (g.onLeave l).done = g.done := rfl
@[simp] theorem Group.onLeave_stalled (g : Group) (l : List Nat) : (g.onLeave l).stalled = g.stalled := rfl
@[simp] theorem Group.onLeave_slotw (g : Group) (l : List Nat) : (g.onLeave l).slotw = g.slotw := rfl
@[simp] theorem Group.onLeave_collw (g : Group) (l : List Nat) : (g.onLeave l).collw = g.collw := rfl
@[simp] theorem Group.onLeave_began (g : Group) (l : List Nat) : (g.onLeave l).began = g.began := rfl
@[simp] theorem Group.onLeave_iss (g : Group) (l : List Nat) : (g.onLeave l).iss = g.iss := rfl
@[simp] theorem Group.onLeave_resv (g : Group) (l : List Nat) : (g.onLeave l).resv = g.resv := rfl
@[simp] theorem Group.onLeave_grant (g : Group) (l : List Nat) : (g.onLeave l).grant = g.grant := rfl
@[simp] theorem Group.onLeave_leave (g : Group) (l : List Nat) : (g.onLeave l).leave = g.leave := rfl
@[simp] theorem Group.onLeave_mmas (g : Group) (l : List Nat) : (g.onLeave l).mmas = g.mmas := rfl
@[simp] theorem Group.onLeave_ended (g : Group) (l : List Nat) : (g.onLeave l).ended = g.ended := rfl
@[simp] theorem Group.onLeave_gone (g : Group) (l : List Nat) : (g.onLeave l).gone = g.gone := rfl

/-! ### `Thread.advance` -/

@[simp] theorem Thread.advance_depth (th : Thread) : (th.advance).depth = th.depth := rfl
@[simp] theorem Thread.advance_live (th : Thread) : (th.advance).live = th.live := rfl
@[simp] theorem Thread.advance_stop (th : Thread) : (th.advance).stop = th.stop := rfl
@[simp] theorem Thread.advance_blk (th : Thread) : (th.advance).blk = th.blk := rfl
@[simp] theorem Thread.advance_park (th : Thread) : (th.advance).park = th.park := rfl
@[simp] theorem Thread.advance_owe (th : Thread) : (th.advance).owe = th.owe := rfl
@[simp] theorem Thread.advance_regs (th : Thread) : (th.advance).regs = th.regs := rfl
@[simp] theorem Thread.advance_preds (th : Thread) : (th.advance).preds = th.preds := rfl
@[simp] theorem Thread.advance_fpstat (th : Thread) : (th.advance).fpstat = th.fpstat := rfl
@[simp] theorem Thread.advance_rstack (th : Thread) : (th.advance).rstack = th.rstack := rfl
@[simp] theorem Thread.advance_rsEcc (th : Thread) : (th.advance).rsEcc = th.rsEcc := rfl
@[simp] theorem Thread.advance_uepc (th : Thread) : (th.advance).uepc = th.uepc := rfl
@[simp] theorem Thread.advance_uin (th : Thread) : (th.advance).uin = th.uin := rfl
@[simp] theorem Thread.advance_slots (th : Thread) : (th.advance).slots = th.slots := rfl
@[simp] theorem Thread.advance_fbind (th : Thread) : (th.advance).fbind = th.fbind := rfl
@[simp] theorem Thread.advance_wres (th : Thread) : (th.advance).wres = th.wres := rfl
@[simp] theorem Thread.advance_dreq (th : Thread) : (th.advance).dreq = th.dreq := rfl
@[simp] theorem Thread.advance_step (th : Thread) : (th.advance).step = th.step := rfl
@[simp] theorem Thread.advance_walk (th : Thread) : (th.advance).walk = th.walk := rfl
@[simp] theorem Thread.advance_kv (th : Thread) : (th.advance).kv = th.kv := rfl
@[simp] theorem Thread.advance_mark (th : Thread) : (th.advance).mark = th.mark := rfl
@[simp] theorem Thread.advance_inv (th : Thread) : (th.advance).inv = th.inv := rfl

/-! ### `Thread.goto` -/

@[simp] theorem Thread.goto_depth (th : Thread) (pc : Pc) : (th.goto pc).depth = th.depth := rfl
@[simp] theorem Thread.goto_live (th : Thread) (pc : Pc) : (th.goto pc).live = th.live := rfl
@[simp] theorem Thread.goto_stop (th : Thread) (pc : Pc) : (th.goto pc).stop = th.stop := rfl
@[simp] theorem Thread.goto_blk (th : Thread) (pc : Pc) : (th.goto pc).blk = th.blk := rfl
@[simp] theorem Thread.goto_park (th : Thread) (pc : Pc) : (th.goto pc).park = th.park := rfl
@[simp] theorem Thread.goto_owe (th : Thread) (pc : Pc) : (th.goto pc).owe = th.owe := rfl
@[simp] theorem Thread.goto_regs (th : Thread) (pc : Pc) : (th.goto pc).regs = th.regs := rfl
@[simp] theorem Thread.goto_preds (th : Thread) (pc : Pc) : (th.goto pc).preds = th.preds := rfl
@[simp] theorem Thread.goto_fpstat (th : Thread) (pc : Pc) : (th.goto pc).fpstat = th.fpstat := rfl
@[simp] theorem Thread.goto_rstack (th : Thread) (pc : Pc) : (th.goto pc).rstack = th.rstack := rfl
@[simp] theorem Thread.goto_rsEcc (th : Thread) (pc : Pc) : (th.goto pc).rsEcc = th.rsEcc := rfl
@[simp] theorem Thread.goto_uepc (th : Thread) (pc : Pc) : (th.goto pc).uepc = th.uepc := rfl
@[simp] theorem Thread.goto_uin (th : Thread) (pc : Pc) : (th.goto pc).uin = th.uin := rfl
@[simp] theorem Thread.goto_slots (th : Thread) (pc : Pc) : (th.goto pc).slots = th.slots := rfl
@[simp] theorem Thread.goto_fbind (th : Thread) (pc : Pc) : (th.goto pc).fbind = th.fbind := rfl
@[simp] theorem Thread.goto_wres (th : Thread) (pc : Pc) : (th.goto pc).wres = th.wres := rfl
@[simp] theorem Thread.goto_dreq (th : Thread) (pc : Pc) : (th.goto pc).dreq = th.dreq := rfl
@[simp] theorem Thread.goto_step (th : Thread) (pc : Pc) : (th.goto pc).step = th.step := rfl
@[simp] theorem Thread.goto_walk (th : Thread) (pc : Pc) : (th.goto pc).walk = th.walk := rfl
@[simp] theorem Thread.goto_kv (th : Thread) (pc : Pc) : (th.goto pc).kv = th.kv := rfl
@[simp] theorem Thread.goto_mark (th : Thread) (pc : Pc) : (th.goto pc).mark = th.mark := rfl
@[simp] theorem Thread.goto_inv (th : Thread) (pc : Pc) : (th.goto pc).inv = th.inv := rfl

/-! ### `Thread.flag` -/

@[simp] theorem Thread.flag_pc (th : Thread) (m : Nat) : (th.flag m).pc = th.pc := rfl
@[simp] theorem Thread.flag_depth (th : Thread) (m : Nat) : (th.flag m).depth = th.depth := rfl
@[simp] theorem Thread.flag_live (th : Thread) (m : Nat) : (th.flag m).live = th.live := rfl
@[simp] theorem Thread.flag_stop (th : Thread) (m : Nat) : (th.flag m).stop = th.stop := rfl
@[simp] theorem Thread.flag_blk (th : Thread) (m : Nat) : (th.flag m).blk = th.blk := rfl
@[simp] theorem Thread.flag_park (th : Thread) (m : Nat) : (th.flag m).park = th.park := rfl
@[simp] theorem Thread.flag_owe (th : Thread) (m : Nat) : (th.flag m).owe = th.owe := rfl
@[simp] theorem Thread.flag_regs (th : Thread) (m : Nat) : (th.flag m).regs = th.regs := rfl
@[simp] theorem Thread.flag_preds (th : Thread) (m : Nat) : (th.flag m).preds = th.preds := rfl
@[simp] theorem Thread.flag_rstack (th : Thread) (m : Nat) : (th.flag m).rstack = th.rstack := rfl
@[simp] theorem Thread.flag_rsEcc (th : Thread) (m : Nat) : (th.flag m).rsEcc = th.rsEcc := rfl
@[simp] theorem Thread.flag_uepc (th : Thread) (m : Nat) : (th.flag m).uepc = th.uepc := rfl
@[simp] theorem Thread.flag_uin (th : Thread) (m : Nat) : (th.flag m).uin = th.uin := rfl
@[simp] theorem Thread.flag_slots (th : Thread) (m : Nat) : (th.flag m).slots = th.slots := rfl
@[simp] theorem Thread.flag_fbind (th : Thread) (m : Nat) : (th.flag m).fbind = th.fbind := rfl
@[simp] theorem Thread.flag_wres (th : Thread) (m : Nat) : (th.flag m).wres = th.wres := rfl
@[simp] theorem Thread.flag_dreq (th : Thread) (m : Nat) : (th.flag m).dreq = th.dreq := rfl
@[simp] theorem Thread.flag_step (th : Thread) (m : Nat) : (th.flag m).step = th.step := rfl
@[simp] theorem Thread.flag_xfer (th : Thread) (m : Nat) : (th.flag m).xfer = th.xfer := rfl
@[simp] theorem Thread.flag_walk (th : Thread) (m : Nat) : (th.flag m).walk = th.walk := rfl
@[simp] theorem Thread.flag_kv (th : Thread) (m : Nat) : (th.flag m).kv = th.kv := rfl
@[simp] theorem Thread.flag_mark (th : Thread) (m : Nat) : (th.flag m).mark = th.mark := rfl
@[simp] theorem Thread.flag_inv (th : Thread) (m : Nat) : (th.flag m).inv = th.inv := rfl

/-! ### `Thread.uret` -/

@[simp] theorem Thread.uret_depth (th : Thread) : (th.uret).depth = th.depth := rfl
@[simp] theorem Thread.uret_live (th : Thread) : (th.uret).live = th.live := rfl
@[simp] theorem Thread.uret_stop (th : Thread) : (th.uret).stop = th.stop := rfl
@[simp] theorem Thread.uret_blk (th : Thread) : (th.uret).blk = th.blk := rfl
@[simp] theorem Thread.uret_park (th : Thread) : (th.uret).park = th.park := rfl
@[simp] theorem Thread.uret_owe (th : Thread) : (th.uret).owe = th.owe := rfl
@[simp] theorem Thread.uret_regs (th : Thread) : (th.uret).regs = th.regs := rfl
@[simp] theorem Thread.uret_preds (th : Thread) : (th.uret).preds = th.preds := rfl
@[simp] theorem Thread.uret_fpstat (th : Thread) : (th.uret).fpstat = th.fpstat := rfl
@[simp] theorem Thread.uret_rstack (th : Thread) : (th.uret).rstack = th.rstack := rfl
@[simp] theorem Thread.uret_rsEcc (th : Thread) : (th.uret).rsEcc = th.rsEcc := rfl
@[simp] theorem Thread.uret_uepc (th : Thread) : (th.uret).uepc = th.uepc := rfl
@[simp] theorem Thread.uret_slots (th : Thread) : (th.uret).slots = th.slots := rfl
@[simp] theorem Thread.uret_fbind (th : Thread) : (th.uret).fbind = th.fbind := rfl
@[simp] theorem Thread.uret_wres (th : Thread) : (th.uret).wres = th.wres := rfl
@[simp] theorem Thread.uret_dreq (th : Thread) : (th.uret).dreq = th.dreq := rfl
@[simp] theorem Thread.uret_step (th : Thread) : (th.uret).step = th.step := rfl
@[simp] theorem Thread.uret_walk (th : Thread) : (th.uret).walk = th.walk := rfl
@[simp] theorem Thread.uret_kv (th : Thread) : (th.uret).kv = th.kv := rfl
@[simp] theorem Thread.uret_mark (th : Thread) : (th.uret).mark = th.mark := rfl
@[simp] theorem Thread.uret_inv (th : Thread) : (th.uret).inv = th.inv := rfl

/-! ### `Thread.callTo` -/

@[simp] theorem Thread.callTo_live (th : Thread) (p : Pc) : (th.callTo p).live = th.live := rfl
@[simp] theorem Thread.callTo_stop (th : Thread) (p : Pc) : (th.callTo p).stop = th.stop := rfl
@[simp] theorem Thread.callTo_blk (th : Thread) (p : Pc) : (th.callTo p).blk = th.blk := rfl
@[simp] theorem Thread.callTo_park (th : Thread) (p : Pc) : (th.callTo p).park = th.park := rfl
@[simp] theorem Thread.callTo_owe (th : Thread) (p : Pc) : (th.callTo p).owe = th.owe := rfl
@[simp] theorem Thread.callTo_regs (th : Thread) (p : Pc) : (th.callTo p).regs = th.regs := rfl
@[simp] theorem Thread.callTo_preds (th : Thread) (p : Pc) : (th.callTo p).preds = th.preds := rfl
@[simp] theorem Thread.callTo_fpstat (th : Thread) (p : Pc) : (th.callTo p).fpstat = th.fpstat := rfl
@[simp] theorem Thread.callTo_uepc (th : Thread) (p : Pc) : (th.callTo p).uepc = th.uepc := rfl
@[simp] theorem Thread.callTo_uin (th : Thread) (p : Pc) : (th.callTo p).uin = th.uin := rfl
@[simp] theorem Thread.callTo_slots (th : Thread) (p : Pc) : (th.callTo p).slots = th.slots := rfl
@[simp] theorem Thread.callTo_fbind (th : Thread) (p : Pc) : (th.callTo p).fbind = th.fbind := rfl
@[simp] theorem Thread.callTo_wres (th : Thread) (p : Pc) : (th.callTo p).wres = th.wres := rfl
@[simp] theorem Thread.callTo_dreq (th : Thread) (p : Pc) : (th.callTo p).dreq = th.dreq := rfl
@[simp] theorem Thread.callTo_step (th : Thread) (p : Pc) : (th.callTo p).step = th.step := rfl
@[simp] theorem Thread.callTo_walk (th : Thread) (p : Pc) : (th.callTo p).walk = th.walk := rfl
@[simp] theorem Thread.callTo_kv (th : Thread) (p : Pc) : (th.callTo p).kv = th.kv := rfl
@[simp] theorem Thread.callTo_mark (th : Thread) (p : Pc) : (th.callTo p).mark = th.mark := rfl
@[simp] theorem Thread.callTo_inv (th : Thread) (p : Pc) : (th.callTo p).inv = th.inv := rfl

/-! ### `Thread.retFrom` -/

@[simp] theorem Thread.retFrom_live (th : Thread) : (th.retFrom).live = th.live := rfl
@[simp] theorem Thread.retFrom_stop (th : Thread) : (th.retFrom).stop = th.stop := rfl
@[simp] theorem Thread.retFrom_blk (th : Thread) : (th.retFrom).blk = th.blk := rfl
@[simp] theorem Thread.retFrom_park (th : Thread) : (th.retFrom).park = th.park := rfl
@[simp] theorem Thread.retFrom_owe (th : Thread) : (th.retFrom).owe = th.owe := rfl
@[simp] theorem Thread.retFrom_regs (th : Thread) : (th.retFrom).regs = th.regs := rfl
@[simp] theorem Thread.retFrom_preds (th : Thread) : (th.retFrom).preds = th.preds := rfl
@[simp] theorem Thread.retFrom_fpstat (th : Thread) : (th.retFrom).fpstat = th.fpstat := rfl
@[simp] theorem Thread.retFrom_rstack (th : Thread) : (th.retFrom).rstack = th.rstack := rfl
@[simp] theorem Thread.retFrom_rsEcc (th : Thread) : (th.retFrom).rsEcc = th.rsEcc := rfl
@[simp] theorem Thread.retFrom_uepc (th : Thread) : (th.retFrom).uepc = th.uepc := rfl
@[simp] theorem Thread.retFrom_uin (th : Thread) : (th.retFrom).uin = th.uin := rfl
@[simp] theorem Thread.retFrom_slots (th : Thread) : (th.retFrom).slots = th.slots := rfl
@[simp] theorem Thread.retFrom_fbind (th : Thread) : (th.retFrom).fbind = th.fbind := rfl
@[simp] theorem Thread.retFrom_wres (th : Thread) : (th.retFrom).wres = th.wres := rfl
@[simp] theorem Thread.retFrom_dreq (th : Thread) : (th.retFrom).dreq = th.dreq := rfl
@[simp] theorem Thread.retFrom_step (th : Thread) : (th.retFrom).step = th.step := rfl
@[simp] theorem Thread.retFrom_walk (th : Thread) : (th.retFrom).walk = th.walk := rfl
@[simp] theorem Thread.retFrom_kv (th : Thread) : (th.retFrom).kv = th.kv := rfl
@[simp] theorem Thread.retFrom_mark (th : Thread) : (th.retFrom).mark = th.mark := rfl
@[simp] theorem Thread.retFrom_inv (th : Thread) : (th.retFrom).inv = th.inv := rfl

/-! ### `Thread.bank` -/

@[simp] theorem Thread.bank_pc (th : Thread) (e : Bool) (a b c d : Nat) : (th.bank e a b c d).pc = th.pc := rfl
@[simp] theorem Thread.bank_depth (th : Thread) (e : Bool) (a b c d : Nat) : (th.bank e a b c d).depth = th.depth := rfl
@[simp] theorem Thread.bank_live (th : Thread) (e : Bool) (a b c d : Nat) : (th.bank e a b c d).live = th.live := rfl
@[simp] theorem Thread.bank_stop (th : Thread) (e : Bool) (a b c d : Nat) : (th.bank e a b c d).stop = th.stop := rfl
@[simp] theorem Thread.bank_blk (th : Thread) (e : Bool) (a b c d : Nat) : (th.bank e a b c d).blk = th.blk := rfl
@[simp] theorem Thread.bank_park (th : Thread) (e : Bool) (a b c d : Nat) : (th.bank e a b c d).park = th.park := rfl
@[simp] theorem Thread.bank_owe (th : Thread) (e : Bool) (a b c d : Nat) : (th.bank e a b c d).owe = th.owe := rfl
@[simp] theorem Thread.bank_preds (th : Thread) (e : Bool) (a b c d : Nat) : (th.bank e a b c d).preds = th.preds := rfl
@[simp] theorem Thread.bank_fpstat (th : Thread) (e : Bool) (a b c d : Nat) : (th.bank e a b c d).fpstat = th.fpstat := rfl
@[simp] theorem Thread.bank_rstack (th : Thread) (e : Bool) (a b c d : Nat) : (th.bank e a b c d).rstack = th.rstack := rfl
@[simp] theorem Thread.bank_rsEcc (th : Thread) (e : Bool) (a b c d : Nat) : (th.bank e a b c d).rsEcc = th.rsEcc := rfl
@[simp] theorem Thread.bank_uepc (th : Thread) (e : Bool) (a b c d : Nat) : (th.bank e a b c d).uepc = th.uepc := rfl
@[simp] theorem Thread.bank_uin (th : Thread) (e : Bool) (a b c d : Nat) : (th.bank e a b c d).uin = th.uin := rfl
@[simp] theorem Thread.bank_slots (th : Thread) (e : Bool) (a b c d : Nat) : (th.bank e a b c d).slots = th.slots := rfl
@[simp] theorem Thread.bank_fbind (th : Thread) (e : Bool) (a b c d : Nat) : (th.bank e a b c d).fbind = th.fbind := rfl
@[simp] theorem Thread.bank_wres (th : Thread) (e : Bool) (a b c d : Nat) : (th.bank e a b c d).wres = th.wres := rfl
@[simp] theorem Thread.bank_dreq (th : Thread) (e : Bool) (a b c d : Nat) : (th.bank e a b c d).dreq = th.dreq := rfl
@[simp] theorem Thread.bank_step (th : Thread) (e : Bool) (a b c d : Nat) : (th.bank e a b c d).step = th.step := rfl
@[simp] theorem Thread.bank_xfer (th : Thread) (e : Bool) (a b c d : Nat) : (th.bank e a b c d).xfer = th.xfer := rfl
@[simp] theorem Thread.bank_walk (th : Thread) (e : Bool) (a b c d : Nat) : (th.bank e a b c d).walk = th.walk := rfl
@[simp] theorem Thread.bank_kv (th : Thread) (e : Bool) (a b c d : Nat) : (th.bank e a b c d).kv = th.kv := rfl
@[simp] theorem Thread.bank_mark (th : Thread) (e : Bool) (a b c d : Nat) : (th.bank e a b c d).mark = th.mark := rfl
@[simp] theorem Thread.bank_inv (th : Thread) (e : Bool) (a b c d : Nat) : (th.bank e a b c d).inv = th.inv := rfl

end Sys2Proof.Machine
end

