-- ==== Sys2Proof/Laws/Threads.lean ====
section
/-! SUPPORT. Groups and threads under their updates, registers and predicates as written and read back. -/

namespace Sys2Proof

/-! ### Lists -/

theorem length_updAt {α : Type} (l : List α) (i : Nat) (f : α → α) : (updAt l i f).length = l.length := by
  induction l generalizing i with
  | nil => rfl
  | cons x xs ih => cases i <;> simp [updAt, ih]

theorem getElem?_updAt {α : Type} (l : List α) (i j : Nat) (f : α → α) :
    (updAt l i f)[j]? = if i = j then l[j]?.map f else l[j]? := by
  induction l generalizing i j with
  | nil => simp [updAt]
  | cons x xs ih =>
    cases i <;> cases j <;> simp [updAt, ih]

theorem getD_updAt {α : Type} (l : List α) (i j : Nat) (f : α → α) (d : α) :
    (updAt l i f).getD j d = if i = j ∧ j < l.length then f (l.getD j d) else l.getD j d := by
  simp only [List.getD_eq_getElem?_getD, getElem?_updAt]
  by_cases h : i = j
  · by_cases hj : j < l.length
    · simp [h, hj]
    · simp [hj]
  · simp [h]

end Sys2Proof

namespace Sys2Proof.Machine

theorem length_mapFrom (f : Nat → Thread → Thread) (i : Nat) (l : List Thread) : (mapFrom f i l).length = l.length := by
  induction l generalizing i with
  | nil => rfl
  | cons x xs ih => simp [mapFrom, ih]

theorem getElem?_mapFrom (f : Nat → Thread → Thread) (i j : Nat) (l : List Thread) :
    (mapFrom f i l)[j]? = l[j]?.map (f (i + j)) := by
  induction l generalizing i j with
  | nil => simp [mapFrom]
  | cons x xs ih =>
    cases j with
    | zero => simp [mapFrom]
    | succ j => simp [mapFrom, ih, Nat.add_assoc, Nat.add_comm 1 j]

/-- Two functions that agree on the threads there are map them alike. -/
theorem mapFrom_congr (f h : Nat → Thread → Thread) (i : Nat) (l : List Thread)
    (e : ∀ j x, l[j]? = some x → f (i + j) x = h (i + j) x) : mapFrom f i l = mapFrom h i l := by
  apply List.ext_getElem?
  intro j
  rw [getElem?_mapFrom, getElem?_mapFrom]
  cases hx : l[j]? with
  | none => rfl
  | some x => simp [e j x hx]

theorem mapFrom_mapFrom (f h : Nat → Thread → Thread) (i : Nat) (l : List Thread) :
    mapFrom f i (mapFrom h i l) = mapFrom (fun t x => f t (h t x)) i l := by
  induction l generalizing i with
  | nil => rfl
  | cons x xs ih => simp [mapFrom, ih]

theorem mapFrom_self (i : Nat) (l : List Thread) : mapFrom (fun _ x => x) i l = l := by
  induction l generalizing i with
  | nil => rfl
  | cons x xs ih => simp [mapFrom, ih]

/-! ### Threads of a group -/

theorem Group.thr_mapThreads (g : Group) (f : Nat → Thread → Thread) (t : Nat) (h : t < g.threads.length) :
    (g.mapThreads f).thr t = f t (g.thr t) := by
  simp [Group.thr, Group.mapThreads, getElem?_mapFrom, h]

theorem Group.thr_modThr (g : Group) (t u : Nat) (f : Thread → Thread) :
    (g.modThr t f).thr u = if t = u ∧ u < g.threads.length then f (g.thr u) else g.thr u := by
  simp only [Group.thr, Group.modThr, getD_updAt]

theorem Group.length_mapThreads (g : Group) (f : Nat → Thread → Thread) :
    (g.mapThreads f).threads.length = g.threads.length := length_mapFrom f 0 g.threads

/-- Changing one thread is mapping all of them with a test of the index. -/
theorem Group.modThr_eq_mapThreads (g : Group) (t : Nat) (f : Thread → Thread) :
    g.modThr t f = g.mapThreads (fun i th => if i = t then f th else th) := by
  simp only [Group.modThr, Group.mapThreads]
  congr 1
  apply List.ext_getElem?
  intro j
  rw [getElem?_updAt, getElem?_mapFrom]
  by_cases h : t = j
  · subst h; simp
  · simp [h, Ne.symm h]

/-! ### Groups of a state -/

theorem State.group_key {s : State} {k : GroupKey} {g : Group} (h : s.group k = some g) : g.key = k := by
  simpa using List.find?_some h

/-- The group of a key after a change of that group, where the change keeps its key. -/
theorem State.group_modGroup (s : State) (k j : GroupKey) (f : Group → Group) (hf : ∀ g, (f g).key = g.key) :
    (s.modGroup k f).group j = if k = j then (s.group j).map f else s.group j := by
  simp only [State.group, State.modGroup]
  induction s.groups with
  | nil => simp
  | cons g gs ih =>
    simp only [List.map_cons, List.find?_cons]
    by_cases hk : g.key = k
    · simp only [if_pos hk, hf]
      by_cases hj : k = j
      · have hb : (g.key == j) = true := by simp [hk, hj]
        simp [hb, hj]
      · have hb : (g.key == j) = false := by simpa [hk] using hj
        simp only [hb, if_neg hj] at ih ⊢
        exact ih
    · simp only [if_neg hk]
      by_cases hj : g.key = j
      · have hb : (g.key == j) = true := by simpa using hj
        have : k ≠ j := fun e => hk (by rw [hj, e])
        simp [hb, this]
      · have hb : (g.key == j) = false := by simpa using hj
        simp only [hb] at ih ⊢
        exact ih

theorem State.thread_eq {s : State} {th : ThreadKey} {g : Group} (h : s.group th.gk = some g) :
    s.thread th = g.thr th.thr := by
  simp [State.thread, h]

/-- Two changes of one group are one. -/
theorem State.modGroup_modGroup (s : State) (k : GroupKey) (f h : Group → Group) (hh : ∀ g, (h g).key = g.key) :
    (s.modGroup k h).modGroup k f = s.modGroup k (fun g => f (h g)) := by
  simp only [State.modGroup, List.map_map]
  congr 1
  apply List.map_congr_left
  intro g _
  by_cases hk : g.key = k <;> simp [hk, hh]

/-- Changes that agree on the group of the key are one change. -/
theorem State.modGroup_congr (s : State) (k : GroupKey) (f h : Group → Group) (e : ∀ g ∈ s.groups, g.key = k → f g = h g) :
    s.modGroup k f = s.modGroup k h := by
  simp only [State.modGroup]
  congr 1
  apply List.map_congr_left
  intro g hg
  by_cases hk : g.key = k
  · simp [hk, e g hg hk]
  · simp [hk]

theorem State.withSel_same {s : State} {p : Pass} (h : s.pass = some p) : s.withSel p.sel = s := by
  cases s
  cases p
  simp only at h
  simp [State.withSel, h]

/-! ### Registers -/

theorem Thread.cell_setCell (th : Thread) (e : Bool) (r q : Nat) (c : RegCell) (hl : th.regs.length = 36) (hr : r < 32)
    (hq : q < 32) :
    (th.setCell e r c).cell e q = if r = q ∧ (e = true ∨ r ≠ 0) then c else th.cell e q := by
  have hix : ∀ n : Nat, n < 32 → cellIx th.uin n < 36 := by
    intro n hn; unfold cellIx; split <;> omega
  have hinj : cellIx th.uin r = cellIx th.uin q ↔ r = q := by
    unfold cellIx
    by_cases hu : th.uin = true
    · simp only [hu, Bool.true_and, decide_eq_true_eq]; split <;> split <;> omega
    · simp [hu]
  unfold Thread.setCell Thread.cell
  cases e with
  | true =>
    simp only [Bool.not_true, Bool.false_and, Bool.false_eq_true, ↓reduceIte, true_or, and_true, getD_updAt, hinj]
    by_cases h : r = q
    · subst h; simp [hl, hix r hr]
    · simp [h]
  | false =>
    by_cases hr0 : r = 0
    · simp [hr0]
    · by_cases hq0 : q = 0
      · simp [hr0, hq0]
      · simp only [Bool.not_false, Bool.true_and, beq_iff_eq, hr0, ↓reduceIte, hq0, getD_updAt, hinj, ne_eq, not_false_eq_true,
          or_true, and_true]
        by_cases h : r = q
        · subst h; simp [hl, hix r hr]
        · simp [h]

theorem Thread.setCell_pc (th : Thread) (e : Bool) (r : Nat) (c : RegCell) : (th.setCell e r c).pc = th.pc := by
  unfold Thread.setCell; split <;> rfl

theorem Thread.setCell_preds (th : Thread) (e : Bool) (r : Nat) (c : RegCell) : (th.setCell e r c).preds = th.preds := by
  unfold Thread.setCell; split <;> rfl

/-- A register reads back what was written, modulo its width (07 R212, 08 R222). -/
theorem Thread.rn_wn (th : Thread) (e : Bool) (r v : Nat) (taint : Bool) (hl : th.regs.length = 36) (hr : r < 32)
    (h0 : e = true ∨ r ≠ 0) : (th.wn e r v taint).rn e r = v % 2 ^ width e := by
  unfold Thread.rn Thread.rd Thread.wn Thread.wr
  rw [Thread.cell_setCell _ _ _ _ _ hl hr hr]
  cases e
  · have h : r ≠ 0 := by simpa using h0
    simp [h, RegCell.mk', width]
  · simp only [true_and, true_or, ↓reduceIte, RegCell.mk', width, BitVec.toNat_setWidth, BitVec.toNat_ofNat]
    omega

/-- Writing a value and its residue modulo the width are one. -/
theorem Thread.wn_mod (th : Thread) (e : Bool) (r v : Nat) (taint : Bool) :
    th.wn e r (v % 2 ^ width e) taint = th.wn e r v taint := by
  unfold Thread.wn Thread.wr
  cases e
  · simp only [width, Bool.false_eq_true, ↓reduceIte]
    congr 2
    apply BitVec.eq_of_toNat_eq
    simp
  · simp only [width, ↓reduceIte]
    congr 3
    apply BitVec.eq_of_toNat_eq
    simp only [BitVec.toNat_setWidth, BitVec.toNat_ofNat]
    omega

/-- A register holds a value of its width. -/
theorem Thread.rn_lt (th : Thread) (e : Bool) (r : Nat) : th.rn e r < 2 ^ width e := by
  unfold Thread.rn Thread.rd width
  cases e
  · simpa using ((th.cell false r).val).isLt
  · simp only [↓reduceIte, BitVec.toNat_setWidth]
    have := ((th.cell true r).val).isLt
    omega

/-! ### Predicates -/

theorem Thread.pred_setPred (th : Thread) (p q : BitVec 3) (v : Bool) :
    (th.setPred p v).pred q = if q = 7#3 then true else if p = q then v else th.pred q := by
  have one : ∀ p q : BitVec 3, (1#8 <<< p.toNat).getLsbD q.toNat = decide (p = q) := by decide
  have small : ∀ q : BitVec 3, q.toNat < 8 := fun q => q.isLt
  have key : ∀ (b : BitVec 8) (p q : BitVec 3) (v : Bool),
      ((if v then b ||| (1#8 <<< p.toNat) else b &&& ~~~(1#8 <<< p.toNat)).getLsbD q.toNat)
        = if p = q then v else b.getLsbD q.toNat := by
    intro b p q v
    cases v
    · rw [if_neg Bool.false_ne_true, BitVec.getLsbD_and, BitVec.getLsbD_not, one]
      by_cases h : p = q <;> simp only [h, small, decide_true, decide_false, Bool.not_true, Bool.not_false, Bool.and_true,
        Bool.and_false, ↓reduceIte]
    · rw [if_pos rfl, BitVec.getLsbD_or, one]
      by_cases h : p = q <;> simp only [h, decide_true, decide_false, Bool.or_true, Bool.or_false, ↓reduceIte]
  unfold Thread.setPred Thread.pred
  by_cases hq : q = 7#3
  · subst hq; simp
  · by_cases hp : p = 7#3
    · subst hp; simp [hq, Ne.symm hq]
    · have hp' : (p == 7#3) = false := by simpa using hp
      have hq' : (q == 7#3) = false := by simpa using hq
      simp only [hp', hq', Bool.false_eq_true, ↓reduceIte, Bool.false_or, hq]
      exact key th.preds p q v

end Sys2Proof.Machine
end

