-- ==== Sys2Proof/Laws/Lanes.lean ====
section
/-! SUPPORT. What the shared shapes of execution do when nothing is in their way: lanes on their own registers, lanes one
after another, the group as a whole; and what a forbidden word does. -/

namespace Sys2Proof.Machine

/-! ### Operands that are ready -/

theorem firstMeet_go (l : List Meet) (h : ∀ m ∈ l, m = .go) : firstMeet l = .go := by
  induction l with
  | nil => rfl
  | cons m ms ih =>
    have hm : m = .go := h m (by simp)
    subst hm
    exact ih (fun x hx => h x (by simp [hx]))

/-- With every source and destination full, nothing is in the way of a lane. -/
theorem Op.operands_full (op : Op) (g : Group) (e : Bool) (t : Nat) (pc : Pc)
    (h : g.fullAt e t (op.srcs.map Prod.fst ++ op.dsts)) : op.operands g e t pc = .go := by
  apply firstMeet_go
  intro m hm
  simp only [List.mem_append, List.mem_map] at hm
  have hs : ∀ x ∈ op.srcs, x.1 ∈ op.srcs.map Prod.fst ++ op.dsts := fun x hx =>
    List.mem_append_left _ (List.mem_map_of_mem hx)
  rcases hm with (⟨x, hx, rfl⟩ | ⟨r, hr, rfl⟩) | ⟨x, hx, rfl⟩
  · rw [(h x.1 (hs x hx)).1]; rfl
  · rw [(h r (List.mem_append_right _ hr)).1]; rfl
  · simp [eccMeet, (h x.1 (hs x hx)).2]

theorem State.clearPoison_full {s : State} {th : ThreadKey} {g : Group} {r : Nat} (hg : s.group th.gk = some g)
    (h : g.regState th.gk.exe th.thr r = .full) : s.clearPoison th r = s := by
  simp [State.clearPoison, hg, h]

theorem State.clearPoison_list {s : State} {th : ThreadKey} {g : Group} (rs : List Nat) (hg : s.group th.gk = some g)
    (h : g.fullAt th.gk.exe th.thr rs) : rs.foldl (fun s r => s.clearPoison th r) s = s := by
  induction rs with
  | nil => rfl
  | cons r rs ih =>
    simp only [List.foldl_cons]
    rw [State.clearPoison_full hg (h r (by simp)).1]
    exact ih (fun q hq => h q (by simp [hq]))

/-- A lane whose destinations are full acts as it is (06 R186 row 14). -/
theorem Op.acts_full {op : Op} {act : State → ThreadKey → Act} {s : State} {th : ThreadKey} (h : s.fullNow th op.dsts) :
    op.acts act s th = act s th := by
  have hn : op.clears.any (s.poisonedAt th) = false := by
    rw [List.any_eq_false]
    intro r hr
    have hd : r ∈ op.dsts := by
      unfold Op.clears at hr
      split at hr
      · simp at hr
      · exact hr
    unfold State.poisonedAt
    cases hg : s.group th.gk with
    | none => simp
    | some g => simp [(h g hg r hd).1]
  simp [Op.acts, hn]

theorem State.clearPoison_now {s : State} {th : ThreadKey} (rs : List Nat) (h : s.fullNow th rs) :
    rs.foldl (fun s r => s.clearPoison th r) s = s := by
  cases hg : s.group th.gk with
  | some g => exact State.clearPoison_list rs hg (h g hg)
  | none =>
    clear h
    induction rs with
    | nil => rfl
    | cons r rs ih => simpa [State.clearPoison, hg] using ih

theorem foldl_same {α β : Type} (f : α → β → α) (a : α) (l : List β) (h : ∀ b ∈ l, f a b = a) : l.foldl f a = a := by
  induction l with
  | nil => rfl
  | cons b bs ih =>
    simp only [List.foldl_cons, h b (by simp)]
    exact ih (fun c hc => h c (by simp [hc]))

/-! ### Lanes on their own registers -/

/-- A pass whose acting lanes are ready does its effect on each of them, and nothing else (07 R200, 06 R175). -/
theorem runMap_ready {s : State} {p : Pass} {g : Group} {q : BitVec 3} {op : Nat → Op}
    {eff : Group → List Nat → Nat → Thread → Thread}
    (hp : s.pass = some p) (hg : s.group p.gk = some g) (hmid : p.mid = []) (hq : ∀ t ∈ p.sel, (op t).guard = q)
    (hbar : ∀ t, (op t).bars = []) (hr : ∀ t ∈ p.acting g q, g.fullAt p.gk.exe t ((op t).srcs.map Prod.fst ++ (op t).dsts)) :
    runMap s p g false op eff = s.afterLanes p g q (eff g (p.acting g q)) := by
  have meet : ∀ t ∈ p.sel, (op t).meet false g p t = if (g.thr t).pred q then some .go else none := by
    intro t ht
    unfold Op.meet
    rw [hq t ht]
    cases hb : (g.thr t).pred q with
    | false => simp [hb, hmid]
    | true =>
      have hf := Op.operands_full (op t) g p.gk.exe t p.pc (hr t (by simp [Pass.acting, ht, hb]))
      simp [hb, hf, hmid, hbar]
  have hms : p.sel.map (fun t => (t, (op t).meet false g p t))
      = p.sel.map (fun t => (t, if (g.thr t).pred q then some Meet.go else none)) :=
    List.map_congr_left (fun t ht => by rw [meet t ht])
  have hgo : splitLanes (p.sel.map (fun t => (t, if (g.thr t).pred q then some Meet.go else none)))
      = (p.acting g q, p.sel.filter (fun t => !(g.thr t).pred q)) := by
    unfold splitLanes Pass.acting
    congr 1
    · induction p.sel with
      | nil => rfl
      | cons t ts ih => cases hb : (g.thr t).pred q <;> simp [hb] <;> simpa using ih
    · induction p.sel with
      | nil => rfl
      | cons t ts ih => cases hb : (g.thr t).pred q <;> simp [hb] <;> simpa using ih
  have hwait : (p.sel.map (fun t => (t, if (g.thr t).pred q then some Meet.go else none))).any
      (fun x => x.2 = some .wait) = false := by
    rw [List.any_eq_false]
    intro x hx
    simp only [List.mem_map] at hx
    obtain ⟨t, _, rfl⟩ := hx
    cases (g.thr t).pred q <;> simp
  have hclear : (p.acting g q).foldl
      (fun s t => (op t).clears.foldl (fun s r => s.clearPoison ⟨p.gk, t⟩ r) s) s = s := by
    apply foldl_same
    intro t ht
    apply State.clearPoison_list _ hg
    intro r hr'
    apply hr t ht
    simp only [List.mem_append]
    right
    unfold Op.clears at hr'
    split at hr'
    · simp at hr'
    · exact hr'
  have hpart : p.sel.filter (fun t => (op t).takesPart false g p t) = p.acting g q := by
    unfold Pass.acting
    apply List.filter_congr
    intro t ht
    unfold Op.takesPart Op.meet
    simp only [hq t ht]
    cases hb : (g.thr t).pred q with
    | false => simp [hmid]
    | true =>
      have hf := Op.operands_full ({ op t with dsts := [] } : Op) g p.gk.exe t p.pc (by
        intro r hr'
        apply hr t (by simp [Pass.acting, ht, hb])
        simp only [List.append_nil] at hr'
        simp only [List.mem_append]
        exact Or.inl hr')
      simp only [hq t ht, hbar] at hf
      simp [hf, hmid, hbar]
  have hin : ∀ t, ((p.acting g q).contains t || (p.sel.filter (fun t => !(g.thr t).pred q)).contains t) = p.sel.contains t := by
    intro t
    rw [Bool.eq_iff_iff]
    simp only [Pass.acting, Bool.or_eq_true, List.contains_iff_mem, List.mem_filter, Bool.not_eq_true']
    constructor
    · rintro (h | h) <;> exact h.1
    · intro h; cases hb : (g.thr t).pred q <;> simp [h]
  unfold runMap
  simp only [hms, hwait, Bool.false_eq_true, ↓reduceIte, hgo, hclear, hpart]
  rw [foldl_same]
  · have hsel : p.sel.filter (fun t => (p.acting g q).contains t || (p.sel.filter (fun t => !(g.thr t).pred q)).contains t)
        = p.sel := by
      rw [List.filter_eq_self]
      intro t ht
      rw [hin]
      simpa using ht
    rw [hsel]
    have hm : s.modGroup p.gk (fun h => h.mapThreads (fun t th =>
        if (p.acting g q).contains t then eff g (p.acting g q) t th
        else if (p.sel.filter (fun t => !(g.thr t).pred q)).contains t then th.advance else th))
        = s.afterLanes p g q (eff g (p.acting g q)) := by
      apply State.modGroup_congr
      intro h _ _
      unfold Group.mapThreads
      congr 1
      apply mapFrom_congr
      intro j x _
      have := hin (0 + j)
      by_cases ha : (p.acting g q).contains (0 + j)
      · rw [if_pos ha, if_pos ha]
      · have ha' : (p.acting g q).contains (0 + j) = false := by simpa using ha
        rw [ha', Bool.false_or] at this
        rw [ha', this]
    rw [hm]
    exact State.withSel_same (p := p) hp
  · intro x hx
    simp only [List.mem_map] at hx
    obtain ⟨t, _, rfl⟩ := hx
    cases (g.thr t).pred q <;> rfl

/-- What a meaning by `execMap` does when its acting lanes are ready. -/
theorem execMap_ready {s : State} {i : Instr} {p : Pass} {g : Group} {op : Op}
    {eff : Group → List Nat → Nat → Thread → Thread} (hi : Issues s i p g) (hbar : op.bars = [])
    (hr : p.ready g op.guard (op.srcs.map Prod.fst ++ op.dsts)) :
    execMap s i op eff = .next (s.afterLanes p g op.guard (eff g (p.acting g op.guard))) := by
  obtain ⟨hp, hg, hf, hmid⟩ := hi
  simp only [execMap, withPass, hp, hg, hf]
  rw [runMap_ready hp hg hmid (fun _ _ => rfl) (fun _ => hbar) hr]

/-- Two effects that agree on the lanes that act leave one state. -/
theorem State.afterLanes_congr {s : State} {p : Pass} {g : Group} {q : BitVec 3} {new old : Nat → Thread → Thread}
    (h : ∀ t th, new t th = old t th) : s.afterLanes p g q new = s.afterLanes p g q old := by
  have : new = old := funext (fun t => funext (fun th => h t th))
  rw [this]

/-! ### Lanes one after another -/

theorem State.pass_modThread (s : State) (th : ThreadKey) (f : Thread → Thread) : (s.modThread th f).pass = s.pass := rfl

theorem Op.meet_ready {op : Op} {g : Group} {p : Pass} {t : Nat} (hmid : p.mid = []) (hb : (g.thr t).pred op.guard = true)
    (hbar : t ∉ op.bars) (h : g.fullAt p.gk.exe t (op.srcs.map Prod.fst ++ op.dsts)) : op.meet false g p t = some .go := by
  unfold Op.meet
  simp [hb, hmid, hbar, Op.operands_full _ _ _ _ _ h]

/-- What an action that leaves the pass leaves, by a cause or without one. -/
def Act.left : Act → Option State
  | .out s => some s
  | .trap s _ => some s
  | _ => none

/-- The lanes in increasing index, each ready in its turn (06 R175). -/
theorem runLanes_done {p : Pass} {g : Group} {op : Op} {act : State → ThreadKey → Act}
    {C : State → ThreadKey → Prop} {one : State → ThreadKey → State}
    (hmid : p.mid = []) (ha : ∀ s th, C s th → act s th = .done (one s th)) (l acc : List Nat) (s : State)
    (hbar : ∀ t ∈ l, (g.thr t).pred op.guard = true → t ∉ op.bars)
    (hr : ∀ t ∈ l, (g.thr t).pred op.guard = true → g.fullAt p.gk.exe t (op.srcs.map Prod.fst ++ op.dsts))
    (hc : s.meetsInTurn p g op.guard (fun s th => s.fullNow th op.dsts ∧ C s th) one l) :
    runLanes p g false op act s acc none l = (s.inTurn p g op.guard one l).withSel (acc ++ l) := by
  induction l generalizing s acc with
  | nil => simp [runLanes, State.inTurn]
  | cons t ts ih =>
    obtain ⟨h1, h2⟩ := hc
    have hr' := fun u hu => hr u (List.mem_cons_of_mem t hu)
    have hbar' := fun u hu => hbar u (List.mem_cons_of_mem t hu)
    cases hb : (g.thr t).pred op.guard with
    | false =>
      simp only [hb, Bool.false_eq_true, ↓reduceIte] at h2
      have hm : op.meet false g p t = none := by simp [Op.meet, hb, hmid]
      simp only [runLanes, hm, State.inTurn, hb, Bool.false_eq_true, ↓reduceIte]
      rw [ih _ _ hbar' hr' h2]
      simp
    | true =>
      obtain ⟨hfull, hC⟩ := h1 hb
      simp only [hb, ↓reduceIte] at h2
      have hm : op.meet false g p t = some .go := Op.meet_ready hmid hb (hbar t (by simp) hb) (hr t (by simp) hb)
      simp only [runLanes, hm, Op.turn, Op.acts_full (th := ⟨p.gk, t⟩) hfull, ha s _ hC, State.inTurn, hb, ↓reduceIte]
      rw [ih _ _ hbar' hr' h2]
      simp

/-- The lanes in increasing index, where the acting lanes leave the pass. -/
theorem runLanes_out {p : Pass} {g : Group} {op : Op} {act : State → ThreadKey → Act}
    {C : State → ThreadKey → Prop} {one : State → ThreadKey → State}
    (hmid : p.mid = []) (ha : ∀ s th, C s th → (act s th).left = some (one s th)) (l acc : List Nat) (s : State)
    (hbar : ∀ t ∈ l, (g.thr t).pred op.guard = true → t ∉ op.bars)
    (hr : ∀ t ∈ l, (g.thr t).pred op.guard = true → g.fullAt p.gk.exe t (op.srcs.map Prod.fst ++ op.dsts))
    (hc : s.meetsInTurn p g op.guard (fun s th => s.fullNow th op.dsts ∧ C s th) one l) :
    runLanes p g false op act s acc none l
      = (s.inTurn p g op.guard one l).withSel (acc ++ l.filter (fun t => !(g.thr t).pred op.guard)) := by
  induction l generalizing s acc with
  | nil => simp [runLanes, State.inTurn]
  | cons t ts ih =>
    obtain ⟨h1, h2⟩ := hc
    have hr' := fun u hu => hr u (List.mem_cons_of_mem t hu)
    have hbar' := fun u hu => hbar u (List.mem_cons_of_mem t hu)
    cases hb : (g.thr t).pred op.guard with
    | false =>
      simp only [hb, Bool.false_eq_true, ↓reduceIte] at h2
      have hm : op.meet false g p t = none := by simp [Op.meet, hb, hmid]
      simp only [runLanes, hm, State.inTurn, hb, Bool.false_eq_true, ↓reduceIte]
      rw [ih _ _ hbar' hr' h2]
      simp [hb]
    | true =>
      obtain ⟨hfull, hC⟩ := h1 hb
      simp only [hb, ↓reduceIte] at h2
      have hm : op.meet false g p t = some .go := Op.meet_ready hmid hb (hbar t (by simp) hb) (hr t (by simp) hb)
      have hl := ha s _ hC
      simp only [runLanes, hm, Op.turn, Op.acts_full (th := ⟨p.gk, t⟩) hfull, State.inTurn, hb, ↓reduceIte]
      cases hx : act s ⟨p.gk, t⟩ with
      | done u => simp [hx, Act.left] at hl
      | hold u b => simp [hx, Act.left] at hl
      | wait u b => simp [hx, Act.left] at hl
      | out u =>
        simp only [hx, Act.left, Option.some.injEq] at hl
        subst hl
        dsimp only
        rw [ih _ _ hbar' hr' h2]
        simp [hb]
      | trap u c =>
        simp only [hx, Act.left, Option.some.injEq] at hl
        subst hl
        dsimp only
        rw [ih _ _ hbar' hr' h2]
        simp [hb]

theorem State.ready_sel {p : Pass} {g : Group} {q : BitVec 3} {rs : List Nat} (h : p.ready g q rs) :
    ∀ t ∈ p.sel, (g.thr t).pred q = true → g.fullAt p.gk.exe t rs :=
  fun t ht hb => h t (by simp [Pass.acting, ht, hb])

/-- No lane of a set is one on which the word is illegal. -/
def Pass.unbarred (p : Pass) (g : Group) (op : Op) : Prop := ∀ t ∈ p.sel, (g.thr t).pred op.guard = true → t ∉ op.bars

theorem Pass.unbarred_nil {p : Pass} {g : Group} {op : Op} (h : op.bars = []) : p.unbarred g op := by
  intro t _ _
  simp [h]

theorem no_wait {p : Pass} {g : Group} {op : Op} (hmid : p.mid = []) (hbar : p.unbarred g op) (hr : p.ready g op.guard (op.srcs.map Prod.fst ++ op.dsts)) :
    p.sel.any (fun t => op.meet false g p t = some .wait) = false := by
  rw [List.any_eq_false]
  intro t ht
  cases hb : (g.thr t).pred op.guard with
  | false => simp [Op.meet, hb, hmid]
  | true => simp [Op.meet_ready hmid hb (hbar t ht hb) (State.ready_sel hr t ht hb)]

/-- What a meaning by `execLanes` does when its lanes are ready in their turn. -/
theorem execLanes_done {s : State} {i : Instr} {p : Pass} {g : Group} {op : Op} {misuse : GroupKey → Bool}
    {act : State → ThreadKey → Act} {C : State → ThreadKey → Prop} {one : State → ThreadKey → State} (hi : Issues s i p g)
    (hm : misuse p.gk = false) (hbar : p.unbarred g op) (ha : ∀ s th, C s th → act s th = .done (one s th))
    (hr : p.ready g op.guard (op.srcs.map Prod.fst ++ op.dsts))
    (hc : s.meetsInTurn p g op.guard (fun s th => s.fullNow th op.dsts ∧ C s th) one p.sel) :
    execLanesIf s i op misuse act = .next ((s.inTurn p g op.guard one p.sel).withSel p.sel) := by
  obtain ⟨hp, hg, hf, hmid⟩ := hi
  simp only [execLanesIf, withPass, hp, hg, hf, hm, Bool.or_self, no_wait hmid hbar hr, Bool.false_eq_true, ↓reduceIte]
  rw [runLanes_done hmid ha p.sel [] s hbar (State.ready_sel hr) hc]
  rfl

/-- The same where the acting lanes leave the pass. -/
theorem execLanes_out {s : State} {i : Instr} {p : Pass} {g : Group} {op : Op} {misuse : GroupKey → Bool}
    {act : State → ThreadKey → Act} {C : State → ThreadKey → Prop} {one : State → ThreadKey → State} (hi : Issues s i p g)
    (hm : misuse p.gk = false) (hbar : p.unbarred g op) (ha : ∀ s th, C s th → (act s th).left = some (one s th))
    (hr : p.ready g op.guard (op.srcs.map Prod.fst ++ op.dsts))
    (hc : s.meetsInTurn p g op.guard (fun s th => s.fullNow th op.dsts ∧ C s th) one p.sel) :
    execLanesIf s i op misuse act
      = .next ((s.inTurn p g op.guard one p.sel).withSel (p.sel.filter (fun t => !(g.thr t).pred op.guard))) := by
  obtain ⟨hp, hg, hf, hmid⟩ := hi
  simp only [execLanesIf, withPass, hp, hg, hf, hm, Bool.or_self, no_wait hmid hbar hr, Bool.false_eq_true, ↓reduceIte]
  rw [runLanes_out hmid ha p.sel [] s hbar (State.ready_sel hr) hc]
  rfl

/-! ### The group as a whole -/

/-- What a collective meaning does past the checks of 11 R313 steps 1 to 3. -/
theorem execColl_act {s : State} {i : Instr} {k : BitVec 4} {p : Pass} {g : Group} {und : Pass → Group → Bool}
    {act : Pass → Group → Coll} {t : State} (hi : Issues s i p g) (hu : und p g = false) (hk : g.kp k = true)
    (hn : p.sel.length = 32) (ha : act p g = .done t) : execColl s i k und act = .next (advanceSel t p) := by
  obtain ⟨hp, hg, hf, hmid⟩ := hi
  simp [execColl, withPass, hp, hg, hf, hu, hk, hn, ha, hmid]

/-- A false tile predicate retires a collective word (07 R208). -/
theorem execColl_off {s : State} {i : Instr} {k : BitVec 4} {p : Pass} {g : Group} {und : Pass → Group → Bool}
    {act : Pass → Group → Coll} (hi : Issues s i p g) (hu : und p g = false) (hk : g.kp k = false) :
    execColl s i k und act = .next (advanceSel s p) := by
  obtain ⟨hp, hg, hf, hmid⟩ := hi
  simp only [execColl, withPass, hp, hg, hf, hu, hk, retireSel, hmid, Bool.or_self, Bool.not_false, Bool.false_eq_true, ↓reduceIte,
    List.contains_nil, Bool.not_false, List.filter_true]
  rw [foldl_same _ s p.sel (fun _ _ => rfl)]
  exact congrArg _ (State.withSel_same (s := advanceSel s p) (p := p) hp)

/-! ### The shapes of claims from the shapes of meanings -/

/-- A meaning by `execMap` is lane-wise. -/
theorem LaneWise.of_map {i : Instr} {q : BitVec 3} {rs : List Nat} {new : Pass → Group → Nat → Thread → Thread} {op : Op}
    {eff : Group → List Nat → Nat → Thread → Thread} (he : ∀ s, exec i s = execMap s i op eff) (hq : op.guard = q) (hbar : op.bars = [])
    (hrs : op.srcs.map Prod.fst ++ op.dsts = rs)
    (hn : ∀ p g t th, g.key = p.gk → eff g (p.acting g q) t th = new p g t th) : LaneWise i q rs new := by
  intro s p g hi hr
  subst hq
  subst hrs
  rw [he, execMap_ready hi hbar hr]
  exact congrArg _ (State.afterLanes_congr (fun t th => hn p g t th (State.group_key hi.2.1)))

/-- A meaning by `execLanesIf` whose lanes are done acts on its lanes in turn. -/
theorem LanesInTurn.of_lanes {i : Instr} {q : BitVec 3} {rs ds : List Nat} {C : State → ThreadKey → Prop}
    {one : State → ThreadKey → State} {op : State → Op} {misuse : State → GroupKey → Bool} {act : State → ThreadKey → Act}
    (he : ∀ s, exec i s = execLanesIf s i (op s) (misuse s) act) (hq : ∀ s, (op s).guard = q)
    (hrs : ∀ s, (op s).srcs.map Prod.fst ++ (op s).dsts = rs) (hds : ∀ s, (op s).dsts = ds)
    (hm : ∀ s p g, Issues s i p g → misuse s p.gk = false ∧ p.unbarred g (op s))
    (ha : ∀ s th, C s th → act s th = .done (one s th)) :
    LanesInTurn i q rs ds C one := by
  intro s p g hi hr hc
  obtain rfl := hq s
  obtain rfl := hrs s
  obtain rfl := hds s
  rw [he, execLanes_done hi (hm s p g hi).1 (hm s p g hi).2 ha hr hc]

/-- A meaning by `execLanesIf` whose acting lanes leave the pass. -/
theorem LanesLeave.of_lanes {i : Instr} {q : BitVec 3} {rs ds : List Nat} {C : State → ThreadKey → Prop}
    {one : State → ThreadKey → State} {op : State → Op} {misuse : State → GroupKey → Bool} {act : State → ThreadKey → Act}
    (he : ∀ s, exec i s = execLanesIf s i (op s) (misuse s) act) (hq : ∀ s, (op s).guard = q)
    (hrs : ∀ s, (op s).srcs.map Prod.fst ++ (op s).dsts = rs) (hds : ∀ s, (op s).dsts = ds)
    (hm : ∀ s p g, Issues s i p g → misuse s p.gk = false ∧ p.unbarred g (op s))
    (ha : ∀ s th, C s th → (act s th).left = some (one s th)) :
    LanesLeave i q rs ds C one := by
  intro s p g hi hr hc
  obtain rfl := hq s
  obtain rfl := hrs s
  obtain rfl := hds s
  rw [he, execLanes_out hi (hm s p g hi).1 (hm s p g hi).2 ha hr hc]

/-- The same for a word with a condition on the group. -/
theorem LanesInTurnIf.of_lanes {i : Instr} {q : BitVec 3} {M : State → GroupKey → Prop} {rs ds : List Nat}
    {C : State → ThreadKey → Prop} {one : State → ThreadKey → State} {op : State → Op} {misuse : State → GroupKey → Bool}
    {act : State → ThreadKey → Act}
    (he : ∀ s, exec i s = execLanesIf s i (op s) (misuse s) act) (hq : ∀ s, (op s).guard = q)
    (hrs : ∀ s, (op s).srcs.map Prod.fst ++ (op s).dsts = rs) (hds : ∀ s, (op s).dsts = ds)
    (hm : ∀ s p g, Issues s i p g → M s p.gk → misuse s p.gk = false ∧ p.unbarred g (op s)) (ha : ∀ s th, C s th → act s th = .done (one s th)) :
    LanesInTurnIf i q M rs ds C one := by
  intro s p g hi hM hr hc
  obtain rfl := hq s
  obtain rfl := hrs s
  obtain rfl := hds s
  rw [he, execLanes_done hi (hm s p g hi hM).1 (hm s p g hi hM).2 ha hr hc]

/-- The same for a word with a condition on the group. -/
theorem LanesLeaveIf.of_lanes {i : Instr} {q : BitVec 3} {M : State → GroupKey → Prop} {rs ds : List Nat}
    {C : State → ThreadKey → Prop} {one : State → ThreadKey → State} {op : State → Op} {misuse : State → GroupKey → Bool}
    {act : State → ThreadKey → Act}
    (he : ∀ s, exec i s = execLanesIf s i (op s) (misuse s) act) (hq : ∀ s, (op s).guard = q)
    (hrs : ∀ s, (op s).srcs.map Prod.fst ++ (op s).dsts = rs) (hds : ∀ s, (op s).dsts = ds)
    (hm : ∀ s p g, Issues s i p g → M s p.gk → misuse s p.gk = false ∧ p.unbarred g (op s))
    (ha : ∀ s th, C s th → (act s th).left = some (one s th)) :
    LanesLeaveIf i q M rs ds C one := by
  intro s p g hi hM hr hc
  obtain rfl := hq s
  obtain rfl := hrs s
  obtain rfl := hds s
  rw [he, execLanes_out hi (hm s p g hi hM).1 (hm s p g hi hM).2 ha hr hc]

/-- A request that need not wait is ready. -/
theorem State.readyAt_reachable {s : State} {th : ThreadKey} {acc : Acc} {r : MemReq} {waits : Loc → Bool}
    (h : s.reachable th acc r waits) : s.readyAt th acc r waits = (s, none) := by
  obtain ⟨hb, hx, hw⟩ := h
  have h2 : (!r.spad && !s.xlatReady th r.va) = false := by
    rcases hx with hx | hx <;> simp [hx]
  simp only [State.readyAt, hb, h2, Bool.false_eq_true, ↓reduceIte]
  split
  · rename_i l t hl
    simp [hw l t hl]
  · rfl

theorem notReady_ready {ready : State → ThreadKey → State × Option Bool} {gk : GroupKey} {s : State} (l : List Nat)
    (h : ∀ t ∈ l, ready s ⟨gk, t⟩ = (s, none)) : notReady ready gk s l = (s, []) := by
  induction l with
  | nil => rfl
  | cons t ts ih => simp [notReady, h t (by simp), ih (fun u hu => h u (by simp [hu]))]

/-- What a meaning by `execAccIf` does once every acting lane is ready. -/
theorem execAcc_ready {s : State} {i : Instr} {p : Pass} {g : Group} {op : Op} {misuse : GroupKey → Bool}
    {ready : State → ThreadKey → State × Option Bool} {mate : State → ThreadKey → Option Nat}
    {act : Nat → State → ThreadKey → Act} (hi : Issues s i p g)
    (hm : misuse p.gk = false) (hbar : p.unbarred g op) (hr : p.ready g op.guard (op.srcs.map Prod.fst ++ op.dsts))
    (hgo : ∀ t ∈ p.acting g op.guard, ready s ⟨p.gk, t⟩ = (s, none)) :
    execAccIf s i op misuse ready mate act = .next (runLanes p g false op (act (s.nowId p.gk.team)) s [] none p.sel) := by
  obtain ⟨hp, hg, hf, hmid⟩ := hi
  have hlist : (p.sel.filter (fun t => ((op.meet false g p t).map (fun m => decide (m = .go) || m.isEcc)).getD false))
      = p.acting g op.guard := by
    apply List.filter_congr
    intro t ht
    cases hb : (g.thr t).pred op.guard with
    | false => simp [Op.meet, hb, hmid]
    | true => simp [Op.meet_ready hmid hb (hbar t ht hb) (State.ready_sel hr t ht hb)]
  simp [execAccIf, withPass, hp, hg, hf, hm, no_wait hmid hbar hr, hlist, notReady_ready _ hgo, laneWaits]

/-- A meaning by `execAccIf` whose lanes are done acts on its lanes in turn. -/
theorem RoomInTurn.of_done {i : Instr} {q : BitVec 3} {M : State → GroupKey → Prop} {rs ds : List Nat}
    {G : State → ThreadKey → Prop} {C : Nat → State → ThreadKey → Prop}
    {one : Nat → State → ThreadKey → State} {op : State → Op} {misuse : State → GroupKey → Bool}
    {ready : State → State → ThreadKey → State × Option Bool} {mate : State → ThreadKey → Option Nat}
    {act : Nat → State → ThreadKey → Act}
    (he : ∀ s, exec i s = execAccIf s i (op s) (misuse s) (ready s) mate act)
    (hq : ∀ s, (op s).guard = q) (hrs : ∀ s, (op s).srcs.map Prod.fst ++ (op s).dsts = rs) (hds : ∀ s, (op s).dsts = ds)
    (hm : ∀ s p g, Issues s i p g → M s p.gk → misuse s p.gk = false ∧ p.unbarred g (op s)) (hgo : ∀ s th, G s th → ready s s th = (s, none))
    (ha : ∀ base s th, C base s th → act base s th = .done (one base s th)) :
    RoomInTurn i q M rs ds G C one true := by
  intro s p g hi hM hr hg hc
  obtain rfl := hq s
  obtain rfl := hrs s
  obtain rfl := hds s
  rw [he, execAcc_ready hi (hm s p g hi hM).1 (hm s p g hi hM).2 hr (fun t ht => hgo s _ (hg t ht)),
    runLanes_done hi.2.2.2 (ha _) p.sel [] s (hm s p g hi hM).2 (State.ready_sel hr) hc]
  rfl

/-- A meaning by `execAccIf` whose acting lanes leave the pass. -/
theorem RoomInTurn.of_out {i : Instr} {q : BitVec 3} {M : State → GroupKey → Prop} {rs ds : List Nat}
    {G : State → ThreadKey → Prop} {C : Nat → State → ThreadKey → Prop}
    {one : Nat → State → ThreadKey → State} {op : State → Op} {misuse : State → GroupKey → Bool}
    {ready : State → State → ThreadKey → State × Option Bool} {mate : State → ThreadKey → Option Nat}
    {act : Nat → State → ThreadKey → Act}
    (he : ∀ s, exec i s = execAccIf s i (op s) (misuse s) (ready s) mate act)
    (hq : ∀ s, (op s).guard = q) (hrs : ∀ s, (op s).srcs.map Prod.fst ++ (op s).dsts = rs) (hds : ∀ s, (op s).dsts = ds)
    (hm : ∀ s p g, Issues s i p g → M s p.gk → misuse s p.gk = false ∧ p.unbarred g (op s)) (hgo : ∀ s th, G s th → ready s s th = (s, none))
    (ha : ∀ base s th, C base s th → (act base s th).left = some (one base s th)) :
    RoomInTurn i q M rs ds G C one false := by
  intro s p g hi hM hr hg hc
  obtain rfl := hq s
  obtain rfl := hrs s
  obtain rfl := hds s
  rw [he, execAcc_ready hi (hm s p g hi hM).1 (hm s p g hi hM).2 hr (fun t ht => hgo s _ (hg t ht)),
    runLanes_out hi.2.2.2 (ha _) p.sel [] s (hm s p g hi hM).2 (State.ready_sel hr) hc]
  rfl

/-- A meaning by `execAccIf` whose lanes can all go on acts on its lanes in turn. -/
theorem AccessInTurn.of_acc {i : Instr} {q : BitVec 3} {M : State → GroupKey → Prop} {rs ds : List Nat} {acc : Acc}
    {req : State → ThreadKey → MemReq} {waits : State → ThreadKey → Loc → Bool} {C : Nat → State → ThreadKey → Prop}
    {one : Nat → State → ThreadKey → State} {op : State → Op} {misuse : State → GroupKey → Bool}
    {mate : State → ThreadKey → Option Nat} {act : Nat → State → ThreadKey → Act}
    (he : ∀ s, exec i s = execAccIf s i (op s) (misuse s) (fun s th => s.readyAt th acc (req s th) (waits s th)) mate act)
    (hq : ∀ s, (op s).guard = q) (hrs : ∀ s, (op s).srcs.map Prod.fst ++ (op s).dsts = rs) (hds : ∀ s, (op s).dsts = ds)
    (hm : ∀ s p g, Issues s i p g → M s p.gk → misuse s p.gk = false ∧ p.unbarred g (op s))
    (ha : ∀ base s th, C base s th → act base s th = .done (one base s th)) :
    AccessInTurn i q M rs ds acc req waits C one :=
  RoomInTurn.of_done (G := fun s th => s.reachable th acc (req s th) (waits s th))
    (ready := fun _ s th => s.readyAt th acc (req s th) (waits s th)) he hq hrs hds hm
    (fun _ _ h => State.readyAt_reachable h) ha

/-- A meaning by `execLoads` whose lanes are done acts on its lanes in turn. -/
theorem RoomInTurn.of_loads {i : Instr} {q : BitVec 3} {rs ds : List Nat} {C : Nat → State → ThreadKey → Prop}
    {one : Nat → State → ThreadKey → State} {op : Op} {act : Nat → State → ThreadKey → Act}
    (he : ∀ s, exec i s = execLoads s i op act) (hq : op.guard = q) (hrs : op.srcs.map Prod.fst ++ op.dsts = rs)
    (hds : op.dsts = ds) (hbar : op.bars = []) (ha : ∀ base s th, C base s th → act base s th = .done (one base s th)) :
    RoomInTurn i q (fun _ _ => True) rs ds (fun _ _ => True) C one true := by
  intro s p g hi _ hr _ hc
  subst hq
  subst hrs
  subst hds
  have hb : (s.pass.map (fun p => s.nowId p.gk.team)).getD 0 = s.nowId p.gk.team := by simp [hi.1]
  rw [he, execLoads, execLanes, hb, execLanes_done hi rfl (Pass.unbarred_nil hbar) (ha _) hr hc]
  rfl

/-- A meaning by `execColl` whose action is done acts on the group. -/
theorem GroupWise.of_coll {i : Instr} {k : BitVec 4} {C : State → Pass → Group → Prop} {new : State → Pass → Group → State}
    {und : State → Pass → Group → Bool} {act : State → Pass → Group → Coll}
    (he : ∀ s, exec i s = execColl s i k (und s) (act s)) (hu : ∀ s p g, C s p g → und s p g = false)
    (ha : ∀ s p g, s.group p.gk = some g → C s p g → act s p g = .done (new s p g)) : GroupWise i k C new := by
  intro s p g hi hk hn hC
  rw [he, execColl_act hi (hu s p g hC) hk hn (ha s p g hi.2.1 hC)]

end Sys2Proof.Machine
end

