-- ==== Sys2Proof/Laws/Blocks.lean ====
section
/-! SUPPORT. What the block instructions do when nothing is in the way of their participants (10 R300). -/

namespace Sys2Proof.Machine

theorem filterMap_all {α β : Type} (l : List α) (f : α → Option β) (h : α → β) (e : ∀ x ∈ l, f x = some (h x)) :
    l.filterMap f = l.map h := by
  induction l with
  | nil => rfl
  | cons x xs ih => simp [e x (by simp), ih (fun y hy => e y (by simp [hy]))]

theorem filter_none {α : Type} (l : List α) (f : α → Bool) (e : ∀ x ∈ l, f x = false) : l.filter f = [] := by
  rw [List.filter_eq_nil_iff]
  intro x hx
  simp [e x hx]

/-- The lanes of a block instruction meet nothing where their sources are full, and the scalars of the lowest (10 R300). -/
theorem blockMeets_go {p : Pass} {g : Group} {srcs : Nat → List Nat} {scalars : List Nat} (hmid : p.mid = []) (l : List Nat)
    (low : Bool) (hr : ∀ t ∈ l, g.fullAt true t (srcs t)) (hs : low = false → ∀ t ∈ l.take 1, g.fullAt true t scalars) :
    blockMeets p g srcs scalars low l = l.map (fun t => (t, Meet.go)) := by
  induction l generalizing low with
  | nil => rfl
  | cons t ts ih =>
    have hm : ({ guard := 7#3, srcs := (srcs t ++ (if low then [] else scalars)).map (fun r => (r, false)), dsts := [] } : Op).operands g true t p.pc = .go := by
      apply Op.operands_full
      intro r h
      simp only [List.map_map, List.append_nil, List.mem_map, List.mem_append, Function.comp] at h
      obtain ⟨q, hq | hq, rfl⟩ := h
      · exact hr t (by simp) q hq
      · cases low with
        | true => simp at hq
        | false => exact hs rfl t (by simp) q (by simpa using hq)
    simp only [blockMeets, hmid, List.contains_nil, Bool.false_eq_true, ↓reduceIte, List.map_cons, hm]
    rw [ih _ (fun u hu => hr u (by simp [hu])) (fun h => by simp at h)]

theorem going_all (l : List Nat) : going (l.map (fun t => (t, Meet.go))) = l := by
  unfold going
  rw [filterMap_all _ _ (fun x => x.1)]
  · simp [Function.comp_def]
  · intro x hx
    simp only [List.mem_map] at hx
    obtain ⟨t, _, rfl⟩ := hx
    rfl

theorem meetAgain_all (l : List Nat) (f : Nat → Meet) (h : ∀ t ∈ l, f t = .go) :
    meetAgain (l.map (fun t => (t, Meet.go))) f = l.map (fun t => (t, Meet.go)) := by
  unfold meetAgain
  rw [List.map_map]
  exact List.map_congr_left (fun t ht => by simp [h t ht])

theorem no_waits (l : List Nat) : (l.map (fun t => (t, Meet.go))).any (fun x => x.2 = .wait) = false := by
  rw [List.any_eq_false]
  intro x hx
  simp only [List.mem_map] at hx
  obtain ⟨t, _, rfl⟩ := hx
  simp

theorem State.leaveAll_go (s : State) (gk : GroupKey) (l : List Nat) : s.leaveAll gk (l.map (fun t => (t, Meet.go))) = s := by
  apply foldl_same
  intro x hx
  simp only [List.mem_map] at hx
  obtain ⟨t, _, rfl⟩ := hx
  rfl

/-- A block instruction whose participants are all the selected lanes, with every register and list full, does its
effect and moves them past the word. -/
theorem execBlock_done {s : State} {i : Instr} {k : BitVec 4} {p : Pass} {g : Group} {und : Group → Bool} {srcs : Nat → List Nat}
    {scalars : List Nat} {lst : Group → List Nat → Option Nat} {dsts : Group → List Nat → Nat → List Nat}
    {act : Pass → Group → List Nat → List Nat → BlkAct}
    {f : Group → Group} (hi : Issues s i p g) (he : p.gk.exe = true) (hu : und g = false) (hk : g.kp k = true)
    (hne : p.sel ≠ []) (hr : ∀ t ∈ p.sel, g.fullAt true t (srcs t ++ dsts g p.sel t))
    (hs : ∀ t ∈ p.sel.take 1, g.fullAt true t scalars)
    (hl : ∀ n, lst g p.sel = some n → (g.ol n).st = .full ∧ (g.ol n).ecc = false) (ha : act p g p.sel p.sel = .done f) :
    execBlock s i k und srcs scalars lst dsts act = .next (s.modGroup p.gk (fun h =>
      (f h).mapThreads (fun t th => if p.sel.contains t then th.advance else th))) := by
  obtain ⟨hp, hg, hf, hmid⟩ := hi
  have hms := blockMeets_go (srcs := srcs) (scalars := scalars) hmid p.sel false
    (fun t ht r h => hr t ht r (List.mem_append_left _ h)) (fun _ => hs)
  have hws := meetAgain_all p.sel (fun t => ({ guard := 7#3, srcs := [], dsts := dsts g p.sel t } : Op).operands g true t p.pc) (by
    intro t ht
    apply Op.operands_full
    intro r h
    exact hr t ht r (List.mem_append_right _ (by simpa using h)))
  have hem : p.sel.isEmpty = false := by simpa using hne
  have hclear : p.sel.foldl (fun s t => (dsts g p.sel t).foldl (fun s r => s.clearPoison ⟨p.gk, t⟩ r) s) s = s := by
    apply foldl_same
    intro t ht
    apply State.clearPoison_list _ hg
    intro r hr'
    simp only [he]
    exact hr t ht r (by simp [hr'])
  have tail : ∀ t : State, t.pass = some p → t.withSel p.sel = t := fun t ht => State.withSel_same ht
  simp only [execBlock, withPass, hp, hg, hf, hu, Bool.or_self, Bool.false_eq_true, ↓reduceIte, hk, Bool.not_true, hms, going_all,
    hws, no_waits, hem, ha]
  have hb : s.blockAct p (p.sel.map (fun t => (t, Meet.go))) (dsts g p.sel) (.done f)
      = s.modGroup p.gk (fun h => (f h).mapThreads (fun t th => if p.sel.contains t then th.advance else th)) := by
    simp only [State.blockAct, going_all, hclear, State.leaveAll_go]
    exact tail _ hp
  cases ho : lst g p.sel with
  | none => simp only [Option.map_none, hb]
  | some n => simp only [Option.map_some, (hl n ho).1, (hl n ho).2, Bool.false_eq_true, ↓reduceIte, hb]

end Sys2Proof.Machine
end

