-- ==== Sys2Proof/Laws/Encode.lean ====
section
/-! SUPPORT. The formats of 07 R204: the fields of a word joined from fields are these fields, its major and its chain bit
those it was given. -/

namespace Sys2Proof.Laws

open Sys2Proof

/-- Bits above the low part of an append are those of the high part. -/
theorem extract_high {v w : Nat} (x : BitVec v) (y : BitVec w) (s k : Nat) (h : w ≤ s) :
    (x ++ y).extractLsb' s k = x.extractLsb' (s - w) k := by
  ext i hi
  simp [BitVec.getLsbD_append, show ¬s + i < w by omega, show s + i - w = s - w + i by omega]

/-- The low bits of an append are its low part. -/
theorem extract_low {v w : Nat} (x : BitVec v) (y : BitVec w) : (x ++ y).extractLsb' 0 w = y := by
  ext i hi
  simp [BitVec.getLsbD_append, hi]

/-- The fields of a word joined in the RG format. -/
@[simp] theorem splitRG_joinRG (c : Bool) (m : BitVec 6) (r : FmtRG) :
    splitRG (joinRG c m r) = r := by
  obtain ⟨g, d, a, b, pa, pb, fn⟩ := r
  unfold splitRG joinRG header
  congr 1
  · iterate 6 refine (extract_high _ _ _ _ (by decide)).trans ?_
    exact extract_low _ _
  · iterate 5 refine (extract_high _ _ _ _ (by decide)).trans ?_
    exact extract_low _ _
  · iterate 4 refine (extract_high _ _ _ _ (by decide)).trans ?_
    exact extract_low _ _
  · iterate 3 refine (extract_high _ _ _ _ (by decide)).trans ?_
    exact extract_low _ _
  · iterate 2 refine (extract_high _ _ _ _ (by decide)).trans ?_
    exact extract_low _ _
  · iterate 1 refine (extract_high _ _ _ _ (by decide)).trans ?_
    exact extract_low _ _
  · exact extract_low _ _

/-- The major of a word joined in the RG format. -/
@[simp] theorem majorOf_joinRG (c : Bool) (m : BitVec 6) (r : FmtRG) : majorOf (joinRG c m r) = m := by
  unfold majorOf joinRG header
  iterate 7 refine (extract_high _ _ _ _ (by decide)).trans ?_
  exact extract_low _ _

/-- The chain bit of a word joined in the RG format. -/
@[simp] theorem chainOf_joinRG (c : Bool) (m : BitVec 6) (r : FmtRG) : chainOf (joinRG c m r) = c := by
  have h : (joinRG c m r).extractLsb' 31 1 = BitVec.ofBool c := by
    unfold joinRG header
    iterate 8 refine (extract_high _ _ _ _ (by decide)).trans ?_
    exact by cases c <;> rfl
  unfold chainOf
  rw [h]
  cases c <;> rfl

/-- The fields of a word joined in the RP format. -/
@[simp] theorem splitRP_joinRP (c : Bool) (m : BitVec 6) (r : FmtRP) :
    splitRP (joinRP c m r) = r := by
  obtain ⟨g, p1, p2, a, b, pa, pb, cc⟩ := r
  unfold splitRP joinRP header
  congr 1
  · iterate 7 refine (extract_high _ _ _ _ (by decide)).trans ?_
    exact extract_low _ _
  · iterate 6 refine (extract_high _ _ _ _ (by decide)).trans ?_
    exact extract_low _ _
  · iterate 5 refine (extract_high _ _ _ _ (by decide)).trans ?_
    exact extract_low _ _
  · iterate 4 refine (extract_high _ _ _ _ (by decide)).trans ?_
    exact extract_low _ _
  · iterate 3 refine (extract_high _ _ _ _ (by decide)).trans ?_
    exact extract_low _ _
  · iterate 2 refine (extract_high _ _ _ _ (by decide)).trans ?_
    exact extract_low _ _
  · iterate 1 refine (extract_high _ _ _ _ (by decide)).trans ?_
    exact extract_low _ _
  · exact extract_low _ _

/-- The major of a word joined in the RP format. -/
@[simp] theorem majorOf_joinRP (c : Bool) (m : BitVec 6) (r : FmtRP) : majorOf (joinRP c m r) = m := by
  unfold majorOf joinRP header
  iterate 8 refine (extract_high _ _ _ _ (by decide)).trans ?_
  exact extract_low _ _

/-- The chain bit of a word joined in the RP format. -/
@[simp] theorem chainOf_joinRP (c : Bool) (m : BitVec 6) (r : FmtRP) : chainOf (joinRP c m r) = c := by
  have h : (joinRP c m r).extractLsb' 31 1 = BitVec.ofBool c := by
    unfold joinRP header
    iterate 9 refine (extract_high _ _ _ _ (by decide)).trans ?_
    exact by cases c <;> rfl
  unfold chainOf
  rw [h]
  cases c <;> rfl

/-- The fields of a word joined in the RI format. -/
@[simp] theorem splitRI_joinRI (c : Bool) (m : BitVec 6) (r : FmtRI) :
    splitRI (joinRI c m r) = r := by
  obtain ⟨g, d, fn, imm⟩ := r
  unfold splitRI joinRI header
  congr 1
  · iterate 3 refine (extract_high _ _ _ _ (by decide)).trans ?_
    exact extract_low _ _
  · iterate 2 refine (extract_high _ _ _ _ (by decide)).trans ?_
    exact extract_low _ _
  · iterate 1 refine (extract_high _ _ _ _ (by decide)).trans ?_
    exact extract_low _ _
  · exact extract_low _ _

/-- The major of a word joined in the RI format. -/
@[simp] theorem majorOf_joinRI (c : Bool) (m : BitVec 6) (r : FmtRI) : majorOf (joinRI c m r) = m := by
  unfold majorOf joinRI header
  iterate 4 refine (extract_high _ _ _ _ (by decide)).trans ?_
  exact extract_low _ _

/-- The chain bit of a word joined in the RI format. -/
@[simp] theorem chainOf_joinRI (c : Bool) (m : BitVec 6) (r : FmtRI) : chainOf (joinRI c m r) = c := by
  have h : (joinRI c m r).extractLsb' 31 1 = BitVec.ofBool c := by
    unfold joinRI header
    iterate 5 refine (extract_high _ _ _ _ (by decide)).trans ?_
    exact by cases c <;> rfl
  unfold chainOf
  rw [h]
  cases c <;> rfl

/-- The fields of a word joined in the MEM format. -/
@[simp] theorem splitMEM_joinMEM (c : Bool) (m : BitVec 6) (r : FmtMEM) :
    splitMEM (joinMEM c m r) = r := by
  obtain ⟨d, a, w, off⟩ := r
  unfold splitMEM joinMEM header
  congr 1
  · iterate 3 refine (extract_high _ _ _ _ (by decide)).trans ?_
    exact extract_low _ _
  · iterate 2 refine (extract_high _ _ _ _ (by decide)).trans ?_
    exact extract_low _ _
  · iterate 1 refine (extract_high _ _ _ _ (by decide)).trans ?_
    exact extract_low _ _
  · exact extract_low _ _

/-- The major of a word joined in the MEM format. -/
@[simp] theorem majorOf_joinMEM (c : Bool) (m : BitVec 6) (r : FmtMEM) : majorOf (joinMEM c m r) = m := by
  unfold majorOf joinMEM header
  iterate 4 refine (extract_high _ _ _ _ (by decide)).trans ?_
  exact extract_low _ _

/-- The chain bit of a word joined in the MEM format. -/
@[simp] theorem chainOf_joinMEM (c : Bool) (m : BitVec 6) (r : FmtMEM) : chainOf (joinMEM c m r) = c := by
  have h : (joinMEM c m r).extractLsb' 31 1 = BitVec.ofBool c := by
    unfold joinMEM header
    iterate 5 refine (extract_high _ _ _ _ (by decide)).trans ?_
    exact by cases c <;> rfl
  unfold chainOf
  rw [h]
  cases c <;> rfl

/-- The fields of a word joined in the MA format. -/
@[simp] theorem splitMA_joinMA (c : Bool) (m : BitVec 6) (r : FmtMA) :
    splitMA (joinMA c m r) = r := by
  obtain ⟨g, d, a, dir, sp, res, os, w⟩ := r
  unfold splitMA joinMA header
  congr 1
  · iterate 7 refine (extract_high _ _ _ _ (by decide)).trans ?_
    exact extract_low _ _
  · iterate 6 refine (extract_high _ _ _ _ (by decide)).trans ?_
    exact extract_low _ _
  · iterate 5 refine (extract_high _ _ _ _ (by decide)).trans ?_
    exact extract_low _ _
  · iterate 4 refine (extract_high _ _ _ _ (by decide)).trans ?_
    exact extract_low _ _
  · iterate 3 refine (extract_high _ _ _ _ (by decide)).trans ?_
    exact extract_low _ _
  · iterate 2 refine (extract_high _ _ _ _ (by decide)).trans ?_
    exact extract_low _ _
  · iterate 1 refine (extract_high _ _ _ _ (by decide)).trans ?_
    exact extract_low _ _
  · exact extract_low _ _

/-- The major of a word joined in the MA format. -/
@[simp] theorem majorOf_joinMA (c : Bool) (m : BitVec 6) (r : FmtMA) : majorOf (joinMA c m r) = m := by
  unfold majorOf joinMA header
  iterate 8 refine (extract_high _ _ _ _ (by decide)).trans ?_
  exact extract_low _ _

/-- The chain bit of a word joined in the MA format. -/
@[simp] theorem chainOf_joinMA (c : Bool) (m : BitVec 6) (r : FmtMA) : chainOf (joinMA c m r) = c := by
  have h : (joinMA c m r).extractLsb' 31 1 = BitVec.ofBool c := by
    unfold joinMA header
    iterate 9 refine (extract_high _ _ _ _ (by decide)).trans ?_
    exact by cases c <;> rfl
  unfold chainOf
  rw [h]
  cases c <;> rfl

/-- The fields of a word joined in the AT format. -/
@[simp] theorem splitAT_joinAT (c : Bool) (m : BitVec 6) (r : FmtAT) :
    splitAT (joinAT c m r) = r := by
  obtain ⟨op, d, a, b, os, sp, w, res⟩ := r
  unfold splitAT joinAT header
  congr 1
  · iterate 7 refine (extract_high _ _ _ _ (by decide)).trans ?_
    exact extract_low _ _
  · iterate 6 refine (extract_high _ _ _ _ (by decide)).trans ?_
    exact extract_low _ _
  · iterate 5 refine (extract_high _ _ _ _ (by decide)).trans ?_
    exact extract_low _ _
  · iterate 4 refine (extract_high _ _ _ _ (by decide)).trans ?_
    exact extract_low _ _
  · iterate 3 refine (extract_high _ _ _ _ (by decide)).trans ?_
    exact extract_low _ _
  · iterate 2 refine (extract_high _ _ _ _ (by decide)).trans ?_
    exact extract_low _ _
  · iterate 1 refine (extract_high _ _ _ _ (by decide)).trans ?_
    exact extract_low _ _
  · exact extract_low _ _

/-- The major of a word joined in the AT format. -/
@[simp] theorem majorOf_joinAT (c : Bool) (m : BitVec 6) (r : FmtAT) : majorOf (joinAT c m r) = m := by
  unfold majorOf joinAT header
  iterate 8 refine (extract_high _ _ _ _ (by decide)).trans ?_
  exact extract_low _ _

/-- The chain bit of a word joined in the AT format. -/
@[simp] theorem chainOf_joinAT (c : Bool) (m : BitVec 6) (r : FmtAT) : chainOf (joinAT c m r) = c := by
  have h : (joinAT c m r).extractLsb' 31 1 = BitVec.ofBool c := by
    unfold joinAT header
    iterate 9 refine (extract_high _ _ _ _ (by decide)).trans ?_
    exact by cases c <;> rfl
  unfold chainOf
  rw [h]
  cases c <;> rfl

/-- The fields of a word joined in the QF format. -/
@[simp] theorem splitQF_joinQF (c : Bool) (m : BitVec 6) (r : FmtQF) :
    splitQF (joinQF c m r) = r := by
  obtain ⟨g, d, a, qn, mp, fn⟩ := r
  unfold splitQF joinQF header
  congr 1
  · iterate 5 refine (extract_high _ _ _ _ (by decide)).trans ?_
    exact extract_low _ _
  · iterate 4 refine (extract_high _ _ _ _ (by decide)).trans ?_
    exact extract_low _ _
  · iterate 3 refine (extract_high _ _ _ _ (by decide)).trans ?_
    exact extract_low _ _
  · iterate 2 refine (extract_high _ _ _ _ (by decide)).trans ?_
    exact extract_low _ _
  · iterate 1 refine (extract_high _ _ _ _ (by decide)).trans ?_
    exact extract_low _ _
  · exact extract_low _ _

/-- The major of a word joined in the QF format. -/
@[simp] theorem majorOf_joinQF (c : Bool) (m : BitVec 6) (r : FmtQF) : majorOf (joinQF c m r) = m := by
  unfold majorOf joinQF header
  iterate 6 refine (extract_high _ _ _ _ (by decide)).trans ?_
  exact extract_low _ _

/-- The chain bit of a word joined in the QF format. -/
@[simp] theorem chainOf_joinQF (c : Bool) (m : BitVec 6) (r : FmtQF) : chainOf (joinQF c m r) = c := by
  have h : (joinQF c m r).extractLsb' 31 1 = BitVec.ofBool c := by
    unfold joinQF header
    iterate 7 refine (extract_high _ _ _ _ (by decide)).trans ?_
    exact by cases c <;> rfl
  unfold chainOf
  rw [h]
  cases c <;> rfl

/-- The fields of a word joined in the BF format. -/
@[simp] theorem splitBF_joinBF (c : Bool) (m : BitVec 6) (r : FmtBF) :
    splitBF (joinBF c m r) = r := by
  obtain ⟨g, res, off⟩ := r
  unfold splitBF joinBF header
  congr 1
  · iterate 2 refine (extract_high _ _ _ _ (by decide)).trans ?_
    exact extract_low _ _
  · iterate 1 refine (extract_high _ _ _ _ (by decide)).trans ?_
    exact extract_low _ _
  · exact extract_low _ _

/-- The major of a word joined in the BF format. -/
@[simp] theorem majorOf_joinBF (c : Bool) (m : BitVec 6) (r : FmtBF) : majorOf (joinBF c m r) = m := by
  unfold majorOf joinBF header
  iterate 3 refine (extract_high _ _ _ _ (by decide)).trans ?_
  exact extract_low _ _

/-- The chain bit of a word joined in the BF format. -/
@[simp] theorem chainOf_joinBF (c : Bool) (m : BitVec 6) (r : FmtBF) : chainOf (joinBF c m r) = c := by
  have h : (joinBF c m r).extractLsb' 31 1 = BitVec.ofBool c := by
    unfold joinBF header
    iterate 4 refine (extract_high _ _ _ _ (by decide)).trans ?_
    exact by cases c <;> rfl
  unfold chainOf
  rw [h]
  cases c <;> rfl

/-- The fields of a word joined in the MX format. -/
@[simp] theorem splitMX_joinMX (c : Bool) (m : BitVec 6) (r : FmtMX) :
    splitMX (joinMX c m r) = r := by
  obtain ⟨k, t, a, b, ol, var, fn⟩ := r
  unfold splitMX joinMX header
  congr 1
  · iterate 6 refine (extract_high _ _ _ _ (by decide)).trans ?_
    exact extract_low _ _
  · iterate 5 refine (extract_high _ _ _ _ (by decide)).trans ?_
    exact extract_low _ _
  · iterate 4 refine (extract_high _ _ _ _ (by decide)).trans ?_
    exact extract_low _ _
  · iterate 3 refine (extract_high _ _ _ _ (by decide)).trans ?_
    exact extract_low _ _
  · iterate 2 refine (extract_high _ _ _ _ (by decide)).trans ?_
    exact extract_low _ _
  · iterate 1 refine (extract_high _ _ _ _ (by decide)).trans ?_
    exact extract_low _ _
  · exact extract_low _ _

/-- The major of a word joined in the MX format. -/
@[simp] theorem majorOf_joinMX (c : Bool) (m : BitVec 6) (r : FmtMX) : majorOf (joinMX c m r) = m := by
  unfold majorOf joinMX header
  iterate 7 refine (extract_high _ _ _ _ (by decide)).trans ?_
  exact extract_low _ _

/-- The chain bit of a word joined in the MX format. -/
@[simp] theorem chainOf_joinMX (c : Bool) (m : BitVec 6) (r : FmtMX) : chainOf (joinMX c m r) = c := by
  have h : (joinMX c m r).extractLsb' 31 1 = BitVec.ofBool c := by
    unfold joinMX header
    iterate 8 refine (extract_high _ _ _ _ (by decide)).trans ?_
    exact by cases c <;> rfl
  unfold chainOf
  rw [h]
  cases c <;> rfl

/-- The fields of a word joined in the SYS format. -/
@[simp] theorem splitSYS_joinSYS (c : Bool) (m : BitVec 6) (r : FmtSYS) :
    splitSYS (joinSYS c m r) = r := by
  obtain ⟨g, d, a, sel, fn⟩ := r
  unfold splitSYS joinSYS header
  congr 1
  · iterate 4 refine (extract_high _ _ _ _ (by decide)).trans ?_
    exact extract_low _ _
  · iterate 3 refine (extract_high _ _ _ _ (by decide)).trans ?_
    exact extract_low _ _
  · iterate 2 refine (extract_high _ _ _ _ (by decide)).trans ?_
    exact extract_low _ _
  · iterate 1 refine (extract_high _ _ _ _ (by decide)).trans ?_
    exact extract_low _ _
  · exact extract_low _ _

/-- The major of a word joined in the SYS format. -/
@[simp] theorem majorOf_joinSYS (c : Bool) (m : BitVec 6) (r : FmtSYS) : majorOf (joinSYS c m r) = m := by
  unfold majorOf joinSYS header
  iterate 5 refine (extract_high _ _ _ _ (by decide)).trans ?_
  exact extract_low _ _

/-- The chain bit of a word joined in the SYS format. -/
@[simp] theorem chainOf_joinSYS (c : Bool) (m : BitVec 6) (r : FmtSYS) : chainOf (joinSYS c m r) = c := by
  have h : (joinSYS c m r).extractLsb' 31 1 = BitVec.ofBool c := by
    unfold joinSYS header
    iterate 6 refine (extract_high _ _ _ _ (by decide)).trans ?_
    exact by cases c <;> rfl
  unfold chainOf
  rw [h]
  cases c <;> rfl

/-- The fields of a word joined in the TASK format. -/
@[simp] theorem splitTASK_joinTASK (c : Bool) (m : BitVec 6) (r : FmtTASK) :
    splitTASK (joinTASK c m r) = r := by
  obtain ⟨g, d, a, b, ps, fn⟩ := r
  unfold splitTASK joinTASK header
  congr 1
  · iterate 5 refine (extract_high _ _ _ _ (by decide)).trans ?_
    exact extract_low _ _
  · iterate 4 refine (extract_high _ _ _ _ (by decide)).trans ?_
    exact extract_low _ _
  · iterate 3 refine (extract_high _ _ _ _ (by decide)).trans ?_
    exact extract_low _ _
  · iterate 2 refine (extract_high _ _ _ _ (by decide)).trans ?_
    exact extract_low _ _
  · iterate 1 refine (extract_high _ _ _ _ (by decide)).trans ?_
    exact extract_low _ _
  · exact extract_low _ _

/-- The major of a word joined in the TASK format. -/
@[simp] theorem majorOf_joinTASK (c : Bool) (m : BitVec 6) (r : FmtTASK) : majorOf (joinTASK c m r) = m := by
  unfold majorOf joinTASK header
  iterate 6 refine (extract_high _ _ _ _ (by decide)).trans ?_
  exact extract_low _ _

/-- The chain bit of a word joined in the TASK format. -/
@[simp] theorem chainOf_joinTASK (c : Bool) (m : BitVec 6) (r : FmtTASK) : chainOf (joinTASK c m r) = c := by
  have h : (joinTASK c m r).extractLsb' 31 1 = BitVec.ofBool c := by
    unfold joinTASK header
    iterate 7 refine (extract_high _ _ _ _ (by decide)).trans ?_
    exact by cases c <;> rfl
  unfold chainOf
  rw [h]
  cases c <;> rfl

/-- The parts of a field of 2 and 3 bits. -/
@[simp] theorem parts_2_3 (x : BitVec 2) (y : BitVec 3) :
    BitVec.extractLsb' (n := 5) 3 2 (x ++ y) = x ∧ BitVec.extractLsb' (n := 5) 0 3 (x ++ y) = y :=
  ⟨(extract_high x y 3 2 (by decide)).trans (by simp), extract_low x y⟩

/-- The parts of a field of 1 and 4 bits. -/
@[simp] theorem parts_1_4 (x : BitVec 1) (y : BitVec 4) :
    BitVec.extractLsb' (n := 5) 4 1 (x ++ y) = x ∧ BitVec.extractLsb' (n := 5) 0 4 (x ++ y) = y :=
  ⟨(extract_high x y 4 1 (by decide)).trans (by simp), extract_low x y⟩

/-- The parts of a field of 4 and 1 bits. -/
@[simp] theorem parts_4_1 (x : BitVec 4) (y : BitVec 1) :
    BitVec.extractLsb' (n := 5) 1 4 (x ++ y) = x ∧ BitVec.extractLsb' (n := 5) 0 1 (x ++ y) = y :=
  ⟨(extract_high x y 1 4 (by decide)).trans (by simp), extract_low x y⟩

/-- The parts of a field of 1 and 3 bits. -/
@[simp] theorem parts_1_3 (x : BitVec 1) (y : BitVec 3) :
    BitVec.extractLsb' (n := 4) 3 1 (x ++ y) = x ∧ BitVec.extractLsb' (n := 4) 0 3 (x ++ y) = y :=
  ⟨(extract_high x y 3 1 (by decide)).trans (by simp), extract_low x y⟩

/-- The parts of a field of 3 and 2 bits. -/
@[simp] theorem parts_3_2 (x : BitVec 3) (y : BitVec 2) :
    BitVec.extractLsb' (n := 5) 2 3 (x ++ y) = x ∧ BitVec.extractLsb' (n := 5) 0 2 (x ++ y) = y :=
  ⟨(extract_high x y 2 3 (by decide)).trans (by simp), extract_low x y⟩

/-- The parts of a field of 2 and 1 bits. -/
@[simp] theorem parts_2_1 (x : BitVec 2) (y : BitVec 1) :
    BitVec.extractLsb' (n := 3) 1 2 (x ++ y) = x ∧ BitVec.extractLsb' (n := 3) 0 1 (x ++ y) = y :=
  ⟨(extract_high x y 1 2 (by decide)).trans (by simp), extract_low x y⟩

/-- The parts of a field of 1 and 2 bits. -/
@[simp] theorem parts_1_2 (x : BitVec 1) (y : BitVec 2) :
    BitVec.extractLsb' (n := 3) 2 1 (x ++ y) = x ∧ BitVec.extractLsb' (n := 3) 0 2 (x ++ y) = y :=
  ⟨(extract_high x y 2 1 (by decide)).trans (by simp), extract_low x y⟩

/-- The parts of a field of 9 and 1 bits. -/
@[simp] theorem parts_9_1 (x : BitVec 9) (y : BitVec 1) :
    BitVec.extractLsb' (n := 10) 1 9 (x ++ y) = x ∧ BitVec.extractLsb' (n := 10) 0 1 (x ++ y) = y :=
  ⟨(extract_high x y 1 9 (by decide)).trans (by simp), extract_low x y⟩

/-- The parts of a field of 8 and 2 bits. -/
@[simp] theorem parts_8_2 (x : BitVec 8) (y : BitVec 2) :
    BitVec.extractLsb' (n := 10) 2 8 (x ++ y) = x ∧ BitVec.extractLsb' (n := 10) 0 2 (x ++ y) = y :=
  ⟨(extract_high x y 2 8 (by decide)).trans (by simp), extract_low x y⟩

/-- The parts of a field of 7 and 3 bits. -/
@[simp] theorem parts_7_3 (x : BitVec 7) (y : BitVec 3) :
    BitVec.extractLsb' (n := 10) 3 7 (x ++ y) = x ∧ BitVec.extractLsb' (n := 10) 0 3 (x ++ y) = y :=
  ⟨(extract_high x y 3 7 (by decide)).trans (by simp), extract_low x y⟩

/-- The parts of a field of 6 and 4 bits. -/
@[simp] theorem parts_6_4 (x : BitVec 6) (y : BitVec 4) :
    BitVec.extractLsb' (n := 10) 4 6 (x ++ y) = x ∧ BitVec.extractLsb' (n := 10) 0 4 (x ++ y) = y :=
  ⟨(extract_high x y 4 6 (by decide)).trans (by simp), extract_low x y⟩

/-- The parts of a field of 5 and 5 bits. -/
@[simp] theorem parts_5_5 (x : BitVec 5) (y : BitVec 5) :
    BitVec.extractLsb' (n := 10) 5 5 (x ++ y) = x ∧ BitVec.extractLsb' (n := 10) 0 5 (x ++ y) = y :=
  ⟨(extract_high x y 5 5 (by decide)).trans (by simp), extract_low x y⟩

/-- The parts of a field of 1 and 1 bits. -/
@[simp] theorem parts_1_1 (x : BitVec 1) (y : BitVec 1) :
    BitVec.extractLsb' (n := 2) 1 1 (x ++ y) = x ∧ BitVec.extractLsb' (n := 2) 0 1 (x ++ y) = y :=
  ⟨(extract_high x y 1 1 (by decide)).trans (by simp), extract_low x y⟩

/-- The middle of a field of three bits. -/
@[simp] theorem parts_middle (x y z : BitVec 1) : BitVec.extractLsb' (n := 3) 1 1 (x ++ y ++ z) = y ∧
    BitVec.extractLsb' (n := 3) 2 1 (x ++ y ++ z) = x :=
  ⟨(extract_high (x ++ y) z 1 1 (by decide)).trans (extract_low x y),
    (extract_high (x ++ y) z 2 1 (by decide)).trans ((extract_high x y 1 1 (by decide)).trans (by simp))⟩

/-- A bit made of a flag is the flag. -/
@[simp] theorem ofBool_beq_one (b : Bool) : (BitVec.ofBool b == 1#1) = b := by cases b <;> rfl

/-- A well-formed instruction is legal and has an encoding. -/
theorem wellFormed_parts {i : Instr} (h : i.wellFormed = true) : i.encodable = true ∧ Machine.legal i = true := by
  unfold Instr.wellFormed at h
  exact Bool.and_eq_true_iff.1 h

end Sys2Proof.Laws
end

