-- ==== Sys2Proof/Laws/Memory.lean ====
section
/-! SUPPORT. Memory: a read after a write, what a write leaves alone, and that every operation over memory keeps the
canonical form; the same for numbered tables. -/

namespace Sys2Proof.Laws

open Sys2Proof Sys2Proof.Machine

/-! ### The canonical form -/

/-- The canonical form of a memory with a first cell: it is not zero, every later address is higher, the rest is canonical. -/
theorem wf_cons (c : Host.Cell) (m : List Host.Cell) :
    Memory.wf (c :: m) = true ↔ c.2 ≠ 0 ∧ (∀ d ∈ m, c.1 < d.1) ∧ Memory.wf m = true := by
  induction m generalizing c with
  | nil => obtain ⟨a, v⟩ := c; simp [Memory.wf]
  | cons d m ih =>
    obtain ⟨a, v⟩ := c
    obtain ⟨b, w⟩ := d
    have hd := ih (b, w)
    simp only [Memory.wf, Bool.and_eq_true, bne_iff_ne, decide_eq_true_eq, List.mem_cons, forall_eq_or_imp] at hd ⊢
    constructor
    · rintro ⟨⟨hv, hab⟩, hw⟩
      exact ⟨hv, ⟨hab, fun e he => hab.trans ((hd.mp hw).2.1 e he)⟩, hw⟩
    · rintro ⟨hv, ⟨hab, -⟩, hw⟩
      exact ⟨⟨hv, hab⟩, hw⟩

/-- The addresses that a write of one byte leaves listed. -/
theorem mem_cellSet {m : List Host.Cell} {a : Nat} {v : Byte} {c : Host.Cell} (h : c ∈ cellSet m a v) :
    c = (a, v) ∨ c ∈ m := by
  induction m with
  | nil => unfold cellSet at h; split at h <;> simp_all
  | cons d m ih =>
    obtain ⟨k, w⟩ := d
    unfold cellSet at h
    split at h
    · split at h <;> simp_all
    · split at h
      · split at h <;> simp_all
        tauto
      · rw [List.mem_cons] at h
        obtain h | h := h
        · exact .inr (h ▸ List.mem_cons_self)
        · exact (ih h).imp id (List.mem_cons_of_mem _)

/-- A write of one byte keeps the canonical form. -/
theorem cellSet_wf {m : List Host.Cell} (a : Nat) (v : Byte) (h : Memory.wf m = true) :
    Memory.wf (cellSet m a v) = true := by
  induction m with
  | nil => unfold cellSet; split <;> simp_all [Memory.wf]
  | cons d m ih =>
    obtain ⟨k, w⟩ := d
    obtain ⟨hw, hk, hm⟩ := (wf_cons _ _).mp h
    simp only at hw hk
    unfold cellSet
    split
    · split
      · exact h
      · refine (wf_cons _ _).mpr ⟨‹_›, ?_, h⟩
        rintro e he
        rw [List.mem_cons] at he
        obtain rfl | he := he
        · assumption
        · exact Nat.lt_trans ‹_› (hk e he)
    · split
      · split
        · exact hm
        · exact (wf_cons _ _).mpr ⟨‹_›, fun e he => by simp only; have := hk e he; omega, hm⟩
      · refine (wf_cons _ _).mpr ⟨hw, ?_, ih hm⟩
        rintro e he
        obtain rfl | he := mem_cellSet he
        · simp only; omega
        · exact hk e he

/-- A write of bytes keeps the canonical form. -/
theorem cellWrite_wf {m : List Host.Cell} (a : Nat) (bs : List Byte) (h : Memory.wf m = true) :
    Memory.wf (cellWrite m a bs) = true := by
  induction bs generalizing m a with
  | nil => exact h
  | cons b bs ih => exact ih _ (cellSet_wf a b h)

/-- Part of the cells of a canonical memory is canonical. -/
theorem filter_wf {m : List Host.Cell} (p : Host.Cell → Bool) (h : Memory.wf m = true) :
    Memory.wf (m.filter p) = true := by
  induction m with
  | nil => rfl
  | cons c m ih =>
    obtain ⟨hv, hk, hm⟩ := (wf_cons _ _).mp h
    rw [List.filter_cons]
    split
    · exact (wf_cons _ _).mpr ⟨hv, fun d hd => hk d (List.mem_of_mem_filter hd), ih hm⟩
    · exact ih hm

/-! ### Reads and writes -/

/-- A byte below every listed address reads 0. -/
theorem cellGet_low {m : List Host.Cell} {a : Nat} (h : ∀ d ∈ m, a < d.1) : cellGet m a = 0 := by
  induction m with
  | nil => rfl
  | cons d m ih =>
    obtain ⟨k, w⟩ := d
    have := h (k, w) List.mem_cons_self
    simp only at this
    unfold cellGet
    rw [if_neg (by omega)]
    exact ih (fun e he => h e (List.mem_cons_of_mem _ he))

/-- A byte written reads as written, and every other byte as before. -/
theorem cellGet_cellSet {m : List Host.Cell} (a b : Nat) (v : Byte) (h : Memory.wf m = true) :
    cellGet (cellSet m a v) b = if b = a then v else cellGet m b := by
  induction m with
  | nil =>
    unfold cellSet
    by_cases hv : v = 0 <;> by_cases hb : b = a
    · simp [cellGet, hv]
    · simp [cellGet, hv]
    · rw [if_neg hv, if_pos hb]
      exact if_pos hb.symm
    · rw [if_neg hv, if_neg hb]
      exact if_neg (Ne.symm hb)
  | cons d m ih =>
    obtain ⟨k, w⟩ := d
    obtain ⟨hw, hk, hm⟩ := (wf_cons _ _).mp h
    simp only at hw hk
    unfold cellSet
    split
    · rename_i hak
      split
      · rename_i hv
        subst hv
        split
        · rename_i hb
          subst hb
          exact cellGet_low (by
            rintro e he
            rw [List.mem_cons] at he
            obtain rfl | he := he
            · exact hak
            · exact Nat.lt_trans hak (hk e he))
        · rfl
      · show (if a = b then v else _) = _
        by_cases hb : b = a
        · rw [if_pos hb.symm, if_pos hb]
        · rw [if_neg (Ne.symm hb), if_neg hb]
    · split
      · rename_i hak
        subst hak
        split
        · rename_i hv
          subst hv
          split
          · rename_i hb
            subst hb
            exact cellGet_low hk
          · simp only [cellGet]
            rw [if_neg (by omega)]
        · simp only [cellGet]
          split
          · rw [if_pos (by omega)]
          · rw [if_neg (by omega)]
      · simp only [cellGet]
        split
        · rw [if_neg (by omega)]
        · exact ih hm

/-- A byte read after a write of bytes: the byte written there, else the byte before. -/
theorem cellGet_cellWrite {m : List Host.Cell} (a b : Nat) (bs : List Byte) (h : Memory.wf m = true) :
    cellGet (cellWrite m a bs) b = if a ≤ b then bs.getD (b - a) (cellGet m b) else cellGet m b := by
  induction bs generalizing m a with
  | nil => simp [cellWrite]
  | cons v bs ih =>
    rw [cellWrite, ih _ (cellSet_wf a v h), cellGet_cellSet _ _ _ h]
    by_cases hb : b = a
    · subst hb; simp
    · by_cases hab : a ≤ b
      · rw [if_pos (by omega), if_pos hab, if_neg hb]
        obtain ⟨n, hn⟩ : ∃ n, b - a = n + 1 := ⟨b - a - 1, by omega⟩
        rw [hn, show b - (a + 1) = n by omega]
        simp
      · rw [if_neg (by omega), if_neg hab, if_neg hb]

/-- A read of n bytes has n bytes. -/
@[simp] theorem length_cellRead (m : List Host.Cell) (a n : Nat) : (cellRead m a n).length = n := by
  induction n generalizing a with
  | zero => rfl
  | succ n ih => simp [cellRead, ih]

/-- The i-th byte of a read. -/
theorem getElem?_cellRead (m : List Host.Cell) (a n i : Nat) (h : i < n) :
    (cellRead m a n)[i]? = some (cellGet m (a + i)) := by
  induction n generalizing a i with
  | zero => omega
  | succ n ih =>
    cases i with
    | zero => simp [cellRead]
    | succ i => simp [cellRead, ih (a + 1) i (by omega), show a + 1 + i = a + (i + 1) by omega]

/-- Bytes written read back. -/
theorem cellRead_cellWrite {m : List Host.Cell} (a : Nat) (bs : List Byte) (h : Memory.wf m = true) :
    cellRead (cellWrite m a bs) a bs.length = bs := by
  apply List.ext_getElem?
  intro i
  by_cases hi : i < bs.length
  · rw [getElem?_cellRead _ _ _ _ hi, cellGet_cellWrite _ _ _ h, if_pos (by omega), show a + i - a = i by omega]
    simp [hi]
  · simp [not_lt.mp hi]

/-- A write leaves every read that it does not overlap. -/
theorem cellRead_cellWrite_apart {m : List Host.Cell} (a b n : Nat) (bs : List Byte) (h : Memory.wf m = true)
    (hab : b + n ≤ a ∨ a + bs.length ≤ b) : cellRead (cellWrite m a bs) b n = cellRead m b n := by
  apply List.ext_getElem?
  intro i
  by_cases hi : i < n
  · rw [getElem?_cellRead _ _ _ _ hi, getElem?_cellRead _ _ _ _ hi, cellGet_cellWrite _ _ _ h]
    split
    · rw [List.getD_eq_default _ _ (by omega)]
    · rfl
  · simp [not_lt.mp hi]

/-! ### Tables -/

/-- An entry written reads as written, and every other entry as before, whatever the order of the keys. -/
theorem tabGet_tabSet_self {α : Type} (d : α) (l : List (Nat × α)) (a : Nat) (v : α) : tabGet d (tabSet l a v) a = v := by
  induction l with
  | nil => simp [tabSet, tabGet]
  | cons e l ih =>
    obtain ⟨k, w⟩ := e
    unfold tabSet
    split
    · simp [tabGet]
    · split
      · simp [tabGet]
      · simp only [tabGet]
        rw [if_neg (by omega), ih]

/-- Every other entry reads as before. -/
theorem tabGet_tabSet_ne {α : Type} (d : α) (l : List (Nat × α)) (a b : Nat) (v : α) (h : b ≠ a) :
    tabGet d (tabSet l a v) b = tabGet d l b := by
  induction l with
  | nil => simp [tabSet, tabGet, h.symm]
  | cons e l ih =>
    obtain ⟨k, w⟩ := e
    unfold tabSet
    split
    · simp [tabGet, h.symm]
    · split
      · simp only [tabGet]
        rw [if_neg (by omega), if_neg (by omega)]
      · simp only [tabGet, ih]

/-! ### The operations of the machine over memory -/

/-- The state after a reset is in canonical form. -/
theorem reset_memoryWf : State.reset.memoryWf := ⟨rfl, (fun _ h => nomatch h), List.Pairwise.nil⟩

/-- A change that leaves device memory, every scratchpad and the slices keeps the canonical form. -/
theorem memoryWf_of_eq {s t : State} (hm : t.mem = s.mem) (ht : t.teams = s.teams) (hl : t.l2 = s.l2) (h : s.memoryWf) :
    t.memoryWf := by
  unfold State.memoryWf
  rw [hm, ht, hl]
  exact h

/-- What a write within a line of HBM leaves of device memory (01 R41). -/
theorem hbmWrite_mem (s : State) (slot pa : Nat) (bs : List Byte) :
    (s.hbmWrite slot pa bs).mem = cellWrite s.mem pa bs ∨
      (s.hbmWrite slot pa bs).mem = cellWrite (cellWrite s.mem (64 * (pa / 64)) (List.replicate 64 0)) pa bs := by
  unfold State.hbmWrite
  dsimp only
  split
  · exact .inl rfl
  · split
    · exact .inl rfl
    · exact .inr rfl

/-- A write within a line of HBM leaves the teams. -/
theorem hbmWrite_teams (s : State) (slot pa : Nat) (bs : List Byte) : (s.hbmWrite slot pa bs).teams = s.teams := by
  unfold State.hbmWrite
  dsimp only
  split
  · rfl
  · split <;> rfl

/-- A write within a line of HBM leaves the slices. -/
@[simp] theorem hbmWrite_l2 (s : State) (slot pa : Nat) (bs : List Byte) : (s.hbmWrite slot pa bs).l2 = s.l2 := by
  unfold State.hbmWrite
  dsimp only
  split
  · rfl
  · split <;> rfl

@[simp] theorem hbmBad_l2 (s : State) (line : Nat) : (s.hbmBad line).l2 = s.l2 := by
  unfold State.hbmBad
  split <;> rfl

@[simp] theorem prune_l2 (s : State) (line : Nat) : (s.prune line).l2 = s.l2 := by
  unfold State.prune
  split <;> rfl

/-- What leaves a slice is that line alone (03 R92). -/
@[simp] theorem evict_l2 (s : State) (x : L2Line) : (s.evict x).l2 = s.l2.erase x := by
  unfold State.evict
  dsimp only
  split
  · simp only [prune_l2]
    split <;> split <;> simp
  · simp

/-- Copies of different keys are apart either way. -/
theorem L2Line.apart_symm {x y : L2Line} (h : x.apart y) : y.apart x := by
  obtain h | h | h := h
  · exact .inl h.symm
  · exact .inr (.inl h.symm)
  · exact .inr (.inr h.symm)

/-- Copies without one of them are apart from it. -/
theorem apart_erase {l : List L2Line} {x y : L2Line} (h : l.Pairwise L2Line.apart) (hx : x ∈ l) (hy : y ∈ l.erase x) :
    y.apart x := by
  have hp : l.Perm (x :: l.erase x) := List.perm_cons_erase hx
  have := (hp.pairwise_iff (fun {_ _} h => L2Line.apart_symm h)).mp h
  exact L2Line.apart_symm ((List.pairwise_cons.mp this).1 y hy)

/-- A copy put behind the others, apart from them. -/
theorem apart_append {l : List L2Line} {x : L2Line} (h : l.Pairwise L2Line.apart) (hx : ∀ y ∈ l, y.apart x) :
    (l ++ [x]).Pairwise L2Line.apart := by
  rw [List.pairwise_append]
  refine ⟨h, List.pairwise_singleton _ _, ?_⟩
  intro y hy z hz
  rw [List.mem_singleton] at hz
  subst hz
  exact hx y hy

/-- A copy renewed under its key goes behind the others. -/
theorem apart_renew {l : List L2Line} {x z : L2Line} (h : l.Pairwise L2Line.apart) (hx : x ∈ l) (hl : z.line = x.line)
    (hs : z.slot = x.slot) (hc : z.slice = x.slice) : (l.erase x ++ [z]).Pairwise L2Line.apart := by
  refine apart_append (h.sublist List.erase_sublist) (fun y hy => ?_)
  have := apart_erase h hx hy
  unfold L2Line.apart at this ⊢
  rw [hl, hs, hc]
  exact this

/-- A line that no lookup finds in its home slice is apart from every copy (01 R39). -/
theorem apart_of_find {s : State} {part : Option Nat} {slot line : Nat} {x : L2Line} (hp : part.isNone = false)
    (h : s.l2Find part slot line = none) (hl : x.line = line) (hs : x.slot = slot)
    (hc : x.slice = s.homeSlice part (64 * line)) : ∀ y ∈ s.l2, y.apart x := by
  intro y hy
  unfold State.l2Find at h
  simp only [hp, Bool.false_and, Bool.false_eq_true, ↓reduceIte, List.find?_eq_none, Bool.and_eq_true, beq_iff_eq,
    not_and] at h
  unfold L2Line.apart
  rw [hl, hs, hc]
  by_cases h1 : y.line = line
  · by_cases h2 : y.slot = slot
    · exact .inr (.inr (h y hy ⟨h1, h2⟩))
    · exact .inr (.inl h2)
  · exact .inl h1

/-- What a lookup from a partition finds is a copy of the line (01 R39). -/
theorem mem_of_find {s : State} {part : Option Nat} {slot line : Nat} {x : L2Line} (h : s.l2Find part slot line = some x) :
    x ∈ s.l2 ∧ x.line = line ∧ x.slot = slot := by
  unfold State.l2Find at h
  dsimp only at h
  split at h
  · have hm : x ∈ s.l2.filter (fun y => y.line == line && y.slot == slot) := by
      cases hf : (s.l2.filter (fun y => y.line == line && y.slot == slot)).find? (fun y => y.dirty) with
      | some z =>
        rw [hf] at h
        obtain rfl : z = x := by simpa using h
        exact List.mem_of_find?_eq_some hf
      | none =>
        rw [hf] at h
        exact List.mem_of_head? (by simpa using h)
    simpa [and_assoc] using hm
  · have h1 := List.mem_of_find?_eq_some h
    have h2 := List.find?_some h
    simp only [Bool.and_eq_true, beq_iff_eq] at h2
    exact ⟨h1, h2.1⟩

/-- A write within a line of HBM keeps the canonical form. -/
theorem hbmWrite_memoryWf {s : State} (slot pa : Nat) (bs : List Byte) (h : s.memoryWf) : (s.hbmWrite slot pa bs).memoryWf := by
  refine ⟨?_, by rw [hbmWrite_teams]; exact h.2.1, by rw [hbmWrite_l2]; exact h.2.2⟩
  obtain hm | hm := hbmWrite_mem s slot pa bs <;> rw [hm]
  · exact cellWrite_wf _ _ h.1
  · exact cellWrite_wf _ _ (cellWrite_wf _ _ h.1)

/-- A line marked uncorrectable keeps the canonical form. -/
theorem hbmBad_memoryWf {s : State} (line : Nat) (h : s.memoryWf) : (s.hbmBad line).memoryWf := by
  unfold State.hbmBad
  split <;> exact h

theorem prune_memoryWf {s : State} (line : Nat) (h : s.memoryWf) : (s.prune line).memoryWf := by
  unfold State.prune
  split <;> exact h

/-- Other copies in the slices keep the canonical form where no two are of one key. -/
theorem l2_memoryWf {s : State} {l : List L2Line} (h : s.memoryWf) (hl : l.Pairwise L2Line.apart) :
    ({ s with l2 := l } : State).memoryWf := ⟨h.1, h.2.1, hl⟩

/-- A line that leaves its slice keeps the canonical form. -/
theorem evict_memoryWf {s : State} (x : L2Line) (h : s.memoryWf) : (s.evict x).memoryWf := by
  have h0 : ({ s with l2 := s.l2.erase x } : State).memoryWf := l2_memoryWf h (h.2.2.sublist List.erase_sublist)
  unfold State.evict
  dsimp only
  split
  · refine prune_memoryWf _ ?_
    have hv : ∀ u : State, u.memoryWf → ({ u with fresh := u.fresh + 1 } : State).memoryWf := fun u hu => hu
    split
    · apply hbmBad_memoryWf
      split
      · exact hbmWrite_memoryWf _ _ _ h0
      · exact hv _ (hbmWrite_memoryWf _ _ _ h0)
    · split
      · exact hbmWrite_memoryWf _ _ _ h0
      · exact hv _ (hbmWrite_memoryWf _ _ _ h0)
  · exact prune_memoryWf _ h0

/-- A line that enters its slice, apart from every copy, keeps the canonical form. -/
theorem allocate_memoryWf {s : State} (x : L2Line) (h : s.memoryWf) (hx : ∀ y ∈ s.l2, y.apart x) :
    (s.allocate x).memoryWf := by
  have key : ∀ u : State, u.memoryWf → (∀ y ∈ u.l2, y.apart x) → ({ u with l2 := u.l2 ++ [x] } : State).memoryWf :=
    fun u hu hy => l2_memoryWf hu (apart_append hu.2.2 hy)
  unfold State.allocate
  dsimp only
  split
  · exact key _ h hx
  · split
    · exact key _ h hx
    · split
      · exact key _ (evict_memoryWf _ h) (fun y hy => hx y (List.mem_of_mem_erase (by simpa using hy)))
      · exact key _ h hx

/-- What a read leaves of the L2 keeps the canonical form. -/
theorem l2Touch_memoryWf {s : State} (p : Pol) (slot pa : Nat) (h : s.memoryWf) : (s.l2Touch p slot pa).memoryWf := by
  unfold State.l2Touch
  dsimp only
  split
  · exact h
  · rename_i hp
    split
    · rename_i x hx
      split
      · exact evict_memoryWf _ h
      · exact l2_memoryWf h (apart_renew h.2.2 (mem_of_find hx).1 (by split <;> rfl) (by split <;> rfl) (by split <;> rfl))
    · rename_i hn
      split
      · exact h
      · split
        · exact allocate_memoryWf _ h (apart_of_find (Bool.eq_false_iff.mpr hp) hn rfl rfl rfl)
        · exact h

theorem noteWrite_memoryWf {s : State} (part : Option Nat) (line mask : Nat) (h : s.memoryWf) :
    (s.noteWrite part line mask).memoryWf := by
  unfold State.noteWrite
  split
  · exact h
  · split
    · exact h
    · exact prune_memoryWf _ h

/-- A copy with other bytes keeps its key. -/
theorem L2Line.put_key (x : L2Line) (off : Nat) (bs : List Byte) :
    (x.put off bs).line = x.line ∧ (x.put off bs).slot = x.slot ∧ (x.put off bs).slice = x.slice := ⟨rfl, rfl, rfl⟩

/-- A copy that a write makes is of the line's key in its home slice. -/
theorem freshCopy_key {s : State} {p : Pol} {slot pa : Nat} {bs : List Byte} {x : L2Line} (h : s.freshCopy p slot pa bs = some x) :
    x.line = pa / 64 ∧ x.slot = slot ∧ x.slice = s.homeSlice p.part (64 * (pa / 64)) := by
  unfold State.freshCopy at h
  dsimp only at h
  rw [Option.map_eq_some_iff] at h
  obtain ⟨b, _, rfl⟩ := h
  exact ⟨rfl, rfl, rfl⟩

/-- A write within a line keeps the canonical form. -/
theorem writeLine_memoryWf {s : State} (p : Pol) (slot pa : Nat) (bs : List Byte) (h : s.memoryWf) :
    (s.writeLine p slot pa bs).memoryWf := by
  unfold State.writeLine
  dsimp only
  split
  · refine hbmWrite_memoryWf _ _ _ (l2_memoryWf h (h.2.2.map _ ?_))
    intro x y hxy
    unfold L2Line.apart at hxy ⊢
    split <;> split <;> exact hxy
  · rename_i hp
    apply noteWrite_memoryWf
    split
    · rename_i x hx
      have hm := (mem_of_find hx).1
      split
      · exact hbmWrite_memoryWf _ _ _ (evict_memoryWf _ h)
      · split
        · exact hbmWrite_memoryWf _ _ _ (l2_memoryWf h (apart_renew h.2.2 hm rfl rfl rfl))
        · exact l2_memoryWf h (apart_renew h.2.2 hm rfl rfl rfl)
    · rename_i hn
      split
      · exact hbmWrite_memoryWf _ _ _ h
      · split
        · rename_i x hx
          obtain ⟨h1, h2, h3⟩ := freshCopy_key hx
          exact allocate_memoryWf _ h (apart_of_find (Bool.eq_false_iff.mpr hp) hn h1 h2 h3)
        · exact hbmWrite_memoryWf _ _ _ h

/-- A line stored as uncorrectable keeps the canonical form. -/
theorem storeBad_memoryWf {s : State} (p : Pol) (slot line : Nat) (h : s.memoryWf) : (s.storeBad p slot line).memoryWf := by
  unfold State.storeBad
  apply hbmBad_memoryWf
  split
  · exact l2_memoryWf h (h.2.2.sublist List.erase_sublist)
  · exact h

theorem l2Clean_memoryWf {s : State} (part : Option Nat) (slot line : Nat) (h : s.memoryWf) :
    (s.l2Clean part slot line).memoryWf := by
  unfold State.l2Clean
  split
  · rename_i x hx
    split
    · refine allocate_memoryWf _ (evict_memoryWf _ h) (fun y hy => ?_)
      have hy' : y ∈ s.l2.erase x := by simpa using hy
      exact apart_erase (x := x) h.2.2 (mem_of_find hx).1 hy'
    · exact h
  · exact h

/-- A flush of the slices keeps the canonical form. -/
theorem l2Flush_memoryWf {s : State} (c : L2Line → Bool) (h : s.memoryWf) : (s.l2Flush c).memoryWf := by
  unfold State.l2Flush
  generalize s.l2.filter c = l
  induction l generalizing s with
  | nil => exact h
  | cons x l ih => exact ih (evict_memoryWf x h)

/-- A write line by line keeps the canonical form. -/
theorem writePhys_memoryWf {s : State} (slot pa : Nat) (bs : List Byte) (h : s.memoryWf) : (s.writePhys slot pa bs).memoryWf := by
  unfold State.writePhys
  generalize linePieces pa bs.length = l
  induction l generalizing s with
  | nil => exact h
  | cons p l ih => exact ih (writeLine_memoryWf _ _ _ _ h)

/-- A scrub keeps the canonical form (01 R42). -/
theorem scrub_memoryWf {s : State} (n : Nat) (h : s.memoryWf) : (s.scrub n).memoryWf :=
  ⟨filter_wf _ h.1, h.2.1, h.2.2.sublist List.filter_sublist⟩

/-- A change of one team that keeps its scratchpad canonical keeps the canonical form. -/
theorem modTeam_memoryWf {s : State} (k : TeamKey) (f : Team → Team) (h : s.memoryWf)
    (hf : ∀ t, Memory.wf t.spad = true → Memory.wf (f t).spad = true) : (s.modTeam k f).memoryWf := by
  refine ⟨h.1, ?_, h.2.2⟩
  intro t ht
  unfold State.modTeam at ht
  obtain ⟨u, hu, rfl⟩ := List.mem_map.mp ht
  split
  · exact hf u (h.2.1 u hu)
  · exact h.2.1 u hu

/-- A write to a scratchpad keeps the canonical form. -/
theorem spadWrite_memoryWf {s : State} (k : TeamKey) (off : Nat) (bs : List Byte) (h : s.memoryWf) :
    (s.spadWrite k off bs).memoryWf :=
  modTeam_memoryWf k _ h (fun _ ht => cellWrite_wf off bs ht)

/-! ### What lanes on their own registers leave alone -/

/-- A word that acts on the registers of its lanes changes no byte of memory, no other state of the machine than its
group, and no thread of its group that it did not select. -/
theorem afterLanes_frame (s : State) (p : Pass) (g : Group) (q : BitVec 3) (new : Nat → Thread → Thread) :
    let t := s.afterLanes p g q new
    t.mem = s.mem ∧ t.teams = s.teams ∧ t.jobs = s.jobs ∧ t.cores = s.cores ∧ t.events = s.events ∧
      t.ctxs = s.ctxs ∧ t.walks = s.walks ∧ t.agenda = s.agenda ∧ t.pass = s.pass := by
  simp [State.afterLanes]

end Sys2Proof.Laws
end

