-- ==== Sys2Proof/Tests/Slice0.lean ====
section
/-! SUPPORT. Tests on small states: ill-formed instructions are refused, words written out from the spec's encodings decode
to their instructions, single words give the spec's results, and, for each statement with hypotheses, a state and
operands that meet them all. -/

set_option Elab.async false
set_option autoImplicit false

namespace Sys2Proof.Tests

open Sys2Proof Sys2Proof.Machine Sys2Proof.Claims

/-! ### A small state: one job of context 0 on core 0, one team, one group -/

/-- The group. -/
def key (e : Bool) : GroupKey := { team := { job := 16, clu := 0, idx := 0 }, exe := e, quad := 0, grp := 0 }

/-- A live thread at the placed PC, with every register 0 and full and every predicate true. -/
def worker : Thread := { Thread.absent with
  pc := BitVec.ofNat 57 placedPc, live := true, preds := 0xFF#8, rstack := List.replicate 8 0 }

/-- A worker with some registers set. -/
def holding (rs : List (Nat × Nat)) : Thread :=
  rs.foldl (fun t r => { t with regs := updAt t.regs r.1 (fun _ => .mk' (BitVec.ofNat 64 r.2) false) }) worker

/-- The pass of some lanes. -/
def turn (e : Bool) (sel : List Nat) : Pass := { gk := key e, sel := sel, pc := BitVec.ofNat 57 placedPc, word := 0, held := false }

/-- The state in which some lanes of the group have been issued; lane 0 is t; the job, the team and the group as changed. -/
def seat (e : Bool) (sel : List Nat) (t : Thread) (j : Job → Job) (tm : Team → Team) (gr : Group → Group) : State :=
  { State.reset with
    jobs := [j (placedJob 16)]
    teams := [tm { (placedJob 16).pipe.team (key e).team 0 with ended := false }]
    groups := [gr { Group.fresh (key e) 0 0 (BitVec.ofNat 57 placedPc) 8 (if e then 1 else 0) (if e then 2 else 0) with
      threads := t :: List.replicate 31 worker }]
    cores := tabSet State.reset.cores 0 { Core.reset with tlb := [{ ctx := 0, base := 0, lvl := 4, pte := placedPte }] }
    pass := some (turn e sel) }

/-- The plain state of lane 0 with some registers set. -/
def alone (e : Bool) (rs : List (Nat × Nat)) : State := seat e [0] (holding rs) id id id

/-- Registers d, a and b under a true guard. -/
def rg (d a b : Nat) : OpRG :=
  { g := 7#3, d := BitVec.ofNat 5 d, a := BitVec.ofNat 5 a, b := BitVec.ofNat 5 b, pa := false, pb := false }
/-- Registers d and a. -/
def da (d a : Nat) : OpDA := { g := 7#3, d := BitVec.ofNat 5 d, a := BitVec.ofNat 5 a, pa := false }
/-- Registers a and b. -/
def ab (a b : Nat) : OpAB := { g := 7#3, a := BitVec.ofNat 5 a, b := BitVec.ofNat 5 b, pa := false, pb := false }
/-- Register d and an immediate. -/
def ri (d i : Nat) : OpRI := { g := 7#3, d := BitVec.ofNat 5 d, imm := BitVec.ofNat 14 i }
/-- The guard alone. -/
def gd : OpG := { g := 7#3 }
/-- Register a. -/
def ra (a : Nat) : OpA := { g := 7#3, a := BitVec.ofNat 5 a, pa := false }

/-- The lane. -/
def me (e : Bool) : ThreadKey := ⟨key e, 0⟩

/-- Lane 0 alone is issued with word i, its guard q is true, and its registers rs are full. -/
def readyFor (s : State) (e : Bool) (i : Instr) (q : BitVec 3) (rs : List Nat) : Bool :=
  match s.pass, s.group (key e) with
  | some p, some g => p.gk == key e && p.sel == [0] && p.mid == [] && !s.forbids (key e) i && (g.thr 0).pred q
      && rs.all (fun r => g.regState e 0 r == .full && !((g.thr 0).cell e r).ecc)
  | _, _ => false

/-- A state meets what the shapes over lanes ask of word i: it issues, an acting lane, the registers rs full, and, in the
lane's turn, the registers ds full and `C`. -/
def Meets (i : Instr) (q : BitVec 3) (rs ds : List Nat) (C : State → ThreadKey → Prop) (s : State) : Prop :=
  ∃ p g, Issues s i p g ∧ p.ready g q rs ∧ p.acting g q = [0] ∧
    ∀ one, s.meetsInTurn p g q (fun s th => s.fullNow th ds ∧ C s th) one p.sel

theorem meets_of {s : State} {e : Bool} {i : Instr} {q : BitVec 3} {rs ds : List Nat} {C : State → ThreadKey → Prop}
    (h : readyFor s e i q (rs ++ ds) = true) (hc : C s (me e)) : Meets i q rs ds C s := by
  unfold readyFor at h
  split at h
  · rename_i p g hp hg
    simp only [Bool.and_eq_true, beq_iff_eq, Bool.not_eq_true', List.all_append, List.all_eq_true] at h
    obtain ⟨⟨⟨⟨⟨hk, hs⟩, hm⟩, hf⟩, hq⟩, hr, hd⟩ := h
    obtain ⟨gk, sel, pc, w, hd', mid, ni, bg⟩ := p
    simp only at hk hs hm
    subst hk hs hm
    have ha : Pass.acting ⟨key e, [0], pc, w, hd', [], ni, bg⟩ g q = [0] := by simp [Pass.acting, hq]
    refine ⟨_, g, ⟨hp, hg, hf, rfl⟩, ?_, ha, ?_⟩
    · intro t ht r hrr
      rw [ha, List.mem_singleton] at ht
      subst ht
      exact hr r hrr
    · intro one
      refine ⟨fun _ => ⟨?_, hc⟩, by simp only [State.meetsInTurn]⟩
      intro g' hg' r hrr
      rw [show (⟨key e, 0⟩ : ThreadKey).gk = key e from rfl, hg, Option.some_inj] at hg'
      subst hg'
      exact hd r hrr
  · cases h

/-- Words of lanes on their own registers: each of a list of words, with the registers it reads and writes. -/
def Plain (ws : List (Instr × List Nat)) (s : State) : Prop := ∀ w ∈ ws, Meets w.1 7#3 w.2 [] (fun _ _ => True) s

theorem plain_of {s : State} {e : Bool} {ws : List (Instr × List Nat)}
    (h : ws.all (fun w => readyFor s e w.1 7#3 w.2) = true) : Plain ws s := fun w hw =>
  meets_of (e := e) (by simpa using List.all_eq_true.mp h w hw) trivial

/-- An option is there and has a property. -/
def holds {α : Type} (o : Option α) (P : α → Bool) : Bool := match o with | some x => P x | none => false

/-- Something of an option. -/
theorem some_of {α : Type} {o : Option α} {P : α → Prop} [DecidablePred P]
    (h : holds o (fun x => decide (P x)) = true) : ∃ x, o = some x ∧ P x := by
  cases o with
  | none => cases h
  | some x => exact ⟨x, rfl, of_decide_eq_true h⟩

/-- Word i issues in a state, and `C`. -/
def Issued (i : Instr) (C : State → Pass → Group → Prop) (s : State) : Prop := ∃ p g, Issues s i p g ∧ C s p g

theorem issued_of {s : State} {i : Instr} {C : State → Pass → Group → Prop} [∀ s p g, Decidable (C s p g)]
    (h : holds s.pass (fun p => holds (s.group p.gk) (fun g => !s.forbids p.gk i && p.mid == [] && decide (C s p g))) = true) :
    Issued i C s := by
  simp only [holds] at h
  split at h
  · rename_i p hp
    split at h
    · rename_i g hg
      simp only [Bool.and_eq_true, Bool.not_eq_true', beq_iff_eq, decide_eq_true_eq] at h
      exact ⟨p, g, ⟨hp, hg, h.1.1, h.1.2⟩, h.2⟩
    · cases h
  · cases h

/-- What the shapes over a whole group ask of word i: it issues on all 32 lanes, its tile predicate is true, and `C`. -/
def MeetsAll (i : Instr) (k : BitVec 4) (C : State → Pass → Group → Prop) (s : State) : Prop :=
  Issued i (fun s p g => g.kp k = true ∧ p.sel.length = 32 ∧ C s p g) s

theorem meetsAll_of {s : State} {i : Instr} {k : BitVec 4} {C : State → Pass → Group → Prop} [∀ s p g, Decidable (C s p g)]
    (h : holds s.pass (fun p => holds (s.group p.gk) (fun g =>
      !s.forbids p.gk i && p.mid == [] && decide (g.kp k = true ∧ p.sel.length = 32 ∧ C s p g))) = true) : MeetsAll i k C s :=
  issued_of h

/-- All 32 lanes are issued. -/
def together (e : Bool) (rs : List (Nat × Nat)) : State := seat e lanes (holding rs) id id id

theorem hasQueue_of {name : Nat} {m : List QMode} {d : Bool → List QDir} {prod : Option Bool} {s : State} {gk : GroupKey}
    (h : holds (s.queueFor gk name) (fun q => decide (q.mode ∈ m ∧ q.dir ∈ d gk.exe ∧ (prod = some true → q.prod = gk) ∧
      (prod = some false → q.cons = gk))) = true) : hasQueue name m d prod s gk := some_of h

theorem queueMeets_of {name : Nat} {C : State → ThreadKey → Queue → Fifo → Prop} {s : State} {th : ThreadKey}
    [∀ s th q f, Decidable (C s th q f)]
    (h : holds (s.queueFor th.gk name) (fun q => decide (C s th q (q.fifo (q.lane th.thr)))) = true) :
    queueMeets name C s th := some_of h

/-- A FIFO of some entries. -/
def fifoOf (xs : List QSlot) : Fifo := { nextIn := xs.length, nextOut := 0, slots := xs, closed := false, dead := false }

/-- Queue q1 of a mode and a direction, of depth 4, every FIFO with some entries. -/
def queue (m : QMode) (d : QDir) (prod cons : Bool) (xs : List QSlot) : Queue :=
  { ref := { name := 1, inst := 0 }, mode := m, dir := d, depth := 4, limit := 4, prod := key prod, cons := key cons
    fifos := List.replicate (if m = .lane then 32 else 1) (fifoOf xs), stqs := [] }

/-- A queue with its FIFOs closed. -/
def shut (q : Queue) : Queue := { q with fifos := q.fifos.map (fun f => { f with closed := true }) }

/-- Lane 0 alone, or all lanes, with a queue. -/
def queued (e : Bool) (sel : List Nat) (rs : List (Nat × Nat)) (q : Queue) : State :=
  seat e sel (holding rs) id (fun t => { t with queues := [q] }) id

/-- A request has a location, with a property. -/
def foundAt (o : LocOut) (P : Loc → State → Bool) : Bool := match o with | .ok l t => P l t | _ => false

theorem located {o : LocOut} {P : Loc → State → Prop} [∀ l t, Decidable (P l t)]
    (h : foundAt o (fun l t => decide (P l t)) = true) : ∃ l t, o = .ok l t ∧ P l t := by
  cases o with
  | ok l t => exact ⟨l, t, rfl, of_decide_eq_true h⟩
  | wait => cases h
  | fault => cases h

/-- Data has been read. -/
def good (d : DataOut) : Bool := match d with | .ok _ => true | _ => false

theorem good_of {d : DataOut × State} (h : good d.1 = true) : ∃ bs u, d = (.ok bs, u) := by
  obtain ⟨d, u⟩ := d
  cases d with
  | ok bs => exact ⟨bs, u, rfl⟩
  | keymis => cases h
  | ecc => cases h

theorem loads_of {k : LoadKind} {taint : Bool} {r : MemReq} {base : Nat} {s : State} {th : ThreadKey} (h : r.bad = false)
    (hl : foundAt (s.locate th .read r) (fun l t => !t.loadWaits th k.ord.acq l
      && !t.collFull th base (!k.ord.acq) l.spad (l.addr / 64)
      && good ((acquired k.ord t th).loadFrom th (atHome k taint) l).1) = true) : loads k taint r base s th := by
  obtain ⟨l, t, he, hg⟩ := located (P := fun l t => (!t.loadWaits th k.ord.acq l
    && !t.collFull th base (!k.ord.acq) l.spad (l.addr / 64)
    && good ((acquired k.ord t th).loadFrom th (atHome k taint) l).1) = true) (by simpa only [Bool.decide_eq_true] using hl)
  simp only [Bool.and_eq_true, Bool.not_eq_true'] at hg
  obtain ⟨bs, u, hb⟩ := good_of hg.2
  exact ⟨h, l, t, bs, u, he, hg.1.1, hg.1.2, hb⟩

theorem reachable_of {s : State} {th : ThreadKey} {acc : Acc} {r : MemReq} {waits : Loc → Bool}
    (h : r.bad = false ∧ (r.spad = true ∨ s.xlatReady th r.va = true) ∧
      foundAt (s.locate th acc r) (fun l _ => !waits l) = true) : s.reachable th acc r waits := by
  refine ⟨h.1, h.2.1, ?_⟩
  intro l t he
  have := h.2.2
  rw [he] at this
  simpa [foundAt] using this

/-- What the shapes over accesses ask beside: the lane's request reachable. -/
abbrev Reaches (e : Bool) (acc : Acc) (req : State → ThreadKey → MemReq) (waits : State → ThreadKey → Loc → Bool)
    (s : State) : Prop := s.reachable (me e) acc (req s (me e)) (waits s (me e))

theorem atomic_of {o : LocOut} {th : ThreadKey} {base : Nat} (h : foundAt o (fun l t =>
      !t.collFull th base false l.spad (l.addr / 64) && good (atomicRead t th l).1) = true) :
    ∃ l t bs u, o = .ok l t ∧ t.collFull th base false l.spad (l.addr / 64) = false ∧ atomicRead t th l = (.ok bs, u) := by
  cases o with
  | ok l t =>
    simp only [foundAt, Bool.and_eq_true, Bool.not_eq_true'] at h
    obtain ⟨bs, u, hb⟩ := good_of h.2
    exact ⟨l, t, bs, u, rfl, h.1, hb⟩
  | wait => cases h
  | fault => cases h

theorem each_cons {α : Type} {P : α → Prop} {a : α} {l : List α} (h : P a) (t : ∀ x ∈ l, P x) : ∀ x ∈ a :: l, P x := by
  simpa using ⟨h, t⟩

theorem each_nil {α : Type} {P : α → Prop} : ∀ x ∈ ([] : List α), P x := by simp

/-- The layout record of a tensor of 16 words at 0x8000, and of a box of all of them (03 R105). -/
def record16 : Nat := 0x8000 + 17 * 2 ^ 64 + 16 * 2 ^ 96 + 15 * 2 ^ 416


/-! ### Ill-formed instructions are refused -/

/-- Field values that the chapters forbid (07 R202 to R208 and the instruction chapters): each is refused. -/
theorem test_illformed_refused :
    ∀ i ∈ [Instr.cmp ⟨7, 2, 2, 1, 2, false, false, 0⟩, .cmp ⟨7, 1, 2, 1, 2, false, false, 10⟩, .plopAnd ⟨7, 3, 3, 1, 2⟩,
        .fcmp ⟨7, 0, 0, 1, 2, false, false, 0⟩, .frnd ⟨7, 1, 2, 4, false, 0⟩, .rope (rg 1 2 31), .amrg (rg 31 2 4),
        .qnt ⟨15, 28, 8, false, false, false, 9⟩, .qnt ⟨15, 0, 8, false, false, false, 3⟩, .qnt ⟨15, 0, 8, false, true, false, 8⟩,
        .qscl ⟨15, 0, 31, false, false, 9⟩, .mma ⟨15, 0, 0, 16, false, 6, 9⟩, .mmaz ⟨15, 0, 0, 16, false, 0, 1⟩,
        .mma ⟨15, 0, 0, 16, false, 0, 12⟩, .tmovfF32 ⟨15, 0, 25, 0⟩, .tmovtBf16 ⟨15, 0, 25, false⟩, .qpopb ⟨31, 2, 1, 7⟩,
        .qpushb ⟨31, 2, 1⟩, .qtest ⟨7, 3, 1, 1⟩],
      i.wellFormed = false := by decide +kernel

/-- The same for memory, engine, synchronisation and system words. -/
theorem test_illformed_refused_memory :
    ∀ i ∈ [Instr.ld ⟨5, 2, 7, 0⟩, .st ⟨5, 2, 4, 0⟩, .ldMa ⟨7, 5, 2, false, 6, 0⟩, .ldMa ⟨7, 5, 2, false, 0, 7⟩,
        .stMa ⟨7, 5, 2, false, 1, 0⟩, .stMa ⟨7, 5, 2, false, 0, 4⟩, .ldc ⟨7, 5, 2, false, 5, 0⟩, .atom ⟨0, 0, 1, 2, 0, false, false⟩,
        .atom ⟨7, 1, 1, 2, 0, false, false⟩, .atom ⟨5, 1, 1, 2, 0, false, false⟩, .red ⟨0, 1, 2, 3, false, false⟩,
        .atomMinmax ⟨4, 1, 1, 2, 0, false, false⟩, .redMinmax ⟨0, 1, 2, 11, false, false⟩, .gath ⟨7, 1, 30, 1⟩, .scat ⟨7, 1, 30, false⟩,
        .bcopy (rg 1 2 30), .bstore (rg 1 2 30), .fence ⟨7, 0⟩, .join ⟨7, 0⟩, .preg ⟨7, 1, 2, 0, false⟩, .preg ⟨7, 1, 2, 4, false⟩,
        .pwait ⟨7, 1, 2, 31, false, false⟩, .ptestW (rg 1 2 31), .fnew ⟨7, 1, 2⟩, .kvins (rg 1 2 31), .pfxins (rg 1 2 31),
        .tlbinv ⟨7, 1, 2, 3⟩, .ctxq ⟨7, 1, 2, 5⟩, .powerOn, .replenish],
      i.wellFormed = false := by decide +kernel

/-- At the limits of the same rules they are well-formed (R240, R299, R311, R257 to R261). -/
theorem test_limits_accepted :
    ∀ i ∈ [Instr.cmp ⟨7, 7, 7, 1, 2, false, false, 9⟩, .frnd ⟨7, 1, 2, 3, false, 0⟩, .rope (rg 30 30 30), .qnt ⟨15, 27, 8, false, false, false, 4⟩,
        .mma ⟨15, 0, 0, 16, false, 5, 11⟩, .tmovfF32 ⟨15, 0, 24, 3⟩, .qpopb ⟨31, 1, 1, 7⟩, .ld ⟨5, 2, 6, 0⟩, .st ⟨5, 2, 3, 0⟩,
        .ldMa ⟨7, 5, 2, false, 5, 6⟩, .stMa ⟨7, 5, 2, false, 10, 3⟩, .ldc ⟨7, 5, 2, false, 6, 0⟩, .bcopy (rg 1 2 29), .pwait ⟨7, 1, 2, 30, false, false⟩,
        .join ⟨7, 31⟩, .preg ⟨7, 1, 2, 3, false⟩, .tlbinv ⟨7, 1, 2, 2⟩, .ctxq ⟨7, 1, 2, 4⟩],
      i.wellFormed = true := by decide +kernel

/-- Slices (07 R209): x has no floating point, v no memory. -/
theorem test_slices :
    sliceOk false (.fadd ⟨7, 1, 2, 3, false, false, 0⟩) = false ∧ sliceOk true (.ld ⟨5, 2, 6, 0⟩) = false ∧
    sliceOk true (.shlImm (ri 1 32)) = false ∧ sliceOk false (.shlImm (ri 1 63)) = true ∧ sliceOk true (.take ⟨7, 31, 0⟩) = false := by
  decide +kernel

/-! ### Words of the spec's examples decode to their instructions -/

/-- Examples 7.1 and 8.1: compare, branches, an immediate under a chain bit, subtraction, a ballot. -/
theorem test_decode_control_integer :
    decode 0x09CA0882#32 = some (.cmp ⟨7, 1, 2, 1, 2, false, false, 2⟩) ∧ decode 0x02800005#32 = some (.bra ⟨2, 5⟩) ∧
    decode 0x03C00006#32 = some (.bra ⟨7, 6⟩) ∧ decode 0x07C00000#32 = some (.nop ⟨7⟩) ∧
    decode 0x99CE8001#32 = some (.addImm (ri 7 1)) ∧ chainOf 0x99CE8001#32 = true ∧ decode 0x02CFFFFF#32 = some (.bra ⟨3, 0xFFFFF⟩) ∧
    decode 0x09DC0A45#32 = some (.cmp ⟨7, 3, 4, 1, 9, false, false, 5⟩) ∧ decode 0x11C21101#32 = some (.sub (rg 1 1 2)) ∧
    decode 0x09CA08C4#32 = some (.cmp ⟨7, 1, 2, 1, 3, false, false, 4⟩) ∧ decode 0x024FFFFE#32 = some (.bra ⟨1, 0xFFFFE⟩) ∧
    decode 0x0BC83002#32 = some (.voteBallot ⟨7, 4, 3⟩) := by decide +kernel

/-- Example 9.1: the words of the memory and queue formats. -/
theorem test_decode_memory_queues :
    decode 0x58516002#32 = some (.ld ⟨5, 2, 6, 2⟩) ∧ decode 0x5DC8384B#32 = some (.stMa ⟨7, 4, 3, false, 9, 3⟩) ∧
    decode 0x628C7470#32 = some (.cas ⟨2, 6, 7, 8, 14, false, false⟩) ∧ decode 0x49C60210#32 = some (.qpop ⟨7, 3, 4, 1⟩) ∧
    decode 0x65D20170#32 = some (.ldq ⟨7, 9, 2⟩) ∧ decode 0x6BC00038#32 = some (.fence ⟨7, 14⟩) ∧
    decode 0x6BC00015#32 = some (.join ⟨7, 5⟩) := by decide +kernel

/-- Examples 10.1, 10.2, 11.1 and 14.1: quantise, merge, matrix, drain, addition with a policy bit. -/
theorem test_decode_vector_matrix :
    decode 0x31E00829#32 = some (.qnt ⟨15, 0, 8, false, true, false, 9⟩) ∧ decode 0x2DD42200#32 = some (.amrg (rg 10 2 4)) ∧
    decode 0x39E01059#32 = some (.mma ⟨15, 0, 0, 16, false, 5, 9⟩) ∧ decode 0x43E00501#32 = some (.tdrainAdd ⟨15, 0, 5⟩) ∧
    decode 0x21CE6440#32 = some (.fadd ⟨7, 7, 6, 8, true, false, 0⟩) := by decide +kernel

/-- Examples 12.1, 12.2 and 15.1: phasers, deques, a reservation. -/
theorem test_decode_sync_tasks :
    decode 0x6DC02184#32 = some (.pbytes (ab 2 3)) ∧ decode 0x6DC02003#32 = some (.parr (da 0 2)) ∧
    decode 0x6DC22205#32 = some (.pwait ⟨7, 1, 2, 4, false, false⟩) ∧ decode 0x6FCC0021#32 = some (.take ⟨7, 6, 2⟩) ∧
    decode 0x6FCE9032#32 = some (.steal ⟨7, 7, 9, 3⟩) ∧ decode 0x73CA6073#32 = some (.leave ⟨7, 5, 6⟩) := by decide +kernel

/-- 07 R200, R203, R209, R227: an unallocated major, reserved ones, an unallocated function, a reserved slot, the x14 of ICSYNC. -/
theorem test_undefined_words_do_not_decode :
    [0x00000000#32, 0x0FC00000#32, 0x07C00010#32, 0x07C0000C#32, 0x07C20000#32, 0x07C0010B#32, 0x7FC00000#32].all (fun w =>
      (decode w).isNone) = true := by decide +kernel

/-- The row of an opcode-table word, by its bits (07 R193). -/
theorem test_decode_table_word :
    decodeTableWord 32 0x07C00000 = some (.nop ⟨7⟩) ∧ decodeTableWord 32 0x0BC83002 = some (.voteBallot ⟨7, 4, 3⟩) := by decide +kernel

/-- 07 R204, R209: a word of RG format. -/
def rgWord (m d a b fn : Nat) : Word := BitVec.ofNat 32 (m * 2 ^ 25 + 7 * 2 ^ 22 + d * 2 ^ 17 + a * 2 ^ 12 + b * 2 ^ 7 + fn)

/-- A word of TASK or Q format: the bits from 4 on are PS or MP. -/
def taskWord (m d a b ps fn : Nat) : Word :=
  BitVec.ofNat 32 (m * 2 ^ 25 + 7 * 2 ^ 22 + d * 2 ^ 17 + a * 2 ^ 12 + b * 2 ^ 7 + ps * 2 ^ 4 + fn)

/-- A word of SYS format. -/
def sysWord (m d a sel fn : Nat) : Word := BitVec.ofNat 32 (m * 2 ^ 25 + 7 * 2 ^ 22 + d * 2 ^ 17 + a * 2 ^ 12 + sel * 4 + fn)

/-- A word of MX format with K = 15. -/
def mxWord (m t a b var fn : Nat) : Word :=
  BitVec.ofNat 32 (m * 2 ^ 25 + 15 * 2 ^ 21 + t * 2 ^ 18 + a * 2 ^ 13 + b * 2 ^ 8 + var * 2 ^ 4 + fn)

/-- One word or more of each family that the examples leave out, from the major, the format and the function code of its
table (07 R204, R209; 08 to 12): lanes, control words, integers. -/
theorem test_decode_families_integer :
    decode (rgWord 5 4 1 2 6) = some (.shflDown (rg 4 1 2)) ∧ decode (sysWord 6 3 0 0x10 0) = some (.csrr ⟨7, 3, 0x10⟩) ∧
    decode (rgWord 9 3 1 2 2) = some (.rems (rg 3 1 2)) ∧ decode (rgWord 10 3 1 2 6) = some (.sar (rg 3 1 2)) ∧
    decode (rgWord 11 3 1 2 1) = some (.bfi (rg 3 1 2)) ∧
    decode (BitVec.ofNat 32 (12 * 2 ^ 25 + 7 * 2 ^ 22 + 3 * 2 ^ 17 + 1 * 2 ^ 14 + 0x3FFF)) = some (.movhi (ri 3 0x3FFF)) ∧
    decode (BitVec.ofNat 32 (13 * 2 ^ 25 + 3 * 2 ^ 20 + 2 * 2 ^ 15 + 3 * 2 ^ 12 + 0xFFF)) = some (.lea ⟨3, 2, 3, 0xFFF⟩) ∧
    decode (rgWord 3 0 6 9 6) = some (.trap ⟨7, 6, 9, false⟩) := by decide +kernel

/-- The same: floating point, tiles, memory, engines, synchronisation, system. -/
theorem test_decode_families_other :
    decode (rgWord 0x11 3 1 2 12) = some (.fdiv ⟨7, 3, 1, 2, false, false, 0⟩) ∧ decode (rgWord 0x13 3 1 0 0x0B) = some (.icvtUwF32Rz (da 3 1)) ∧
    decode (rgWord 0x15 3 1 2 0) = some (.rope (rg 3 1 2)) ∧ decode (mxWord 0x1F 0 3 4 0 1) = some (.kopMov ⟨15, 3, 4⟩) ∧
    decode (BitVec.ofNat 32 (0x2F * 2 ^ 25 + 4 * 2 ^ 22 + 3 * 2 ^ 17 + 1 * 2 ^ 12 + 2 * 2 ^ 7 + 14 * 8 + 4 + 2)) =
      some (.atom ⟨4, 3, 1, 2, 14, true, true⟩) ∧
    decode (rgWord 0x36 3 2 3 1) = some (.preg ⟨7, 3, 2, 3, false⟩) ∧ decode (taskWord 0x37 0 6 0 2 0) = some (.spawn ⟨7, 6, 2⟩) ∧
    decode (taskWord 0x38 5 6 0 3 4) = some (.fwait ⟨7, 5, 6, 3⟩) ∧ decode (taskWord 0x39 5 6 0 3 0) = some (.jlaunch ⟨7, 5, 6, 3⟩) ∧
    decode (rgWord 0x3A 3 1 2 4) = some (.pfxins (rg 3 1 2)) ∧ decode (taskWord 0x24 3 0 4 1 0) = some (.qpop ⟨7, 3, 4, 1⟩) := by
  decide +kernel

/-! ### Single words give the spec's results -/

/-- The state after instruction i. -/
def after (i : Instr) (s : State) : State := match exec i s with | .next t => t | _ => s

/-- Register r of lane 0. -/
def val (e : Bool) (r : Nat) (s : State) : Nat := (s.thread (me e)).rn e r

/-- The PC of lane 0. -/
def pcOf (e : Bool) (s : State) : Nat := (s.thread (me e)).pc.toNat

/-- Predicate p of lane 0. -/
def predOf (e : Bool) (p : BitVec 3) (s : State) : Bool := (s.thread (me e)).pred p

/-- 08 R245: sums wrap at the width of the slice; the d register of MAD is read. -/
theorem test_add_wraps :
    val true 3 (after (.add (rg 3 1 2)) (alone true [(1, 0xFFFFFFFF), (2, 1)])) = 0 ∧
    val false 3 (after (.add (rg 3 1 2)) (alone false [(1, 0xFFFFFFFF), (2, 1)])) = 0x100000000 ∧
    val true 3 (after (.mulhiS (rg 3 1 2)) (alone true [(1, 0xFFFFFFFF), (2, 2)])) = 0xFFFFFFFF ∧
    val true 3 (after (.mulhiU (rg 3 1 2)) (alone true [(1, 0xFFFFFFFF), (2, 2)])) = 1 ∧
    val false 3 (after (.mad (rg 3 1 2)) (alone false [(1, 3), (2, 4), (3, 5)])) = 17 := by decide +kernel

/-- 08 R246: division by zero, the most negative dividend by -1, the sign of a remainder, ABS of the most negative. -/
theorem test_division_corners :
    val true 3 (after (.divs (rg 3 1 2)) (alone true [(1, 7)])) = 0xFFFFFFFF ∧
    val true 3 (after (.divs (rg 3 1 2)) (alone true [(1, 0x80000000), (2, 0xFFFFFFFF)])) = 0x80000000 ∧
    val true 3 (after (.rems (rg 3 1 2)) (alone true [(1, 0xFFFFFFF9), (2, 2)])) = 0xFFFFFFFF ∧
    val true 3 (after (.remu (rg 3 1 2)) (alone true [(1, 7)])) = 7 ∧
    val false 3 (after (.abs (da 3 1)) (alone false [(1, 2 ^ 63)])) = 2 ^ 63 := by decide +kernel

/-- 05 R150, 07 R211: x0 is an ordinary v register in the execute slice and reads 0 in the access slice. -/
theorem test_x0_discards :
    val false 0 (after (.add (rg 0 1 1)) (alone false [(1, 5)])) = 0 ∧ val true 0 (after (.add (rg 0 1 1)) (alone true [(1, 5)])) = 10 := by
  decide +kernel

/-- Example 7.1: CMP.LT writes p1 and its complement p2; BRA goes to PC + 4 times its offset. -/
theorem test_compare_and_branch :
    predOf true 1 (after (.cmp ⟨7, 1, 2, 1, 2, false, false, 2⟩) (alone true [(1, 0xFFFFFFFF), (2, 1)])) = true ∧
    predOf true 2 (after (.cmp ⟨7, 1, 2, 1, 2, false, false, 2⟩) (alone true [(1, 0xFFFFFFFF), (2, 1)])) = false ∧
    pcOf true (after (.bra ⟨7, 5⟩) (alone true [])) = placedPc + 20 ∧ pcOf true (after (.bra ⟨7, 0xFFFFE⟩) (alone true [])) = placedPc - 8 := by
  decide +kernel

/-- 08 R225, R228, R229: CALL and RET; a target that is not a multiple of 4 and a RET at depth 0 vector (14 R389). -/
theorem test_call_and_return :
    pcOf false (after (.ret gd) (after (.call ⟨7, 5⟩) (alone false []))) = placedPc + 4 ∧
    ((after (.call ⟨7, 5⟩) (alone false [])).thread (me false)).depth = 1 ∧
    ((after (.jmp (ra 1)) (alone false [(1, 0x1002)])).thread (me false)).stop.isSome = true := by decide +kernel

/-- 08 R243: VOTE.BALLOT over the participants alone, SHFL.DOWN past the last thread. -/
theorem test_lanes :
    val true 4 (after (.voteBallot ⟨7, 4, 7⟩) (seat true [0, 3] (holding []) id id id)) = 9 ∧
    val true 4 (after (.shflDown (rg 4 1 2)) (seat true [0, 3] (holding [(1, 6), (2, 3)]) id id id)) = 0 ∧
    val true 4 (after (.shflDown (rg 4 1 2)) (seat true [0, 3] (holding [(1, 6), (2, 4)]) id id id)) = 6 := by decide +kernel

/-- 10 R287 to R289: 1 + 2 = 3; 2^24 + 1 rounds to even; the overflow of a product; 0 times infinity is the default NaN. -/
theorem test_float_add_mul :
    val true 3 (after (.fadd ⟨7, 3, 1, 2, false, false, 0⟩) (alone true [(1, 0x3F800000), (2, 0x40000000)])) = 0x40400000 ∧
    val true 3 (after (.fadd ⟨7, 3, 1, 2, false, false, 0⟩) (alone true [(1, 0x4B800000), (2, 0x3F800000)])) = 0x4B800000 ∧
    val true 3 (after (.fmul ⟨7, 3, 1, 2, false, false, 0⟩) (alone true [(1, 0x7F7FFFFF), (2, 0x40000000)])) = 0x7F800000 ∧
    val true 3 (after (.fmul ⟨7, 3, 1, 2, false, false, 0⟩) (alone true [(2, 0x7F800000)])) = 0x7FC00000 := by decide +kernel

/-- Example 10.2: the merge of two attention states. -/
theorem test_merge :
    let s := after (.amrg (rg 10 2 4)) (alone true [(2, 0x40400000), (3, 0x3FA00000), (4, 0x40800000), (5, 0x3F800000)])
    let t := after (.amrg (rg 10 2 4)) (alone true [(2, 0x40400000), (3, 0x41100000), (4, 0x40800000), (5, 0x40000000)])
    val true 10 s = 0x40800000 ∧ val true 11 s = 0x3FD00000 ∧ val true 10 t = 0x40800000 ∧ val true 11 t = 0x40D00000 := by
  decide +kernel

/-- 09 R257: a store waits, its load reads it through, and -1 of a byte is sign-extended by W3 4. -/
theorem test_store_then_load :
    val false 3 (after (.loadReturn (key false).team 1) (after (.ld ⟨3, 1, 4, 0⟩) (after (.st ⟨2, 1, 0, 0⟩) (alone false [(1, 0x8000), (2, 0xFF)]))))
      = 2 ^ 64 - 1 := by decide +kernel

/-- The access team with a phaser at 0x400, whose signaller lane 0 is. -/
def phasedAt (p : Phaser) : State :=
  seat false [0] { holding [(2, 0x400)] with slots := updAt worker.slots 0 (fun _ => some { off := 0x400, sig := true, wt := true, last := none }) }
    id (fun t => { t with spad := cellWrite [] 0x400 (leBytes 32 p.toNum) }) id

/-- Example 12.1: PBYTES of 512 bytes against NARR = 0, NSIG = 1, then 17 granules of 32: phase 5 completes at the sixteenth, and
the seventeenth forces phase 6 complete with BCF. -/
theorem test_phaser_example :
    let s := after (.parr (da 0 2)) (phasedAt { phase := 5, nsig := 1, narr := 0, bcnt := 512, pois := false, bcf := false, wmap := 0 })
    let full := (List.range 16).foldl (fun (s : State) _ => s.phCredit (key false).team 0x400 32 false) s
    let more := full.phCredit (key false).team 0x400 32 false
    (s.phaser (key false).team 0x400).narr = 1 ∧ (s.phaser (key false).team 0x400).phase = 5 ∧ (full.phaser (key false).team 0x400).phase = 6 ∧ (full.phaser (key false).team 0x400).bcnt = 0 ∧
    (more.phaser (key false).team 0x400).phase = 7 ∧ (more.phaser (key false).team 0x400).bcf = true ∧ (more.phaser (key false).team 0x400).bcnt = 0 := by decide +kernel

/-- Example 14.1: with UVEC = 0x4000, a read of a WAIT register takes DECOUPLE at 0x3000, and of a POISONED one POISON, with the
records of the example. -/
theorem test_trap_example :
    let i := Instr.fadd ⟨7, 7, 6, 8, true, false, 0⟩
    let at_ (c : RegSt) : State :=
      { seat true [0] { worker with pc := 0x3000#57, regs := updAt worker.regs 6 (fun x => { x with st := c }) } id id
          (fun g => { g with uvec := 0x4000 }) with
        pass := some { turn true [0] with pc := 0x3000#57 } }
    let b := after i (at_ (.wait (.replay 3 none) 0x2FF4#57))
    let c := after i (at_ (.poisoned { va := 0x7F0000001040, sp := false, rtag := 3, kind := 1, cls := 0 } 0x2FF4#57))
    pcOf true b = 0x4000 ∧ (b.thread (me true)).uepc = 0x3000 ∧ (b.thread (me true)).uin = true ∧
    [28, 29, 30, 31].map (fun r => val true r b) = [2, 6, 0, 0x3000] ∧
    pcOf true c = 0x4000 ∧ [28, 29, 30, 31].map (fun r => val true r c) = [0x31003, 0x1040, 0x7F00, 0x2FF4] := by decide +kernel

/-- Example 4.1: the triple of stack 0, and the merges of the three stacks. -/
theorem test_attention_example :
    let k (n : Nat) : List FVal := [f32 n]
    let a := ((Triple.empty 1).token [0x3F800000] 0x3F800000 (k 0x40400000) (k 0x41000000)).token [0x3F800000] 0x3F800000
      (k 0x3F800000) (k 0x40800000)
    let b : Triple := { m := 0x40800000, s := 0x3F800000, acc := [0x40000000] }
    let c : Triple := { m := 0x40000000, s := 0x40000000, acc := [0x40800000] }
    a = { m := 0x40400000, s := 0x3FA00000, acc := [0x41100000] } ∧
    a.merge b = { m := 0x40800000, s := 0x3FD00000, acc := [0x40D00000] } ∧
    (a.merge b).merge c = { m := 0x40800000, s := 0x40080000, acc := [0x40F00000] } := by decide +kernel

/-- Example 10.1: 96 activations of 1.0 but one of 100.0 quantise to the block of the example, the outlier in the list. -/
theorem test_quantise_example :
    let lane (t : Nat) : Thread := holding [(0, if t = 10 then 0x42C80000 else 0x3F800000), (1, 0x3F800000), (2, 0x3F800000), (3, 0x13400)]
    let s := after (.qnt ⟨15, 0, 8, false, true, false, 9⟩)
      (seat true lanes worker id id (fun g => { g with threads := (List.range 32).map lane }))
    (List.range 16).map (fun t => (s.thread ⟨key true, t⟩).rn true 8) =
      [0x66667D09, 0x68666666, 0x66666666, 0x66386666, 0x66666666, 0x66666666, 0x38666666, 0x66666666,
       0x66666666, 0x66666666, 0x66666638, 0x66666666, 0x66666666, 0x01003866, 0, 0] := by decide +kernel

/-- Example 11.1: E2M1 activations by VQ2 weights, with an escape in rows 3 and 17. -/
theorem test_matrix_example :
    let row (j : Nat) : List Nat :=
      [0x66667D09, if j = 3 then 0x68666666 else 0x66666666, 0x66666666, 0x66386666, 0x66666666, 0x66666666, 0x38666666,
       if j = 17 then 0x66666866 else 0x66666666, 0x66666666, 0x66666666, 0x66666638, 0x66666666, 0x66666666,
       if j = 3 then 0x01003866 else if j = 17 then 0x01013866 else 0x00003866, 0, 0]
    let col : Nat := leNat ([0x0B#8, 0x7F#8] ++ (List.replicate 8 [0#8, 0#8, 0#8, 0#8, 0#8, 0#8, 0x38#8]).flatten)
    let lane (t : Nat) : Thread := holding
      ((List.range 16).map (fun r => (r, (row (2 * r + t / 16)).getD (t % 16) 0)) ++
        (List.range 8).map (fun r => (16 + r, bits col (32 * (t % 16) + 31) (32 * (t % 16)))))
    let s := seat true lanes worker id id (fun g => { g with
      threads := (List.range 32).map lane
      resv := 100
      ols := [{ cnt := 2, es := 0x42C80000#32 :: 0x42C80000#32 :: List.replicate 62 0, st := .full }] })
    let cells := (((after (.mmaCompletion (key true) none none) (after (.mma ⟨15, 0, 0, 16, false, 5, 9⟩) s)).group (key true)).map
      (fun g => (g.tile 0).cells)).getD []
    cells.getD (32 * 17 + 5) 0 = 0x400586000000000000000000#96 := by decide +kernel

/-! ### What the statements assume: numbers, blocks, cells -/

/-- 10 R290 to R299, 04 R133: codes of each kind, the last mode, bounds of the integers, the first position that is too far, and each
case of a merge. -/
theorem witness_ArithmeticIsCorrectlyRounded :
    ((f32 0x7F800001).isNan = true ∧ (0x7F800001 : Nat) < 2 ^ 32) ∧ ((f32 0xFF800000).isInf = true ∧ f32 0xFF800000 = .inf true) ∧
    ((rational (f32 0xFFFFFFFF)).isSome = false ∧ (rational (f32 0xCF000001)).isSome = true ∧ (3 : Nat) < 4) ∧
    ((1 : Nat) ≠ 0 ∧ (0 : ℤ) ≤ 0 ∧ (2 ^ 24 ≤ 2 ^ 24 ∧ 2 ^ 24 - 1 < 2 ^ 24)) ∧
    ((f32 0x80000000).isNan = false ∧ f32 0x80000000 ≠ .inf true ∧ (f32 0).cmp (f32 0x80000000) ≠ some .lt ∧
      (f32 0x3F800000).cmp (f32 0x40000000) = some .lt) := by
  and_intros <;> decide +kernel

/-- A block of a format whose byte 1 is 127, with some more bits. -/
def blockAt (fmt more : Nat) : Block := BitVec.ofNat 512 (fmt + 127 * 2 ^ 8 + more)

/-- The parameter word of a quantiser. -/
def quantiser (auto : Bool) : QParam := { gfix := !auto, olg := 3, re := 15, gfine := auto, auto := auto, sf := 3, se := 255 }

/-- 02 R68, R55 to R64, 10 R303: a block that breaks each check, one that breaks none, of every format; a group of one large element. -/
theorem witness_BlocksFollowTheirPseudocode :
    bitsAt (blockAt 4 (128 * 2 ^ 8)) 8 8 = 255 ∧ (bitsAt (blockAt 12 0) 0 5 = 12 ∧ bitsAt (blockAt 12 0) 8 8 ≠ 255) ∧
    (let b := blockAt 4 (2 ^ 7)
     bitsAt b 8 8 ≠ 255 ∧ (bitsAt b 0 5 ≤ 11 ∨ bitsAt b 0 5 = 16) ∧ headerWrong b) ∧
    (∀ fmt ∈ [0, 1, 2, 3, 4, 5, 6, 7, 8, 9, 10, 11, 16], let b := blockAt fmt 0
      bitsAt b 0 5 = fmt ∧ bitsAt b 8 8 ≠ 255 ∧ (bitsAt b 0 5 ≤ 11 ∨ bitsAt b 0 5 = 16) ∧ ¬headerWrong b) ∧
    (∀ fmt ∈ [9, 10, 11], escapeAt (blockAt fmt (if fmt = 11 then 0xFFFF * 2 ^ 16 else 8 * 2 ^ 16)) fmt 0 = true) ∧
    (∀ auto ∈ [false, true], ∀ fmt ∈ [4, 10], let xs := FVal.fin false 1 20 :: List.replicate (24 * groupsOf fmt - 1) .zero
      4 ≤ fmt ∧ fmt ≤ 10 ∧ xs.length = 24 * groupsOf fmt ∧ (quantiser auto).sf < 4 ∧ (quantiser auto).se < 256 ∧
      elected (quantiser auto) true (groupAt xs 0) (xs.getD 0 .zero) = true) := by
  unfold headerWrong
  and_intros <;> decide +kernel

/-- A row of one element, with scales of 1. -/
def rowOf (v : FVal) : MRow := { elems := [{ code := v, esc := false, ol := .zero, val := v, grid := 1 }], sgs := [.fin false 1 0], sb := .fin false 1 0 }

/-- 11 R314 to R317: two rows of one 1, whose product has its leading bit at 0; two zeros; a NaN. -/
theorem witness_MatrixCellsFollowThePseudocode :
    (FiniteGroup (rowOf (.fin false 1 0)) (rowOf (.fin false 1 0)) 0 [1] 1 ∧ rational (fpDecode .fp32 0) = some 0 ∧
      (∃ p ∈ [(1 : ℚ)], p ≠ 0 ∧ Int.log 2 |p| = 0) ∧ ∀ p ∈ [(1 : ℚ)], p ≠ 0 → Int.log 2 |p| ≤ 0) ∧
    (FiniteGroup (rowOf .zero) (rowOf .zero) 0 [0] 1 ∧ ∀ p ∈ [(0 : ℚ)], p = 0) ∧
    ∃ x ∈ (rowOf (.nan false)).group 0 ++ (rowOf (.inf true)).group 0, x.code.isNan = true ∨ x.code.isInf = true := by
  have one : rational (.fin false 1 0) = some 1 := by norm_num [rational]
  have unit (v : FVal) (p : ℚ) (hv : v.isNan = false ∧ v.isInf = false) (h : rational (v.mul v).1 = some p) :
      FiniteGroup (rowOf v) (rowOf v) 0 [p] 1 := by
    refine ⟨?_, ?_, 1, 1, 1, 1, one, one, one, one, by norm_num⟩
    · simp [rowOf, MRow.group, hv]
    · simp [rowOf, MRow.group, h]
  refine ⟨⟨unit _ _ (by decide) ?_, ?_, ?_, ?_⟩, ⟨unit _ _ (by decide) ?_, by simp⟩, by simp [rowOf, MRow.group, FVal.isNan]⟩
  · have : ((FVal.fin false 1 0).mul (.fin false 1 0)).1 = .fin false 1 0 := by decide
    rw [this, one]
  · have : fpDecode .fp32 0 = .fin false 0 (-149) := by decide +kernel
    rw [this]; simp [rational]
  · simp
  · simp
  · have : (FVal.zero.mul .zero).1 = .fin false 0 0 := by decide
    rw [this]; simp [rational]

/-! ### What the statements assume: lanes on their own registers -/

/-- 08 R245 to R247: the last register of the file is a destination and a source; in the access slice x0 is one. -/
theorem witness_IntegerArithmeticComputesTheRules : ∀ e : Bool, Plain [(.add (rg 31 0 31), [0, 31, 31]),
    (.sub (rg 1 2 2), [2, 2, 1]), (.mul (rg 1 1 1), [1, 1, 1]), (.mulhiS (rg 1 2 3), [2, 3, 1]), (.mulhiU (rg 1 2 3), [2, 3, 1]),
    (.mad (rg 0 1 2), [1, 2, 0, 0]), (.divs (rg 1 2 3), [2, 3, 1]), (.divu (rg 1 2 3), [2, 3, 1]),
    (.rems (rg 1 2 3), [2, 3, 1]), (.remu (rg 1 2 3), [2, 3, 1]), (.minS (rg 1 2 3), [2, 3, 1]), (.minU (rg 1 2 3), [2, 3, 1]),
    (.maxS (rg 1 2 3), [2, 3, 1]), (.maxU (rg 1 2 3), [2, 3, 1]), (.abs (da 1 2), [2, 1]),
    (.sel ⟨7, 1, 2, 3, false, false⟩, [2, 3, 1])] (alone e []) := by
  intro e
  cases e
  · exact plain_of (e := false) (by decide +kernel)
  · exact plain_of (e := true) (by decide +kernel)

/-- 08 R248, R249. -/
theorem witness_LogicShiftsAndBitFieldsComputeTheRules : ∀ e : Bool, Plain [(.and (rg 31 0 31), [0, 31, 31]),
    (.or (rg 1 2 3), [2, 3, 1]), (.xor (rg 1 1 1), [1, 1, 1]), (.andn (rg 1 2 3), [2, 3, 1]), (.shl (rg 1 2 3), [2, 3, 1]),
    (.shr (rg 1 2 3), [2, 3, 1]), (.sar (rg 1 2 3), [2, 3, 1]), (.rol (rg 1 2 3), [2, 3, 1]), (.clz (da 1 2), [2, 1]),
    (.popc (da 1 2), [2, 1]), (.brev (da 1 2), [2, 1]), (.mov (da 0 31), [31, 0]), (.bfx (rg 1 2 3), [2, 3, 1]),
    (.bfi (rg 1 2 3), [2, 3, 1, 1])] (alone e []) := by
  intro e
  cases e
  · exact plain_of (e := false) (by decide +kernel)
  · exact plain_of (e := true) (by decide +kernel)

/-- 08 R240, R241, R243, R250, R251: the widest immediates, the largest counts of both slices, the widest LEA; the first and last
condition, both predicate destinations 7, an odd predicate pair. -/
theorem witness_ImmediatesComparesAndLanesFollowTheRules :
    (∀ e : Bool, Plain [(.movi (ri 31 0x2000), [31]), (.movhi (ri 1 0x3FFF), [1, 1]), (.addImm (ri 0 0x1FFF), [0, 0]),
      (.andImm (ri 1 0x2000), [1, 1]), (.orImm (ri 1 0x3FFF), [1, 1]), (.xorImm (ri 1 0), [1, 1]), (.shlImm (ri 1 31), [1, 1]),
      (.shrImm (ri 1 31), [1, 1]), (.cmp ⟨7, 7, 7, 0, 31, false, false, 0⟩, [0, 31]),
      (.cmp ⟨7, 0, 1, 1, 2, false, false, 9⟩, [1, 2]), (.plopAnd ⟨7, 0, 1, 7, 6⟩, []), (.plopOr ⟨7, 7, 0, 1, 2⟩, []),
      (.plopXor ⟨7, 0, 7, 1, 2⟩, []), (.plopAndn ⟨7, 0, 1, 0, 0⟩, []), (.voteAny ⟨7, 7, 0⟩, []), (.voteAll ⟨7, 0, 7⟩, []),
      (.voteBallot ⟨7, 31, 0⟩, [31]), (.elect ⟨7, 0⟩, []), (.shflIdx (rg 1 2 3), [2, 3, 1]), (.shflUp (rg 1 2 3), [2, 3, 1]),
      (.shflDown (rg 1 2 3), [2, 3, 1]), (.shflXor (rg 1 1 1), [1, 1, 1])] (alone e [])) ∧
    Plain [(.shlImm (ri 1 63), [1, 1]), (.shrImm (ri 1 63), [1, 1]), (.lea ⟨31, 0, 3, 0x800⟩, [0, 31])] (alone false []) := by
  refine ⟨fun e => ?_, plain_of (e := false) (by decide +kernel)⟩
  cases e
  · exact plain_of (e := false) (by decide +kernel)
  · exact plain_of (e := true) (by decide +kernel)

/-- 10 R287 to R291: every value of MOD. -/
theorem witness_FloatingPointWordsGiveTheirResults : Plain [(.fadd ⟨7, 0, 31, 0, false, false, 0⟩, [31, 0, 0]),
    (.fsub ⟨7, 1, 2, 3, false, false, 1⟩, [2, 3, 1]), (.fmul ⟨7, 1, 2, 3, false, false, 2⟩, [2, 3, 1]),
    (.ffma ⟨7, 1, 2, 3, false, false, 3⟩, [2, 3, 1, 1]), (.fmin ⟨7, 1, 2, 3, false, false, 0⟩, [2, 3, 1]),
    (.fmax ⟨7, 1, 2, 3, false, false, 0⟩, [2, 3, 1]), (.fclass ⟨7, 1, 2, false, 3⟩, [2, 1]), (.frnd ⟨7, 1, 2, 3, false, 0⟩, [2, 1]),
    (.frcp ⟨7, 1, 2, false, 0⟩, [2, 1]), (.frsq ⟨7, 1, 2, false, 0⟩, [2, 1]), (.fsqrt ⟨7, 1, 2, false, 0⟩, [2, 1]),
    (.fdiv ⟨7, 1, 2, 3, false, false, 0⟩, [2, 3, 1]), (.fexp2 ⟨7, 1, 2, false, 0⟩, [2, 1]), (.flog2 ⟨7, 1, 2, false, 0⟩, [2, 1]),
    (.fsin ⟨7, 1, 2, false, 0⟩, [2, 1]), (.fcos ⟨7, 1, 2, false, 0⟩, [2, 1])] (alone true []) :=
  plain_of (e := true) (by decide +kernel)

/-- 10 R288, R293 to R295, R307, R308: both halves of HDRR and HDRW. -/
theorem witness_PackedWordsAndConversionsGiveTheirResults : Plain [(.hadd2Bf16 ⟨7, 1, 2, 3, false, false, 3⟩, [2, 3, 1]),
    (.hmul2Bf16 ⟨7, 1, 2, 3, false, false, 0⟩, [2, 3, 1]), (.hfma2Bf16 ⟨7, 1, 2, 3, false, false, 0⟩, [2, 3, 1, 1]),
    (.hadd2F16 ⟨7, 1, 2, 3, false, false, 0⟩, [2, 3, 1]), (.hmul2F16 ⟨7, 1, 2, 3, false, false, 0⟩, [2, 3, 1]),
    (.hfma2F16 ⟨7, 1, 2, 3, false, false, 0⟩, [2, 3, 1, 1]), (.fcvtF32Bf16 (da 1 2), [2, 1]), (.fcvtF32Bf16Hi (da 1 2), [2, 1]),
    (.fcvtF32F16 (da 1 2), [2, 1]), (.fcvtF32F16Hi (da 1 2), [2, 1]), (.fcvtBf16x2F32 (rg 1 2 3), [2, 3, 1]),
    (.fcvtF16x2F32 (rg 1 2 3), [2, 3, 1]), (.icvtSwF32 (da 1 2), [2, 1]), (.icvtSwF32Rz (da 1 2), [2, 1]),
    (.icvtUwF32 (da 1 2), [2, 1]), (.icvtUwF32Rz (da 1 2), [2, 1]), (.icvtF32Sw (da 1 2), [2, 1]), (.icvtF32Uw (da 1 2), [2, 1]),
    (.hdrr ⟨7, 1, 2, false, false⟩, [2, 1]), (.hdrr ⟨7, 1, 2, true, false⟩, [2, 1]), (.hdrw ⟨7, 1, 2, false, false⟩, [2, 1, 1]),
    (.hdrw ⟨7, 1, 2, true, false⟩, [2, 1, 1]), (.cbk (rg 1 2 3), [2, 3, 1])] (alone true []) :=
  plain_of (e := true) (by decide +kernel)

/-- 10 R296 to R299: the last pair of the file; ROPE at the last good position, at the first bad one with RANGEE clear, and
with RANGEE set. -/
theorem witness_CompareRotateAndMergeGiveTheirResults :
    Plain [(.fcmp ⟨7, 0, 1, 2, 3, false, false, 7⟩, [2, 3]), (.amrg (rg 30 0 2), [0, 1, 2, 3, 30, 31])] (alone true []) ∧
    (∀ n ∈ [(2 ^ 24 - 1, 256), (2 ^ 24, 0)], Meets (.rope (rg 4 0 2)) 7#3 (pairRegs (rg 4 0 2)) [4, 5]
      (fun s th => ¬((s.thread th).rn true 2 ≥ 2 ^ 24 ∧ (s.thread th).rangee = true))
      (seat true [0] { holding [(2, n.1)] with fpstat := BitVec.ofNat 64 n.2 } id id id)) ∧
    Meets (.rope (rg 4 0 2)) 7#3 (pairRegs (rg 4 0 2)) [4, 5]
      (fun s th => (s.thread th).rn true 2 ≥ 2 ^ 24 ∧ (s.thread th).rangee = true)
      (seat true [0] { holding [(2, 2 ^ 24)] with fpstat := 256#64 } id id id) := by
  refine ⟨plain_of (e := true) (by decide +kernel), ?_, meets_of (e := true) (by decide +kernel) (by decide +kernel)⟩
  intro n hn
  fin_cases hn
  · exact meets_of (e := true) (by decide +kernel) (by decide +kernel)
  · exact meets_of (e := true) (by decide +kernel) (by decide +kernel)

/-- 10 R300 to R306: QNT of the last register set, QSCL, and DQ of a block of format 10 whose elements end at v31. -/
theorem witness_QuantiseAndDecodeWordsActOnBlocks :
    MeetsAll (.qnt ⟨15, 27, 0, true, true, true, 10⟩) 15 (fun _ p g =>
      let f : OpQnt := ⟨15, 27, 0, true, true, true, 10⟩
      b2n f.ol < g.ols.length ∧
      qparamBad (g.scalar p.sel (f.a.toNat + 3)) (g.scalar p.sel (f.a.toNat + 4)) (groupCount f.fmt.toNat) = false ∧
      (g.ol (b2n f.ol)).cnt + (quantised f p g).2.1.length ≤ 64 ∧ (g.ol (b2n f.ol)).st = .full ∧
      ∀ t ∈ p.sel, ∀ r ∈ [27, 28, 29, 30, 31, 0], g.regState true t r = .full ∧ ((g.thr t).cell true r).ecc = false) (together true []) ∧
    MeetsAll (.qscl ⟨15, 0, 30, false, false, 4⟩) 15 (fun _ p g =>
      qparamBad (g.scalar p.sel 3) (g.scalar p.sel 4) (groupCount 4) = false ∧
      ∀ t ∈ p.sel, ∀ r ∈ [0, 1, 2, 3, 4, 30, 31], g.regState true t r = .full ∧ ((g.thr t).cell true r).ecc = false) (together true []) ∧
    MeetsAll (.dq ⟨15, 0, 29, true, false⟩) 15 (fun _ p g =>
      let b := g.blockAt p.sel 0 0
      29 + dqRegs (blkFmt b) ≤ 32 ∧ checkBlock b (some (g.ol 1).cnt) = none ∧ blkOln b = 0 ∧
      ∀ t ∈ p.sel, ∀ r ∈ [0, 29, 30, 31], g.regState true t r = .full ∧ ((g.thr t).cell true r).ecc = false) (together true [(0, 10)]) :=
  ⟨meetsAll_of (by decide +kernel), meetsAll_of (by decide +kernel), meetsAll_of (by decide +kernel)⟩

/-! ### What the statements assume: control -/

/-- 08 R225 to R232: a branch back by the largest offset, CALL below the limit of DEPTH and at it; a target with low bits 00 and one
with 01; RET at DEPTH 0, over a good entry of the return stack and over a bad one. -/
theorem witness_BranchesCallsJumpsAndReturnsFollowTheirRules :
    let good (e : Bool) (a : BitVec 5) (s : State) (th : ThreadKey) : Prop :=
      (named e (s.thread th).pc (s.thread th) a).extractLsb' 0 2 = 0#2
    let deep (s : State) (th : ThreadKey) : Prop := (s.thread th).depth = (s.thread th).rstack.length
    let errs (s : State) (th : ThreadKey) : Prop := (s.thread th).depth - 1 ∈ (s.thread th).rsEcc
    (∀ e : Bool, Plain [(.bra ⟨7, 0x80000⟩, []), (.nop gd, [])] (alone e [])) ∧
    Meets (.call ⟨7, 0x7FFFF⟩) 7#3 [] [] (fun s th => ¬deep s th) (seat true [0] { worker with depth := 7 } id id id) ∧
    Meets (.call ⟨7, 0x7FFFF⟩) 7#3 [] [] deep (seat true [0] { worker with depth := 8 } id id id) ∧
    Meets (.jmp (ra 1)) 7#3 [1] [] (good false 1) (alone false [(1, 2 ^ 64 - 4)]) ∧
    Meets (.jmp (ra 1)) 7#3 [1] [] (good true 1) (alone true [(1, 2 ^ 32 - 4)]) ∧
    Meets (.jmp (ra 1)) 7#3 [1] [] (fun s th => ¬good true 1 s th) (alone true [(1, 1)]) ∧
    Meets (.calli (ra 1)) 7#3 [1] [] (fun s th => good true 1 s th ∧ ¬deep s th)
      (seat true [0] { holding [(1, 4)] with depth := 7 } id id id) ∧
    Meets (.calli (ra 1)) 7#3 [1] [] (fun s th => ¬good true 1 s th)
      (seat true [0] { holding [(1, 2)] with depth := 8 } id id id) ∧
    Meets (.calli (ra 1)) 7#3 [1] [] (fun s th => good true 1 s th ∧ deep s th)
      (seat true [0] { holding [(1, 4)] with depth := 8 } id id id) ∧
    Meets (.setuv (da 1 2)) 7#3 [2, 1] [1] (fun s th => ¬good true 2 s th) (alone true [(2, 3)]) ∧
    Meets (.ret gd) 7#3 [] [] (fun s th => (s.thread th).depth ≠ 0 ∧ ¬errs s th) (seat true [0] { worker with depth := 1 } id id id) ∧
    Meets (.ret gd) 7#3 [] [] (fun s th => (s.thread th).depth ≠ 0 ∧ errs s th)
      (seat true [0] { worker with depth := 1, rsEcc := [0] } id id id) ∧
    Meets (.ret gd) 7#3 [] [] (fun s th => (s.thread th).depth = 0) (alone true []) := by
  refine ⟨fun e => ?_, meets_of (e := true) (by decide +kernel) (by decide +kernel),
    meets_of (e := true) (by decide +kernel) (by decide +kernel),
    meets_of (e := false) (by decide +kernel) (by decide +kernel), meets_of (e := true) (by decide +kernel) (by decide +kernel),
    meets_of (e := true) (by decide +kernel) (by decide +kernel), meets_of (e := true) (by decide +kernel) (by decide +kernel),
    meets_of (e := true) (by decide +kernel) (by decide +kernel), meets_of (e := true) (by decide +kernel) (by decide +kernel),
    meets_of (e := true) (by decide +kernel) (by decide +kernel), meets_of (e := true) (by decide +kernel) (by decide +kernel),
    meets_of (e := true) (by decide +kernel) (by decide +kernel), meets_of (e := true) (by decide +kernel) (by decide +kernel)⟩
  cases e
  · exact plain_of (e := false) (by decide +kernel)
  · exact plain_of (e := true) (by decide +kernel)

/-- 08 R233 to R239: in a handler and outside one, breakpoint stops enabled and not. -/
theorem witness_HandlerAndMarkerWordsFollowTheRules :
    Plain [(.trap ⟨7, 31, 31, false⟩, [31]), (.mark ⟨7, 0, 31, false⟩, [0]), (.icsync gd, [])] (alone true []) ∧
    Meets (.uret gd) 7#3 [] [] (fun s th => (s.thread th).uin = true) (seat true [0] { worker with uin := true } id id id) ∧
    Meets (.uret gd) 7#3 [] [] (fun s th => (s.thread th).uin = false) (alone true []) ∧
    Meets (.setuv (da 1 2)) 7#3 [2, 1] [1]
      (fun s th => (named false (s.thread th).pc (s.thread th) 2).extractLsb' 0 2 = 0#2) (alone false []) ∧
    Meets (.bkpt ⟨7, 31⟩) 7#3 [] [] (fun s th => (s.core (s.coreOf th.gk.team)).dbg0.getLsbD 0 = false) (alone true []) ∧
    Meets (.bkpt ⟨7, 31⟩) 7#3 [] [] (fun s th => (s.core (s.coreOf th.gk.team)).dbg0.getLsbD 0 = true)
      ((alone true []).modCore 0 (fun c => { c with dbg0 := 1#64 })) :=
  ⟨plain_of (e := true) (by decide +kernel), meets_of (e := true) (by decide +kernel) (by decide +kernel),
   meets_of (e := true) (by decide +kernel) (by decide +kernel), meets_of (e := false) (by decide +kernel) (by decide +kernel),
   meets_of (e := true) (by decide +kernel) (by decide +kernel), meets_of (e := true) (by decide +kernel) (by decide +kernel)⟩

/-- 08 R231, R232: a lane that acts, registered on no phaser; a live thread of a group of 32; a group with a live thread and one
without. -/
theorem witness_ExitEndsAndYieldParks :
    Plain [(.yield gd, [])] (alone true []) ∧
    Meets (.exit gd) 7#3 [] [] (fun s th => ∀ x, some x ∈ (s.thread th).slots → x.sig = true → s.phaserWaits th x.off true = false)
      (alone true []) ∧
    (∃ g, (alone true []).group (me true).gk = some g ∧ ((alone true []).team (me true).gk.team).isSome ∧ g.threads.length = 32 ∧
      (g.thr (me true).thr).live = true ∧ ∃ t ∈ g.threads, t.live = true) ∧
    ∃ g, (seat true [] Thread.absent id id (fun g => { g with threads := List.replicate 32 Thread.absent })).group (key true) = some g ∧
      ∀ t ∈ g.threads, t.live = false := by
  refine ⟨plain_of (e := true) (by decide +kernel), meets_of (e := true) (by decide +kernel) ?_, some_of (by decide +kernel),
    some_of (by decide +kernel)⟩
  intro x hx
  have : ((alone true []).thread (me true)).slots.all Option.isNone = true := by decide +kernel
  exact absurd (List.all_eq_true.mp this _ hx) (by simp)

/-- Every list register is poisoned. -/
def poisonedLists (g : Group) : Group := { g with ols := g.ols.map (fun o => { o with
  st := .poisoned { va := 0, sp := false, rtag := 0xFFFF, kind := 0, cls := 1 } 0 }) }

/-- 07 R214 to R216, 08 R253: a word of each slice, the high half of FPSTAT in the execute slice, OLCNT read with full lists and written
with poisoned ones, and a thread in a job whose group has two lists. -/
theorem witness_ControlWordsReadAndWrite :
    Plain [(.csrr ⟨7, 31, 0x010⟩, [31]), (.csrw ⟨7, 0, 31, 0x030⟩, [31, 0]), (.csrs ⟨7, 1, 2, 0x031⟩, [2, 1]),
      (.csrc ⟨7, 1, 2, 0x030⟩, [2, 1])] (alone false []) ∧
    Plain [(.csrr ⟨7, 31, 0x210⟩, [31]), (.csrw ⟨7, 0, 31, 0x220⟩, [31, 0]), (.csrs ⟨7, 1, 2, 0x020⟩, [2, 1]),
      (.csrc ⟨7, 1, 2, 0x020⟩, [2, 1])] (alone true []) ∧
    Meets (.csrr ⟨7, 1, 0x021⟩) 7#3 [1] [1] (fun s th => countable s th 0x021 false) (alone true []) ∧
    Meets (.csrw ⟨7, 1, 2, 0x021⟩) 7#3 [2, 1] [1] (fun s th => countable s th 0x021 true)
      (seat true [0] worker id id poisonedLists) ∧
    ∃ g, (alone true []).group (me true).gk = some g ∧ ((alone true []).team (me true).gk.team).isSome ∧
      ((alone true []).job (me true).gk.team.job).isSome ∧ (me true).thr < g.threads.length ∧ g.ols.length = 2 := by
  refine ⟨plain_of (e := false) (by decide +kernel), plain_of (e := true) (by decide +kernel),
    meets_of (e := true) (by decide +kernel) ?_, meets_of (e := true) (by decide +kernel) ?_, some_of (by decide +kernel)⟩
  · intro _ g hg
    have h : holds ((alone true []).group (key true)) (fun g => !g.ended && g.ols.all (fun o => o.st == .full && !o.ecc)) = true := by
      decide +kernel
    rw [show (me true).gk = key true from rfl] at hg
    rw [hg] at h
    simp only [holds, Bool.and_eq_true, Bool.not_eq_true', List.all_eq_true, beq_iff_eq] at h
    exact ⟨h.1, fun o ho => .inl (h.2 o ho).1, fun o ho => (h.2 o ho).2⟩
  · intro _ g hg
    have h : holds ((seat true [0] worker id id poisonedLists).group (key true)) (fun g => !g.ended && g.ols.all (fun o =>
      o.st == .poisoned { va := 0, sp := false, rtag := 0xFFFF, kind := 0, cls := 1 } 0 && !o.ecc)) = true := by decide +kernel
    rw [show (me true).gk = key true from rfl] at hg
    rw [hg] at h
    simp only [holds, Bool.and_eq_true, Bool.not_eq_true', List.all_eq_true, beq_iff_eq] at h
    exact ⟨h.1, fun o ho => .inr ⟨rfl, _, _, (h.2 o ho).1⟩, fun o ho => (h.2 o ho).2⟩

/-! ### What the statements assume: registers, exceptions, full/empty states -/

/-- Lane 0 with register 1 in a state. -/
def registerIn (st : RegSt) : State :=
  seat true [0] { worker with regs := updAt worker.regs 1 (fun _ => { val := 0, st := st, taint := false, ecc := false }) } id id id

/-- 07 R212, 06 R186: a thread with all 36 cells, in a handler and outside; a first source in TRANSIT, in WAIT, POISONED, with its policy
bit clear and set; a destination in each of these states, of no fragment set, with full sources. -/
theorem witness_RegistersAreReadAndWrittenInTheirStates :
    (worker.regs.length = 36 ∧ (worker.wn false 31 5 true).rn false 31 = 5 ∧
      ((inside worker).wn true 28 7 false).rn true 28 = 7 ∧ (outside ((inside worker).wn true 28 7 false)).rn true 28 = 0) ∧
    ∀ st ∈ [RegSt.transit 7, .wait (.replay 3 none) 0, .poisoned { va := 0, sp := false, rtag := 3, kind := 0, cls := 0 } 0],
      (∀ pa : Bool, Meets (.add ⟨7, 2, 1, 3, pa, false⟩) 7#3 [] []
        (fun s th => (s.group th.gk).map (fun g => g.regState true 0 1) = some st) (registerIn st)) ∧
      Meets (.add (rg 1 2 3)) 7#3 [2, 3] []
        (fun s th => (s.group th.gk).map (fun g => g.regState true 0 1) = some st) (registerIn st) ∧
      ∃ g, (registerIn st).group (key true) = some g ∧ 0 < g.threads.length ∧
        g.setOf 0 (cellIx (g.thr 0).uin 1) = none := by
  refine ⟨by decide +kernel, ?_⟩
  intro st hst
  fin_cases hst
  all_goals
    refine ⟨fun pa => ?_, meets_of (e := true) (by decide +kernel) (by decide +kernel), some_of (by decide +kernel)⟩
    cases pa <;> exact meets_of (e := true) (by decide +kernel) (by decide +kernel)

/-- 14 R392: a group with a handler, a thread outside it; a fragment set that ends with the last registers. -/
theorem witness_UserCausesVectorTheirThread :
    ∃ g, (seat true [0] worker id id (fun g => { g with
        uvec := 4#64
        sets := [{ base := 30, uin := [], cut := [], n := 4, q := ⟨1, 0⟩, pos := 0, slots := [], origin := 0 }] })).group (me true).gk = some g ∧
      (me true).thr < g.threads.length ∧ (g.thr (me true).thr).regs.length = 36 ∧ (TrapInfo.at .range 0#57).cause.user = true ∧
      g.uvec ≠ 0 ∧ (g.thr (me true).thr).uin = false ∧ g.sets ≠ [] ∧ ∀ b ∈ g.sets, b.base + (b.n + 1) / 2 ≤ 32 :=
  some_of (by decide +kernel)

/-- 14 R394, R396: a supervisor cause, a user-level cause without a handler, one in a handler; the event queue full and not, and a core
that holds a record. -/
theorem witness_OtherCausesStopTheirThread :
    (∀ c ∈ [Cause.illop, .range], c ≠ .budget ∧ c ≠ .iconv ∧ c ≠ .qdead ∧ c ≠ .array ∧ c ≠ .mchk) ∧
    (∃ g, (alone true []).group (me true).gk = some g ∧ (me true).thr < g.threads.length ∧
      (Cause.user .range = true → g.uvec = 0 ∨ (g.thr (me true).thr).uin = true) ∧ Cause.user .illop = false ∧
      (alone true []).evq.length < 4096 ∧ ∀ x ∈ (alone true []).held, (x.d3.extractLsb' 32 16).toNat ≠ 0) ∧
    (∃ g, (seat true [0] { worker with uin := true } id id (fun g => { g with uvec := 4#64 })).group (me true).gk = some g ∧
      (me true).thr < g.threads.length ∧ (g.thr (me true).thr).uin = true) ∧
    ¬({ alone true [] with evq := List.replicate 4096 { d0 := 0, d1 := 0, d2 := 0, d3 := 0 } } : State).evq.length < 4096 ∧
    ¬∀ x ∈ ({ alone true [] with held := [{ d0 := 0, d1 := 0, d2 := 0, d3 := 0 }] } : State).held,
      (x.d3.extractLsb' 32 16).toNat ≠ 0 :=
  ⟨by decide, some_of (by decide +kernel), some_of (by decide +kernel), by decide +kernel, by decide +kernel⟩

/-- 14 R395: a group of 32 threads in a job. -/
theorem witness_GroupFatalCausesEndTheirGroup :
    (∃ g, (together true []).group (key true) = some g ∧ g.threads.length = 32) ∧
    ((together true []).job (key true).team.job).isSome = true ∧
    (((together true []).fatal (key true) [0] .iconv none).job (key true).team.job).isSome = true :=
  ⟨some_of (by decide +kernel), by decide +kernel, by decide +kernel⟩

/-- 07 R203, R210: every word of the statement is forbidden to some group. -/
theorem witness_ForbiddenWordsRaiseIllop :
    (∀ i ∈ [Instr.rch (rg 1 2 3), .rget (rg 1 2 3), .rput (rg 1 2 3), .bcopy (rg 1 2 3), .bstore (rg 1 2 30), .mcast (rg 1 2 3),
      .replay (ra 1), .scat ⟨7, 1, 30, false⟩, .attd (da 1 2), .kvins (rg 1 2 31), .pfxins (rg 1 2 31), .fence ⟨7, 0⟩, .join ⟨7, 0⟩,
      .csrr ⟨7, 1, 0x1FF⟩, .csrw ⟨7, 1, 2, 0x010⟩, .spawn ⟨7, 31, 0⟩, .take ⟨7, 31, 0⟩, .steal ⟨7, 31, 1, 0⟩, .preg ⟨7, 1, 2, 4, false⟩,
      .pwait ⟨7, 0, 1, 31, false, false⟩, .ptestW (rg 1 2 31), .fnew ⟨7, 1, 2⟩],
      (alone true []).forbids (key true) i = true) ∧
    (alone false []).forbids (key false) (.rope (rg 1 2 3)) = true ∧
    (∀ i ∈ [Instr.sret ⟨7, 1, 2, false⟩, .tlbinv ⟨7, 1, 2, 0⟩, .ctxq ⟨7, 1, 2, 0⟩, .haltq ⟨7, 1, 2⟩],
      (seat false [0] worker (fun j => { j with ctx := 4095 }) id id).forbids (key false) i = true) ∧
    (seat false [0] worker (fun j => { j with ctx := 4095 }) id id).ctxOf (key false).team.job ≠ 0 := by
  decide +kernel

/-! ### What the statements assume: tiles -/

/-- An execute group whose registers all hold the headers of blocks of a format, with its energy reserved. -/
def crew (fmt : Nat) : Group :=
  { (Group.fresh (key true) 0 0 (BitVec.ofNat 57 placedPc) 8 1 2).mapThreads (fun t _ =>
      { worker with regs := worker.regs.map (fun _ => .mk' (BitVec.ofNat 64 (if t % 16 = 0 then fmt else 0)) false) }) with
    resv := 6 }

/-- That group, with some queues. -/
def armed (sel : List Nat) (fmt : Nat) (q : List Queue) (gr : Group → Group) : State :=
  seat true sel worker id (fun t => { t with queues := q }) (fun _ => gr (crew fmt))

theorem crew_seated (sel : List Nat) (fmt : Nat) (q : List Queue) : (armed sel fmt q id).group (key true) = some (crew fmt) :=
  List.find?_cons_of_pos (show (key true == key true) = true by decide +kernel)

theorem armed_energy : (armed lanes 4 [] id).energy (key true) 6 =
    some ((armed lanes 4 [] id).modGroup (key true) (fun g => { g with resv := g.resv - 6 })) := by
  unfold State.energy
  rw [crew_seated]
  rfl

/-- A block queue to the execute slice with a block at its head, from it, and a list queue to it. -/
def toExecute (b : Block) : Queue := queue .block .ae false true [.data (.block b)]

/-- 11 R313: nothing declared, a false tile predicate, fewer than 32 threads, for tiles, lists and queues. -/
theorem witness_CollectiveWordsAreCheckedInOrder :
    (∀ i ∈ [Instr.mma ⟨0, 1, 0, 16, false, 0, 0⟩, .mmaz ⟨0, 1, 0, 16, false, 0, 0⟩, .tcfg ⟨0, 1, false, false⟩, .tzero ⟨0, 1⟩,
        .kopNz ⟨0, 1, 0⟩, .tchk ⟨0, 1, 0, false⟩, .tmovfF32 ⟨0, 1, 24, 3⟩, .tmovfBf16 ⟨0, 1, 24, true⟩, .tmovtF32 ⟨0, 1, 24, 3⟩,
        .tmovtBf16 ⟨0, 1, 24, true⟩, .tdrain ⟨0, 1, 1⟩, .tdrainAdd ⟨0, 1, 1⟩, .tstsp ⟨0, 1, 1⟩],
      Issued i (fun _ p g => ¬1 < g.tiles.length ∧ g.kp 0 = false ∧ p.sel.length ≠ 32) (armed [0] 4 [] id)) ∧
    (∀ i ∈ [Instr.mma ⟨0, 0, 0, 16, true, 0, 0⟩, .mmaz ⟨0, 0, 0, 16, true, 0, 0⟩, .tcfg ⟨0, 0, false, false⟩, .tzero ⟨0, 0⟩,
        .kopMov ⟨0, 0, 0⟩, .kopAnd ⟨0, 0, 0⟩, .kopOr ⟨0, 0, 0⟩, .kopAndn ⟨0, 0, 0⟩, .kopNz ⟨0, 0, 0⟩, .kopFromp ⟨0, 0, 0⟩,
        .kopTop ⟨0, 0, 0⟩, .tchk ⟨0, 0, 0, false⟩, .tmovfF32 ⟨0, 0, 24, 3⟩, .tmovfBf16 ⟨0, 0, 24, true⟩,
        .tmovtF32 ⟨0, 0, 24, 3⟩, .tmovtBf16 ⟨0, 0, 24, true⟩],
      Issued i (fun _ _ g => 0 < g.tiles.length ∧ 1 < g.ols.length ∧ g.kp 0 = false) (armed [0] 4 [] id) ∧
      Issued i (fun _ p g => 0 < g.tiles.length ∧ 1 < g.ols.length ∧ g.kp 0 = true ∧ p.sel.length ≠ 32)
        (armed [0] 4 [] (fun g => g.setKp 0 true))) ∧
    (∀ i ∈ [Instr.tdrain ⟨15, 0, 1⟩, .tdrainAdd ⟨15, 0, 1⟩, .tstsp ⟨15, 0, 1⟩, .qpopb ⟨0, 0, 1, 7⟩],
      Issued i (fun s p g => 0 < g.tiles.length ∧ s.queueFor p.gk 1 = some (toExecute 0) ∧ g.kp 15 = true ∧ p.sel.length ≠ 32)
        (armed [0] 4 [toExecute 0] id) ∧
      Issued i (fun s p _ => s.queueFor p.gk 1 = none) (armed [0] 4 [] id)) ∧
    Issued (.qpushb ⟨0, 0, 1⟩) (fun s p _ => s.queueFor p.gk 1 = some (queue .block .es true false []) ∧ p.sel.length ≠ 32)
      (armed [0] 4 [queue .block .es true false []] id) ∧
    Issued (.qpopo ⟨true, 1⟩) (fun s p g => 1 < g.ols.length ∧ s.queueFor p.gk 1 = some (queue .outlier .ae false true []) ∧
      p.sel.length ≠ 32) (armed [0] 4 [queue .outlier .ae false true []] id) := by
  refine ⟨fun i hi => ?_, fun i hi => ?_, fun i hi => ?_, issued_of (by decide +kernel), issued_of (by decide +kernel)⟩
  · fin_cases hi <;> exact issued_of (by decide +kernel)
  · fin_cases hi <;> exact ⟨issued_of (by decide +kernel), issued_of (by decide +kernel)⟩
  · fin_cases hi <;> exact ⟨issued_of (by decide +kernel), issued_of (by decide +kernel)⟩

/-- 11 R321 to R330: a free tile, and the last registers of the file. -/
theorem witness_TileWordsGiveTheirResults :
    ∀ i ∈ [Instr.tcfg ⟨15, 0, false, false⟩, .tcfg ⟨15, 0, true, true⟩, .tzero ⟨15, 0⟩, .kopMov ⟨15, 15, 0⟩, .kopAnd ⟨15, 0, 1⟩,
        .kopOr ⟨15, 0, 1⟩, .kopAndn ⟨15, 0, 15⟩, .kopNz ⟨15, 0, 14⟩, .kopFromp ⟨15, 0, 7⟩, .kopTop ⟨15, 7, 0⟩, .tchk ⟨15, 0, 31, true⟩,
        .tmovfF32 ⟨15, 0, 24, 3⟩, .tmovfBf16 ⟨15, 0, 24, true⟩, .tmovtF32 ⟨15, 0, 24, 3⟩, .tmovtBf16 ⟨15, 0, 24, true⟩],
      MeetsAll i 15 (fun s p g => tileFree s p g 0 ∧
        ∀ t, t < 32 → ∀ r ∈ regRun 24 8, g.regState true t r = .full ∧ ((g.thr t).cell true r).ecc = false) (armed lanes 4 [] id) := by
  intro i hi
  fin_cases hi <;> exact meetsAll_of (by decide +kernel)

/-- An MMA that has been issued. -/
def waitingMma : PendMma :=
  { tile := 0, pc := 0, zero := true, fa := List.replicate 32 4, fb := List.replicate 32 4, la := [], lb := [], inj1 := none, inj2 := none }

/-- 11 R312 to R321: fragments at v0 and at the last place of the file, each of good blocks of one format, and a waiting MMA
that a soft error strikes in the last row and column. -/
theorem witness_MmaReadsAtIssueAndWritesAtCompletion :
    (∀ i ∈ [Instr.mma ⟨15, 0, 0, 16, false, 2, 4⟩, .mmaz ⟨15, 0, 0, 16, false, 2, 4⟩],
      MeetsAll i 15 (mmaPasses ⟨15, 0, 0, 16, false, 2, 4⟩) (armed lanes 4 [] id)) ∧
    (∃ g, (armed lanes 4 [] (fun g => { g with mmas := [waitingMma] })).group (key true) = some g ∧ g.mmas = [waitingMma] ∧
      waitingMma.tile < g.tiles.length ∧ g.threads.length = 32) ∧
    strikes waitingMma { grp := 0, row := 31, col := 31, bit := 0 } := by
  refine ⟨?_, some_of (by decide +kernel), by decide +kernel, by decide +kernel, by decide +kernel⟩
  intro i hi
  refine ⟨turn true lanes, crew 4, ⟨rfl, crew_seated lanes 4 [], ?_⟩, by decide +kernel, rfl, ?_⟩
  · fin_cases hi <;> decide +kernel
  have ha : fragmentAt (crew 4) 0 = List.replicate 32 4#512 := by decide +kernel
  have hb : fragmentAt (crew 4) 16 = List.replicate 32 4#512 := by decide +kernel
  refine ⟨⟨by decide +kernel, by decide +kernel, by decide +kernel, by decide +kernel, by decide +kernel, by decide +kernel,
    by decide +kernel, ?_⟩, _, armed_energy⟩
  simp only [ha, hb]
  exact ⟨fun x hx => by rw [List.eq_of_mem_replicate hx]; decide +kernel,
    fun x hx => by rw [List.eq_of_mem_replicate hx]; decide +kernel, by decide +kernel⟩

/-- A drain descriptor that the rules accept, and one that they refuse; an absent head, a poison entry and a marker. -/
theorem witness_DrainWordsTakeTheirDescriptors :
    (∀ i ∈ [Instr.tdrain ⟨15, 0, 1⟩, .tdrainAdd ⟨15, 0, 1⟩, .tstsp ⟨15, 0, 1⟩], ∀ b ∈ [0#512, 0x100000000000000000000000000#512],
      MeetsAll i 15 (fun s p g => 0 < g.tiles.length ∧ s.queueFor p.gk 1 = some (toExecute b) ∧
        (toExecute b).mode = .block ∧ (toExecute b).dir = .ae ∧ (toExecute b).cons = p.gk ∧
        ((toExecute b).fifo 0).head = some (.data (.block b)) ∧ (s.energy p.gk 2).isSome = true) (armed lanes 4 [toExecute b] id)) ∧
    (∀ i ∈ [Instr.tdrain ⟨15, 0, 1⟩, .tdrainAdd ⟨15, 0, 1⟩, .tstsp ⟨15, 0, 1⟩],
      ∀ xs ∈ [[], [QSlot.poison { va := 0, sp := false, rtag := 3, kind := 1, cls := 0 }], [.marker true]],
      MeetsAll i 15 (fun s p g => 0 < g.tiles.length ∧ s.queueFor p.gk 1 = some (queue .block .ae false true xs) ∧
        ((queue .block .ae false true xs).fifo 0).head = xs.head?) (armed lanes 4 [queue .block .ae false true xs] id)) ∧
    (∀ op ∈ [0, 1, 2], ¬invalidDescriptor op 0 ∧ invalidDescriptor op 0x100000000000000000000000000#512) := by
  refine ⟨fun i hi b hb => ?_, fun i hi xs hx => ?_, ?_⟩
  · rw [List.mem_pair] at hb
    obtain rfl | rfl := hb <;> fin_cases hi <;> exact meetsAll_of (by decide +kernel)
  · fin_cases hi <;> fin_cases hx <;> exact meetsAll_of (by decide +kernel)
  · intro op ho
    refine ⟨?_, Or.inl (by decide +kernel)⟩
    fin_cases ho <;> simp [invalidDescriptor, beyondSpad, descriptorOf, bitsAt]

/-! ### What the statements assume: queues -/

/-- The hypotheses of a word on queue q1. -/
abbrev onQ1 (m : List QMode) (d : Bool → List QDir) (prod : Option Bool) (C : State → ThreadKey → Queue → Fifo → Prop) (s : State)
    (th : ThreadKey) : Prop := hasQueue 1 m d prod s th.gk ∧ queueMeets 1 C s th

/-- 06 R186, 09 R267: a value, nothing, a marker, a poison entry at the head; v31, x31 and x0. -/
theorem witness_PopsFollowTheRows :
    let r : Poison := { va := 0, sp := false, rtag := 0xFFFF, kind := 0, cls := 0 }
    let C (x : Option QSlot) : State → ThreadKey → Prop := onQ1 [.lane] popsFrom (some false) (fun _ _ _ fi => fi.head = x)
    Meets (.qpop ⟨7, 31, 1, 7⟩) 7#3 [31] [31] (C (some (.data (.lane 5)))) (queued true [0] [] (queue .lane .ae false true [.data (.lane 5)])) ∧
    Meets (.qpop ⟨7, 0, 1, 0⟩) 7#3 [0] [0] (C (some (.data (.lane 5)))) (queued false [0] [] (queue .lane .ea true false [.data (.lane 5)])) ∧
    Meets (.qpop ⟨7, 31, 1, 7⟩) 7#3 [31] [31] (C none) (queued false [0] [] (queue .lane .ea true false [])) ∧
    Meets (.qpop ⟨7, 31, 1, 0⟩) 7#3 [31] [31] (C none) (queued false [0] [] (queue .lane .ea true false [])) ∧
    Meets (.qpop ⟨7, 31, 1, 6⟩) 7#3 [31] [31] (C (some (.marker true))) (queued true [0] [] (queue .lane .ae false true [.marker true])) ∧
    Meets (.qpop ⟨7, 0, 1, 7⟩) 7#3 [0] [0] (fun s th => ¬discards th 0#5 ∧ C (some (.poison r)) s th)
      (queued true [0] [] (queue .lane .ae false true [.poison r])) ∧
    Meets (.qpop ⟨7, 0, 1, 7⟩) 7#3 [0] [0] (fun s th => discards th 0#5 ∧ C (some (.poison r)) s th)
      (queued false [0] [] (queue .lane .ea true false [.poison r])) ∧
    Meets (.qpop ⟨7, 0, 1, 7⟩) 7#3 [0] [0] (fun s th => ¬discards th 0#5 ∧ C (some (.marker true)) s th)
      (queued true [0] [] (queue .lane .ae false true [.marker true])) ∧
    Meets (.qpop ⟨7, 0, 1, 7⟩) 7#3 [0] [0] (fun s th => discards th 0#5 ∧ C (some (.marker false)) s th)
      (queued false [0] [] (queue .lane .ea true false [.marker false])) := by
  refine ⟨?_, ?_, ?_, ?_, ?_, ?_, ?_, ?_, ?_⟩
  · exact meets_of (e := true) (by decide +kernel) ⟨hasQueue_of (by decide +kernel), queueMeets_of (by decide +kernel)⟩
  · exact meets_of (e := false) (by decide +kernel) ⟨hasQueue_of (by decide +kernel), queueMeets_of (by decide +kernel)⟩
  · exact meets_of (e := false) (by decide +kernel) ⟨hasQueue_of (by decide +kernel), queueMeets_of (by decide +kernel)⟩
  · exact meets_of (e := false) (by decide +kernel) ⟨hasQueue_of (by decide +kernel), queueMeets_of (by decide +kernel)⟩
  · exact meets_of (e := true) (by decide +kernel) ⟨hasQueue_of (by decide +kernel), queueMeets_of (by decide +kernel)⟩
  · exact meets_of (e := true) (by decide +kernel) ⟨by decide, hasQueue_of (by decide +kernel), queueMeets_of (by decide +kernel)⟩
  · exact meets_of (e := false) (by decide +kernel) ⟨by decide, hasQueue_of (by decide +kernel), queueMeets_of (by decide +kernel)⟩
  · exact meets_of (e := true) (by decide +kernel) ⟨by decide, hasQueue_of (by decide +kernel), queueMeets_of (by decide +kernel)⟩
  · exact meets_of (e := false) (by decide +kernel) ⟨by decide, hasQueue_of (by decide +kernel), queueMeets_of (by decide +kernel)⟩

/-- An STQ that waits for the first position of the queue. -/
def waitingStq : Stq :=
  { id := 0, thr := ⟨key true, 0⟩, fifo := 0, pos := 0, va := 0x8000, phys := { pa := 0x8000, slot := 0, epoch := 0, pte := 31, lvl := 4 }, data := none }

/-- Its FIFOs as changed. -/
def lined (q : Queue) (f : Fifo → Fifo) : Queue := { q with fifos := q.fifos.map f }

/-- 09 R266, R270, 06 R186: one position free, none, a close; pops ahead of the pushes, with a register and an STQ that wait for a
position; the lane of a thread that has exited; each word and each slice. -/
theorem witness_PushesAndMarkersJoinTheirQueue :
    let three : List QSlot := List.replicate 3 (.data (.lane 5))
    let full : List QSlot := List.replicate 4 (.data (.lane 5))
    (∀ x ∈ [(false, QDir.ae, Instr.qpush ⟨7, 0, 1⟩), (true, .ea, .qpush ⟨7, 31, 1⟩), (true, .es, .qpush ⟨7, 0, 1⟩)],
      Meets x.2.2 7#3 [0, 31] [] (onQ1 [.lane] pushesTo (some true) (fun _ _ q f => takesMore q f 1))
        (queued x.1 [0] [] (queue .lane x.2.1 x.1 (!x.1) three))) ∧
    (∀ i ∈ [Instr.qpush ⟨7, 31, 1⟩, .qmark ⟨7, 1⟩, .qclose ⟨7, 1⟩],
      Meets i 7#3 [31] [] (onQ1 [.lane] pushesTo (some true) (fun _ _ q f =>
        f.closed = false ∧ f.dead = false ∧ q.limit < f.nextIn - f.nextOut + 1)) (queued true [0] [] (queue .lane .ea true false full)) ∧
      Meets i 7#3 [31] [] (onQ1 [.lane] pushesTo (some true) (fun _ _ _ f => f.closed = true))
        (queued true [0] [] (shut (queue .lane .ea true false three)))) ∧
    (∀ x ∈ [(QMode.lane, Instr.qmark ⟨7, 1⟩), (.block, .qmark ⟨7, 1⟩), (.lane, .qclose ⟨7, 1⟩), (.block, .qclose ⟨7, 1⟩),
        (.outlier, .qclose ⟨7, 1⟩)],
      Meets x.2 7#3 [] [] (onQ1 [.lane, .block, .outlier] (fun _ => [.ae, .ea]) (some true) (fun _ _ q f => takesMore q f 1))
        (queued false [0] [] (queue x.1 .ae false true three))) ∧
    (∀ i ∈ [Instr.qpush ⟨7, 31, 1⟩, .qmark ⟨7, 1⟩, .qclose ⟨7, 1⟩],
      Meets i 7#3 [31] [] (onQ1 [.lane] pushesTo (some true) (fun _ _ q f => runAhead q f 1))
        (queued true [0] [] (lined (queue .lane .ea true false []) (fun f => { f with nextOut := 1 }))) ∧
      Meets i 7#3 [31] [] (onQ1 [.lane] pushesTo (some true) (fun _ _ _ f => f.closed = false ∧ f.dead = true))
        (queued true [0] [] (lined (queue .lane .ea true false []) (fun f => { f with dead := true })))) ∧
    (let q := queue .lane .ae false true []
     let st : RegSt := .wait (.pos q.ref 0 0) 0
     ∃ g, (seat true [0] { worker with regs := updAt worker.regs 1 (fun _ => { val := 0, st := st, taint := false, ecc := false }) } id
         id id).group (key true) = some g ∧ (∀ e ∈ q.stqs, ¬(e.fifo = 0 ∧ e.pos = 0)) ∧ 0 < g.threads.length ∧
       (((g.thr 0).regs[1]?).map (fun x => x.st)) = some st) ∧
    ∃ e ∈ ({ queue .lane .ae false true [] with stqs := [waitingStq] } : Queue).stqs, e.fifo = 0 ∧ e.pos = 0 := by
  refine ⟨fun x hx => ?_, fun i hi => ?_, fun x hx => ?_, fun i hi => ?_, some_of (by decide +kernel),
    waitingStq, by decide +kernel, rfl, rfl⟩
  · fin_cases hx
    · exact meets_of (e := false) (by decide +kernel) ⟨hasQueue_of (by decide +kernel), queueMeets_of (by decide +kernel)⟩
    · exact meets_of (e := true) (by decide +kernel) ⟨hasQueue_of (by decide +kernel), queueMeets_of (by decide +kernel)⟩
    · exact meets_of (e := true) (by decide +kernel) ⟨hasQueue_of (by decide +kernel), queueMeets_of (by decide +kernel)⟩
  · fin_cases hi <;> exact
      ⟨meets_of (e := true) (by decide +kernel) ⟨hasQueue_of (by decide +kernel), queueMeets_of (by decide +kernel)⟩,
       meets_of (e := true) (by decide +kernel) ⟨hasQueue_of (by decide +kernel), queueMeets_of (by decide +kernel)⟩⟩
  · fin_cases hx <;> exact
      meets_of (e := false) (by decide +kernel) ⟨hasQueue_of (by decide +kernel), queueMeets_of (by decide +kernel)⟩
  · fin_cases hi <;> exact
      ⟨meets_of (e := true) (by decide +kernel) ⟨hasQueue_of (by decide +kernel), queueMeets_of (by decide +kernel)⟩,
       meets_of (e := true) (by decide +kernel) ⟨hasQueue_of (by decide +kernel), queueMeets_of (by decide +kernel)⟩⟩

/-- 09 R271: a head that is a value, a marker, absent; the limits 0, 1, the depth, the depth and one. -/
theorem witness_QueueTestsAndLimitsFollowTheTable :
    let any : Bool → List QDir := fun _ => [.ae, .ea, .es]
    let all : List QMode := [.lane, .block, .outlier]
    (∀ xs ∈ [[], [QSlot.data (.lane 5)], [.marker false]],
      Meets (.qpeek ⟨7, 31, 1, 0⟩) 7#3 [31] [31] (onQ1 [.lane] any (some false) (fun _ _ _ _ => True))
        (queued true [0] [] (queue .lane .ae false true xs)) ∧
      (∀ a : BitVec 5, a ≤ 2 → Meets (.qtest ⟨7, a, 1, 0⟩) 7#3 [] [] (onQ1 all any none (fun _ _ _ _ => True))
        (queued true [0] [] (queue .lane .ae false true xs))) ∧
      Meets (.qstat ⟨7, 31, 1⟩) 7#3 [31] [31] (onQ1 all any none (fun _ _ _ _ => True))
        (queued true [0] [] (queue .outlier .ae false true xs))) ∧
    (∀ v ∈ [1, 4], Meets (.qcfg ⟨7, 3, 1⟩) 7#3 [3] [] (onQ1 all any none (fun s th q _ =>
        (s.thread th).rn th.gk.exe 3 ≠ 0 ∧ (s.thread th).rn th.gk.exe 3 ≤ q.depth))
      (queued true [0] [(3, v)] (queue .lane .ae false true []))) ∧
    (∀ v ∈ [0, 5], Meets (.qcfg ⟨7, 3, 1⟩) 7#3 [3] [] (onQ1 all any none (fun s th q _ =>
        (s.thread th).rn th.gk.exe 3 = 0 ∨ q.depth < (s.thread th).rn th.gk.exe 3))
      (queued true [0] [(3, v)] (queue .lane .ae false true []))) := by
  refine ⟨fun xs hx => ⟨?_, fun a ha => ?_, ?_⟩, fun v hv => ?_, fun v hv => ?_⟩
  · fin_cases hx <;> exact
      meets_of (e := true) (by decide +kernel) ⟨hasQueue_of (by decide +kernel), queueMeets_of (by decide +kernel)⟩
  · have ha : a = 0 ∨ a = 1 ∨ a = 2 := by bv_omega
    obtain rfl | rfl | rfl := ha <;> fin_cases hx <;> exact
      meets_of (e := true) (by decide +kernel) ⟨hasQueue_of (by decide +kernel), queueMeets_of (by decide +kernel)⟩
  · fin_cases hx <;> exact
      meets_of (e := true) (by decide +kernel) ⟨hasQueue_of (by decide +kernel), queueMeets_of (by decide +kernel)⟩
  · fin_cases hv <;> exact
      meets_of (e := true) (by decide +kernel) ⟨hasQueue_of (by decide +kernel), queueMeets_of (by decide +kernel)⟩
  · fin_cases hv <;> exact
      meets_of (e := true) (by decide +kernel) ⟨hasQueue_of (by decide +kernel), queueMeets_of (by decide +kernel)⟩

theorem raisesNot_of {q : Queue} {n : Nat} (h : firstPoison q n = none) : ∀ r, ¬raisesNow q n r :=
  fun r hr => absurd (h.symm.trans hr.1) (by simp)

/-- 09 R268, R269: a set of one block and one of 32 that ends at v31, with no poison; a marker; poison at the head and behind a block;
an absent head for the marker form; no room, and more blocks than the limit; a list, an absent one, poison and a marker. -/
theorem witness_BlockAndListTransfersMoveWholeSets :
    let q (m : QMode) (d : QDir) (n : Nat) (xs : List QSlot) : Queue := { queue m d (d == .es) (d == .ae) xs with depth := n, limit := n }
    let seen (x : Queue) (rs : List Nat) (s : State) (p : Pass) (g : Group) : Prop :=
      s.queueFor p.gk 1 = some x ∧ ∀ t, t < 32 → ∀ r ∈ rs, g.regState true t r = .full ∧ ((g.thr t).cell true r).ecc = false
    MeetsAll (.qpopb ⟨31, 0, 1, 7⟩) 15 (seen (q .block .ae 4 []) (setRegs 31 1)) (queued true lanes [] (q .block .ae 4 [])) ∧
    MeetsAll (.qpopb ⟨16, 31, 1, 0⟩) 15 (seen (q .block .ae 32 (List.replicate 32 (.data (.block 0)))) (setRegs 16 32))
      (queued true lanes [] (q .block .ae 32 (List.replicate 32 (.data (.block 0))))) ∧
    MeetsAll (.qpopb ⟨31, 0, 1, 0⟩) 15 (seen (q .block .ae 4 [.marker true]) (setRegs 31 1))
      (queued true lanes [] (q .block .ae 4 [.marker true])) ∧
    MeetsAll (.qpushb ⟨16, 31, 1⟩) 15 (fun s p g => seen (q .block .es 32 []) (setRegs 16 32) s p g ∧
        (s.team p.gk.team).bind (fun t => t.queue { name := 1, inst := 0 }) = some (q .block .es 32 []) ∧
        takesMore (q .block .es 32 []) (fifoOf []) 32) (queued true lanes [] (q .block .es 32 [])) ∧
    (∀ x ∈ [(1, []), (32, List.replicate 32 (QSlot.data (.block 0)))], ∀ r, ¬raisesNow (q .block .ae 32 x.2) x.1 r) ∧
    (let r : Poison := { va := 0, sp := false, rtag := 3, kind := 1, cls := 0 }
     (∀ x ∈ [(0, [QSlot.poison r]), (1, [.data (.block 0), .poison r])],
       raisesNow (q .block .ae 4 x.2) (x.1 + 1) r ∧ (q .block .ae 4 x.2).fifo 0 = fifoOf x.2 ∧
       MeetsAll (.qpopb ⟨30, BitVec.ofNat 5 x.1, 1, 7⟩) 15 (seen (q .block .ae 4 x.2) (setRegs 30 (x.1 + 1)))
         (queued true lanes [] (q .block .ae 4 x.2)))) ∧
    MeetsAll (.qpopb ⟨31, 0, 1, 0⟩) 15 (seen (q .block .ae 4 []) (setRegs 31 1)) (queued true lanes [] (q .block .ae 4 [])) ∧
    MeetsAll (.qpushb ⟨16, 4, 1⟩) 15 (fun s p g => seen (q .block .es 4 []) (setRegs 16 5) s p g ∧ (q .block .es 4 []).closed = false ∧
      (q .block .es 4 []).limit < 4 + 1) (queued true lanes [] (q .block .es 4 [])) ∧
    (let full := q .block .es 4 (List.replicate 4 (.data (.block 0)))
     MeetsAll (.qpushb ⟨16, 0, 1⟩) 15 (fun s p g => seen full (setRegs 16 1) s p g ∧ full.closed = false ∧ 0 + 1 ≤ full.limit ∧
       (full.fifo 0).dead = false ∧ full.limit < (full.fifo 0).nextIn - (full.fifo 0).nextOut + (0 + 1)) (queued true lanes [] full)) ∧
    (∀ x ∈ [QSlot.poison { va := 0, sp := false, rtag := 3, kind := 1, cls := 0 }, .marker true],
      (entryPoison (q .outlier .ae 4 [x]) (some x)).isSome = true ∧ MeetsAll (.qpopo ⟨true, 1⟩) 15 (fun s p g =>
        1 < g.ols.length ∧ (g.ol 1).st = .full ∧ s.queueFor p.gk 1 = some (q .outlier .ae 4 [x])) (queued true lanes [] (q .outlier .ae 4 [x]))) ∧
    (∀ xs ∈ [[], [QSlot.data (.olist 1 [0])]], MeetsAll (.qpopo ⟨true, 1⟩) 15 (fun s p g =>
        1 < g.ols.length ∧ (g.ol 1).st = .full ∧ s.queueFor p.gk 1 = some (q .outlier .ae 4 xs)) (queued true lanes [] (q .outlier .ae 4 xs))) := by
  intro q seen
  refine ⟨meetsAll_of (by decide +kernel), meetsAll_of (by decide +kernel), meetsAll_of (by decide +kernel),
    meetsAll_of (by decide +kernel), fun x hx => ?_, fun x hx => ?_, meetsAll_of (by decide +kernel), meetsAll_of (by decide +kernel),
    meetsAll_of (by decide +kernel), fun x hx => ?_, fun xs hx => ?_⟩
  · fin_cases hx <;> exact raisesNot_of (by decide +kernel)
  · fin_cases hx
    · exact ⟨⟨by decide +kernel, .inl (by decide +kernel)⟩, by decide +kernel, meetsAll_of (by decide +kernel)⟩
    · refine ⟨⟨by decide +kernel, .inr fun j hj => ?_⟩, by decide +kernel, meetsAll_of (by decide +kernel)⟩
      have hj : j = 0 ∨ j = 1 := by omega
      obtain rfl | rfl := hj <;> exact ⟨_, rfl, by decide +kernel⟩
  · fin_cases hx <;> exact ⟨by decide +kernel, meetsAll_of (by decide +kernel)⟩
  · fin_cases hx <;> exact meetsAll_of (by decide +kernel)

/-! ### What the statements assume: memory -/

/-- 09 R257 to R259: the last doubleword of the page by a negative offset, an acquiring load, a scratchpad load, a consume. -/
theorem witness_LoadsReadTheirLocation :
    let k (d : Nat) (w : BitVec 3) (o : Order) (c : Option Nat) : LoadKind := { d := d, w := w, ord := o, consume := c }
    let L (i : Instr) (rs : List Nat) (d : Nat) (kd : LoadKind) (req : State → ThreadKey → MemReq) (s : State) : Prop :=
      Meets i 7#3 rs [d] (fun t th => loads kd false (req t th) (s.nowId (key false).team) t th) s
    L (.ld ⟨31, 1, 3, 0xFFF⟩) [1, 31] 31 (k 31 3 .plain none) (memReq ⟨31, 1, 3, 0xFFF⟩) (alone false [(1, 0x10000)]) ∧
    L (.ld ⟨0, 1, 6, 0⟩) [1, 0] 0 (k 0 6 .plain none) (memReq ⟨0, 1, 6, 0⟩) (alone false [(1, 0)]) ∧
    L (.ldMa ⟨7, 2, 1, false, 5, 0⟩) [1, 2] 2 (k 2 0 (.ofOs 5) none) (maReq ⟨7, 2, 1, false, 5, 0⟩) (alone false [(1, 0xFFFF)]) ∧
    L (.ldMa ⟨7, 2, 1, true, 0, 2⟩) [1, 2] 2 (k 2 2 (.ofOs 0) none) (maReq ⟨7, 2, 1, true, 0, 2⟩) (alone false [(1, 2 ^ 18 - 4)]) ∧
    L (.ldc ⟨7, 2, 1, false, 10, 3⟩) [1, 2] 2 (k 2 3 .plain (some 5)) (maReq ⟨7, 2, 1, false, 10, 3⟩) (alone false [(1, 8)]) ∧
    (loadValue 4 0x80 = 2 ^ 64 - 128 ∧ loadValue 0 0x80 = 0x80) := by
  refine ⟨?_, ?_, ?_, ?_, ?_, by decide +kernel⟩
  all_goals exact meets_of (e := false) (by decide +kernel) (loads_of (by decide +kernel) (by decide +kernel))

/-- An address translated by the placed leaf, under a slot. -/
def physAt (slot a : Nat) : Phys := { pa := a, slot := slot, epoch := 0, pte := placedPte.toNat, lvl := 4 }

/-- A store of lane 0 that waits to be ordered: 8 bytes at an address. -/
def waiting (spad : Bool) (slot a : Nat) : PendStore :=
  { id := 5, gk := key false, pc := 0, spad := spad, phys := physAt slot a, rel := false
    lanes := [{ thr := 0, addr := a, n := 8, val := 0x1122334455667788, va := a, lvl := 4 }] }

/-- The access team with such a store. -/
def storing (st : PendStore) : State := seat false [0] worker id (fun t => { t with stores := [st], nextId := 9 }) id

/-- 05 R156, 09 R260: a load inside a waiting store, one of the scratchpad, one of each kind of line at its home slice, and a
return for which a register waits. -/
theorem witness_LoadsFindTheirValue :
    let l (sp : Bool) (a n : Nat) : Loc := { spad := sp, addr := a, n := n, phys := physAt 0 a }
    (∃ x, ((storing (waiting false 0 0x100)).storesAt (me false) 9 false 0 0x104 4).getLast? = some x ∧ x.addr ≤ 0x104 ∧
      0x104 + 4 ≤ x.addr + x.n) ∧
    ((alone false []).storesAt (me false) ((alone false []).nowId (key false).team) true 0 0 8 = [] ∧
      ((alone false []).team (key false).team).isSome = true) ∧
    (∀ s ∈ [alone false [], { alone false [] with bad := [0] }, { alone false [] with tags := [(0, (3, 1))] }],
      s.storesAt (me false) (s.nowId (key false).team) false 0 0 8 = [] ∧ s.shared = true) ∧
    good ((alone false []).loadFrom (me false) true (l false 0 8)).1 = true ∧
    (let d : LaneDst := { thr := me false, cell := 1, val := 7#64, taint := true }
     let r : LineReq := { id := 4, gk := key false, spad := false, line := 0, plain := true, lanes := [d], t0 := 0, pc := 0 }
     let s : State := seat false [0] { worker with regs := updAt worker.regs 1 (fun _ => { val := 0, st := .load 4, taint := false, ecc := false }) } id
       (fun t => { t with reqs := [r] }) id
     (s.team (key false).team).bind (fun t => t.reqs.find? (fun x => x.id == 4)) = some r ∧
       (s.thread (me false)).regs[1]? = some { val := 0, st := .load 4, taint := false, ecc := false }) := by
  refine ⟨some_of (by decide +kernel), by decide +kernel, ?_, by decide +kernel, by decide +kernel⟩
  intro s hs
  fin_cases hs <;> decide +kernel

/-- 09 R257 to R259: a store to the last doubleword of the page, a releasing one, one to the end of the scratchpad. -/
theorem witness_StoresWaitToBeOrdered :
    let S (i : Instr) (rs : List Nat) (req : State → ThreadKey → MemReq) (s : State) : Prop :=
      Meets i 7#3 rs [] (fun t th => (req t th).bad = false ∧ ∃ l u, t.locate th .write (req t th) = .ok l u ∧
          (l.spad = true ∨ (u.joinsStore th (s.nowId (key false).team) l).isSome = true ∨ u.collRoom th.gk.team 1 = true)) s ∧
        Reaches false .write req (fun _ _ _ => false) s
    S (.st ⟨31, 1, 3, 0xFFF⟩) [1, 31] (memReq ⟨31, 1, 3, 0xFFF⟩) (alone false [(1, 0x10000)]) ∧
    S (.stMa ⟨7, 0, 1, false, 10, 0⟩) [1, 0] (maReq ⟨7, 0, 1, false, 10, 0⟩) (alone false [(1, 0xFFFF)]) ∧
    S (.stMa ⟨7, 2, 1, true, 0, 2⟩) [1, 2] (maReq ⟨7, 2, 1, true, 0, 2⟩) (alone false [(1, 2 ^ 18 - 4)]) := by
  refine ⟨?_, ?_, ?_⟩
  all_goals exact ⟨meets_of (e := false) (by decide +kernel) ⟨by decide +kernel, located (by decide +kernel)⟩,
    reachable_of (by decide +kernel)⟩

/-- 05 R161, 09 R259: a store into a line of its own slot and into one of another, and one to the scratchpad. -/
theorem witness_OrderedStoresWriteTheirBytes :
    (∀ st ∈ [waiting false 0 0x138, waiting false 2 0x100, waiting true 0 0x138],
      ((storing st).team (key false).team).bind (fun t => t.stores.find? (fun x => x.id == 5)) = some st ∧
      (storing st).storeReady st = true) ∧
    (let st := waiting false 0 0x138
     st.lanes ≠ [] ∧ (∀ l ∈ st.lanes, inLine 4 l ∧ l.n ≠ 0) ∧ (storing st).keyHolds st.phys = true ∧
      (storing st).partOf ((storing st).ctxOf (key false).team.job) = some 0 ∧ (storing st).memoryWf ∧ Definite (storing st) ∧
      ownCopy (storing st) (some 0) 0 4) ∧
    (storing (waiting false 2 0x100)).keyHolds (waiting false 2 0x100).phys = false ∧
    ((storing (waiting true 0 0x138)).team (key false).team).map (fun t => Memory.wf t.spad) = some true := by
  refine ⟨fun st hs => ?_, ⟨by decide +kernel, by simp only [inLine]; decide +kernel, by decide +kernel, by decide +kernel, ?_, fun _ _ => rfl, ?_⟩,
    by decide +kernel, by decide +kernel⟩
  · fin_cases hs <;> decide +kernel
  · exact ⟨by decide +kernel, by decide +kernel, .nil⟩
  · intro x hx
    cases hx

/-- 09 R261, R262: a word and a doubleword, memory and scratchpad, plain and ordered; CAS. -/
theorem witness_AtomicsAreOneReadModifyWrite :
    let A (i : Instr) (rs ds : List Nat) (o : Order) (req : State → ThreadKey → MemReq) (s : State) : Prop :=
      Meets i 7#3 rs ds (fun t th => (req t th).bad = false ∧
          ∃ l u bs v, t.locate th .atomic (req t th) = .ok l u ∧
            u.collFull th (s.nowId (key false).team) false l.spad (l.addr / 64) = false ∧ atomicRead u th l = (.ok bs, v)) s ∧
        Reaches false .atomic req (fun s th => s.atomWaits th o) s
    A (.atom ⟨0, 31, 1, 2, 15, false, true⟩) [1, 2, 31] [31] (.ofOs 15) (atReq 1 false true) (alone false [(1, 0xFFF8)]) ∧
    A (.atomMinmax ⟨3, 31, 1, 2, 0, true, false⟩) [1, 2, 31] [31] (.ofOs 0) (atReq 1 true false) (alone false [(1, 2 ^ 18 - 4)]) ∧
    A (.red ⟨6, 1, 0, 10, false, false⟩) [1, 0] [] (.ofOs 10) (atReq 1 false false) (alone false [(1, 4)]) ∧
    A (.redMinmax ⟨0, 1, 2, 0, false, true⟩) [1, 2] [] (.ofOs 0) (atReq 1 false true) (alone false [(1, 8)]) ∧
    A (.cas ⟨0, 31, 1, 2, 0, false, true⟩) [1, 2, 31, 31] [31] (.ofOs 0) (atReq 1 false true) (alone false [(1, 8)]) := by
  refine ⟨?_, ?_, ?_, ?_, ?_⟩
  all_goals exact ⟨meets_of (e := false) (by decide +kernel) ⟨by decide +kernel, atomic_of (by decide +kernel)⟩,
    reachable_of (by decide +kernel)⟩

/-! ### What the statements assume: engines -/

/-- 09 R272, R273: one position free, none, a close, a misaligned address; an STQ whose entry is there and not. -/
theorem witness_QueueLoadsAndStoresClaimPositions :
    let three : List QSlot := List.replicate 3 .claimed
    let access : Bool → List QDir := fun _ => [.ae]
    let F (i : Instr) (m : List QMode) (C : State → ThreadKey → Queue → Fifo → Prop) (s : State) : Prop :=
      Meets i 7#3 [2] [] (onQ1 m access (some true) C) s
    (∀ x ∈ [(Instr.ldq ⟨7, 2, 1⟩, QMode.lane, 4), (.ldq ⟨7, 2, 1⟩, .outlier, 64), (.ldbq ⟨7, 2, 1⟩, .block, 64)],
      (∀ q' ∈ [queue x.2.1 .ae false true three, lined (queue x.2.1 .ae false true three) (fun f => { f with dead := true }),
          lined (queue x.2.1 .ae false true []) (fun f => { f with nextOut := 1 })],
        F x.1 [x.2.1] (fun s th q fi => (fi.dead = true ∨ takesMore q fi 1 ∨ runAhead q fi 1) ∧
            s.collRoom th.gk.team (entryLines (entryKind q)) = true ∧ fi.closed = false ∧ xreg s th 2 % entryAlign q = 0)
          (queued false [0] [(2, x.2.2)] q')) ∧
      F x.1 [x.2.1] (fun s th q fi => fi.closed = false ∧ fi.dead = false ∧ q.limit < fi.nextIn - fi.nextOut + 1 ∧
        xreg s th 2 % entryAlign q = 0) (queued false [0] [(2, x.2.2)] (queue x.2.1 .ae false true (.claimed :: three))) ∧
      F x.1 [x.2.1] (fun _ _ _ fi => fi.closed = true) (queued false [0] [(2, 1)] (shut (queue x.2.1 .ae false true three))) ∧
      F x.1 [x.2.1] (fun s th q fi => fi.closed = false ∧ xreg s th 2 % entryAlign q ≠ 0)
        (queued false [0] [(2, x.2.2 / 2)] (queue x.2.1 .ae false true three))) ∧
    (∀ x ∈ [(QMode.lane, [QSlot.data (.lane 5)]), (.block, [.claimed])],
      let s := queued false [0] [(2, 64)] (queue x.1 .es true false x.2)
      Meets (.stq ⟨7, 2, 1⟩) 7#3 [2] [] (fun s th =>
        hasQueue 1 [.lane, .block] (fun _ => [.es]) (some false) s th.gk ∧ (stqReq ⟨7, 2, 1⟩ s th).bad = false ∧
          ∃ l t, s.locate th .write (stqReq ⟨7, 2, 1⟩ s th) = .ok l t ∧ (t.queueFor th.gk 1).isSome = true) s ∧
      Reaches false .write (stqReq ⟨7, 2, 1⟩) (fun _ _ _ => false) s) := by
  refine ⟨fun x hx => ?_, fun x hx => ?_⟩
  · fin_cases hx
    all_goals
      refine ⟨fun q' hq => ?_, ?_, ?_, ?_⟩
      · fin_cases hq
        all_goals exact meets_of (e := false) (by decide +kernel) ⟨hasQueue_of (by decide +kernel), queueMeets_of (by decide +kernel)⟩
      all_goals exact meets_of (e := false) (by decide +kernel) ⟨hasQueue_of (by decide +kernel), queueMeets_of (by decide +kernel)⟩
  · fin_cases hx
    all_goals exact ⟨meets_of (e := false) (by decide +kernel)
      ⟨hasQueue_of (by decide +kernel), by decide +kernel, located (by decide +kernel)⟩, reachable_of (by decide +kernel)⟩

/-- Access lane 0 with the last replay-table entry in use. -/
def replaying (rs : List (Nat × Nat)) : State :=
  seat false [0] (holding rs) id
    (fun t => { t with replay := updAt t.replay 63 (fun _ => some { kind := .lane, va := 64, thr := me false }) }) id

/-- 09 R276, R277, R282: the last entry, a free one, nonzero upper bits, a misaligned and an aligned element. -/
theorem witness_ReplaysAndGathersReadOneLocation :
    Meets (.replay (ra 1)) 7#3 [1] [] (fun s th => xreg s th 1 < 2 ^ 16 ∧
      ∃ r, replayOf (ra 1) s th = some r ∧ s.collRoom th.gk.team (entryLines r.kind) = true ∧
        ∀ va ∈ replayLines r, s.translate (s.readsWho th) .read va ≠ .miss) (replaying [(1, 63)]) ∧
    Meets (.replay (ra 1)) 7#3 [1] [] (fun s th => replayOf (ra 1) s th = none) (replaying [(1, 62)]) ∧
    Meets (.replay (ra 1)) 7#3 [1] [] (fun s th => 2 ^ 16 ≤ xreg s th 1 ∧ (replayOf (ra 1) s th).isSome = true)
      (replaying [(1, 2 ^ 16 + 63)]) ∧
    (let f : OpGathr := ⟨7, 31, 1, 2, true⟩
     let s := alone false [(1, 8), (2, 7)]
     Meets (.gathR f) 7#3 [1, 2, 31] [31] (fun t th =>
       loads (gathKind f) false (gathReq f t th) (s.nowId (key false).team) t th) s ∧
     (s.team (key false).team).map (fun t => t.gsq) = some []) ∧
    Plain [(.pref ⟨7, 31, false⟩, [31]), (.pref ⟨7, 31, true⟩, [31])] (alone false []) := by
  refine ⟨meets_of (e := false) (by decide +kernel) ⟨by decide +kernel, some_of (by decide +kernel)⟩, ?_, ?_, ⟨?_, by decide +kernel⟩,
    plain_of (e := false) (by decide +kernel)⟩
  · exact meets_of (e := false) (by decide +kernel) (by decide +kernel)
  · exact meets_of (e := false) (by decide +kernel) (by decide +kernel)
  · exact meets_of (e := false) (by decide +kernel) (loads_of (by decide +kernel) (by decide +kernel))

/-- The access team with that record at the last place of the scratchpad. -/
def recorded (rs : List (Nat × Nat)) : State :=
  seat false [0] (holding rs) id
    (fun t => { t with spad := cellWrite [] (2 ^ 18 - 64) (leBytes 64 record16) }) (fun g => { g with resv := 8 })

/-- 09 R274, R275, R278 to R280: a record that is named and none, the largest and the smallest sizes. -/
theorem witness_EngineCommandsJoinTheirStream :
    (∀ x ∈ [(Instr.bcopy (rg 2 1 29), 0), (.bcopy (rg 2 1 29), 2 ^ 63 + 1), (.bstore (rg 2 1 29), 16)],
      Meets x.1 7#3 [1, 29, 30, 31, 2] [] (fun s th =>
        let a := xreg s th 1
        copyGood (xreg s th 2) a ∧ bits a 17 0 % 64 = 0 ∧ bits (xreg s th 31) 63 32 = 0 ∧
        s.storesAt th (s.nowId th.gk.team) true 0 (bits a 17 0) 64 = [] ∧ s.spadEcc th.gk.team (bits a 17 0) 64 = false ∧
        (layoutAt (rg 2 1 29) s th).invalid (bits a 35 18) = false ∧ granted s th (boxCost (layoutAt (rg 2 1 29) s th)))
        (recorded [(1, 2 ^ 18 - 64 + (2 ^ 18 - 64) * 2 ^ 18), (2, x.2)])) ∧
    (∀ x ∈ [(64, 1), (4096, 4)],
      Meets (.mcast (rg 2 1 3)) 7#3 [1, 3, 2] [] (fun s th =>
        let a := xreg s th 1
        let b := xreg s th 3
        copyGood (xreg s th 2) a ∧ bits a 17 0 % 64 = 0 ∧ bits a 35 18 % 64 = 0 ∧ bits b 63 44 = 0 ∧ bits b 31 28 = 0 ∧
        bits b 15 13 = 0 ∧ bits b 12 0 % 64 = 0 ∧ 64 ≤ bits b 12 0 ∧ bits b 12 0 ≤ 4096 ∧ bits b 43 32 ≠ 0 ∧ bits b 27 16 ≠ 0 ∧
        bits b 43 32 < 2 ^ (s.cluster th.gk.team).2.1 ∧ bits b 27 16 < 2 ^ (s.cluster th.gk.team).1 ∧
        bits a 17 0 + bits b 12 0 ≤ 2 ^ 18 ∧ bits a 35 18 + bits b 12 0 ≤ 2 ^ 18 ∧
        (s.energy th.gk ((bits b 12 0 + 1023) / 1024)).isSome = true)
        (recorded [(1, (2 ^ 18 - x.1) * 2 ^ 18), (3, x.1 + 2 ^ 16 + 2 ^ 32), (2, 2 ^ 63)])) ∧
    (∀ x ∈ [(0, 4096), (2 ^ 18 - 64, 1)],
      Meets (.qstream ⟨7, 2, 1, 1⟩) 7#3 [1, 2] [] (onQ1 [.block] (fun _ => [.ae]) (some true) (fun s th _ fi =>
        fi.closed = false ∧ xreg s th 2 % 64 = 0 ∧ 1 ≤ xreg s th 1 ∧ xreg s th 1 ≤ 4096 ∧
        xreg s th 2 + 64 * xreg s th 1 ≤ 2 ^ 18)) (queued false [0] [(2, x.1), (1, x.2)] (queue .block .ae false true []))) ∧
    (∀ x ∈ [(QMode.lane, 4, 1), (.block, 8, 65536 + 2 ^ 17)],
      Meets (.gath ⟨7, 2, 29, 1⟩) 7#3 [29, 30, 2] [] (onQ1 [.lane, .block] (fun _ => [.ae]) (some true) (fun s th _ fi =>
        fi.closed = false ∧ indexGood (xreg s th 29) (xreg s th 30)))
        (queued false [0] [(29, x.2.1), (30, x.2.2)] (queue x.1 .ae false true []))) ∧
    (∀ x ∈ [(Instr.qstream ⟨7, 2, 1, 1⟩, QMode.block), (.gath ⟨7, 2, 29, 1⟩, .lane)],
      Meets x.1 7#3 [] [] (onQ1 [.lane, .block] (fun _ => [.ae]) (some true) (fun _ _ _ fi => fi.closed = true))
        (queued false [0] [] (shut (queue x.2 .ae false true [])))) ∧
    (∀ x ∈ [(false, 4, 16 * 2 ^ 19 + 1), (true, 64, 65536 + 2 ^ 18)],
      Meets (.scat ⟨7, 2, 29, x.1⟩) 7#3 [29, 30, 31, 2] [] (fun s th =>
        indexGood (xreg s th 29) (xreg s th 30) ∧ (bit (xreg s th 30) 18 = false → bits (xreg s th 30) 36 19 % 16 = 0) ∧
        xreg s th 31 % (if x.1 then 64 else 4) = 0) (alone false [(30, x.2.2), (31, x.2.1)])) := by
  refine ⟨fun x hx => ?_, fun x hx => ?_, fun x hx => ?_, fun x hx => ?_, fun x hx => ?_, fun x hx => ?_⟩
  · fin_cases hx
    all_goals exact meets_of (e := false) (by decide +kernel) ⟨by decide +kernel, by decide +kernel, by decide +kernel,
      by decide +kernel, by decide +kernel, by decide +kernel, .inl (by decide +kernel)⟩
  · fin_cases hx
    all_goals exact meets_of (e := false) (by decide +kernel) (by decide +kernel)
  · fin_cases hx
    all_goals exact meets_of (e := false) (by decide +kernel) ⟨hasQueue_of (by decide +kernel), queueMeets_of (by decide +kernel)⟩
  · fin_cases hx
    all_goals exact meets_of (e := false) (by decide +kernel) ⟨hasQueue_of (by decide +kernel), queueMeets_of (by decide +kernel)⟩
  · fin_cases hx
    all_goals exact meets_of (e := false) (by decide +kernel) ⟨hasQueue_of (by decide +kernel), queueMeets_of (by decide +kernel)⟩
  · fin_cases hx
    all_goals exact meets_of (e := false) (by decide +kernel) (by decide +kernel)

/-- An access team of context 0 with channel 5, whose peers are one valid and one invalid, and some registers. -/
def channelled (uv : Bool) (peer : Nat) (rs : List (Nat × Nat)) : State :=
  { seat false [0] (holding rs) id (fun t => { t with
      chans := [{ num := 5, peer := peer, uv := uv, slots := [{ ChSlot.empty with st := .landed }, ChSlot.empty], order := [] }]
      queues := [queue .block .ae false true []] }) id with
    ctxs := [{ ctxid := 0, part := 0, ownslot := 0, root := 0, slotmask := 0, evBase := 0, evCount := 0, saveVa := 0, saveSize := 0
               peers := [{ valid := true, endpoint := 0, job := 0, assoc := 0 }, { valid := false, endpoint := 0, job := 0, assoc := 0 }]
               expo := [], ended := false }] }

/-- 09 R283 to R285: the last peer, both forms of destination, completions by phaser and by vectoring, valid and invalid peers. -/
theorem witness_RemoteWordsReserveTheirSlot :
    Meets (.rch (rg 31 1 2)) 7#3 [1, 2, 31] [31] (fun s th => xreg s th 1 < 2 ^ 7 ∧ xreg s th 2 < 2 ^ 16 ∧
      xreg s th 2 < (s.peers (s.ctxOf th.gk.team.job)).length ∧
      (∃ tm, s.team th.gk.team = some tm ∧ (tm.chan (xreg s th 1 % 2 ^ 6)).isSome = true)) (channelled false 0 [(1, 69), (2, 1)]) ∧
    (∀ x ∈ [(Instr.rget (rg 31 1 2), false, 0, 5 + 2 ^ 6 * 255 + 2 ^ 20 * (2 ^ 18 - 256)), (.rget (rg 31 1 2), true, 1, 5 + 2 ^ 14 + 2 ^ 15),
        (.rput (rg 31 1 2), true, 1, 5 + 2 ^ 20 * 64), (.rput (rg 31 1 2), false, 0, 5 + 2 ^ 38 * 32)],
      Meets x.1 7#3 [1, 2, 31] [31] (fun s th =>
        let v := xreg s th 2
        (bit v 14 = true → s.blockDst th.gk (bits v 19 15) ≠ none) ∧
        s.storesAt th (s.nowId th.gk.team) true 0 (bits v 37 20) (bits v 13 6 + 1) = [] ∧
        s.spadEcc th.gk.team (bits v 37 20) (bits v 13 6 + 1) = false ∧
        ∃ ch, chanOf (rg 31 1 2) s th = some ch ∧ requestGood v (!bit v 14) ch ∧ freeSlot ch = some 1)
        (channelled x.2.1 x.2.2.1 [(2, x.2.2.2)])) := by
  refine ⟨meets_of (e := false) (by decide +kernel) ⟨by decide +kernel, by decide +kernel, by decide +kernel,
    some_of (by decide +kernel)⟩, fun x hx => ?_⟩
  fin_cases hx
  all_goals exact meets_of (e := false) (by decide +kernel) ⟨by decide +kernel, by decide +kernel, by decide +kernel,
    some_of (by decide +kernel)⟩

/-! ### What the statements assume: events of the engines and of memory -/

/-- 02 R74: finite values of each sign, an exact zero sum; a value each format rounds. -/
theorem witness_ExactArithmeticIsExactAndRoundsToNearestEven :
    (FVal.fin false 3 (-1) |>.add (.fin true 3 (-1))).1 = .fin false 0 0 ∧
    (FVal.fin true 0 0 |>.add (.fin true 0 4)).1 = .fin true 0 0 ∧
    (∃ q, rational (.fin true 3 (-1)) = some q) := by
  refine ⟨by decide +kernel, by decide +kernel, ⟨_, rfl⟩⟩

/-- A command of the access team's lane 0. -/
def command (kind : CmdKind) : Cmd :=
  { id := 3, wait := none, thr := me false, pc := 0, t0 := 0, frec := some 64, fr := .none, fut := some 2, kind := kind }

/-- The access team. -/
def tk : TeamKey := (key false).team

/-- The access team with a command at the head of a stream. -/
def streaming (n : Nat) (kind : CmdKind) : State := seat false [0] worker id (fun t => t.setStream n [command kind]) id

/-- A layout of a record (03 R105). -/
def layoutOf (r : Nat) : Layout := Layout.ofBlock (BitVec.ofNat 512 r)

/-- An 8-word box of the 16-word tensor: one granule. -/
def record8 : Nat := 0x8000 + 17 * 2 ^ 64 + 16 * 2 ^ 96 + 7 * 2 ^ 416

/-- A copy of a box of a record at some coordinates. -/
def copying (store : Bool) (r : Nat) (x : Int) (box : Nat) : CmdKind := .copy store (layoutOf r) [x, 0, 0, 0, 0] box 32 [] 0 {}

/-- 03 R107 to R114: the first and the last piece of a box, inside the tensor and outside, to a box off 32-byte alignment; pieces
that cover half of an uncorrectable line, and all of it; the last entry; the last flit; a flit due now at each landing. -/
theorem witness_CopyEngineMovesGranulesAndFlits :
    (∀ x ∈ [(0, (0 : Int), 2 ^ 18 - 64), (60, 8, 16), (4, -16, 2 ^ 18 - 64)],
      let kind := copying false record16 x.2.1 x.2.2
      let s := streaming 0 kind
      heads s tk 0 (command kind) kind ∧
      ∃ y, (toMove (layoutOf record16) [x.2.1, 0, 0, 0, 0] 0 {}).find? (fun y => y.off == x.1) = some y ∧
        (s.wantWalk (s.cmdWho (command kind))
          (sources {} (sameGranule (layoutOf record16) [x.2.1, 0, 0, 0, 0] false x.2.2 0 {} y) false x.2.2)).isNone = true) ∧
    (∀ x ∈ [(record16, 0, [], true), (record16, 60, [], true), (record8, 0, [0x8000 / 64], true), (record16, 0, [0x8000 / 64], false),
        (record16, 32, [0x8000 / 64], false)],
      let kind := copying true x.1 0 64
      let s := { streaming 0 kind with bad := x.2.2.1 }
      let w := s.cmdWho (command kind)
      heads s tk 0 (command kind) kind ∧
      ∃ y, (toMove (layoutOf x.1) [0, 0, 0, 0, 0] 0 {}).find? (fun y => y.off == x.2.1) = some y ∧
        (let ps := sameGranule (layoutOf x.1) [0, 0, 0, 0, 0] true 64 0 {} y
         (s.wantWalk w (ps.filterMap (fun y => y.va))).isNone = true ∧
          (s.wholeStore tk w (toMove (layoutOf x.1) [0, 0, 0, 0, 0] 0 {}) ps 64 {}).isNone = x.2.2.2)) ∧
    (let kind := CmdKind.qstream { name := 1, inst := 0 } 0 4 3 []
     let s := seat false [0] worker id (fun t => { t with queues := [queue .block .ae false true []], copyq := [command kind] }) id
     heads s tk 0 (command kind) kind ∧
     holds (s.team tk) (fun tm => holds (tm.queue { name := 1, inst := 0 }) (fun qu => (qu.fifo 0).room qu.limit 1)) = true) ∧
    (let kind := CmdKind.mcast 0 64 32 1 1 256 3 []
     let s := seat false [0] worker id (fun t => { t with beats := 1, copyq := [command kind] }) id
     heads s tk 0 (command kind) kind ∧ holds (s.team tk) (fun tm => !s.leavingCore tm && tm.beats.getLsbD (s.cycle % 64)) = true) ∧
    (∀ x ∈ [(false, false, 0), (true, false, 0), (false, true, 0), (false, false, 7)],
      let f : Flit := { id := 2, src := 0, tk := tk, cmd := 3, data := 0, bad := x.1, dst := 64, ph := 32, path := []
                        dests := [(0, 5, x.2.1)] }
      let s := { streaming 1 (.scat 0 0 0 0 false false 0 []) with flits := [f], cycle := 5 }
      s.flits.find? (fun f => f.id == 2) = some f ∧ f.dests.find? (fun d => d.1 == 0) = some (0, 5, x.2.1) ∧ 5 ≤ s.cycle) := by
  refine ⟨fun x hx => ?_, fun x hx => ?_, ?_, ?_, fun x hx => ?_⟩
  · fin_cases hx <;> exact ⟨by unfold heads; decide +kernel, some_of (by decide +kernel)⟩
  · fin_cases hx <;> exact ⟨by unfold heads; decide +kernel, some_of (by decide +kernel)⟩
  · exact ⟨by unfold heads; decide +kernel, by decide +kernel⟩
  · exact ⟨by unfold heads; decide +kernel, by decide +kernel⟩
  · fin_cases hx <;> decide +kernel

/-- A drain's descriptor. -/
def drainTo (sp : Bool) : DrainDesc :=
  { dest := 0x8000, rstr := 64, nofr := false, sp := sp, df := 0, budget := 8, frec := 0, sumoff := 128 }

/-- A line of memory or of the scratchpad. -/
def drainLine (sp : Bool) : DrainLine := { addr := if sp then 64 else 0x8000, data := List.replicate 192 0 }

/-- A drain of tile 0 of one line, read or not. -/
def draining (op : Nat) (sp read : Bool) : CmdKind := .drain op (key true) 0 (drainTo sp) read [drainLine sp] false [] 0

theorem drainLineAt_of {op : Nat} {sp : Bool}
    (h : heads (streaming 2 (draining op sp true)) tk 2 (command (draining op sp true)) (draining op sp true)) :
    drainLineAt (streaming 2 (draining op sp true)) tk (command (draining op sp true)) op (drainTo sp) [drainLine sp] [] 0 (drainLine sp) :=
  ⟨key true, 0, false, 0, h, rfl, by decide⟩

/-- The access team with a gather into a block queue and its one entry in work. -/
def gathering (q : Queue) : State :=
  seat false [0] worker id (fun t => { t with
    queues := [q], gsq := [command (.gath q.ref 0x8000 64 65 false true 64 [{ i := 64 }])] }) id

/-- An entry whose index is known, with a value. -/
def known (n : Nat) (v : Option GsRead) : GsElem := { i := 64, ix := some (.num n), val := v }

/-- 09 R275: what the shapes of a gather and a scatter ask of an entry: index lines of one line; a queue with a dead FIFO, without an
index, without room, with both; a claimed entry whose index failed, whose page needs a walk, whose element is read well and badly;
entries of a scatter read and not; a value, a bad one, one that was not read, with an element that waits, that is misaligned, that
is written. -/
theorem witness_GatherAndScatterEntries :
    (((0x100 + 3 * 4) % 2 ^ 64 / 64 = (0x100 + 15 * 4) % 2 ^ 64 / 64) ∧ ({ i := 3 } : GsElem).ix = none) ∧
    (let q := queue .block .ae false true []
     let full := queue .block .ae false true (List.replicate 4 (.data (.block 0)))
     ∀ x ∈ [(lined q (fun f => { f with dead := true }), ({ i := 64 } : GsElem), true, true), (q, { i := 64 }, false, true),
         (full, known 0 none, false, false), (q, known 0 none, false, true)],
       ((gathering x.1).team tk).bind (fun t => t.queue { name := 1, inst := 0 }) = some x.1 ∧ x.2.1.done = false ∧ x.2.1.pos = none ∧
       (x.1.fifo 0).dead = x.2.2.1 ∧ (x.1.fifo 0).room x.1.limit 1 = x.2.2.2) ∧
    (let q := queue .block .ae false true [.claimed]
     let c := command (.gath q.ref 0x8000 64 65 false true 64 [])
     let s := gathering q
     let f (va : Nat) : Fill := { id := c.id, thr := c.thr, pc := c.pc, t0 := c.t0, kind := .block, va := va, tgt := .drop }
     let named (s : State) (va : Nat) := (s.fillRead (f va)).2.nameReplay c.thr .block va (some q.ref) (s.fillRead (f va)).1
     (({ known 0 none with pos := some 0 } : GsElem).done = false ∧ ({ known 0 none with pos := some 0 } : GsElem).pos = some 0) ∧
     s.translate (s.cmdWho c) .read (0x8000 + 2 ^ 16 * 64) = .miss ∧ s.translate (s.cmdWho c) .read 0x8000 ≠ .miss ∧
     (named s 0x8000).isSome = true ∧
     (let t := { s.modTeam tk (fun t => { t with replay := List.replicate 64 (some { kind := .lane, va := 64, thr := me false }) }) with
        bad := [0x8000 / 64] }
      t.translate (t.cmdWho c) .read 0x8000 ≠ .miss ∧ named t 0x8000 = none)) ∧
    ((∀ e ∈ [known 5 (some (.num 7)), { i := 1, ix := some (.fail none 0) }], readWhole e) ∧ ¬readWhole (known 5 none)) ∧
    (let c := command (.scat 0 0 0 0 false false 0 [])
     let s := streaming 1 c.kind
     let w := s.cmdWho c
     w.ask ≠ none ∧ (∀ v ∈ [GsRead.num 7, .fail none 0, .fail (some .nomap) 0], (known 5 (some v)).done = false) ∧
     ((0x8000 + 2 ^ 16 * 64) % 4 = 0 ∧ s.translate w .write (0x8000 + 2 ^ 16 * 64) = .miss) ∧
     ¬(0x8002 % 4 = 0 ∧ s.translate w .write 0x8002 = .miss) ∧ (0x8000 % 4 = 0 ∧ s.translate w .write 0x8000 ≠ .miss)) := by
  refine ⟨by decide, fun x hx => ?_, by decide +kernel, ⟨fun e he => ?_, by simp [readWhole, known]⟩, ?_⟩
  · fin_cases hx <;> decide +kernel
  · fin_cases he
    · exact .inr ⟨⟨5, rfl⟩, by simp [known]⟩
    · exact .inl ⟨_, _, rfl⟩
  · decide +kernel

/-- 09 R275, R281, 11 R325 to R328: the last chunk of a GATH and of a SCAT, a tile without and with an uncorrectable error, the
one line of each drain, commands over with and without a failure. -/
theorem witness_OtherEnginesAndCommandEndsDoTheirWork :
    (let kind := CmdKind.gath { name := 1, inst := 0 } 0x8000 64 65 false false 64 []
     heads (streaming 1 kind) tk 1 (command kind) kind) ∧
    (let kind := CmdKind.scat 0x8000 64 65 128 true true 64 []
     heads (streaming 1 kind) tk 1 (command kind) kind ∧
     (∀ e ∈ ((working 65 64 []).map (indexed (streaming 1 kind) ((streaming 1 kind).cmdWho (command kind)) 64 8)).map
       (valued (streaming 1 kind) ((streaming 1 kind).cmdWho (command kind)) 128 64), e.ix.isSome = true ∧ e.val ≠ none)) ∧
    (∀ bad : Bool, let kind := draining 0 false false
     let s := { streaming 2 kind with groups := [(Group.fresh (key true) 0 0 0 8 1 2).modTile 0 (fun t => { t with ecc := bad })] }
     heads s tk 2 (command kind) kind ∧ holds (s.group (key true)) (fun g => !g.mmaOn 0 && (g.tile 0).ecc == bad) = true) ∧
    (∀ x ∈ [(0, false), (0, true), (2, false)], let kind := draining x.1 x.2 true
      drainLineAt (streaming 2 kind) tk (command kind) x.1 (drainTo x.2) [drainLine x.2] [] 0 (drainLine x.2) ∧
        walked (streaming 2 kind) ((streaming 2 kind).cmdWho (command kind)) [(drainLine x.2).addr]) ∧
    (∀ sp ∈ [false, true], let kind := draining 1 sp true
      drainLineAt (streaming 2 kind) tk (command kind) 1 (drainTo sp) [drainLine sp] [] 0 (drainLine sp) ∧
        (streaming 2 kind).addMay (command kind) 0 = true ∧
        walked (streaming 2 kind) ((streaming 2 kind).cmdWho (command kind)) [(drainLine sp).addr]) ∧
    (∀ x ∈ [(1, CmdKind.scat 0x8000 64 65 128 true true 65 []), (0, .mcast 0 64 32 1 1 256 4 [])],
      ∀ fr ∈ [FaultRec.none, FaultRec.none.note 0 64 1 0 true],
      let c := { command x.2 with fr := fr }
      let s := seat false [0] worker id (fun t => t.setStream x.1 [c]) id
      s.headCmd tk x.1 = some c ∧ s.cmdRuns c = true ∧ s.cmdOver c = true) := by
  refine ⟨by unfold heads; decide +kernel, ⟨by unfold heads; decide +kernel, by decide +kernel⟩, fun bad => ?_, fun x hx => ?_, fun sp hs => ?_,
    fun x hx fr hf => ?_⟩
  · cases bad <;> exact ⟨by unfold heads; decide +kernel, by decide +kernel⟩
  · fin_cases hx <;> exact ⟨drainLineAt_of (by unfold heads; decide +kernel), by decide +kernel⟩
  · fin_cases hs <;> exact ⟨drainLineAt_of (by unfold heads; decide +kernel), by decide +kernel, by decide +kernel⟩
  · fin_cases hx <;> fin_cases hf <;> decide +kernel

/-! ### What the statements assume: events of memory, remote channels and attention -/

/-- The bytes of a read. -/
def ran {ε α : Type} (x : Except ε α) : Bool := match x with | .ok _ => true | .error _ => false

/-- The failure of a read has a property. -/
def failed {ε α : Type} (x : Except ε α) (P : ε → Bool) : Bool := match x with | .ok _ => false | .error e => P e

theorem ran_of {ε α : Type} {x : Except ε α} (h : ran x = true) : ∃ a, x = .ok a := by
  cases x with
  | ok a => exact ⟨a, rfl⟩
  | error e => cases h

theorem failed_of {ε α : Type} {x : Except ε α} {P : ε → Prop} [DecidablePred P]
    (h : failed x (fun e => decide (P e)) = true) : ∃ e, x = .error e ∧ P e := by
  cases x with
  | ok a => cases h
  | error e => exact ⟨e, rfl, of_decide_eq_true h⟩

/-- An operation of a probe home has ended, with a property of what it does. -/
def did (x : Except KvOut (Option KvDone)) (P : KvDone → Bool) : Bool := match x with | .ok (some d) => P d | _ => false

theorem did_of {x : Except KvOut (Option KvDone)} {P : KvDone → Prop} [DecidablePred P]
    (h : did x (fun d => decide (P d)) = true) : ∃ d, x = .ok (some d) ∧ P d := by
  match x, h with
  | .ok (some d), h => exact ⟨d, rfl, of_decide_eq_true h⟩

theorem reads_of {s : State} {ctx : Nat} (l : List ((Nat × Nat) × XlatOut))
    (h : l.all (fun x => match x.2 with | .ok q => s.keyHolds q && good (s.readLine (s.partOf ctx) q.slot q.pa x.1.2) | _ => false) = true) :
    ∃ bss, List.Forall₂ (lineRead s ctx) l bss := by
  induction l with
  | nil => exact ⟨[], .nil⟩
  | cons x l ih =>
    simp only [List.all_cons, Bool.and_eq_true] at h
    obtain ⟨bss, hb⟩ := ih h.2
    obtain ⟨p, o⟩ := x
    match o, h.1 with
    | .ok q, h1 =>
      simp only [Bool.and_eq_true] at h1
      cases hr : s.readLine (s.partOf ctx) q.slot q.pa p.2 with
      | ok bs => exact ⟨bs :: bss, .cons ⟨q, rfl, h1.1, hr⟩ hb⟩
      | keymis => simp [hr, good] at h1
      | ecc => simp [hr, good] at h1

/-- The failure of a line. -/
def lineFailure (s : State) (ctx : Nat) (x : (Nat × Nat) × XlatOut) : Option (Option XKind) :=
  match x.2 with
  | .fault k => some (some k)
  | .ok q =>
    if s.keyHolds q then
      match s.readLine (s.partOf ctx) q.slot q.pa x.1.2 with
      | .ok _ => none
      | .keymis => some (some .keymis)
      | .ecc => some none
    else some (some .keydead)

theorem lineFails_of {s : State} {ctx : Nat} {x : (Nat × Nat) × XlatOut} {e : Option XKind} (h : lineFailure s ctx x = some e) :
    lineFails s ctx x e := by
  obtain ⟨p, o⟩ := x
  cases o with
  | fault k =>
    simp only [lineFailure, Option.some_inj] at h
    exact .inl ⟨k, rfl, h.symm⟩
  | ok q =>
    simp only [lineFailure] at h
    split at h
    · rename_i hk
      split at h
      · cases h
      · rename_i hr
        exact .inr (.inr (.inl ⟨q, rfl, hk, hr, (Option.some_inj.mp h).symm⟩))
      · rename_i hr
        exact .inr (.inr (.inr ⟨q, rfl, hk, hr, (Option.some_inj.mp h).symm⟩))
    · rename_i hk
      exact .inr (.inl ⟨q, rfl, by simpa using hk, (Option.some_inj.mp h).symm⟩)

/-- The load of an entry at 0x8000 into a queue. -/
def fillTo (kind : FillKind) (tgt : FillTgt) : Fill :=
  { id := 3, thr := me false, pc := 0, t0 := 0, kind := kind, va := 0x8000, tgt := tgt }

/-- The access team with it, some lines uncorrectable, and the first n replay-table entries in use. -/
def filled (f : Fill) (bad : List Nat) (n : Nat) : State :=
  { seat false [0] { worker with regs := updAt worker.regs 1 (fun _ => { val := 0, st := .wait (.fill 3) 0, taint := false, ecc := false }) } id
      (fun t => { t with
        fills := [f], queues := [queue .block .ae false true [.claimed]]
        replay := (List.range 64).map (fun i => if i < n then some { kind := .lane, va := 64, thr := me false } else none) }) id with
    bad := bad }

/-- The first line of a load fails, or the one after n good ones. -/
def failsAt (s : State) (f : Fill) (n : Nat) (e : Option XKind) : Prop :=
  ∃ ls x rest bss, s.fillLines f = ls ++ x :: rest ∧ ls.length = n ∧
    List.Forall₂ (lineRead s (s.ctxOf f.thr.gk.team.job)) ls bss ∧ lineFails s (s.ctxOf f.thr.gk.team.job) x e

theorem failsAt_of {s : State} {f : Fill} {n : Nat} {e : Option XKind} (hn : n < (s.fillLines f).length)
    (hl : ((s.fillLines f).take n).all (fun x => match x.2 with
      | .ok q => s.keyHolds q && good (s.readLine (s.partOf (s.ctxOf f.thr.gk.team.job)) q.slot q.pa x.1.2) | _ => false) = true)
    (h : (s.fillLines f)[n]?.bind (lineFailure s (s.ctxOf f.thr.gk.team.job)) = some e) : failsAt s f n e := by
  obtain ⟨bss, hb⟩ := reads_of _ hl
  rw [List.getElem?_eq_getElem hn] at h
  refine ⟨(s.fillLines f).take n, (s.fillLines f)[n], (s.fillLines f).drop (n + 1), bss, ?_, ?_, hb, lineFails_of h⟩
  · rw [List.getElem_cons_drop, List.take_append_drop]
  · rw [List.length_take]
    omega

/-- Memory with the tables of context 0 for page 0, a table descriptor at 0x8000 and its empty table at 0xA000 (01 R18,
04 R118); with `loop`, a full bucket whose chain is one record that names itself. -/
def mapped (loop : Bool) : List Host.Cell :=
  let tables : List (Nat × Nat × Nat) := [(0, 8, 0x1001), (0x1000, 8, 0x2001), (0x2000, 8, 0x3001), (0x3000, 8, 0x4001), (0x4000, 8, 0x1F), (0x8000, 16, 0xA000 + 2 ^ 64)]
  let ring : List (Nat × Nat × Nat) := if loop then [(0x8010, 8, 0xB000), (0xB000, 8, 0xC000), (0xC010, 8, 0xC000)] ++
    (List.range 8).map (fun i => (0xA000 + 16 * i, 16, 5 + 2 ^ 112)) else []
  (tables ++ ring).foldl (fun m x => cellWrite m x.1 (leBytes x.2.1 x.2.2)) []

/-- A KV operation of lane 0. -/
def probing (op desc : Nat) : KvOp := { op := op, desc := desc, key := 77, pblk := 9, since := 0, out := none }

/-- The state in which lane 0 has one; page 0 has a leaf. -/
def asking (q : KvOp) (pte : Dword) (loop : Bool) (bad : List Nat) : State :=
  { seat false [0] { worker with kv := some q } id id id with
    mem := mapped loop, bad := bad
    cores := tabSet State.reset.cores 0 { Core.reset with tlb := [{ ctx := 0, base := 0, lvl := 4, pte := pte }] } }

/-- What the probe home of lane 0's operation does. -/
def outcome (q : KvOp) (s : State) : Except KvOut (Option KvDone) :=
  kvPerform (s.kvRead (s.kvWho (me false))) q.op q.desc q.key q.pblk

/-- Lane 0 has its operation still to be performed. -/
abbrev asks (q : KvOp) (s : State) : Prop := (s.thread (me false)).kv = some q ∧ q.out = none ∧ s.resident tk = true

/-- Every access of the writes of an operation is translated without a walk; or the operation has failed. -/
def writesWalked (_ : KvOp) (s : State) (d : KvDone) : Bool :=
  (s.wantWalk (s.kvWho (me false)) (d.writes.map (fun x => x.1 % 2 ^ 64))).isNone

/-- 09 R272: a word, a block and a list that can be read; a first line that fails in translation, one under a slot that holds no key, the last line of a list that is
uncorrectable. -/
theorem witness_QueueLoadsRead :
    (∀ k ∈ [FillKind.lane, .block, .olist], let s := filled (fillTo k .drop) [] 0
      ∃ bss, List.Forall₂ (lineRead s (s.ctxOf tk.job)) (s.fillLines (fillTo k .drop)) bss) ∧
    (∀ k ∈ [FillKind.lane, .block, .olist],
      failsAt (filled (fillTo k .drop) [] 0) { fillTo k .drop with xlat := [.fault .nomap] } 0 (some .nomap)) ∧
    failsAt (filled (fillTo .olist .drop) [0x8000 / 64 + 4] 0) (fillTo .olist .drop) 4 none ∧
    failsAt (filled (fillTo .lane .drop) [] 0) { fillTo .lane .drop with xlat := [.ok (physAt 7 0x8000)] } 0 (some .keydead) ∧
    0x8000 % 64 = 0 := by
  refine ⟨fun k hk => ?_, fun k hk => ?_, failsAt_of (by decide +kernel) (by decide +kernel) (by decide +kernel),
    failsAt_of (by decide +kernel) (by decide +kernel) (by decide +kernel), by decide⟩
  · fin_cases hk <;> exact reads_of _ (by decide +kernel)
  · fin_cases hk <;> exact failsAt_of (by decide +kernel) (by decide +kernel) (by decide +kernel)

/-- 06 R188: the last entry free, and none. -/
theorem witness_ReplayEntriesAreTaken :
    (∃ tm, (filled (fillTo .lane .drop) [] 63).team tk = some tm ∧ tm.replay.getD 63 none = none ∧
      ∀ m < 63, tm.replay.getD m none ≠ none) ∧
    ∃ tm, (filled (fillTo .lane .drop) [] 64).team tk = some tm ∧ ∀ m < 64, tm.replay.getD m none ≠ none :=
  ⟨some_of (by decide +kernel), some_of (by decide +kernel)⟩

/-- 09 R272, R273, R282: each target, with data and with poison, an entry free for it and none; an STQ with its entry. -/
theorem witness_QueueLoadsArrive :
    (∀ x ∈ [(FillKind.lane, FillTgt.drop), (.block, .pos { name := 1, inst := 0 } 0 0), (.olist, .bound)], ∀ bad ∈ [[], [0x8000 / 64]],
      let f := fillTo x.1 x.2
      let s := filled f bad 63
      filling s tk f ∧
      ((s.fillRead f).2.nameReplay f.thr f.kind f.va (ofQueue f) (s.fillRead f).1).isSome = true ∧
      (s.fillRead f).2.groups.any (fun g => decide (g.key.team = tk) && g.waitsFor (.fill f.id)) = true) ∧
    (let f := fillTo .block (.pos { name := 1, inst := 0 } 0 0)
     let s := filled f [0x8000 / 64] 64
     filling s tk f ∧ ((s.fillRead f).2.nameReplay f.thr f.kind f.va (ofQueue f) (s.fillRead f).1).isNone = true) ∧
    (let e : Stq := { id := 3, thr := me false, fifo := 0, pos := 0, va := 0x8000, phys := physAt 0 0x8000, data := some (.block 5) }
     let q := { queue .block .es true false [] with stqs := [e] }
     Claims.storing (seat false [0] worker id (fun t => { t with queues := [q] }) id) tk q e (.block 5)) := by
  refine ⟨fun x hx bad hb => ?_, ⟨by unfold filling; decide +kernel, by decide +kernel⟩, by unfold Claims.storing; decide +kernel⟩
  fin_cases hx <;> fin_cases hb <;> exact ⟨by unfold filling; decide +kernel, by decide +kernel, by decide +kernel⟩

/-- 04 R122 to R126, 01 R28: an operation that needs a walk, meets an uncorrectable descriptor, a chain in a circle, cannot write,
and is performed; a request that a walker may take; a walk that ends in a leaf and in a fault. -/
theorem witness_QueueLoadsStoresProbesAndWalksPerform :
    (let q := probing 0 0x80000000
     asks q (asking q 0x1F#64 false []) ∧
      ∃ o, outcome q (asking q 0x1F#64 false []) = .error o ∧ o = .miss 0x80000000) ∧
    (let q := probing 0 0x8000
     asks q (asking q 0x1F#64 false [0x8000 / 64]) ∧
      ∃ o, outcome q (asking q 0x1F#64 false [0x8000 / 64]) = .error o ∧ o = .ecc 0x8000) ∧
    (let q := probing 0 0x8000
     asks q (asking q 0x1F#64 true []) ∧ outcome q (asking q 0x1F#64 true []) = .ok none) ∧
    (let q := probing 1 0x8000
     asks q (asking q 0x17#64 false []) ∧
     ∃ d, outcome q (asking q 0x17#64 false []) = .ok (some d) ∧ (writesWalked q (asking q 0x17#64 false []) d = true ∧
       ((asking q 0x17#64 false []).kvWriteFault ((asking q 0x17#64 false []).kvWho (me false)) d.writes).isSome = true)) ∧
    (∀ op ∈ [0, 1, 2], let q := probing op 0x8000
      asks q (asking q 0x1F#64 false []) ∧
      ∃ d, outcome q (asking q 0x1F#64 false []) = .ok (some d) ∧ (writesWalked q (asking q 0x1F#64 false []) d = true ∧
        (asking q 0x1F#64 false []).kvWriteFault ((asking q 0x1F#64 false []).kvWho (me false)) d.writes = none)) ∧
    (let w : Walk := { ctx := 0, vpn := 2 ^ 48 - 1, waiters := [(.thread (me false), 2 ^ 48 - 1)], walking := false, stale := false }
     let s := { alone false [] with walks := [{ w with walking := true, vpn := 0 }, w] }
     s.walks.findIdx? s.walkMay = some 1) ∧
    (∀ x ∈ [(0, true), (0, false), (1, false)],
      let w : Walk := { ctx := 0, vpn := x.1, waiters := [(.kv (me false), x.1)], walking := true, stale := x.2 }
      let s := { asking (probing 0 0) 0x1F#64 false [] with walks := [w] }
      s.walks.find? (fun y => y.walking && y.ctx == w.ctx && y.vpn == w.vpn) = some w ∧ s.waiting (.kv (me false)) = true ∧
      s.walk w.ctx (w.vpn * 65536) = (if x.1 = 0 then .leaf 0x1F#64 4 else .fault .nomap)) := by
  refine ⟨⟨by decide +kernel, failed_of (by decide +kernel)⟩, ⟨by decide +kernel, failed_of (by decide +kernel)⟩,
    ⟨by decide +kernel, by decide +kernel⟩, ⟨by decide +kernel, did_of (by decide +kernel)⟩, fun op ho => ?_, by decide +kernel,
    fun x hx => ?_⟩
  · fin_cases ho <;> exact ⟨by decide +kernel, did_of (by decide +kernel)⟩
  · fin_cases hx <;> decide +kernel

/-- Reads of the device of the state whose descriptor lies at 0x8000. -/
def homeRead : KvRead :=
  (asking (probing 0 0) 0x1F#64 false []).kvRead ((asking (probing 0 0) 0x1F#64 false []).kvWho (me false))

/-- Reads of a device that holds a table of one full bucket of other keys, whose chain is a record at 0xC000 with a NEXT, and a
record at 0xD000 on its free list. -/
def tableRead (next : Nat) : KvRead := fun va _ =>
  if va = 0x8000 then .ok (0xA000 + 2 ^ 64 + 0xB000 * 2 ^ 128)
  else if 0xA000 ≤ va ∧ va < 0xA080 then .ok (5 + 2 ^ 112)
  else if va = 0xB000 then .ok 0xC000
  else if va = 0xC010 then .ok next
  else if va = 0xC020 then .ok (77 + 2 ^ 112)
  else if va = 0 then .ok 0xD000
  else if va = 0xE000 then .error (.ecc 0xE000)
  else .ok 0

/-- 04 R123, R125, R126: slots passed before the key, an EMPTY slot, a slot that cannot be read; a chain that ends, that comes to
the key, that runs in a circle; a bucket without the key, and a free list. -/
theorem witness_KvProbesAndChains :
    (let s := fun _ : Nat => 5 + 2 ^ 112
     passes (tableRead 0) 0xA000 77 s [0, 1] ∧ tableRead 0 0xC020 16 = .ok (77 + 2 ^ 112) ∧ tableRead 0 0xF000 16 = .ok 0 ∧
      tableRead 0 0xE000 16 = .error (.ecc 0xE000)) ∧
    (∀ p' ∈ [0, 0xC020, 0xC000], chain (tableRead p') 77 0xB000 0xC000 [0xC000] 0xC010 p') ∧
    (let d := TableDesc.ofNat (0xA000 + 2 ^ 64 + 0xB000 * 2 ^ 128)
     (0x8000 % 128 = 0 ∧ descReserved (0xA000 + 2 ^ 64 + 0xB000 * 2 ^ 128) = false ∧ d.bad = false ∧ kindOk 0 d.kind = true) ∧
     probeSlots (tableRead 0) (d.tbase + 128 * kvBucket d.nb 77) 77 (kvSlots d.nb 77) none = .ok (none, none, false) ∧
     tableRead 0 (d.ovf + 8 * kvBucket d.nb 77) 8 = .ok 0xC000 ∧ tableRead 0 d.free 8 = .ok 0xD000) ∧
    (∀ x ∈ [(0, false), (0xC020, true)],
      walkChain (tableRead x.1) 77 (2 ^ 59 + 1) [] 0xB000 0xC000 =
        .ok (some (if x.2 then some { va := 0xC020, e := KvEntry.ofNat (77 + 2 ^ 112), link := some (0xC010, 0) } else none))) ∧
    walkChain (tableRead 0xC000) 77 (2 ^ 59 + 1) [] 0xB000 0xC000 = .ok none := by
  refine ⟨⟨by unfold passes; decide +kernel, by decide +kernel, by decide +kernel, by decide +kernel⟩, fun p' hp => ?_,
    by decide +kernel, by decide +kernel, by decide +kernel⟩
  fin_cases hp <;>
    exact ⟨rfl, by decide, by decide, 0, _, rfl, rfl, by decide +kernel, rfl, rfl⟩

/-- 04 R119, R123, R125: a descriptor misaligned, invalid and of the other kind; a slot LIVE with the key and one EMPTY; a bucket
entry with one reference and of a KV table. -/
theorem witness_KvOperationsFollowThePseudocode :
    0x8040 % 128 ≠ 0 ∧
    (∀ x ∈ [(0x9000, 0), (0x8000, 4)], x.1 % 128 = 0 ∧ holds (homeRead x.1 128).toOption (fun n =>
      decide (descReserved n = true ∨ (TableDesc.ofNat n).bad = true ∨ kindOk x.2 (TableDesc.ofNat n).kind = false)) = true) ∧
    (0 : Nat) < 1 ∧
    (let rd : KvRead := fun va _ => .ok (if va = 0x8010 then 77 + 2 ^ 96 + 2 ^ 112 else 0)
     ∃ r b, probeSlots rd 0x8000 77 [1, 2] none =
       .ok (some { va := 0x8010, e := KvEntry.ofNat (77 + 2 ^ 96 + 2 ^ 112), link := none }, r, b)) ∧
    (holds (homeRead (0xA000 + 16 * 7) 16).toOption (fun n => decide ((KvEntry.ofNat n).st = 0)) = true) ∧
    (∀ x ∈ [(0, 0xFFFF), (1, 1)], let h : KvHit := { va := 0xA000, e := { key := 77, pblk := 9, ref := x.2, st := 1 }, link := none }
      h.link = none ∧ (x.1 = 0 ∨ h.e.ref ≤ 1)) ∧
    (2 ^ 32 - 1 < 2 ^ 32 ∧ 15 < 16 ∧ 0xFFFF < 2 ^ 16) := by
  refine ⟨by decide, by decide +kernel, by decide, ⟨_, _, rfl⟩, by decide +kernel, by decide, by decide⟩

/-- A request of lane 0, in slot 0 of channel 5. -/
def requested (put uv : Bool) (dk : Option QRef) : RemReq :=
  { id := 3, thr := me false, pc := 0, t0 := 0, put := put, raddr := 0x8000, len := 2, spo := 2 ^ 18 - 2, ph := 32, dk := dk, uv := uv
    peer := 0, src := [], left := some 0 }

/-- The access team whose slot 0 of channel 5 holds it. -/
def responding (st : SlotSt) (r : RemReq) (order : List Nat) : State :=
  seat false [0] worker id (fun t => { t with
    chans := [{ num := 5, peer := 0, uv := r.uv, slots := [{ st := st, req := some r, data := [1, 2], todo := [] }], order := order }]
    queues := [queue .block .ae false true []] }) (fun g => { g with uvec := 0xC000 })

/-- An ATTD command for block 0 of stack 0. -/
def attending (dst : Option QRef) (late : List Nat) (out : List AttEntry) : AttCmd :=
  { id := 3, thr := me false, pc := 0, t0 := 0, desc := TableDesc.ofNat 0, list := [0], len := 1, scale := 0, deadline := 10
    nheads := 1, kvh := 0, query := [[]], dst := dst, land := 64, step := 0, pmask := 1, res := List.replicate 8 .none, late := late
    first := if late.isEmpty then 0 else 8, closed := out.isEmpty && late.isEmpty, out := out, blk := 0, charged := [0], fr := 0 }

/-- The access team with it, 2^20 cycles after its deadline. -/
def attended (c : AttCmd) : State :=
  { seat false [0] worker id (fun t => { t with attn := [c], queues := [queue .block .ae false true []] }) id with cycle := 10 + 2 ^ 20 }

/-- Context 0 with one region exposed to peer 1, writable or not. -/
def exposing (write ckpt : Bool) : State :=
  { alone false [] with
    mem := mapped false
    ctxs := [{ ctx0 with expo := [{ lo := 0x8000, hi := 0x8100, peers := [1], write := write }] }], ckpt := ckpt }

/-- 03 R116, R117, 09 R286, 04 R135 to R139, 15 R411, R412: a read and a write answered, refused and out of its budget; both
outcomes of each; a vectored completion; a stack's result, its deadline, its abandonment; each delivery; a region's last bytes. -/
theorem witness_ResponsesTriplesAndPeersArrive :
    (∀ put ∈ [false, true], let r := requested put false none
      let s := { responding .reserved r [] with retx := 10, cycle := 10 }
      s.reserved tk 5 0 = some r ∧ (r.put = true ∨ ([1, 2] : List Byte).length = r.len) ∧ r.left = some 0 ∧ 0 + s.retx ≤ s.cycle) ∧
    (∀ st ∈ [SlotSt.landed, .failed], ∀ put ∈ [false, true], let r := requested put false none
      let s := responding st r [0]
      holds (s.team tk) (fun tm => holds (tm.chan 5) (fun c => decide (c.order = [0])) && holds (tm.slot 5 0) (fun sl => sl.req == some r))
        = true ∧ s.busyBefore r.thr r.id = false ∧ r.dk = none ∧ r.uv = false) ∧
    (let r := requested false false none
     let s := (responding .landed r [0]).modTeam tk (fun t => { t with stores := [{ waiting true 0 0x138 with id := 1 }] })
     holds (s.team tk) (fun tm => holds (tm.slot 5 0) (fun sl => sl.req == some r)) = true ∧ s.busyBefore r.thr r.id = true ∧ r.dead = false) ∧
    0 < ((requested false false none).len + 63) / 64 ∧
    (let s := { seat false [0] worker id (fun t => { t with vecq := [(me false, .attd 64, 0)] }) (fun g => { g with uvec := 0xC000 }) with
       cycle := 1 }
     holds (s.group (me false).gk) (fun g => g.vectorable 0) = true ∧ s.resident (me false).gk.team = true ∧
     holds (s.team (me false).gk.team) (fun tm => decide (tm.vecq.find? (fun x => x.1 == me false) = some (me false, .attd 64, 0))
       && !tm.landedBefore (me false) (.attd 64) 0) = true ∧ 0 < s.cycle) ∧
    (let c := attending none [] [.blocks [0]]
     let s := attended c
     s.strays = [] ∧ s.att tk 3 = some c ∧ c.pmask.testBit 0 = true ∧ c.res.getD 0 .none = .none ∧ c.ready 0 = true ∧
     walked s (s.unit tk 3) (c.lines 0) ∧
     c.deadline ≠ 0 ∧ c.t0 + c.deadline ≤ s.cycle ∧ c.late = [] ∧ c.missing ≠ []) ∧
    (let s := { attended (attending none [] []) with strays := [(tk, 3, 0, 1)] }
     s.strays.find? (fun y => y.1 == tk && y.2.1 == 3 && y.2.2.1 == 0) = some (tk, 3, 0, 1)) ∧
    (let c := attending none [0] []
     let s := attended c
     s.att tk 3 = some c ∧ 0 ∈ c.late ∧ c.res.getD 0 .none = .none ∧ c.t0 + c.deadline + 2 ^ 20 ≤ s.cycle) ∧
    (let c := attending none [] []
     (attended c).att tk 3 = some c ∧ ((attended c).team tk).isSome = true ∧ c.out = [] ∧ c.closed = true) ∧
    (let c := attending (some { name := 1, inst := 0 }) [] [.blocks [5, 6]]
     (attended c).att tk 3 = some c ∧ holds ((attended c).team tk) (fun tm => !tm.attBusy c) = true ∧ c.dst.isSome = true) ∧
    (let c := attending none [] [.poison { va := 0, sp := false, rtag := 0, kind := 0, cls := 7 }]
     (attended c).att tk 3 = some c ∧ ((attended c).team tk).isSome = true ∧ c.dst = none) ∧
    (peerMay (exposing false false) 0 ⟨1, true⟩ 0x8000 256 false ∧ ∃ bs, (exposing false false).readVirt (manage 0 (0 == 0)) 0x8000 256 = .ok bs) ∧
    peerMay (exposing true false) 0 ⟨1, true⟩ 0x80FF ([1] : List Byte).length true ∧
    (exposing true true).ckpt = true ∧
    ((exposing false false).ckpt = false ∧ (exposing false false).exposed 0 1 0x80FF 2 false = false ∧
      (exposing false false).exposed 0 2 0x8000 1 false = false ∧ (exposing false false).exposed 0 1 0x8000 1 true = false ∧
      ¬peerMay (exposing true false) 0 ⟨1, false⟩ 0x8000 1 true) := by
  refine ⟨?_, ?_, ?_, ?_, ?_, ?_, ?_, ?_, ?_, ?_, ?_, ⟨?_, ran_of (by decide +kernel)⟩, ?_, ?_, ?_⟩
  · decide +kernel
  · decide +kernel
  · decide +kernel
  · decide +kernel
  · decide +kernel
  · decide +kernel
  · decide +kernel
  · decide +kernel
  · decide +kernel
  · decide +kernel
  · decide +kernel
  · unfold peerMay; decide +kernel
  · unfold peerMay; decide +kernel
  · decide +kernel
  · unfold peerMay; decide +kernel

/-- 09 R286, 15 R412: a completion by vectoring for a live thread and for one that has ended; a peer's read that fails. -/
theorem witness_CompletionsAndPeerReads :
    (∀ dead ∈ [false, true], let r := { requested false true none with dead := dead }
      let s := responding .landed r [0]
      holds (s.team tk) (fun tm => holds (tm.slot 5 0) (fun sl => sl.req == some r)) = true ∧ (s.busyBefore r.thr r.id = false ∨ r.dead = true) ∧
        r.dk = none ∧ r.uv = true ∧ (s.thread r.thr).live = true ∧ r.dead = dead) ∧
    (let s := { exposing false false with mem := [] }
     peerMay s 0 ⟨1, true⟩ 0x8000 256 false ∧ ∃ e, s.readVirt (manage 0 (0 == 0)) 0x8000 256 = .error e ∧ True) := by
  refine ⟨by decide +kernel, by unfold peerMay; decide +kernel, failed_of (P := fun _ => True) (by decide +kernel)⟩

/-! ### What the statements assume: time, the scheduler, synchronisation, tasks, jobs -/

/-- 06 R182, R190, 12 R337, R349, 15 R401 to R404: a request the level just covers; a microsecond with and without a table; counts
at their limits; a wait at its timeout; a future over and pending. -/
theorem witness_TimeAndTheCarillonAct :
    (let r : EReq := { who := .inl (key false), cost := 100, cyc := 0, rank := 0 }
     let s := { alone false [] with islands := [(0, { level := 100, rate := 5, cap := 100, used := 0, reqs := [r] })] }
     (s.island 0).reqs = [r] ∧ (s.island 0).grants (s.fromLevel r) = true) ∧
    (let r : EReq := { who := .inl (key false), cost := 100, cyc := 0, rank := 0, swap := true }
     let s := { seat false [0] worker id id (fun g => { g with resv := 40 }) with
       islands := [(0, { level := 60, rate := 5, cap := 100, used := 0, reqs := [r] })] }
     (s.island 0).reqs = [r] ∧ holds (s.group (key false)) (fun g =>
       Island.grants { s.island 0 with level := min ((s.island 0).level + g.resv) (s.island 0).cap } r.cost) = true) ∧
    (∀ e ∈ [none, some 0x8000], let s := { alone false [] with cycle := 1200, etab := e }
      s.cycle % 1200 = 0) ∧
    (let s := seat false [0] worker id (fun t => { t with wdog := 10, qdead := 4096 }) (fun g => { g with wcount := 1024 })
     holds (s.group (key false)) (fun g => !g.ended && decide (2 ^ 10 ≤ g.wcount)) = true ∧
     holds (s.team tk) (fun t => decide (t.wdog = 10 ∧ 4096 ≤ t.qdead)) = true ∧ s.resident tk = true) ∧
    (let s := { seat false [0] { worker with blk := some (.phaser 32 0 100 20 false) } id id id with cycle := 120 }
     (s.thread (me false)).blk = some (.phaser 32 0 100 20 false) ∧ (20 : Nat) ≠ 0 ∧ 100 + 20 ≤ s.cycle) ∧
    (∀ w ∈ [1, 2], let s := { seat false [0] { worker with blk := some (.future 5 false) } id id id with
        cycle := 2048, events := [(5, { word := BitVec.ofNat 64 w, waiters := [] })] }
      (s.thread (me false)).blk = some (.future 5 false) ∧ s.cycle % 1024 = 0 ∧ (s.event 5).over = decide (w = 2)) := by
  refine ⟨?_, ?_, ?_, ?_, ?_, ?_⟩ <;> decide +kernel

/-- A state whose one job is in some state; its team as changed. -/
def scheduled (j : Job → Job) (tm : Team → Team) : State := { seat false [0] worker j tm id with pass := none }

/-- A read in flight. -/
def reading : LineReq := { id := 0, gk := key false, spad := false, line := 0, plain := true, lanes := [], t0 := 0, pc := 0 }

/-- 13 R366 to R382: the last record of a full array; writes out of place; the oldest record; two clusters of four cores; a job
ready and one incoming; each case of a pre-emption; a spent budget; a job over; a team and a node at 1,024 cycles. -/
theorem witness_TheSchedulerTakesStartsSavesAndEndsJobs :
    (65536 - 64) % 64 = 0 ∧ (List.replicate (Config.admissionQueue - 1) (0 : Block)).length < Config.admissionQueue ∧
    (∀ x ∈ [(32, 0), (64, 32), (64, 65536)], x.1 ≠ 64 ∨ x.2 % 64 ≠ 0 ∨ 65536 ≤ x.2) ∧
    (0 % 64 = 0 ∧ Config.admissionQueue ≤ (List.replicate Config.admissionQueue (0 : Block)).length) ∧
    (let s := { State.reset with admq := [0, 1] }
     s.admq = 0 :: [1] ∧ s.ckpt = false) ∧
    placeFrom 2 2 (List.range 100) 2 = some [0, 2] ∧
    (∀ st ∈ [JobSt.ready, .incoming], let j := { placedJob 16 with st := st }
      let s := { State.reset with jobs := [j] }
      s.job 16 = some j ∧ s.mayStart j = some [0]) ∧
    (∀ x ∈ [(true, true), (false, true), (false, false)],
      let j := { placedJob 16 with moving := if x.1 then 5 else 0 }
      let a := scheduled (fun _ => j) (fun t => { t with yielded := x.1 || !x.2 })
      let b := { a with ckpt := x.2, teams := a.teams ++ (if x.1 || x.2 then [] else
        [{ (j.pipe.team tk 0) with key := { tk with idx := 1 }, ended := false }]) }
      b.job 16 = some j ∧ j.st = .running ∧ b.preemptDue j = true ∧ (savesMade b j).allYielded 16 = x.1 ∧
        (savesMade b j).mustLeave j = x.2) ∧
    (∀ resident ∈ [true, false],
      let j := { placedJob 16 with st := .stopping false }
      let a := scheduled (fun _ => j) (fun t => { t with resident := resident })
      a.job 16 = some j ∧ a.preemptDue j = true ∧ ¬∃ t ∈ (savesMade a j).teamsOf 16, t.resident = true) ∧
    (let j := { placedJob 16 with st := .stopping false }
     let a := scheduled (fun _ => j) id
     let b := { a with teams := a.teams ++ [{ (j.pipe.team tk 0) with key := { tk with idx := 1 }, core := 1, ended := false, reqs := [reading] }] }
     b.job 16 = some j ∧ b.preemptDue j = true ∧ ∃ t ∈ (savesMade b j).teamsOf 16, t.resident = true) ∧
    (∀ st ∈ [JobSt.running, .stopping false],
     let j := { placedJob 16 with st := st, left := 0 }
     let s := scheduled (fun _ => j) id
     s.job 16 = some j ∧ (j.st = .running ∨ j.st = .stopping false) ∧ j.left = 0 ∧ j.moving = 0 ∧ s.allYielded 16 = false) ∧
    (let j := { placedJob 16 with tev := some 5, rev := [6] }
     let s := scheduled (fun _ => j) (fun t => { t with ended := true })
     s.job 16 = some j ∧ s.mayEnd j = true) ∧
    (let s := { scheduled id id with cycle := 1024 }
     holds (s.job tk.job) (fun j => decide (j.st = .running ∧ j.moving = 0)) = true ∧ s.cycle % 1024 = 0 ∧
     holds (s.team tk) (fun t => t.resident && !t.yielded && !t.ended) = true) ∧
    (let s := { scheduled (fun j => { j with st := .node, regs := [5] }) id with cycle := 1024 }
     s.cycle % 1024 = 0 ∧ holds (s.job 16) (fun j => decide (j.st = .node)) = true) := by
  and_intros <;> decide +kernel

/-- 05 R146, R154, 09 R263, R264: fences of each kind, a JOIN past a later command and one that no lane may pass, ICSYNC.dev. -/
theorem witness_FencesAndJoinsWaitForEarlierWork :
    (∀ os ∈ [5#4, 10#4, 15#4], os ≠ 0#4 ∧ Meets (.fence ⟨7, os⟩) 7#3 [] []
      (fun s th => (s.thread th).popping = false ∧ ((Order.ofOs os).rel = true → s.quiet th = true) ∧
        ((Order.ofOs os).acq = true → s.reading th = false)) (alone false [])) ∧
    Meets (.join ⟨7, 31⟩) 7#3 [] [] (fun s th => (s.thread th).popping = false ∧
      ∀ tm ∈ s.team th.gk.team, tm.joining 31 (((s.thread th).mark).getD (s.nowId th.gk.team)) = false)
      (seat false [0] { worker with mark := some 3 } id (fun t => { t with copyq := [command (.scat 0 0 0 0 false false 0 [])] }) id) ∧
    Issued (.join ⟨7, 31⟩) (fun s p g => p.sel ≠ [] ∧ ∀ t ∈ p.sel, (g.thr t).pred 7#3 = true ∧ ((g.thr t).popping = true ∨
      holds (s.team p.gk.team) (fun tm => tm.joining 31 ((g.thr t).mark.getD (s.nowId p.gk.team))) = true))
      (seat false [0] worker id (fun t => { t with copyq := [command (.scat 0 0 0 0 false false 0 [])], nextId := 9 }) id) ∧
    Meets (.icsyncDev ⟨7⟩) 7#3 [] [] (fun s th => s.quiet th = true ∧ s.commanding th = false) (alone true []) := by
  refine ⟨each_cons ⟨by decide, ?_⟩ (each_cons ⟨by decide, ?_⟩ (each_cons ⟨by decide, ?_⟩ each_nil)),
    meets_of (e := false) (by decide +kernel) ⟨by decide +kernel, by decide +kernel⟩, issued_of (by decide +kernel),
    meets_of (e := true) (by decide +kernel) (by decide +kernel)⟩
  all_goals exact meets_of (e := false) (by decide +kernel) (by decide +kernel)

/-- A thread with its registration on the phaser at the end of the scratchpad, and a result it has been given. -/
def phased (e : Bool) (p : Phaser) (r : Option RegSlot) (w : Option WaitRes) (rs : List (Nat × Nat)) : State :=
  seat e [0] { holding rs with slots := updAt worker.slots 3 (fun _ => r), wres := w } id
    (fun t => { t with spad := cellWrite [] (2 ^ 18 - 32) (leBytes 32 p.toNum) }) id

/-- A phaser. -/
def counts (phase nsig narr : Nat) (bcnt : Int) : Phaser :=
  { phase := phase, nsig := nsig, narr := narr, bcnt := bcnt, pois := false, bcf := false, wmap := 0 }

/-- The offset of the last phaser. -/
def lastPh : Nat := 2 ^ 18 - 32

/-- 12 R336: each case of the check. -/
theorem witness_PhasersCountAndComplete :
    ((phased false (counts 7 1 0 (-1)) none none []).phaser tk lastPh).bcnt < 0 ∧
    (((phased false (counts 7 1 1 0) none none []).phaser tk lastPh).bcnt = 0 ∧
      ((phased false (counts 7 1 1 0) none none []).phaser tk lastPh).narr =
        ((phased false (counts 7 1 1 0) none none []).phaser tk lastPh).nsig) ∧
    0 < ((phased false (counts 7 1 1 1) none none []).phaser tk lastPh).bcnt ∧
    (((phased false (counts 7 2 1 0) none none []).phaser tk lastPh).bcnt = 0 ∧
      ((phased false (counts 7 2 1 0) none none []).phaser tk lastPh).narr ≠
        ((phased false (counts 7 2 1 0) none none []).phaser tk lastPh).nsig) := by
  decide +kernel

/-- A registration on the last phaser. -/
def roleOf (sig wt : Bool) (last : Option Nat) : Option RegSlot := some { off := lastPh, sig := sig, wt := wt, last := last }

/-- The end of a wait. -/
def endOf (bc timeout : Bool) : Option WaitRes :=
  some { off := lastPh, phase := 6, pz := true, bc := bc, timeout := timeout, bcf := bc }

/-- 12 R332 to R339: the last phaser; a new registration and one that is replaced; arrivals refused and not; the largest and one
more byte; a phase complete by one, by 2^31 - 1, and not; results of a timeout and of a byte-count fault. -/
theorem witness_PhaserWordsActOnTheirPhaser :
    let p := counts 7 3 1 5
    Meets (.pinit (ab 1 2)) 7#3 [1, 2] [] (phaserTurn 1 true) (phased false p none none [(1, lastPh), (2, 2 ^ 32)]) ∧
    (∀ r ∈ [none, roleOf true true none], Meets (.preg ⟨7, 31, 1, 3, false⟩) 7#3 [1, 31] [31]
      (fun s th => phaserGood 1 s th ∧
        none ∈ ((if ((s.thread th).regSlot (reg s th 1)).isSome then s.phDereg th (reg s th 1) else s).thread th).slots)
      (phased false p r none [(1, lastPh)])) ∧
    Meets (.pdereg (ra 1)) 7#3 [1] [] (phaserGood 1) (phased true p (roleOf true false none) none [(1, lastPh)]) ∧
    Meets (.parr (da 31 1)) 7#3 [1, 31] [31]
      (fun s th => phaserGood 1 s th ∧ s.quiet th = true ∧
        ∃ r, (s.thread th).regSlot (reg s th 1) = some r ∧ r.sig = true ∧ r.last ≠ some (phaserOf 1 s th).phase)
      (phased false p (roleOf true false (some 6)) none [(1, lastPh)]) ∧
    (∀ r ∈ [none, roleOf false true none, roleOf true false (some 7)], Meets (.parr (da 31 1)) 7#3 [1, 31] [31]
      (fun s th => phaserGood 1 s th ∧ ((s.thread th).regSlot (reg s th 1)).all (fun r =>
        decide (r.sig = false ∨ r.last = some (phaserOf 1 s th).phase)) = true) (phased false p r none [(1, lastPh)])) ∧
    Meets (.pbytes (ab 1 2)) 7#3 [1, 2] [] (fun s th => phaserGood 1 s th ∧ 0 ≤ sextN 32 (reg s th 2) ∧
      (phaserOf 1 s th).bcnt + sextN 32 (reg s th 2) < 2 ^ 31) (phased false p none none [(1, lastPh), (2, 2 ^ 31 - 6)]) ∧
    (∀ n ∈ [2 ^ 31 - 5, 2 ^ 32 - 1], Meets (.pbytes (ab 1 2)) 7#3 [1, 2] [] (fun s th => phaserGood 1 s th ∧
      (sextN 32 (reg s th 2) < 0 ∨ 2 ^ 31 ≤ (phaserOf 1 s th).bcnt + sextN 32 (reg s th 2)))
      (phased false p none none [(1, lastPh), (2, n)])) ∧
    (∀ b ∈ [6, 7 + 2 ^ 31 + 1], Meets (.ptest (rg 31 1 2)) 7#3 [1, 2, 31] [31]
      (fun s th => phaserSeen 1 s th ∧ completePhase (phaserOf 1 s th).phase (reg s th 2 % 2 ^ 32))
      (phased true p none none [(1, lastPh), (2, b)])) ∧
    (∀ b ∈ [7, 7 + 2 ^ 31], Meets (.ptest (rg 31 1 2)) 7#3 [1, 2, 31] [31]
      (fun s th => phaserSeen 1 s th ∧ ¬completePhase (phaserOf 1 s th).phase (reg s th 2 % 2 ^ 32))
      (phased true p none none [(1, lastPh), (2, b)])) ∧
    (∀ x ∈ [(Instr.pwait ⟨7, 3, 1, 30, false, false⟩, ([] : List Nat)), (.ptestW (rg 4 1 30), [4])],
      Meets x.1 7#3 ([1, 30, 31] ++ x.2) x.2 (fun s th => phaserGood 1 s th ∧ (s.thread th).wres = none ∧
        ((s.thread th).regSlot (reg s th 1)).any (fun r => r.wt) = true ∧
        completePhase (phaserOf 1 s th).phase (reg s th 30 % 2 ^ 32))
        (phased false p (roleOf false true none) none [(1, lastPh), (30, 6)]) ∧
      Meets x.1 7#3 ([1, 30, 31] ++ x.2) x.2 (fun s th => phaserGood 1 s th ∧ (s.thread th).wres = none ∧
        ((s.thread th).regSlot (reg s th 1)).any (fun r => r.wt) = true ∧
        ¬completePhase (phaserOf 1 s th).phase (reg s th 30 % 2 ^ 32))
        (phased false p (roleOf false true none) none [(1, lastPh), (30, 7)]) ∧
      Meets x.1 7#3 ([1, 30, 31] ++ x.2) x.2 (fun s th => phaserGood 1 s th ∧ ∃ r, (s.thread th).wres = some r ∧ r.bc = false)
        (phased false p (roleOf false true none) (endOf false true) [(1, lastPh), (30, 7)]) ∧
      Meets x.1 7#3 ([1, 30, 31] ++ x.2) x.2 (fun s th => phaserGood 1 s th ∧ ∃ r, (s.thread th).wres = some r ∧ r.bc = true)
        (phased false p (roleOf false true none) (endOf true false) [(1, lastPh), (30, 7)])) := by
  refine ⟨meets_of (e := false) (by decide +kernel) (by decide +kernel), ?_, meets_of (e := true) (by decide +kernel) (by decide +kernel),
    meets_of (e := false) (by decide +kernel) ⟨by decide +kernel, by decide +kernel, some_of (by decide +kernel)⟩, ?_,
    meets_of (e := false) (by decide +kernel) (by decide +kernel), ?_, ?_, ?_, ?_⟩
  · refine each_cons ?_ (each_cons ?_ each_nil)
    all_goals exact meets_of (e := false) (by decide +kernel) (by decide +kernel)
  · refine each_cons ?_ (each_cons ?_ (each_cons ?_ each_nil))
    all_goals exact meets_of (e := false) (by decide +kernel) (by decide +kernel)
  · refine each_cons ?_ (each_cons ?_ each_nil)
    all_goals exact meets_of (e := false) (by decide +kernel) (by decide +kernel)
  · refine each_cons ?_ (each_cons ?_ each_nil)
    all_goals exact meets_of (e := true) (by decide +kernel) (by decide +kernel)
  · refine each_cons ?_ (each_cons ?_ each_nil)
    all_goals exact meets_of (e := true) (by decide +kernel) (by decide +kernel)
  · refine each_cons ?_ (each_cons ?_ each_nil)
    all_goals
      refine ⟨meets_of (e := false) (by decide +kernel) (by decide +kernel), meets_of (e := false) (by decide +kernel) (by decide +kernel),
        meets_of (e := false) (by decide +kernel) ⟨by decide +kernel, some_of (by decide +kernel)⟩,
        meets_of (e := false) (by decide +kernel) ⟨by decide +kernel, some_of (by decide +kernel)⟩⟩

/-- 12 R333 to R337, 09 R255: a thread with no free slot, one with no role that the word needs, a negative count; an offset that is
not a multiple of 32, and the first past the scratchpad. -/
theorem witness_PhaserWordsRaiseBadarg :
    let p := counts 7 3 1 5
    let full (e : Bool) : State := seat e [0]
      { holding [(1, lastPh)] with slots := worker.slots.map (fun _ => some { off := 0, sig := true, wt := true, last := none }) } id id id
    Meets (.preg ⟨7, 31, 1, 3, false⟩) 7#3 [1, 31] [31]
      (fun s th => phaserThere 1 s th ∧ (s.thread th).regSlot (reg s th 1) = none ∧ none ∉ (s.thread th).slots) (full false) ∧
    (∀ r ∈ [none, roleOf false true none], Meets (.parr (da 31 1)) 7#3 [1, 31] [31]
      (fun s th => phaserThere 1 s th ∧ ((s.thread th).regSlot (reg s th 1)).all (fun r => r.sig == false) = true)
      (phased false p r none [(1, lastPh)])) ∧
    Meets (.pbytes (ab 1 2)) 7#3 [1, 2] [] (fun s th => phaserThere 1 s th ∧ sextN 32 (reg s th 2) < 0)
      (phased false p none none [(1, lastPh), (2, 2 ^ 32 - 1)]) ∧
    (∀ x ∈ [(Instr.pwait ⟨7, 3, 1, 30, false, false⟩, ([] : List Nat)), (.ptestW (rg 4 1 30), [4])], ∀ r ∈ [none, roleOf true false none],
      Meets x.1 7#3 ([1, 30, 31] ++ x.2) x.2 (fun s th => phaserThere 1 s th ∧ (s.thread th).wres = none ∧
        ((s.thread th).regSlot (reg s th 1)).all (fun r => r.wt == false) = true) (phased false p r none [(1, lastPh)])) ∧
    (∀ off ∈ [1, 2 ^ 18 - 31, 2 ^ 18],
      ∀ x ∈ [(Instr.pinit (ab 1 2), [1, 2], ([] : List Nat)), (.pbytes (ab 1 2), [1, 2], []), (.preg ⟨7, 31, 1, 3, false⟩, [1, 31], [31]),
          (.pdereg (ra 1), [1], []), (.parr (da 31 1), [1, 31], [31]), (.ptest (rg 31 1 2), [1, 2, 31], [31]),
          (.pwait ⟨7, 3, 1, 30, false, false⟩, [1, 30, 31], []), (.ptestW (rg 4 1 30), [1, 30, 31, 4], [4])],
        Meets x.1 7#3 x.2.1 x.2.2 (fun s th => ¬phaserThere 1 s th) (alone false [(1, off)])) := by
  refine ⟨meets_of (e := false) (by decide +kernel) (by decide +kernel), fun r hr => ?_,
    meets_of (e := false) (by decide +kernel) (by decide +kernel), fun x hx r hr => ?_, fun off ho x hx => ?_⟩
  · fin_cases hr <;> exact meets_of (e := false) (by decide +kernel) (by decide +kernel)
  · fin_cases hx <;> fin_cases hr <;> exact meets_of (e := false) (by decide +kernel) (by decide +kernel)
  · fin_cases ho <;> fin_cases hx <;> exact meets_of (e := false) (by decide +kernel) (by decide +kernel)

/-- A job with tasks whose team has records in its deque and its spill area. -/
def tasked (e : Bool) (dq : List Dword) (spill : Nat) (rs : List (Nat × Nat)) : State :=
  seat e [0] (holding rs) (fun j => { j with pipe := { j.pipe with tasks := true, spill := 0x8000, spillc := 2 } })
    (fun t => { t with deque := dq, spill := spill }) id

theorem tasksIn_of {e : Bool} {r : BitVec 5} {s : State} {gk : GroupKey}
    (h : gk.exe = e ∧ (e = true → r ≠ 31#5) ∧ holds (s.job gk.team.job) (fun j => decide (j.pipe.tasks = true)) = true) :
    tasksIn e r s gk := ⟨h.1, h.2.1, some_of h.2.2⟩

/-- A spill record reads. -/
def readable (f : OpSteal) (s : State) (th : ThreadKey) (v n : Nat) : Bool :=
  (spilled (looked f s th) th { th.gk.team with idx := v } (n - 1)).isSome

/-- The spill record that is next can be written. -/
def writable (s : State) (th : ThreadKey) (tm : Team) : Bool :=
  match s.transFor th .write (s.spillVa th.gk.team tm.spill) with | .ok _ _ => true | _ => false

/-- 12 R341 to R345, 19 R434: a part with room and full, a spill area full; a record on each side of the boundary; a victim by
number and by cursor, with a record in each part and with none; a selector out of range. -/
theorem witness_DequesHoldTheirRecords : ∀ e ∈ [false, true],
    let one : List Dword := [5]
    let full : List Dword := List.replicate 256 5
    let r : BitVec 5 := if e then 30#5 else 31#5
    let rs := recordOfRegs e r
    let T (i : Instr) (srcs ds : List Nat) (C : State → ThreadKey → Prop) (s : State) : Prop :=
      tasksIn e r s (key e) ∧ Meets i 7#3 srcs ds (fun s th => s.thefts = [] ∧ C s th) s
    let steal : OpSteal := ⟨7, r, 1, 3⟩
    T (.spawn ⟨7, r, 3⟩) rs [] (fun s th => s.quiet th = true ∧ ∃ tm, s.team th.gk.team = some tm ∧ tm.deque.length < 256)
      (tasked e (full.drop 1) 0 []) ∧
    T (.spawn ⟨7, r, 3⟩) rs [] (fun s th => s.quiet th = true ∧ ∃ tm, s.team th.gk.team = some tm ∧ 256 ≤ tm.deque.length ∧
      tm.spill ≠ s.spillCap th.gk.team ∧ writable s th tm = true) (tasked e full 1 []) ∧
    T (.spawn ⟨7, r, 3⟩) rs [] (fun s th => s.quiet th = true ∧ ∃ tm, s.team th.gk.team = some tm ∧ 256 ≤ tm.deque.length ∧
      tm.spill = s.spillCap th.gk.team) (tasked e full 2 []) ∧
    T (.take ⟨7, r, 3⟩) rs rs (fun s th => ∃ tm, s.team th.gk.team = some tm ∧ tm.spill = 0 ∧ (tm.deque.getLast?).isSome = true)
      (tasked e one 0 []) ∧
    T (.take ⟨7, r, 3⟩) rs rs (fun s th => ∃ tm, s.team th.gk.team = some tm ∧ 0 < tm.spill ∧
      (spilled s th th.gk.team (tm.spill - 1)).isSome = true) (tasked e full 2 []) ∧
    T (.take ⟨7, r, 3⟩) rs rs (fun s th => ∃ tm, s.team th.gk.team = some tm ∧ tm.spill = 0 ∧ tm.deque = []) (tasked e [] 0 []) ∧
    T (.steal steal) (1 :: rs) rs (fun s th => (s.stealWaits th.gk.team (reg s th 1) = false ∧
        s.victim th.gk.team (reg s th 1) = some (some 0)) ∧
      ∃ tm, s.team { th.gk.team with idx := 0 } = some tm ∧ tm.deque = [5]) (tasked e one 0 [(1, 0)]) ∧
    T (.steal steal) (1 :: rs) rs (fun s th => (s.stealWaits th.gk.team (reg s th 1) = false ∧
        s.victim th.gk.team (reg s th 1) = some (some 0)) ∧
      ∃ tm, s.team { th.gk.team with idx := 0 } = some tm ∧ tm.deque = [] ∧ readable steal s th 0 tm.spill = true)
      (tasked e [] 1 [(1, 0)]) ∧
    T (.steal steal) (1 :: rs) rs (fun s th => s.stealWaits th.gk.team (reg s th 1) = false ∧
      s.victim th.gk.team (reg s th 1) = some none) (tasked e one 0 [(1, 31)]) ∧
    T (.steal steal) (1 :: rs) rs (fun s th => s.victim th.gk.team (reg s th 1) = none) (tasked e one 0 [(1, 1)]) := by
  intro e he
  fin_cases he
  · iterate 9
      refine And.intro ?_ ?_
      rotate_left
    all_goals refine ⟨tasksIn_of ?_, ?_⟩
    all_goals first
      | decide +kernel
      | exact meets_of (e := false) (by decide +kernel) (by decide +kernel)
  · iterate 9
      refine And.intro ?_ ?_
      rotate_left
    all_goals refine ⟨tasksIn_of ?_, ?_⟩
    all_goals first
      | decide +kernel
      | exact meets_of (e := true) (by decide +kernel) (by decide +kernel)

/-- Context 0 with the last four events, and one of them with a state word. -/
def eventful (e : Bool) (t : Thread) (w : Nat) : State :=
  { seat e [0] t id id id with
    ctxs := [{ ctx0 with evBase := 2 ^ 16 - 4, evCount := 4 }], events := [(2 ^ 16 - 1, { word := BitVec.ofNat 64 w, waiters := [] })] }

/-- Register 1 names the last event. -/
def naming : Thread := holding [(1, 2 ^ 16 - 1), (2, 9)]

/-- 12 R346 to R350: an EMPTY future, a PENDING one with and without waiters, READY and FAULTED ones, each word with the last event
and an id past the range; an overflow record that software has unmapped. -/
theorem witness_FuturesFollowTheirPseudocode :
    let F (i : Instr) (rs ds : List Nat) (C : State → ThreadKey → Prop) (s : State) : Prop :=
      Meets i 7#3 rs ds (fun s th => eventGood 1 s th ∧ C s th) s
    (let r : OvfRec := { job := 16, ix := 0, ctx := 0, va := 0x8000, fill := 0 }
     (alone false []).intact r = false) ∧
    (∀ x ∈ [(0#5, 1), (1#5, 0)], F (.fnew ⟨7, 1, x.1⟩) [1] [] (fun s th =>
      ((eventOf 1 s th).st = 1 → (eventOf 1 s th).wcnt = 0) ∧ (x.1 = 1#5 → (s.thread th).fbind = none) ∧
      s.reading th = false) (eventful false naming x.2)) ∧
    (∀ x ∈ [(0#5, 1 + 256, naming), (1#5, 2, { naming with fbind := some 3 })], F (.fnew ⟨7, 1, x.1⟩) [1] [] (fun s th =>
      ((eventOf 1 s th).st = 1 ∧ 0 < (eventOf 1 s th).wcnt) ∨ (x.1 = 1#5 ∧ (s.thread th).fbind ≠ none)) (eventful false x.2.2 x.2.1)) ∧
    (∀ i ∈ [Instr.fres ⟨7, 1, 2, 3⟩, .fresF ⟨7, 1, 2, 3⟩],
      F i [1, 2] [] (fun s th => s.quiet th = true ∧ (eventOf 1 s th).st < 2) (eventful true naming 1) ∧
      F i [1, 2] [] (fun s th => s.quiet th = true ∧ 2 ≤ (eventOf 1 s th).st) (eventful true naming 2)) ∧
    F (.freg ⟨7, 1, 2, 3⟩) [1, 2] [] (fun s th => s.quiet th = true) (eventful false naming 3) ∧
    F (.fwait ⟨7, 31, 1, 3⟩) [1, 31] [31] (fun s th => 2 ≤ (eventOf 1 s th).st) (eventful false naming 3) ∧
    F (.fwait ⟨7, 31, 1, 3⟩) [1, 31] [31] (fun s th => (eventOf 1 s th).st < 2 ∧ s.reading th = false) (eventful false naming 1) ∧
    Meets (.fstat ⟨7, 31, 1⟩) 7#3 [1, 31] [31] (eventGood 1) (eventful true naming 2) ∧
    Meets (.fstatHi ⟨7, 31, 1⟩) 7#3 [1, 31] [31] (eventGood 1) (eventful true naming 2) ∧
    (∀ n ∈ [2 ^ 16, 2 ^ 16 - 5],
      ∀ x ∈ [(false, Instr.fnew ⟨7, 1, 0⟩, [1], ([] : List Nat)), (false, .fres ⟨7, 1, 2, 3⟩, [1, 2], []), (false, .fresF ⟨7, 1, 2, 3⟩, [1, 2], []),
          (false, .freg ⟨7, 1, 2, 3⟩, [1, 2], []), (false, .fwait ⟨7, 31, 1, 3⟩, [1, 31], [31]),
          (false, .fstat ⟨7, 31, 1⟩, [1, 31], [31]), (true, .fstatHi ⟨7, 31, 1⟩, [1, 31], [31])],
        Meets x.2.1 7#3 x.2.2.1 x.2.2.2 (fun s th => ¬eventGood 1 s th) (eventful x.1 (holding [(1, n)]) 0)) := by
  refine ⟨by decide +kernel, ?_, ?_, ?_, ?_, ?_, ?_, ?_, ?_, ?_⟩
  · refine each_cons ?_ (each_cons ?_ each_nil)
    all_goals exact meets_of (e := false) (by decide +kernel) ⟨some_of (by decide +kernel), by decide +kernel⟩
  · refine each_cons ?_ (each_cons ?_ each_nil)
    all_goals exact meets_of (e := false) (by decide +kernel) ⟨some_of (by decide +kernel), by decide +kernel⟩
  · refine each_cons ?_ (each_cons ?_ each_nil)
    all_goals exact ⟨meets_of (e := true) (by decide +kernel) ⟨some_of (by decide +kernel), by decide +kernel⟩,
      meets_of (e := true) (by decide +kernel) ⟨some_of (by decide +kernel), by decide +kernel⟩⟩
  · exact meets_of (e := false) (by decide +kernel) ⟨some_of (by decide +kernel), by decide +kernel⟩
  · exact meets_of (e := false) (by decide +kernel) ⟨some_of (by decide +kernel), by decide +kernel⟩
  · exact meets_of (e := false) (by decide +kernel) ⟨some_of (by decide +kernel), by decide +kernel⟩
  · exact meets_of (e := true) (by decide +kernel) (some_of (by decide +kernel))
  · exact meets_of (e := true) (by decide +kernel) (some_of (by decide +kernel))
  · intro n hn x hx
    have hr : readyFor (eventful x.1 (holding [(1, n)]) 0) x.1 x.2.1 7#3 (x.2.2.1 ++ x.2.2.2) = true := by
      fin_cases hn <;> fin_cases hx <;> decide +kernel
    refine meets_of hr ?_
    rintro ⟨c, hc, h⟩
    revert h
    fin_cases hn
    all_goals
      obtain ⟨d, hd, h'⟩ := some_of (o := State.ctx (eventful false (holding [(1, 0)]) 0) 0)
        (P := fun c => c.evBase = 2 ^ 16 - 4 ∧ c.evCount = 4) (by decide +kernel)
      have hcd : c = d := by
        have := hc.symm.trans (show _ = some d from hd)
        exact Option.some_inj.mp this
      subst hcd
      rw [h'.1, h'.2]
      clear * -
      cases x.1 <;> decide +kernel

/-- 12 R351 to R355, 15 R404: the last record, each word, a request of the whole rate and of one more. -/
theorem witness_JobWordsLaunchTriggerYieldAndReserve :
    let s (n : Nat) : State := { seat false [0] (holding [(1, n)]) id id (fun g => { g with leave := some 501, resv := 501 }) with
      islands := [(0, { level := 100, rate := 500, cap := 100, used := 0, reqs := [] })] }
    let asked (n : Nat) : State := { s n with
      islands := [(0, { level := 100, rate := 499, cap := 100, used := 0, reqs := [{ who := .inl (key false), cost := n, cyc := 0, rank := 0, swap := true }] })] }
    Meets (.jlaunch ⟨7, 31, 1, 3⟩) 7#3 [1, 31] [31] (fun s th => reg s th 1 % 64 = 0 ∧ reg s th 1 < Config.spadBytes ∧ s.quiet th = true ∧
      s.ckpt = false ∧ s.spadEcc th.gk.team (reg s th 1) 64 = false) (alone false [(1, 2 ^ 18 - 64)]) ∧
    (∀ off ∈ [32, 2 ^ 18], Meets (.jlaunch ⟨7, 31, 1, 3⟩) 7#3 [1, 31] [31]
      (fun s th => reg s th 1 % 64 ≠ 0 ∨ Config.spadBytes ≤ reg s th 1) (alone false [(1, off)])) ∧
    Meets (.trigger ⟨7⟩) 7#3 [] [] (fun s th => s.quiet th = true) (alone true []) ∧
    Meets (.jyield ⟨7⟩) 7#3 [] [] (fun _ _ => True) (alone false []) ∧
    Meets (.leave ⟨7, 31, 1⟩) 7#3 [1, 31] [31] (fun s th => reg s th 1 % 2 ^ 32 = 0) (s (2 ^ 32)) ∧
    Meets (.leave ⟨7, 31, 1⟩) 7#3 [1, 31] [31] (fun s th => reg s th 1 % 2 ^ 32 ≠ 0 ∧
      (s.group th.gk).map (fun g => g.leave) = some (some (reg s th 1 % 2 ^ 32))) (s 501) ∧
    (∀ u ∈ [s 500, asked 500], Meets (.leave ⟨7, 31, 1⟩) 7#3 [1, 31] [] (fun s th => reg s th 1 % 2 ^ 32 ≠ 0 ∧
      (reg s th 1 % 2 ^ 32 ≤ (s.island (s.coreOf th.gk.team)).rate ∨ s.leaveAsked th.gk = true) ∧
      (s.group th.gk).map (fun g => g.leave) ≠ some (some (reg s th 1 % 2 ^ 32)) ∧ s.leaveStands th 7#3 = false) u) ∧
    Meets (.leave ⟨7, 31, 1⟩) 7#3 [1, 31] [31] (fun s th => (s.island (s.coreOf th.gk.team)).rate < reg s th 1 % 2 ^ 32 ∧
      s.leaveAsked th.gk = false ∧ (s.group th.gk).map (fun g => g.leave) ≠ some (some (reg s th 1 % 2 ^ 32))) (s 502) := by
  refine ⟨meets_of (e := false) (by decide +kernel) (by decide +kernel), each_cons ?_ (each_cons ?_ each_nil),
    meets_of (e := true) (by decide +kernel) (by decide +kernel),
    meets_of (e := false) (by decide +kernel) trivial, meets_of (e := false) (by decide +kernel) (by decide +kernel),
    meets_of (e := false) (by decide +kernel) (by decide +kernel), each_cons ?_ (each_cons ?_ each_nil),
    meets_of (e := false) (by decide +kernel) (by decide +kernel)⟩
  all_goals exact meets_of (e := false) (by decide +kernel) (by decide +kernel)

/-- Lane 1 of the group is stopped, or not. -/
def halted (st : Option Stop) (rs : List (Nat × Nat)) : State :=
  seat false [0] (holding rs) id id (fun g => { g with threads := updAt g.threads 1 (fun t => { t with stop := st }) })

/-- The second group of the team has ended with its lane 0 stopped by a cause. -/
def endedBeside (rs : List (Nat × Nat)) : State :=
  let s := alone false rs
  { s with groups := s.groups ++ s.groups.map (fun g => { g with
      key := { g.key with grp := 1 }, ended := true, threads := { worker with stop := some { debug := false, resume := 0xC004, raising := 0xC000 } } :: g.threads.tail }) }

/-- The stop of a thread. -/
def stopBy (debug : Bool) : Option Stop := some { debug := debug, resume := 0xC004, raising := 0xC000 }

/-- 12 R360 to R363: thread 1 stopped by a cause, by the debugger and not at all, one of a group that
has ended, and no such thread; a name out of range; each scope
of TLBINV; the last quadrant of the last core, and past them. -/
theorem witness_PrivilegedWordsServeTheSystem :
    (∀ m ∈ [false, true], Meets (.sret ⟨7, 31, 1, m⟩) 7#3 [1, 31] [31] (fun s th => reg s th 1 < 2 ^ 23 ∧
      ∃ x, s.named (reg s th 1) = some x ∧ ∃ g, s.group x.gk = some g ∧ g.ended = false ∧
        ∃ st, (g.thr x.thr).stop = some st ∧ st.debug = false) (halted (stopBy false) [(1, 2 ^ 18 + 2 ^ 12)])) ∧
    (∀ x ∈ [(stopBy true, 2 ^ 18 + 2 ^ 12), (none, 2 ^ 18 + 2 ^ 12), (none, 2 ^ 23 - 1)], Meets (.sret ⟨7, 31, 1, false⟩) 7#3 [1, 31] [31]
      (fun s th => reg s th 1 < 2 ^ 23 ∧ (s.named (reg s th 1)).all (fun x => (s.thread x).stop.all (fun st => st.debug)) = true)
      (halted x.1 [(1, x.2)])) ∧
    Meets (.sret ⟨7, 31, 1, false⟩) 7#3 [1, 31] [31]
      (fun s th => reg s th 1 < 2 ^ 23 ∧ s.named (reg s th 1) = some ⟨{ key false with grp := 1 }, 0⟩ ∧
        holds (s.group { key false with grp := 1 }) (fun g => g.ended) = true) (endedBeside [(1, 2 ^ 12 + 2 ^ 13)]) ∧
    Meets (.sret ⟨7, 31, 1, true⟩) 7#3 [1, 31] [31] (fun s th => 2 ^ 23 ≤ reg s th 1) (halted none [(1, 2 ^ 23)]) ∧
    (∀ k ∈ [0#2, 1, 2], Meets (.tlbinv ⟨7, 2, 1, k⟩) 7#3 [1, 2] []
      (fun s th => s.invWaits k.toNat (reg s th 2) (reg s th 1) = false) (alone false [])) ∧
    Meets (.tlbinv ⟨7, 2, 1, 0⟩) 7#3 [1, 2] [] (fun s th => s.invWaits 0 (reg s th 2) (reg s th 1) = true)
      (seat false [0] (holding [(1, 0x138)]) id (fun t => { t with stores := [waiting false 0 0x138] }) id) ∧
    Meets (.ctxq ⟨7, 31, 1, 4⟩) 7#3 [1, 31] [31] (fun _ _ => True) (alone false []) ∧
    Meets (.haltq ⟨7, 31, 1⟩) 7#3 [1, 31] [31] (fun s th => reg s th 1 < 2 ^ 13 ∧ bits (reg s th 1) 9 0 < 576)
      (alone false [(1, 575 + 3 * 2 ^ 10 + 2 ^ 12)]) ∧
    (∀ n ∈ [2 ^ 13, 576], Meets (.haltq ⟨7, 31, 1⟩) 7#3 [1, 31] [31]
      (fun s th => 2 ^ 13 ≤ reg s th 1 ∨ 576 ≤ bits (reg s th 1) 9 0) (alone false [(1, n)])) := by
  refine ⟨each_cons ?_ (each_cons ?_ each_nil), each_cons ?_ (each_cons ?_ (each_cons ?_ each_nil)),
    meets_of (e := false) (by decide +kernel) (by decide +kernel), meets_of (e := false) (by decide +kernel) (by decide +kernel), each_cons ?_ (each_cons ?_ (each_cons ?_ each_nil)),
    meets_of (e := false) (by decide +kernel) (by decide +kernel), meets_of (e := false) (by decide +kernel) trivial, meets_of (e := false) (by decide +kernel) (by decide +kernel),
    each_cons ?_ (each_cons ?_ each_nil)⟩
  iterate 2
    refine meets_of (e := false) (by decide +kernel) ⟨by decide +kernel, ⟨key false, 1⟩, by decide +kernel, ?_⟩
    obtain ⟨g, hg, h⟩ := some_of (o := State.group (halted (stopBy false) [(1, 2 ^ 18 + 2 ^ 12)]) (key false))
      (P := fun g => g.ended = false ∧ holds (g.thr 1).stop (fun st => decide (st.debug = false)) = true) (by decide +kernel)
    exact ⟨g, hg, h.1, some_of h.2⟩
  all_goals exact meets_of (e := false) (by decide +kernel) (by decide +kernel)

/-- The record of an ATTD (04 R130): the table, the list at 0xA000, one block of one token, queue 1, and more. -/
def attRecord (desc : Nat) (uv : Bool) (more : Nat) : Nat :=
  desc + 0xA000 * 2 ^ 64 + 2 ^ 128 + 2 ^ 160 + 64 * 2 ^ 256 + 2 ^ 304 + (if uv then 2 ^ 309 else 0) + more

/-- The access team with a record at the end of its scratchpad, over the mapped memory, with a descriptor of a prefix table at
0x8080, and block queue n. -/
def attdAt (qn n : Nat) : State :=
  { seat false [0] (holding [(1, 2 ^ 18 - 64)]) id (fun t => { t with
      spad := cellWrite [] (2 ^ 18 - 64) (leBytes 64 n)
      queues := [{ queue .block .ae false true [] with ref := { name := qn, inst := 0 } }] }) id with
    mem := cellWrite (mapped false) 0x8080 (leBytes 16 (0xA000 + 2 ^ 64 + 2 ^ 96)) }

/-- The table at 0x8000. -/
def attDesc : TableDesc := TableDesc.ofNat (0xA000 + 2 ^ 64)

theorem attTable_of {f : OpDA} {s : State} {th : ThreadKey} (d : TableDesc) {P : List Nat → Prop} [DecidablePred P]
    (h : attChecked f s th ∧ attReserved (attAt f s th) = false ∧
      holds (readDesc (attReads f s th) (attFields f s th).desc).toOption (fun x => decide (x = some d)) = true ∧ d.kind = 0 ∧
      (attFields f s th).kvh ≤ d.hkv ∧
      walked s (s.readsWho th) ((linePieces (attFields f s th).list (4 * (attFields f s th).nblk)).map (fun p => p.1)))
    (hl : holds (s.readVirt (s.readsWho th) (attFields f s th).list (4 * (attFields f s th).nblk)).toOption
      (fun bs => decide (P (listOf (leNat bs) (attFields f s th).nblk))) = true) :
    ∃ l, attTable f s th d l ∧ P l := by
  obtain ⟨h1, h2, h3, h4, h5, h6⟩ := h
  have he : readDesc (attReads f s th) (attFields f s th).desc = .ok (some d) := by
    cases hr : readDesc (attReads f s th) (attFields f s th).desc with
    | ok x =>
      simp only [hr, Except.toOption, holds, decide_eq_true_eq] at h3
      rw [h3]
    | error e => simp [hr, Except.toOption, holds] at h3
  cases hr : s.readVirt (s.readsWho th) (attFields f s th).list (4 * (attFields f s th).nblk) with
  | ok bs =>
    simp only [hr, Except.toOption, holds, decide_eq_true_eq] at hl
    exact ⟨_, ⟨h1, h2, he, h4, h5, h6, bs, hr, rfl⟩, hl⟩
  | error e => simp [hr, Except.toOption, holds] at hl

/-- 12 R356, R357, 04 R127: each KV word before it is sent, and with each result. -/
theorem witness_KvWordsWaitForTheirProbe :
    let K (o : Option KvOp) : State := seat false [0] { worker with kv := o } id id id
    let done (out : KvOut) : Option KvOp := some { probing 0 0x8000 with out := some out }
    ∀ x ∈ [(Instr.kvlook (rg 31 1 2), ([1, 2, 31] : List Nat)), (.kvins (rg 31 1 30), [1, 30, 31, 31]), (.kvdel (rg 31 1 2), [1, 2, 31]),
        (.pfxlook (rg 31 1 2), [1, 2, 31]), (.pfxins (rg 31 1 30), [1, 30, 31, 31])],
      Meets x.1 7#3 x.2 [] (fun s th => s.pass.map (fun p => p.sel) = some [0] ∧ (s.thread th).kv = none ∧ s.quiet th = true) (K none) ∧
      ∀ o ∈ [KvOut.result (kvResult 3 9 2) true, .result (kvResult 3 9 2) false, .fault .nomap 0x8000, .ecc 0x8000],
        Meets x.1 7#3 x.2 [31] (fun s th => (s.thread th).kv = done o) (K (done o)) := by
  intro K done x hx
  refine ⟨?_, fun o ho => ?_⟩
  · fin_cases hx <;> exact meets_of (e := false) (by decide +kernel) (by decide +kernel)
  · fin_cases hx <;> fin_cases ho <;> exact meets_of (e := false) (by decide +kernel) (by decide +kernel)

/-- 12 R358, 04 R130, R131: an ATTD with each code, with and without UV, and one that is accepted by each way of delivery, with its
last landing place. -/
theorem witness_AttdGivesItsCodes :
    let f : OpDA := da 31 1
    let A (C : State → ThreadKey → Prop) (s : State) : Prop := Meets (.attd f) 7#3 [1, 31] [31] C s
    A (fun s th => attChecked f s th ∧ attReserved (attAt f s th) = true) (attdAt 1 (attRecord 0x8000 false (2 ^ 511))) ∧
    A (fun s th => (attChecked f s th ∧ attReserved (attAt f s th) = false) ∧
      ∃ o, (readDesc (attReads f s th) (attFields f s th).desc).toOption = some o ∧ o = none) (attdAt 1 (attRecord 0x8040 false 0)) ∧
    A (fun s th => (attChecked f s th ∧ attReserved (attAt f s th) = false) ∧
      ∃ o, (readDesc (attReads f s th) (attFields f s th).desc).toOption = some o ∧ o.any (fun d => d.kind == 1) = true)
      (attdAt 1 (attRecord 0x8080 false 0)) ∧
    A (fun s th => (attChecked f s th ∧ attReserved (attAt f s th) = false) ∧
      ∃ o, (readDesc (attReads f s th) (attFields f s th).desc).toOption = some o ∧
        o.any (fun d => d.kind == 0 && decide (d.hkv < (attFields f s th).kvh)) = true) (attdAt 1 (attRecord 0x8000 false (2 ^ 296))) ∧
    A (fun s th => ∃ l, attTable f s th attDesc l ∧ (attFields f s th).tooLong attDesc (stackMask l) = true)
      (attdAt 1 (attRecord 0x8000 true ((2 ^ 18 - 64) * 2 ^ 352))) ∧
    (∀ uv : Bool, A (fun s th => ∃ l, attTable f s th attDesc l ∧ ((attFields f s th).tooLong attDesc (stackMask l) = false ∧
      s.attQueue th.gk (attFields f s th).qn = none)) (attdAt 2 (attRecord 0x8000 uv 0))) ∧
    (∀ x ∈ [(false, 0, 0), (true, 5, 2 ^ 18 - 64 * 3), (true, 0, 2 ^ 18 - 64 * 2)],
      A (fun s th => ∃ l, attTable f s th attDesc l ∧ ((attFields f s th).tooLong attDesc (stackMask l) = false ∧
        s.attQueue th.gk (attFields f s th).qn ≠ none ∧
        s.spadEcc th.gk.team (attFields f s th).qoff (4 * attDesc.dim * ((attFields f s th).hq + 1)) = false ∧
        s.attInFlight (s.coreOf th.gk.team) < 16)) (attdAt 1 (attRecord 0x8000 x.1 (x.2.1 * 2 ^ 224 + x.2.2 * 2 ^ 352)))) ∧
    (∀ off ∈ [32, 2 ^ 18], A (fun s th => th.gk.exe = false ∧ (reg s th 1 % 64 ≠ 0 ∨ Config.spadBytes ≤ reg s th 1))
      (alone false [(1, off)])) := by
  refine ⟨?_, ?_, ?_, ?_, ?_, fun uv => ?_, fun x hx => ?_, fun off ho => ?_⟩
  · exact meets_of (e := false) (by decide +kernel) (by unfold attChecked; decide +kernel)
  · exact meets_of (e := false) (by decide +kernel) ⟨by unfold attChecked; decide +kernel, some_of (by decide +kernel)⟩
  · exact meets_of (e := false) (by decide +kernel) ⟨by unfold attChecked; decide +kernel, some_of (by decide +kernel)⟩
  · exact meets_of (e := false) (by decide +kernel) ⟨by unfold attChecked; decide +kernel, some_of (by decide +kernel)⟩
  · exact meets_of (e := false) (by decide +kernel) (attTable_of attDesc (by unfold attChecked; decide +kernel) (by decide +kernel))
  · cases uv <;>
      exact meets_of (e := false) (by decide +kernel) (attTable_of attDesc (by unfold attChecked; decide +kernel) (by decide +kernel))
  · fin_cases hx <;>
      exact meets_of (e := false) (by decide +kernel) (attTable_of attDesc (by unfold attChecked; decide +kernel) (by decide +kernel))
  · fin_cases ho <;> exact meets_of (e := false) (by decide +kernel) (by decide +kernel)

/-! ### What the statements assume: the host, the debugger, the whole machine -/

/-- The state after reset with slots 1 to 3 EMPTY at the last epoch, LOADED and DESTROYED. -/
def keyed : State :=
  { State.reset with slots := [(1, { st := .empty, epoch := 255 }), (2, { st := .loaded, epoch := 1 }), (3, { st := .destroyed, epoch := 1 })] }

/-- Context 5 that owns slot 2, with a translation of its own in slice 0, without jobs. -/
def owning : State :=
  { keyed with
    ctxs := [ctx0, { ctx0 with ctxid := 5, ownslot := 2 }], l2tlb := [(0, { ctx := 5, base := 0, lvl := 4, pte := placedPte })] }

/-- A channel with a request that is on its way. -/
def owed : Channel := { num := 0, peer := 0, uv := false, slots := [{ st := .reserved, req := none, data := [], todo := [] }], order := [] }

/-- A context at the last value of each field. -/
def lastContext : CtxDesc := { ctxid := 4095, part := 0, ownslot := 255, root := 2 ^ 34 - 1, slotmask := 0 }

/-- 15 R408: the window's last byte, read right and uncorrectable; a window under a slot that is not LOADED. -/
theorem test_windowStates :
    State.reset.readPhys State.reset.window.2 (State.reset.window.1 + (2 ^ 30 - 1)) 1 = .ok [0] ∧
    (let s := State.reset.hbmBad ((State.reset.window.1 + (2 ^ 30 - 1)) / 64)
     s.readPhys s.window.2 (s.window.1 + (2 ^ 30 - 1)) 1 = .ecc) ∧
    (let s := { State.reset with window := (0, 9) }
     (s.slot s.window.2).st ≠ .loaded) := by
  and_intros <;> decide +kernel

/-- 15 R409, 01 R37 to R41: a busy slot, and a slot that does not exist; a key slot in each state; the last fields of a context, its
save area, its events, its peers; a job that has not ended; the bounds of each register; the tables with and without slices; a
checkpoint to a destination that exists and one that does not, with a team at rest and one that is owed a response; an idle slot for
bytes that may be no command (log 61 leaves open which are). -/
theorem witness_TheHostReachesTheDevice :
    ((0 : Nat) < 1 ∧ 2 ^ 30 - 1 + 1 ≤ 2 ^ 30 ∧ (State.reset.slot State.reset.window.2).st = .loaded) ∧
    ([1#8] ≠ [] ∧ 2 ^ 30 - 1 + [1#8].length ≤ 2 ^ 30) ∧
    (∀ ms ∈ [15, 16], mailWord (.endCtx ms 5) = some (ms, .endCtx 5)) ∧
    (let s := { State.reset with mbox := [(15, { busy := true, command := 0, response := 0 })] }
     (s.mboxSlot 15).busy = true) ∧
    idleSlot keyed 15 ∧ ((1 ≤ 255 ∧ 255 ≤ 255) ∧ (keyed.slot 1).st = .empty ∧ (keyed.slot 1).epoch = 255 ∧ (keyed.slot 255).st = .empty ∧
    (keyed.slot 2).st ≠ .empty ∧ (keyed.slot 3).st = .destroyed) ∧
    (idleSlot owning 0 ∧ lastContext.ctxid ≤ 4095 ∧ lastContext.part ≤ 7 ∧ lastContext.ownslot ≤ 255 ∧ lastContext.root < 2 ^ 34 ∧
     (owning.shared = true → lastContext.part = 0) ∧
     (lastContext.ownslot ≠ 0 → ∀ c ∈ owning.ctxs, c.ended = false → c.ownslot = lastContext.ownslot → c.ctxid = lastContext.ctxid) ∧
     ¬liveContext owning lastContext.ctxid) ∧
    (liveContext owning 5 ∧ idleContext owning 5 ∧ (2 ^ 64 - 65536) % 65536 = 0 ∧ 2 ^ 64 - 65536 + 65536 ≤ 2 ^ 64 ∧
      canonical (2 ^ 64 - 65536) = true) ∧
    (0 + 65536 ≤ 65536 ∧ ∀ x ∈ owning.ctxs, x.ended = false → x.ctxid ≠ 5 →
      x.evBase + x.evCount ≤ 0 ∨ 0 + 65536 ≤ x.evBase ∨ 65536 = 0 ∨ x.evCount = 0) ∧
    (owning.sliceIn 5 = false ∧ ∀ e : PeerEntry, (List.replicate 65536 e).length ≤ 65536) ∧
    (2 ^ 64 - 1 < 2 ^ 64 ∧ ∀ p ∈ [0, 65535], p ≤ 65535) ∧
    (let s := begun (scheduled id id) 0 (.abandon 0 (2 ^ 32 - 1))
     (((s.jobsIn 0).filter (fun j => j.aband.isNone)).foldl (fun (s : State) j => s.abandonJob (2 ^ 32 - 1) j) s).jobsIn 0 ≠ []) ∧
    (idleSlot (scheduled id id) 0 ∧ liveContext (scheduled id id) 0 ∧ ∃ j ∈ (scheduled id id).jobs, j.id = 16 ∧ j.st ≠ .ended) ∧
    ((2 ^ 39 - 16384) % 16 = 0 ∧ 2 ^ 39 - 16384 + 16384 ≤ 2 ^ 39 ∧ 65535 ≤ 4 * 65535 ∧ (2 ^ 39 - 2 ^ 30) % 2 ^ 30 = 0) ∧
    (let t : List Partition := (List.range 8).map (fun i => { sbase := i, scnt := 1, cores := [72 * i + 71] })
     tableCores t = true ∧ tableOk t = true ∧ ¬(false = owning.shared ∧ (false = true ∨ t = owning.parts))) ∧
    (true = owning.shared ∧ (true = true ∨ [] = owning.parts)) ∧
    (let u := scheduled (fun j => { j with st := .ready }) id
     idleSlot u 0 ∧ (∀ j ∈ u.jobs, j.cores = []) ∧ u.teams ≠ [] ∧ ∀ t ∈ u.teams, (begun u 0 (.checkpoint (.peer 0))).atRest t = true) ∧
    (∃ j ∈ (scheduled id id).jobs, j.cores ≠ []) ∧
    (let u := scheduled id (fun t => { t with chans := [owed] })
     ∃ t ∈ u.teams, (begun u 0 (.checkpoint (.peer 0))).atRest t = false) ∧
    (State.reset.mboxSlot 15).busy = false ∧ State.reset.mq = [] ∧
    (ckptBad (.host (2 ^ 64)) = true ∧ ckptBad (.peer 65536) = true ∧ ckptBad (.host (2 ^ 64 - 1)) = false ∧ ckptBad (.peer 65535) = false) ∧
    (∃ x, owning.liveCtx' 5 = some x ∧ x.ownslot ≠ 0 ∧ (owning.slot x.ownslot).st = .loaded) := by
  unfold idleSlot liveContext idleContext
  and_intros
  all_goals first | decide +kernel | exact fun _ => Nat.le_of_eq List.length_replicate

/-- Lane 1 with a request to stop, or stopped by the debugger, or blocked. -/
def watched (st : Option Stop) (dreq : Option Nat) (blk : Option Blk) : State :=
  seat false [0] worker id id (fun g => { g with
    threads := updAt g.threads 1 (fun t => { t with stop := st, dreq := dreq, blk := blk }) })

/-- 16 R414 to R428, 14 R397: a core's STOP and a thread's; a thread stopped, blocked and neither; the last registers of each window; a
line with an assertion; a thread outside a held set and in one; a request's slot in each state; a tick with one frame buffered and with two; the last place of a frame; each kind of source. -/
theorem witness_DebugTraceAndMachineChecksFollowTheRules :
    ((575 : Nat) < 576 ∧ bits (BitVec.ofNat 64 575 : Dword).toNat 9 0 = 575 ∧ bits (BitVec.ofNat 64 575 : Dword).toNat 9 0 ≠ 574) ∧
    (let th : ThreadKey := ⟨key false, 1⟩
     let s := watched (stopBy true) none none
     bit (BitVec.ofNat 64 (2 ^ 23) : Dword).toNat 23 = true ∧
     s.named (2 ^ 18 + 2 ^ 12) = some th ∧ (s.thread th).live = true ∧ ((s.thread th).stop.map (fun x => x.debug)) = some true) ∧
    (let th : ThreadKey := ⟨key false, 1⟩
     ∀ b ∈ [none, some (Blk.regRead 3)], let s := watched none (some 2) b
      (s.thread th).live = true ∧ (s.thread th).stop = none ∧ (s.thread th).blk = b ∧ s.resident th.gk.team = true ∧
      holds (s.group th.gk) (fun g => decide ((g.thr 1).dreq = some 2 ∧ 1 < g.threads.length ∧ g.holds 1 = false)) = true) ∧
    ((0x70100 ≤ 0x701F8 ∧ 0x701F8 < 0x70200 ∧ 0x701F8 % 8 = 0) ∧ 0x40000 + 64 * 575 + 8 * 7 = 0x48FF8 ∧ 0x60100 + 8 * 15 = 0x60178 ∧
      0x78000 + 8 * 575 = 0x791F8 ∧ 3 < 4) ∧
    (let s := { State.reset with xpend := [(15, none, 64)], xlines := [(15, 0x7FC3#64)] }
     s.xpend.find? (fun y => y.1 == 15) = some (15, none, 64)) ∧
    (∀ held ∈ [false, true], let s := seat false [0] worker id id (fun g => { g with
        hold := if held then some (BitVec.ofNat 57 placedPc, [0, 1]) else none, threads := updAt g.threads 1 (fun t => { t with dreq := some 5 }) })
      holds (s.group (key false)) (fun g => decide ((g.thr 1).dreq = some 5 ∧ (g.thr 1).live = true ∧ (g.thr 1).stop = none ∧
        1 < g.threads.length ∧ g.holds 1 = held)) = true) ∧
    (∀ st ∈ [SlotSt.reserved, .landed], ({ st := st, req := some (requested false true none), data := [], todo := [] } : ChSlot).req =
      some (requested false true none)) ∧
    (State.reset.clave.cen = false ∧ State.reset.cycle % 2 ^ State.reset.clave.ck = 0) ∧
    (64 * (2 ^ 33 - 1) < 2 ^ 39 ∧ 64 * (Config.spadBytes / 64 - 1) < Config.spadBytes ∧
      holds ((watched none none none).team (key false).team) (fun t => decide (Config.spadBytes / 64 - 1 ∉ t.spadBad)) = true) ∧
    (∀ n ∈ [1, 2], let s := { State.reset with
        clave := { State.reset.clave with cen := true, frames := List.replicate n (0, 0, []) }, cycle := 2048 }
      s.clave.cen = true ∧ s.cycle % 2 ^ s.clave.ck = 0 ∧ (if n = 1 then s.clave.frames.length < 2 else 2 ≤ s.clave.frames.length)) ∧
    (let s := { State.reset with clave := { State.reset.clave with frames := [(3, 0, [])], cbase := 2 ^ 23 - 1 } }
     s.clave.frames = (3, 0, []) :: [] ∧ s.clave.cbase * 65536 + 65536 * (3 % (s.clave.nfr + 1)) + 65536 ≤ 2 ^ 39) ∧
    (∀ src ∈ [575, 0x4FF, 0x507, 0x517, 0x522], recordSource src = true) := by
  and_intros <;> decide +kernel

/-- 07 R200: a well-formed instruction; a word that decodes; a word of a reserved major. -/
theorem witness_WordsAndInstructionsAgree :
    Instr.wellFormed (.cmp { g := 7#3, p1 := 1#3, p2 := 2#3, a := 1#5, b := 2#5, pa := false, pb := false, cc := 9#4 }) = true ∧
    (decode 0x6BC00015#32).isSome = true ∧ majorPipe (majorOf 0x0#32).toNat = none := by
  decide +kernel

/-- Reset with a word of each slice placed, and what a step does before the word. -/
def placedU (w : Nat) : State := bounded { State.reset.withFetchWord 32 w with agenda := [] } (placedKey 16 w)

/-- A fetch has given a word, with a property. -/
def fetched (o : FetchOut) (P : Word → State → Bool) : Bool := match o with | .word w x => P w x | _ => false

theorem fetched_of {o : FetchOut} {P : Word → State → Prop} [∀ w x, Decidable (P w x)]
    (h : fetched o (fun w x => decide (P w x)) = true) : ∃ w x, o = .word w x ∧ P w x := by
  cases o with
  | word w x => exact ⟨w, x, rfl, of_decide_eq_true h⟩
  | _ => cases h

/-- A state after the bounds whose group issues all its lanes at a fetched word that decodes to i, or to nothing. -/
abbrev fetches (u : State) (gk : GroupKey) (i : Option Instr) (g : Group) : Prop :=
  u.canIssue g = true ∧ g.current = lanes ∧
    fetched ((readied u gk (g.thr 0).pc).fetch ⟨gk, 0⟩ (g.thr 0).pc) (fun w y => decide (chainOf w = false ∧ decode w = i ∧
      (∀ j ∈ lanes, (y.thread ⟨gk, j⟩).xfer = false) ∧ (y.group gk).isSome = true)) = true

/-- 06 R172, R193: a placed word of each slice, and one that decodes to nothing. -/
theorem witness_AStepRunsTheDecodedInstruction :
    ∀ x ∈ [(0x07C00000, some (Instr.nop { g := 7#3 })),
        (0x39E01059, some (.mma { k := 15#4, t := 0#3, a := 0#5, b := 16#5, ol := false, var := 5#3, fmt := 9#4 })), (0, none)],
      let s := State.reset.withFetchWord 32 x.1
      let gk := placedKey 16 x.1
      let u := bounded { s with agenda := [] } gk
      s.agenda = .issue gk :: [] ∧
      ∃ g, u.group gk = some g ∧ u.canIssue g = true ∧ g.current = lanes ∧
        ∃ w y, (readied u gk (g.thr 0).pc).fetch ⟨gk, 0⟩ (g.thr 0).pc = .word w y ∧ chainOf w = false ∧ decode w = x.2 ∧
          (∀ j ∈ lanes, (y.thread ⟨gk, j⟩).xfer = false) ∧ (y.group gk).isSome = true := by
  have one (w : Nat) (i : Option Instr) (h : holds ((placedU w).group (placedKey 16 w)) (fun g => decide ((placedU w).canIssue g = true ∧
      g.current = lanes ∧ fetched ((readied (placedU w) (placedKey 16 w) (g.thr 0).pc).fetch ⟨placedKey 16 w, 0⟩ (g.thr 0).pc)
        (fun v y => decide (chainOf v = false ∧ decode v = i ∧ (∀ j ∈ lanes, (y.thread ⟨placedKey 16 w, j⟩).xfer = false) ∧
          (y.group (placedKey 16 w)).isSome = true)) = true)) = true) :
      ∃ g, (placedU w).group (placedKey 16 w) = some g ∧ fetches (placedU w) (placedKey 16 w) i g := some_of h
  have two (u : State) (gk : GroupKey) (i : Option Instr) (h : ∃ g, u.group gk = some g ∧ fetches u gk i g) :
      ∃ g, u.group gk = some g ∧ u.canIssue g = true ∧ g.current = lanes ∧
        ∃ w y, (readied u gk (g.thr 0).pc).fetch ⟨gk, 0⟩ (g.thr 0).pc = .word w y ∧ chainOf w = false ∧ decode w = i ∧
          (∀ j ∈ lanes, (y.thread ⟨gk, j⟩).xfer = false) ∧ (y.group gk).isSome = true := by
    obtain ⟨g, hg, hc, hl, hf⟩ := h
    exact ⟨g, hg, hc, hl, fetched_of hf⟩
  exact each_cons ⟨by rfl, two _ _ _ (one _ _ (by decide +kernel))⟩ (each_cons ⟨by rfl, two _ _ _ (one _ _ (by decide +kernel))⟩
    (each_cons ⟨by rfl, two _ _ _ (one _ _ (by decide +kernel))⟩ each_nil))

/-- 06 R172: a word within a pass, an event, and a step from reset. -/
theorem witness_EveryStepAnswersANextState :
    isEvent .powerOn = true ∧ ((alone false []).pass.bind (fun p => (alone false []).group p.gk)).isSome = true ∧
    (∀ i rest, State.reset.agenda = .event i :: rest → isEvent i = true) := by
  refine ⟨by decide, by decide +kernel, ?_⟩
  intro i rest h
  cases h

/-- An outcome is a next state with a property. -/
def goes (o : Host.Outcome State Fault Refusal) (P : State → Bool) : Bool := match o with | .next t => P t | _ => false

theorem next_of {o : Host.Outcome State Fault Refusal} {P : State → Prop} [DecidablePred P]
    (h : goes o (fun t => decide (P t)) = true) : ∃ t, o = .next t ∧ P t := by
  cases o with
  | next t => exact ⟨t, rfl, of_decide_eq_true h⟩
  | _ => cases h

/-- 01 R41, 03 R15: a step that writes memory. -/
theorem witness_EveryStepKeepsMemoryCanonical :
    let s := { State.reset with agenda := [.event (.hostWindowWrite 5 [1#8, 0#8])] }
    s.memoryWf ∧ ∃ t, step s = .next t ∧ t.mem = [(5, 1#8)] := by
  refine ⟨⟨by decide, by simp [State.reset], by simp [State.reset]⟩, next_of (by decide +kernel)⟩

/-- A word is fetched from memory where the cache holds none, and from the cache once it does (07 R194): the state after the bounds,
and the state after its first fetch. -/
theorem test_fetchMissesThenHits :
    let u := placedU 0x07C00000
    let th : ThreadKey := ⟨placedKey 16 0x07C00000, 0⟩
    let pc := (u.thread th).pc
    fetched (u.fetch th pc) (fun _ y =>
      ((u.core (u.coreOf th.gk.team)).icache.isEmpty && !((y.core (y.coreOf th.gk.team)).icache.isEmpty) &&
        fetched (y.fetch th pc) (fun w _ => w == 0x07C00000#32))) = true := by
  decide +kernel

end Sys2Proof.Tests
end

section
/-! PROOFS. Exact dyadic values, codes and rounding (02 R45, R46, R74, R75, 10 R287, R289), and what they settle: O8. -/

namespace Sys2Proof.Formats

open Sys2Proof Sys2Proof.Machine Sys2Proof.Claims

/-! ### Dyadic values -/

/-- The rational number m * 2^e. -/
def mag (m : Nat) (e : ℤ) : ℚ := m * 2 ^ e

/-- A sign as a factor. -/
def sgn (n : Bool) : ℚ := if n then -1 else 1

@[simp] theorem sgn_false : sgn false = 1 := rfl
@[simp] theorem sgn_true : sgn true = -1 := rfl

theorem rational_fin (n : Bool) (m : Nat) (e : ℤ) : rational (.fin n m e) = some (sgn n * mag m e) := by
  simp only [rational, sgn, mag, mul_assoc]

theorem two_zpow_pos (e : ℤ) : (0 : ℚ) < 2 ^ e := zpow_pos two_pos e

@[simp] theorem mag_zero (e : ℤ) : mag 0 e = 0 := by simp [mag]

theorem mag_nonneg (m : Nat) (e : ℤ) : 0 ≤ mag m e := mul_nonneg m.cast_nonneg (two_zpow_pos e).le

theorem mag_eq_zero {m : Nat} {e : ℤ} : mag m e = 0 ↔ m = 0 := by simp [mag, (two_zpow_pos e).ne']

theorem mag_pos {m : Nat} {e : ℤ} : 0 < mag m e ↔ m ≠ 0 := by
  rw [(mag_nonneg m e).lt_iff_ne', Ne, mag_eq_zero]

theorem mag_mul (m l : Nat) (e d : ℤ) : mag m e * mag l d = mag (m * l) (e + d) := by
  simp only [mag, zpow_add₀ (two_ne_zero : (2 : ℚ) ≠ 0), Nat.cast_mul]
  ring

/-- A value on a finer grid. -/
theorem mag_shift (m : Nat) {e q : ℤ} (h : q ≤ e) : mag (m * 2 ^ (e - q).toNat) q = mag m e := by
  have : (2 : ℚ) ^ e = 2 ^ (e - q).toNat * 2 ^ q := by
    rw [← zpow_natCast, ← zpow_add₀ two_ne_zero, Int.toNat_of_nonneg (by omega), sub_add_cancel]
  simp only [mag, this, Nat.cast_mul, Nat.cast_pow, Nat.cast_ofNat, mul_assoc]

theorem mag_pow (k : Nat) (e : ℤ) : mag (2 ^ k) e = 2 ^ (k + e) := by
  rw [mag, zpow_add₀ two_ne_zero, zpow_natCast, Nat.cast_pow, Nat.cast_ofNat]

theorem mag_lt_iff {m l : Nat} {e : ℤ} : mag m e < mag l e ↔ m < l := by
  rw [mag, mag, mul_lt_mul_iff_left₀ (two_zpow_pos e), Nat.cast_lt]

theorem mag_le_iff {m l : Nat} {e : ℤ} : mag m e ≤ mag l e ↔ m ≤ l := by
  rw [mag, mag, mul_le_mul_iff_left₀ (two_zpow_pos e), Nat.cast_le]

/-- 2^k ≤ m < 2^(k + 1) for the greatest such k. -/
theorem mag_log2 {m : Nat} (hm : m ≠ 0) (e : ℤ) : 2 ^ ((log2Floor m : ℤ) + e) ≤ mag m e ∧ mag m e < 2 ^ ((log2Floor m : ℤ) + e + 1) := by
  constructor
  · rw [← mag_pow, mag_le_iff]
    exact Nat.log2_self_le hm
  · have h : mag m e < mag (2 ^ (log2Floor m + 1)) e := mag_lt_iff.mpr Nat.lt_log2_self
    rwa [mag_pow, Nat.cast_add, Nat.cast_one, add_right_comm] at h

/-- The comparison of two dyadic values is that of the rational numbers. -/
theorem dyCmp_eq_compare (m : Nat) (e : ℤ) (l : Nat) (d : ℤ) : dyCmp m e l d = compare (mag m e) (mag l d) := by
  have mono (q : ℤ) : StrictMono (fun k : Nat => mag k q) := fun _ _ => mag_lt_iff.mpr
  unfold dyCmp
  split
  case isTrue h => rw [← mag_shift l h, ← cmp_eq_compare, ← cmp_eq_compare, (mono e).cmp_map_eq]
  case isFalse h => rw [← mag_shift m (le_of_not_ge h), ← cmp_eq_compare, ← cmp_eq_compare, (mono d).cmp_map_eq]

/-! ### Exact sums and products (10 R289) -/

/-- Two values on their common exponent. -/
theorem align_spec (n : Bool) (m : Nat) (e : ℤ) (k : Bool) (l : Nat) (d : ℤ) :
    let a := align n m e k l d
    (a.1 : ℚ) * 2 ^ a.2.2 = sgn n * mag m e ∧ (a.2.1 : ℚ) * 2 ^ a.2.2 = sgn k * mag l d := by
  have side (n : Bool) (m : Nat) {e q : ℤ} (h : q ≤ e) :
      (((if n then -((m * 2 ^ (e - q).toNat : Nat) : ℤ) else ((m * 2 ^ (e - q).toNat : Nat) : ℤ)) : ℤ) : ℚ) * 2 ^ q
        = sgn n * mag m e := by
    rw [← mag_shift m h]
    cases n <;> simp [mag]
  exact ⟨side n m (min_le_left e d), side k l (min_le_right e d)⟩

/-- An integer on a grid, as sign and magnitude. -/
theorem sgn_natAbs (z : ℤ) (e : ℤ) : sgn (decide (z < 0)) * mag z.natAbs e = z * 2 ^ e := by
  have : (z.natAbs : ℚ) = |(z : ℚ)| := by rw [Nat.cast_natAbs, Int.cast_abs]
  rw [mag, this]
  by_cases h : z < 0
  · simp [h, abs_of_neg (Int.cast_lt_zero.mpr h)]
  · have : (0 : ℚ) ≤ z := Int.cast_nonneg (not_lt.mp h)
    simp [h, abs_of_nonneg this]

theorem add_fin (n : Bool) (m : Nat) (e : ℤ) (k : Bool) (l : Nat) (d : ℤ) :
    let r := (FVal.fin n m e).add (.fin k l d)
    rational r.1 = some (sgn n * mag m e + sgn k * mag l d) ∧ r.2 = false ∧
      (sgn n * mag m e + sgn k * mag l d = 0 → r.1 = .fin (n && k && m = 0 && l = 0) 0 0) := by
  obtain ⟨hx, hy⟩ := align_spec n m e k l d
  have hz : ((align n m e k l d).1 + (align n m e k l d).2.1 : ℤ) * (2 : ℚ) ^ (align n m e k l d).2.2
      = sgn n * mag m e + sgn k * mag l d := by
    rw [← hx, ← hy, Int.cast_add, add_mul]
  simp only [FVal.add]
  split
  case isTrue h =>
    rw [h, Int.cast_zero, zero_mul] at hz
    simp [rational_fin, ← hz]
  case isFalse h =>
    refine ⟨by rw [rational_fin, sgn_natAbs, hz], rfl, fun h0 => absurd (h0 ▸ hz) ?_⟩
    exact mul_ne_zero (Int.cast_ne_zero.mpr h) (two_zpow_pos _).ne'

theorem mul_fin (n : Bool) (m : Nat) (e : ℤ) (k : Bool) (l : Nat) (d : ℤ) :
    rational ((FVal.fin n m e).mul (.fin k l d)).1 = some (sgn n * mag m e * (sgn k * mag l d)) := by
  simp only [FVal.mul, rational_fin, ← mag_mul]
  cases n <;> cases k <;> simp

/-! ### Rounding to a grid (02 R74) -/

/-- Of the multiples of D, K D is one nearest to K D + r, or (K + 1) D, as r is below or above D / 2; of two nearest ones the
even one is taken. -/
theorem near_multiple {D r : Nat} (K : Nat) (j : ℤ) (hr : r < D) :
    let k := if 2 * r > D || (2 * r = D && K % 2 = 1) then K + 1 else K
    |(k : ℤ) * D - (K * D + r)| ≤ |j * D - (K * D + r)| ∧
      (|(k : ℤ) * D - (K * D + r)| = |j * D - (K * D + r)| → j ≠ k → k % 2 = 0) := by
  have far (i n : ℤ) (h : n ≤ i) : n * D ≤ i * D := by nlinarith
  have below (h : j ≤ K) : |j * D - (K * D + r)| = (K - j) * D + r := by
    rw [abs_of_nonpos (by nlinarith)]; ring
  have above (h : K + 1 ≤ j) : |j * D - (K * D + r)| = (j - K) * D - r := by
    rw [abs_of_nonneg (by nlinarith)]; ring
  have low : |(K : ℤ) * D - (K * D + r)| = r := by rw [sub_add_cancel_left, abs_neg, Nat.abs_cast]
  have high : |((K + 1 : Nat) : ℤ) * D - (K * D + r)| = D - r := by
    rw [Nat.cast_add, Nat.cast_one, show ((K : ℤ) + 1) * D - (K * D + r) = D - r by ring, abs_of_nonneg (by omega)]
  simp only [Bool.or_eq_true, Bool.and_eq_true, decide_eq_true_eq]
  obtain h | rfl | rfl | h : j < K ∨ j = K ∨ j = (K + 1 : Nat) ∨ K + 1 < j := by omega
  · have := far (K - j) 1 (by omega)
    rw [below h.le]
    split_ifs <;> simp only [low, high] <;> omega
  · split_ifs <;> simp only [low, high] <;> omega
  · split_ifs <;> simp only [low, high] <;> omega
  · have := far (j - K) 2 (by omega)
    rw [above h.le]
    split_ifs <;> simp only [low, high] <;> omega

/-- `rneGrid` gives a nearest multiple of 2^q, and of two nearest ones the even one. -/
theorem rneGrid_nearest (m : Nat) (e q : ℤ) (j : ℤ) :
    |mag (rneGrid m e q) q - mag m e| ≤ |j * 2 ^ q - mag m e| ∧
      (|mag (rneGrid m e q) q - mag m e| = |j * 2 ^ q - mag m e| → (j : ℚ) * 2 ^ q ≠ mag (rneGrid m e q) q →
        rneGrid m e q % 2 = 0) := by
  unfold rneGrid
  split
  case isTrue h =>
    rw [mag_shift m h, sub_self, abs_zero]
    exact ⟨abs_nonneg _, fun h0 hne => absurd (sub_eq_zero.mp (abs_eq_zero.mp h0.symm)) hne⟩
  case isFalse h =>
    generalize hs : (q - e).toNat = s
    have scale (i : ℤ) : (i : ℚ) * 2 ^ q - mag m e =
        ((i * (2 ^ s : Nat) - ((m / 2 ^ s : Nat) * (2 ^ s : Nat) + (m % 2 ^ s : Nat)) : ℤ) : ℚ) * 2 ^ e := by
      have hm : ((m / 2 ^ s : Nat) * (2 ^ s : Nat) + (m % 2 ^ s : Nat) : ℤ) = m := by exact_mod_cast Nat.div_add_mod' m (2 ^ s)
      rw [hm, mag, show q = s + e by omega, zpow_add₀ two_ne_zero, zpow_natCast]
      push_cast
      ring
    obtain ⟨near, tie⟩ := near_multiple (m / 2 ^ s) j (Nat.mod_lt m (Nat.two_pow_pos s))
    rw [show ∀ k : Nat, mag k q = ((k : ℤ) : ℚ) * 2 ^ q from fun _ => rfl]
    rw [scale, scale, abs_mul, abs_mul, abs_of_pos (two_zpow_pos e), mul_le_mul_iff_left₀ (two_zpow_pos e),
      mul_left_inj' (two_zpow_pos e).ne', ← Int.cast_abs, ← Int.cast_abs, Int.cast_le, Int.cast_inj]
    exact ⟨near, fun heq hne => tie heq (fun h => hne (by rw [h]))⟩

/-- The exponent of a format's finest grid, that of its subnormal values (02 R46). -/
def leastExp (f : NumFmt) : ℤ := 1 - f.bias - f.fb

/-- The exponent of the grid on which a value is rounded (02 R74). -/
def gridExp (f : NumFmt) (m : Nat) (e : ℤ) : ℤ := max ((log2Floor m : ℤ) + e) (1 - f.bias) - f.fb

theorem roundTo_float {f : NumFmt} (hi : f.isInt = false) (m : Nat) (e : ℤ) :
    roundTo f m e = (rneGrid m e (gridExp f m e), gridExp f m e) := by
  simp [roundTo, hi, gridExp]

theorem leastExp_le_gridExp (f : NumFmt) (m : Nat) (e : ℤ) : leastExp f ≤ gridExp f m e := by
  simp only [leastExp, gridExp]
  omega

/-- Above the finest grid, a value is at least the least with fb + 1 bits on its grid. -/
theorem gridExp_cases (f : NumFmt) {m : Nat} (hm : m ≠ 0) (e : ℤ) :
    (gridExp f m e = leastExp f ∨ mag (2 ^ f.fb) (gridExp f m e) ≤ mag m e) ∧
      mag m e < mag (2 ^ (f.fb + 1)) (gridExp f m e) := by
  obtain ⟨hlo, hhi⟩ := mag_log2 hm e
  simp only [mag_pow, gridExp, leastExp]
  constructor
  · by_cases h : (log2Floor m : ℤ) + e ≤ 1 - f.bias
    · left
      omega
    · right
      exact le_of_eq_of_le (congrArg _ (by omega)) hlo
  · exact hhi.trans_le (zpow_le_zpow_right₀ one_le_two (by push_cast; omega))

/-- The integer that a value is rounded to has at most fb + 1 bits, or is the next power of two; it has fb + 1 bits above the
finest grid. -/
theorem rneGrid_bounds (f : NumFmt) {m : Nat} (hm : m ≠ 0) (e : ℤ) :
    let k := rneGrid m e (gridExp f m e)
    k ≤ 2 ^ (f.fb + 1) ∧ (k < 2 ^ f.fb → gridExp f m e = leastExp f) := by
  obtain ⟨hlo, hhi⟩ := gridExp_cases f hm e
  have near (j : Nat) := (rneGrid_nearest m e (gridExp f m e) j).1
  simp only [show ∀ j : Nat, ((j : ℤ) : ℚ) * 2 ^ gridExp f m e = mag j (gridExp f m e) from fun _ => rfl] at near
  constructor
  · by_contra hk
    have h := near (2 ^ (f.fb + 1))
    have := (mag_lt_iff (e := gridExp f m e)).mpr (not_le.mp hk)
    rw [abs_of_pos (by linarith), abs_of_pos (by linarith)] at h
    linarith
  · intro hk
    refine hlo.resolve_right fun hge => ?_
    have h := near (2 ^ f.fb)
    have := (mag_lt_iff (e := gridExp f m e)).mpr hk
    rw [abs_of_neg (by linarith), abs_of_nonpos (by linarith)] at h
    linarith

/-! ### Codes (02 R45, R46) -/

theorem fb_pos {f : NumFmt} (hi : f.isInt = false) : 0 < f.fb := by
  revert hi
  cases f <;> decide

theorem width_eq {f : NumFmt} (hi : f.isInt = false) : f.width = f.eb + f.fb + 1 := by
  revert hi
  cases f <;> decide

/-- The largest finite value has its leading bit below the place that the format's exponents end at. -/
theorem largest_lt {f : NumFmt} (hi : f.isInt = false) :
    ∃ j : Nat, f.largest.1 < 2 ^ j ∧ (j : ℤ) + f.largest.2 + f.bias + b2n f.hasInf ≤ (2 ^ f.eb : Nat) := by
  refine ⟨log2Floor f.largest.1 + 1, Nat.lt_log2_self, ?_⟩
  revert hi
  cases f <;> decide

/-- The fields of a code: sign, exponent, fraction (02 R45). -/
def fields (f : NumFmt) (s : Bool) (E M : Nat) : Nat := b2n s * 2 ^ (f.eb + f.fb) + (E * 2 ^ f.fb + M)

theorem b2n_le_one (s : Bool) : b2n s ≤ 1 := by cases s <;> decide

/-- Exponent and fraction fill the places below the sign. -/
theorem fields_lt {f : NumFmt} {E M : Nat} (hE : E < 2 ^ f.eb) (hM : M < 2 ^ f.fb) : E * 2 ^ f.fb + M < 2 ^ (f.eb + f.fb) := by
  rw [pow_add]
  nlinarith [Nat.two_pow_pos f.fb]

theorem fields_sign {f : NumFmt} (hi : f.isInt = false) (s : Bool) {E M : Nat} (hE : E < 2 ^ f.eb) (hM : M < 2 ^ f.fb) :
    fields f s E M < 2 ^ f.width ∧ (fields f s E M).testBit (f.width - 1) = s := by
  have hlt := fields_lt hE hM
  rw [width_eq hi, Nat.add_sub_cancel]
  constructor
  · have := Nat.mul_le_mul_right (2 ^ (f.eb + f.fb)) (b2n_le_one s)
    rw [fields, pow_succ]
    omega
  · rw [Nat.testBit_eq_decide_div_mod_eq, fields, mul_comm, Nat.mul_add_div (Nat.two_pow_pos _), Nat.div_eq_of_lt hlt]
    cases s <;> rfl

/-- What a code with given fields decodes to (02 R46). -/
theorem fpDecode_fields {f : NumFmt} (hi : f.isInt = false) (hu : f ≠ .ue4m3) (s : Bool) {E M : Nat} (hE : E < 2 ^ f.eb)
    (hM : M < 2 ^ f.fb) :
    fpDecode f (fields f s E M) =
      if f.hasInf = true ∧ E = 2 ^ f.eb - 1 then (if M = 0 then .inf s else .nan (!bit M (f.fb - 1)))
      else if f = .e4m3 ∧ E = 2 ^ f.eb - 1 ∧ M = 7 then .nan false
      else if E = 0 then .fin s M (leastExp f)
      else .fin s (2 ^ f.fb + M) (E - f.bias - f.fb) := by
  have hfb := fb_pos hi
  have split : fields f s E M = 2 ^ f.fb * (2 ^ f.eb * b2n s + E) + M := by
    rw [fields, pow_add]
    ring
  have hexp : bits (fields f s E M) (f.eb + f.fb - 1) f.fb = E := by
    rw [bits, split, show f.eb + f.fb - 1 + 1 - f.fb = f.eb by omega, Nat.mul_add_div (Nat.two_pow_pos _), Nat.div_eq_of_lt hM,
      add_zero, Nat.mul_add_mod, Nat.mod_eq_of_lt hE]
  have hfrac : bits (fields f s E M) (f.fb - 1) 0 = M := by
    rw [bits, split, show f.fb - 1 + 1 - 0 = f.fb by omega, pow_zero, Nat.div_one, Nat.mul_add_mod, Nat.mod_eq_of_lt hM]
  have hsign : bit (fields f s E M) (f.width - 1) = s := (fields_sign hi s hE hM).2
  simp only [fpDecode, hi, hexp, hfrac, hsign, hu, Bool.false_eq_true, if_false, Bool.and_eq_true, decide_eq_true_eq,
    leastExp, and_assoc, decide_false, Bool.or_false]

/-- A finite code is a multiple of the finest grid with at most fb + 1 bits. -/
theorem fpDecode_fin {f : NumFmt} (hi : f.isInt = false) {c : Nat} {s : Bool} {m : Nat} {e : ℤ} (h : fpDecode f c = .fin s m e) :
    m < 2 ^ (f.fb + 1) ∧ leastExp f ≤ e := by
  have hfb := fb_pos hi
  have hfrac : bits c (f.fb - 1) 0 < 2 ^ f.fb := by
    rw [bits, show f.fb - 1 + 1 - 0 = f.fb by omega]
    exact Nat.mod_lt _ (Nat.two_pow_pos _)
  simp only [fpDecode, hi, Bool.false_eq_true, if_false] at h
  rw [pow_succ]
  split_ifs at h <;> simp only [FVal.fin.injEq] at h <;> obtain ⟨-, rfl, rfl⟩ := h <;> rw [leastExp] <;>
    constructor <;> omega

/-- A magnitude that has been rounded up to a power of two stands on the next grid. -/
theorem encodeMag_carry {f : NumFmt} (hi : f.isInt = false) (s : Bool) (q : ℤ) :
    encodeMag f s (2 ^ (f.fb + 1)) q = encodeMag f s (2 ^ f.fb) (q + 1) := by
  have : 2 ^ f.fb ≠ 2 ^ (f.fb + 1) := by rw [pow_succ]; have := Nat.two_pow_pos f.fb; omega
  simp only [encodeMag, hi, Bool.false_eq_true, if_false, if_true, this]

/-- The code of a magnitude of at most fb + 1 bits has the fields of its value. -/
theorem encodeMag_small {f : NumFmt} (hi : f.isInt = false) (s : Bool) {k : Nat} {q : ℤ} (hk : k < 2 ^ (f.fb + 1)) :
    ∃ s', (f ≠ .ue4m3 → f ≠ .e2m1 → s' = s) ∧ encodeMag f s k q =
      if k < 2 ^ f.fb then fields f s' 0 k else fields f s' (q + f.fb + f.bias).toNat (k - 2 ^ f.fb) := by
  have hw : f.width - 1 = f.eb + f.fb := by rw [width_eq hi, Nat.add_sub_cancel]
  simp only [encodeMag, hi, hk.ne, Bool.false_eq_true, if_false, hw, Bool.and_eq_true, decide_eq_true_eq]
  split_ifs with h1 h2 h3
  · exact ⟨false, fun _ h => absurd h2.1 h, by simp [fields, b2n, h2.2]⟩
  · exact ⟨false, fun h => absurd h3 h, by simp [fields, b2n]⟩
  · exact ⟨s, fun _ _ => rfl, by simp [fields]⟩
  · exact ⟨false, fun _ h => absurd ‹_ ∧ _›.1 h, by simp only [fields, b2n, ‹_ ∧ _›.2]; simp⟩
  · exact ⟨false, fun h => absurd ‹_› h, by simp [fields, b2n]⟩
  · exact ⟨s, fun _ _ => rfl, rfl⟩

/-- The code of a rounded magnitude has the fields of its value, and ends in its last bit. -/
theorem encodeMag_fields {f : NumFmt} (hi : f.isInt = false) (s : Bool) {k : Nat} {q : ℤ}
    (hq : leastExp f ≤ q) (hk : k ≤ 2 ^ (f.fb + 1)) (hsub : k < 2 ^ f.fb → q = leastExp f) :
    ∃ s' E M, (f ≠ .ue4m3 → f ≠ .e2m1 → s' = s) ∧ encodeMag f s k q = fields f s' E M ∧ M < 2 ^ f.fb ∧ M % 2 = k % 2 ∧
      ((E = 0 ∧ M = k ∧ q = leastExp f) ∨ (E ≠ 0 ∧ mag (2 ^ f.fb + M) (E - f.bias - f.fb) = mag k q)) := by
  have heven : 2 ^ f.fb % 2 = 0 := Nat.mod_eq_zero_of_dvd (dvd_pow_self 2 (fb_pos hi).ne')
  have hpos := Nat.two_pow_pos f.fb
  have hE (q : ℤ) (h : leastExp f ≤ q) : (q + f.fb + f.bias).toNat ≠ 0 ∧ ((q + f.fb + f.bias).toNat : ℤ) - f.bias - f.fb = q := by
    rw [leastExp] at h
    omega
  have succ : 2 ^ (f.fb + 1) = 2 * 2 ^ f.fb := pow_succ' 2 f.fb
  obtain hk | rfl := hk.lt_or_eq
  · obtain ⟨s', hs, henc⟩ := encodeMag_small hi s (q := q) hk
    by_cases hlow : k < 2 ^ f.fb
    · exact ⟨s', 0, k, hs, by rw [henc, if_pos hlow], hlow, rfl, .inl ⟨rfl, rfl, hsub hlow⟩⟩
    · obtain ⟨h0, h1⟩ := hE q hq
      refine ⟨s', _, _, hs, by rw [henc, if_neg hlow], by omega, by omega, .inr ⟨h0, ?_⟩⟩
      rw [h1, Nat.add_sub_of_le (not_lt.mp hlow)]
  · obtain ⟨s', hs, henc⟩ := encodeMag_small hi s (k := 2 ^ f.fb) (q := q + 1) (by omega)
    obtain ⟨h0, h1⟩ := hE (q + 1) (by omega)
    refine ⟨s', _, _, hs, by rw [encodeMag_carry hi, henc, if_neg (lt_irrefl _)], by omega, by omega, .inr ⟨h0, ?_⟩⟩
    rw [h1, Nat.sub_self, add_zero, mag_pow, mag_pow]
    congr 1
    push_cast
    ring

/-- The exponent field of a value up to the largest finite one is in range, below that of the infinities. -/
theorem exponent_le {f : NumFmt} (hi : f.isInt = false) {E M : Nat}
    (hL : mag (2 ^ f.fb + M) (E - f.bias - f.fb) ≤ mag f.largest.1 f.largest.2) : E + b2n f.hasInf < 2 ^ f.eb := by
  obtain ⟨j, hj, hle⟩ := largest_lt hi
  have low : mag (2 ^ f.fb) (E - f.bias - f.fb) ≤ mag (2 ^ f.fb + M) (E - f.bias - f.fb) := mag_le_iff.mpr (Nat.le_add_right _ _)
  have high : mag f.largest.1 f.largest.2 < mag (2 ^ j) f.largest.2 := mag_lt_iff.mpr hj
  have := (low.trans hL).trans_lt high
  rw [mag_pow, mag_pow, zpow_lt_zpow_iff_right₀ one_lt_two] at this
  omega

theorem fields_parity {f : NumFmt} (hi : f.isInt = false) (s : Bool) (E M : Nat) : fields f s E M % 2 = M % 2 := by
  have heven : 2 ^ f.fb % 2 = 0 := Nat.mod_eq_zero_of_dvd (dvd_pow_self 2 (fb_pos hi).ne')
  rw [fields, pow_add]
  simp [Nat.add_mod, Nat.mul_mod, heven]

/-- The value of a code whose exponent field is below those of the infinities and of the NaN (02 R46). -/
theorem rational_fields {f : NumFmt} (hi : f.isInt = false) (hu : f ≠ .ue4m3) (hn : f ≠ .e4m3) (s : Bool) {E M : Nat}
    (hE : E + b2n f.hasInf < 2 ^ f.eb) (hM : M < 2 ^ f.fb) :
    rational (fpDecode f (fields f s E M)) = some (sgn s * if E = 0 then mag M (leastExp f) else mag (2 ^ f.fb + M) (E - f.bias - f.fb)) := by
  have hinf : ¬ (f.hasInf = true ∧ E = 2 ^ f.eb - 1) := by
    rintro ⟨hf, rfl⟩
    rw [hf] at hE
    simp only [b2n, if_true] at hE
    omega
  rw [fpDecode_fields hi hu s (by omega) hM, if_neg hinf, if_neg (fun h => hn h.1)]
  split_ifs <;> rw [rational_fin]

theorem infCode_fields {f : NumFmt} (hi : f.isInt = false) (s : Bool) : infCode f s = fields f s (2 ^ f.eb - 1) 0 := by
  rw [infCode, fields, width_eq hi, Nat.add_sub_cancel, add_zero]

/-! ### Conversion (02 R75) -/

/-- What a finite value other than 0 converts to. -/
theorem convert_code (f : NumFmt) (n : Bool) {m : Nat} (hm : m ≠ 0) (e : ℤ) (inv : Bool) :
    (convert f (.fin n m e) inv).1 =
      if mag f.largest.1 f.largest.2 < mag (roundTo f m e).1 (roundTo f m e).2
      then (if f.overInf = true then infCode f n else largestCode f n) else encodeMag f n (roundTo f m e).1 (roundTo f m e).2 := by
  simp only [convert, hm, if_false, dyCmp_eq_compare, compare_gt_iff_gt]
  split_ifs <;> rfl

theorem convert_fin {f : NumFmt} (hi : f.isInt = false) (n : Bool) {m : Nat} (hm : m ≠ 0) (e : ℤ) (inv : Bool) :
    (convert f (.fin n m e) inv).1 =
      if mag f.largest.1 f.largest.2 < mag (rneGrid m e (gridExp f m e)) (gridExp f m e)
      then (if f.overInf = true then infCode f n else largestCode f n)
      else encodeMag f n (rneGrid m e (gridExp f m e)) (gridExp f m e) := by
  rw [convert_code f n hm, roundTo_float hi]

theorem convert_zero (f : NumFmt) (n : Bool) (e : ℤ) (inv : Bool) :
    (convert f (.fin n 0 e) inv).1 = encodeMag f n 0 (leastExp f) := by
  simp only [convert, if_true, leastExp]

/-- The formats whose overflow is an infinity are the IEEE formats and A96 (02 R75). -/
theorem overInf_facts {f : NumFmt} (ho : f.overInf = true) :
    f.isInt = false ∧ f.hasInf = true ∧ f ≠ .ue4m3 ∧ f ≠ .e4m3 ∧ f ≠ .e2m1 ∧ b2n f.hasInf < 2 ^ f.eb := by
  revert ho
  cases f <;> decide

/-- The code of a rounded magnitude up to the largest finite value is that value's. -/
theorem encodeMag_value {f : NumFmt} (ho : f.overInf = true) (s : Bool) {k : Nat} {q : ℤ} (hq : leastExp f ≤ q)
    (hk : k ≤ 2 ^ (f.fb + 1)) (hsub : k < 2 ^ f.fb → q = leastExp f) (hL : mag k q ≤ mag f.largest.1 f.largest.2) :
    let c := encodeMag f s k q
    c < 2 ^ f.width ∧ c.testBit (f.width - 1) = s ∧ rational (fpDecode f c) = some (sgn s * mag k q) ∧ c % 2 = k % 2 := by
  obtain ⟨hi, -, hu, h43, h21, hinf⟩ := overInf_facts ho
  obtain ⟨s', E, M, hs, henc, hM, hpar, hval⟩ := encodeMag_fields hi s hq hk hsub
  obtain rfl := hs hu h21
  have hE : E + b2n f.hasInf < 2 ^ f.eb := by
    obtain ⟨rfl, -, -⟩ | ⟨-, hv⟩ := hval
    · rwa [zero_add]
    · exact exponent_le hi (hv ▸ hL)
  obtain ⟨hlt, hbit⟩ := fields_sign hi s' (E := E) (by omega) hM
  refine ⟨henc ▸ hlt, henc ▸ hbit, ?_, by rw [henc, fields_parity hi, hpar]⟩
  rw [henc, rational_fields hi hu h43 s' hE hM]
  obtain ⟨rfl, rfl, rfl⟩ | ⟨h0, hv⟩ := hval
  · rw [if_pos rfl]
  · rw [if_neg h0, hv]

/-- The code of an infinity. -/
theorem infCode_value {f : NumFmt} (ho : f.overInf = true) (s : Bool) :
    infCode f s < 2 ^ f.width ∧ (infCode f s).testBit (f.width - 1) = s ∧ fpDecode f (infCode f s) = .inf s := by
  obtain ⟨hi, hinf, hu, -⟩ := overInf_facts ho
  have hE : 2 ^ f.eb - 1 < 2 ^ f.eb := Nat.sub_one_lt (Nat.two_pow_pos _).ne'
  obtain ⟨hlt, hbit⟩ := fields_sign hi s hE (Nat.two_pow_pos f.fb)
  rw [infCode_fields hi]
  refine ⟨hlt, hbit, ?_⟩
  rw [fpDecode_fields hi hu s hE (Nat.two_pow_pos _), if_pos ⟨hinf, rfl⟩, if_pos rfl]

/-- A conversion keeps the sign, and gives the infinity, or the code of the rounded value. -/
theorem convert_value {f : NumFmt} (ho : f.overInf = true) (n : Bool) {m : Nat} (hm : m ≠ 0) (e : ℤ) :
    let c := (convert f (.fin n m e)).1
    let k := rneGrid m e (gridExp f m e)
    c < 2 ^ f.width ∧ c.testBit (f.width - 1) = n ∧
      (fpDecode f c = .inf n ∨ rational (fpDecode f c) = some (sgn n * mag k (gridExp f m e)) ∧ c % 2 = k % 2) := by
  obtain ⟨hi, -⟩ := overInf_facts ho
  simp only [convert_fin hi n hm]
  split_ifs with hL
  · obtain ⟨hlt, hbit, hdec⟩ := infCode_value ho n
    exact ⟨hlt, hbit, .inl hdec⟩
  · obtain ⟨hk, hsub⟩ := rneGrid_bounds f hm e
    obtain ⟨hlt, hbit, hval⟩ := encodeMag_value ho n (leastExp_le_gridExp f m e) hk hsub (not_lt.mp hL)
    exact ⟨hlt, hbit, .inr hval⟩

/-- A finite code lies on the grid of a value, or below the value, and below the least power of two on that grid with fb + 1
bits, which is no further away. -/
theorem code_on_grid {f : NumFmt} (hi : f.isInt = false) {m : Nat} (hm : m ≠ 0) (e : ℤ) (n : Bool) {c : Nat} {z : ℚ}
    (hz : rational (fpDecode f c) = some z) :
    let q := gridExp f m e
    (∃ j : ℤ, sgn n * z = j * 2 ^ q) ∨ sgn n * z < mag (2 ^ f.fb) q ∧ mag (2 ^ f.fb) q ≤ mag m e := by
  cases hd : fpDecode f c with
  | nan _ => simp [hd, rational] at hz
  | inf _ => simp [hd, rational] at hz
  | fin s l d =>
    obtain ⟨hl, hlow⟩ := fpDecode_fin hi hd
    rw [hd, rational_fin, Option.some_inj] at hz
    by_cases hq : gridExp f m e ≤ d
    · left
      refine ⟨(if n = s then 1 else -1) * (l * 2 ^ (d - gridExp f m e).toNat : Nat), ?_⟩
      rw [← hz, ← mag_shift l hq, mag]
      cases n <;> cases s <;> simp
    · right
      have hge := (gridExp_cases f hm e).1.resolve_left (by omega)
      refine ⟨lt_of_le_of_lt ?_ ((mag_lt_iff (e := d)).mpr hl |>.trans_le ?_), hge⟩
      · rw [← hz]
        have := mag_nonneg l d
        cases n <;> cases s <;> simp <;> linarith
      · rw [mag_pow, mag_pow]
        exact zpow_le_zpow_right₀ one_le_two (by push_cast; omega)

/-- No finite code lies nearer to a value than its rounding, and where another value lies as near, the rounding is even. -/
theorem rounding_nearest {f : NumFmt} (hi : f.isInt = false) {m : Nat} (hm : m ≠ 0) (e : ℤ) (n : Bool) {c : Nat} {z : ℚ}
    (hz : rational (fpDecode f c) = some z) :
    let k := rneGrid m e (gridExp f m e)
    let y := sgn n * mag k (gridExp f m e)
    let x := sgn n * mag m e
    |y - x| ≤ |z - x| ∧ (|y - x| = |z - x| → y ≠ z → k % 2 = 0) := by
  have hsq : sgn n * sgn n = 1 := by cases n <;> norm_num
  have habs (a b : ℚ) : |sgn n * a - sgn n * b| = |a - b| := by
    rw [← mul_sub, abs_mul, show |sgn n| = 1 by cases n <;> norm_num, one_mul]
  have hz' : z = sgn n * (sgn n * z) := by rw [← mul_assoc, hsq, one_mul]
  have hc := code_on_grid hi hm e n hz
  dsimp only at hc ⊢
  rw [hz', habs, habs]
  generalize sgn n * z = Z at hc ⊢
  obtain ⟨j, rfl⟩ | ⟨hlt, hge⟩ := hc
  · obtain ⟨near, tie⟩ := rneGrid_nearest m e (gridExp f m e) j
    exact ⟨near, fun heq hne => tie heq (fun h => hne (by rw [h]))⟩
  · have near := (rneGrid_nearest m e (gridExp f m e) (2 ^ f.fb : Nat)).1
    rw [show (((2 ^ f.fb : Nat) : ℤ) : ℚ) * 2 ^ gridExp f m e = mag (2 ^ f.fb) (gridExp f m e) from rfl,
      abs_of_nonpos (sub_nonpos.mpr hge)] at near
    have : |Z - mag m e| = mag m e - Z := by rw [abs_of_neg (by linarith), neg_sub]
    exact ⟨by linarith, fun heq => by linarith⟩

end Sys2Proof.Formats

open Sys2Proof Sys2Proof.Machine Sys2Proof.Claims Sys2Proof.Formats

/-- Settles O8: the operations are exact on dyadic values, and a conversion takes the nearest multiple of the grid on which every
finite code as large as the value lies. -/
theorem exactArithmeticIsExactAndRoundsToNearestEven : Obligations.ExactArithmeticIsExactAndRoundsToNearestEven := by
  unfold Obligations.ExactArithmeticIsExactAndRoundsToNearestEven
  constructor
  · intro n k m l e d
    obtain ⟨hadd, hvalid, hzero⟩ := add_fin n m e k l d
    refine ⟨_, _, rational_fin n m e, rational_fin k l d, hadd, hvalid, mul_fin n m e k l d, rfl, hzero, fun j i c => ?_⟩
    obtain ⟨hfma, hfmaValid, -⟩ := add_fin (n != k) (m * l) (e + d) j i c
    have hprod := mul_fin n m e k l d
    simp only [FVal.mul, rational_fin, Option.some_inj] at hprod
    exact ⟨_, rational_fin j i c, by rw [← hprod]; exact hfma, by simp only [FVal.fma, FVal.mul, hfmaValid, Bool.or_self]⟩
  · intro f hf n m e
    have ho : f.overInf = true := by
      simp only [List.mem_cons, List.not_mem_nil, or_false] at hf
      obtain rfl | rfl | rfl := hf <;> rfl
    obtain ⟨hi, -⟩ := overInf_facts ho
    by_cases hm : m = 0
    · subst hm
      obtain ⟨hlt, hbit, hval, -⟩ := encodeMag_value (f := f) ho n (k := 0) le_rfl (Nat.zero_le _) (fun _ => rfl)
        (by rw [mag_zero]; exact mag_nonneg _ _)
      simp only [convert_zero]
      refine ⟨hlt, hbit, fun x y hx hy c' z _ _ => ?_⟩
      rw [rational_fin, mag_zero, mul_zero, Option.some_inj] at hx
      rw [hval, mag_zero, mul_zero, Option.some_inj] at hy
      subst hx hy
      rw [sub_zero, abs_zero, sub_zero]
      exact ⟨abs_nonneg z, fun h hne => absurd (abs_eq_zero.mp h.symm).symm hne⟩
    · obtain ⟨hlt, hbit, hval⟩ := convert_value ho n hm e
      refine ⟨hlt, hbit, fun x y hx hy c' z _ hz => ?_⟩
      obtain hval | ⟨hval, hpar⟩ := hval
      · rw [hval] at hy
        cases hy
      · rw [rational_fin, Option.some_inj] at hx
        rw [hval, Option.some_inj] at hy
        subst hx hy
        rw [hpar]
        exact rounding_nearest hi hm e n hz
end

section
/-! PROOFS. Fields, checks and decoding of blocks (02 R51 to R68, R78). -/

namespace Sys2Proof.Formats

open Sys2Proof Sys2Proof.Machine Sys2Proof.Claims

/-! ### Fields of a block (02 R56) -/

theorem bits_block (b : Block) (hi lo : Nat) : bits b.toNat hi lo = bitsAt b lo (hi + 1 - lo) := rfl

theorem bitsAt_lt (b : Block) (lo n : Nat) : bitsAt b lo n < 2 ^ n := Nat.mod_lt _ (Nat.two_pow_pos n)

/-- Bits of bits. -/
theorem bitsAt_bits (b : Block) {p w lo n : Nat} (h : lo + n ≤ w) : bitsAt b p w / 2 ^ lo % 2 ^ n = bitsAt b (p + lo) n := by
  obtain ⟨k, rfl⟩ := Nat.exists_eq_add_of_le (Nat.le_of_add_right_le h)
  rw [bitsAt, bitsAt, pow_add 2 lo k, Nat.mod_mul_right_div_self, Nat.mod_mod_of_dvd _ (pow_dvd_pow 2 (by omega)), Nat.div_div_eq_div_mul, ← pow_add]

theorem bbyte_eq (b : Block) (i : Nat) : bbyte b i = bitsAt b (8 * i) 8 := by
  rw [bbyte, bits_block, show 8 * i + 7 + 1 - 8 * i = 8 by omega]

theorem bits_bbyte (b : Block) (i : Nat) {hi lo : Nat} (h : hi < 8) (hl : lo ≤ hi) :
    bits (bbyte b i) hi lo = bitsAt b (8 * i + lo) (hi + 1 - lo) := by
  rw [bits, bbyte_eq, bitsAt_bits b (by omega)]

theorem testBit_eq_bit (x i : Nat) : x.testBit i = (x / 2 ^ i % 2 ^ 1 == 1) := by
  rw [Nat.testBit_eq_decide_div_mod_eq, pow_one]
  rfl

theorem bit_bitsAt (b : Block) {p w i : Nat} (h : i < w) : (bitsAt b p w).testBit i = (bitsAt b (p + i) 1 == 1) := by
  rw [testBit_eq_bit, bitsAt_bits b (by omega)]

theorem bit_bbyte (b : Block) (i : Nat) {j : Nat} (h : j < 8) : bit (bbyte b i) j = (bitsAt b (8 * i + j) 1 == 1) := by
  rw [bit, bbyte_eq, bit_bitsAt b h]

theorem blkFmt_eq (b : Block) : blkFmt b = bitsAt b 0 5 := bits_bbyte b 0 (by decide) (by decide)
theorem blkSf_eq (b : Block) : blkSf b = bitsAt b 5 2 := bits_bbyte b 0 (by decide) (by decide)
theorem blkSe_eq (b : Block) : blkSe b = bitsAt b 8 8 := bbyte_eq b 1

/-! ### Layout (02 R54 to R59) -/

theorem fmtReserved_iff (fmt : Nat) : fmtReserved fmt = true ↔ ¬(fmt ≤ 11 ∨ fmt = 16) := by
  simp [fmtReserved]

theorem hasOl_eq (fmt : Nat) : hasOl fmt = escaping fmt := by
  rw [Bool.eq_iff_iff]
  simp only [hasOl, escaping, Bool.and_eq_true, decide_eq_true_eq, Bool.or_eq_true, beq_iff_eq]
  omega

theorem olbAt_eq (fmt : Nat) : 8 * olbAt fmt = outlierBit fmt := by
  unfold olbAt outlierBit
  split <;> rfl

theorem groupCount_eq {fmt : Nat} (h : fmt ≤ 11) : groupCount fmt = groupsOf fmt := by
  interval_cases fmt <;> rfl

theorem layoutEnd_eq {fmt : Nat} (h : fmt ≤ 11) : layoutEnd fmt = layoutBytes fmt := by
  interval_cases fmt <;> rfl

/-- The shape of the groups of a format with scale bytes. -/
theorem grouping_eq {fmt : Nat} (h4 : 4 ≤ fmt) (h : fmt ≤ 11) :
    grouping fmt = (groupCount fmt, stride fmt, unitCount fmt, unitWidth fmt) := by
  interval_cases fmt <;> rfl

/-- A format without scale bytes has no groups. -/
theorem groupCount_zero {fmt : Nat} (h : fmt < 4) : groupCount fmt = 0 := by
  interval_cases fmt <;> rfl

theorem unitCount_pos (fmt : Nat) : 0 < unitCount fmt := by
  unfold unitCount
  split <;> decide

theorem unitWidth_pos {fmt : Nat} (h4 : 4 ≤ fmt) (h : fmt ≤ 11) : 0 < unitWidth fmt := by
  interval_cases fmt <;> decide

theorem stride_pos (fmt : Nat) : 0 < stride fmt := by
  unfold stride
  split_ifs <;> decide

theorem unitsOf_eq {fmt : Nat} (h4 : 4 ≤ fmt) (h : fmt ≤ 11) : unitsOf fmt = unitCount fmt := by
  rw [unitsOf, grouping_eq h4 h]

theorem unitAt_eq (b : Block) {fmt : Nat} (h4 : 4 ≤ fmt) (h : fmt ≤ 11) (k : Nat) :
    unitAt b fmt (k / unitCount fmt) (k % unitCount fmt) = unitOf b fmt k := by
  have := unitWidth_pos h4 h
  rw [unitOf, unitsOf_eq h4 h, grouping_eq h4 h, unitAt, bits_block]
  dsimp only
  congr 1
  omega

theorem scaleByte_eq (b : Block) {fmt : Nat} (h4 : 4 ≤ fmt) (h : fmt ≤ 11) (g : Nat) : scaleByte b fmt g = scaleOf b fmt g := by
  have := stride_pos fmt
  rw [scaleByte, scaleOf, grouping_eq h4 h, bbyte_eq, add_mul, one_mul, add_assoc]

/-- A list over groups and their units is one over all units in order. -/
theorem flatMap_range {α : Type} (f : Nat → Nat → α) (n u : Nat) :
    (List.range n).flatMap (fun g => (List.range u).map (f g)) = (List.range (n * u)).map (fun k => f (k / u) (k % u)) := by
  induction n with
  | zero => simp
  | succ n ih =>
    rw [List.range_succ, List.flatMap_append, ih, Nat.succ_mul, List.range_add, List.map_append, List.flatMap_singleton, List.map_map]
    congr 1
    refine List.map_congr_left fun i hi => ?_
    rw [List.mem_range] at hi
    rw [Function.comp, mul_comm, Nat.mul_add_div (by omega), Nat.div_eq_of_lt hi, Nat.mul_add_mod, Nat.mod_eq_of_lt hi, add_zero]

/-- The units of a block, in order over its groups (02 R56). -/
theorem units_eq (b : Block) {fmt : Nat} (hf : blkFmt b = fmt) (h4 : 4 ≤ fmt) (h : fmt ≤ 11) :
    units b = (List.range (groupsOf fmt * unitsOf fmt)).map (unitOf b fmt) := by
  rw [units, hf, flatMap_range (unitAt b fmt), groupCount_eq h, unitsOf_eq h4 h]
  exact List.map_congr_left fun k _ => unitAt_eq b h4 h k

theorem isEscape_unitOf (b : Block) (fmt k : Nat) : isEscape fmt (unitOf b fmt k) = escapeAt b fmt k := rfl

theorem escapeCount_eq (b : Block) {fmt : Nat} (hf : blkFmt b = fmt) (h4 : 4 ≤ fmt) (h : fmt ≤ 11) :
    escapeCount b = escapesBefore b fmt (groupsOf fmt * unitsOf fmt) := by
  rw [escapeCount, units_eq b hf h4 h, hf, List.filter_map, List.length_map, escapesBefore]
  rfl

/-! ### SPB blocks (02 R59) -/

theorem spbWidth_eq (b : Block) : spbWidth b = spbBytes b := by
  simp only [spbWidth, spbBytes, bit_bbyte b 2 (show 7 < 8 by decide), beq_iff_eq]

theorem spbMap_testBit (b : Block) {c : Nat} (h : c < 32) : (spbMap b).testBit c = (bitsAt b (32 + c) 1 == 1) :=
  bit_bitsAt b (p := 32) h

theorem maskList_spbMap (b : Block) {c : Nat} (h : c ≤ 32) : (maskList c (spbMap b)).length = columnsBelow b c := by
  rw [maskList, columnsBelow]
  congr 1
  refine List.filter_congr fun i hi => ?_
  rw [List.mem_range] at hi
  exact spbMap_testBit b (by omega)

theorem spbBad_iff (b : Block) : spbBad b = true ↔ bitsAt b 21 2 ≠ 0 ∨ bitsAt b 30 2 ≠ 0 ∨ 56 / spbBytes b < bitsAt b 24 6 ∨
    bitsAt b 24 6 ≠ columnsBelow b 32 ∨ b.toNat / 2 ^ (8 * (8 + spbBytes b * bitsAt b 24 6)) ≠ 0 := by
  simp only [spbBad, spbWidth_eq, maskList_spbMap b le_rfl, bits_bbyte b 2 (show 6 < 8 by decide) (show 5 ≤ 6 by decide),
    bits_bbyte b 3 (show 7 < 8 by decide) (show 6 ≤ 7 by decide), bits_bbyte b 3 (show 5 < 8 by decide) (show 0 ≤ 5 by decide),
    Bool.or_eq_true, bne_iff_ne, decide_eq_true_eq, gt_iff_lt, or_assoc]

/-! ### Checks (02 R68) -/

theorem blkOln_eq (b : Block) : blkOln b = if escaping (bitsAt b 0 5) = true then bitsAt b (outlierBit (bitsAt b 0 5) + 8) 6 else 0 := by
  rw [blkOln, hasOl_eq, blkFmt_eq, bits_bbyte b _ (by decide) (by decide), mul_add, olbAt_eq]

theorem blkOlb_eq (b : Block) : blkOlb b = if escaping (bitsAt b 0 5) = true then bitsAt b (outlierBit (bitsAt b 0 5)) 6 else 0 := by
  rw [blkOlb, hasOl_eq, blkFmt_eq, bits_bbyte b _ (by decide) (by decide), olbAt_eq, add_zero]

/-- A scale byte with its top bit set. -/
theorem bit7_iff {x : Nat} (h : x < 2 ^ 8) : bit x 7 = true ↔ 128 ≤ x := by
  rw [bit, Nat.testBit_eq_decide_div_mod_eq, decide_eq_true_eq]
  omega

theorem headerBad_iff (b : Block) (h : bitsAt b 0 5 ≤ 11 ∨ bitsAt b 0 5 = 16) : headerBad b = true ↔ headerWrong b := by
  have hbit7 : bit (bbyte b 0) 7 = (bitsAt b 7 1 == 1) := bit_bbyte b 0 (by decide)
  by_cases h16 : bitsAt b 0 5 = 16
  · simp only [headerBad, headerWrong, blkFmt_eq, h16, hbit7, ← spbBad_iff]
    simp
  · have h11 : bitsAt b 0 5 ≤ 11 := h.resolve_right h16
    have hscale : (List.range (groupCount (bitsAt b 0 5))).any (fun g => bit (scaleByte b (bitsAt b 0 5) g) 7) = true ↔
        ∃ g, g < groupsOf (bitsAt b 0 5) ∧ 128 ≤ scaleOf b (bitsAt b 0 5) g := by
      rw [List.any_eq_true, ← groupCount_eq h11]
      refine exists_congr fun g => ?_
      rw [List.mem_range]
      refine and_congr_right fun hg => ?_
      have h4 : 4 ≤ bitsAt b 0 5 := by
        by_contra hlt
        rw [groupCount_zero (not_le.mp hlt)] at hg
        omega
      rw [scaleByte_eq b h4 h11]
      exact bit7_iff (bitsAt_lt b _ 8)
    have hlist (he : escaping (bitsAt b 0 5) = true) :
        ((bits (bbyte b (olbAt (bitsAt b 0 5))) 7 6 ≠ 0 ∨ bits (bbyte b (olbAt (bitsAt b 0 5) + 1)) 7 6 ≠ 0) ∨
          blkOln b ≠ escapeCount b) ↔
        (bitsAt b (outlierBit (bitsAt b 0 5) + 6) 2 ≠ 0 ∨ bitsAt b (outlierBit (bitsAt b 0 5) + 14) 2 ≠ 0 ∨
          bitsAt b (outlierBit (bitsAt b 0 5) + 8) 6 ≠
            escapesBefore b (bitsAt b 0 5) (groupsOf (bitsAt b 0 5) * unitsOf (bitsAt b 0 5))) := by
      have h4 : 4 ≤ bitsAt b 0 5 := by
        simp only [escaping, Bool.or_eq_true, beq_iff_eq] at he
        omega
      rw [blkOln_eq, if_pos he, escapeCount_eq b (blkFmt_eq b) h4 h11, bits_bbyte b _ (by decide) (by decide),
        bits_bbyte b _ (by decide) (by decide), mul_add, olbAt_eq, or_assoc, add_assoc]
    simp only [headerBad, headerWrong, blkFmt_eq, h16, hbit7, if_false, false_and, false_or, not_false_iff, ne_eq, true_and,
      hasOl_eq, layoutEnd_eq h11, Bool.or_eq_true, Bool.and_eq_true, hscale, bne_iff_ne, beq_iff_eq, Bool.not_eq_true',
      Bool.or_eq_false_iff, beq_eq_false_iff_ne, and_true, or_assoc]
    simp only [← ne_eq, ← or_assoc, and_congr_right hlist]

/-- A check against a list fails where the escapes of a block reach beyond it. -/
theorem olref_iff (b : Block) (count : Nat) : (blkOln b != 0 && decide (blkOlb b + escSpan (blkFmt b) * blkOln b > count)) = true ↔
    escaping (bitsAt b 0 5) = true ∧ bitsAt b (outlierBit (bitsAt b 0 5) + 8) 6 ≠ 0 ∧ count < listEnd b := by
  simp only [blkOln_eq, blkOlb_eq, listEnd, escSpan, blkFmt_eq]
  cases escaping (bitsAt b 0 5) <;> simp

/-- The checks of a block, in order; the last one only against a list. -/
theorem checkBlock_cases (b : Block) (n : Option Nat) :
    (bitsAt b 8 8 = 255 → checkBlock b n = some .poison) ∧
    (bitsAt b 8 8 ≠ 255 → ¬(bitsAt b 0 5 ≤ 11 ∨ bitsAt b 0 5 = 16) → checkBlock b n = some .fmt) ∧
    (bitsAt b 8 8 ≠ 255 ∧ (bitsAt b 0 5 ≤ 11 ∨ bitsAt b 0 5 = 16) → headerWrong b → checkBlock b n = some .hdr) ∧
    (bitsAt b 8 8 ≠ 255 ∧ (bitsAt b 0 5 ≤ 11 ∨ bitsAt b 0 5 = 16) → ¬headerWrong b →
      checkBlock b none = none ∧ ∀ count, checkBlock b (some count) =
        if escaping (bitsAt b 0 5) = true ∧ bitsAt b (outlierBit (bitsAt b 0 5) + 8) 6 ≠ 0 ∧ count < listEnd b then some .olref
        else none) := by
  have hfmt : fmtReserved (blkFmt b) = true ↔ ¬(bitsAt b 0 5 ≤ 11 ∨ bitsAt b 0 5 = 16) := by rw [fmtReserved_iff, blkFmt_eq]
  have hse : blkSe b = 0xFF ↔ bitsAt b 8 8 = 255 := by rw [blkSe_eq]
  refine ⟨fun h => ?_, fun h hf => ?_, fun ⟨h, hf⟩ hh => ?_, fun ⟨h, hf⟩ hh => ⟨?_, fun count => ?_⟩⟩
  · rw [checkBlock.eq_def, if_pos (hse.mpr h)]
  · rw [checkBlock.eq_def, if_neg (hse.not.mpr h), if_pos (hfmt.mpr hf)]
  · rw [checkBlock.eq_def, if_neg (hse.not.mpr h), if_neg (hfmt.not.mpr (not_not.mpr hf)), if_pos ((headerBad_iff b hf).mpr hh)]
  · rw [checkBlock, if_neg (hse.not.mpr h), if_neg (hfmt.not.mpr (not_not.mpr hf)), if_neg ((headerBad_iff b hf).not.mpr hh)]
  · rw [checkBlock, if_neg (hse.not.mpr h), if_neg (hfmt.not.mpr (not_not.mpr hf)), if_neg ((headerBad_iff b hf).not.mpr hh)]
    simp only [olref_iff]

/-! ### Decoding (02 R78) -/

theorem rational_mul {v w : FVal} {x y : ℚ} (hv : rational v = some x) (hw : rational w = some y) :
    rational (v.mul w).1 = some (x * y) := by
  cases v <;> cases w <;> simp only [rational, reduceCtorEq] at hv hw
  rename_i n m e k l d
  rw [← rational, rational_fin, Option.some_inj] at hv
  rw [← rational, rational_fin, Option.some_inj] at hw
  rw [mul_fin, hv, hw]

/-- A finite value under finite scales is their product. -/
theorem rational_scaled {v : FVal} {x : ℚ} (hv : rational v = some x) {sc : List FVal} {ys : List ℚ}
    (hs : List.Forall₂ (fun s y => rational s = some y) sc ys) : rational (scaled v sc) = some (x * ys.prod) := by
  induction hs generalizing v x with
  | nil => simpa [scaled] using hv
  | @cons s y _ _ hy _ ih =>
    have hstep : (match v with | .nan q => .nan q | _ => (v.mul s).1) = (v.mul s).1 := by
      cases v with
      | nan _ => cases hv
      | _ => rfl
    have := ih (rational_mul hv hy)
    rw [List.prod_cons, ← mul_assoc, ← this]
    simp only [scaled, List.foldl_cons]
    cases v with
    | nan _ => cases hv
    | _ => rfl

theorem rational_blockScale (se sf : Nat) : rational (blockScale se sf) = some (scaleValue se sf) := by
  rw [blockScale, rational_fin, sgn_false, one_mul, mag, scaleValue, zpow_sub₀ two_ne_zero]
  congr 1
  push_cast
  ring

/-- A code's value under the block scale. -/
theorem elemIs_blockScale (b : Block) {vs : List FVal} {e : Nat} {v : FVal}
    (h : vs[e]? = some (scaled v [blockScale (blkSe b) (blkSf b)])) : ElemIs vs e v (some (blockScaleOf b)) := by
  rintro x y hx ⟨⟩
  refine ⟨_, h, ?_⟩
  rw [blkSe_eq, blkSf_eq, rational_scaled hx (.cons (rational_blockScale _ _) .nil), List.prod_singleton]
  rfl

/-- A code's value under a group scale and the block scale. -/
theorem elemIs_groupScale (b : Block) {fmt g : Nat} {vs : List FVal} {e : Nat} {v : FVal}
    (h : vs[e]? = some (scaled v [ue4m3 (scaleOf b fmt g), blockScale (blkSe b) (blkSf b)])) : ElemIs vs e v (groupScaleOf b fmt g) := by
  intro x y hx hy
  obtain ⟨s, hs, rfl⟩ := Option.map_eq_some_iff.mp hy
  refine ⟨_, h, ?_⟩
  rw [blkSe_eq, blkSf_eq, rational_scaled hx (.cons hs (.cons (rational_blockScale _ _) .nil)), List.prod_cons, List.prod_singleton]
  rfl

theorem withEscapes_snoc (fmt n c : Nat) (l : List Nat) : withEscapes fmt n (l ++ [c]) =
    withEscapes fmt n l ++ [(c, n + (l.filter (isEscape fmt)).length)] := by
  induction l generalizing n with
  | nil => rfl
  | cons d l ih =>
    simp only [List.cons_append, withEscapes, ih, List.filter_cons]
    split <;> simp [Nat.add_assoc, Nat.add_comm]

/-- Each unit of a list with the escapes before it. -/
theorem withEscapes_range (fmt : Nat) (u : Nat → Nat) (N : Nat) : withEscapes fmt 0 ((List.range N).map u) =
    (List.range N).map (fun k => (u k, ((List.range k).filter (fun i => isEscape fmt (u i))).length)) := by
  induction N with
  | zero => rfl
  | succ N ih =>
    rw [List.range_succ, List.map_append, List.map_singleton, withEscapes_snoc, ih, List.map_append, List.filter_map, List.length_map,
      Nat.zero_add]
    rfl

/-- The units of a block, each with the escapes before it. -/
theorem withEscapes_units (b : Block) {fmt : Nat} (hf : blkFmt b = fmt) (h4 : 4 ≤ fmt) (h : fmt ≤ 11) :
    withEscapes fmt 0 (units b) = (List.range (groupsOf fmt * unitsOf fmt)).map (fun k => (unitOf b fmt k, escapesBefore b fmt k)) := by
  rw [units_eq b hf h4 h, withEscapes_range]
  rfl

theorem getElem?_map_range {α : Type} (f : Nat → α) {n i : Nat} (h : i < n) : ((List.range n).map f)[i]? = some (f i) := by
  rw [List.getElem?_map, List.getElem?_range h, Option.map_some]

theorem getD_map_range {α : Type} (f : Nat → α) {n i : Nat} (h : i < n) (d : α) : ((List.range n).map f).getD i d = f i := by
  rw [List.getD_eq_getElem?_getD, getElem?_map_range f h, Option.getD_some]

/-- The elements of an ungrouped block (02 R55). -/
theorem decodeValues_plain (b : Block) (list : List Word) {fmt : Nat} (hf : blkFmt b = fmt) (h0 : fmt ≠ 0) (h : fmt ≤ 3) :
    let w := if fmt = 1 then 4 else 2
    decodeValues b list = (List.range (if fmt = 1 then 15 else 24)).map (fun e =>
      scaled (fpDecode (elemFmt fmt) (bitsAt b (16 + 8 * w * e) (8 * w))) [blockScale (blkSe b) (blkSf b)]) := by
  have hbits (w e : Nat) (hw : 0 < w) : bits b.toNat (8 * (2 + w * e) + 8 * w - 1) (8 * (2 + w * e)) = bitsAt b (16 + 8 * w * e) (8 * w) := by
    rw [bits_block, mul_assoc]
    congr 1 <;> omega
  unfold decodeValues
  simp only [hf, h0, h, if_false, if_true]
  split_ifs <;> simp only [hbits _ _ (show 0 < 4 by decide), hbits _ _ (show 0 < 2 by decide)]

/-- The columns of an SPB block, 0 where it holds none (02 R59). -/
theorem decodeValues_spb (b : Block) (list : List Word) (hf : blkFmt b = 16) :
    decodeValues b list = (List.range 32).map (fun c =>
      if bitsAt b (32 + c) 1 = 1 then scaled (fpDecode (if bitsAt b 23 1 = 1 then .bf16 else .fp32)
        (bitsAt b (64 + 8 * spbBytes b * columnsBelow b c) (8 * spbBytes b))) [blockScale (blkSe b) (blkSf b)]
      else .zero) := by
  have hw : (spbWidth b = 2) = (bitsAt b 23 1 = 1) := by
    rw [spbWidth_eq, spbBytes]
    split_ifs <;> simp_all
  have hpos : 0 < spbBytes b := by unfold spbBytes; split_ifs <;> decide
  unfold decodeValues
  simp only [hf, show ¬ 16 = 0 by decide, show ¬ 16 = 1 by decide, show ¬ 16 ≤ 3 by decide, if_false, if_true]
  refine List.map_congr_left fun c hc => ?_
  rw [List.mem_range] at hc
  simp only [spbMap_testBit b hc, beq_iff_eq, hw]
  rw [spbWidth_eq, maskList_spbMap b hc.le, bits_block]
  rw [show 8 * (8 + spbBytes b * columnsBelow b c) = 64 + 8 * spbBytes b * columnsBelow b c by ring]
  congr 4
  omega

/-- Where a format has no escapes, no unit is one. -/
theorem escaping_of_escapeAt {b : Block} {fmt k : Nat} (h : escapeAt b fmt k = true) : escaping fmt = true := by
  simp only [escapeAt, Bool.or_eq_true, Bool.and_eq_true] at h
  simp only [escaping, Bool.or_eq_true]
  tauto

theorem flatten_singletons {α : Type} (f : Nat → α) (l : List Nat) : (l.map (fun k => [f k])).flatten = l.map f := by
  induction l with
  | nil => rfl
  | cons k l ih => rw [List.map_cons, List.flatten_cons, ih, List.map_cons, List.singleton_append]

/-- The elements of a block whose units are elements (02 R78). -/
theorem decodeValues_units (b : Block) (list : List Word) {fmt : Nat} (hf : blkFmt b = fmt) (h4 : 4 ≤ fmt) (h : fmt ≤ 10) :
    decodeValues b list = (List.range (groupsOf fmt * 24)).map (fun k =>
      if escapeAt b fmt k = true then f32 (list.getD (blkOlb b + escapesBefore b fmt k) 0).toNat
      else scaled (fpDecode (elemFmt fmt) (unitOf b fmt k)) [ue4m3 (scaleOf b fmt (k / 24)), blockScale (blkSe b) (blkSf b)]) := by
  have hu : unitCount fmt = 24 := if_neg (by omega)
  unfold decodeValues
  simp only [hf, withEscapes_units b hf h4 (by omega), List.length_map, List.length_range, unitsOf_eq h4 (show fmt ≤ 11 by omega), hu,
    if_neg (show ¬ fmt = 0 by omega), if_neg (show ¬ fmt = 1 by omega), if_neg (show ¬ fmt ≤ 3 by omega),
    if_neg (show ¬ fmt = 16 by omega), if_neg (show ¬ fmt = 11 by omega)]
  conv_rhs => rw [← flatten_singletons]
  congr 1
  refine List.map_congr_left fun k hk => ?_
  rw [List.mem_range] at hk
  rw [getD_map_range _ hk]
  simp only [isEscape_unitOf, scaleByte_eq b h4 (show fmt ≤ 11 by omega)]
  split_ifs <;> rfl

theorem length_vq2Halves (ix : Nat) : (vq2Halves ix).length = 8 := by
  simp [vq2Halves]

theorem eq_map_getD {α : Type} {l : List α} {n : Nat} (h : l.length = n) (d : α) : l = (List.range n).map (fun j => l.getD j d) := by
  apply List.ext_getElem?
  intro i
  by_cases hi : i < n
  · rw [getElem?_map_range _ hi, List.getD_eq_getElem?_getD, List.getElem?_eq_getElem (h ▸ hi), Option.getD_some]
  · simp [h, hi]

/-- The elements of a VQ2 block, eight to an index or an escape (02 R66, R78). -/
theorem decodeValues_vq2 (b : Block) (list : List Word) (hf : blkFmt b = 11) :
    decodeValues b list = (List.range (24 * 8)).map (fun i =>
      if escapeAt b 11 (i / 8) = true then f32 (list.getD (blkOlb b + 8 * escapesBefore b 11 (i / 8) + i % 8) 0).toNat
      else scaled (halves ((vq2Halves (unitOf b 11 (i / 8))).getD (i % 8) 0))
        [ue4m3 (scaleOf b 11 (i / 8 / 3)), blockScale (blkSe b) (blkSf b)]) := by
  unfold decodeValues
  simp only [hf, withEscapes_units b hf (by decide) (by decide), List.length_map, List.length_range,
    show ¬ 11 = 0 by decide, show ¬ 11 = 1 by decide, show ¬ 11 ≤ 3 by decide, show ¬ 11 = 16 by decide, if_false, if_true]
  rw [← flatMap_range (fun k j => if escapeAt b 11 k = true then f32 (list.getD (blkOlb b + 8 * escapesBefore b 11 k + j) 0).toNat
      else scaled (halves ((vq2Halves (unitOf b 11 k)).getD j 0)) [ue4m3 (scaleOf b 11 (k / 3)), blockScale (blkSe b) (blkSf b)]),
    ← List.flatMap_def]
  refine List.flatMap_congr fun k hk => ?_
  rw [getD_map_range _ (List.mem_range.mp hk), scaleByte_eq b (by decide) (by decide)]
  have hesc : (unitOf b 11 k = 0xFFFF) = (escapeAt b 11 k = true) := by simp [escapeAt]
  simp only [hesc]
  split_ifs
  · rfl
  · conv_lhs => rw [eq_map_getD (length_vq2Halves (unitOf b 11 k)) 0, List.map_map]
    rfl

/-- The elements of a grouped block that are not escapes (02 R78). -/
theorem decode_units (b : Block) (list : List Word) (h4 : 4 ≤ bitsAt b 0 5) (h10 : bitsAt b 0 5 ≤ 10) :
    (decodeValues b list).length = 24 * groupsOf (bitsAt b 0 5) ∧ ∀ e, e < 24 * groupsOf (bitsAt b 0 5) →
      if escapeAt b (bitsAt b 0 5) e then (decodeValues b list)[e]? =
        some (f32 (list.getD (bitsAt b (outlierBit (bitsAt b 0 5)) 6 + escapesBefore b (bitsAt b 0 5) e) 0).toNat)
      else ElemIs (decodeValues b list) e (fpDecode (elemFmt (bitsAt b 0 5)) (unitOf b (bitsAt b 0 5) e))
        (groupScaleOf b (bitsAt b 0 5) (e / 24)) := by
  have hd := decodeValues_units b list (blkFmt_eq b) h4 h10
  rw [mul_comm] at hd
  refine ⟨by rw [hd, List.length_map, List.length_range], fun e he => ?_⟩
  have hat := getElem?_map_range (fun k => if escapeAt b (bitsAt b 0 5) k = true
      then f32 (list.getD (blkOlb b + escapesBefore b (bitsAt b 0 5) k) 0).toNat
      else scaled (fpDecode (elemFmt (bitsAt b 0 5)) (unitOf b (bitsAt b 0 5) k))
        [ue4m3 (scaleOf b (bitsAt b 0 5) (k / 24)), blockScale (blkSe b) (blkSf b)]) he
  rw [← hd] at hat
  split_ifs with hesc
  · rw [hat, if_pos hesc, blkOlb_eq, if_pos (escaping_of_escapeAt hesc)]
  · rw [if_neg hesc] at hat
    exact elemIs_groupScale b hat

/-- The elements of a VQ2 block (02 R66, R78). -/
theorem decode_vq2 (b : Block) (list : List Word) (h11 : bitsAt b 0 5 = 11) :
    (decodeValues b list).length = 192 ∧ ∀ k j, k < 24 → j < 8 →
      if escapeAt b 11 k then (decodeValues b list)[8 * k + j]? =
        some (f32 (list.getD (bitsAt b (outlierBit 11) 6 + (8 * escapesBefore b 11 k + j)) 0).toNat)
      else ElemIs (decodeValues b list) (8 * k + j) (halves ((vq2Halves (unitOf b 11 k)).getD j 0)) (groupScaleOf b 11 (k / 3)) := by
  have hd := decodeValues_vq2 b list ((blkFmt_eq b).trans h11)
  refine ⟨by rw [hd, List.length_map, List.length_range], fun k j hk hj => ?_⟩
  have hat := getElem?_map_range (fun i => if escapeAt b 11 (i / 8) = true
      then f32 (list.getD (blkOlb b + 8 * escapesBefore b 11 (i / 8) + i % 8) 0).toNat
      else scaled (halves ((vq2Halves (unitOf b 11 (i / 8))).getD (i % 8) 0))
        [ue4m3 (scaleOf b 11 (i / 8 / 3)), blockScale (blkSe b) (blkSf b)]) (show 8 * k + j < 24 * 8 by omega)
  rw [← hd, show (8 * k + j) / 8 = k by omega, show (8 * k + j) % 8 = j by omega] at hat
  split_ifs with hesc
  · rw [hat, if_pos hesc, blkOlb_eq, h11, if_pos (escaping_of_escapeAt hesc), add_assoc]
  · rw [if_neg hesc] at hat
    exact elemIs_groupScale b hat

/-- The columns of an SPB block (02 R59). -/
theorem decode_spb (b : Block) (list : List Word) (h16 : bitsAt b 0 5 = 16) :
    (decodeValues b list).length = 32 ∧ ∀ c, c < 32 →
      if bitsAt b (32 + c) 1 = 1 then ElemIs (decodeValues b list) c (fpDecode (if bitsAt b 23 1 = 1 then .bf16 else .fp32)
        (bitsAt b (64 + 8 * spbBytes b * columnsBelow b c) (8 * spbBytes b))) (some (blockScaleOf b))
      else (decodeValues b list)[c]? = some .zero := by
  have hd := decodeValues_spb b list ((blkFmt_eq b).trans h16)
  refine ⟨by rw [hd, List.length_map, List.length_range], fun c hc => ?_⟩
  have hat := getElem?_map_range (fun c => if bitsAt b (32 + c) 1 = 1
    then scaled (fpDecode (if bitsAt b 23 1 = 1 then .bf16 else .fp32)
      (bitsAt b (64 + 8 * spbBytes b * columnsBelow b c) (8 * spbBytes b))) [blockScale (blkSe b) (blkSf b)]
    else .zero) hc
  rw [← hd] at hat
  by_cases hcol : bitsAt b (32 + c) 1 = 1
  · rw [if_pos hcol] at hat ⊢
    exact elemIs_blockScale b hat
  · rw [if_neg hcol] at hat ⊢
    exact hat

/-- The elements of a block without groups (02 R55). -/
theorem decode_plain (b : Block) (list : List Word) {fmt : Nat} (hf : bitsAt b 0 5 = fmt) (h0 : fmt ≠ 0) (h3 : fmt ≤ 3) :
    let w := if fmt = 1 then 4 else 2
    let n := if fmt = 1 then 15 else 24
    (decodeValues b list).length = n ∧ ∀ e, e < n →
      ElemIs (decodeValues b list) e (fpDecode (elemFmt fmt) (bitsAt b (16 + 8 * w * e) (8 * w))) (some (blockScaleOf b)) := by
  have hd := decodeValues_plain b list ((blkFmt_eq b).trans hf) h0 h3
  refine ⟨by rw [hd, List.length_map, List.length_range], fun e he => elemIs_blockScale b ?_⟩
  rw [hd, getElem?_map_range _ he]

end Sys2Proof.Formats
end

section
/-! PROOFS. Magnitudes, election and scales of the quantiser (10 R302, R303). -/

namespace Sys2Proof.Formats

open Sys2Proof Sys2Proof.Machine Sys2Proof.Claims

/-! ### Magnitudes -/

/-- The magnitude of a value that is no NaN. -/
def size : FVal → WithTop ℚ
  | .nan _ => 0
  | .inf _ => ⊤
  | .fin _ m e => (mag m e : ℚ)

/-- A value is a magnitude: no NaN, and not negative. -/
def IsMag (v : FVal) : Prop := v.isNan = false ∧ v.sign = false

theorem isMag_abs {v : FVal} (h : v.isNan = false) : IsMag v.abs := by
  cases v with
  | nan _ => cases h
  | inf _ => exact ⟨rfl, rfl⟩
  | fin _ _ _ => exact ⟨rfl, rfl⟩

@[simp] theorem size_abs (v : FVal) : size v.abs = size v := by cases v <;> rfl

theorem size_nonneg (v : FVal) : 0 ≤ size v := by
  cases v with
  | nan _ => exact le_rfl
  | inf _ => exact le_top
  | fin _ m e => exact WithTop.coe_le_coe.mpr (mag_nonneg m e)

theorem isZero_iff {v : FVal} (h : v.isNan = false) : v.isZero = true ↔ size v = 0 := by
  cases v with
  | nan _ => cases h
  | inf _ => simp [FVal.isZero, size]
  | fin n m e => cases m <;> simp [FVal.isZero, size, mag_eq_zero]

/-- The order of finite values is that of the rational numbers. -/
theorem cmp_fin (n : Bool) (m : Nat) (e : ℤ) (k : Bool) (l : Nat) (d : ℤ) :
    (FVal.fin n m e).cmp (.fin k l d) = some (compare (sgn n * mag m e) (sgn k * mag l d)) := by
  obtain ⟨hx, hy⟩ := align_spec n m e k l d
  have mono : StrictMono (fun z : ℤ => (z : ℚ) * 2 ^ (align n m e k l d).2.2) := fun _ _ h =>
    (mul_lt_mul_iff_left₀ (two_zpow_pos _)).mpr (Int.cast_lt.mpr h)
  simp only [FVal.cmp, ← hx, ← hy, ← cmp_eq_compare]
  rw [mono.cmp_map_eq]

/-- The order of magnitudes. -/
theorem gt_iff {x y : FVal} (hx : IsMag x) (hy : IsMag y) : x.gt y = true ↔ size y < size x := by
  obtain ⟨hx1, hx2⟩ := hx
  obtain ⟨hy1, hy2⟩ := hy
  match x, y with
  | .nan _, _ => cases hx1
  | _, .nan _ => cases hy1
  | .inf n, .inf k => obtain rfl : n = false := hx2; obtain rfl : k = false := hy2; simp [FVal.gt, FVal.cmp, size]
  | .inf n, .fin _ l d => obtain rfl : n = false := hx2; simp [FVal.gt, FVal.cmp, size]
  | .fin _ m e, .inf k => obtain rfl : k = false := hy2; simp [FVal.gt, FVal.cmp, size]
  | .fin n m e, .fin k l d =>
    obtain rfl : n = false := hx2
    obtain rfl : k = false := hy2
    simp [FVal.gt, cmp_fin, size, compare_gt_iff_gt]

/-! ### The largest of a list -/

theorem foldl_max_spec (l : List FVal) (hl : ∀ x ∈ l, IsMag x) (v : FVal) (hv : IsMag v) :
    let r := l.foldl (fun m x => if x.gt m then x else m) v
    IsMag r ∧ ∀ B, size r ≤ B ↔ size v ≤ B ∧ ∀ x ∈ l, size x ≤ B := by
  induction l generalizing v with
  | nil => exact ⟨hv, fun B => by simp⟩
  | cons x l ih =>
    have hx := hl x (by simp)
    have hgt := gt_iff hx hv
    have hstep : IsMag (if x.gt v then x else v) := by split <;> assumption
    obtain ⟨hmag, hsize⟩ := ih (fun y hy => hl y (by simp [hy])) _ hstep
    refine ⟨hmag, fun B => ?_⟩
    rw [List.foldl_cons, hsize B]
    simp only [List.forall_mem_cons, ← and_assoc]
    refine and_congr_left fun _ => ?_
    split_ifs with h
    · exact ⟨fun hB => ⟨(hgt.mp h).le.trans hB, hB⟩, fun hB => hB.2⟩
    · exact ⟨fun hB => ⟨hB, (not_lt.mp (hgt.not.mp h)).trans hB⟩, fun hB => hB.1⟩

/-- The largest of some magnitudes is a magnitude, and is at most a bound where all are. -/
theorem maxMag_spec {l : List FVal} (hl : ∀ x ∈ l, IsMag x) :
    IsMag (maxMag l) ∧ ∀ B, 0 ≤ B → (size (maxMag l) ≤ B ↔ ∀ x ∈ l, size x ≤ B) := by
  obtain ⟨hmag, hsize⟩ := foldl_max_spec l hl .zero ⟨rfl, rfl⟩
  refine ⟨hmag, fun B hB => ?_⟩
  rw [maxMag, hsize B]
  have : size .zero = 0 := by simp [size, FVal.zero]
  simp [this, hB]

/-- A magnitude stands for a list of values: it is at most a bound where the bound covers them. -/
def Tops (v : FVal) (A : List FVal) : Prop := IsMag v ∧ ∀ B : ℚ, 0 ≤ B → (size v ≤ B ↔ Covered A B)

theorem size_le_iff {x : FVal} (h : x.isNan = false) (B : ℚ) : size x ≤ B ↔ ∃ q, rational x = some q ∧ |q| ≤ B := by
  cases x with
  | nan _ => cases h
  | inf _ => simp [size, rational]
  | fin n m e =>
    have : |sgn n * mag m e| = mag m e := by
      rw [abs_mul, abs_of_nonneg (mag_nonneg m e), show |sgn n| = 1 by cases n <;> norm_num, one_mul]
    simp [size, rational_fin, this]

/-- The largest magnitude of some values that are no NaN stands for them. -/
theorem tops_maxMag {A : List FVal} (hA : ∀ x ∈ A, x.isNan = false) : Tops (maxMag (A.map FVal.abs)) A := by
  have hmags : ∀ x ∈ A.map FVal.abs, IsMag x := by
    simp only [List.forall_mem_map]
    exact fun x hx => isMag_abs (hA x hx)
  obtain ⟨hmag, hsize⟩ := maxMag_spec hmags
  refine ⟨hmag, fun B hB => ?_⟩
  rw [hsize _ (by exact_mod_cast hB)]
  simp only [List.forall_mem_map, size_abs, Covered]
  exact forall₂_congr fun x hx => size_le_iff (hA x hx) B

/-- The largest of the magnitudes of some lists stands for all of them. -/
theorem tops_flatMap {n : Nat} {v : Nat → FVal} {A : Nat → List FVal} (h : ∀ g < n, Tops (v g) (A g)) :
    Tops (maxMag ((List.range n).map v)) ((List.range n).flatMap A) := by
  have hmags : ∀ x ∈ (List.range n).map v, IsMag x := by
    simp only [List.forall_mem_map, List.mem_range]
    exact fun g hg => (h g hg).1
  obtain ⟨hmag, hsize⟩ := maxMag_spec hmags
  refine ⟨hmag, fun B hB => ?_⟩
  rw [hsize _ (by exact_mod_cast hB)]
  simp only [List.forall_mem_map, List.mem_range, Covered, List.mem_flatMap]
  exact ⟨fun hall x ⟨g, hg, hx⟩ => ((h g hg).2 B hB).mp (hall g hg) x hx,
    fun hall g hg => ((h g hg).2 B hB).mpr fun x hx => hall x ⟨g, hg, hx⟩⟩

/-- What stands for values that are no NaN is 0 where they all are. -/
theorem Tops.isZero_iff {v : FVal} {A : List FVal} (h : Tops v A) : v.isZero = true ↔ ∀ x ∈ A, x.isZero = true := by
  have hv := h.2 0 le_rfl
  rw [Formats.isZero_iff h.1.1, ← (size_nonneg v).ge_iff_eq', WithTop.coe_zero.symm, hv]
  refine forall₂_congr fun x _ => ?_
  constructor
  · rintro ⟨q, hq, hle⟩
    cases x with
    | nan _ => cases hq
    | inf _ => cases hq
    | fin n m e =>
      rw [rational_fin, Option.some_inj] at hq
      have h0 : q = 0 := abs_eq_zero.mp (le_antisymm hle (abs_nonneg q))
      have : mag m e = 0 := by
        rw [← hq] at h0
        cases n <;> simpa using h0
      rw [Formats.isZero_iff rfl, size, this, WithTop.coe_zero]
  · intro hx
    cases x with
    | nan _ => cases hx
    | inf _ => cases hx
    | fin n m e =>
      cases m with
      | zero => exact ⟨0, by simp [rational_fin], by simp⟩
      | succ m => cases hx

/-! ### Election (10 R303) -/

/-- The magnitudes of a list that falls. -/
def Falling (l : List FVal) : Prop := (∀ x ∈ l, IsMag x) ∧ l.Pairwise (fun a b => size b ≤ size a)

theorem insertDesc_perm (x : FVal) (l : List FVal) : (insertDesc x l).Perm (x :: l) := by
  induction l with
  | nil => exact .refl _
  | cons y l ih =>
    unfold insertDesc
    split
    · exact .refl _
    · exact (ih.cons y).trans (.swap x y l)

theorem insertDesc_falling {x : FVal} (hx : IsMag x) {l : List FVal} (h : Falling l) : Falling (insertDesc x l) := by
  refine ⟨fun y hy => ?_, ?_⟩
  · obtain rfl | hy := List.mem_cons.mp ((insertDesc_perm x l).mem_iff.mp hy)
    · exact hx
    · exact h.1 y hy
  induction l with
  | nil => exact List.pairwise_singleton _ _
  | cons y l ih =>
    obtain ⟨hmag, hpair⟩ := h
    obtain ⟨hy, hl⟩ := List.pairwise_cons.mp hpair
    have hgt := gt_iff hx (hmag y (by simp))
    unfold insertDesc
    split_ifs with hlt
    · have hle := (hgt.mp hlt).le
      exact List.pairwise_cons.mpr ⟨List.forall_mem_cons.mpr ⟨hle, fun z hz => (hy z hz).trans hle⟩, hpair⟩
    · refine List.pairwise_cons.mpr ⟨fun z hz => ?_, ih ⟨fun z hz => hmag z (by simp [hz]), hl⟩⟩
      obtain rfl | hz := List.mem_cons.mp ((insertDesc_perm x l).mem_iff.mp hz)
      · exact not_lt.mp (hgt.not.mp hlt)
      · exact hy z hz

/-- Inserting the magnitudes of some values one after another sorts them. -/
theorem foldl_insertDesc (xs : List FVal) (hxs : ∀ x ∈ xs, x.isNan = false) (l : List FVal) (hl : Falling l) :
    let r := xs.foldl (fun l x => insertDesc x.abs l) l
    Falling r ∧ r.Perm (xs.map FVal.abs ++ l) := by
  induction xs generalizing l with
  | nil => exact ⟨hl, .refl _⟩
  | cons x xs ih =>
    obtain ⟨hfall, hperm⟩ := ih (fun y hy => hxs y (by simp [hy])) _ (insertDesc_falling (isMag_abs (hxs x (by simp))) hl)
    exact ⟨hfall, hperm.trans (((insertDesc_perm x.abs l).append_left _).trans List.perm_middle)⟩

/-- Of a falling list, at most n entries meet a condition that the larger ones meet with the smaller ones, if the entry at
n is none of them. -/
theorem filter_falling (P : FVal → Bool) {l : List FVal} (hup : ∀ a ∈ l, ∀ b ∈ l, size b ≤ size a → P b = true → P a = true)
    (hl : l.Pairwise (fun a b => size b ≤ size a)) (n : Nat) :
    (l.filter P).length ≤ n ↔ ∀ y, l[n]? = some y → P y = false := by
  induction l generalizing n with
  | nil => simp
  | cons x l ih =>
    obtain ⟨hx, hpair⟩ := List.pairwise_cons.mp hl
    have rest := ih (fun a ha b hb => hup a (by simp [ha]) b (by simp [hb])) hpair
    cases hP : P x with
    | true =>
      rw [List.filter_cons_of_pos hP, List.length_cons]
      cases n with
      | zero => simp [hP]
      | succ n => rw [List.getElem?_cons_succ, ← rest n, Nat.succ_le_succ_iff]
    | false =>
      have none : ∀ y ∈ l, P y = false := fun y hy =>
        Bool.eq_false_iff.mpr fun hy' => Bool.false_ne_true (hP.symm.trans (hup x (by simp) y (by simp [hy]) (hx y hy) hy'))
      rw [List.filter_cons_of_neg (by simp [hP]), List.filter_eq_nil_iff.mpr (fun y hy => by simp [none y hy])]
      refine ⟨fun _ y hy => ?_, fun _ => Nat.zero_le _⟩
      obtain rfl | hy := List.mem_cons.mp (List.mem_of_getElem? hy)
      · exact hP
      · exact none y hy

/-- The limit that an elected element lies above (10 R303): 2^k times a magnitude. -/
theorem isMag_limit {y : FVal} (hy : IsMag y) (k : Nat) : IsMag (y.mul (.fin false 1 k)).1 := by
  obtain ⟨hy1, hy2⟩ := hy
  cases y with
  | nan _ => cases hy1
  | inf n => obtain rfl : n = false := hy2; exact ⟨rfl, rfl⟩
  | fin n m e => obtain rfl : n = false := hy2; exact ⟨rfl, rfl⟩

/-- An element reaches 2^k times a magnitude that it is not above. -/
theorem atMost_iff {x y : FVal} (hx : x.isNan = false) (hy : IsMag y) (k : Nat) :
    atMost k x y = true ↔ size x ≤ size (y.mul (.fin false 1 k)).1 := by
  obtain ⟨hy1, hy2⟩ := hy
  match x, y with
  | .nan _, _ => cases hx
  | _, .nan _ => cases hy1
  | .inf _, .inf _ => obtain rfl := hy2; simp [atMost, FVal.mul, FVal.isZero, size]
  | .fin _ _ _, .inf _ => simp [atMost, FVal.mul, FVal.isZero, size]
  | .inf _, .fin _ _ _ => simp [atMost, FVal.mul, size]
  | .fin _ m e, .fin _ l d =>
    have : mag l (d + k) = 2 ^ k * (l * 2 ^ d) := by
      rw [mag, zpow_add₀ two_ne_zero, zpow_natCast]
      ring
    simp only [atMost, FVal.mul, size, decide_eq_true_eq, WithTop.coe_le_coe, mul_one, this]
    rfl

theorem atMost_abs (k : Nat) (x y : FVal) : atMost k x y.abs = atMost k x y := by
  cases x <;> cases y <;> rfl

/-- What a smaller magnitude reaches a larger one does. -/
theorem atMost_mono {x a b : FVal} (k : Nat) (hb : b.isNan = false) (ha : a.isNan = false) (h : size b ≤ size a) (hx : atMost k x b = true) :
    atMost k x a = true := by
  match x, a, b with
  | _, .nan _, _ => cases ha
  | _, _, .nan _ => cases hb
  | _, .inf _, _ => cases x <;> rfl
  | _, .fin _ _ _, .inf _ => simp [size] at h
  | .nan _, .fin _ _ _, .fin _ _ _ => cases hx
  | .inf _, .fin _ _ _, .fin _ _ _ => cases hx
  | .fin _ m e, .fin _ l d, .fin _ i c =>
    simp only [size, WithTop.coe_le_coe, mag] at h
    simp only [atMost, decide_eq_true_eq] at hx ⊢
    exact hx.trans (mul_le_mul_of_nonneg_left h (by positivity))

/-- The elements of a group that the quantiser elects (10 R303). -/
theorem electGroup_eq (p : QParam) (elect : Bool) (xs : List FVal) : electGroup p elect xs = xs.map (elected p elect xs) := by
  unfold electGroup
  split_ifs with h
  · refine List.map_congr_left fun x _ => ?_
    have hon : (elect && decide (0 < p.olg)) = true := h
    cases hx : x.isNan with
    | true => simp [elected, hx]
    | false =>
      have hplain : ∀ y ∈ xs.filter (fun x => !x.isNan), y.isNan = false := fun y hy => by simpa using (List.mem_filter.mp hy).2
      obtain ⟨⟨hmag, hpair⟩, hperm⟩ := foldl_insertDesc _ hplain [] ⟨by simp, .nil⟩
      generalize (xs.filter (fun x => !x.isNan)).foldl (fun l x => insertDesc x.abs l) [] = sorted at hmag hpair hperm ⊢
      have hcount : (xs.filter (fun y => !y.isNan && atMost p.re x y)).length = (sorted.filter (atMost p.re x)).length := by
        rw [(hperm.filter _).length_eq, List.append_nil, List.filter_map, List.length_map, List.filter_filter]
        congr 2
        funext y
        rw [Function.comp, atMost_abs, Bool.and_comm]
      have hle := filter_falling (atMost p.re x) (fun a ha b hb => atMost_mono p.re (hmag b hb).1 (hmag a ha).1) hpair p.olg
      rw [elected, hon, hx, hcount, Bool.eq_iff_iff]
      simp only [Bool.not_false, Bool.true_and, Bool.and_eq_true, decide_eq_true_eq, hle, List.getD_eq_getElem?_getD, Bool.not_eq_true']
      cases hn : sorted[p.olg]? with
      | none =>
        rw [Option.getD_none, gt_iff (isMag_abs hx) (isMag_limit ⟨rfl, rfl⟩ _), size_abs]
        have hzero : size (FVal.zero.mul (.fin false 1 p.re)).1 = 0 := by simp [FVal.zero, FVal.mul, size]
        rw [hzero, (size_nonneg x).lt_iff_ne', Ne, ← isZero_iff hx]
        simp
      | some y =>
        have hy := hmag y (List.mem_of_getElem? hn)
        rw [Option.getD_some, gt_iff (isMag_abs hx) (isMag_limit hy _), size_abs, ← not_le, ← atMost_iff hx hy]
        simp only [Option.some_inj, forall_eq', Bool.not_eq_true, iff_and_self]
        intro hnot
        rw [← Bool.not_eq_true, isZero_iff hx]
        intro h0
        rw [← Bool.not_eq_true, atMost_iff hx hy, h0] at hnot
        exact hnot (size_nonneg _)
  · refine List.map_congr_left fun x _ => ?_
    have hoff : (elect && decide (0 < p.olg)) = false := Bool.eq_false_iff.mpr h
    rw [elected, hoff]
    rfl

end Sys2Proof.Formats
end

section
/-! PROOFS. Scales that cover: the block scale and the group scales of the quantiser (02 R51, 10 R303). -/

namespace Sys2Proof.Formats

open Sys2Proof Sys2Proof.Machine Sys2Proof.Claims

/-! ### Powers of two that cover -/

/-- `ceilLog2` is the least exponent at which one value is at most another times the power of two. -/
theorem ceilLog2_le_iff {m d : Nat} (hm : m ≠ 0) (hd : d ≠ 0) (e f k : ℤ) : ceilLog2 m e d f ≤ k ↔ mag m e ≤ mag d (f + k) := by
  obtain ⟨hmlo, hmhi⟩ := mag_log2 hm e
  have hk (j : ℤ) := mag_log2 hd (f + j)
  have mono {a b : ℤ} (h : a ≤ b) : (2 : ℚ) ^ a ≤ 2 ^ b := zpow_le_zpow_right₀ one_le_two h
  unfold ceilLog2
  simp only [dyCmp_eq_compare, compare_gt_iff_gt]
  generalize hc : (log2Floor m : ℤ) - log2Floor d + e - f = c
  have above (h : c + 1 ≤ k) : mag m e ≤ mag d (f + k) := hmhi.le.trans ((mono (by omega)).trans (hk k).1)
  have below (h : k < c) : mag d (f + k) < mag m e := (hk k).2.trans_le ((mono (by omega)).trans hmlo)
  obtain hlt | rfl | hgt := lt_trichotomy k c
  · have := below hlt
    split_ifs
    · exact iff_of_false (by omega) (not_le.mpr this)
    · exact iff_of_false (by omega) (not_le.mpr this)
  · split_ifs with h
    · exact iff_of_false (by omega) (not_le.mpr h)
    · exact iff_of_true le_rfl (not_lt.mp h)
  · have := above hgt
    split_ifs
    · exact iff_of_true (by omega) this
    · exact iff_of_true (by omega) this

/-- A threshold cut to a range is the least exponent of the range that covers. -/
theorem leastExponent_clamp {covers : ℤ → Prop} {c lo hi : ℤ} (h : ∀ k, covers k ↔ c ≤ k) (hl : lo ≤ hi) :
    LeastExponent covers lo hi (max lo (min hi c)) := by
  refine ⟨by omega, by omega, ?_, fun j h1 h2 => ?_⟩
  · rw [h]
    omega
  · rw [h]
    omega

/-- Where no exponent covers, the highest of the range is taken. -/
theorem leastExponent_none {covers : ℤ → Prop} {lo hi : ℤ} (h : ∀ k, ¬covers k) (hl : lo ≤ hi) : LeastExponent covers lo hi hi :=
  ⟨hl, le_rfl, .inl rfl, fun k _ _ => h k⟩

/-- The clamped exponent of a magnitude over a value d 2^f; that of infinity is the highest. -/
def coverExp (v : FVal) (d : Nat) (f lo hi : ℤ) : ℤ :=
  match v with
  | .fin _ m e => max lo (min hi (ceilLog2 m e d f))
  | _ => hi

/-- It is the least exponent of the range at which the value times the power of two covers what the magnitude stands for. -/
theorem coverExp_least {v : FVal} {A : List FVal} (ht : Tops v A) (hz : v.isZero = false) {d : Nat} (hd : d ≠ 0) (f : ℤ) {lo hi : ℤ}
    (hl : lo ≤ hi) : LeastExponent (fun k => Covered A (mag d (f + k))) lo hi (coverExp v d f lo hi) := by
  obtain ⟨⟨hnan, -⟩, hcov⟩ := ht
  have hcov (k : ℤ) := hcov _ (mag_nonneg d (f + k))
  simp only [← hcov]
  cases v with
  | nan _ => cases hnan
  | inf _ => exact leastExponent_none (fun k => by simp [size]) hl
  | fin n m e =>
    have hm : m ≠ 0 := by
      rintro rfl
      cases hz
    exact leastExponent_clamp (fun k => by rw [size, WithTop.coe_le_coe, ceilLog2_le_iff hm hd]) hl

/-! ### Group scales (02 R51) -/

/-- The value of a UE4M3 code with given fields (02 R45, R46). -/
theorem ue4m3_fields {E M : Nat} (hE : E < 16) (hM : M < 8) (hn : ¬(E = 15 ∧ M = 7)) :
    ue4m3 (8 * E + M) = if E = 0 then .fin false M (-9) else .fin false (8 + M) (E - 10) := by
  have hexp : bits (8 * E + M) 6 3 = E := by
    rw [bits]
    omega
  have hfrac : bits (8 * E + M) 2 0 = M := by
    rw [bits]
    omega
  have hbias : (E : ℤ) - 7 - 3 = E - 10 := by omega
  simp [ue4m3, fpDecode, NumFmt.isInt, NumFmt.eb, NumFmt.fb, NumFmt.hasInf, NumFmt.bias, hexp, hfrac, hn, hbias]

/-- The codes of UE4M3 other than its NaN are values, 0 only for code 0. -/
theorem ue4m3_fin {c : Nat} (h : c < 0x7F) : ∃ m e, ue4m3 c = .fin false m e ∧ (m = 0 ↔ c = 0) := by
  have hc := ue4m3_fields (E := c / 8) (M := c % 8) (by omega) (by omega) (by omega)
  rw [Nat.div_add_mod] at hc
  split_ifs at hc with h0
  · exact ⟨_, _, hc, by omega⟩
  · exact ⟨_, _, hc, by omega⟩

/-- The code of a power of two. -/
theorem ue4m3Pow_value {k : ℤ} (h1 : -9 ≤ k) (h2 : k ≤ 8) : ue4m3Pow k < 0x7F ∧ rational (ue4m3 (ue4m3Pow k)) = some (2 ^ k) := by
  unfold ue4m3Pow
  split_ifs with hsub
  · obtain ⟨j, rfl⟩ : ∃ j : Nat, k = j - 9 := ⟨(k + 9).toNat, by omega⟩
    have hj : 2 ^ j < 2 ^ 3 := Nat.pow_lt_pow_right (by decide) (by omega)
    rw [show ((j : ℤ) - 9 + 9).toNat = j by omega]
    have hc := ue4m3_fields (E := 0) (M := 2 ^ j) (by decide) hj (by omega)
    rw [if_pos rfl, mul_zero, zero_add] at hc
    refine ⟨by omega, ?_⟩
    rw [hc, rational_fin, sgn_false, one_mul, mag_pow, sub_eq_add_neg]
  · obtain ⟨j, rfl⟩ : ∃ j : Nat, k = j - 7 := ⟨(k + 7).toNat, by omega⟩
    rw [show (((j : ℤ) - 7 + 7) * 8).toNat = 8 * j + 0 by omega]
    refine ⟨by omega, ?_⟩
    rw [ue4m3_fields (by omega) (by decide) (by omega), if_neg (by omega), rational_fin, sgn_false, one_mul,
      show 8 + 0 = 2 ^ 3 from rfl, mag_pow]
    congr 2
    push_cast
    ring

/-- The first of the numbers from 1 to n that meets a condition, n where none does. -/
theorem find_least (P : Nat → Bool) {n : Nat} (hn : 0 < n) :
    let r := (((List.range n).map (· + 1)).find? P).getD n
    0 < r ∧ r ≤ n ∧ (r = n ∨ P r = true) ∧ ∀ c, 0 < c → c < r → P c = false := by
  rw [List.find?_map]
  cases hf : (List.range n).find? (P ∘ (· + 1)) with
  | none =>
    rw [List.find?_eq_none] at hf
    refine ⟨hn, le_rfl, .inl rfl, fun c h0 hc => ?_⟩
    have := hf (c - 1) (List.mem_range.mpr (by simp at hc; omega))
    simpa [Nat.sub_add_cancel h0] using this
  | some i =>
    obtain ⟨hP, hi, hlt⟩ := List.find?_range_eq_some.mp hf
    rw [List.mem_range] at hi
    refine ⟨Nat.succ_pos i, hi, .inr hP, fun c h0 hc => ?_⟩
    have := hlt (c - 1) (by simp at hc; omega)
    simpa [Nat.sub_add_cancel h0] using this

/-- The largest value of a format of the quantiser (02 R75). -/
theorem largestValue_eq {fmt : Nat} (h4 : 4 ≤ fmt) (h : fmt ≤ 10) :
    mag (elemFmt fmt).largest.1 (elemFmt fmt).largest.2 = largestValue fmt ∧ (elemFmt fmt).largest.1 ≠ 0 := by
  interval_cases fmt <;> exact ⟨by norm_num [elemFmt, NumFmt.largest, mag, largestValue], by decide⟩

/-- The largest value under a block scale, as a dyadic value. -/
def reachMag (fmt sf : Nat) : Nat := (4 + sf) * (elemFmt fmt).largest.1
/-- Its exponent. -/
def reachExp (fmt se : Nat) : ℤ := (se : ℤ) - 127 - 2 + (elemFmt fmt).largest.2

theorem reachMag_ne_zero {fmt : Nat} (h4 : 4 ≤ fmt) (h : fmt ≤ 10) (sf : Nat) : reachMag fmt sf ≠ 0 :=
  Nat.mul_ne_zero (by omega) (largestValue_eq h4 h).2

theorem mag_reach {fmt : Nat} (h4 : 4 ≤ fmt) (h : fmt ≤ 10) (se sf : Nat) :
    mag (reachMag fmt sf) (reachExp fmt se) = largestValue fmt * scaleValue se sf := by
  have hscale := rational_blockScale se sf
  rw [blockScale, rational_fin, sgn_false, one_mul, Option.some_inj] at hscale
  rw [reachMag, reachExp, ← mag_mul, hscale, (largestValue_eq h4 h).1, mul_comm]

/-- What a group scale of 2^k under a block scale covers. -/
theorem mag_reach_add {fmt : Nat} (h4 : 4 ≤ fmt) (h : fmt ≤ 10) (se sf : Nat) (k : ℤ) :
    mag (reachMag fmt sf) (reachExp fmt se + k) = 2 ^ k * largestValue fmt * scaleValue se sf := by
  rw [mul_assoc, ← mag_reach h4 h, mag, mag, zpow_add₀ two_ne_zero]
  ring

theorem groupCode_zero (p : QParam) (fmt se sf : Nat) {v : FVal} (hz : v.isZero = true) : groupCode p fmt (blockScale se sf) v = 0 := by
  cases v with
  | nan _ => cases hz
  | inf _ => cases hz
  | fin n m e =>
    cases m with
    | zero => rfl
    | succ m => cases hz

theorem groupCode_pow {p : QParam} (hp : p.gfine = false) (fmt se sf : Nat) {v : FVal} (hn : v.isNan = false) (hz : v.isZero = false) :
    groupCode p fmt (blockScale se sf) v = ue4m3Pow (coverExp v (reachMag fmt sf) (reachExp fmt se) (-9) 8) := by
  cases v with
  | nan _ => cases hn
  | inf _ => simp [groupCode, hp, coverExp, ue4m3Pow]
  | fin n m e =>
    cases m with
    | zero => cases hz
    | succ m => simp [groupCode, hp, coverExp, blockScale, FVal.mul, reachMag, reachExp]

/-- Does a group scale code cover a magnitude, as `groupCode` asks it? -/
def codeCovers (fmt se sf m : Nat) (e : ℤ) (c : Nat) : Bool :=
  match (ue4m3 c).mul (.fin false (reachMag fmt sf) (reachExp fmt se)) with
  | (.fin _ u v, _) => dyCmp u v m e != .lt
  | _ => false

theorem codeCovers_iff (fmt se sf m : Nat) (e : ℤ) {c : Nat} (hc : c < 0x7F) : codeCovers fmt se sf m e c = true ↔
    mag m e ≤ (rational (ue4m3 c)).getD 0 * mag (reachMag fmt sf) (reachExp fmt se) := by
  obtain ⟨u, v, hv, -⟩ := ue4m3_fin hc
  simp only [codeCovers, hv, FVal.mul, dyCmp_eq_compare, bne_iff_ne, ne_eq, compare_lt_iff_lt, not_lt, rational_fin,
    Option.getD_some, sgn_false, one_mul, mag_mul]

theorem groupCode_fine {p : QParam} (hp : p.gfine = true) (fmt se sf : Nat) (n : Bool) {m : Nat} (hm : m ≠ 0) (e : ℤ) :
    groupCode p fmt (blockScale se sf) (.fin n m e) =
      (((List.range 0x7E).map (· + 1)).find? (codeCovers fmt se sf m e)).getD 0x7E := by
  cases m with
  | zero => exact absurd rfl hm
  | succ m => simp only [groupCode, hp, blockScale, FVal.mul, if_true] <;> rfl

/-- The group scale of a group: the least that covers its magnitudes (10 R303). -/
theorem groupCode_spec (p : QParam) {fmt : Nat} (h4 : 4 ≤ fmt) (h : fmt ≤ 10) (se sf : Nat) {v : FVal} {A : List FVal} (ht : Tops v A) :
    let code := groupCode p fmt (blockScale se sf) v
    let covers (scale : ℚ) : Prop := Covered A (scale * largestValue fmt * scaleValue se sf)
    let value (c : Nat) : ℚ := (rational (ue4m3 c)).getD 0
    if ∀ x ∈ A, x.isZero = true then code = 0
    else if p.gfine then 0 < code ∧ code ≤ 0x7E ∧ (code = 0x7E ∨ covers (value code)) ∧ ∀ c, 0 < c → c < code → ¬covers (value c)
    else ∃ k, LeastExponent (fun j => covers (2 ^ j)) (-9) 8 k ∧ code < 0x7F ∧ rational (ue4m3 code) = some (2 ^ k) := by
  dsimp only
  split_ifs with hzero hfine
  · exact groupCode_zero p fmt se sf (ht.isZero_iff.mpr hzero)
  · have hz : v.isZero = false := Bool.eq_false_iff.mpr (ht.isZero_iff.not.mpr hzero)
    have hcov (c : Nat) (hc : c < 0x7F) : Covered A ((rational (ue4m3 c)).getD 0 * largestValue fmt * scaleValue se sf) ↔
        size v ≤ (((rational (ue4m3 c)).getD 0 * mag (reachMag fmt sf) (reachExp fmt se) : ℚ) : WithTop ℚ) := by
      rw [mag_reach h4 h, ← mul_assoc]
      refine (ht.2 _ ?_).symm
      obtain ⟨u, w, hv, -⟩ := ue4m3_fin hc
      rw [mul_assoc, ← mag_reach h4 h, hv, rational_fin, Option.getD_some, sgn_false, one_mul]
      exact mul_nonneg (mag_nonneg _ _) (mag_nonneg _ _)
    cases v with
    | nan _ => cases ht.1.1
    | inf n =>
      have hcode : groupCode p fmt (blockScale se sf) (.inf n) = 0x7E := by simp [groupCode, hfine]
      rw [hcode]
      refine ⟨by decide, le_rfl, .inl rfl, fun c _ hc => ?_⟩
      rw [hcov c (by omega)]
      exact not_le.mpr (WithTop.coe_lt_top _)
    | fin n m e =>
      have hm : m ≠ 0 := by
        rintro rfl
        cases hz
      have hP (c : Nat) (hc : c < 0x7F) : codeCovers fmt se sf m e c = true ↔
          Covered A ((rational (ue4m3 c)).getD 0 * largestValue fmt * scaleValue se sf) := by
        rw [codeCovers_iff _ _ _ _ _ hc, hcov c hc, size, WithTop.coe_le_coe]
      obtain ⟨hpos, hle, hat, hbelow⟩ := find_least (codeCovers fmt se sf m e) (n := 0x7E) (by decide)
      rw [← groupCode_fine hfine fmt se sf n hm e] at hpos hle hat hbelow
      refine ⟨hpos, hle, hat.imp_right fun hc => (hP _ (by omega)).mp hc, fun c h0 hc => ?_⟩
      rw [← hP c (by omega), hbelow c h0 hc]
      exact Bool.false_ne_true
  · have hz : v.isZero = false := Bool.eq_false_iff.mpr (ht.isZero_iff.not.mpr hzero)
    have hleast := coverExp_least ht hz (reachMag_ne_zero h4 h sf) (reachExp fmt se) (show (-9 : ℤ) ≤ 8 by decide)
    simp only [mag_reach_add h4 h] at hleast
    rw [groupCode_pow (Bool.eq_false_iff.mpr hfine) fmt se sf ht.1.1 hz]
    exact ⟨_, hleast, ue4m3Pow_value hleast.1 hleast.2.1⟩

/-! ### The scales of a block (10 R303) -/

/-- Group g of a list, as its entries. -/
theorem take_drop_range {α : Type} {l : List α} {n g : Nat} (hl : l.length = 24 * n) (hg : g < n) (d : α) :
    (l.drop (24 * g)).take 24 = (List.range 24).map (fun i => l.getD (24 * g + i) d) := by
  apply List.ext_getElem?
  intro i
  by_cases hi : i < 24
  · rw [List.getElem?_take_of_lt hi, List.getElem?_drop, getElem?_map_range _ hi, List.getD_eq_getElem?_getD,
      List.getElem?_eq_getElem (by omega), Option.getD_some]
  · simp [hi]

theorem groupAt_eq {xs : List FVal} {n g : Nat} (hx : xs.length = 24 * n) (hg : g < n) :
    groupAt xs g = (List.range 24).map (fun i => xs.getD (24 * g + i) .zero) :=
  take_drop_range hx hg .zero

/-- What the scales of group g have to cover, as one magnitude. -/
def groupTop (p : QParam) (elect : Bool) (xs : List FVal) (g : Nat) : FVal := maxMag ((plainOf p elect xs g).map FVal.abs)

theorem groupTop_tops (p : QParam) (elect : Bool) (xs : List FVal) (g : Nat) :
    Tops (groupTop p elect xs g) (plainOf p elect xs g) := by
  refine tops_maxMag fun x hx => ?_
  have := (List.mem_filter.mp hx).2
  simp only [Bool.and_eq_true, Bool.not_eq_true'] at this
  exact this.1

/-- What the block scale has to cover, as one magnitude. -/
def blockTop (p : QParam) (elect : Bool) (xs : List FVal) (n : Nat) : FVal := maxMag ((List.range n).map (groupTop p elect xs))

theorem blockTop_tops (p : QParam) (elect : Bool) (xs : List FVal) (n : Nat) :
    Tops (blockTop p elect xs n) ((List.range n).flatMap (plainOf p elect xs)) :=
  tops_flatMap fun g _ => groupTop_tops p elect xs g

/-- The exponent of the block scale that QNT chooses for a largest magnitude. -/
def autoExp (v : FVal) (fmt : Nat) : Nat :=
  match v with
  | .fin _ 0 _ => 127
  | .fin _ m e => (127 + max (-127) (min 127 (ceilLog2 m e (elemFmt fmt).largest.1 (elemFmt fmt).largest.2)) : ℤ).toNat
  | _ => 254

theorem autoExp_zero {v : FVal} (hz : v.isZero = true) (fmt : Nat) : autoExp v fmt = 127 := by
  cases v with
  | nan _ => cases hz
  | inf _ => cases hz
  | fin n m e =>
    cases m with
    | zero => rfl
    | succ m => cases hz

theorem autoExp_cover {v : FVal} (hn : v.isNan = false) (hz : v.isZero = false) (fmt : Nat) :
    autoExp v fmt = (127 + coverExp v (elemFmt fmt).largest.1 (elemFmt fmt).largest.2 (-127) 127).toNat := by
  cases v with
  | nan _ => cases hn
  | inf _ => rfl
  | fin n m e =>
    cases m with
    | zero => cases hz
    | succ m => rfl

theorem autoExp_le (v : FVal) (fmt : Nat) : autoExp v fmt ≤ 254 := by
  unfold autoExp
  split <;> omega

/-- The magnitudes of a group that are no NaN and not elected. -/
theorem filterMap_plain (p : QParam) (elect : Bool) (group : List FVal) :
    ((group.zip (electGroup p elect group)).filterMap (fun x => if (x.2 || x.1.isNan) = true then none else some x.1.abs)) =
      (group.filter (fun x => !x.isNan && !elected p elect group x)).map FVal.abs := by
  rw [electGroup_eq]
  generalize elected p elect group = P
  induction group with
  | nil => rfl
  | cons x l ih =>
    rw [List.map_cons, List.zip_cons_cons, List.filterMap_cons, ih, List.filter_cons]
    cases P x <;> cases x.isNan <;> rfl

/-- The maxima of the groups, as the quantiser forms them. -/
theorem groupTops_eq (p : QParam) (elect : Bool) (xs : List FVal) (n : Nat) :
    let gs := (List.range n).map (groupAt xs)
    let els := gs.map (electGroup p elect)
    (List.range n).map (fun g => maxMag (((gs.getD g []).zip (els.getD g [])).filterMap
      (fun x => if (x.2 || x.1.isNan) = true then none else some x.1.abs))) = (List.range n).map (groupTop p elect xs) := by
  refine List.map_congr_left fun g hg => ?_
  rw [List.mem_range] at hg
  rw [List.map_map, getD_map_range _ hg, getD_map_range _ hg, Function.comp, filterMap_plain]
  rfl

theorem qntScales_eq (xs : List FVal) (p : QParam) {fmt : Nat} (given : Nat) (elect : Bool) (h : fmt ≤ 11) :
    let se := if p.auto = true then autoExp (blockTop p elect xs (groupsOf fmt)) fmt else p.se
    let sf := if p.auto = true then 0 else p.sf
    qntScales xs p fmt given elect = (((List.range (groupsOf fmt)).map (fun g => (groupAt xs g).map (elected p elect (groupAt xs g)))).flatten,
      se, sf, (List.range (groupsOf fmt)).map (fun g =>
        if p.gfix = true then given / 2 ^ (8 * g) % 2 ^ 8 else groupCode p fmt (blockScale se sf) (groupTop p elect xs g))) := by
  have htops := groupTops_eq p elect xs (groupsOf fmt)
  have hels : ((List.range (groupsOf fmt)).map (groupAt xs)).map (electGroup p elect) =
      (List.range (groupsOf fmt)).map (fun g => (groupAt xs g).map (elected p elect (groupAt xs g))) := by
    rw [List.map_map]
    exact List.map_congr_left fun g _ => electGroup_eq p elect _
  have hgroup (g : Nat) : List.take 24 (List.drop (24 * g) xs) = groupAt xs g := rfl
  have hgiven (g : Nat) : bits given (8 * g + 7) (8 * g) = given / 2 ^ (8 * g) % 2 ^ 8 := by
    rw [bits, show 8 * g + 7 + 1 - 8 * g = 8 by omega]
  dsimp only at htops
  simp only [qntScales, groupCount_eq h, hgroup, hgiven]
  rw [htops, hels]
  have hcodes (se sf : Nat) : (List.range (groupsOf fmt)).map (fun g => if p.gfix = true then given / 2 ^ (8 * g) % 2 ^ 8
      else groupCode p fmt (blockScale se sf) (((List.range (groupsOf fmt)).map (groupTop p elect xs)).getD g .zero)) =
      (List.range (groupsOf fmt)).map (fun g => if p.gfix = true then given / 2 ^ (8 * g) % 2 ^ 8
        else groupCode p fmt (blockScale se sf) (groupTop p elect xs g)) :=
    List.map_congr_left fun g hg => by rw [getD_map_range _ (List.mem_range.mp hg)]
  rw [hcodes]
  cases p.auto <;> rfl

/-- The elected elements of a block, in order over its groups. -/
theorem flatten_elected (p : QParam) (elect : Bool) {xs : List FVal} {n : Nat} (hx : xs.length = 24 * n) :
    ((List.range n).map (fun g => (groupAt xs g).map (elected p elect (groupAt xs g)))).flatten =
      (List.range (24 * n)).map (fun e => elected p elect (groupAt xs (e / 24)) (xs.getD e .zero)) := by
  have hgroup : (List.range n).map (fun g => (groupAt xs g).map (elected p elect (groupAt xs g))) =
      (List.range n).map (fun g => (List.range 24).map (fun i => elected p elect (groupAt xs g) (xs.getD (24 * g + i) .zero))) := by
    refine List.map_congr_left fun g hg => ?_
    conv_lhs => rw [groupAt_eq hx (List.mem_range.mp hg), List.map_map]
    rw [← groupAt_eq hx (List.mem_range.mp hg)]
    rfl
  rw [hgroup, ← List.flatMap_def, flatMap_range (fun g i => elected p elect (groupAt xs g) (xs.getD (24 * g + i) .zero)), mul_comm n]
  exact List.map_congr_left fun k _ => by rw [Nat.div_add_mod]

/-- The block scale that QNT chooses is the least that covers the elements not elected (10 R303). -/
theorem autoExp_least {v : FVal} {A : List FVal} (ht : Tops v A) {fmt : Nat} (h4 : 4 ≤ fmt) (h : fmt ≤ 10) :
    if ∀ x ∈ A, x.isZero = true then autoExp v fmt = 127
    else LeastExponent (fun k => Covered A (2 ^ k * largestValue fmt)) (-127) 127 ((autoExp v fmt : ℤ) - 127) := by
  obtain ⟨hlargest, hne⟩ := largestValue_eq h4 h
  split_ifs with hzero
  · exact autoExp_zero (ht.isZero_iff.mpr hzero) fmt
  · have hz : v.isZero = false := Bool.eq_false_iff.mpr (ht.isZero_iff.not.mpr hzero)
    have hleast := coverExp_least ht hz hne (elemFmt fmt).largest.2 (show (-127 : ℤ) ≤ 127 by decide)
    have hreach (k : ℤ) : mag (elemFmt fmt).largest.1 ((elemFmt fmt).largest.2 + k) = 2 ^ k * largestValue fmt := by
      rw [← hlargest, mag, mag, zpow_add₀ two_ne_zero]
      ring
    simp only [hreach] at hleast
    have hlow := hleast.1
    rw [autoExp_cover ht.1.1 hz, show (((127 + coverExp v (elemFmt fmt).largest.1 (elemFmt fmt).largest.2 (-127) 127).toNat : ℤ) - 127)
      = coverExp v (elemFmt fmt).largest.1 (elemFmt fmt).largest.2 (-127) 127 by omega]
    exact hleast

end Sys2Proof.Formats
end

section
/-! PROOFS. The bytes of a quantised block (10 R303, 02 R75, R77). -/

namespace Sys2Proof.Formats

open Sys2Proof Sys2Proof.Machine Sys2Proof.Claims

/-! ### Codes fit their field (02 R75) -/

theorem elemFmt_width_le {fmt : Nat} (h4 : 4 ≤ fmt) (h : fmt ≤ 10) : 8 < 2 ^ (elemFmt fmt).width := by
  interval_cases fmt <;> decide

theorem nanCode_lt {f : NumFmt} {c : Nat} (h : f.nanCode = some c) : c < 2 ^ f.width := by
  cases f <;> cases h <;> decide

theorem isInt_of_hasInf {f : NumFmt} (h : f.hasInf = true) : f.isInt = false := by
  cases f <;> simp_all [NumFmt.hasInf, NumFmt.isInt]

theorem infCode_lt {f : NumFmt} (hi : f.isInt = false) (s : Bool) : infCode f s < 2 ^ f.width := by
  rw [infCode_fields hi]
  exact (fields_sign hi s (Nat.sub_one_lt (Nat.two_pow_pos _).ne') (Nat.two_pow_pos _)).1

theorem encodeMag_int_lt {f : NumFmt} (hi : f.isInt = true) (s : Bool) (k : Nat) (q : ℤ) : encodeMag f s k q < 2 ^ f.width := by
  have := Int.emod_lt_of_pos (if s then -(k : ℤ) else k) (b := (2 ^ f.width : Nat)) (by exact_mod_cast Nat.two_pow_pos _)
  rw [encodeMag, if_pos hi, wrapN]
  omega

/-- The code of a rounded magnitude in range. -/
theorem encodeMag_lt {f : NumFmt} (hi : f.isInt = false) (s : Bool) {k : Nat} {q : ℤ} (hq : leastExp f ≤ q)
    (hk : k ≤ 2 ^ (f.fb + 1)) (hsub : k < 2 ^ f.fb → q = leastExp f) (hL : mag k q ≤ mag f.largest.1 f.largest.2) :
    encodeMag f s k q < 2 ^ f.width := by
  obtain ⟨s', E, M, -, henc, hM, -, hval⟩ := encodeMag_fields hi s hq hk hsub
  have hE : E < 2 ^ f.eb := by
    obtain ⟨rfl, -, -⟩ | ⟨-, hv⟩ := hval
    · exact Nat.two_pow_pos _
    · exact (Nat.le_add_right _ _).trans_lt (exponent_le hi (hv ▸ hL))
  exact henc ▸ (fields_sign hi s' hE hM).1

theorem largestCode_lt {fmt : Nat} (h4 : 4 ≤ fmt) (h : fmt ≤ 10) (s : Bool) :
    largestCode (elemFmt fmt) s < 2 ^ (elemFmt fmt).width := by
  interval_cases fmt <;> cases s <;> decide

/-- What a conversion of a finite value encodes fits the width. -/
theorem encodeMag_roundTo_lt (f : NumFmt) (n : Bool) {m : Nat} (hm : m ≠ 0) (e : ℤ)
    (hL : mag (roundTo f m e).1 (roundTo f m e).2 ≤ mag f.largest.1 f.largest.2) :
    encodeMag f n (roundTo f m e).1 (roundTo f m e).2 < 2 ^ f.width := by
  cases hi : f.isInt
  · rw [roundTo_float hi] at hL ⊢
    obtain ⟨hk, hsub⟩ := rneGrid_bounds f hm e
    exact encodeMag_lt hi n (leastExp_le_gridExp f m e) hk hsub hL
  · exact encodeMag_int_lt hi n _ _

theorem encodeMag_zero_lt (f : NumFmt) (n : Bool) : encodeMag f n 0 (leastExp f) < 2 ^ f.width := by
  cases hi : f.isInt
  · refine encodeMag_lt hi n le_rfl (Nat.zero_le _) (fun _ => rfl) ?_
    rw [mag_eq_zero.mpr rfl]
    exact mag_nonneg _ _
  · exact encodeMag_int_lt hi n _ _

/-- A conversion gives a code of the format's width. -/
theorem convert_lt {fmt : Nat} (h4 : 4 ≤ fmt) (h : fmt ≤ 10) (v : FVal) (inv : Bool) :
    (convert (elemFmt fmt) v inv).1 < 2 ^ (elemFmt fmt).width := by
  have hlargest := largestCode_lt h4 h
  cases v with
  | nan q =>
    cases hc : (elemFmt fmt).nanCode with
    | none => simp only [convert, hc]; exact Nat.two_pow_pos _
    | some c => simp only [convert, hc]; exact nanCode_lt hc
  | inf s =>
    by_cases hinf : (elemFmt fmt).hasInf = true
    · simp only [convert, if_pos hinf]
      exact infCode_lt (isInt_of_hasInf hinf) s
    · simp only [convert, if_neg hinf]
      exact hlargest s
  | fin s m e =>
    by_cases hm : m = 0
    · rw [hm, convert_zero]
      exact encodeMag_zero_lt _ s
    · have hover : (elemFmt fmt).overInf ≠ true := by interval_cases fmt <;> exact Bool.false_ne_true
      rw [convert_code _ s hm, if_neg hover]
      split_ifs with hL
      · exact hlargest s
      · exact encodeMag_roundTo_lt _ s hm e (not_lt.mp hL)

/-! ### Bytes and digits -/

/-- The number that a list of bytes holds, lowest first, each cut to eight bits. -/
def byteNat (l : List Nat) : Nat := leNat (l.map (BitVec.ofNat 8))

theorem byteNat_cons (x : Nat) (l : List Nat) : byteNat (x :: l) = x % 256 + 256 * byteNat l := by
  simp [byteNat, leNat]

theorem byteNat_append (l m : List Nat) : byteNat (l ++ m) = byteNat l + 2 ^ (8 * l.length) * byteNat m := by
  induction l with
  | nil => simp [byteNat, leNat]
  | cons x l ih =>
    rw [List.cons_append, byteNat_cons, ih, byteNat_cons, List.length_cons]
    ring

theorem byteNat_lt (l : List Nat) : byteNat l < 2 ^ (8 * l.length) := by
  induction l with
  | nil => simp [byteNat, leNat]
  | cons x l ih =>
    rw [byteNat_cons, List.length_cons, mul_add, pow_add]
    have := Nat.mod_lt x (show 0 < 256 by decide)
    omega

/-- The bytes of a number hold it. -/
theorem byteNat_leBytes (n x : Nat) : byteNat ((leBytes n x).map (fun b => b.toNat)) = x % 2 ^ (8 * n) := by
  induction n generalizing x with
  | zero => simp [byteNat, leNat, leBytes, Nat.mod_one]
  | succ n ih =>
    rw [leBytes, List.map_cons, byteNat_cons, ih, BitVec.toNat_ofNat, Nat.mod_mod, mul_add, pow_add, mul_comm (2 ^ (8 * n)),
      Nat.mod_mul]
    rfl

theorem length_leBytes (n x : Nat) : (leBytes n x).length = n := by
  induction n generalizing x with
  | zero => rfl
  | succ n ih => rw [leBytes, List.length_cons, ih]

theorem assemble_toNat {l : List Nat} (h : l.length ≤ 64) : (assemble l).toNat = byteNat l := by
  rw [assemble, List.take_of_length_le (by rwa [List.length_map]), blockOf, BitVec.toNat_ofNat]
  exact Nat.mod_eq_of_lt ((byteNat_lt l).trans_le (Nat.pow_le_pow_right two_pos (Nat.mul_le_mul_left 8 h)))

/-- A run of whole bytes of an assembled block. -/
theorem bitsAt_assemble {A m C : List Nat} (h : (A ++ m ++ C).length ≤ 64) :
    bitsAt (assemble (A ++ m ++ C)) (8 * A.length) (8 * m.length) = byteNat m := by
  rw [bitsAt, assemble_toNat h, List.append_assoc, byteNat_append, byteNat_append, Nat.add_mul_div_left _ _ (Nat.two_pow_pos _),
    Nat.div_eq_of_lt (byteNat_lt A), zero_add, Nat.add_mul_mod_self_left, Nat.mod_eq_of_lt (byteNat_lt m)]

/-- The first n digits, w bits each, lowest first. -/
def digits (w : Nat) (d : Nat → Nat) (n : Nat) : Nat := ((List.range n).map (fun i => d i * 2 ^ (w * i))).sum

theorem digits_succ (w : Nat) (d : Nat → Nat) (n : Nat) : digits w d (n + 1) = digits w d n + d n * 2 ^ (w * n) := by
  rw [digits, List.range_succ, List.map_append, List.sum_append]
  simp [digits]

theorem digits_lt {w : Nat} {d : Nat → Nat} (hd : ∀ i, d i < 2 ^ w) (n : Nat) : digits w d n < 2 ^ (w * n) := by
  induction n with
  | zero => simp [digits]
  | succ n ih =>
    have := Nat.mul_le_mul_right (2 ^ (w * n)) (Nat.succ_le_of_lt (hd n))
    rw [digits_succ, mul_add, mul_one, pow_add, mul_comm (2 ^ (w * n))]
    rw [Nat.succ_mul] at this
    omega

theorem digits_div {w : Nat} {d : Nat → Nat} (hd : ∀ i, d i < 2 ^ w) {n j : Nat} (hj : j < n) :
    digits w d n / 2 ^ (w * j) % 2 ^ w = d j := by
  induction n with
  | zero => omega
  | succ n ih =>
    rw [digits_succ]
    obtain h | rfl := Nat.lt_succ_iff_lt_or_eq.mp hj
    · obtain ⟨k, rfl⟩ := Nat.exists_eq_add_of_lt h
      rw [show d (j + k + 1) * 2 ^ (w * (j + k + 1)) = 2 ^ (w * j) * (2 ^ w * (d (j + k + 1) * 2 ^ (w * k))) by ring,
        Nat.add_mul_div_left _ _ (Nat.two_pow_pos _), Nat.add_mul_mod_self_left, ih h]
    · rw [Nat.add_mul_div_right _ _ (Nat.two_pow_pos _), Nat.div_eq_of_lt (digits_lt hd j), zero_add, Nat.mod_eq_of_lt (hd j)]

/-! ### Lists by groups -/

theorem length_flatMap_range {α : Type} {F : Nat → List α} {n k : Nat} (h : ∀ g, (F g).length = k) :
    ((List.range n).flatMap F).length = n * k := by
  rw [List.length_flatMap, List.map_congr_left (fun g _ => h g), List.map_const', List.sum_replicate, List.length_range, smul_eq_mul]

/-- The pieces before and after piece g. -/
theorem flatMap_split {α : Type} (F : Nat → List α) {n g : Nat} (h : g < n) :
    ∃ C, (List.range n).flatMap F = (List.range g).flatMap F ++ F g ++ C := by
  obtain ⟨k, rfl⟩ := Nat.exists_eq_add_of_lt h
  refine ⟨((List.range k).map (g + 1 + ·)).flatMap F, ?_⟩
  rw [show g + k + 1 = g + 1 + k by omega, List.range_add, List.flatMap_append, List.range_succ, List.flatMap_append,
    List.flatMap_singleton]

/-- All events of a list. -/
def orAll (l : List Nat) : Nat := l.foldl (fun m c => m ||| c) 0

theorem foldl_or (l : List Nat) (m : Nat) : l.foldl (fun m c => m ||| c) m = m ||| orAll l := by
  induction l generalizing m with
  | nil => simp [orAll]
  | cons c l ih => rw [orAll, List.foldl_cons, List.foldl_cons, ih, ih (0 ||| c), Nat.zero_or, Nat.or_assoc]

theorem orAll_append (l m : List Nat) : orAll (l ++ m) = orAll l ||| orAll m := by
  rw [orAll, List.foldl_append, foldl_or]
  rfl

theorem orAll_cons (c : Nat) (l : List Nat) : orAll (c :: l) = c ||| orAll l := by
  rw [orAll, List.foldl_cons, foldl_or, Nat.zero_or]

theorem orAll_flatMap {α : Type} (F : α → List Nat) (l : List α) : orAll (l.map (fun g => orAll (F g))) = orAll (l.flatMap F) := by
  induction l with
  | nil => rfl
  | cons g l ih => rw [List.map_cons, orAll_cons, ih, List.flatMap_cons, orAll_append]

/-- Entries without events add none. -/
theorem orAll_filter {α : Type} (c : α → Bool) (f : α → Nat) (l : List α) :
    orAll (l.map (fun e => if c e = true then 0 else f e)) = orAll ((l.filter (fun e => !c e)).map f) := by
  induction l with
  | nil => rfl
  | cons e l ih =>
    rw [List.map_cons, orAll_cons, ih, List.filter_cons]
    cases c e <;> simp [orAll_cons]

/-! ### Quotients (10 R303, 02 R77) -/

theorem ue4m3_cases (c : Nat) : (∃ q, ue4m3 c = .nan q) ∨ ∃ m e, ue4m3 c = .fin false m e := by
  simp only [ue4m3, fpDecode, NumFmt.isInt, NumFmt.hasInf, Bool.false_eq_true, if_false, Bool.false_and]
  split_ifs <;> simp

/-- An element over its scales is a NaN where the element or the group scale is one, or where it is 0 times an infinity. -/
theorem quotientOf_isNan (code se sf : Nat) (x : FVal) : (quotientOf (ue4m3 code) (blockScale se sf) x).1.isNan =
    (x.isNan || (ue4m3 code).isNan || ((ue4m3 code).isZero && x.isInf)) := by
  obtain ⟨q, hc⟩ | ⟨m, e, hc⟩ := ue4m3_cases code
  · cases x <;> simp [hc, quotientOf, FVal.isZero, FVal.mul, FVal.div, FVal.isNan]
  · cases m with
    | zero => cases x <;> simp [hc, quotientOf, FVal.isZero, FVal.mul, FVal.isNan, FVal.isInf, FVal.zero]
    | succ m =>
      have hne : (m + 1) * (4 + sf) ≠ 0 := Nat.mul_ne_zero (Nat.succ_ne_zero m) (by omega)
      cases x with
      | nan q => simp [hc, quotientOf, FVal.isZero, FVal.div, FVal.isNan]
      | inf n => simp [hc, quotientOf, FVal.isZero, FVal.mul, FVal.div, FVal.isNan, blockScale]
      | fin n k d =>
        simp only [hc, quotientOf, FVal.isZero, FVal.mul, FVal.div, FVal.isNan, blockScale, hne, if_false]
        by_cases hk : k = 0 <;> simp [hk]

/-! ### The units of a block (10 R303)

Here c says which elements are elected, and q what each of the others is converted from. -/

/-- Is a value of group g a NaN that the format has no code for (02 R77)? -/
def groupNan (fmt : Nat) (c : Nat → Bool) (q : Nat → FVal × Bool) (g : Nat) : Bool :=
  (elemFmt fmt).nanCode.isNone && (List.range 24).any (fun i => !c (24 * g + i) && (q (24 * g + i)).1.isNan)

/-- The code of element e. -/
def elemCode (fmt : Nat) (c : Nat → Bool) (q : Nat → FVal × Bool) (e : Nat) : Nat :=
  if c e = true then 8 else if groupNan fmt c q (e / 24) = true then 0 else (rounded (elemFmt fmt) (q e)).1

/-- The codes of group g and its scale byte. -/
def groupBytes (fmt : Nat) (c : Nat → Bool) (q : Nat → FVal × Bool) (code : Nat → Nat) (g : Nat) : List Nat :=
  (leBytes (stride fmt - 1) (digits (elemFmt fmt).width (fun i => elemCode fmt c q (24 * g + i)) 24)).map (fun b => b.toNat) ++
    [if groupNan fmt c q g = true then 0x7F else code g]

/-- The bytes of a block: format and scale, groups, list bytes. -/
def blockBytes (fmt se sf : Nat) (c : Nat → Bool) (q : Nat → FVal × Bool) (code : Nat → Nat) (ol : List Nat) : List Nat :=
  [sf * 32 + fmt, se] ++ (List.range (groupsOf fmt)).flatMap (groupBytes fmt c q code) ++ ol

theorem nanCode_isNone {fmt : Nat} (h4 : 4 ≤ fmt) (h : fmt ≤ 10) : (elemFmt fmt).nanCode.isNone = true ↔ 6 ≤ fmt := by
  interval_cases fmt <;> decide

theorem groupNan_iff {fmt : Nat} (h4 : 4 ≤ fmt) (h : fmt ≤ 10) (c : Nat → Bool) (q : Nat → FVal × Bool) {n g : Nat} (hg : g < n) :
    groupNan fmt c q g = true ↔
      6 ≤ fmt ∧ ∃ e ∈ (List.range (24 * n)).filter (fun e => !c e), e / 24 = g ∧ (q e).1.isNan = true := by
  rw [groupNan, Bool.and_eq_true, nanCode_isNone h4 h, List.any_eq_true]
  refine and_congr_right fun _ => ⟨?_, ?_⟩
  · rintro ⟨i, hi, hq⟩
    rw [List.mem_range] at hi
    rw [Bool.and_eq_true] at hq
    exact ⟨24 * g + i, List.mem_filter.mpr ⟨List.mem_range.mpr (by omega), hq.1⟩, by omega, hq.2⟩
  · rintro ⟨e, he, rfl, hq⟩
    refine ⟨e % 24, List.mem_range.mpr (Nat.mod_lt _ (by decide)), ?_⟩
    rw [Nat.div_add_mod, hq, (List.mem_filter.mp he).2]
    rfl

theorem elemCode_lt {fmt : Nat} (h4 : 4 ≤ fmt) (h : fmt ≤ 10) (c : Nat → Bool) (q : Nat → FVal × Bool) (e : Nat) :
    elemCode fmt c q e < 2 ^ (elemFmt fmt).width := by
  have := elemFmt_width_le h4 h
  unfold elemCode
  split_ifs
  · exact this
  · omega
  · exact convert_lt h4 h _ _

theorem length_groupBytes (fmt : Nat) (c : Nat → Bool) (q : Nat → FVal × Bool) (code : Nat → Nat) (g : Nat) :
    (groupBytes fmt c q code g).length = stride fmt := by
  have := stride_pos fmt
  rw [groupBytes, List.length_append, List.length_map, length_leBytes, List.length_singleton]
  omega

/-- The codes of a group fill its bytes. -/
theorem width_stride {fmt : Nat} (h4 : 4 ≤ fmt) (h : fmt ≤ 10) :
    (elemFmt fmt).width * 24 = 8 * (stride fmt - 1) ∧ unitWidth fmt = (elemFmt fmt).width ∧ unitCount fmt = 24 := by
  interval_cases fmt <;> decide

section Fields

variable {fmt : Nat} (h4 : 4 ≤ fmt) (h : fmt ≤ 10) {se sf : Nat} {c : Nat → Bool} {q : Nat → FVal × Bool} {code : Nat → Nat} {ol : List Nat}
  (hol : ol.length = if escaping fmt = true then 2 else 0)

include h4 h

theorem byteNat_groupBytes (g : Nat) : byteNat (groupBytes fmt c q code g) =
    digits (elemFmt fmt).width (fun i => elemCode fmt c q (24 * g + i)) 24 +
      2 ^ (8 * (stride fmt - 1)) * ((if groupNan fmt c q g = true then 0x7F else code g) % 256) := by
  have hlt := digits_lt (fun i => elemCode_lt h4 h c q (24 * g + i)) 24
  rw [(width_stride h4 h).1] at hlt
  rw [groupBytes, byteNat_append, byteNat_leBytes, Nat.mod_eq_of_lt hlt, List.length_map, length_leBytes, byteNat_cons]
  rfl

include hol

theorem length_blockBytes : (blockBytes fmt se sf c q code ol).length = layoutBytes fmt ∧ layoutBytes fmt ≤ 64 := by
  have hbytes : (blockBytes fmt se sf c q code ol).length = 2 + groupsOf fmt * stride fmt + ol.length := by
    rw [blockBytes, List.length_append, List.length_append, length_flatMap_range (length_groupBytes fmt c q code)]
    rfl
  rw [hbytes, hol]
  interval_cases fmt <;> decide

/-- The first byte holds the format and the fraction of the block scale, the second its exponent (02 R54). -/
theorem header_blockBytes (hsf : sf < 4) (hse : se < 256) : let b := assemble (blockBytes fmt se sf c q code ol)
    bitsAt b 0 8 = fmt + 32 * sf ∧ bitsAt b 8 8 = se := by
  obtain ⟨hlen, hle⟩ := length_blockBytes h4 h hol (se := se) (sf := sf) (c := c) (q := q) (code := code)
  have hb : byteNat (blockBytes fmt se sf c q code ol) =
      fmt + 32 * sf + 256 * (se + 256 * byteNat ((List.range (groupsOf fmt)).flatMap (groupBytes fmt c q code) ++ ol)) := by
    rw [blockBytes, List.append_assoc, List.cons_append, List.cons_append, List.nil_append, byteNat_cons, byteNat_cons]
    omega
  simp only [bitsAt, assemble_toNat (hlen.trans_le hle), hb]
  omega

/-- The bytes above the layout are 0 (02 R57). -/
theorem reserved_blockBytes : (assemble (blockBytes fmt se sf c q code ol)).toNat / 2 ^ (8 * layoutBytes fmt) = 0 := by
  obtain ⟨hlen, hle⟩ := length_blockBytes h4 h hol (se := se) (sf := sf) (c := c) (q := q) (code := code)
  rw [assemble_toNat (by omega), ← hlen]
  exact Nat.div_eq_of_lt (byteNat_lt _)

/-- The bytes of group g stand at its stride (02 R55). -/
theorem group_blockBytes {g : Nat} (hg : g < groupsOf fmt) :
    bitsAt (assemble (blockBytes fmt se sf c q code ol)) (8 * (2 + g * stride fmt)) (8 * stride fmt) =
      byteNat (groupBytes fmt c q code g) := by
  obtain ⟨hlen, hle⟩ := length_blockBytes h4 h hol (se := se) (sf := sf) (c := c) (q := q) (code := code)
  obtain ⟨C, hC⟩ := flatMap_split (groupBytes fmt c q code) hg
  have hA : ([sf * 32 + fmt, se] ++ (List.range g).flatMap (groupBytes fmt c q code)).length = 2 + g * stride fmt := by
    rw [List.length_append, length_flatMap_range (length_groupBytes fmt c q code)]
    rfl
  have hsplit : blockBytes fmt se sf c q code ol = [sf * 32 + fmt, se] ++ (List.range g).flatMap (groupBytes fmt c q code) ++
      groupBytes fmt c q code g ++ (C ++ ol) := by
    rw [blockBytes, hC]
    simp only [List.append_assoc]
  rw [hsplit] at hlen ⊢
  rw [← hA, ← length_groupBytes fmt c q code g]
  exact bitsAt_assemble (by omega)

/-- The scale byte of a group. -/
theorem scaleOf_blockBytes {g : Nat} (hg : g < groupsOf fmt) : scaleOf (assemble (blockBytes fmt se sf c q code ol)) fmt g =
    (if groupNan fmt c q g = true then 0x7F else code g) % 256 := by
  have hpos := stride_pos fmt
  have hlt := digits_lt (fun i => elemCode_lt h4 h c q (24 * g + i)) 24
  rw [(width_stride h4 h).1] at hlt
  have hat : 8 * (2 + (g + 1) * stride fmt - 1) = 8 * (2 + g * stride fmt) + 8 * (stride fmt - 1) := by
    rw [Nat.add_one_mul g]
    omega
  rw [scaleOf, grouping_eq h4 (by omega), hat, ← bitsAt_bits _ (w := 8 * stride fmt) (by omega), group_blockBytes h4 h hol hg,
    byteNat_groupBytes h4 h, Nat.add_mul_div_left _ _ (Nat.two_pow_pos _), Nat.div_eq_of_lt hlt, zero_add]
  exact Nat.mod_mod _ _

/-- The units of a block are the codes of its elements. -/
theorem unitOf_blockBytes {e : Nat} (he : e < 24 * groupsOf fmt) :
    unitOf (assemble (blockBytes fmt se sf c q code ol)) fmt e = elemCode fmt c q e := by
  obtain ⟨hfill, hw, hu⟩ := width_stride h4 h
  have hpos := stride_pos fmt
  have hj : e % 24 < 24 := Nat.mod_lt _ (by decide)
  have hroom : (elemFmt fmt).width * (e % 24) + (elemFmt fmt).width ≤ (elemFmt fmt).width * 24 := by
    rw [← Nat.mul_succ]
    exact Nat.mul_le_mul_left _ hj
  have hpow : 2 ^ (8 * (stride fmt - 1)) = 2 ^ ((elemFmt fmt).width * (e % 24)) * (2 ^ (elemFmt fmt).width *
      2 ^ (8 * (stride fmt - 1) - (elemFmt fmt).width * (e % 24) - (elemFmt fmt).width)) := by
    rw [← pow_add, ← pow_add]
    congr 1
    omega
  rw [unitOf, unitsOf_eq h4 (by omega), grouping_eq h4 (by omega)]
  dsimp only
  rw [hw, hu, ← bitsAt_bits _ (w := 8 * stride fmt) (by omega), group_blockBytes h4 h hol (by omega), byteNat_groupBytes h4 h, hpow,
    mul_assoc, mul_assoc, Nat.add_mul_div_left _ _ (Nat.two_pow_pos _), Nat.add_mul_mod_self_left,
    digits_div (fun i => elemCode_lt h4 h c q (24 * (e / 24) + i)) hj, Nat.div_add_mod]

/-- The list bytes stand at the end of the layout (02 R63). -/
theorem list_blockBytes {x y : Nat} (hescape : escaping fmt = true) (hxy : ol = [x, y]) :
    let b := assemble (blockBytes fmt se sf c q code ol)
    bitsAt b (outlierBit fmt) 8 = x % 256 ∧ bitsAt b (outlierBit fmt + 8) 8 = y % 256 := by
  obtain ⟨hlen, hle⟩ := length_blockBytes h4 h hol (se := se) (sf := sf) (c := c) (q := q) (code := code)
  have hA : 8 * ([sf * 32 + fmt, se] ++ (List.range (groupsOf fmt)).flatMap (groupBytes fmt c q code)).length = outlierBit fmt := by
    rw [List.length_append, length_flatMap_range (length_groupBytes fmt c q code), List.length_cons, List.length_singleton]
    clear hlen hle hol
    interval_cases fmt <;> revert hescape <;> decide
  have hrun : [sf * 32 + fmt, se] ++ (List.range (groupsOf fmt)).flatMap (groupBytes fmt c q code) ++ ol ++ [] =
      blockBytes fmt se sf c q code ol := List.append_nil _
  have hbytes : bitsAt (assemble (blockBytes fmt se sf c q code ol)) (outlierBit fmt) 16 = x % 256 + 256 * (y % 256) := by
    have := bitsAt_assemble (hrun ▸ hlen.trans_le hle)
    rw [hrun, hA] at this
    rw [show 16 = 8 * ol.length by rw [hxy]; rfl, this, hxy, byteNat_cons, byteNat_cons]
    rfl
  have h0 := bitsAt_bits (assemble (blockBytes fmt se sf c q code ol)) (p := outlierBit fmt) (w := 16) (lo := 0) (n := 8) (by decide)
  have h8 := bitsAt_bits (assemble (blockBytes fmt se sf c q code ol)) (p := outlierBit fmt) (w := 16) (lo := 8) (n := 8) (by decide)
  rw [hbytes] at h0 h8
  rw [add_zero] at h0
  dsimp only
  omega

end Fields

/-! ### The quantised block (10 R303) -/

theorem getD_zip {α β : Type} {l : List α} {m : List β} (h : l.length = m.length) (i : Nat) (a : α) (b : β) :
    (l.zip m).getD i (a, b) = (l.getD i a, m.getD i b) := by
  by_cases hi : i < l.length
  · simp [List.getD_eq_getElem?_getD, hi, h ▸ hi]
  · simp [List.getD_eq_getElem?_getD, hi, h ▸ hi]

/-- The bytes and the events of group g. -/
theorem qntGroup_eq (fmt se sf : Nat) (x : Nat → FVal) (c : Nat → Bool) (code : Nat → Nat) (g : Nat) :
    let q (e : Nat) := quotientOf (ue4m3 (code (e / 24))) (blockScale se sf) (x e)
    qntGroup fmt (code g) (blockScale se sf) ((List.range 24).map (fun i => (x (24 * g + i), c (24 * g + i)))) =
      (groupBytes fmt c q code g,
        orAll ((List.range 24).map (fun i => if c (24 * g + i) = true then 0 else (rounded (elemFmt fmt) (q (24 * g + i))).2))) := by
  intro q
  have hq (i : Nat) (hi : i < 24) : quotientOf (ue4m3 (code g)) (blockScale se sf) (x (24 * g + i)) = q (24 * g + i) := by
    simp only [q, show (24 * g + i) / 24 = g by omega]
  have hn : ((elemFmt fmt).nanCode.isNone && ((List.range 24).map (fun i => (x (24 * g + i), c (24 * g + i)))).any (fun y =>
      !y.2 && (y.1.isNan || (ue4m3 (code g)).isNan || ((ue4m3 (code g)).isZero && y.1.isInf)))) = groupNan fmt c q g := by
    rw [groupNan, List.any_map]
    congr 1
    rw [Bool.eq_iff_iff, List.any_eq_true, List.any_eq_true]
    refine exists_congr fun i => and_congr_right fun hi => ?_
    rw [← hq i (List.mem_range.mp hi), quotientOf_isNan]
    rfl
  have hc (i : Nat) (hi : i < 24) : (if (groupNan fmt c q g && !c (24 * g + i)) = true then 0 else
      (if c (24 * g + i) = true then (8, 0) else qntElem fmt (ue4m3 (code g)) (blockScale se sf) (x (24 * g + i))).1) =
        elemCode fmt c q (24 * g + i) := by
    rw [elemCode, ← hq i hi, show (24 * g + i) / 24 = g by omega]
    cases c (24 * g + i) <;> cases groupNan fmt c q g <;> rfl
  simp only [qntGroup, hn, List.map_map, List.length_map, List.length_range, Function.comp_def, groupBytes, digits]
  refine Prod.ext (congrArg (fun l => (leBytes _ (List.sum l)).map _ ++ _) (List.map_congr_left fun i hi => ?_)) ?_
  · rw [List.mem_range] at hi
    rw [getD_map_range _ hi, getD_map_range _ hi, getD_map_range _ hi, hc i hi]
  · rw [List.foldl_map, orAll, List.foldl_map]
    dsimp only
    refine List.foldl_ext _ _ _ fun m i hi => ?_
    rw [← hq i (List.mem_range.mp hi)]
    cases c (24 * g + i) <;> rfl

/-- The events of the elements that are not elected. -/
theorem events_eq (c : Nat → Bool) (f : Nat → Nat) (n : Nat) :
    orAll ((List.range n).map (fun g => orAll ((List.range 24).map (fun i => if c (24 * g + i) = true then 0 else f (24 * g + i))))) =
      orAll (((List.range (24 * n)).filter (fun e => !c e)).map f) := by
  rw [orAll_flatMap (fun g => (List.range 24).map (fun i => if c (24 * g + i) = true then 0 else f (24 * g + i))),
    flatMap_range (fun g i => if c (24 * g + i) = true then 0 else f (24 * g + i)), ← orAll_filter, mul_comm n]
  simp only [Nat.div_add_mod]

theorem qntScales_lengths (xs : List FVal) (p : QParam) {fmt : Nat} (given : Nat) (elect : Bool) (h : fmt ≤ 11)
    (hx : xs.length = 24 * groupsOf fmt) : (qntScales xs p fmt given elect).1.length = xs.length := by
  rw [qntScales_eq xs p given elect h, hx]
  dsimp only
  rw [flatten_elected p elect hx, List.length_map, List.length_range]

/-- The block, the elected elements and the events of the quantiser. -/
theorem qntBlock_eq (xs : List FVal) (p : QParam) {fmt : Nat} (given cnt : Nat) (elect : Bool) (h : fmt ≤ 10)
    (hx : xs.length = 24 * groupsOf fmt) :
    let s := qntScales xs p fmt given elect
    let c (e : Nat) := s.1.getD e false
    let q (e : Nat) := quotientOf (ue4m3 (s.2.2.2.getD (e / 24) 0)) (blockScale s.2.1 s.2.2.1) (xs.getD e .zero)
    let picked := (List.range (24 * groupsOf fmt)).filter c
    let ol := if escaping fmt = true then [if picked.isEmpty = true then 0 else cnt % 64, picked.length % 64] else []
    qntBlock xs p fmt given cnt elect = (assemble (blockBytes fmt s.2.1 s.2.2.1 c q (fun g => s.2.2.2.getD g 0) ol), picked,
      orAll (((List.range (24 * groupsOf fmt)).filter (fun e => !c e)).map (fun e => (rounded (elemFmt fmt) (q e)).2))) := by
  intro s c q picked ol
  have hlen : s.1.length = xs.length := qntScales_lengths xs p given elect (by omega) hx
  have hgroup (g : Nat) (hg : g < groupsOf fmt) :
      qntGroup fmt (s.2.2.2.getD g 0) (blockScale s.2.1 s.2.2.1) (((xs.zip s.1).drop (24 * g)).take 24) =
        (groupBytes fmt c q (fun g => s.2.2.2.getD g 0) g,
          orAll ((List.range 24).map (fun i => if c (24 * g + i) = true then 0 else (rounded (elemFmt fmt) (q (24 * g + i))).2))) := by
    rw [take_drop_range (by rw [List.length_zip, hlen, min_self, hx]) hg (.zero, false)]
    simp only [getD_zip hlen.symm]
    exact qntGroup_eq fmt s.2.1 s.2.2.1 (fun e => xs.getD e .zero) c (fun g => s.2.2.2.getD g 0) g
  have hgroups := List.map_congr_left (l := List.range (groupsOf fmt)) fun g hg => hgroup g (List.mem_range.mp hg)
  have hblock : qntBlock xs p fmt given cnt elect = (let gs := (List.range (groupCount fmt)).map (fun g =>
        qntGroup fmt (s.2.2.2.getD g 0) (blockScale s.2.1 s.2.2.1) (((xs.zip s.1).drop (24 * g)).take 24))
      let picked := (List.range xs.length).filter c
      (assemble ([s.2.2.1 * 32 + fmt, s.2.1] ++ gs.flatMap (fun x => x.1) ++
        if hasOl fmt = true then [if picked.isEmpty = true then 0 else cnt % 64, picked.length % 64] else []), picked,
        gs.foldl (fun m x => m ||| x.2) 0)) := rfl
  have hol : (if hasOl fmt = true then [if picked.isEmpty = true then 0 else cnt % 64, picked.length % 64] else []) = ol := by
    rw [hasOl_eq]
  rw [← events_eq c (fun e => (rounded (elemFmt fmt) (q e)).2), hblock, groupCount_eq (show fmt ≤ 11 by omega), hgroups, hx]
  dsimp only
  rw [hol, List.flatMap_map, List.foldl_map, orAll, List.foldl_map]
  rfl

/-- The scales of a block fit their fields. -/
theorem qntScales_bounds (xs : List FVal) (p : QParam) {fmt : Nat} (given : Nat) (elect : Bool) (h : fmt ≤ 11)
    (hsf : p.sf < 4) (hse : p.se < 256) :
    (qntScales xs p fmt given elect).2.1 < 256 ∧ (qntScales xs p fmt given elect).2.2.1 < 4 := by
  rw [qntScales_eq xs p given elect h]
  have := autoExp_le (blockTop p elect xs (groupsOf fmt)) fmt
  cases p.auto
  · exact ⟨hse, hsf⟩
  · exact ⟨show autoExp _ fmt < 256 by omega, Nat.succ_pos 3⟩

end Sys2Proof.Formats
end

section
/-! PROOFS. Checks, decoding and quantisation of blocks. -/

open Sys2Proof Sys2Proof.Machine Sys2Proof.Claims Sys2Proof.Formats

/-- Settles O10: the bytes of a block as a number, its fields as digits, and the magnitudes a scale covers by their largest. -/
theorem blocksFollowTheirPseudocode : Obligations.BlocksFollowTheirPseudocode := by
  unfold Obligations.BlocksFollowTheirPseudocode
  refine ⟨?checks, ?decode, ?scales, ?blocks⟩
  case checks => exact fun b n => checkBlock_cases b n
  case decode =>
    intro b list
    refine ⟨fun h => by simp only [decodeValues, blkFmt_eq, h, if_true], fun h => decode_plain b list h (by decide) (by decide),
      fun h => ?_, fun h => decode_units b list h.1 h.2, fun h => ?_, decode_spb b list⟩
    · obtain h | h := h
      · simpa [h, elemFmt] using decode_plain b list h (by decide) (by decide)
      · simpa [h, elemFmt] using decode_plain b list h (by decide) (by decide)
    · simp only [h]
      exact decode_vq2 b list h
  case scales =>
    intro xs p fmt given el h4 h hx hsf
    have hq := qntScales_eq xs p given el (show fmt ≤ 11 by omega)
    dsimp only at hq ⊢
    rw [hq, flatten_elected p el hx]
    refine ⟨rfl, by rw [List.length_map, List.length_range], fun ha => ?_, fun ha => ?_, fun g hg => ?_⟩
    · simp only [ha]
      exact ⟨rfl, rfl⟩
    · simp only [ha, if_true]
      exact ⟨trivial, autoExp_least (blockTop_tops p el xs _) h4 h⟩
    · rw [getD_map_range _ hg]
      by_cases hfix : p.gfix = true
      · rw [if_pos hfix, if_pos hfix]
      · rw [if_neg hfix, if_neg hfix]
        exact groupCode_spec p h4 h _ _ (groupTop_tops p el xs g)
  case blocks =>
    intro xs p fmt given cnt el h4 h hx hsf hse s r b chosen from_ plain nan
    have hr : r = _ := qntBlock_eq xs p given cnt el h hx
    obtain ⟨hs, hf⟩ := qntScales_bounds xs p given el (show fmt ≤ 11 by omega) hsf hse
    obtain ⟨picked, hpicked⟩ : ∃ l, l = (List.range (24 * groupsOf fmt)).filter chosen := ⟨_, rfl⟩
    have hol : (if escaping fmt = true then [if picked.isEmpty = true then 0 else cnt % 64, picked.length % 64] else []).length =
        if escaping fmt = true then 2 else 0 := by
      split <;> rfl
    have hb : b = assemble (blockBytes fmt s.2.1 s.2.2.1 chosen from_ (fun g => s.2.2.2.getD g 0)
        (if escaping fmt = true then [if picked.isEmpty = true then 0 else cnt % 64, picked.length % 64] else [])) := by
      rw [hpicked]
      exact congrArg Prod.fst hr
    have hchosen : r.2.1 = picked := hpicked ▸ congrArg (fun x => x.2.1) hr
    have hnan (g : Nat) (hg : g < groupsOf fmt) : groupNan fmt chosen from_ g = true ↔ nan g := groupNan_iff h4 h chosen from_ hg
    rw [hb, hchosen]
    refine ⟨(header_blockBytes h4 h hol hf hs).1, (header_blockBytes h4 h hol hf hs).2, reserved_blockBytes h4 h hol, hpicked,
      congrArg (fun x => x.2.2) hr, fun he => ?_, fun g hg => ?_, fun e he => ?_⟩
    · obtain ⟨hbase, hcount⟩ := list_blockBytes h4 h hol (se := s.2.1) (sf := s.2.2.1) (c := chosen) (q := from_)
        (code := fun g => s.2.2.2.getD g 0) he (if_pos he)
      rw [hbase, hcount]
      refine ⟨?_, by omega⟩
      by_cases hp : picked = []
      · rw [if_pos hp, if_pos (List.isEmpty_iff.mpr hp)]
      · rw [if_neg hp, if_neg (List.isEmpty_iff.not.mpr hp)]
        omega
    · rw [scaleOf_blockBytes h4 h hol hg]
      exact ⟨fun hn => by rw [if_pos ((hnan g hg).mpr hn)], fun hn => by rw [if_neg ((hnan g hg).not.mpr hn)]⟩
    · have hg : e / 24 < groupsOf fmt := by omega
      rw [unitOf_blockBytes h4 h hol he, elemCode]
      refine ⟨fun hc _ _ => if_pos hc, fun hc => ?_⟩
      rw [if_neg (Bool.eq_false_iff.mp hc)]
      exact ⟨fun hn => if_pos ((hnan _ hg).mpr hn), fun hn => if_neg ((hnan _ hg).not.mpr hn)⟩

end

section
/-! PROOFS. The events of the gather/scatter and drain streams, and the end of a command (O39). -/

namespace Sys2Proof.Streams

open Sys2Proof Sys2Proof.Machine Sys2Proof.Claims

/-! ### Translations that need a walk (01 R26-R28) -/

theorem useLeaf_ne_miss (s : State) (ctx : Nat) (priv : Bool) (acc : Acc) (va : Nat) (pte : Dword) (lvl : Nat) :
    s.useLeaf ctx priv acc va pte lvl ≠ .miss := by
  unfold State.useLeaf
  split <;> simp

/-- A walk is needed for a canonical address that neither the caches nor a walk waited for translate. -/
theorem translate_miss_iff (s : State) (w : Who) (acc : Acc) (va : Nat) :
    s.translate w acc va = .miss ↔ canonical va = true ∧ s.cached w.core w.ctx va = none ∧ s.result w va = none := by
  unfold State.translate
  cases canonical va with
  | false => simp
  | true =>
    cases s.cached w.core w.ctx va with
    | some e => simp [useLeaf_ne_miss]
    | none =>
      cases s.result w va with
      | none => simp
      | some o => cases o <;> simp [useLeaf_ne_miss]

/-- Addresses of one line agree on every division by a multiple of 64. -/
theorem div_of_line {a b : Nat} (h : a / 64 = b / 64) (k : Nat) : a / (64 * k) = b / (64 * k) := by
  rw [← Nat.div_div_eq_div_mul, h, Nat.div_div_eq_div_mul]

theorem pageSize_eq (lvl : Nat) : ∃ k, pageSize lvl = 64 * k := by
  have h : 6 ≤ lvlShift lvl := by unfold lvlShift; split <;> decide
  obtain ⟨k, hk⟩ := Nat.exists_eq_add_of_le h
  exact ⟨2 ^ k, by rw [pageSize, hk, pow_add]; rfl⟩

theorem div_pageSize_of_line {a b : Nat} (h : a / 64 = b / 64) (lvl : Nat) : a / pageSize lvl = b / pageSize lvl := by
  obtain ⟨k, hk⟩ := pageSize_eq lvl
  rw [hk, div_of_line h]

theorem canonical_of_line {a b : Nat} (h : a / 64 = b / 64) : canonical a = canonical b := by
  have : a / 2 ^ 56 = b / 2 ^ 56 := div_of_line h (2 ^ 50)
  rw [canonical, canonical, bits, bits, this]

theorem cached_of_line (s : State) (core ctx : Nat) {a b : Nat} (h : a / 64 = b / 64) :
    s.cached core ctx a = s.cached core ctx b := by
  have hits (e : TlbEntry) : e.hits ctx a = e.hits ctx b := by simp only [TlbEntry.hits, div_pageSize_of_line h]
  have home : s.xlatHome ctx a = s.xlatHome ctx b := by
    have : a / 2 ^ 21 = b / 2 ^ 21 := div_of_line h (2 ^ 15)
    simp only [State.xlatHome, bits, this]
  simp only [State.cached, State.l2Cached, hits, home]

theorem result_of_line (s : State) (w : Who) {a b : Nat} (h : a / 64 = b / 64) : s.result w a = s.result w b := by
  have covers (o : WalkOut) (vpn : Nat) : o.covers vpn a = o.covers vpn b := by
    have : a / 65536 = b / 65536 := div_of_line h 1024
    cases o <;> simp only [WalkOut.covers, vpnOf, div_pageSize_of_line h, this]
  simp only [State.result, covers]

/-- The addresses of one line need a walk together. -/
theorem translate_miss_of_line (s : State) (w : Who) (acc : Acc) {a b : Nat} (h : a / 64 = b / 64) :
    s.translate w acc a = .miss ↔ s.translate w acc b = .miss := by
  rw [translate_miss_iff, translate_miss_iff, canonical_of_line h, cached_of_line s _ _ h, result_of_line s w h]

/-- An access that can wait has its page still to be walked where the translation misses. -/
theorem unwalked_iff (s : State) {w : Who} (hw : w.ask ≠ none) (acc : Acc) (va : Nat) :
    s.unwalked w acc va = true ↔ s.translate w acc va = .miss := by
  simp [State.unwalked, Option.isSome_iff_ne_none, hw]

theorem cmdWho_ask (s : State) (c : Cmd) : (s.cmdWho c).ask ≠ none := by simp [State.cmdWho, State.unit]

/-! ### The elements of a chunk (03 R104) -/

theorem chunkNow_eq_working (cnt next : Nat) (cur : List GsElem) : chunkNow cnt next cur = working cnt next cur := by
  cases cur <;> rfl

theorem gsRead_eq_numberAt (s : State) (w : Who) (va n : Nat) : s.gsRead w va n = numberAt s w va n := rfl

theorem gsIndices_eq_map (s : State) {w : Who} (hw : w.ask ≠ none) (idx wd : Nat) (cur : List GsElem) :
    s.gsIndices w idx wd cur = cur.map (indexed s w idx wd) := by
  refine List.map_congr_left fun e _ => ?_
  cases hix : e.ix with
  | some r => simp [indexed, hix]
  | none =>
    simp only [indexed, hix, Option.isSome_none, Bool.false_or, unwalked_iff s hw, gsRead_eq_numberAt, true_and, ne_eq, ite_not]
    rfl

theorem gsValues_eq_map (s : State) {w : Who} (hw : w.ask ≠ none) (val es : Nat) (cur : List GsElem) :
    s.gsValues w val es cur = cur.map (valued s w val es) := by
  refine List.map_congr_left fun e _ => ?_
  match hix : e.ix, hv : e.val with
  | none, _ => simp only [valued, hix]
  | some (.fail _ _), _ => simp only [valued, hix]
  | some (.num _), some _ => simp [valued, hix, hv]
  | some (.num _), none =>
    simp only [valued, hix, hv, unwalked_iff s hw, gsRead_eq_numberAt, true_and, ne_eq, ite_not]

theorem isRead_iff (e : GsElem) : e.isRead = true ↔ readWhole e := by
  unfold GsElem.isRead readWhole
  cases e.ix with
  | none => simp
  | some r => cases r <;> simp [Option.isSome_iff_ne_none]

/-- A head command that may make accesses passes the guard of its events. -/
theorem heads_runs {s : State} {k : TeamKey} {n : Nat} {c : Cmd} {kind : CmdKind} (h : heads s k n c kind) :
    s.headCmd k n = some c ∧ c.kind = kind ∧ s.cmdRuns c = true := by
  obtain ⟨hc, hk, hr, hw, hb⟩ := h
  exact ⟨hc, hk, by simp [State.cmdRuns, hr, hw, hb]⟩

/-! ### GATH (09 R275) -/

/-- The elements of a gather with an entry still to claim: what the claim at the head of a list does. -/
theorem gathClaim_cons {s : State} {tk : TeamKey} {q : QRef} {qu : Queue} (blk : Bool) {e : GsElem} (rest : List GsElem)
    (hq : (s.team tk).bind (fun t => t.queue q) = some qu) (hd : e.done = false) (hp : e.pos = none) :
    let fi := qu.fifo (if blk = true then 0 else e.i % 32)
    s.gathClaim tk q blk (e :: rest) =
      if fi.dead = true then ((s.gathClaim tk q blk rest).1, { e with done := true } :: (s.gathClaim tk q blk rest).2)
      else if e.ix = none ∨ fi.room qu.limit 1 = false then (s, e :: rest)
      else
        let r := (s.claim tk qu (if blk = true then 0 else e.i % 32)).gathClaim tk q blk rest
        (r.1, { e with pos := some fi.nextIn } :: r.2) := by
  simp only [State.gathClaim, hd, hp, hq, gathLane, Option.isSome_none, Bool.or_self, Bool.false_eq_true, if_false,
    Bool.or_eq_true, Option.isNone_iff_eq_none, Bool.not_eq_true']

/-- A claimed element whose index line failed becomes a poison entry that no replay-table entry stands for. -/
theorem gathElem_fail {s : State} {c : Cmd} (q : QRef) (base : Nat) (blk : Bool) {e : GsElem} {pos : Nat} {kd : Option XKind}
    {line : Nat} (hd : e.done = false) (hp : e.pos = some pos) (hx : e.ix = some (.fail kd line)) :
    s.gathElem c q base blk e = (s.fillPos c.thr.gk.team q (if blk = true then 0 else e.i % 32) pos
      (.poison { va := BitVec.ofNat 64 line, sp := false, rtag := 0xFFFF, kind := (failed kd).2, cls := (failed kd).1 }),
      { e with done := true }) := by
  cases kd <;> simp only [State.gathElem, hd, hp, hx, gathLane, indexPoison, failed] <;> rfl

/-- A claimed element whose index is known waits for the walk of its page, or is read and, once it has what a poison
entry needs, fills its entry. -/
theorem gathElem_num {s : State} {c : Cmd} (q : QRef) (base : Nat) (blk : Bool) {e : GsElem} {pos n : Nat}
    (hd : e.done = false) (hp : e.pos = some pos) (hx : e.ix = some (.num n)) :
    let va := (base + n * (if blk = true then 64 else 4)) % 2 ^ 64
    let kind : FillKind := if blk = true then .block else .lane
    let r := s.fillRead { id := c.id, thr := c.thr, pc := c.pc, t0 := c.t0, kind := kind, va := va, tgt := .drop }
    s.gathElem c q base blk e =
      if s.translate (s.cmdWho c) .read va = .miss then (s.wantWalks (s.cmdWho c) [va], e)
      else match r.2.nameReplay c.thr kind va (some q) r.1 with
        | some (x, u) => (u.fillPos c.thr.gk.team q (if blk = true then 0 else e.i % 32) pos x, { e with done := true })
        | none => (s, e) := by
  simp only [State.gathElem, hd, hp, hx, gathLane, elemAddr, unwalked_iff s (cmdWho_ask s c)] <;> rfl

/-! ### SCAT (09 R275) -/

theorem scatWrite_eq_elementWritten (s : State) (w : Who) (i va es : Nat) (v : Option (List Byte)) :
    s.scatWrite w i va es v = elementWritten s w i va es v := by
  unfold State.scatWrite elementWritten
  simp only [bne_iff_ne, ne_eq]
  split
  · rfl
  · split
    · simp_all
    · cases v <;> simp_all

/-- An element with a write to make waits with the later ones of its destination, or writes. -/
theorem scatWrites_write {s : State} {w : Who} (hw : w.ask ≠ none) {base es : Nat} {blk : Bool} (late : List Nat) {e : GsElem}
    (rest : List GsElem) {va : Nat} {v : Option (List Byte)} (hd : e.done = false) (he : e.write base es blk = some (va, v)) :
    WritesNext s w base es blk late e rest e.readFails va v := by
  have hstay : (va % es = 0 ∧ (s.unwalked w .write va = true ∨ late.any (s.sameDest w va) = true)) ↔
      va % es = 0 ∧ (s.translate w .write va = .miss ∨ ∃ a ∈ late, s.sameDest w va a = true) := by
    rw [unwalked_iff s hw, List.any_eq_true]
  constructor
  · intro h
    simp only [State.scatWrites, hd, he, if_pos (hstay.mpr h)]
  · intro h
    simp only [State.scatWrites, hd, he, if_neg (hstay.not.mpr h), scatWrite_eq_elementWritten]

/-- An element without a write is over, with the failures of its reads. -/
theorem scatWrites_none {s : State} {w : Who} {base es : Nat} {blk : Bool} (late : List Nat) {e : GsElem} (rest : List GsElem)
    (hd : e.done = false) (he : e.write base es blk = none) :
    let r := s.scatWrites w base es blk late rest
    s.scatWrites w base es blk late (e :: rest) = (r.1, { e with done := true } :: r.2.1, e.readFails ++ r.2.2) := by
  simp only [State.scatWrites, hd, he]

/-! ### The head of a stream -/

theorem team_modTeam {s : State} {k : TeamKey} {t : Team} {f : Team → Team} (h : s.team k = some t)
    (hf : ∀ t, (f t).key = t.key) : (s.modTeam k f).team k = some (f t) := by
  have hk : t.key = k := by simpa using List.find?_some h
  have same : ((fun t : Team => t.key == k) ∘ fun t => if t.key = k then f t else t) = fun t => t.key == k := by
    funext t
    simp only [Function.comp]
    split <;> simp [hf]
  rw [State.team] at h
  simp only [State.team, State.modTeam, List.find?_map, same, h, Option.map_some, if_pos hk]

theorem setStream_key (t : Team) (n : Nat) (l : List Cmd) : (t.setStream n l).key = t.key := by
  unfold Team.setStream
  split_ifs <;> rfl

theorem headCmd_modHead_drain {s : State} {k : TeamKey} {c : Cmd} (f : Cmd → Cmd) (h : s.headCmd k 2 = some c) :
    (s.modHead k 2 f).headCmd k 2 = some (f c) := by
  obtain ⟨t, ht, hs⟩ := Option.bind_eq_some_iff.mp h
  obtain ⟨r, hr⟩ := List.head?_eq_some_iff.mp hs
  rw [State.headCmd, State.modHead, team_modTeam ht (fun _ => setStream_key _ _ _), hr]
  rfl

/-! ### Writes of an engine leave the teams and the jobs -/

/-- A state with the teams and the jobs of s: its commands access memory as those of s do. -/
def SameTeams (s t : State) : Prop := t.teams = s.teams ∧ t.jobs = s.jobs

theorem SameTeams.cmdWho {s t : State} (h : SameTeams s t) (c : Cmd) : t.cmdWho c = s.cmdWho c := by
  obtain ⟨ht, hj⟩ := h
  have core (k : TeamKey) : t.coreOf k = s.coreOf k := by rw [State.coreOf, State.team, ht, State.coreOf, State.team]
  have ctx (j : Nat) : t.ctxOf j = s.ctxOf j := by rw [State.ctxOf, State.job, hj, State.ctxOf, State.job]
  have priv (j : Nat) : t.priv j = s.priv j := by rw [State.priv, State.priv, ctx]
  simp only [State.cmdWho, State.unit, core, ctx, priv]

theorem SameTeams.hbmWrite {s t : State} (h : SameTeams s t) (slot pa : Nat) (bs : List Byte) :
    SameTeams s (t.hbmWrite slot pa bs) := by
  unfold State.hbmWrite
  dsimp only
  split
  · exact h
  · split <;> exact h

theorem SameTeams.hbmBad {s t : State} (h : SameTeams s t) (line : Nat) : SameTeams s (t.hbmBad line) := by
  unfold State.hbmBad
  split <;> exact h

theorem SameTeams.prune {s t : State} (h : SameTeams s t) (line : Nat) : SameTeams s (t.prune line) := by
  unfold State.prune
  split <;> exact h

theorem SameTeams.evict {s t : State} (h : SameTeams s t) (x : L2Line) : SameTeams s (t.evict x) := by
  have erased : SameTeams s { t with l2 := t.l2.erase x } := h
  unfold State.evict
  dsimp only
  split
  · have written (bs : List Byte) := erased.hbmWrite x.slot (64 * x.line) bs
    refine SameTeams.prune ?_ _
    split
    · refine SameTeams.hbmBad ?_ _
      split <;> exact written _
    · split <;> exact written _
  · exact erased.prune _

theorem SameTeams.allocate {s t : State} (h : SameTeams s t) (x : L2Line) : SameTeams s (t.allocate x) := by
  unfold State.allocate
  dsimp only
  split
  · exact h
  · split
    · exact h
    · split
      · exact h.evict _
      · exact h

theorem SameTeams.noteWrite {s t : State} (h : SameTeams s t) (part : Option Nat) (line mask : Nat) :
    SameTeams s (t.noteWrite part line mask) := by
  unfold State.noteWrite
  dsimp only
  split
  · exact h
  · split
    · exact h
    · refine SameTeams.prune ?_ _
      exact h

theorem SameTeams.writeLine {s t : State} (h : SameTeams s t) (p : Pol) (slot pa : Nat) (bs : List Byte) :
    SameTeams s (t.writeLine p slot pa bs) := by
  have copies (l : List L2Line) : SameTeams s { t with l2 := l } := h
  unfold State.writeLine
  dsimp only
  split
  · exact (copies _).hbmWrite _ _ _
  · refine SameTeams.noteWrite ?_ _ _ _
    split
    · split
      · exact (h.evict _).hbmWrite _ _ _
      · split
        · exact (copies _).hbmWrite _ _ _
        · exact copies _
    · split
      · exact h.hbmWrite _ _ _
      · split
        · exact h.allocate _
        · exact h.hbmWrite _ _ _

theorem SameTeams.learn {s t : State} (h : SameTeams s t) (core ctx va : Nat) : SameTeams s (t.learn core ctx va) := by
  unfold State.learn
  split
  · exact h
  · split
    · unfold State.tlbFill
      dsimp only
      split_ifs <;> exact h
    · exact h

theorem SameTeams.writeVirt {s t : State} (h : SameTeams s t) (w : Who) (va : Nat) (bs : List Byte) :
    SameTeams s (t.writeVirt w va bs).1 := by
  unfold State.writeVirt
  refine List.foldlRecOn (motive := fun r : State × Option (XKind × Nat) => SameTeams s r.1) _ _ h fun r hr p _ => ?_
  split
  · exact hr
  · exact (hr.learn _ _ _).writeLine _ _ _ _

/-- The parts of a line are written on behalf of one command, whatever the parts before them have left. -/
theorem foldl_writeVirt_cmdWho (s : State) (c : Cmd) (parts : List DrainLine) :
    parts.foldl (fun u p => (u.writeVirt (u.cmdWho c) p.addr p.data).1) s =
      parts.foldl (fun u p => (u.writeVirt (s.cmdWho c) p.addr p.data).1) s := by
  suffices ∀ t, SameTeams s t → parts.foldl (fun u p => (u.writeVirt (u.cmdWho c) p.addr p.data).1) t =
      parts.foldl (fun u p => (u.writeVirt (s.cmdWho c) p.addr p.data).1) t from this s ⟨rfl, rfl⟩
  induction parts with
  | nil => exact fun _ _ => rfl
  | cons p rest ih =>
    intro t ht
    simp only [List.foldl_cons, ht.cmdWho]
    exact ih _ (ht.writeVirt _ _ _)

/-! ### Drains (11 R325-R328) -/

/-- The head of the drain stream reads its tile once: what a drain that has read it does next is left to its lines. -/
theorem drainRead_read {s : State} {k : TeamKey} {c : Cmd} {op : Nat} {gk : GroupKey} {tile : Nat} {d : DrainDesc}
    {ls : List DrainLine} {dense : Bool} {done : List Nat} {seq : Nat} (hc : s.headCmd k 2 = some c)
    (hk : c.kind = .drain op gk tile d true ls dense done seq) : s.drainRead k = s := by
  simp only [State.drainRead, hc, hk]

/-- A head drain that has not read its tile reads it, once the MMAs on the tile have completed; a tile with an uncorrectable
error is ARRAY. -/
theorem drainRead_unread {s : State} {k : TeamKey} {c : Cmd} {op : Nat} {gk : GroupKey} {tile : Nat} {d : DrainDesc}
    {ls : List DrainLine} {dense : Bool} {done : List Nat} {seq : Nat} {g : Group} (hc : s.headCmd k 2 = some c)
    (hk : c.kind = .drain op gk tile d false ls dense done seq) (hg : s.group gk = some g) (hm : g.mmaOn tile = false) :
    s.drainRead k = if (g.tile tile).ecc = true then s.arrayFault gk tile c.pc
      else
        let r := drainLines op (g.tile tile) d
        s.modHead k 2 (fun c => { c with kind := .drain op gk tile d true r.1 r.2 [] 0 }) := by
  simp only [State.drainRead, hc, hk, hg, hm, Bool.false_eq_true, if_false]

/-- The events of the drain stream have the head read its tile first. -/
theorem drain_events_read {s : State} {k : TeamKey} {c c' : Cmd} {op : Nat} {gk : GroupKey} {tile : Nat} {d : DrainDesc}
    {ls : List DrainLine} {dense : Bool} {done : List Nat} {seq : Nat} (i : Nat) (hc : s.headCmd k 2 = some c)
    (hr : s.cmdRuns c = true) (hc' : (s.drainRead k).headCmd k 2 = some c')
    (hk' : c'.kind = .drain op gk tile d true ls dense done seq) :
    execDrainLineWrite k i s = execDrainLineWrite k i (s.drainRead k) ∧
      execTileUpdate k i s = execTileUpdate k i (s.drainRead k) := by
  have again : (s.drainRead k).drainRead k = s.drainRead k := drainRead_read hc' hk'
  constructor
  · simp only [execDrainLineWrite, hc, hr, if_true, hc', again, ite_self]
  · simp only [execTileUpdate, hc, hr, if_true, hc', again, ite_self]

/-- A line of the TDRAIN or TSTSP at the head of its stream is written, with the parts that lie in it. -/
theorem drainLineWrite_line {s : State} {k : TeamKey} {c : Cmd} {op : Nat} {d : DrainDesc} {ls : List DrainLine}
    {done : List Nat} {i : Nat} {l : DrainLine} (hop : op ≠ 1) (h : drainLineAt s k c op d ls done i l) :
    let mates := drainMates ls done l.addr
    let parts := mergeLines (mates.map (fun x => x.2))
    execDrainLineWrite k i s =
      if d.sp = true then .next (partsDone k mates none (parts.foldl (fun s p => s.spadWrite k p.addr p.data) s))
      else s.withWalks (s.cmdWho c) [l.addr] (fun _ =>
        match s.translateNow (s.cmdWho c) .write (l.addr / 64 * 64) with
        | .error e => partsDone k mates (some (l.addr, some e, false)) s
        | .ok _ => partsDone k mates none (parts.foldl (fun s p => (s.writeVirt (s.cmdWho c) p.addr p.data).1) s)) := by
  obtain ⟨gk, tile, dense, seq, hh, hl, hi⟩ := h
  obtain ⟨hc, hk, hr⟩ := heads_runs hh
  simp only [execDrainLineWrite, hc, hr, if_true, drainRead_read hc hk, hk, hl, hop, List.contains_eq_mem, hi,
    decide_false, Bool.not_true, Bool.false_eq_true, or_self, if_false, foldl_writeVirt_cmdWho] <;> rfl

/-- A line of the TDRAIN.ADD at the head of its stream that may be updated is, in one read-modify-write. -/
theorem tileUpdate_line {s : State} {k : TeamKey} {c : Cmd} {d : DrainDesc} {ls : List DrainLine} {done : List Nat} {i : Nat}
    {l : DrainLine} (h : drainLineAt s k c 1 d ls done i l) (hm : s.addMay c i = true) :
    let seq := if i = 0 then s.nextFlit + 1 else 0
    let u := if i = 0 then { s with nextFlit := s.nextFlit + 1 } else s
    let w := s.cmdWho c
    execTileUpdate k i s = s.withWalks w (if d.sp = true then [] else [l.addr]) (fun _ =>
      if d.sp = true then
        if u.spadEcc k l.addr 64 = true then u.drainDone k i seq (some (l.addr, none, true))
        else (u.spadWrite k l.addr (addCells (u.spadRead k l.addr 64) l.data)).drainDone k i seq none
      else
        match u.translateNow w .write l.addr with
        | .error e => u.drainDone k i seq (some (l.addr, some e, false))
        | .ok q =>
          match u.readLine (u.partOf w.ctx) q.slot q.pa 64 with
          | .keymis => u.drainDone k i seq (some (l.addr, some .keymis, false))
          | .ecc => u.drainDone k i seq (some (l.addr, none, false))
          | .ok bs => (((if u.shared then u else u.bump).learn w.core w.ctx l.addr).homeWrite w q (addCells bs l.data)).drainDone
              k i seq none) := by
  obtain ⟨gk, tile, dense, seq, hh, hl, hi⟩ := h
  obtain ⟨hc, hk, hr⟩ := heads_runs hh
  simp only [execTileUpdate, hc, hr, if_true, drainRead_read hc hk, hk, hl, List.contains_eq_mem, hi, hm,
    decide_false, Bool.not_true, Bool.false_eq_true, Bool.or_self, if_false] <;> rfl

/-- An access whose walks stand goes on. -/
theorem withWalks_walked {s : State} {w : Who} {vas : List Nat} (h : walked s w vas) (f : Unit → State) :
    s.withWalks w vas f = .next (f ()) := by
  simp only [State.withWalks, show s.wantWalk w vas = none from h]

theorem walked_nil (s : State) (w : Who) : walked s w [] := by
  simp [walked, State.wantWalk, State.firstMiss]

/-! ### The steps of a chunk -/

/-- GATHER_CHUNK at a head GATH: indices, claims, elements, then the chunk is left where it is over. -/
theorem gatherChunk_gath {s : State} {k : TeamKey} {c : Cmd} {q : QRef} {base idx cnt : Nat} {wide blk : Bool} {next : Nat}
    {cur : List GsElem} (h : heads s k 1 c (.gath q base idx cnt wide blk next cur)) :
    let r := s.gathStep c q base idx (indexBytes wide) blk (working cnt next cur)
    exec (.gatherChunk k) s = .next (r.1.modHead k 1 (fun c => { c with
      kind := if ∀ e ∈ r.2, e.done = true then .gath q base idx cnt wide blk (next + r.2.length) []
        else .gath q base idx cnt wide blk next r.2 })) := by
  obtain ⟨hc, hk, hr⟩ := heads_runs h
  simp only [exec, execGatherChunk, hc, hr, hk, Bool.not_true, Bool.false_eq_true, if_false, chunkNow_eq_working, chunkAfter,
    indexBytes, List.all_eq_true]
  split_ifs <;> rfl

/-- GATHER_CHUNK at a head SCAT. -/
theorem gatherChunk_scat {s : State} {k : TeamKey} {c : Cmd} {base idx cnt val : Nat} {wide blk : Bool} {next : Nat}
    {cur : List GsElem} (h : heads s k 1 c (.scat base idx cnt val wide blk next cur)) :
    let r := s.scatStep (s.cmdWho c) base idx (indexBytes wide) val blk (working cnt next cur)
    exec (.gatherChunk k) s = .next (r.1.modHead k 1 (fun c => { c with
      kind := if ∀ e ∈ r.2.1, e.done = true then .scat base idx cnt val wide blk (next + r.2.1.length) []
        else .scat base idx cnt val wide blk next r.2.1
      fr := r.2.2.foldl (fun f x => f.note x.1 x.2.1 x.2.2.1 x.2.2.2 false) c.fr })) := by
  obtain ⟨hc, hk, hr⟩ := heads_runs h
  simp only [exec, execGatherChunk, hc, hr, hk, Bool.not_true, Bool.false_eq_true, if_false, chunkNow_eq_working, chunkAfter,
    indexBytes, List.all_eq_true]
  split_ifs <;> rfl

end Sys2Proof.Streams

open Sys2Proof Sys2Proof.Machine Sys2Proof.Claims Sys2Proof.Streams

/-- Settles O39: each event is the step of its stream, and the step is read off the lemmas on its parts; indices of one line are
read together because a translation depends on the line of an address alone, up to a miss. -/
theorem otherEnginesAndCommandEndsDoTheirWork : Obligations.OtherEnginesAndCommandEndsDoTheirWork := by
  unfold Obligations.OtherEnginesAndCommandEndsDoTheirWork
  refine ⟨?gath, ?line, ?claim, ?elem, ?scat, ?write, ?read, ?array, ?drain, ?add, ?ended⟩
  case gath =>
    intro s k c q base idx cnt wide blk next cur h
    simp only [gatherChunk_gath h, State.gathStep, gsIndices_eq_map s (cmdWho_ask s c)]
  case line =>
    intro s w idx wd e f he hf hl
    have h := translate_miss_of_line s w .read hl
    simp only [indexed, he, hf, true_and, ne_eq, h]
    split_ifs <;> simp [he, hf]
  case claim =>
    intro s tk q blk e rest qu hq hd hp
    have h := gathClaim_cons blk rest hq hd hp
    exact ⟨fun hf => h.trans (if_pos hf),
      fun hf hn => h.trans ((if_neg (by simp only [hf, Bool.false_eq_true, not_false_iff])).trans (if_pos hn)),
      fun hf hx hr => h.trans ((if_neg (by simp only [hf, Bool.false_eq_true, not_false_iff])).trans
        (if_neg (by simp only [hx, hr, Bool.true_eq_false, or_self, not_false_iff])))⟩
  case elem =>
    intro s c q base blk e pos hd hp
    refine ⟨fun kd line hx => gathElem_fail q base blk hd hp hx, fun n hx => ?_⟩
    have h := gathElem_num (s := s) (c := c) q base blk hd hp hx
    refine ⟨fun hm => by rw [h, if_pos hm], fun hm => ⟨fun x u hr => ?_, fun hr => ?_⟩⟩
    · rw [h, if_neg hm, hr]
    · rw [h, if_neg hm, hr]
  case scat =>
    intro s k c base idx cnt val wide blk next cur h
    have hall (l : List GsElem) : l.all GsElem.isRead = true ↔ ∀ e ∈ l, readWhole e := by
      simp only [List.all_eq_true, isRead_iff]
    constructor <;> intro hr
    · simp only [gatherChunk_scat h, State.scatStep, gsIndices_eq_map s (cmdWho_ask s c), gsValues_eq_map s (cmdWho_ask s c)]
      rw [if_pos ((hall _).mpr hr)]
    · simp only [gatherChunk_scat h, State.scatStep, gsIndices_eq_map s (cmdWho_ask s c), gsValues_eq_map s (cmdWho_ask s c)]
      rw [if_neg ((hall _).not.mpr hr)]
  case write =>
    intro s w base es blk late e rest n hw hd hx
    refine ⟨fun x hv => ?_, fun line hv => ?_, fun k line hv => ?_⟩
    · simpa only [GsElem.readFails, hx, hv] using scatWrites_write hw late rest hd (by simp only [GsElem.write, hx, hv, elemAddr])
    · simpa only [GsElem.readFails, hx, hv, failCode] using scatWrites_write hw late rest hd (by simp only [GsElem.write, hx, hv, elemAddr])
    · simpa only [GsElem.readFails, hx, hv, failCode, List.singleton_append] using scatWrites_none late rest hd (by simp only [GsElem.write, hx, hv])
  case read =>
    intro s k c op gk tile d ls dense done seq g h hg hm he
    obtain ⟨hc, hk, hr⟩ := heads_runs h
    have hread := drainRead_unread hc hk hg hm
    rw [if_neg (by simp [he])] at hread
    exact ⟨hread, fun i => drain_events_read i hc hr (hread ▸ headCmd_modHead_drain _ hc) rfl⟩
  case array =>
    intro s k c op gk tile d ls dense done seq g h hg hm he
    obtain ⟨hc, hk, -⟩ := heads_runs h
    rw [drainRead_unread hc hk hg hm, if_pos he]
  case drain =>
    intro s k c op d ls done i l hop h
    have hw := drainLineWrite_line hop h
    refine ⟨fun hs => ?_, fun hs hwalk => ?_⟩
    · rw [exec, hw, if_pos hs]
    · rw [exec, hw, if_neg (Bool.not_eq_true _ ▸ hs), withWalks_walked hwalk] <;> rfl
  case add =>
    intro s k c d ls done i l h hm
    have hu := tileUpdate_line h hm
    refine ⟨fun hs => ?_, fun hs hwalk => ?_⟩
    · rw [exec, hu, if_pos hs, withWalks_walked (walked_nil s _), if_pos hs]
    · have hs : ¬ d.sp = true := Bool.not_eq_true _ ▸ hs
      rw [exec, hu, if_neg hs, withWalks_walked hwalk, if_neg hs] <;> rfl
  case ended =>
    intro s k n c hc hr ho
    have dense (b : Bool) (n : Nat) : b2n b * n = if b = true then n else 0 := by cases b <;> simp [b2n]
    simp only [exec, execCommandPerformed, hc, hr, ho, Bool.not_true, Bool.or_self, Bool.false_eq_true, if_false, dense] <;> rfl

end

section
/-! PROOFS. What a change of a team leaves of every team. -/

namespace Sys2Proof.Teams

open Sys2Proof Sys2Proof.Machine

/-- The team of a key after a change that keeps the keys. -/
theorem team_modTeam_eq (s : State) (k j : TeamKey) {f : Team → Team} (hf : ∀ t, (f t).key = t.key) :
    (s.modTeam k f).team j = (s.team j).map (fun t => if t.key = k then f t else t) := by
  have same : ((fun t : Team => t.key == j) ∘ fun t => if t.key = k then f t else t) = fun t => t.key == j := by
    funext t
    by_cases h : t.key = k <;> simp [h, hf]
  simp only [State.team, State.modTeam, List.find?_map, same]

/-- What a change keeps of every team, it keeps of the team of a key. -/
theorem map_team_modTeam {α : Type} (s : State) (k j : TeamKey) {f : Team → Team} {g : Team → α} (hf : ∀ t, (f t).key = t.key)
    (hg : ∀ t, g (f t) = g t) : ((s.modTeam k f).team j).map g = (s.team j).map g := by
  rw [team_modTeam_eq s k j hf, Option.map_map]
  congr 1
  funext t
  by_cases h : t.key = k <;> simp [h, hg]

theorem coreOf_modTeam (s : State) (k j : TeamKey) {f : Team → Team} (hf : ∀ t, (f t).key = t.key) (hc : ∀ t, (f t).core = t.core) :
    (s.modTeam k f).coreOf j = s.coreOf j := congrArg (·.getD 0) (map_team_modTeam s k j hf hc)

theorem resident_modTeam (s : State) (k j : TeamKey) {f : Team → Team} (hf : ∀ t, (f t).key = t.key)
    (hr : ∀ t, (f t).resident = t.resident) : (s.modTeam k f).resident j = s.resident j :=
  congrArg (·.getD false) (map_team_modTeam s k j hf hr)

theorem spadRead_eq (s : State) (k : TeamKey) (off n : Nat) :
    s.spadRead k off n = ((s.team k).map (fun t => t.spadRead off n)).getD (List.replicate n 0) := by
  unfold State.spadRead
  cases s.team k <;> rfl

/-- Taking a number keeps all of a team but the next number. -/
theorem map_team_takeId {α : Type} (s : State) (k j : TeamKey) {g : Team → α} (hg : ∀ t, g { t with nextId := t.nextId + 1 } = g t) :
    ((s.takeId k).2.team j).map g = (s.team j).map g := map_team_modTeam s k j (fun _ => rfl) hg

theorem busyBefore_takeId (s : State) (k : TeamKey) (th : ThreadKey) (n : Nat) :
    (s.takeId k).2.busyBefore th n = s.busyBefore th n :=
  congrArg (·.getD false) (map_team_takeId s k th.gk.team (fun _ => rfl))

theorem spadRead_takeId (s : State) (k j : TeamKey) (off n : Nat) : (s.takeId k).2.spadRead j off n = s.spadRead j off n := by
  rw [spadRead_eq, spadRead_eq, map_team_takeId s k j (fun _ => rfl)]

end Sys2Proof.Teams
end

section
/-! PROOFS. The completion check and the credit of a phaser (12 R336), and what they settle: O46. -/

namespace Sys2Proof.Phasers

open Sys2Proof Sys2Proof.Machine

variable {s : State} {k : TeamKey} {off : Nat}

/-- More bytes have arrived than were announced: the phase ends poisoned, with BCF. -/
theorem phCheck_overrun (h : (s.phaser k off).bcnt < 0) :
    s.phCheck k off = s.phComplete k off { s.phaser k off with bcf := true } true true := if_pos h

/-- Every signaller and every byte has arrived: the phase ends with its own POIS. -/
theorem phCheck_full (hb : (s.phaser k off).bcnt = 0) (hn : (s.phaser k off).narr = (s.phaser k off).nsig) :
    s.phCheck k off = s.phComplete k off (s.phaser k off) (s.phaser k off).pois false := by
  simp [State.phCheck, hb, hn]

/-- Something has still to arrive. -/
theorem phCheck_open (h : 0 < (s.phaser k off).bcnt ∨ ((s.phaser k off).bcnt = 0 ∧ (s.phaser k off).narr ≠ (s.phaser k off).nsig)) :
    s.phCheck k off = s := by
  obtain h | ⟨hb, hn⟩ := h
  · simp [State.phCheck, show ¬ (s.phaser k off).bcnt < 0 by omega, show (s.phaser k off).bcnt ≠ 0 by omega]
  · simp [State.phCheck, hb, hn]

end Sys2Proof.Phasers

open Sys2Proof.Phasers

/-- Settles O46: the sign of BCNT and the count of arrivals choose the branch of the check, and each branch is its completion. -/
theorem phasersCountAndComplete : Obligations.PhasersCountAndComplete := by
  unfold Obligations.PhasersCountAndComplete
  intro s k off p complete
  exact ⟨fun h => (phCheck_overrun h).trans rfl, fun hb hn => (phCheck_full hb hn).trans rfl, phCheck_open, fun _ _ => rfl⟩

end

section
/-! PROOFS. A pass that selects lane 32, which no group has, at a closed queue: a counterexample to O34 and O36. Both let the
selected lanes of a pass be any numbers, and say that every lane whose FIFO is closed reports the PC of the pass. The model bars
the lanes 0 to 31 alone (09 R270); another finds the close by its own action, and reports the PC of a thread that is not there. -/

namespace Sys2Proof.Strays

open Sys2Proof Sys2Proof.Machine Sys2Proof.Claims

/-- An access group. -/
def group : GroupKey := { team := { job := 16, clu := 0, idx := 0 }, exe := false, quad := 0, grp := 0 }

/-- A block queue that the group produces, closed. -/
def closedQueue : Queue where
  ref := { name := 1, inst := 0 }
  mode := .block
  dir := .ae
  depth := 4
  limit := 4
  prod := group
  cons := { group with exe := true }
  fifos := [{ Fifo.empty with closed := true }]
  stqs := []

/-- The group issues, at PC 64, for lane 32: its threads are 0 to 31. -/
def state : State := { State.reset with
  teams := [{ (placedJob 16).pipe.team group.team 0 with queues := [closedQueue] }]
  groups := [Group.fresh group 0 0 64 0 0 0]
  pass := some { gk := group, sel := [32], pc := 64, word := 0, held := false } }

/-- The PCs of the records that an outcome leaves in the event queue. -/
def recordedPcs : Host.Outcome State Fault Refusal → List Dword
  | .next s => s.evq.map (fun r => r.d1)
  | _ => []

/-- In that state a word that leaves a record of PC 0 does not do what is claimed of a closed FIFO: the claim's record has PC 64. -/
theorem not_leaves_closed {i : Instr} (hi : state.forbids group i = false) (hx : recordedPcs (exec i state) = [0]) :
    ¬ LanesLeaveIf i 7#3 (hasQueue 1 [.block] (fun _ => [.ae]) (some true)) [] []
      (queueMeets 1 (fun _ _ _ fi => fi.closed = true)) takesBarred := by
  intro h
  have hq : state.queueFor group 1 = some closedQueue := by decide +kernel
  have he := h state _ _ ⟨rfl, rfl, hi, rfl⟩ ⟨closedQueue, hq, by decide⟩ (fun _ _ _ hr => absurd hr List.not_mem_nil)
    ⟨fun _ => ⟨fun _ _ _ hr => absurd hr List.not_mem_nil, closedQueue, hq, rfl⟩, trivial⟩
  rw [he] at hx
  exact absurd hx (by decide +kernel)

end Sys2Proof.Strays

open Sys2Proof Sys2Proof.Machine Sys2Proof.Claims

/-- Refutes O34: its clause on a closed FIFO fails for LDBQ on lane 32, which reports PC 0 and not that of the pass. -/
theorem not_queueLoadsAndStoresClaimPositions : ¬ Obligations.QueueLoadsAndStoresClaimPositions := by
  unfold Obligations.QueueLoadsAndStoresClaimPositions
  rintro ⟨-, hblock, -⟩
  obtain ⟨-, -, hclosed, -⟩ := hblock ⟨7, 2, 1⟩
  exact Strays.not_leaves_closed (i := .ldbq ⟨7, 2, 1⟩) (by decide +kernel) (by decide +kernel) hclosed

/-- Refutes O36: its clause on a closed lane fails for QSTREAM on lane 32, which reports PC 0 and not that of the pass. -/
theorem not_engineCommandsJoinTheirStream : ¬ Obligations.EngineCommandsJoinTheirStream := by
  unfold Obligations.EngineCommandsJoinTheirStream
  rintro ⟨-, -, -, -, -, hclosed, -⟩
  exact Strays.not_leaves_closed (i := .qstream ⟨7, 2, 1, 1⟩) (by decide +kernel) (by decide +kernel) (hclosed ⟨7, 2, 1, 1⟩)

end

section
/-! PROOFS. Remote channels at issue (09 R283, R284, R285): RCH, RGET and RPUT, and what they settle: O37. -/

namespace Sys2Proof.Channels

open Sys2Proof Sys2Proof.Machine Sys2Proof.Claims Sys2Proof.Teams

/-- The bits of a small number above it are zero. -/
theorem bits_top_of_lt {a lo : Nat} (h : a < 2 ^ lo) (hi : Nat) : bits a hi lo = 0 := by
  rw [bits, Nat.div_eq_of_lt h, Nat.zero_mod]

theorem bits_low (a hi : Nat) : bits a hi 0 = a % 2 ^ (hi + 1) := by rw [bits, pow_zero, Nat.div_one, Nat.sub_zero]

theorem tainted_pair (t : Thread) (a b : BitVec 5) :
    t.tainted false [a, b] = (t.taintOf false a.toNat || t.taintOf false b.toNat) := by simp [Thread.tainted]

/-- A request word that meets R284 and R255 is not refused. -/
theorem reqWord_good {v : Nat} {put : Bool} {c : Channel} (h : requestGood v put c) : (ReqWord.ofNat v).bad v put c = false := by
  obtain ⟨hres, hput, hscratch, hvec, hph⟩ := h
  have hnoqueue : (put && bit v 14) = false := by
    cases put with
    | false => rfl
    | true => exact hput rfl
  have hrange : (!bit v 14 && decide (Config.spadBytes < bits v 37 20 + (bits v 13 6 + 1))) = false := by
    cases hd : bit v 14 with
    | true => rfl
    | false => exact decide_eq_false (Nat.not_lt.mpr (hscratch hd))
  have hsignal : (if c.uv then bits v 55 38 % 16 != 0 || decide (Config.spadBytes < bits v 55 38 + 16 * c.slots.length)
      else !bit v 14 && bits v 55 38 % 32 != 0) = false := by
    cases hu : c.uv with
    | true =>
      obtain ⟨halign, hend⟩ := hvec hu
      simp only [if_true, halign, bne_self_eq_false, Bool.false_or]
      exact decide_eq_false (Nat.not_lt.mpr hend)
    | false =>
      cases hd : bit v 14 with
      | true => rfl
      | false => simp [hph hu hd]
  show (bits v 63 56 != 0 || (put && bit v 14) || (!bit v 14 && decide (Config.spadBytes < bits v 37 20 + (bits v 13 6 + 1))) ||
    (if c.uv then bits v 55 38 % 16 != 0 || decide (Config.spadBytes < bits v 55 38 + 16 * c.slots.length)
      else !bit v 14 && bits v 55 38 % 32 != 0)) = false
  rw [hres, hnoqueue, hrange, hsignal]
  rfl

/-- RCH on a declared channel: its peer and its vectoring change, and d takes what they were. -/
theorem rch_act (f : OpRG) : LanesInTurn (.rch f) f.g [f.a.toNat, f.b.toNat, f.d.toNat] [f.d.toNat]
    (fun s th =>
      let a := xreg s th f.a.toNat
      let b := xreg s th f.b.toNat
      a < 2 ^ 7 ∧ b < 2 ^ 16 ∧ b < (s.peers (s.ctxOf th.gk.team.job)).length ∧
      ∃ tm c, s.team th.gk.team = some tm ∧ tm.chan (a % 2 ^ 6) = some c)
    (fun s th =>
      let a := xreg s th f.a.toNat
      match (s.team th.gk.team).bind (fun tm => tm.chan (a % 2 ^ 6)) with
      | some c =>
        (s.modChan th.gk.team c.num (fun c => { c with peer := xreg s th f.b.toNat, uv := bit a 6 })).modThread th (fun t =>
          (t.wn false f.d.toNat (c.peer + (if c.uv then 2 ^ 16 else 0)) ((s.thread th).tainted false [f.a, f.b])).advance)
      | none => s) := by
  intro s p g hi hr hc
  rw [exec, execRch, execLanes]
  refine execLanes_done hi rfl (Pass.unbarred_nil rfl) (fun s th h => ?_) hr hc
  obtain ⟨ha, hb, hpeer, tm, c, ht, hc⟩ := h
  have huv : (if c.uv = true then 2 ^ 16 else 0) = b2n c.uv * 2 ^ 16 := by cases c.uv <;> rfl
  have hch : (s.team th.gk.team).bind (fun tm => tm.chan (bits (xreg s th f.a.toNat) 5 0)) = some c := by
    rw [ht, Option.bind_some, bits_low, hc]
  have hch' : (s.team th.gk.team).bind (fun tm => tm.chan (xreg s th f.a.toNat % 2 ^ 6)) = some c := by
    rw [ht, Option.bind_some, hc]
  simp only [xreg] at ha hb hpeer hch hch' ⊢
  simp only [hch, hch', bits_top_of_lt ha, bits_top_of_lt hb, Nat.not_le.mpr hpeer, decide_false, bne_self_eq_false, Bool.or_self,
    Bool.false_eq_true, if_false, huv, tainted_pair]

/-- The request of a lane, in the state before its number is taken. -/
theorem request_eq (f : OpRG) (put : Bool) {s : State} {th : ThreadKey} {c : Channel} {n : Nat} (hc : chanOf f s th = some c)
    (hn : freeSlot c = some n) :
    (s.request th put (xreg s th f.a.toNat) (.ofNat (xreg s th f.b.toNat)) c n
      (if bit (xreg s th f.b.toNat) 14 then s.blockDst th.gk (bits (xreg s th f.b.toNat) 19 15) else none)).modThread th
      (fun t => (t.wn false f.d.toNat n ((s.thread th).tainted false [f.a, f.b])).advance) = requested f put s th := by
  simp only [requested, hc, hn, Option.getD_some, State.request, busyBefore_takeId, spadRead_takeId]
  rfl

/-- RGET and RPUT with a good request word and a FREE slot. -/
theorem requests_of {c : OpRG → Instr} {put : Bool} (he : ∀ f s, exec (c f) s = execRemote s (c f) f put) : Requests c put := by
  intro f s p g hi hr hc
  rw [he, execRemote, execLanes]
  refine execLanes_done hi rfl (Pass.unbarred_nil rfl) (fun s th h => ?_) hr hc
  obtain ⟨hfull, hqueue, hsrc, ch, n, hch, hgood, hn⟩ := h
  have hclear : s.clearPoison th f.d.toNat = s := State.clearPoison_now [f.d.toNat] hfull
  have hbad := reqWord_good hgood
  have hdst : (!put && bit (xreg s th f.b.toNat) 14 && (s.blockDst th.gk (bits (xreg s th f.b.toNat) 19 15)).isNone) = false := by
    cases hp : put with
    | true => rfl
    | false =>
      cases hk : bit (xreg s th f.b.toNat) 14 with
      | false => rfl
      | true => simpa [Option.isNone_eq_false_iff, Option.isSome_iff_ne_none] using hqueue hp hk
  have hstores : (put && !(s.storesAt th (s.nowId th.gk.team) true 0 (bits (xreg s th f.b.toNat) 37 20)
      (bits (xreg s th f.b.toNat) 13 6 + 1)).isEmpty) = false := by
    cases hp : put with
    | false => rfl
    | true => rw [(hsrc hp).1]; rfl
  have hecc : (put && s.spadEcc th.gk.team (bits (xreg s th f.b.toNat) 37 20) (bits (xreg s th f.b.toNat) 13 6 + 1)) = false := by
    cases hp : put with
    | false => rfl
    | true => rw [(hsrc hp).2]; rfl
  have hgo := request_eq f put hch hn
  simp only [chanOf, xreg, freeSlot, ReqWord.ofNat, tainted_pair] at hch hbad hdst hstores hecc hgo hn
  simp only [ReqWord.ofNat, hch, hdst, hbad, hstores, hecc, hn, hclear, Bool.false_eq_true, if_false]
  exact congrArg Act.done hgo

end Sys2Proof.Channels

open Sys2Proof.Channels

/-- Settles O37: each word passes the checks of its operands, and what it then does is the claim's, for the number that it takes
leaves the accesses and the scratchpad of its team. -/
theorem remoteWordsReserveTheirSlot : Obligations.RemoteWordsReserveTheirSlot :=
  ⟨rch_act, requests_of (fun _ _ => rfl), requests_of (fun _ _ => rfl)⟩

end

section
/-! PROOFS. The events of remote channels, of attention and of peers (09 R285, R286, 04 R135-R139, 15 R412), and what they
settle: O42. -/

namespace Sys2Proof.Arrivals

open Sys2Proof Sys2Proof.Machine Sys2Proof.Claims Sys2Proof.Streams

/-! ### Responses (09 R285, 15 R411) -/

/-- The request of a reserved slot has left. -/
theorem left_of_reserved {s : State} {k : TeamKey} {ch n : Nat} {r : RemReq} (h : s.reserved k ch n = some r) :
    ∃ c, r.left = some c := by
  unfold State.reserved at h
  split at h
  · split at h
    · exact Option.isSome_iff_exists.mp (Option.filter_eq_some_iff.mp h).2
    · cases h
  · cases h

/-! ### Delivery (09 R285, R286) -/

section Delivery

variable {s : State} {k : TeamKey} {ch n : Nat} {tm : Team} {sl : ChSlot} {r : RemReq}

/-- A completion that no access of its thread holds up, and that has no queue, writes its bytes and is signalled. -/
theorem deliverSlot_scratch (ht : s.team k = some tm) (hs : tm.slot ch n = some sl) (hr : sl.req = some r)
    (hb : s.busyBefore r.thr r.id = false ∨ r.dead = true) (hd : r.dk = none) :
    (s.deliverSlot k ch n).1 = some ((if r.put then s else s.landData k r (sl.st == SlotSt.failed) sl).signalSlot k ch n r
      (sl.st == SlotSt.failed) sl.land) := by
  have hgo : (s.busyBefore r.thr r.id && !r.dead) = false := by
    obtain h | h := hb <;> simp [h]
  simp only [State.deliverSlot, ht, Option.bind_some, hs, hr, hgo, hd, Bool.false_eq_true, if_false]

/-- A completion waits for the earlier accesses of its thread. -/
theorem deliverSlot_busy (ht : s.team k = some tm) (hs : tm.slot ch n = some sl) (hr : sl.req = some r)
    (hb : s.busyBefore r.thr r.id = true) (hd : r.dead = false) : s.deliverSlot k ch n = (none, s) := by
  simp only [State.deliverSlot, ht, Option.bind_some, hs, hr, hb, hd, Bool.not_false, Bool.and_self, if_true]

/-- A completion by phaser frees its slot and credits. -/
theorem signalSlot_credit (failed : Bool) (land : Nat) (hu : r.uv = false) (hd : r.dk = none) :
    s.signalSlot k ch n r failed land =
      ((s.completed (s.coreOf k) 4 r.thr r.pc r.t0).modSlot k ch n (fun _ => ChSlot.empty)).phCredit k r.ph r.len failed := by
  simp only [State.signalSlot, hu, hd, Option.isSome_none, Bool.false_eq_true, if_false]

/-- A completion by vectoring becomes due to its thread. -/
theorem signalSlot_due (failed : Bool) (land : Nat) (hu : r.uv = true)
    (hl : ((s.completed (s.coreOf k) 4 r.thr r.pc r.t0).thread r.thr).live = true) (ha : r.dead = false) :
    s.signalSlot k ch n r failed land = (s.completed (s.coreOf k) 4 r.thr r.pc r.t0).modTeam k (fun t =>
      { t with vecq := insertDue t.vecq (r.thr, .channel ch n, land) }) := by
  simp only [State.signalSlot, hu, hl, ha, Bool.not_false, Bool.and_self, if_true]

/-- A completion by vectoring is finished where its thread has ended. -/
theorem signalSlot_gone (failed : Bool) (land : Nat) (hu : r.uv = true)
    (hl : ((s.completed (s.coreOf k) 4 r.thr r.pc r.t0).thread r.thr).live = false ∨ r.dead = true) :
    s.signalSlot k ch n r failed land = (s.completed (s.coreOf k) 4 r.thr r.pc r.t0).finishChannel k ch n := by
  have hgone : (((s.completed (s.coreOf k) 4 r.thr r.pc r.t0).thread r.thr).live && !r.dead) = false := by
    obtain h | h := hl <;> simp [h]
  simp only [State.signalSlot, hu, hgone, if_true, Bool.false_eq_true, if_false]

end Delivery

/-- The entries of a read of blocks. -/
theorem getElem?_entries (r : RemReq) (failed : Bool) (bad : List Nat) (data : List Byte) {i : Nat} (h : i < (r.len + 63) / 64) :
    (r.entries failed bad data)[i]? = some (if failed then r.poison 9 else if bad.contains i then r.poison 1
      else .data (.block (blockOf ((data.drop (64 * i)).take 64)))) := by
  have hi : i < cdiv r.len 64 := h
  simp only [RemReq.entries, List.getElem?_map, List.getElem?_range hi, Option.map_some]

/-! ### Vectoring (09 R286, 21 R439, R443) -/

/-- The first completion due to a thread, of an earlier cycle and with none before it still to come, vectors it. -/
theorem vectorNow_due {s : State} {th : ThreadKey} {tm : Team} {d : ThreadKey × Due × Nat} (ht : s.team th.gk.team = some tm)
    (hd : tm.vecq.find? (fun x => x.1 == th) = some d) (hl : d.2.2 < s.cycle) (hb : tm.landedBefore th d.2.1 d.2.2 = false) :
    s.vectorNow th = vectored s th d := by
  have hdue : tm.dueNow s.cycle th = some d := by
    simp [Team.dueNow, hd, hl, hb]
  simp only [State.vectorNow, ht, Option.bind_some, hdue, vectored]

/-! ### Peers (15 R410, R412) -/

theorem refusesPeer_iff (s : State) (ctx : Nat) (peer : PeerId) (va n : Nat) (write : Bool) :
    s.refusesPeer ctx peer va n write = false ↔ peerMay s ctx peer va n write := by
  simp [State.refusesPeer, peerMay, Nat.pos_iff_ne_zero, and_assoc]

/-- A peer's read that the device takes is performed under its context. -/
theorem peerRead_may {s : State} {ctx : Nat} {peer : PeerId} {va n : Nat} (hk : s.ckpt = false) (hm : peerMay s ctx peer va n false) :
    exec (.peerRead ctx peer va n) s = match s.readVirt (manage ctx (ctx == 0)) va n with
      | .ok bs => .next ((s.readDone (manage ctx (ctx == 0)) va n).answer (.peerRead bs))
      | .error _ => .next (s.answer .peerError) := by
  simp only [exec, execPeerRead, hk, (refusesPeer_iff s ctx peer va n false).mpr hm, Bool.false_eq_true, if_false] <;> rfl

/-- A peer's write that the device takes is performed under its context. -/
theorem peerWrite_may {s : State} {ctx : Nat} {peer : PeerId} {va : Nat} {data : List Byte} (hk : s.ckpt = false)
    (hm : peerMay s ctx peer va data.length true) :
    let r := s.writeVirt (manage ctx (ctx == 0)) va data
    exec (.peerWrite ctx peer va data) s = .next (r.1.answer (if r.2.isSome then .peerError else .peerDone)) := by
  simp only [exec, execPeerWrite, hk, (refusesPeer_iff s ctx peer va data.length true).mpr hm, Bool.false_eq_true, if_false]
  split
  · next h => simp [h]
  · next h => simp [h]

/-! ### Attention (04 R135-R139) -/

section Attention

variable {s : State} {tk : TeamKey} {cmd stack : Nat} {c : AttCmd}

/-- The result of a stack reaches its command, once the lines of its units can be read. -/
theorem tripleArrival_result (hstray : ∀ h, (tk, cmd, stack, h) ∉ s.strays) (hc : s.att tk cmd = some c) (h8 : stack < 8)
    (hp : c.pmask.testBit stack = true) (hr : c.res.getD stack .none = .none) (hready : c.ready stack = true)
    (hw : walked s (s.unit tk cmd) (c.lines stack)) :
    let v := s.gongClean (s.unit tk cmd) (c.lines stack)
    let r := v.stackResult (s.unit tk cmd) c stack
    let u := match r with
      | .triple _ => v.countStk stack 0 c.nheads
      | _ => v
    exec (.tripleArrival tk cmd stack) s = .next (takesResult (if u.shared then u else u.bump) tk cmd stack r) := by
  have hnone : s.strays.find? (fun x => x.1 == tk && x.2.1 == cmd && x.2.2.1 == stack) = none := by
    rw [List.find?_eq_none]
    rintro ⟨a, b, d, h⟩ hx
    simp only [Bool.and_eq_true, beq_iff_eq, not_and]
    rintro ⟨rfl, rfl⟩ rfl
    exact hstray h hx
  simp only [exec, execTripleArrival, hnone, hc, hp, h8, hr, hready, decide_true, beq_self_eq_true, Bool.and_self, if_true,
    withWalks_walked hw] <;> rfl

/-- At the deadline of a command every stack that is missing is late. -/
theorem attdDeadline_late (hc : s.att tk cmd = some c) (hd : c.deadline ≠ 0) (ht : c.t0 + c.deadline ≤ s.cycle) (hl : c.late = [])
    (hm : c.missing ≠ []) :
    let u := c.missing.foldl (fun (s : State) st => s.countStk st 1 c.nheads) s
    let v := ((attUnits c.list).filter (fun x => c.missing.contains (x.1 / 8))).foldl
      (fun (s : State) x => s.assertLines (0x300 + x.1) none) u
    exec (.attdDeadline tk cmd) s = .next
      ((v.modAtt tk cmd (fun c => AttCmd.progress { c with late := c.missing, fr := v.fresh })).bumpBy 8) := by
  have hgo : ¬(c.deadline = 0 ∨ s.cycle < c.t0 + c.deadline ∨ (!c.late.isEmpty) = true ∨ c.missing.isEmpty = true) := by
    simp [hd, ht, hl, hm]
  simp only [exec, execAttdDeadline, hc, if_neg hgo]

/-- A late stack is given up, with a poison entry. -/
theorem attlost_late (hc : s.att tk cmd = some c) (hl : stack ∈ c.late) (hr : c.res.getD stack .none = .none)
    (ht : c.t0 + c.deadline + 2 ^ 20 ≤ s.cycle) :
    exec (.attlost tk cmd stack) s = .next (takesResult (State.bump { s with strays := s.strays ++ [(tk, cmd, stack, c.nheads)] })
      tk cmd stack (.fail (attLostPoison s.fresh))) := by
  have hgo : (c.late.contains stack && c.res.getD stack .none == .none && decide (c.t0 + c.deadline + 2 ^ 20 ≤ s.cycle)) = true := by
    simp only [List.contains_iff_mem.mpr hl, hr, beq_self_eq_true, decide_eq_true ht, Bool.and_self]
  simp only [exec, execAttlost, hc, if_pos hgo, takesResult]

/-- The next entry of a command goes to its queue. -/
theorem entryDelivery_queue {tm : Team} {e : AttEntry} {rest : List AttEntry} {q : QRef} (hc : s.att tk cmd = some c)
    (ht : s.team tk = some tm) (ho : c.out = e :: rest) (hq : c.dst = some q) (hb : tm.attBusy c = false) :
    let r := s.attPush tk q e
    exec (.attdEntryDelivery tk cmd) s = .next (r.2.modAtt tk cmd (fun c => { c with out := r.1.toList ++ rest })) := by
  simp only [exec, execAttdEntryDelivery, hc, ht, ho, hq, hb, Bool.false_eq_true, if_false]

/-- The next entry of a command goes to its landing area. -/
theorem entryDelivery_landing {tm : Team} {e : AttEntry} {rest : List AttEntry} (hc : s.att tk cmd = some c)
    (ht : s.team tk = some tm) (ho : c.out = e :: rest) (hq : c.dst = none) :
    let bs := e.landed s.fresh
    let off := c.land + 64 * c.blk
    let u := (State.bump (s.spadWrite tk off bs)).modAtt tk cmd (fun c => { c with out := rest, blk := c.blk + bs.length / 64 })
    exec (.attdEntryDelivery tk cmd) s = .next (if (u.thread c.thr).live = true ∧ c.dead = false then
      u.modTeam tk (fun t => { t with vecq := insertDue t.vecq (c.thr, .attd off, s.cycle) }) else u) := by
  simp only [exec, execAttdEntryDelivery, hc, ht, ho, hq, Bool.and_eq_true, Bool.not_eq_true']
  split <;> rfl

/-- A command that has delivered its last entry leaves. -/
theorem entryDelivery_end {tm : Team} (hc : s.att tk cmd = some c) (ht : s.team tk = some tm) (ho : c.out = [])
    (hcl : c.closed = true) :
    exec (.attdEntryDelivery tk cmd) s =
      .next (((s.modTeam tk (fun t => { t with attn := t.attn.filter (fun x => x.id != cmd) })).forget (.unit tk cmd)).completed
        (s.coreOf tk) 5 c.thr c.pc c.t0) := by
  simp only [exec, execAttdEntryDelivery, hc, ht, ho, hcl, if_true]

end Attention

end Sys2Proof.Arrivals

open Sys2Proof Sys2Proof.Machine Sys2Proof.Claims Sys2Proof.Streams Sys2Proof.Arrivals

/-- Settles O42: each event passes its guard, and its effect is read off the lemmas on delivery, vectoring, attention and peers. -/
theorem responsesTriplesAndPeersArrive : Obligations.ResponsesTriplesAndPeersArrive := by
  unfold Obligations.ResponsesTriplesAndPeersArrive
  refine ⟨?response, ?refusal, ?budget, ?channel, ?scratch, ?waits, ?blocks, ?vector, ?triple, ?stray, ?deadline, ?lost, ?ended,
    ?queue, ?landing, ?read, ?write, ?held, ?refused⟩
  case response =>
    intro s k ch n data r h hd
    simp only [exec, execResponseLanded, h, Bool.or_eq_true, decide_eq_true_eq, if_pos hd]
  case refusal =>
    intro s k ch n r h
    simp only [exec, execErrorResponse, h]
  case budget =>
    intro s k ch n r h hc
    obtain ⟨c, hl⟩ := left_of_reserved h
    simp only [exec, execRetransmissionExhausted, h, hl, Option.getD_some, if_pos (hc c hl)]
  case channel =>
    intro s k ch n tm c l ht hc ho
    simp only [exec, execChannelQueueDelivery, ht, Option.bind_some, hc, ho, List.head?_cons, if_true, State.deliverChan]
  case scratch =>
    intro s k ch n tm sl r ht hs hr hb hd failed u v
    have hgo := deliverSlot_scratch ht hs hr hb hd
    exact ⟨fun hu => hgo.trans (congrArg some (signalSlot_credit failed sl.land hu hd)),
      fun hu hl ha => hgo.trans (congrArg some (signalSlot_due failed sl.land hu hl ha)),
      fun hu hl => hgo.trans (congrArg some (signalSlot_gone failed sl.land hu hl))⟩
  case waits => exact fun _ _ _ _ _ _ _ ht hs hr hb hd => deliverSlot_busy ht hs hr hb hd
  case blocks =>
    intro r bad data i hi poison
    refine ⟨getElem?_entries r true bad data hi, fun hb => ?_, fun hb => ?_⟩
    · rw [getElem?_entries r false bad data hi]
      simp [hb, RemReq.poison, poison]
    · rw [getElem?_entries r false bad data hi]
      simp [hb]
  case vector =>
    intro s th g tm d hg hr hv ht hd hl hb
    simp only [exec, execCompletionVectoring, hg, hr, hv, Bool.and_self, if_true, vectorNow_due ht hd hl hb]
  case triple => exact fun _ _ _ _ _ hstray hc h8 hp hr hready hw => tripleArrival_result hstray hc h8 hp hr hready hw
  case stray =>
    intro s tk cmd stack x h
    simp only [exec, execTripleArrival, h]
  case deadline => exact fun _ _ _ _ hc hd ht hl hm => attdDeadline_late hc hd ht hl hm
  case lost => exact fun _ _ _ _ _ hc hl hr ht => attlost_late hc hl hr ht
  case ended => exact fun _ _ _ _ _ hc ht ho hcl => entryDelivery_end hc ht ho hcl
  case queue => exact fun _ _ _ _ _ _ _ _ hc ht ho hq hb => entryDelivery_queue hc ht ho hq hb
  case landing => exact fun _ _ _ _ _ _ _ hc ht ho hq => entryDelivery_landing hc ht ho hq
  case read =>
    intro s ctx peer va n hk hm
    exact ⟨fun bs h => by rw [peerRead_may hk hm, h], fun e h => by rw [peerRead_may hk hm, h]⟩
  case write => exact fun _ _ _ _ _ hk hm => peerWrite_may hk hm
  case held =>
    intro s ctx peer va n data hk
    simp only [exec, execPeerRead, execPeerWrite, hk, if_true, and_self]
  case refused =>
    intro s ctx peer va n data hk
    have refused (n : Nat) (write : Bool) (h : ¬peerMay s ctx peer va n write) : s.refusesPeer ctx peer va n write = true := by
      simpa using mt (refusesPeer_iff s ctx peer va n write).mp h
    exact ⟨fun h => by simp only [exec, execPeerRead, hk, refused _ _ h, Bool.false_eq_true, if_false, if_true],
      fun h => by simp only [exec, execPeerWrite, hk, refused _ _ h, Bool.false_eq_true, if_false, if_true]⟩

end

section
/-! PROOFS. The events of the copy stream and the landing of flits (03 R107 to R114, 09 R274, R279), and what they settle: O38. -/

/-! ### Reads of an engine leave the teams and the jobs (05 R156, R161) -/

namespace Sys2Proof.Streams

open Sys2Proof Sys2Proof.Machine

theorem SameTeams.l2Touch {s t : State} (h : SameTeams s t) (p : Pol) (slot pa : Nat) : SameTeams s (t.l2Touch p slot pa) := by
  unfold State.l2Touch
  dsimp only
  split
  · exact h
  · split
    · split
      · exact h.evict _
      · exact h
    · split
      · exact h
      · split
        · exact h.allocate _
        · exact h

theorem SameTeams.dropL1Core {s t : State} (h : SameTeams s t) (core pa : Nat) : SameTeams s (t.dropL1Core core pa) := by
  unfold State.dropL1Core
  split <;> exact h

theorem SameTeams.readDone {s t : State} (h : SameTeams s t) (w : Who) (va n : Nat) : SameTeams s (t.readDone w va n) := by
  unfold State.readDone
  refine List.foldlRecOn (motive := SameTeams s) _ _ (by split <;> exact h) fun r hr p _ => ?_
  split
  · exact ((hr.learn _ _ _).l2Touch _ _ _).dropL1Core _ _
  · exact hr

end Sys2Proof.Streams

namespace Sys2Proof.Copies

open Sys2Proof Sys2Proof.Machine Sys2Proof.Claims Sys2Proof.Teams Sys2Proof.Streams

/-! ### The command of an engine as it accesses memory -/

/-- The lines of a copy are read on behalf of one command, whatever the reads before them have left. -/
theorem foldl_readDone_cmdWho (s : State) (c : Cmd) (as : List Nat) :
    as.foldl (fun u a => u.readDone (u.cmdWho c) a 64) s = as.foldl (fun u a => u.readDone (s.cmdWho c) a 64) s := by
  suffices ∀ t, SameTeams s t → as.foldl (fun u a => u.readDone (u.cmdWho c) a 64) t =
      as.foldl (fun u a => u.readDone (s.cmdWho c) a 64) t from this s ⟨rfl, rfl⟩
  induction as with
  | nil => exact fun _ _ => rfl
  | cons a rest ih =>
    intro t ht
    simp only [List.foldl_cons, ht.cmdWho]
    exact ih _ (ht.readDone _ _ _)

theorem setStream_core (t : Team) (n : Nat) (l : List Cmd) : (t.setStream n l).core = t.core := by
  unfold Team.setStream
  split_ifs <;> rfl

/-- A change of the head of a stream leaves how commands access memory. -/
theorem cmdWho_modHead (s : State) (k : TeamKey) (n : Nat) (f : Cmd → Cmd) (c : Cmd) : (s.modHead k n f).cmdWho c = s.cmdWho c := by
  have core (j : TeamKey) : (s.modHead k n f).coreOf j = s.coreOf j :=
    coreOf_modTeam s k j (fun t => setStream_key t n _) (fun t => setStream_core t n _)
  simp only [State.cmdWho, State.unit, core]
  rfl

/-! ### The pieces of a box (03 R107) -/

theorem left_eq_toMove (lay : Layout) (coord : List Int) (gmap : Nat) (p : CopyProg) :
    lay.left coord gmap p = toMove lay coord gmap p := rfl

theorem unitOf_eq {lay : Layout} {coord : List Int} {gmap off : Nat} {p : CopyProg} {x : Piece} (store : Bool) (box : Nat)
    (h : (toMove lay coord gmap p).find? (fun y => y.off == off) = some x) :
    lay.unitOf coord store box gmap off p = sameGranule lay coord store box gmap p x := by
  simp only [Layout.unitOf, left_eq_toMove, h, sameGranule]

/-- A piece to move moves with itself. -/
theorem sameGranule_nonempty {lay : Layout} {coord : List Int} {gmap off : Nat} {p : CopyProg} {x : Piece} (store : Bool) (box : Nat)
    (h : (toMove lay coord gmap p).find? (fun y => y.off == off) = some x) :
    (sameGranule lay coord store box gmap p x).isEmpty = false := by
  have hx : x ∈ sameGranule lay coord store box gmap p x :=
    List.mem_filter.mpr ⟨List.mem_of_find?_eq_some h, beq_self_eq_true _⟩
  simpa using List.ne_nil_of_mem hx

theorem landPiece_eq_landed (k : TeamKey) (box : Nat) (p : CopyProg) (s : State) (x : Piece) :
    s.landPiece k box p x = landed k box p s x := by
  unfold State.landPiece landed
  cases x.va with
  | none => rfl
  | some va => cases p.line (va / 64 * 64) <;> rfl

theorem storePiece_eq_stored (w : Who) (box : Nat) (p : CopyProg) (s : State) (x : Piece) :
    s.storePiece w box p x = stored w box p s x := by
  unfold State.storePiece stored
  cases x.va with
  | none => rfl
  | some va =>
    cases h : p.line ((box + x.off) / 64 * 64) with
    | data b =>
      simp only [h, lineBytes]
      obtain ⟨u, _ | e⟩ := s.writeVirt w va (((blockBytes b).drop ((box + x.off) % 64)).take x.n) <;> rfl
    | fault _ =>
      simp only [h]
      obtain ⟨u, _ | e⟩ := s.engPoison w va <;> rfl
    | ecc =>
      simp only [h]
      obtain ⟨u, _ | e⟩ := s.engPoison w va <;> rfl

/-! ### Granules (05 R160, 09 R279) -/

/-- The reads of a BCOPY: its lines as they stand, with what their reads leave. -/
theorem copyReads_load (s : State) (k : TeamKey) (c : Cmd) (p : CopyProg) (ps : List Piece) (box : Nat) :
    let as := sources p ps false box
    let q : CopyProg := { p with lines := p.lines ++ as.map (fun a => (a, s.virtLine (s.cmdWho c) a)) }
    s.copyReads k (s.cmdWho c) p ps false box =
      (q, as.foldl (fun s a => s.readDone (s.cmdWho c) a 64) (s.modCopy k (fun _ => q))) := by
  intro as q
  rw [foldl_readDone_cmdWho, State.modCopy, cmdWho_modHead]
  rfl

/-- COPY_GRANULE_LANDING at a head BCOPY. -/
theorem copyGranuleLanding_unit {s : State} {k : TeamKey} {off : Nat} {c : Cmd} {lay : Layout} {coord : List Int} {box ph : Nat}
    {ops : List Dword} {gmap : Nat} {p : CopyProg} {x : Piece} (h : heads s k 0 c (.copy false lay coord box ph ops gmap p))
    (hx : (toMove lay coord gmap p).find? (fun y => y.off == off) = some x)
    (hw : walked s (s.cmdWho c) (sources p (sameGranule lay coord false box gmap p x) false box)) :
    let ps := sameGranule lay coord false box gmap p x
    let r := s.copyReads k (s.cmdWho c) p ps false box
    let m := r.2.movePieces (landed k box r.1) ps
    exec (.copyGranuleLanding k off) s = .next (m.1.piecesDone k ps m.2) := by
  obtain ⟨hc, hk, hr⟩ := heads_runs h
  have hwalks : walked s (s.cmdWho c) (p.walks (sameGranule lay coord false box gmap p x) false box) := hw
  simp only [exec, execCopyGranuleLanding, hc, hk, hr, unitOf_eq false box hx, sameGranule_nonempty false box hx,
    Bool.not_true, Bool.or_self,
    Bool.false_eq_true, if_false, withWalks_walked hwalks, landPiece_eq_landed]

/-- BSTORE_GRANULE_WRITE at a head BSTORE. -/
theorem bstoreGranuleWrite_unit {s : State} {k : TeamKey} {off : Nat} {c : Cmd} {lay : Layout} {coord : List Int} {box ph : Nat}
    {ops : List Dword} {gmap : Nat} {p : CopyProg} {x : Piece} (h : heads s k 0 c (.copy true lay coord box ph ops gmap p))
    (hx : (toMove lay coord gmap p).find? (fun y => y.off == off) = some x)
    (hw : walked s (s.cmdWho c) ((sameGranule lay coord true box gmap p x).filterMap (fun y => y.va))) :
    let ps := sameGranule lay coord true box gmap p x
    let w := s.cmdWho c
    exec (.bstoreGranuleWrite k off) s = .next (match s.wholeStore k w (toMove lay coord gmap p) ps box p with
      | some (line, mine, bs) =>
        (((s.copyReads k w p mine true box).2).writeVirt w line bs).1.piecesDone k mine []
      | none =>
        let r := s.copyReads k w p ps true box
        let m := r.2.movePieces (stored w box r.1) ps
        m.1.piecesDone k ps m.2) := by
  obtain ⟨hc, hk, hr⟩ := heads_runs h
  have hwalks : walked s (s.cmdWho c) (p.walks (sameGranule lay coord true box gmap p x) true box) := hw
  simp only [exec, execBstoreGranuleWrite, hc, hk, hr, unitOf_eq true box hx, sameGranule_nonempty true box hx,
    Bool.not_true, Bool.or_self,
    Bool.false_eq_true, if_false, withWalks_walked hwalks, storePiece_eq_stored, left_eq_toMove] <;> rfl

/-! ### Flits (03 R111 to R114) -/

/-- The router outputs that a flit takes on its way to some cores, each with its cycle. -/
def flitPath (cycle src : Nat) (ds : List Nat) : List ((Nat × Nat × Nat) × List Nat) :=
  ds.foldl (fun l d => (route src d).foldl (fun l r => addPath l (cycle + 1 + r.1, r.2.1, r.2.2) d) l) []

theorem landingCode_eq (s : State) (f : Flit) (k : TeamKey) (core : Nat) (dropped : Bool) :
    (if dropped then some 3 else if f.bad then some 1
      else if !((s.team k).map (fun t => t.resident && !t.ended && t.core == core)).getD false then some 2 else none) =
    landingCode s f k core dropped := by
  unfold landingCode
  cases ((s.team k).map (fun t => t.resident && !t.ended && t.core == core)).getD false <;> rfl

theorem resident_noteLanding (s : State) (f : Flit) (e ix : Nat) (k : TeamKey) : (s.noteLanding f e ix).resident k = s.resident k :=
  resident_modTeam s f.tk k (fun _ => rfl) (fun _ => rfl)

theorem resident_flits (s : State) (l : List Flit) (k : TeamKey) : ({ s with flits := l } : State).resident k = s.resident k := rfl

section Landing

variable {s : State} {flit core : Nat} {f : Flit} {due : Nat} {dropped : Bool}

/-- The index of the team of a flit's cluster that stands on a core (07 R214). -/
def landingIx (s : State) (f : Flit) (core : Nat) : Nat := teamIx (s.cluster f.tk).2.2 (s.cluster f.tk).1 core

/-- A flit that meets no failure writes its line, and credits it. -/
theorem drumlineLanding_delivered (hf : s.flits.find? (fun f => f.id == flit) = some f)
    (hd : f.dests.find? (fun d => d.1 == core) = some (core, due, dropped)) (hdue : due ≤ s.cycle)
    (he : landingCode s f { f.tk with idx := landingIx s f core } core dropped = none) :
    let k : TeamKey := { f.tk with idx := landingIx s f core }
    let v := (arrived s flit core).spadWrite k f.dst (blockBytes f.data)
    exec (.drumlineLanding flit core) s = .next ((v.phCredit k f.ph 32 false).phCredit k f.ph 32 false) := by
  simp only [landingIx] at he
  simp only [exec, execDrumlineLanding, hf, hd, Nat.not_lt.mpr hdue, landingCode_eq, he, Option.isSome_none, Bool.false_and,
    Bool.false_eq_true, if_false] <;> rfl

/-- A flit that fails is noted; at a team that is not resident its phaser is poisoned, at another its credits are. -/
theorem drumlineLanding_failed {e : Nat} (hf : s.flits.find? (fun f => f.id == flit) = some f)
    (hd : f.dests.find? (fun d => d.1 == core) = some (core, due, dropped)) (hdue : due ≤ s.cycle)
    (he : landingCode s f { f.tk with idx := landingIx s f core } core dropped = some e) :
    let k : TeamKey := { f.tk with idx := landingIx s f core }
    let v := (arrived s flit core).noteLanding f e (landingIx s f core)
    exec (.drumlineLanding flit core) s = .next (if s.resident k = false then v.phPoison k f.ph
      else (v.phCredit k f.ph 32 true).phCredit k f.ph 32 true) := by
  cases hres : s.resident { f.tk with idx := landingIx s f core } <;>
  · simp only [landingIx] at he hres
    simp only [exec, execDrumlineLanding, hf, hd, Nat.not_lt.mpr hdue, landingCode_eq, he, Option.isSome_some, Bool.true_and,
      if_false, resident_noteLanding, resident_flits, hres, Bool.not_true, Bool.not_false, if_true, Bool.false_eq_true, landingIx]
    rfl

end Landing

end Sys2Proof.Copies

open Sys2Proof Sys2Proof.Machine Sys2Proof.Claims Sys2Proof.Streams Sys2Proof.Copies

/-- Settles O38: the command at the head passes its guards, and each event is then the step that the lemmas on pieces and landings
state; the reads of a copy leave how its command accesses memory. -/
theorem copyEngineMovesGranulesAndFlits : Obligations.CopyEngineMovesGranulesAndFlits := by
  unfold Obligations.CopyEngineMovesGranulesAndFlits
  refine ⟨?copy, ?store, ?stream, ?inject, ?land⟩
  case copy =>
    intro s k off c lay coord box ph ops gmap p x h hx ps as hw q u r
    rw [copyGranuleLanding_unit h hx hw, copyReads_load]
  case store =>
    intro s k off c lay coord box ph ops gmap p x h hx ps hw read
    have hgo := bstoreGranuleWrite_unit h hx hw
    refine ⟨fun hn => ?_, fun line mine bs hs => ?_⟩
    · rw [hgo, hn]
      rfl
    · rw [hgo, hs]
      rfl
  case stream =>
    intro s k c q off n next ops tm qu h ht hq hn hroom a bad u
    obtain ⟨hc, hk, hr⟩ := heads_runs h
    simp only [exec, execQstreamLinePush, hc, hk, hr, ht, hq, Option.bind_some, Nat.not_le.mpr hn, hroom, decide_false, Bool.not_true,
      Bool.or_self, Bool.false_eq_true, if_false]
    rfl
  case inject =>
    intro s k c tm src dst ph rows cols n next ops h ht hl hn hb
    obtain ⟨hc, hk, hr⟩ := heads_runs h
    refine ⟨flitPath s.cycle tm.core (mcastCores (s.cluster k).2.2 (s.cluster k).1 (s.cluster k).2.1 rows cols), ?_⟩
    simp only [exec, execMcastFlitInject, hc, hk, hr, ht, hl, hb, Nat.not_le.mpr hn, decide_false, Bool.not_true,
      Bool.or_self, Bool.false_eq_true, if_false]
    rfl
  case land =>
    intro s flit core f due dropped hf hd hdue cl ix k code u v
    have hnone := drumlineLanding_delivered hf hd hdue
    have hsome {e : Nat} := drumlineLanding_failed (e := e) hf hd hdue
    cases he : landingCode s f k core dropped with
    | none =>
      rw [hnone he]
      simp only [v, code, he]
      rfl
    | some e =>
      rw [hsome he]
      simp only [v, code, he, Option.isSome_some, true_and]
      rfl

end

section
/-! PROOFS. Two groups of one key: a counterexample to O52. The claim gives the operation that a KV word sends in every group of the
key the operands that the first of them holds; the model lets each group's thread send its own. A state of the machine has no two
groups of one key, but the claim assumes no such thing of its states. -/

namespace Sys2Proof.Twins

open Sys2Proof Sys2Proof.Machine Sys2Proof.Claims

/-- An access group whose thread 0 holds 128 in x1, so that its table descriptor is at address 128. -/
def second : Group :=
  (Group.fresh Strays.group 0 0 64 0 0 0).modThr 0 (fun t => t.wn false 1 128 false)

/-- The group, with x1 = 0, issues a word for its lane 0; another group has its key. -/
def state : State := { State.reset with
  groups := [Group.fresh Strays.group 0 0 64 0 0 0, second]
  pass := some { gk := Strays.group, sel := [0], pc := 64, word := 0, held := false } }

/-- KVLOOK x2, x1, x1. -/
def look : OpRG := { g := 7, d := 2, a := 1, b := 1, pa := false, pb := false }

/-- The descriptor addresses that lane 0 of each group has sent. -/
def sentDescs : Host.Outcome State Fault Refusal → List (Option Nat)
  | .next s => s.groups.map (fun g => (g.thr 0).kv.map (fun k => k.desc))
  | _ => []

/-- In the model each group's thread names its own descriptor. -/
theorem sentDescs_exec : sentDescs (exec (.kvlook look) state) = [some 0, some 128] := by decide +kernel

/-- The claim for KVLOOK would have both name that of the first. -/
theorem not_kvWord : ¬ KvWord .kvlook 0 false := by
  intro h
  obtain ⟨hsend, -⟩ := h look
  have he := hsend state _ _ 0 ⟨rfl, rfl, by decide +kernel, rfl⟩ rfl (by decide +kernel) (by decide +kernel) (by decide +kernel)
    (by decide +kernel)
  have hx := sentDescs_exec
  rw [he] at hx
  exact absurd hx (by decide +kernel)

end Sys2Proof.Twins

open Sys2Proof Sys2Proof.Machine Sys2Proof.Claims

/-- Refutes O52: its clause on sending fails for KVLOOK where two groups have one key and other values of x1. -/
theorem not_kvWordsWaitForTheirProbe : ¬ Obligations.KvWordsWaitForTheirProbe := by
  unfold Obligations.KvWordsWaitForTheirProbe
  rintro ⟨-, hlook, -⟩
  exact Twins.not_kvWord hlook

end

section
/-! PROOFS. The KV operations (04 R119 to R125): the hash, the probe of a bucket, the walk of a chain, what each operation does with
what the probe found, and what they settle: O41. -/

namespace Sys2Proof.KvTables

open Sys2Proof Sys2Proof.Machine Sys2Proof.Claims

/-! ### Results (04 R124) -/

theorem toNat_kvResult {status pblk ref : Nat} (hp : pblk < 2 ^ 32) (hs : status < 16) (hr : ref < 2 ^ 16) :
    (kvResult status pblk ref).toNat = pblk + status * 2 ^ 32 + ref * 2 ^ 36 := by
  rw [kvResult, Nat.mod_eq_of_lt hp, Nat.mod_eq_of_lt hr, BitVec.toNat_ofNat, Nat.mod_eq_of_lt (by omega)]

/-! ### Hash (04 R121) -/

theorem toNat_fold (z : BitVec 64) (k : Nat) : (z ^^^ (z >>> k)).toNat = z.toNat ^^^ z.toNat / 2 ^ k := by
  rw [BitVec.toNat_xor, BitVec.toNat_ushiftRight, Nat.shiftRight_eq_div_pow]

/-- One round of mixing, on numbers. -/
theorem toNat_mix (z : BitVec 64) (k c : Nat) :
    ((z ^^^ (z >>> k)) * BitVec.ofNat 64 c).toNat = (z.toNat ^^^ z.toNat / 2 ^ k) * c % 2 ^ 64 := by
  rw [BitVec.toNat_mul, toNat_fold, BitVec.toNat_ofNat, Nat.mul_mod_mod]

/-- The model's hash on numbers is that of the rule on dwords. -/
theorem kvHash_toNat (key : BitVec 64) :
    let z := (key ^^^ (key >>> 31)) * 0x7FB5D329728EA185#64
    let z := (z ^^^ (z >>> 27)) * 0x81DADEF4BC2DD44D#64
    kvHash key.toNat = (z ^^^ (z >>> 33)).toNat := by
  intro z z'
  rw [toNat_fold, toNat_mix, toNat_mix, kvHash]

theorem kvBucket_lt {nb : Nat} (h : 0 < nb) (key : Nat) : kvBucket nb key < nb :=
  Nat.div_lt_of_lt_mul (Nat.mod_lt _ (by omega))

/-! ### The probe of a bucket (04 R123) -/

section Probe
variable {rd : KvRead} {base key : Nat} {slot : Nat → Nat} {i n : Nat} (rest : List Nat) (room : Option Nat)

theorem probeSlots_error {x : KvOut} (h : rd (base + 16 * i) 16 = .error x) : probeSlots rd base key (i :: rest) room = .error x := by
  simp only [probeSlots, h]

theorem probeSlots_entry (h : rd (base + 16 * i) 16 = .ok n) (hs : (KvEntry.ofNat n).st = 1) (hk : (KvEntry.ofNat n).key = key) :
    probeSlots rd base key (i :: rest) room = .ok (some { va := base + 16 * i, e := KvEntry.ofNat n, link := none }, room, false) := by
  simp [probeSlots, h, hs, hk]

theorem probeSlots_empty (h : rd (base + 16 * i) 16 = .ok n) (hs : (KvEntry.ofNat n).st = 0) :
    probeSlots rd base key (i :: rest) room = .ok (none, room <|> some (base + 16 * i), true) := by
  simp only [probeSlots, h, hs, if_true]

/-- A slot with no entry of the key is passed; where it holds no entry at all, an insert may take it. -/
theorem probeSlots_pass (h : rd (base + 16 * i) 16 = .ok n) (h0 : (KvEntry.ofNat n).st ≠ 0)
    (hk : ¬((KvEntry.ofNat n).st = 1 ∧ (KvEntry.ofNat n).key = key)) : probeSlots rd base key (i :: rest) room =
      probeSlots rd base key rest (room <|> if (KvEntry.ofNat n).st = 1 then none else some (base + 16 * i)) := by
  by_cases h1 : (KvEntry.ofNat n).st = 1
  · have hne : (KvEntry.ofNat n).key ≠ key := fun hkey => hk ⟨h1, hkey⟩
    simp [probeSlots, h, h1, hne]
  · simp [probeSlots, h, h0, h1]

theorem roomIn_cons (l : List Nat) : roomIn base slot (i :: l) =
    ((if (KvEntry.ofNat (slot i)).st = 1 then none else some (base + 16 * i)) <|> roomIn base slot l) := by
  by_cases h1 : (KvEntry.ofNat (slot i)).st = 1 <;> simp [roomIn, h1]

/-- The probe passes slots without an entry of the key, and keeps the first that an insert may take. -/
theorem probeSlots_passes (l : List Nat) (h : passes rd base key slot l) :
    probeSlots rd base key (l ++ rest) room = probeSlots rd base key rest (room <|> roomIn base slot l) := by
  induction l generalizing room with
  | nil => cases room <;> rfl
  | cons i l ih =>
    obtain ⟨hr, h0, hk⟩ := h i List.mem_cons_self
    rw [List.cons_append, probeSlots_pass _ _ hr h0 hk, ih _ (fun j hj => h j (List.mem_cons_of_mem i hj)), roomIn_cons]
    cases room <;> rfl

/-- What the probe finds is an entry of the key, in a slot that it has visited. -/
theorem probeSlots_hit {l : List Nat} {hit : KvHit} {r : Option Nat} {b : Bool} (h : probeSlots rd base key l room = .ok (some hit, r, b)) :
    ∃ i ∈ l, ∃ n, hit.va = base + 16 * i ∧ rd hit.va 16 = .ok n ∧ hit.e = KvEntry.ofNat n ∧ hit.e.st = 1 ∧ hit.e.key = key ∧
      hit.link = none := by
  induction l generalizing room with
  | nil => simp [probeSlots] at h
  | cons i l ih =>
    cases hr : rd (base + 16 * i) 16 with
    | error x => simp [probeSlots_error l room hr] at h
    | ok n =>
      by_cases h0 : (KvEntry.ofNat n).st = 0
      · simp [probeSlots_empty l room hr h0] at h
      · by_cases hk : (KvEntry.ofNat n).st = 1 ∧ (KvEntry.ofNat n).key = key
        · rw [probeSlots_entry l room hr hk.1 hk.2] at h
          obtain rfl : _ = hit := Option.some.inj (congrArg Prod.fst (Except.ok.inj h))
          exact ⟨i, List.mem_cons_self, n, rfl, hr, rfl, hk.1, hk.2, rfl⟩
        · rw [probeSlots_pass l room hr h0 hk] at h
          obtain ⟨j, hj, hrest⟩ := ih _ h
          exact ⟨j, List.mem_cons_of_mem i hj, hrest⟩

end Probe

/-! ### The walk of a chain (04 R125) -/

section Walk
variable {rd : KvRead} {key : Nat} {p n next : Nat} (fuel : Nat) (seen : List Nat) (link : Nat)

theorem walkChain_end (h : p = 0 ∨ p % 32 ≠ 0) : walkChain rd key (fuel + 1) seen link p = .ok (some none) := by
  simp only [walkChain, h, if_true]

theorem walkChain_circle (h0 : p ≠ 0) (ha : p % 32 = 0) (h : p ∈ seen) : walkChain rd key (fuel + 1) seen link p = .ok none := by
  simp [walkChain, h0, ha, h]

theorem walkChain_found (h0 : p ≠ 0) (ha : p % 32 = 0) (h : p ∉ seen) (hn : rd p 16 = .ok n) (hx : rd (p + 16) 8 = .ok next)
    (hs : (KvEntry.ofNat n).st = 1) (hk : (KvEntry.ofNat n).key = key) : walkChain rd key (fuel + 1) seen link p =
      .ok (some (some { va := p, e := KvEntry.ofNat n, link := some (link, next) })) := by
  simp [walkChain, h0, ha, h, hn, hx, hs, hk]

theorem walkChain_next (h0 : p ≠ 0) (ha : p % 32 = 0) (h : p ∉ seen) (hn : rd p 16 = .ok n) (hx : rd (p + 16) 8 = .ok next)
    (hk : ¬((KvEntry.ofNat n).st = 1 ∧ (KvEntry.ofNat n).key = key)) :
    walkChain rd key (fuel + 1) seen link p = walkChain rd key fuel (p :: seen) (p + 16) next := by
  simp [walkChain, h0, ha, h, hn, hx, hk]

/-- The records of a chain are nonzero and aligned. -/
theorem record_of_chain {rs : List Nat} {link' p' : Nat} (h : chain rd key link p rs link' p') : ∀ r ∈ rs, r ≠ 0 ∧ r % 32 = 0 := by
  induction rs generalizing link p with
  | nil => simp
  | cons r rs ih =>
    obtain ⟨rfl, h0, ha, n, next, -, -, -, hrest⟩ := h
    intro q hq
    obtain rfl | hq := List.mem_cons.mp hq
    · exact ⟨h0, ha⟩
    · exact ih _ hrest q hq

/-- The walk comes through the records of a chain to its end, and has seen them. -/
theorem walkChain_chain {rs : List Nat} {link' p' : Nat} (h : chain rd key link p rs link' p') (hd : rs.Nodup)
    (hseen : ∀ r ∈ rs, r ∉ seen) :
    walkChain rd key (fuel + rs.length) seen link p = walkChain rd key fuel (rs.reverse ++ seen) link' p' := by
  induction rs generalizing link p seen with
  | nil =>
    obtain ⟨rfl, rfl⟩ := h
    rfl
  | cons r rs ih =>
    obtain ⟨rfl, h0, ha, n, next, hn, hx, hk, hrest⟩ := h
    obtain ⟨hr, hd⟩ := List.nodup_cons.mp hd
    have hnew : ∀ q ∈ rs, q ∉ r :: seen := fun q hq hm => (List.mem_cons.mp hm).elim (fun he => hr (he ▸ hq))
      (hseen q (List.mem_cons_of_mem r hq))
    rw [List.length_cons, ← Nat.add_assoc, walkChain_next _ _ _ h0 ha (hseen r List.mem_cons_self) hn hx hk, ih _ _ hrest hd hnew]
    simp

/-- The same for a walk with fuel for more than these records. -/
theorem walkChain_from {rs : List Nat} {link' p' : Nat} (h : chain rd key link p rs link' p') (hd : rs.Nodup) (hf : rs.length < fuel) :
    ∃ k, walkChain rd key fuel [] link p = walkChain rd key (k + 1) rs.reverse link' p' := by
  obtain ⟨k, rfl⟩ : ∃ k, fuel = k + 1 + rs.length := ⟨fuel - rs.length - 1, by omega⟩
  exact ⟨k, by rw [walkChain_chain _ _ _ h hd (fun _ _ => List.not_mem_nil), List.append_nil]⟩

end Walk

/-! ### Operations on a descriptor (04 R119, R123) -/

section Operations
variable {rd : KvRead} {op desc key pblk n : Nat}

theorem readDesc_misaligned (h : desc % 128 ≠ 0) : readDesc rd desc = .ok none := by simp [readDesc, h]

theorem readDesc_aligned (h : desc % 128 = 0) (hn : rd desc 128 = .ok n) :
    readDesc rd desc = .ok (if descReserved n || (TableDesc.ofNat n).bad then none else some (TableDesc.ofNat n)) := by
  simp [readDesc, h, hn, bind, Except.bind, pure, Except.pure]

theorem kvPerform_noDesc (h : readDesc rd desc = .ok none) :
    kvPerform rd op desc key pblk = .ok (some { out := kvResult 7 0 0, writes := [] }) := by
  simp [kvPerform, h, bind, Except.bind, pure, Except.pure]

theorem kvPerform_otherKind {d : TableDesc} (h : readDesc rd desc = .ok (some d)) (hk : kindOk op d.kind = false) :
    kvPerform rd op desc key pblk = .ok (some { out := kvResult 7 0 0, writes := [] }) := by
  simp [kvPerform, h, hk, bind, Except.bind, pure, Except.pure]

/-- On a valid descriptor an operation acts on what `find` gives. -/
theorem kvPerform_find {d : TableDesc} {hit : Option KvHit} {room : Option Nat} (h : readDesc rd desc = .ok (some d))
    (hk : kindOk op d.kind = true) (hf : kvFind rd d key = .ok (some (hit, room))) :
    kvPerform rd op desc key pblk = kvAct rd op d key pblk hit room := by
  simp only [kvPerform, kvAct, h, hk, hf, bind, Except.bind, pure, Except.pure, Bool.not_true, Bool.false_eq_true, if_false]
  split_ifs
  · rfl
  · cases kvDel rd d hit <;> rfl
  · cases kvIns rd d key pblk hit room <;> rfl

theorem kvPerform_endless {d : TableDesc} (h : readDesc rd desc = .ok (some d)) (hk : kindOk op d.kind = true)
    (hf : kvFind rd d key = .ok none) : kvPerform rd op desc key pblk = .ok none := by
  simp [kvPerform, h, hk, hf, bind, Except.bind, pure, Except.pure]

section Find
variable {d : TableDesc} {hit : Option KvHit} {room : Option Nat} {ended : Bool}

/-- An entry in the bucket, or an EMPTY slot of it, ends `find`. -/
theorem kvFind_bucket
    (hp : probeSlots rd (d.tbase + 128 * kvBucket d.nb key) key (kvSlots d.nb key) none = .ok (hit, room, ended))
    (h : hit.isSome = true ∨ ended = true) : kvFind rd d key = .ok (some (hit, room)) := by
  have he : (hit.isSome || ended) = true := by simpa using h
  simp [kvFind, hp, he, bind, Except.bind, pure, Except.pure]

/-- Past the bucket `find` gives what the walk of its chain gives. -/
theorem kvFind_chain {p : Nat} {r : Option (Option KvHit)}
    (hp : probeSlots rd (d.tbase + 128 * kvBucket d.nb key) key (kvSlots d.nb key) none = .ok (none, room, false))
    (hl : rd (d.ovf + 8 * kvBucket d.nb key) 8 = .ok p)
    (hw : walkChain rd key (2 ^ 59 + 1) [] (d.ovf + 8 * kvBucket d.nb key) p = .ok r) :
    kvFind rd d key = .ok (r.map (fun h => (h, room))) := by
  simp only [kvFind, hp, hl, hw, bind, Except.bind, pure, Except.pure, Option.isSome_none, Bool.or_self, Bool.false_eq_true, if_false]

end Find

/-! ### The free list (04 R125) -/

theorem kvIns_noRecord {d : TableDesc} {r : Nat} (hr : rd d.free 8 = .ok r) (h : r = 0 ∨ r % 32 ≠ 0) :
    kvIns rd d key pblk none none = .ok { out := kvResult 6 0 0, writes := [] } := by
  simp only [kvIns, hr, h, bind, Except.bind, pure, Except.pure, if_true]

/-- The first free record takes the entry and comes to the head of the chain. -/
theorem kvIns_record {d : TableDesc} {r next head : Nat} (hr : rd d.free 8 = .ok r) (h0 : r ≠ 0) (ha : r % 32 = 0)
    (hn : rd (r + 16) 8 = .ok next) (hh : rd (d.ovf + 8 * kvBucket d.nb key) 8 = .ok head) :
    kvIns rd d key pblk none none = .ok { out := kvResult 2 pblk 1, writes :=
      [(d.free, leBytes 8 next),
       (r, KvEntry.bytes { key := key, pblk := pblk, ref := 1, st := 1 } ++ leBytes 8 head ++ leBytes 8 0),
       (d.ovf + 8 * kvBucket d.nb key, leBytes 8 r)] } := by
  simp [kvIns, hr, h0, ha, hn, hh, bind, Except.bind, pure, Except.pure]

/-! ### The delete (04 R123) -/

theorem kvDel_counted {d : TableDesc} {h : KvHit} (hk : d.kind = 1) (hr : 1 < h.e.ref) :
    kvDel rd d (some h) = .ok (if h.e.ref = 0xFFFF then { out := kvResult 5 h.e.pblk 0xFFFF, writes := [] }
      else { out := kvResult 5 h.e.pblk (h.e.ref - 1), writes := [(h.va, KvEntry.bytes { h.e with ref := h.e.ref - 1 })] }) := by
  by_cases hp : h.e.ref = 0xFFFF <;> simp [kvDel, hk, hr, hp]

/-- An entry that no other reference keeps is deleted. -/
theorem kvDel_last {d : TableDesc} {h : KvHit} (hr : d.kind ≠ 1 ∨ h.e.ref ≤ 1) :
    ¬(d.kind = 1 ∧ h.e.ref = 0xFFFF) ∧ ¬(d.kind = 1 ∧ 1 < h.e.ref) := by omega

theorem kvDel_slot {d : TableDesc} {h : KvHit} (hl : h.link = none) (hr : d.kind ≠ 1 ∨ h.e.ref ≤ 1) :
    kvDel rd d (some h) = .ok { out := kvResult 4 h.e.pblk 0, writes := [(h.va, KvEntry.bytes { h.e with st := 2 })] } := by
  simp only [kvDel, (kvDel_last hr).1, (kvDel_last hr).2, hl, if_false]

/-- A record goes from its chain to the head of the free list. -/
theorem kvDel_record {d : TableDesc} {h : KvHit} {link next head : Nat} (hl : h.link = some (link, next))
    (hr : d.kind ≠ 1 ∨ h.e.ref ≤ 1) (hh : rd d.free 8 = .ok head) :
    kvDel rd d (some h) = .ok { out := kvResult 4 h.e.pblk 0, writes :=
      [(link, leBytes 8 next), (h.va + 16, leBytes 8 head), (d.free, leBytes 8 h.va)] } := by
  simp only [kvDel, (kvDel_last hr).1, (kvDel_last hr).2, hl, hh, bind, Except.bind, pure, Except.pure, if_false]

end Operations

end Sys2Proof.KvTables

open Sys2Proof Sys2Proof.Machine Sys2Proof.Claims Sys2Proof.KvTables

/-- Settles O41: the probe and the walk go by the lemmas on what they pass, an operation by what `find` gives it, and its writes by
the equations of insert and delete. -/
theorem kvOperationsFollowThePseudocode : Obligations.KvOperationsFollowThePseudocode := by
  unfold Obligations.KvOperationsFollowThePseudocode
  refine ⟨?misaligned, ?invalid, ?hash, fun _ _ _ _ _ _ _ _ => probeSlots_hit _, ?stops, ?passed, ?unread, ?walk, ?perform,
    fun _ => rfl, fun _ _ => rfl, fun _ _ _ _ _ _ => rfl, fun _ _ _ _ _ => rfl, ?full, fun _ _ => rfl,
    fun _ _ _ => kvDel_counted, fun _ _ _ => kvDel_slot, fun _ _ _ _ _ _ => kvDel_record, ?result⟩
  case misaligned => exact fun rd op desc key pblk h => kvPerform_noDesc (readDesc_misaligned h)
  case invalid =>
    intro rd op desc key pblk n h hn hbad
    have hd := readDesc_aligned h hn
    cases hv : descReserved n || (TableDesc.ofNat n).bad with
    | true => exact kvPerform_noDesc (by rw [hd, hv, if_pos rfl])
    | false =>
      obtain ⟨hres, hfields⟩ := Bool.or_eq_false_iff.mp hv
      have hk := (hbad.resolve_left (by simp [hres])).resolve_left (by simp [hfields])
      exact kvPerform_otherKind (by rw [hd, hv]; rfl) hk
  case hash =>
    intro nb key h
    simp only [← kvHash_toNat]
    exact ⟨rfl, kvBucket_lt h _, rfl⟩
  case stops =>
    intro rd base key slot l rest i n hl hn
    refine ⟨fun hs hk => ?_, fun hs => ?_⟩
    · rw [probeSlots_passes _ _ l hl, probeSlots_entry _ _ hn hs hk]
      rfl
    · rw [probeSlots_passes _ _ l hl, probeSlots_empty _ _ hn hs]
      cases roomIn base slot l <;> rfl
  case passed =>
    intro rd base key slot l hl
    have h := probeSlots_passes [] none l hl
    rw [List.append_nil] at h
    exact h
  case unread =>
    intro rd base key slot l rest i x hl hx
    rw [probeSlots_passes _ _ l hl, probeSlots_error _ _ hx]
  case walk =>
    intro rd key link p rs link' p' fuel hc hd hf
    obtain ⟨k, hk⟩ := walkChain_from fuel link hc hd hf
    rw [hk]
    refine ⟨walkChain_end _ _ _, fun n next h0 ha hp hn hx hs hkey => ?_, fun hp => ?_⟩
    · exact walkChain_found _ _ _ h0 ha (by simpa using hp) hn hx hs hkey
    · obtain ⟨h0, ha⟩ := record_of_chain _ hc p' hp
      exact walkChain_circle _ _ _ h0 ha (by simpa using hp)
  case perform =>
    intro rd op desc key pblk n hit room ended h hn d b hres hbad hkind hp
    have hd : readDesc rd desc = .ok (some d) := by simp [readDesc_aligned h hn, hres, hbad, d]
    refine ⟨fun he => kvPerform_find hd hkind (kvFind_bucket hp he), ?_⟩
    rintro p rfl rfl hl
    exact ⟨fun r hw => kvPerform_find hd hkind (kvFind_chain hp hl hw), fun hw => kvPerform_endless hd hkind (kvFind_chain hp hl hw)⟩
  case full =>
    intro rd d key pblk r hr
    exact ⟨kvIns_noRecord hr, fun next head h0 ha hn hh => kvIns_record hr h0 ha hn hh⟩
  case result =>
    intro status pblk ref hp hs hr
    rw [toNat_kvResult hp hs hr]
    simp only [bits]
    omega

end

section
/-! PROOFS. An acquire FENCE behind an STQ: a counterexample to O45. A FENCE of any kind waits for the STQs of its thread (09 R273),
and so it does in the model; the claim asks of an acquire only that the thread's pops and its loads into queues have bound. -/

namespace Sys2Proof.BoundStq

open Sys2Proof Sys2Proof.Machine Sys2Proof.Claims

/-- The lane: thread 0 of an access group. -/
def lane : ThreadKey := { gk := Strays.group, thr := 0 }

/-- An STQ of the lane, bound to the first entry of a queue, which has not arrived. -/
def stq : Stq where
  id := 0
  thr := lane
  fifo := 0
  pos := 0
  va := 0
  phys := { pa := 0, slot := 0, epoch := 0, pte := 0, lvl := 4 }
  data := none

/-- The block queue from the execute slice to the lane's group that holds the STQ. -/
def boundQueue : Queue where
  ref := { name := 1, inst := 0 }
  mode := .block
  dir := .es
  depth := 4
  limit := 4
  prod := { Strays.group with exe := true }
  cons := Strays.group
  fifos := [{ Fifo.empty with nextOut := 1 }]
  stqs := [stq]

/-- The lane is issued at PC 64; the STQ is the one access of its team that is not performed. -/
def state : State := { State.reset with
  teams := [{ (placedJob 16).pipe.team lane.gk.team 0 with queues := [boundQueue], nextId := 1 }]
  groups := [Group.fresh lane.gk 0 0 64 0 0 0]
  pass := some { gk := lane.gk, sel := [lane.thr], pc := 64, word := 0, held := false } }

/-- FENCE.acq.grp. -/
def acquire : OpFence := { g := 7, os := 1 }

/-- The PC of the lane in an outcome. -/
def lanePc : Host.Outcome State Fault Refusal → Option Pc
  | .next s => some (s.thread lane).pc
  | _ => none

/-- What the claim asks of an acquire holds of the lane. -/
theorem acquire_meets : (state.thread lane).popping = false ∧ ((Order.ofOs acquire.os).rel = true → state.quiet lane = true) ∧
    ((Order.ofOs acquire.os).acq = true → state.reading lane = false) := by decide +kernel

/-- The model holds the lane at the FENCE, for its STQ is bound. -/
theorem lanePc_fence : state.storing lane = true ∧ lanePc (exec (.fence acquire) state) = some 64 := by decide +kernel

end Sys2Proof.BoundStq

open Sys2Proof Sys2Proof.Machine Sys2Proof.Claims

/-- Refutes O45: its clause on FENCE lets an acquire go on, from PC 64 to 68, while an STQ of its lane is still bound to an entry
that has not arrived; the model holds it at PC 64. -/
theorem not_fencesAndJoinsWaitForEarlierWork : ¬ Obligations.FencesAndJoinsWaitForEarlierWork := by
  unfold Obligations.FencesAndJoinsWaitForEarlierWork
  rintro ⟨hfence, -⟩
  have he := hfence BoundStq.acquire (by decide) BoundStq.state _ _ ⟨rfl, rfl, by decide +kernel, rfl⟩
    (fun _ _ _ hr => absurd hr List.not_mem_nil)
    ⟨fun _ => ⟨fun _ _ _ hr => absurd hr List.not_mem_nil, BoundStq.acquire_meets⟩, trivial⟩
  obtain ⟨-, hpc⟩ := BoundStq.lanePc_fence
  rw [he] at hpc
  exact absurd hpc (by decide +kernel)

end

section
/-! PROOFS. The opcode map read in both directions (07 R195, R200, R204, R209): a row that the decoder
finds in a word has that word as its encoding, and the word of a well-formed instruction decodes to it. -/

-- One proof at a time: many of these wait for one another's equations, and each that waits holds a thread's stack.
set_option Elab.async false

namespace Sys2Proof.Encoding

open Sys2Proof Sys2Proof.Machine Sys2Proof.Laws

/-! ### Words from their fields (07 R204) -/

/-- Adjacent fields of a word are one field. -/
theorem adjacent_fields {n s t j k : Nat} {x : BitVec n} (h : t = s + k) :
    x.extractLsb' t j ++ x.extractLsb' s k = x.extractLsb' s (j + k) :=
  BitVec.extractLsb'_append_extractLsb'_eq_extractLsb' h

/-- A one-bit field is the bit made of its flag. -/
theorem ofBool_flag (x : BitVec 1) : BitVec.ofBool (x == 1#1) = x := by
  revert x
  decide

theorem header_chainOf_majorOf (w : Word) : header (chainOf w) (majorOf w) = w.extractLsb' 25 7 := by
  unfold header chainOf majorOf
  rw [ofBool_flag]
  exact adjacent_fields rfl

theorem joinBF_splitBF (w : Word) : joinBF (chainOf w) (majorOf w) (splitBF w) = w := by
  simp only [joinBF, splitBF, header_chainOf_majorOf, adjacent_fields]
  exact BitVec.extractLsb'_eq_self

theorem joinRG_splitRG (w : Word) : joinRG (chainOf w) (majorOf w) (splitRG w) = w := by
  simp only [joinRG, splitRG, header_chainOf_majorOf, adjacent_fields]
  exact BitVec.extractLsb'_eq_self

theorem joinRP_splitRP (w : Word) : joinRP (chainOf w) (majorOf w) (splitRP w) = w := by
  simp only [joinRP, splitRP, header_chainOf_majorOf, adjacent_fields]
  exact BitVec.extractLsb'_eq_self

theorem joinRI_splitRI (w : Word) : joinRI (chainOf w) (majorOf w) (splitRI w) = w := by
  simp only [joinRI, splitRI, header_chainOf_majorOf, adjacent_fields]
  exact BitVec.extractLsb'_eq_self

theorem joinMEM_splitMEM (w : Word) : joinMEM (chainOf w) (majorOf w) (splitMEM w) = w := by
  simp only [joinMEM, splitMEM, header_chainOf_majorOf, adjacent_fields]
  exact BitVec.extractLsb'_eq_self

theorem joinMA_splitMA (w : Word) : joinMA (chainOf w) (majorOf w) (splitMA w) = w := by
  simp only [joinMA, splitMA, header_chainOf_majorOf, adjacent_fields]
  exact BitVec.extractLsb'_eq_self

theorem joinAT_splitAT (w : Word) : joinAT (chainOf w) (majorOf w) (splitAT w) = w := by
  simp only [joinAT, splitAT, header_chainOf_majorOf, adjacent_fields]
  exact BitVec.extractLsb'_eq_self

theorem joinQF_splitQF (w : Word) : joinQF (chainOf w) (majorOf w) (splitQF w) = w := by
  simp only [joinQF, splitQF, header_chainOf_majorOf, adjacent_fields]
  exact BitVec.extractLsb'_eq_self

theorem joinMX_splitMX (w : Word) : joinMX (chainOf w) (majorOf w) (splitMX w) = w := by
  simp only [joinMX, splitMX, header_chainOf_majorOf, adjacent_fields]
  exact BitVec.extractLsb'_eq_self

theorem joinSYS_splitSYS (w : Word) : joinSYS (chainOf w) (majorOf w) (splitSYS w) = w := by
  simp only [joinSYS, splitSYS, header_chainOf_majorOf, adjacent_fields]
  exact BitVec.extractLsb'_eq_self

theorem joinTASK_splitTASK (w : Word) : joinTASK (chainOf w) (majorOf w) (splitTASK w) = w := by
  simp only [joinTASK, splitTASK, header_chainOf_majorOf, adjacent_fields]
  exact BitVec.extractLsb'_eq_self

/-! ### The formats of the majors (07 R209) -/

/-- The majors whose words have the branch format. -/
def bfMajors : List (BitVec 6) := [0x01#6, 0x02#6]

/-- The majors whose words have the register format. -/
def rgMajors : List (BitVec 6) := [0x03#6, 0x05#6, 0x08#6, 0x09#6, 0x0A#6, 0x0B#6, 0x10#6, 0x11#6, 0x12#6, 0x13#6,
  0x15#6, 0x16#6, 0x1A#6, 0x33#6, 0x34#6, 0x36#6, 0x3A#6]

/-- The majors whose words have the predicate-writing format. -/
def rpMajors : List (BitVec 6) := [0x04#6, 0x14#6]

/-- The majors whose words have the immediate format. -/
def riMajors : List (BitVec 6) := [0x0C#6]

/-- The majors whose words have the plain device-memory format. -/
def memMajors : List (BitVec 6) := [0x2C#6, 0x2D#6, 0x0D#6]

/-- The majors whose words have the ordered access format. -/
def maMajors : List (BitVec 6) := [0x2E#6]

/-- The majors whose words have the atomic format. -/
def atMajors : List (BitVec 6) := [0x2F#6, 0x30#6, 0x31#6]

/-- The majors whose words have the queue format. -/
def qfMajors : List (BitVec 6) := [0x24#6, 0x25#6, 0x26#6, 0x27#6, 0x28#6, 0x29#6, 0x32#6]

/-- The majors whose words have the matrix format. -/
def mxMajors : List (BitVec 6) := [0x1C#6, 0x1D#6, 0x18#6, 0x19#6, 0x1E#6, 0x1F#6, 0x20#6, 0x21#6, 0x22#6]

/-- The majors whose words have the control-word and system format. -/
def sysMajors : List (BitVec 6) := [0x06#6, 0x35#6, 0x3B#6, 0x3C#6, 0x3D#6]

/-- The majors whose words have the task and future format. -/
def taskMajors : List (BitVec 6) := [0x37#6, 0x38#6, 0x39#6]

/-- Every major with an issue pipe has a format. -/
theorem format_of_majorPipe : ∀ m : BitVec 6, majorPipe m.toNat ≠ none →
    m ∈ bfMajors ∨ m ∈ rgMajors ∨ m ∈ rpMajors ∨ m ∈ riMajors ∨ m ∈ memMajors ∨ m ∈ maMajors ∨ m ∈ atMajors ∨
      m ∈ qfMajors ∨ m ∈ mxMajors ∨ m ∈ sysMajors ∨ m ∈ taskMajors := by
  decide

/-- The majors that are unallocated or reserved. -/
theorem reserved_of_majorPipe : ∀ m : BitVec 6, majorPipe m.toNat = none →
    m.toNat ∈ [0x00, 0x07, 0x0E, 0x0F, 0x17, 0x1B, 0x23, 0x2A, 0x2B, 0x3E, 0x3F] := by
  decide

/-- A word of an unallocated or reserved major decodes to nothing (07 R209). -/
theorem decode_reserved {w : Word} (h : majorPipe (majorOf w).toNat = none) : decode w = none := by
  have hm := reserved_of_majorPipe _ h
  unfold decode
  generalize (majorOf w).toNat = m at hm
  simp only [List.mem_cons, List.not_mem_nil, or_false] at hm
  rcases hm with rfl | rfl | rfl | rfl | rfl | rfl | rfl | rfl | rfl | rfl | rfl <;> rfl

/-! ### What the decoder reads in a word of a format (07 R209) -/

@[simp] theorem decode_joinBF (c : Bool) (r : FmtBF) : decode (joinBF c 0x01#6 r) = decMaj01 r ∧
    decode (joinBF c 0x02#6 r) = decMaj02 r := by
  simp [decode.eq_def]

@[simp] theorem decode_joinRG (c : Bool) (r : FmtRG) : decode (joinRG c 0x03#6 r) = decMaj03 r ∧
    decode (joinRG c 0x05#6 r) = decMaj05 r ∧ decode (joinRG c 0x08#6 r) = decMaj08 r ∧
    decode (joinRG c 0x09#6 r) = decMaj09 r ∧ decode (joinRG c 0x0A#6 r) = decMaj0A r ∧
    decode (joinRG c 0x0B#6 r) = decMaj0B r ∧ decode (joinRG c 0x10#6 r) = decMaj10 r ∧
    decode (joinRG c 0x11#6 r) = decMaj11 r ∧ decode (joinRG c 0x12#6 r) = decMaj12 r ∧
    decode (joinRG c 0x13#6 r) = decMaj13 r ∧ decode (joinRG c 0x15#6 r) = decMaj15 r ∧
    decode (joinRG c 0x16#6 r) = decMaj16 r ∧ decode (joinRG c 0x1A#6 r) = decMaj1A r ∧
    decode (joinRG c 0x33#6 r) = decMaj33 r ∧ decode (joinRG c 0x34#6 r) = decMaj34 r ∧
    decode (joinRG c 0x36#6 r) = decMaj36 r ∧ decode (joinRG c 0x3A#6 r) = decMaj3A r := by
  simp [decode.eq_def]

@[simp] theorem decode_joinRP (c : Bool) (r : FmtRP) : decode (joinRP c 0x04#6 r) = decMaj04 r ∧
    decode (joinRP c 0x14#6 r) = decMaj14 r := by
  simp [decode.eq_def]

@[simp] theorem decode_joinRI (c : Bool) (r : FmtRI) : decode (joinRI c 0x0C#6 r) = decMaj0C r := by
  simp [decode.eq_def]

@[simp] theorem decode_joinMEM (c : Bool) (r : FmtMEM) : decode (joinMEM c 0x2C#6 r) = decMaj2C r ∧
    decode (joinMEM c 0x2D#6 r) = decMaj2D r ∧ decode (joinMEM c 0x0D#6 r) = decMaj0D r := by
  simp [decode.eq_def]

@[simp] theorem decode_joinMA (c : Bool) (r : FmtMA) : decode (joinMA c 0x2E#6 r) = decMaj2E r := by
  simp [decode.eq_def]

@[simp] theorem decode_joinAT (c : Bool) (r : FmtAT) : decode (joinAT c 0x2F#6 r) = decMaj2F r ∧
    decode (joinAT c 0x30#6 r) = decMaj30 r ∧ decode (joinAT c 0x31#6 r) = decMaj31 r := by
  simp [decode.eq_def]

@[simp] theorem decode_joinQF (c : Bool) (r : FmtQF) : decode (joinQF c 0x24#6 r) = decMaj24 r ∧
    decode (joinQF c 0x25#6 r) = decMaj25 r ∧ decode (joinQF c 0x26#6 r) = decMaj26 r ∧
    decode (joinQF c 0x27#6 r) = decMaj27 r ∧ decode (joinQF c 0x28#6 r) = decMaj28 r ∧
    decode (joinQF c 0x29#6 r) = decMaj29 r ∧ decode (joinQF c 0x32#6 r) = decMaj32 r := by
  simp [decode.eq_def]

@[simp] theorem decode_joinMX (c : Bool) (r : FmtMX) : decode (joinMX c 0x1C#6 r) = decMaj1C r ∧
    decode (joinMX c 0x1D#6 r) = decMaj1D r ∧ decode (joinMX c 0x18#6 r) = decMaj18 r ∧
    decode (joinMX c 0x19#6 r) = decMaj19 r ∧ decode (joinMX c 0x1E#6 r) = decMaj1E r ∧
    decode (joinMX c 0x1F#6 r) = decMaj1F r ∧ decode (joinMX c 0x20#6 r) = decMaj20 r ∧
    decode (joinMX c 0x21#6 r) = decMaj21 r ∧ decode (joinMX c 0x22#6 r) = decMaj22 r := by
  simp [decode.eq_def]

@[simp] theorem decode_joinSYS (c : Bool) (r : FmtSYS) : decode (joinSYS c 0x06#6 r) = decMaj06 r ∧
    decode (joinSYS c 0x35#6 r) = decMaj35 r ∧ decode (joinSYS c 0x3B#6 r) = decMaj3B r ∧
    decode (joinSYS c 0x3C#6 r) = decMaj3C r ∧ decode (joinSYS c 0x3D#6 r) = decMaj3D r := by
  simp [decode.eq_def]

@[simp] theorem decode_joinTASK (c : Bool) (r : FmtTASK) : decode (joinTASK c 0x37#6 r) = decMaj37 r ∧
    decode (joinTASK c 0x38#6 r) = decMaj38 r ∧ decode (joinTASK c 0x39#6 r) = decMaj39 r := by
  simp [decode.eq_def]

/-! ### A row that is read from a word has it as its word -/

/-- What has been read from a word, if anything, has the word as its encoding under chain bit c. -/
def ReadFrom (c : Bool) (w : Word) (o : Option Instr) : Prop := ∀ i, o = some i → encode c i = some w

theorem ReadFrom.nothing {c : Bool} {w : Word} : ReadFrom c w none := by
  intro i h
  cases h

/-- An instruction is read from a word if it is encoded by the same fields. -/
theorem ReadFrom.instr {F : Type} {join : F → Word} {c : Bool} {r r' : F} {i : Instr} (he : encode c i = some (join r'))
    (hr : r' = r) : ReadFrom c (join r) (some i) := by
  intro j hj
  cases hj
  rw [he, hr]

/-- A field whose high bits are known is these bits and its low bits. -/
theorem append_low {v w : Nat} {x : BitVec (v + w)} {y : BitVec v} (h : x.extractLsb' w v = y) :
    y ++ x.extractLsb' 0 w = x := by
  subst h
  exact BitVec.extractLsb'_append_extractLsb'

/-- A field of three bits whose highest bit is known. -/
theorem append_low_bits {x : BitVec 3} {y : BitVec 1} (h : x.extractLsb' 2 1 = y) :
    y ++ x.extractLsb' 1 1 ++ x.extractLsb' 0 1 = x := by
  subst h
  revert x
  decide

/-- A row of a major is read from a word if, where the fixed bits of the row are those of the word, it is encoded by the same
fields; the rows after it are read where it is not. -/
theorem ReadFrom.row {F : Type} {join : F → Word} {c : Bool} {r r' : F} {i : Instr} {o : Option Instr} {p : Prop}
  [Decidable p]
    (he : encode c i = some (join r')) (ho : ReadFrom c (join r) o)
    (hp : p → r' = r := by simp +contextual only [Bool.and_eq_true, beq_iff_eq, append_low, append_low_bits, ofBool_flag,
      implies_true]) :
    ReadFrom c (join r) (if p then some i else o) := by
  by_cases h : p
  · rw [if_pos h]
    exact .instr he (hp h)
  · rwa [if_neg h]

theorem readFrom_joinBF (c : Bool) (r : FmtBF) : ∀ m ∈ bfMajors, ReadFrom c (joinBF c m r) (decode (joinBF c m r)) := by
  obtain ⟨g, res, off⟩ := r
  simp only [bfMajors, List.forall_mem_cons, List.not_mem_nil, false_imp_iff, implies_true, and_true, decode_joinBF,
    decMaj01, decMaj02]
  and_intros
  all_goals
    repeat refine .row rfl ?_
    exact .nothing

theorem readFrom_joinRG (c : Bool) (r : FmtRG) : ∀ m ∈ rgMajors, ReadFrom c (joinRG c m r) (decode (joinRG c m r)) := by
  obtain ⟨g, d, a, b, pa, pb, fn⟩ := r
  simp only [rgMajors, List.forall_mem_cons, List.not_mem_nil, false_imp_iff, implies_true, and_true, decode_joinRG,
    decMaj03, decMaj05, decMaj08, decMaj09, decMaj0A, decMaj0B, decMaj10, decMaj11, decMaj12, decMaj13, decMaj15,
    decMaj16, decMaj1A, decMaj33, decMaj34, decMaj36, decMaj3A]
  and_intros
  all_goals
    repeat refine .row rfl ?_
    exact .nothing

theorem readFrom_joinRP (c : Bool) (r : FmtRP) : ∀ m ∈ rpMajors, ReadFrom c (joinRP c m r) (decode (joinRP c m r)) := by
  obtain ⟨g, p1, p2, a, b, pa, pb, cc⟩ := r
  simp only [rpMajors, List.forall_mem_cons, List.not_mem_nil, false_imp_iff, implies_true, and_true, decode_joinRP,
    decMaj04, decMaj14]
  and_intros
  all_goals
    repeat refine .row rfl ?_
    exact .nothing

theorem readFrom_joinRI (c : Bool) (r : FmtRI) : ∀ m ∈ riMajors, ReadFrom c (joinRI c m r) (decode (joinRI c m r)) := by
  obtain ⟨g, d, fn, imm⟩ := r
  simp only [riMajors, List.forall_mem_cons, List.not_mem_nil, false_imp_iff, implies_true, and_true, decode_joinRI,
    decMaj0C]
  repeat refine .row rfl ?_
  exact .nothing

theorem readFrom_joinMEM (c : Bool) (r : FmtMEM) : ∀ m ∈ memMajors, ReadFrom c (joinMEM c m r) (decode (joinMEM c m r)) := by
  obtain ⟨d, a, w, off⟩ := r
  simp only [memMajors, List.forall_mem_cons, List.not_mem_nil, false_imp_iff, implies_true, and_true, decode_joinMEM,
    decMaj2C, decMaj2D, decMaj0D]
  refine ⟨.instr rfl rfl, .instr rfl rfl, ?_⟩
  repeat refine .row rfl ?_
  exact .nothing

theorem readFrom_joinMA (c : Bool) (r : FmtMA) : ∀ m ∈ maMajors, ReadFrom c (joinMA c m r) (decode (joinMA c m r)) := by
  obtain ⟨g, d, a, dir, sp, res, os, w⟩ := r
  simp only [maMajors, List.forall_mem_cons, List.not_mem_nil, false_imp_iff, implies_true, and_true, decode_joinMA,
    decMaj2E]
  repeat refine .row rfl ?_
  exact .nothing

theorem readFrom_joinAT (c : Bool) (r : FmtAT) : ∀ m ∈ atMajors, ReadFrom c (joinAT c m r) (decode (joinAT c m r)) := by
  obtain ⟨op, d, a, b, os, sp, w, res⟩ := r
  simp only [atMajors, List.forall_mem_cons, List.not_mem_nil, false_imp_iff, implies_true, and_true, decode_joinAT,
    decMaj2F, decMaj30, decMaj31]
  and_intros
  all_goals
    repeat refine .row rfl ?_
    exact .nothing

theorem readFrom_joinQF (c : Bool) (r : FmtQF) : ∀ m ∈ qfMajors, ReadFrom c (joinQF c m r) (decode (joinQF c m r)) := by
  obtain ⟨g, d, a, qn, mp, fn⟩ := r
  simp only [qfMajors, List.forall_mem_cons, List.not_mem_nil, false_imp_iff, implies_true, and_true, decode_joinQF,
    decMaj24, decMaj25, decMaj26, decMaj27, decMaj28, decMaj29, decMaj32]
  and_intros
  all_goals
    repeat refine .row rfl ?_
    exact .nothing

theorem readFrom_joinMX (c : Bool) (r : FmtMX) : ∀ m ∈ mxMajors, ReadFrom c (joinMX c m r) (decode (joinMX c m r)) := by
  obtain ⟨k, t, a, b, ol, var, fn⟩ := r
  simp only [mxMajors, List.forall_mem_cons, List.not_mem_nil, false_imp_iff, implies_true, and_true, decode_joinMX,
    decMaj1C, decMaj1D, decMaj18, decMaj19, decMaj1E, decMaj1F, decMaj20, decMaj21, decMaj22]
  refine ⟨.instr rfl (by simp only [ofBool_flag]), .instr rfl (by simp only [ofBool_flag]), ?_⟩
  and_intros
  all_goals
    repeat refine .row rfl ?_
    exact .nothing

theorem readFrom_joinSYS (c : Bool) (r : FmtSYS) : ∀ m ∈ sysMajors, ReadFrom c (joinSYS c m r) (decode (joinSYS c m r)) := by
  obtain ⟨g, d, a, sel, fn⟩ := r
  simp only [sysMajors, List.forall_mem_cons, List.not_mem_nil, false_imp_iff, implies_true, and_true, decode_joinSYS,
    decMaj06, decMaj35, decMaj3B, decMaj3C, decMaj3D]
  and_intros
  all_goals
    repeat refine .row rfl ?_
    exact .nothing

theorem readFrom_joinTASK (c : Bool) (r : FmtTASK) : ∀ m ∈ taskMajors,
  ReadFrom c (joinTASK c m r) (decode (joinTASK c m r)) := by
  obtain ⟨g, d, a, b, ps, fn⟩ := r
  simp only [taskMajors, List.forall_mem_cons, List.not_mem_nil, false_imp_iff, implies_true, and_true,
    decode_joinTASK, decMaj37, decMaj38, decMaj39]
  and_intros
  all_goals
    repeat refine .row rfl ?_
    exact .nothing

/-- A word that decodes to an instruction is the word of that instruction under its chain bit (07 R204, R209). -/
theorem encode_of_decode (w : Word) : ReadFrom (chainOf w) w (decode w) := by
  by_cases hn : majorPipe (majorOf w).toNat = none
  · rw [decode_reserved hn]
    exact .nothing
  rcases format_of_majorPipe _ hn with hf | hf | hf | hf | hf | hf | hf | hf | hf | hf | hf
  · simpa only [joinBF_splitBF] using readFrom_joinBF (chainOf w) (splitBF w) _ hf
  · simpa only [joinRG_splitRG] using readFrom_joinRG (chainOf w) (splitRG w) _ hf
  · simpa only [joinRP_splitRP] using readFrom_joinRP (chainOf w) (splitRP w) _ hf
  · simpa only [joinRI_splitRI] using readFrom_joinRI (chainOf w) (splitRI w) _ hf
  · simpa only [joinMEM_splitMEM] using readFrom_joinMEM (chainOf w) (splitMEM w) _ hf
  · simpa only [joinMA_splitMA] using readFrom_joinMA (chainOf w) (splitMA w) _ hf
  · simpa only [joinAT_splitAT] using readFrom_joinAT (chainOf w) (splitAT w) _ hf
  · simpa only [joinQF_splitQF] using readFrom_joinQF (chainOf w) (splitQF w) _ hf
  · simpa only [joinMX_splitMX] using readFrom_joinMX (chainOf w) (splitMX w) _ hf
  · simpa only [joinSYS_splitSYS] using readFrom_joinSYS (chainOf w) (splitSYS w) _ hf
  · simpa only [joinTASK_splitTASK] using readFrom_joinTASK (chainOf w) (splitTASK w) _ hf

/-! ### The word of a well-formed instruction decodes to it -/

/-- The two high bits of the field that selects BF16 rows of a tile. -/
@[simp] theorem high_bit_append_ofBool (b : Bool) : BitVec.extractLsb' (n := 3) 2 1 (2#2 ++ BitVec.ofBool b) = 1#1 := by
  cases b <;> rfl

/-- A well-formed instruction has a word that decodes to it, by format; the last five need what well-formedness says of their
fields, for another row of their major stands in the same words (07 R207, R209). -/
theorem decode_encode (c : Bool) (i : Instr) (h : i.wellFormed = true) :
    ∃ w, encode c i = some w ∧ decode w = some i ∧ chainOf w = c := by
  obtain ⟨henc, hlegal⟩ := wellFormed_parts h
  cases i with
  | bra f | call f =>
    exact ⟨_, rfl, by simp [decMaj01, decMaj02], chainOf_joinBF _ _ _⟩
  | nop f | jmp f | calli f | ret f | exit f | yield f | trap f | uret f | setuv f | bkpt f | mark f | icsync f
  | icsyncDev f | voteAny f | voteAll f | voteBallot f | elect f | shflIdx f | shflUp f | shflDown f | shflXor f
  | add f | sub f | mul f | mulhiS f | mulhiU f | mad f | divs f | divu f | rems f | remu f | minS f | minU f | maxS f
  | maxU f | abs f | sel f | and f | or f | xor f | andn f | shl f | shr f | sar f | rol f | clz f | popc f | brev f
  | mov f | bfx f | bfi f | fadd f | fsub f | fmul f | ffma f | fmin f | fmax f | fclass f | frnd f | frcp f | frsq f
  | fsqrt f | fdiv f | fexp2 f | flog2 f | fsin f | fcos f | hadd2Bf16 f | hmul2Bf16 f | hfma2Bf16 f | hadd2F16 f
  | hmul2F16 f | hfma2F16 f | fcvtF32Bf16 f | fcvtF32Bf16Hi f | fcvtF32F16 f | fcvtF32F16Hi f | fcvtBf16x2F32 f
  | fcvtF16x2F32 f | icvtSwF32 f | icvtSwF32Rz f | icvtUwF32 f | icvtUwF32Rz f | icvtF32Sw f | icvtF32Uw f | rope f
  | amrg f | hdrr f | hdrw f | cbk f | bcopy f | bstore f | mcast f | replay f | rch f | rget f | rput f | pinit f
  | preg f | pdereg f | parr f | pbytes f | pwait f | ptest f | ptestW f | kvlook f | kvins f | kvdel f | pfxlook f
  | pfxins f | attd f =>
    exact ⟨_, rfl, by simp [decMaj03, decMaj05, decMaj08, decMaj09, decMaj0A, decMaj0B, decMaj10, decMaj11, decMaj12,
      decMaj13, decMaj15, decMaj16, decMaj1A, decMaj33, decMaj34, decMaj36, decMaj3A], chainOf_joinRG _ _ _⟩
  | plopAnd f | plopOr f | plopXor f | plopAndn f | fcmp f =>
    exact ⟨_, rfl, by simp [decMaj04, decMaj14], chainOf_joinRP _ _ _⟩
  | movi f | movhi f | addImm f | andImm f | orImm f | xorImm f | shlImm f | shrImm f =>
    exact ⟨_, rfl, by simp [decMaj0C], chainOf_joinRI _ _ _⟩
  | lea f | ld f | st f =>
    exact ⟨_, rfl, by simp [decMaj0D, decMaj2C, decMaj2D], chainOf_joinMEM _ _ _⟩
  | stMa f =>
    exact ⟨_, rfl, by simp [decMaj2E], chainOf_joinMA _ _ _⟩
  | red f | redMinmax f | cas f =>
    exact ⟨_, rfl, by simp [decMaj2F, decMaj30, decMaj31], chainOf_joinAT _ _ _⟩
  | qpop f | qpopb f | qpopo f | qpush f | qpushb f | qmark f | qpeek f | qtest f | qcfg f | qclose f | qstat f
  | ldq f | ldbq f | stq f | qstream f | gath f | scat f | gathR f | pref f =>
    exact ⟨_, rfl, by simp [decMaj24, decMaj25, decMaj26, decMaj27, decMaj28, decMaj29, decMaj32], chainOf_joinQF _ _ _⟩
  | qnt f | qscl f | dq f | mma f | mmaz f | tcfg f | tzero f | kopMov f | kopAnd f | kopOr f | kopAndn f | kopNz f
  | kopFromp f | kopTop f | tchk f | tmovfF32 f | tmovfBf16 f | tmovtF32 f | tmovtBf16 f | tdrain f | tdrainAdd f
  | tstsp f =>
    exact ⟨_, rfl, by simp [decMaj18, decMaj19, decMaj1C, decMaj1D, decMaj1E, decMaj1F, decMaj20, decMaj21, decMaj22],
      chainOf_joinMX _ _ _⟩
  | csrr f | csrw f | csrs f | csrc f | fence f | join f | sret f | tlbinv f | ctxq f | haltq f =>
    exact ⟨_, rfl, by simp [decMaj06, decMaj35, decMaj3B, decMaj3C, decMaj3D], chainOf_joinSYS _ _ _⟩
  | spawn f | take f | steal f | fnew f | fres f | fresF f | freg f | fwait f | fstat f | fstatHi f | jlaunch f
  | trigger f | jyield f | leave f =>
    exact ⟨_, rfl, by simp [decMaj37, decMaj38, decMaj39], chainOf_joinTASK _ _ _⟩
  | cmp f =>
    have hcc : f.cc ≤ 9#4 := of_decide_eq_true (p := f.cc ≤ 9#4) henc
    exact ⟨_, rfl, by simp [decMaj04, hcc], chainOf_joinRP _ _ _⟩
  | ldMa f =>
    have hos : ¬6#4 ≤ f.os := by
      obtain ⟨-, hos⟩ := Bool.and_eq_true_iff.1 hlegal
      have := of_decide_eq_true hos
      bv_omega
    exact ⟨_, rfl, by simp [decMaj2E, hos], chainOf_joinMA _ _ _⟩
  | ldc f =>
    have hos : 6#4 ≤ f.os ∧ f.os ≤ 10#4 := by
      simp only [legal.eq_def, Bool.and_eq_true, decide_eq_true_eq] at hlegal
      obtain ⟨⟨-, hlow⟩, hhigh⟩ := hlegal
      exact ⟨hlow, hhigh⟩
    exact ⟨_, rfl, by simp [decMaj2E, hos], chainOf_joinMA _ _ _⟩
  | atom f | atomMinmax f =>
    have hd : f.d ≠ 0#5 := by
      simp only [legal.eq_def, Bool.and_eq_true, bne_iff_ne] at hlegal
      tauto
    exact ⟨_, rfl, by simp [decMaj2F, decMaj30, hd], chainOf_joinAT _ _ _⟩
  | _ => cases henc

end Sys2Proof.Encoding

open Sys2Proof Sys2Proof.Machine Sys2Proof.Encoding

/-- Settles O55: the rows of each major, read in turn, are encoded by the fields that they are read from, and the case split
over the instructions finds each at its row. -/
theorem wordsAndInstructionsAgree : Obligations.WordsAndInstructionsAgree := by
  unfold Obligations.WordsAndInstructionsAgree
  exact ⟨fun i c => decode_encode c i, encode_of_decode, fun _ => decode_reserved⟩

/-- Settles O56, by decoding each word. -/
theorem encodedWordsDecode : Obligations.EncodedWordsDecode := by
  unfold Obligations.EncodedWordsDecode
  decide

end

section
/-! PROOFS. Words that a rule forbids (07 R202, R203, R209, R210, R215): every lane takes ILLOP in its turn; which words these are;
which words are not in the opcode map at all. -/

set_option Elab.async false

namespace Sys2Proof.Forbidding

open Sys2Proof Sys2Proof.Machine Sys2Proof.Claims Sys2Proof.Encoding

/-! ### What a forbidden word does -/

/-- Where a word is illegal, each lane whose guard is true takes ILLOP in its turn and leaves the pass, and the others advance. -/
theorem runLanes_illegal {p : Pass} {g : Group} {op : Op} {act : State → ThreadKey → Act} (hmid : p.mid = []) (l acc : List Nat)
    (s : State) : runLanes p g true op act s acc none l
      = (s.inTurn p g op.guard (fun s th => s.takeTrap th (illop p.pc p.word)) l).withSel
        (acc ++ l.filter (fun t => !(g.thr t).pred op.guard)) := by
  induction l generalizing s acc with
  | nil => simp [runLanes, State.inTurn]
  | cons t ts ih =>
    cases hb : (g.thr t).pred op.guard with
    | false =>
      have hm : op.meet true g p t = none := by simp [Op.meet, hb, hmid]
      simp [runLanes, hm, ih, State.inTurn, hb]
    | true =>
      have hm : op.meet true g p t = some (.trap (illop p.pc p.word) none) := by simp [Op.meet, hb, hmid]
      have ht : op.turn act s ⟨p.gk, t⟩ (.trap (illop p.pc p.word) none)
          = .out (s.takeTrap ⟨p.gk, t⟩ (illop p.pc p.word)) := rfl
      simp [runLanes, hm, ht, ih, State.inTurn, hb]

/-- No lane waits in the pipeline for the operands of an illegal word. -/
theorem no_wait_illegal {p : Pass} {g : Group} {op : Op} (hmid : p.mid = []) :
    p.sel.any (fun t => op.meet true g p t = some .wait) = false := by
  rw [List.any_eq_false]
  intro t _
  cases hb : (g.thr t).pred op.guard <;> simp [Op.meet, hb, hmid]

/-- A word whose meaning is by `execLanesIf` raises ILLOP where it is forbidden. -/
theorem forbidden_of_lanesIf {i : Instr} {q : BitVec 3}
    (he : ∀ s, ∃ op misuse act, exec i s = execLanesIf s i op misuse act ∧ op.guard = q) : Forbidden i q := by
  intro s p g hp hg hmid hf
  obtain ⟨op, misuse, act, hx, rfl⟩ := he s
  rw [hx]
  simp only [execLanesIf, withPass, hp, hg, hf, Bool.true_or, no_wait_illegal hmid, Bool.false_eq_true, ↓reduceIte,
    runLanes_illegal hmid, List.nil_append]

/-- A word whose meaning is by `execLanes` raises ILLOP where it is forbidden. -/
theorem forbidden_of_lanes {i : Instr} {q : BitVec 3} (he : ∀ s, ∃ op act, exec i s = execLanes s i op act ∧ op.guard = q) :
    Forbidden i q :=
  forbidden_of_lanesIf fun s =>
    let ⟨op, act, hx, hq⟩ := he s
    ⟨op, _, act, hx, hq⟩

/-! ### What is forbidden -/

/-- A group breaks the rules of a word, of its slice or of its privilege. -/
theorem forbids_iff {s : State} {gk : GroupKey} {i : Instr} : s.forbids gk i = true ↔
    legal i = false ∨ sliceOk gk.exe i = false ∨ privileged i = true ∧ s.ctxOf gk.team.job ≠ 0 := by
  simp [State.forbids, State.priv, or_assoc]

/-- The row of a control word by its number (07 R214): those of the execute slice, those of both slices that can be written, and
those that can be read. -/
def csrRow (n : Nat) : Option (Nat × Bool × Bool) :=
  if n ∈ [0x20, 0x21] then some (n, true, true) else if n ∈ [0x30, 0x31] then some (n, true, false)
  else if n ∈ [0, 1, 2, 3, 4, 5, 6, 0x10, 0x11, 0x22] then some (n, false, false) else none

theorem find_csrTable (n : Nat) : csrTable.find? (fun e => e.1 == n) = csrRow n := by
  have small : ∀ n < 0x32, csrTable.find? (fun e => e.1 == n) = csrRow n := by decide
  by_cases hn : n < 0x32
  · exact small n hn
  · have large : ∀ l : List Nat, (∀ k ∈ l, k < 0x32) → n ∉ l := fun l hl h => hn (hl n h)
    rw [csrRow, if_neg (large _ (by decide)), if_neg (large _ (by decide)), if_neg (large _ (by decide)), List.find?_eq_none]
    intro e he hen
    exact large (csrTable.map Prod.fst) (by decide) (List.mem_map.2 ⟨e, he, by simpa using hen⟩)

/-- A selector names a control word that a slice has, and for a write can write (07 R215). -/
theorem csrOk_iff {exe write : Bool} {sel : BitVec 10} {n : Nat} (hn : (sel.extractLsb' 0 9).toNat = n) :
    csrOk exe sel write = true ↔
      (n ∈ [0x30, 0x31] ∨ exe = true ∧ n ∈ [0x20, 0x21] ∨ write = false ∧ n ∈ [0, 1, 2, 3, 4, 5, 6, 0x10, 0x11, 0x22]) ∧
        (exe = true ∨ sel.getLsbD 9 = false) := by
  rw [csrOk, BitVec.setWidth_eq_extractLsb' (by decide), hn, find_csrTable, csrRow]
  split_ifs with hexe hboth hread
  · have hw : n ∉ [0x30, 0x31] ∧ n ∉ [0, 1, 2, 3, 4, 5, 6, 0x10, 0x11, 0x22] := by
      simp only [List.mem_cons, List.not_mem_nil, or_false] at hexe ⊢
      omega
    cases exe <;> simp [hexe, hw]
  · cases exe <;> simp [hboth]
  · cases write <;> cases exe <;> simp [hboth, hexe, hread]
  · simp [hexe, hboth, hread]

/-- When CSRR is forbidden (07 R215). -/
theorem forbids_csrr (s : State) (gk : GroupKey) (f : OpCsrr) : let n := (f.sel.extractLsb' 0 9).toNat
    s.forbids gk (.csrr f) = true ↔
      ¬(n ∈ [0, 1, 2, 3, 4, 5, 6, 0x10, 0x11, 0x22, 0x30, 0x31] ∨ gk.exe = true ∧ n ∈ [0x20, 0x21]) ∨
        ¬gk.exe = true ∧ f.sel.getLsbD 9 = true := by
  intro n
  have h : sliceOk gk.exe (.csrr f) = csrOk gk.exe f.sel false := rfl
  rw [forbids_iff, h, ← Bool.not_eq_true (csrOk _ _ _), csrOk_iff (rfl : _ = n)]
  simp only [legal.eq_def, privileged.eq_def, List.mem_cons, List.not_mem_nil]
  cases gk.exe <;> cases f.sel.getLsbD 9 <;> simp <;> tauto

/-- When CSRW is forbidden (07 R215). -/
theorem forbids_csrw (s : State) (gk : GroupKey) (f : OpCsrw) : let n := (f.sel.extractLsb' 0 9).toNat
    s.forbids gk (.csrw f) = true ↔
      ¬(n ∈ [0x30, 0x31] ∨ gk.exe = true ∧ n ∈ [0x20, 0x21]) ∨ ¬gk.exe = true ∧ f.sel.getLsbD 9 = true := by
  intro n
  have h : sliceOk gk.exe (.csrw f) = csrOk gk.exe f.sel true := rfl
  rw [forbids_iff, h, ← Bool.not_eq_true (csrOk _ _ _), csrOk_iff (rfl : _ = n)]
  simp only [legal.eq_def, privileged.eq_def]
  cases gk.exe <;> cases f.sel.getLsbD 9 <;> simp

/-! ### Words that are not in the opcode map -/

/-- The high bits of a field are zero where its value needs the low ones alone. -/
theorem extract_high_eq_zero_iff {n k m : Nat} {x : BitVec n} (h : n = k + m) : x.extractLsb' k m = 0#m ↔ x.toNat < 2 ^ k := by
  have hx : x.toNat / 2 ^ k < 2 ^ m := Nat.div_lt_of_lt_mul (by rw [← Nat.pow_add, ← h]; exact x.isLt)
  rw [← BitVec.toNat_inj, BitVec.extractLsb'_toNat, Nat.shiftRight_eq_div_pow, Nat.mod_eq_of_lt hx, BitVec.toNat_ofNat,
    Nat.zero_mod, Nat.div_eq_zero_iff_lt (Nat.two_pow_pos k)]

end Sys2Proof.Forbidding

open Sys2Proof Sys2Proof.Machine Sys2Proof.Forbidding

/-- Settles O20: an illegal word lets no lane act, what is forbidden is read off the rules of each word, and a reserved field that is
not zero keeps every row of its major from the word. -/
theorem forbiddenWordsRaiseIllop : Obligations.ForbiddenWordsRaiseIllop := by
  unfold Obligations.ForbiddenWordsRaiseIllop
  -- The words from SRET to CSRR, SPAWN to STEAL, and CSRW to FNEW.
  iterate 17 refine ⟨fun _ => forbidden_of_lanes fun _ => ⟨_, _, rfl, rfl⟩, ?_⟩
  iterate 3 refine ⟨fun _ => forbidden_of_lanesIf fun _ => ⟨_, _, _, rfl, rfl⟩, ?_⟩
  iterate 7 refine ⟨fun _ => forbidden_of_lanes fun _ => ⟨_, _, rfl, rfl⟩, ?_⟩
  refine ⟨?rules, ?reserved⟩
  case rules =>
    -- `eq_def`: the rule functions have a row for each word, and their other equations are generated for all the rows at once.
    intro s gk
    refine ⟨?_, ?_, ?_, ?_, ?_, ?_, ?_, ?_, ?_, ?_, ?rope, ?_, ?_, ?_, ?_, ?_, ?preg, ?_, ?_, ?_, forbids_csrr s gk,
      forbids_csrw s gk⟩
    case rope =>
      intro f
      cases he : gk.exe with
      | false => simp [forbids_iff, sliceOk.eq_def, slices.eq_def, he]
      | true =>
        simp [forbids_iff, legal.eq_def, sliceOk.eq_def, slices.eq_def, privileged.eq_def, he, BitVec.le_def]
        omega
    case preg =>
      intro f
      simp [forbids_iff, legal.eq_def, sliceOk.eq_def, slices.eq_def, privileged.eq_def]
      bv_omega
    all_goals
      intro f
      simp [forbids_iff, legal.eq_def, sliceOk.eq_def, slices.eq_def, privileged.eq_def, BitVec.le_def, or_comm]
  case reserved =>
    intro c
    refine ⟨fun r => ⟨?_, ?_, ?_, ?_⟩, fun r => ?_, fun r => ⟨?_, ?_, ?_, ?_, ?_, ?_, ?_⟩, fun r => ⟨?_, ?_, ?_, ?_⟩⟩
    all_goals
      intro hfn h
      simp [decMaj06, decMaj32, decMaj33, decMaj35, decMaj36, decMaj37, decMaj38, decMaj3A, decMaj3B, decMaj3C, decMaj3D, hfn,
        extract_high_eq_zero_iff]
      grind

end

section
/-! PROOFS. Integer arithmetic, logic, shifts, bit fields, immediates, compares and lane words (08 R240 to R251): each function of
numbers is that of its table on bit vectors, each word is one of the shared shapes of execution; and what they settle: O1, O2, O3. -/

namespace Sys2Proof.Integers

open Sys2Proof Sys2Proof.Machine Sys2Proof.Claims

/-! ### Numbers of w bits as bit vectors -/

theorem sextN_toNat {w : Nat} (x : BitVec w) : sextN w x.toNat = x.toInt := by
  simp [sextN, BitVec.toInt_eq_toNat_cond, Nat.mod_eq_of_lt x.isLt]

theorem ofNat_wrapN (w : Nat) (i : Int) : BitVec.ofNat w (wrapN w i) = BitVec.ofInt w i := by
  rw [wrapN, ← BitVec.toNat_ofInt, BitVec.ofNat_toNat, BitVec.setWidth_eq]

theorem ofNat_toNat_self {w : Nat} (x : BitVec w) : BitVec.ofNat w x.toNat = x := by
  rw [BitVec.ofNat_toNat, BitVec.setWidth_eq]

theorem ofNat_mul_two_pow {w : Nat} (x : BitVec w) (n : Nat) : BitVec.ofNat w (x.toNat * 2 ^ n) = x <<< n := by
  rw [← Nat.shiftLeft_eq]
  rfl

theorem ofNat_div_two_pow {w : Nat} (x : BitVec w) (n : Nat) : BitVec.ofNat w (x.toNat / 2 ^ n) = x >>> n := by
  rw [← Nat.shiftRight_eq_div_pow, ← BitVec.toNat_ushiftRight, ofNat_toNat_self]

theorem ofInt_mul_two_pow (w : Nat) (i : Int) (n : Nat) : BitVec.ofInt w (i * (2 ^ n : Nat)) = BitVec.ofInt w i <<< n := by
  rw [← ofNat_mul_two_pow, BitVec.ofNat_mul, ofNat_toNat_self, BitVec.ofInt_mul, BitVec.ofInt_natCast]

/-- The bits from b on of a number modulo b * c are those of the number, modulo c. -/
theorem emod_mul_ediv_emod (z : Int) {b : Int} (hb : b ≠ 0) (c : Int) : z % (b * c) / b % c = z / b % c := by
  rw [Int.emod_def z, Int.mul_assoc, Int.sub_mul_ediv_left _ _ hb, Int.sub_mul_emod_self_left]

/-- The high half of a double-width number, as the quotient by 2^w. -/
theorem ofInt_ediv_two_pow {w : Nat} (z : Int) :
    BitVec.ofInt w (z / (2 ^ w : Nat)) = (BitVec.ofInt (2 * w) z >>> w).setWidth w := by
  have hw : ((2 ^ w : Nat) : Int) ≠ 0 := by positivity
  apply BitVec.eq_of_toNat_eq
  apply Int.ofNat_inj.1
  rw [BitVec.toNat_ofInt, Int.toNat_of_nonneg (Int.emod_nonneg _ hw), BitVec.toNat_setWidth, BitVec.toNat_ushiftRight,
    Nat.shiftRight_eq_div_pow, BitVec.toNat_ofInt, Int.natCast_emod, Int.natCast_ediv,
    Int.toNat_of_nonneg (Int.emod_nonneg _ (by positivity)), Nat.two_mul, Nat.pow_add, Int.natCast_mul,
    emod_mul_ediv_emod z hw]

/-! ### Arithmetic (08 R245, R246) -/

theorem ofNat_sub {w : Nat} (x y : BitVec w) : BitVec.ofNat w (lowBits w ((x.toNat : Int) - y.toNat)) = x - y := by
  rw [lowBits, ofNat_wrapN, Int.sub_eq_add_neg, BitVec.ofInt_add, BitVec.ofInt_neg, BitVec.ofInt_natCast,
    BitVec.ofInt_natCast,
    ofNat_toNat_self, ofNat_toNat_self, BitVec.sub_eq_add_neg]

theorem ofNat_mulHiS {w : Nat} (x y : BitVec w) : BitVec.ofNat w (mulHiS w x.toNat y.toNat)
    = ((x.signExtend (2 * w) * y.signExtend (2 * w)) >>> w).setWidth w := by
  rw [mulHiS, ofNat_wrapN, sextN_toNat, sextN_toNat, ofInt_ediv_two_pow, BitVec.ofInt_mul]
  rfl

theorem ofNat_mulHiU {w : Nat} (x y : BitVec w) : BitVec.ofNat w (mulHiU w x.toNat y.toNat)
    = ((x.setWidth (2 * w) * y.setWidth (2 * w)) >>> w).setWidth w := by
  have hprod : (x.setWidth (2 * w) * y.setWidth (2 * w)).toNat = x.toNat * y.toNat := by
    have hlt : x.toNat * y.toNat < 2 ^ (2 * w) := by
      rw [Nat.two_mul, Nat.pow_add]
      exact Nat.mul_lt_mul'' x.isLt y.isLt
    rw [BitVec.toNat_mul, BitVec.toNat_setWidth_of_le (by omega), BitVec.toNat_setWidth_of_le (by omega),
      Nat.mod_eq_of_lt hlt]
  apply BitVec.eq_of_toNat_eq
  simp [mulHiU, hprod, Nat.shiftRight_eq_div_pow]

theorem toNat_eq_zero_iff {w : Nat} {y : BitVec w} : y.toNat = 0 ↔ y = 0 := by
  rw [← BitVec.toNat_inj]
  simp

theorem ofNat_allOnes (w : Nat) : BitVec.ofNat w (2 ^ w - 1) = BitVec.allOnes w := by
  apply BitVec.eq_of_toNat_eq
  rw [BitVec.toNat_allOnes, BitVec.toNat_ofNat, Nat.mod_eq_of_lt (Nat.sub_one_lt (Nat.two_pow_pos w).ne')]

theorem ofNat_divS {w : Nat} (x y : BitVec w) : BitVec.ofNat w (divS w x.toNat y.toNat)
    = if y = 0 then BitVec.allOnes w else x.sdiv y := by
  simp only [divS, toNat_eq_zero_iff, sextN_toNat]
  split
  · exact ofNat_allOnes w
  · rw [ofNat_wrapN]
    apply BitVec.eq_of_toInt_eq
    rw [BitVec.toInt_ofInt, BitVec.toInt_sdiv]

theorem ofNat_divU {w : Nat} (x y : BitVec w) : BitVec.ofNat w (divU w x.toNat y.toNat)
    = if y = 0 then BitVec.allOnes w else x / y := by
  simp only [divU, toNat_eq_zero_iff]
  split
  · exact ofNat_allOnes w
  · exact BitVec.udiv_def.symm

theorem ofNat_remS {w : Nat} (x y : BitVec w) : BitVec.ofNat w (remS w x.toNat y.toNat)
    = if y = 0 then x else x.srem y := by
  simp only [remS, toNat_eq_zero_iff, sextN_toNat]
  split
  · exact ofNat_toNat_self x
  · rw [ofNat_wrapN, ← BitVec.toInt_srem, BitVec.ofInt_toInt]

theorem ofNat_remU {w : Nat} (x y : BitVec w) : BitVec.ofNat w (remU x.toNat y.toNat) = if y = 0 then x else x % y := by
  simp only [remU, toNat_eq_zero_iff]
  split
  · exact ofNat_toNat_self x
  · exact BitVec.umod_def.symm

/-- One of two numbers, by a test and by its opposite. -/
theorem ofNat_ite {w : Nat} (x y : BitVec w) {p q : Prop} [Decidable p] [Decidable q] (h : ¬p ↔ q) :
    BitVec.ofNat w (if p then x.toNat else y.toNat) = if q then y else x := by
  rw [apply_ite (BitVec.ofNat w), ofNat_toNat_self, ofNat_toNat_self, ← ite_not]
  simp only [h]

theorem ofNat_minS {w : Nat} (x y : BitVec w) :
    BitVec.ofNat w (if sextN w x.toNat ≤ sextN w y.toNat then x.toNat else y.toNat) = if y.slt x then y else x :=
  ofNat_ite x y (by rw [sextN_toNat, sextN_toNat, Int.not_le, BitVec.slt_iff_toInt_lt])

theorem ofNat_maxS {w : Nat} (x y : BitVec w) :
    BitVec.ofNat w (if sextN w x.toNat ≥ sextN w y.toNat then x.toNat else y.toNat) = if x.slt y then y else x :=
  ofNat_ite x y (by rw [sextN_toNat, sextN_toNat, ge_iff_le, Int.not_le, BitVec.slt_iff_toInt_lt])

theorem ofNat_minU {w : Nat} (x y : BitVec w) : BitVec.ofNat w (min x.toNat y.toNat) = if y < x then y else x := by
  rw [Nat.min_def]
  exact ofNat_ite x y Nat.not_le

theorem ofNat_maxU {w : Nat} (x y : BitVec w) : BitVec.ofNat w (max x.toNat y.toNat) = if x < y then y else x := by
  rw [Nat.max_comm, Nat.max_def]
  exact ofNat_ite x y Nat.not_le

theorem ofNat_absS {w : Nat} (x : BitVec w) : BitVec.ofNat w (absS w x.toNat) = x.abs := by
  rw [absS, sextN_toNat, ofNat_wrapN, BitVec.abs_eq, BitVec.msb_eq_toInt]
  by_cases h : x.toInt < 0
  · rw [Int.ofNat_natAbs_of_nonpos h.le, BitVec.ofInt_neg, BitVec.ofInt_toInt, decide_eq_true h, if_pos rfl]
  · rw [Int.natAbs_of_nonneg (Int.not_lt.1 h), BitVec.ofInt_toInt, decide_eq_false h, if_neg Bool.false_ne_true]

/-! ### Shifts and counts (08 R248) -/

/-- A part outside a mask and a part under it are added by OR. -/
theorem add_eq_or_of_mask {w : Nat} (x y m : BitVec w) : (x &&& ~~~m) + (y &&& m) = (x &&& ~~~m) ||| (y &&& m) := by
  apply BitVec.add_eq_or_of_and_eq_zero
  ext i
  cases hm : m[i] <;> simp [hm]

theorem sub_and_self {w : Nat} (x y : BitVec w) : x - (x &&& y) = x &&& ~~~y := by
  rw [sub_eq_iff_eq_add, add_eq_or_of_mask]
  ext i
  cases hy : y[i] <;> simp [hy]

theorem ofNat_sub_and {w : Nat} (x y : BitVec w) : BitVec.ofNat w (x.toNat - (x.toNat &&& y.toNat)) = x &&& ~~~y := by
  have hle : (x &&& y).toNat ≤ x.toNat := Nat.and_le_left
  rw [← BitVec.toNat_and, ← BitVec.ofNat_sub_ofNat_of_le _ _ (x &&& y).isLt hle, ofNat_toNat_self, ofNat_toNat_self,
    sub_and_self]

theorem ofNat_sarN {w : Nat} (x : BitVec w) (n : Nat) : BitVec.ofNat w (sarN w x.toNat n) = x.sshiftRight n := by
  rw [sarN, sextN_toNat, ofNat_wrapN, ← Int.shiftRight_eq_div_pow, ← BitVec.toInt_sshiftRight, BitVec.ofInt_toInt]

theorem ofNat_rolN {w : Nat} (x : BitVec w) {n : Nat} (h : n < w) : BitVec.ofNat w (rolN w x.toNat n) = x.rotateLeft n := by
  have hdisj : x <<< n &&& x >>> (w - n) = 0#w := by
    apply BitVec.eq_of_getLsbD_eq
    intro i _
    by_cases hin : i < n
    · simp [hin]
    · simp [BitVec.getLsbD_of_ge x (w - n + i) (by omega)]
  rw [BitVec.rotateLeft_def, Nat.mod_eq_of_lt h, ← BitVec.add_eq_or_of_and_eq_zero _ _ hdisj, ← ofNat_mul_two_pow,
    ← ofNat_div_two_pow, ← BitVec.ofNat_add, rolN]
  apply BitVec.eq_of_toNat_eq
  simp

theorem ofNat_clzN {w : Nat} (x : BitVec w) : BitVec.ofNat w (clzN w x.toNat) = x.clz := by
  unfold clzN log2Floor
  split
  · next h => exact (BitVec.clz_eq_iff_eq_zero.2 (toNat_eq_zero_iff.1 h)).symm
  · next h =>
    have hx : x ≠ 0#w := fun e => h (toNat_eq_zero_iff.2 e)
    have hw : x.clz.toNat < w := by
      have := BitVec.clz_lt_iff_ne_zero.2 hx
      simpa [BitVec.lt_def] using this
    have hlog : x.toNat.log2 = w - 1 - x.clz.toNat := (Nat.log2_eq_iff h).2
      ⟨BitVec.two_pow_sub_clz_le_toNat_of_ne_zero (by omega) hx, by
        have := BitVec.toNat_lt_two_pow_sub_clz (x := x)
        rwa [show w - 1 - x.clz.toNat + 1 = w - x.clz.toNat by omega]⟩
    rw [hlog, show w - 1 - (w - 1 - x.clz.toNat) = x.clz.toNat by omega, ofNat_toNat_self]

theorem cpopNatRec_eq_length_maskList (n m : Nat) {w : Nat} (x : BitVec w) :
    x.cpopNatRec n m = (maskList n x.toNat).length + m := by
  induction n generalizing m with
  | zero => simp [maskList]
  | succ n ih =>
    rw [BitVec.cpopNatRec_succ, ih]
    have hn : x.toNat.testBit n = x.getLsbD n := rfl
    cases hb : x.getLsbD n <;> simp +arith [maskList, List.range_succ, hn, hb]

theorem ofNat_popcN {w : Nat} (x : BitVec w) : BitVec.ofNat w (popcN w x.toNat) = x.cpop := by
  rw [popcN, ← Nat.add_zero (List.length _), ← cpopNatRec_eq_length_maskList]
  rfl

theorem brevN_succ (w a : Nat) : brevN (w + 1) a = 2 * brevN w a + b2n (a.testBit w) := by
  have hterm : ∀ i ∈ List.range w, b2n (a.testBit i) * 2 ^ (w + 1 - 1 - i) = 2 * (b2n (a.testBit i) * 2 ^ (w - 1 - i)) := by
    intro i hi
    have := List.mem_range.1 hi
    rw [show w + 1 - 1 - i = w - 1 - i + 1 by omega, Nat.pow_succ]
    ring
  rw [brevN, List.range_succ, List.map_append, List.sum_append, List.map_congr_left hterm, List.sum_map_mul_left]
  simp [brevN]

theorem testBit_brevN (w a i : Nat) : (brevN w a).testBit i = (decide (i < w) && a.testBit (w - 1 - i)) := by
  induction w generalizing i with
  | zero => simp [brevN]
  | succ w ih =>
    rw [brevN_succ]
    have hb : b2n (a.testBit w) < 2 ^ 1 := by
      unfold b2n
      split <;> omega
    rw [← Nat.pow_one 2, Nat.testBit_two_pow_mul_add _ hb]
    cases i with
    | zero => cases h : a.testBit w <;> simp [b2n, h]
    | succ i => simp [ih, Nat.sub_sub, Nat.add_comm]

theorem ofNat_brevN {w : Nat} (x : BitVec w) : BitVec.ofNat w (brevN w x.toNat) = x.reverse := by
  apply BitVec.eq_of_getLsbD_eq
  intro i hi
  rw [BitVec.getLsbD_ofNat, testBit_brevN, BitVec.getLsbD_reverse, BitVec.getMsbD, decide_eq_true hi, BitVec.testBit_toNat]
  rfl

/-! ### Bit fields (08 R249) -/

theorem bits_eq_fieldPos {w : Nat} (y : BitVec w) : bits y.toNat 5 0 = fieldPos y := by
  simp [bits, fieldPos]

theorem bits_eq_fieldLen {w : Nat} (y : BitVec w) : bits y.toNat 14 8 = fieldLen y := by
  simp [bits, fieldLen, Nat.shiftRight_eq_div_pow]

theorem ofNat_bfxN {w : Nat} (x y : BitVec w) : BitVec.ofNat w (bfxN w x.toNat y.toNat)
    = (x >>> fieldPos y) &&& BitVec.ofNat w (2 ^ fieldLen y - 1) := by
  apply BitVec.eq_of_getLsbD_eq
  intro i hi
  simp only [bfxN, bits_eq_fieldPos, bits_eq_fieldLen, Nat.mod_eq_of_lt x.isLt, BitVec.getLsbD_and,
    BitVec.getLsbD_ushiftRight, Nat.testBit_two_pow_sub_one, BitVec.getLsbD_ofNat, Nat.testBit_mod_two_pow,
    Nat.testBit_div_two_pow, BitVec.testBit_toNat, hi, decide_true, Bool.true_and]
  rw [Bool.and_comm, Nat.add_comm]

/-- The low bits of a number, below n and below the top, at position p are its bits under the mask of length l at p. -/
theorem ofNat_field {w : Nat} (x : BitVec w) {p l : Nat} (hp : p ≤ w) :
    BitVec.ofNat w (x.toNat % 2 ^ min l (w - p) * 2 ^ p) = (x <<< p) &&& (BitVec.ofNat w (2 ^ l - 1) <<< p) := by
  apply BitVec.eq_of_getLsbD_eq
  intro i hi
  simp only [BitVec.getLsbD_ofNat, BitVec.getLsbD_and, BitVec.getLsbD_shiftLeft, Nat.testBit_two_pow_sub_one,
    Nat.testBit_mul_two_pow, Nat.testBit_mod_two_pow, BitVec.testBit_toNat, hi, decide_true, Bool.true_and]
  by_cases hpi : p ≤ i
  · have hlow : i - p < w := by omega
    have hmin : i - p < min l (w - p) ↔ i - p < l := by omega
    simp [hpi, hlow, hmin, Nat.not_lt.2 hpi, Bool.and_comm]
  · simp [hpi]

theorem shiftRight_shiftLeft_and {w : Nat} (x m : BitVec w) (p : Nat) : (x >>> p <<< p) &&& (m <<< p) = x &&& (m <<< p) := by
  apply BitVec.eq_of_getLsbD_eq
  intro i hi
  by_cases hp : i < p
  · simp [hp]
  · simp [hp, hi, Nat.add_sub_cancel' (Nat.not_lt.1 hp)]

theorem ofNat_bfiN {w : Nat} (d x y : BitVec w) : BitVec.ofNat w (bfiN w d.toNat x.toNat y.toNat)
    = (d &&& ~~~(BitVec.ofNat w (2 ^ fieldLen y - 1) <<< fieldPos y))
      ||| ((x <<< fieldPos y) &&& (BitVec.ofNat w (2 ^ fieldLen y - 1) <<< fieldPos y)) := by
  simp only [bfiN, bits_eq_fieldPos, bits_eq_fieldLen, Nat.mod_eq_of_lt x.isLt]
  generalize fieldPos y = p
  generalize fieldLen y = l
  split
  · next h =>
      rw [BitVec.shiftLeft_eq_zero h, BitVec.not_zero, BitVec.and_allOnes, BitVec.and_zero, BitVec.or_zero,
        ofNat_toNat_self]
  · next h =>
    have hp : p ≤ w := by omega
    have hold : BitVec.ofNat w (d.toNat / 2 ^ p % 2 ^ min l (w - p) * 2 ^ p) = d &&& (BitVec.ofNat w (2 ^ l - 1) <<< p) := by
      rw [← shiftRight_shiftLeft_and, ← ofNat_field _ hp, BitVec.toNat_ushiftRight, Nat.shiftRight_eq_div_pow]
    have hle : d.toNat / 2 ^ p % 2 ^ min l (w - p) * 2 ^ p ≤ d.toNat :=
      (Nat.mul_le_mul_right _ (Nat.mod_le _ _)).trans (Nat.div_mul_le_self _ _)
    rw [BitVec.ofNat_add, ofNat_field x hp, ← BitVec.ofNat_sub_ofNat_of_le _ _ (hle.trans_lt d.isLt) hle, hold,
      ofNat_toNat_self,
      sub_and_self, add_eq_or_of_mask]

/-! ### Conditions (07 R211) -/

theorem condition_toNat {w : Nat} (cc : BitVec 4) (x y : BitVec w) : condition cc w x.toNat y.toNat = compared cc x y := by
  unfold condition
  split_ifs with h0 h1 h2 h3 h4 h5 h6 h7 h8
  case neg =>
    have hcc : 9 ≤ cc.toNat := by bv_omega
    unfold compared
    split
    case h_10 => rfl
    all_goals omega
  all_goals
    subst cc
    simp [compared, sextN_toNat, BitVec.slt, BitVec.sle, BitVec.ult, BitVec.ule, BitVec.toNat_inj, bne, beq_eq_decide]

/-! ### Registers as bit vectors -/

theorem toNat_val (th : Thread) (e : Bool) (r : BitVec 5) : (th.val e r).toNat = th.rn e r.toNat := by
  rw [Thread.val, BitVec.toNat_ofNat, Nat.mod_eq_of_lt (Thread.rn_lt th e r.toNat)]

theorem put_ofNat (th : Thread) (e : Bool) (r : BitVec 5) (n : Nat) (taint : Bool) :
    th.put e r (BitVec.ofNat _ n) taint = th.wn e r.toNat n taint := by
  rw [Thread.put, BitVec.toNat_ofNat, Thread.wn_mod]

theorem put_val (th u : Thread) (e : Bool) (d a : BitVec 5) (taint : Bool) :
    th.put e d (u.val e a) taint = th.wn e d.toNat (u.rn e a.toNat) taint := put_ofNat ..

theorem put_val_wr (th u : Thread) (e : Bool) (d a : BitVec 5) (taint : Bool) :
    th.put e d (u.val e a) taint = th.wr e d.toNat (u.rd e a.toNat) taint := by
  rw [put_val, Thread.wn, Thread.rn, ofNat_toNat_self]

@[simp] theorem tainted_one (th : Thread) (e : Bool) (a : BitVec 5) : th.tainted e [a] = th.taintOf e a.toNat := by
  simp [Thread.tainted]

@[simp] theorem tainted_two (th : Thread) (e : Bool) (a b : BitVec 5) :
    th.tainted e [a, b] = (th.taintOf e a.toNat || th.taintOf e b.toNat) := by
  simp [Thread.tainted]

theorem width_pos (e : Bool) : 0 < width e := by cases e <;> decide

end Sys2Proof.Integers

namespace Sys2Proof.Machine

open Sys2Proof.Integers

/-! ### Words by shape -/

/-- A word of d, a and b computes a function of bit vectors where its function of numbers agrees with it. -/
theorem Binary.of_bin {c : OpRG → Instr} {fn : Nat → Nat → Nat → Nat} {op : (w : Nat) → BitVec w → BitVec w → BitVec w}
    (ex : OpRG → State → Host.Outcome State Fault Refusal) (hx : ∀ f s, exec (c f) s = ex f s)
    (he : ∀ f s, ex f s = execBin s (c f) f fn)
    (hv : ∀ (w : Nat) (x y : BitVec w), 0 < w → BitVec.ofNat w (fn w x.toNat y.toNat) = op w x y) : Binary c op := by
  intro f
  refine LaneWise.of_map (fun s => (hx f s).trans (he f s)) rfl rfl rfl fun p g t th hk => ?_
  rw [hk, ← hv _ _ _ (width_pos _), put_ofNat, toNat_val, toNat_val]
  simp only [tainted_two]

/-- A word of d, a, b and the old d. -/
theorem Ternary.of_tern {c : OpRG → Instr} {fn : Nat → Nat → Nat → Nat → Nat}
    {op : (w : Nat) → BitVec w → BitVec w → BitVec w → BitVec w}
    (ex : OpRG → State → Host.Outcome State Fault Refusal) (hx : ∀ f s, exec (c f) s = ex f s)
    (he : ∀ f s, ex f s = execTern s (c f) f fn)
    (hv : ∀ (w : Nat) (z x y : BitVec w), BitVec.ofNat w (fn w z.toNat x.toNat y.toNat) = op w z x y) : Ternary c op := by
  intro f
  refine LaneWise.of_map (fun s => (hx f s).trans (he f s)) rfl rfl rfl fun p g t th hk => ?_
  rw [hk, ← hv, put_ofNat, toNat_val, toNat_val, toNat_val]
  simp [Thread.tainted, Bool.or_assoc]

/-- A word of d and a. -/
theorem Unary.of_un {c : OpDA → Instr} {fn : Nat → Nat → Nat} {op : (w : Nat) → BitVec w → BitVec w}
    (ex : OpDA → State → Host.Outcome State Fault Refusal) (hx : ∀ f s, exec (c f) s = ex f s)
    (he : ∀ f s, ex f s = execUn s (c f) f fn)
    (hv : ∀ (w : Nat) (x : BitVec w), BitVec.ofNat w (fn w x.toNat) = op w x) : Unary c op := by
  intro f
  refine LaneWise.of_map (fun s => (hx f s).trans (he f s)) rfl rfl rfl fun p g t th hk => ?_
  rw [hk, ← hv, put_ofNat, toNat_val]
  simp

/-- A word of d and an immediate. -/
theorem Immediate.of_imm {c : OpRI → Instr} {fn : Nat → Nat → BitVec 14 → Nat}
    {op : (w : Nat) → BitVec w → BitVec 14 → BitVec w}
    (ex : OpRI → State → Host.Outcome State Fault Refusal) (hx : ∀ f s, exec (c f) s = ex f s)
    (he : ∀ f s, ex f s = execImm s (c f) f true fn)
    (hv : ∀ (w : Nat) (x : BitVec w) (i : BitVec 14), BitVec.ofNat w (fn w x.toNat i) = op w x i) : Immediate c op := by
  intro f
  refine LaneWise.of_map (fun s => (hx f s).trans (he f s)) rfl rfl rfl fun p g t th hk => ?_
  rw [hk, ← hv, put_ofNat, toNat_val]
  simp

end Sys2Proof.Machine

namespace Sys2Proof.Claims

open Sys2Proof.Machine Sys2Proof.Integers

/-- Predicate logic (08 R241). -/
theorem PredicateLogic.of_plop {c : OpPlop → Instr} {fn op : Bool → Bool → Bool}
    (ex : OpPlop → State → Host.Outcome State Fault Refusal) (hx : ∀ f s, exec (c f) s = ex f s)
    (he : ∀ f s, ex f s = execPlop s (c f) f fn) (hv : ∀ x y, fn x y = op x y) : PredicateLogic c op := by
  intro f
  refine LaneWise.of_map (fun s => (hx f s).trans (he f s)) rfl rfl rfl fun p g t th _ => ?_
  rw [hv]
  rfl

/-- A shuffle (08 R243). -/
theorem Shuffle.of_shfl {c : OpRG → Instr} {source src : Nat → Nat → Option Nat}
    (ex : OpRG → State → Host.Outcome State Fault Refusal) (hx : ∀ f s, exec (c f) s = ex f s)
    (he : ∀ f s, ex f s = execShfl s (c f) f source) (hv : ∀ t b, source t b = src t b) : Shuffle c src := by
  intro f
  refine LaneWise.of_map (fun s => (hx f s).trans (he f s)) rfl rfl rfl fun p g t th hk => ?_
  dsimp only
  rw [hk, hv, toNat_val]
  simp only [tainted_two]
  cases src t (th.rn p.gk.exe f.b.toNat) with
  | none => simp only [put_val_wr]
  | some u =>
    by_cases hu : (p.acting g f.g).contains u
    · simp only [hu, ↓reduceIte, put_val_wr]
    · simp only [hu, Bool.false_eq_true, ↓reduceIte, put_val_wr]

end Sys2Proof.Claims

namespace Sys2Proof.Integers

open Sys2Proof Sys2Proof.Machine Sys2Proof.Claims Sys2Proof.Encoding

/-! ### The rows of the integer majors (07 R209) -/

theorem ne_of_lt_of_le {n : Nat} {x y z : BitVec n} (hyx : y ≤ x) (hzy : z < y) : x ≠ z := by
  rintro rfl
  exact absurd hzy (BitVec.not_lt.2 hyx)

theorem noRow_major08 : NoRow 0x08#6 6#5 := fun _ _ h => by simp [decMaj08, ne_of_lt_of_le h]

theorem noRow_major09 : NoRow 0x09#6 10#5 := fun _ _ h => by simp [decMaj09, ne_of_lt_of_le h]

theorem noRow_major0A : NoRow 0x0A#6 12#5 := fun _ _ h => by simp [decMaj0A, ne_of_lt_of_le h]

theorem noRow_major0B : NoRow 0x0B#6 2#5 := fun _ _ h => by simp [decMaj0B, ne_of_lt_of_le h]

theorem rowDA_abs : RowDA 0x09#6 8#5 .abs :=
  ⟨fun _ _ => by simp [decMaj09], fun _ _ hfn hb => by simp [decMaj09, hfn, hb]⟩

theorem rowDA_major0A :
    RowDA 0x0A#6 8#5 .clz ∧ RowDA 0x0A#6 9#5 .popc ∧ RowDA 0x0A#6 10#5 .brev ∧ RowDA 0x0A#6 11#5 .mov := by
  refine ⟨?_, ?_, ?_, ?_⟩
  all_goals exact ⟨fun _ _ => by simp [decMaj0A], fun _ _ hfn hb => by simp [decMaj0A, hfn, hb]⟩

/-! ### Words with meanings of their own -/

/-- SEL (08 R247): every selected lane executes it. -/
theorem laneWise_sel (f : OpSel) : LaneWise (.sel f) 7#3 [f.a.toNat, f.b.toNat, f.d.toNat] (fun p _ _ th =>
    (th.put p.gk.exe f.d (if th.pred f.pc then th.val p.gk.exe f.a else th.val p.gk.exe f.b)
      (th.tainted p.gk.exe [f.a, f.b])).advance) := by
  refine LaneWise.of_map (fun _ => rfl) rfl rfl rfl fun p g t th hk => ?_
  cases th.pred f.pc <;> simp [hk, put_val]

theorem laneWise_movi (f : OpRI) : LaneWise (.movi f) f.g [f.d.toNat] (fun p _ _ th =>
    (th.put p.gk.exe f.d (f.imm.signExtend _) false).advance) := by
  refine LaneWise.of_map (fun _ => rfl) rfl rfl rfl fun p g t th hk => ?_
  rw [hk, BitVec.signExtend, ← ofNat_wrapN, put_ofNat]
  rfl

theorem laneWise_movhi (f : OpRI) : LaneWise (.movhi f) f.g [f.d.toNat, f.d.toNat] (fun p _ _ th =>
    (th.put p.gk.exe f.d (th.val p.gk.exe f.d <<< 14 ||| f.imm.setWidth _) false).advance) := by
  refine LaneWise.of_map (fun _ => rfl) rfl rfl rfl fun p g t th hk => ?_
  have hw : 14 ≤ width p.gk.exe := by cases p.gk.exe <;> decide
  have hdisj : th.val p.gk.exe f.d <<< 14 &&& f.imm.setWidth _ = 0#(width p.gk.exe) := by
    apply BitVec.eq_of_getLsbD_eq
    intro i _
    by_cases hi : i < 14
    · simp [hi]
    · simp [BitVec.getLsbD_of_ge f.imm i (by omega)]
  rw [hk, ← BitVec.add_eq_or_of_and_eq_zero _ _ hdisj, ← ofNat_mul_two_pow, toNat_val, ← BitVec.ofNat_toNat,
    ← BitVec.ofNat_add, put_ofNat]

theorem laneWise_lea (f : OpLea) : LaneWise (.lea f) 7#3 [f.a.toNat, f.d.toNat] (fun _ _ _ th =>
    (th.put false f.d (th.val false f.a + f.off.signExtend _ <<< f.w.toNat) (th.tainted false [f.a])).advance) := by
  refine LaneWise.of_map (fun _ => rfl) rfl rfl rfl fun p g t th hk => ?_
  have hv : BitVec.ofNat (width false) (wrapN (width false) ((th.rn false f.a.toNat : Int) + memOffset f.off f.w.toNat))
      = th.val false f.a + f.off.signExtend _ <<< f.w.toNat := by
    rw [ofNat_wrapN, memOffset, BitVec.ofInt_add, BitVec.ofInt_natCast, ofInt_mul_two_pow]
    rfl
  rw [← hv, tainted_one]
  exact congrArg Thread.advance (put_ofNat ..).symm

theorem laneWise_cmp (f : OpCmp) : LaneWise (.cmp f) f.g [f.a.toNat, f.b.toNat] (fun p _ _ th =>
    ((th.setPred f.p1 (compared f.cc (th.val p.gk.exe f.a) (th.val p.gk.exe f.b))).setPred f.p2
      (!compared f.cc (th.val p.gk.exe f.a) (th.val p.gk.exe f.b))).advance) := by
  refine LaneWise.of_map (fun _ => rfl) rfl rfl rfl fun p g t th hk => ?_
  rw [hk, ← condition_toNat, toNat_val, toNat_val]
  rfl

/-- A vote (08 R243). -/
theorem laneWise_vote {c : OpVote → Instr} {fn : List Bool → Bool} {vote : List Nat → (Nat → Bool) → Bool}
    (ex : OpVote → State → Host.Outcome State Fault Refusal) (hx : ∀ f s, exec (c f) s = ex f s)
    (he : ∀ f s, ex f s = execVote s (c f) f fn) (hv : ∀ l x, fn (l.map x) = vote l x) (f : OpVote) :
    LaneWise (c f) f.g [] (fun p g _ th =>
      (th.setPred f.d (vote (p.acting g f.g) (fun u => (g.thr u).pred f.a))).advance) := by
  refine LaneWise.of_map (fun s => (hx f s).trans (he f s)) rfl rfl rfl fun p g t th _ => ?_
  rw [hv]

theorem laneWise_voteBallot (f : OpBallot) : LaneWise (.voteBallot f) f.g [f.d.toNat] (fun p g _ th =>
    (th.wn p.gk.exe f.d.toNat (((p.acting g f.g).filter (fun u => (g.thr u).pred f.a)).map (2 ^ ·)).sum false).advance) := by
  refine LaneWise.of_map (fun _ => rfl) rfl rfl rfl fun p g t th hk => ?_
  rw [hk, List.sum_map_ite]
  simp

end Sys2Proof.Integers

open Sys2Proof Sys2Proof.Machine Sys2Proof.Claims Sys2Proof.Encoding Sys2Proof.Integers

/-- Settles O1: each word is one of the shared shapes, whose function of numbers is that of the table on bit vectors. -/
theorem integerArithmeticComputesTheRules : Obligations.IntegerArithmeticComputesTheRules := by
  unfold Obligations.IntegerArithmeticComputesTheRules
  refine ⟨.of_bin execAdd (fun _ _ => rfl) (fun _ _ => rfl) ?add,
    .of_bin execSub (fun _ _ => rfl) (fun _ _ => rfl) fun _ x y _ => ofNat_sub x y,
    .of_bin execMul (fun _ _ => rfl) (fun _ _ => rfl) ?mul,
    .of_bin execMulhiS (fun _ _ => rfl) (fun _ _ => rfl) fun _ x y _ => ofNat_mulHiS x y,
    .of_bin execMulhiU (fun _ _ => rfl) (fun _ _ => rfl) fun _ x y _ => ofNat_mulHiU x y,
    .of_tern execMad (fun _ _ => rfl) (fun _ _ => rfl) ?mad,
    .of_bin execDivs (fun _ _ => rfl) (fun _ _ => rfl) fun _ x y _ => ofNat_divS x y,
    .of_bin execDivu (fun _ _ => rfl) (fun _ _ => rfl) fun _ x y _ => ofNat_divU x y,
    .of_bin execRems (fun _ _ => rfl) (fun _ _ => rfl) fun _ x y _ => ofNat_remS x y,
    .of_bin execRemu (fun _ _ => rfl) (fun _ _ => rfl) fun _ x y _ => ofNat_remU x y,
    .of_bin execMinS (fun _ _ => rfl) (fun _ _ => rfl) fun _ x y _ => ofNat_minS x y,
    .of_bin execMinU (fun _ _ => rfl) (fun _ _ => rfl) fun _ x y _ => ofNat_minU x y,
    .of_bin execMaxS (fun _ _ => rfl) (fun _ _ => rfl) fun _ x y _ => ofNat_maxS x y,
    .of_bin execMaxU (fun _ _ => rfl) (fun _ _ => rfl) fun _ x y _ => ofNat_maxU x y,
    .of_un execAbs (fun _ _ => rfl) (fun _ _ => rfl) fun _ x => ofNat_absS x, laneWise_sel,
    ?_, ?_, ?_, ?_, ?_, ?_, noRow_major08, ?_, ?_, ?_, ?_, ?_, ?_, ?_, ?_, rowDA_abs, ?_, noRow_major09⟩
  case add => exact fun w x y _ => by rw [BitVec.ofNat_add, ofNat_toNat_self, ofNat_toNat_self]
  case mul => exact fun w x y _ => by rw [BitVec.ofNat_mul, ofNat_toNat_self, ofNat_toNat_self]
  case mad =>
    intro w z x y
    rw [BitVec.ofNat_add, BitVec.ofNat_mul, ofNat_toNat_self, ofNat_toNat_self, ofNat_toNat_self]
  all_goals exact fun _ _ => by simp [decMaj08, decMaj09]

/-- Settles O2: as O1, by the functions of the tables of logic, shifts and bit fields. -/
theorem logicShiftsAndBitFieldsComputeTheRules : Obligations.LogicShiftsAndBitFieldsComputeTheRules := by
  unfold Obligations.LogicShiftsAndBitFieldsComputeTheRules
  obtain ⟨hclz, hpopc, hbrev, hmov⟩ := rowDA_major0A
  refine ⟨.of_bin execAnd (fun _ _ => rfl) (fun _ _ => rfl) ?and, .of_bin execOr (fun _ _ => rfl) (fun _ _ => rfl) ?or,
    .of_bin execXor (fun _ _ => rfl) (fun _ _ => rfl) ?xor,
    .of_bin execAndn (fun _ _ => rfl) (fun _ _ => rfl) fun _ x y _ => ofNat_sub_and x y,
    .of_bin execShl (fun _ _ => rfl) (fun _ _ => rfl) fun _ x _ _ => ofNat_mul_two_pow x _,
    .of_bin execShr (fun _ _ => rfl) (fun _ _ => rfl) fun _ x _ _ => ofNat_div_two_pow x _,
    .of_bin execSar (fun _ _ => rfl) (fun _ _ => rfl) fun _ x _ _ => ofNat_sarN x _,
    .of_bin execRol (fun _ _ => rfl) (fun _ _ => rfl) fun _ x _ hw => ofNat_rolN x (Nat.mod_lt _ hw),
    .of_un execClz (fun _ _ => rfl) (fun _ _ => rfl) fun _ x => ofNat_clzN x,
    .of_un execPopc (fun _ _ => rfl) (fun _ _ => rfl) fun _ x => ofNat_popcN x,
    .of_un execBrev (fun _ _ => rfl) (fun _ _ => rfl) fun _ x => ofNat_brevN x,
    .of_un execMov (fun _ _ => rfl) (fun _ _ => rfl) fun _ x => ofNat_toNat_self x,
    .of_bin execBfx (fun _ _ => rfl) (fun _ _ => rfl) fun _ x y _ => ofNat_bfxN x y,
    .of_tern execBfi (fun _ _ => rfl) (fun _ _ => rfl) fun _ z x y => ofNat_bfiN z x y,
    ?_, ?_, ?_, ?_, ?_, ?_, ?_, ?_, hclz, hpopc, hbrev, hmov, noRow_major0A, ?_, ?_, noRow_major0B⟩
  case and => exact fun w x y _ => by rw [BitVec.ofNat_and, ofNat_toNat_self, ofNat_toNat_self]
  case or => exact fun w x y _ => by rw [BitVec.ofNat_or, ofNat_toNat_self, ofNat_toNat_self]
  case xor => exact fun w x y _ => by rw [BitVec.ofNat_xor, ofNat_toNat_self, ofNat_toNat_self]
  all_goals exact fun _ _ => by simp [decMaj0A, decMaj0B]

/-- Settles O3: the words of immediates by the shape that reads d, the words of lanes by the lanes that act. -/
theorem immediatesComparesAndLanesFollowTheRules : Obligations.ImmediatesComparesAndLanesFollowTheRules := by
  unfold Obligations.ImmediatesComparesAndLanesFollowTheRules
  refine ⟨laneWise_movi, laneWise_movhi, .of_imm execAddImm (fun _ _ => rfl) (fun _ _ => rfl) ?add,
    .of_imm execAndImm (fun _ _ => rfl) (fun _ _ => rfl) ?and, .of_imm execOrImm (fun _ _ => rfl) (fun _ _ => rfl) ?or,
    .of_imm execXorImm (fun _ _ => rfl) (fun _ _ => rfl) ?xor,
    .of_imm execShlImm (fun _ _ => rfl) (fun _ _ => rfl) fun _ x _ => ofNat_mul_two_pow x _,
    .of_imm execShrImm (fun _ _ => rfl) (fun _ _ => rfl) fun _ x _ => ofNat_div_two_pow x _, laneWise_lea, laneWise_cmp,
    .of_plop execPlopAnd (fun _ _ => rfl) (fun _ _ => rfl) fun _ _ => rfl,
    .of_plop execPlopOr (fun _ _ => rfl) (fun _ _ => rfl) fun _ _ => rfl,
    .of_plop execPlopXor (fun _ _ => rfl) (fun _ _ => rfl) fun _ _ => rfl,
    .of_plop execPlopAndn (fun _ _ => rfl) (fun _ _ => rfl) fun _ _ => rfl,
    laneWise_vote execVoteAny (fun _ _ => rfl) (fun _ _ => rfl) fun _ _ => List.any_map,
    laneWise_vote execVoteAll (fun _ _ => rfl) (fun _ _ => rfl) fun _ _ => List.all_map, laneWise_voteBallot,
    fun _ => .of_map (fun _ => rfl) rfl rfl rfl fun _ _ _ _ _ => rfl,
    .of_shfl execShflIdx (fun _ _ => rfl) (fun _ _ => rfl) fun _ _ => rfl,
    .of_shfl execShflUp (fun _ _ => rfl) (fun _ _ => rfl) ?up,
    .of_shfl execShflDown (fun _ _ => rfl) (fun _ _ => rfl) ?down,
    .of_shfl execShflXor (fun _ _ => rfl) (fun _ _ => rfl) fun _ _ => rfl⟩
  case add => exact fun w x i => by rw [lowBits, ofNat_wrapN, BitVec.ofInt_add, BitVec.ofInt_natCast, ofNat_toNat_self]; rfl
  case and => exact fun w x i => by rw [BitVec.ofNat_and, lowBits, ofNat_wrapN, ofNat_toNat_self]; rfl
  case or => exact fun w x i => by rw [BitVec.ofNat_or, ofNat_toNat_self, BitVec.ofNat_toNat]
  case xor => exact fun w x i => by rw [BitVec.ofNat_xor, ofNat_toNat_self, BitVec.ofNat_toNat]
  case up => exact fun t b => by simp only [gt_iff_lt, ← Nat.not_le, ite_not]
  case down => exact fun t b => by simp only [gt_iff_lt, ← Nat.not_le, ite_not]

end

section
/-! PROOFS. The words of handlers, breakpoints and markers (08 R233 to R239), and what they settle: O13. -/

namespace Sys2Proof.Handlers

open Sys2Proof Sys2Proof.Machine Sys2Proof.Claims Sys2Proof.Integers

/-! ### Words whose lanes act in turn -/

/-- A word whose acting lanes are done, with its registers full, acts on its lanes in turn. -/
theorem lanesInTurn_of_done {i : Instr} {q : BitVec 3} {rs ds : List Nat} {op : Op} {C : State → ThreadKey → Prop}
    {one : State → ThreadKey → State} {act : State → ThreadKey → Act} (he : ∀ s, exec i s = execLanes s i op act)
    (hq : op.guard = q) (hrs : op.srcs.map Prod.fst ++ op.dsts = rs) (hds : op.dsts = ds) (hbar : op.bars = [])
    (ha : ∀ s th, C s th → act s th = .done (one s th)) : LanesInTurn i q rs ds C one :=
  .of_lanes (op := fun _ => op) (misuse := fun _ _ => false) he (fun _ => hq) (fun _ => hrs) (fun _ => hds)
    (fun _ _ _ _ => ⟨rfl, Pass.unbarred_nil hbar⟩) ha

/-- A word whose acting lanes leave the pass. -/
theorem lanesLeave_of_left {i : Instr} {q : BitVec 3} {rs ds : List Nat} {op : Op} {C : State → ThreadKey → Prop}
    {one : State → ThreadKey → State} {act : State → ThreadKey → Act} (he : ∀ s, exec i s = execLanes s i op act)
    (hq : op.guard = q) (hrs : op.srcs.map Prod.fst ++ op.dsts = rs) (hds : op.dsts = ds) (hbar : op.bars = [])
    (ha : ∀ s th, C s th → (act s th).left = some (one s th)) : LanesLeave i q rs ds C one :=
  .of_lanes (op := fun _ => op) (misuse := fun _ _ => false) he (fun _ => hq) (fun _ => hrs) (fun _ => hds)
    (fun _ _ _ _ => ⟨rfl, Pass.unbarred_nil hbar⟩) ha

/-! ### TRAP, URET, SETUV, BKPT (08 R233, R234, R237, R238) -/

theorem lanesLeave_trap (f : OpACode) : LanesLeave (.trap f) f.g [f.a.toNat] [] (fun _ _ => True) (fun s th =>
    let t := s.thread th
    s.takeTrap th { TrapInfo.at .trap t.pc with
      resume := t.pc + 4, hc := f.b.toNat * 2 ^ 16, r29 := t.rn th.gk.exe f.a.toNat }) :=
  lanesLeave_of_left (fun _ => rfl) rfl rfl rfl rfl fun _ _ _ => rfl

theorem lanesInTurn_uret (f : OpG) : LanesInTurn (.uret f) f.g [] [] (fun s th => (s.thread th).uin = true)
    (onThread (fun t => { t with pc := t.uepc, uin := false, xfer := false })) :=
  lanesInTurn_of_done (fun _ => rfl) rfl rfl rfl rfl fun _ _ h => if_pos h

theorem lanesLeave_uret (f : OpG) : LanesLeave (.uret f) f.g [] [] (fun s th => (s.thread th).uin = false) takesIllop :=
  lanesLeave_of_left (fun _ => rfl) rfl rfl rfl rfl fun s th h => by
    rw [if_neg (Bool.not_eq_true _ ▸ h)]
    rfl

/-- The address that a register names, by its bits. -/
theorem regTarget_eq_named (e : Bool) (pc : Pc) (th : Thread) (a : BitVec 5) :
    regTarget e pc (th.rd e a.toNat) = named e pc th a := by
  cases e with
  | false =>
    show (th.rd false a.toNat).setWidth 57 = BitVec.ofNat 57 (th.rd false a.toNat).toNat
    exact (BitVec.ofNat_toNat _ _).symm
  | true =>
    have hlow : BitVec.ofNat 32 (th.rn true a.toNat) = (th.rd true a.toNat).setWidth 32 := BitVec.ofNat_toNat _ _
    simp only [regTarget, named, ↓reduceIte, hlow]
    apply BitVec.eq_of_getLsbD_eq
    intro i hi
    have happ := BitVec.getLsbD_append (x := pc.extractLsb' 32 25) (y := (th.rd true a.toNat).setWidth 32) (i := i)
    refine Eq.trans ?_ happ.symm
    by_cases hlo : i < 32
    · simp [hlo, hi]
    · have hhi : i - 32 < 25 := by omega
      simp [hlo, hi, hhi]

theorem lanesInTurn_setuv (f : OpDA) : LanesInTurn (.setuv f) f.g [f.a.toNat, f.d.toNat] [f.d.toNat]
    (fun s th => (named th.gk.exe (s.thread th).pc (s.thread th) f.a).extractLsb' 0 2 = 0#2)
    (fun s th =>
      let t := s.thread th
      let old := ((s.group th.gk).map (fun g => g.uvec)).getD 0
      let new : Dword := if t.rn th.gk.exe f.a.toNat = 0 then 0 else (named th.gk.exe t.pc t f.a).setWidth 64
      (s.modGroup th.gk (fun g => { g with uvec := new })).modThread th (fun t =>
        (t.wn th.gk.exe f.d.toNat old.toNat false).advance)) :=
  lanesInTurn_of_done (fun _ => rfl) rfl rfl rfl rfl fun s th h => by
    have hzero : (s.thread th).rn th.gk.exe f.a.toNat = 0 ↔ (s.thread th).rd th.gk.exe f.a.toNat = 0 := toNat_eq_zero_iff
    simp [regTarget_eq_named, h, hzero, Thread.wn]

theorem lanesInTurn_bkpt (f : OpCode) : LanesInTurn (.bkpt f) f.g [] []
    (fun s th => (s.core (s.coreOf th.gk.team)).dbg0.getLsbD 0 = false) (onThread Thread.advance) :=
  lanesInTurn_of_done (fun _ => rfl) rfl rfl rfl rfl fun _ _ h => by
    rw [if_neg (Bool.not_eq_true _ ▸ h)]
    rfl

theorem lanesLeave_bkpt (f : OpCode) : LanesLeave (.bkpt f) f.g [] []
    (fun s th => (s.core (s.coreOf th.gk.team)).dbg0.getLsbD 0 = true) (fun s th => s.debugStopAs th f.b.toNat 1) :=
  lanesLeave_of_left (fun _ => rfl) rfl rfl rfl rfl fun _ _ h => by
    rw [if_pos h]
    rfl

/-! ### MARK (08 R235, 16 R418) -/

/-- A state whose pass, teams and debug registers of the cores are those of s: markers are traced in it as in s. -/
def SameMarking (s t : State) : Prop := t.pass = s.pass ∧ t.teams = s.teams ∧ ∀ n, (t.core n).dbg0 = (s.core n).dbg0

theorem SameMarking.marking {s t : State} (h : SameMarking s t) : t.marking = s.marking := by
  obtain ⟨hp, ht, hc⟩ := h
  simp only [State.marking, hp, hc, State.coreOf, State.team, ht]

theorem SameMarking.modThread {s t : State} (h : SameMarking s t) (th : ThreadKey) (f : Thread → Thread) :
    SameMarking s (t.modThread th f) := h

theorem SameMarking.hbmWrite {s t : State} (h : SameMarking s t) (slot pa : Nat) (bs : List Byte) :
    SameMarking s (t.hbmWrite slot pa bs) := by
  unfold State.hbmWrite
  dsimp only
  split_ifs <;> exact h

theorem SameMarking.writePhys {s t : State} (h : SameMarking s t) (slot pa : Nat) (bs : List Byte) :
    SameMarking s (t.writePhys slot pa bs) := by
  unfold State.writePhys
  refine List.foldlRecOn (motive := SameMarking s) _ _ h fun u hu p _ => ?_
  have copies (l : List L2Line) : SameMarking s { u with l2 := l } := hu
  exact (copies _).hbmWrite _ _ _

theorem core_dropL1_dbg0 (s : State) (pa n c : Nat) : ((s.dropL1 pa n).core c).dbg0 = (s.core c).dbg0 := by
  unfold State.core State.dropL1
  dsimp only
  induction s.cores with
  | nil => rfl
  | cons x xs ih =>
    by_cases hx : x.1 = c
    · simp [tabGet, hx]
    · simpa [tabGet, hx] using ih

theorem SameMarking.dropL1 {s t : State} (h : SameMarking s t) (pa n : Nat) : SameMarking s (t.dropL1 pa n) := by
  obtain ⟨hp, ht, hc⟩ := h
  exact ⟨hp, ht, fun c => (core_dropL1_dbg0 t pa n c).trans (hc c)⟩

theorem SameMarking.trace {s t : State} (h : SameMarking s t) (th : ThreadKey) (pc : Pc) (value code type : Nat) :
    SameMarking s (t.trace th pc value code type) := by
  unfold State.trace
  dsimp only
  split_ifs
  · exact h
  · exact (h.writePhys _ _ _).dropL1 _ _

/-- What each lane keeps, each lane meets in its turn. -/
theorem meetsInTurn_of_kept {p : Pass} {g : Group} {q : BitVec 3} {C : State → ThreadKey → Prop}
    {one : State → ThreadKey → State}
    {I : State → Prop} (hone : ∀ u th, I u → I (one u th)) (hadv : ∀ u th, I u → I (u.modThread th Thread.advance))
    (hC : ∀ u th, I u → C u th) (l : List Nat) {s : State} (hs : I s) : s.meetsInTurn p g q C one l := by
  induction l generalizing s with
  | nil => trivial
  | cons t ts ih =>
    refine ⟨fun _ => hC _ _ hs, ih ?_⟩
    split
    · exact hone _ _ hs
    · exact hadv _ _ hs

/-- What MARK does for a lane, with marker tracing enabled or not. -/
def marked (enabled : Bool) (f : OpACode) (s : State) (th : ThreadKey) : State :=
  let t := s.thread th
  (if enabled then s.trace th t.pc (t.rn th.gk.exe f.a.toNat) f.b.toNat 0 else s).modThread th Thread.advance

theorem SameMarking.marked {s t : State} (h : SameMarking s t) (enabled : Bool) (f : OpACode) (th : ThreadKey) :
    SameMarking s (marked enabled f t th) := by
  unfold Handlers.marked
  dsimp only
  split
  · exact (h.trace _ _ _ _ _).modThread _ _
  · exact h.modThread _ _

theorem exec_mark {f : OpACode} {s : State} {p : Pass} {g : Group} (hi : Issues s (.mark f) p g)
    (hr : s.marking = true → p.ready g f.g [f.a.toNat]) :
    exec (.mark f) s = .next ((s.inTurn p g f.g (marked s.marking f) p.sel).withSel p.sel) := by
  refine execLanes_done (op := { guard := f.g, srcs := if s.marking then [srcP f.a f.pa] else [], dsts := [] })
    (misuse := fun _ => false) (C := fun u _ => SameMarking s u) hi rfl (Pass.unbarred_nil rfl) ?act ?ready ?turns
  case act =>
    intro u th hu
    dsimp only
    rw [hu.marking]
    rfl
  case ready =>
    cases hm : s.marking with
    | true => exact hr hm
    | false => exact fun _ _ _ h => absurd h List.not_mem_nil
  case turns =>
    exact meetsInTurn_of_kept (I := SameMarking s) (fun _ th h => h.marked _ f th) (fun _ _ h => h)
      (fun _ _ h => ⟨fun _ _ _ h => absurd h List.not_mem_nil, h⟩) p.sel ⟨rfl, rfl, fun _ => rfl⟩

/-! ### ICSYNC (08 R239) -/

theorem exec_icsync {f : OpG} {s : State} {p : Pass} {g : Group} (hi : Issues s (.icsync f) p g) :
    exec (.icsync f) s = .next (
      let t := s.afterLanes p g f.g (fun _ th => th.advance)
      if p.acting g f.g = [] then t else t.modGroup p.gk (fun h => { h with loop := none })) := by
  obtain ⟨hp, hg, hf, hmid⟩ := hi
  have hany : p.sel.any (fun t => (g.thr t).pred f.g && !p.mid.contains t) = true ↔ ¬p.acting g f.g = [] := by
    simp [Pass.acting, hmid, List.filter_eq_nil_iff]
  have hx : exec (.icsync f) s = execIcsync f s := rfl
  rw [hx, execIcsync]
  simp only [withPass, hp, hg, hf]
  rw [runMap_ready (q := f.g) hp hg hmid (fun _ _ => rfl) (fun _ => rfl) (fun _ _ _ h => absurd h List.not_mem_nil)]
  simp only [hany, ite_not]

end Sys2Proof.Handlers

open Sys2Proof Sys2Proof.Machine Sys2Proof.Claims Sys2Proof.Handlers

/-- Settles O13: each word's lanes act, or leave, in their turn; what MARK traces leaves markers enabled as they were. -/
theorem handlerAndMarkerWordsFollowTheRules : Obligations.HandlerAndMarkerWordsFollowTheRules := by
  unfold Obligations.HandlerAndMarkerWordsFollowTheRules
  refine ⟨lanesLeave_trap, lanesInTurn_uret, lanesLeave_uret, lanesInTurn_setuv, lanesInTurn_bkpt, lanesLeave_bkpt, ?mark,
    fun _ _ _ _ hi => exec_icsync hi⟩
  intro f s p g hi enabled hr
  have hm : s.marking = enabled := by simp [State.marking, hi.1, enabled]
  rw [← hm] at hr ⊢
  exact exec_mark hi hr

end

section
/-! PROOFS. A user-level cause that vectors its thread (08 R236, 14 R392, R393), and what it settles: O17. -/

namespace Sys2Proof.Vectoring

open Sys2Proof Sys2Proof.Machine Sys2Proof.Claims

/-! ### The handler bank (14 R392) -/

/-- A register of the bank: full, untainted, of the width of the slice. -/
def bankCell (e : Bool) (n : Nat) : RegCell := .mk' (BitVec.ofNat 64 (n % 2 ^ width e)) false

theorem bankCell_val (e : Bool) (n : Nat) : (bankCell e n).val.toNat = n % 2 ^ width e := by
  cases e <;> simp [bankCell, RegCell.mk', width]
  omega

theorem bank_eq (t : Thread) (e : Bool) (a b c d : Nat) :
    t.bank e a b c d = { t with regs := t.regs.take 32 ++ [bankCell e a, bankCell e b, bankCell e c, bankCell e d] } := by
  cases e <;> rfl

/-- A thread that a cause vectors: the bank filled, the handler entered (08 R236). -/
def entered (t : Thread) (e : Bool) (uvec : Dword) (i : TrapInfo) : Thread :=
  { t.bank e (i.hc + i.cause.code) i.r29 i.r30 i.r31 with
    uepc := i.resume, uin := true, pc := (uvec.setWidth 57) &&& ~~~3#57, xfer := true }

/-- The words of a record, by the register that names them in the handler. -/
def recordWord (i : TrapInfo) (r : Nat) : Nat :=
  [i.hc + i.cause.code, i.r29, i.r30, i.r31].getD (r - 28) 0

/-- In the handler, registers 28 to 31 are those of the bank. -/
theorem cell_entered {t : Thread} (hl : t.regs.length = 36) (e : Bool) (uvec : Dword) (i : TrapInfo) {r : Nat} (h28 : 28 ≤ r)
    (h32 : r < 32) : (entered t e uvec i).cell e r = bankCell e (recordWord i r) := by
  have hr : r = 28 ∨ r = 29 ∨ r = 30 ∨ r = 31 := by omega
  rcases hr with rfl | rfl | rfl | rfl <;> simp [entered, bank_eq, Thread.cell, cellIx, hl, recordWord]

theorem rn_entered {t : Thread} (hl : t.regs.length = 36) (e : Bool) (uvec : Dword) (i : TrapInfo) {r : Nat} (h28 : 28 ≤ r)
    (h32 : r < 32) : (entered t e uvec i).rn e r = recordWord i r % 2 ^ width e := by
  have hlt : recordWord i r % 2 ^ width e < 2 ^ width e := Nat.mod_lt _ (Nat.two_pow_pos _)
  rw [Thread.rn, Thread.rd, cell_entered hl e uvec i h28 h32]
  cases e with
  | false => exact bankCell_val false _
  | true =>
    have : recordWord i r % 2 ^ 32 < 2 ^ 32 := hlt
    simp only [↓reduceIte, BitVec.toNat_setWidth, bankCell_val, width]
    omega

/-- Outside the handler every register is as before. -/
theorem outside_entered {t : Thread} (hl : t.regs.length = 36) (hu : t.uin = false) (e : Bool) (uvec : Dword) (i : TrapInfo)
    {r : Nat} (hr : r < 32) : (outside (entered t e uvec i)).rn e r = t.rn e r := by
  have hcell : (outside (entered t e uvec i)).cell e r = t.cell e r := by
    have hlt : r < t.regs.length := by omega
    simp [outside, entered, bank_eq, Thread.cell, cellIx, hu, List.getElem?_append, hlt, hr]
  rw [Thread.rn, Thread.rd, hcell]
  rfl

/-- The two low bits of a PC cleared, by a mask and by shifts. -/
theorem and_not_three (x : Pc) : x &&& ~~~3#57 = (x >>> 2) <<< 2 := by
  apply BitVec.eq_of_getLsbD_eq
  intro i hi
  have h3 : (3#57).getLsbD i = decide (i < 2) := by
    rw [show 3#57 = BitVec.ofNat 57 (2 ^ 2 - 1) from rfl, BitVec.getLsbD_ofNat, Nat.testBit_two_pow_sub_one]
    simp [hi]
  rw [BitVec.getLsbD_and, BitVec.getLsbD_not, h3]
  by_cases h : i < 2
  · simp [h]
  · simp [h, hi, Nat.add_sub_cancel' (Nat.not_lt.1 h)]

/-! ### The state after a cause that vectors (08 R236, 14 R392, R393) -/

/-- A state whose groups, event queue, held records and memory are those of s. -/
def SameRecords (s t : State) : Prop := t.groups = s.groups ∧ t.evq = s.evq ∧ t.held = s.held ∧ t.mem = s.mem

theorem SameRecords.dropSlot {s t : State} (h : SameRecords s t) (k : TeamKey) (x : QSlot) :
    SameRecords s (t.dropSlot k x) := by
  unfold State.dropSlot
  split
  · split_ifs <;> exact h
  · exact h

/-- A group whose thread a cause vectors: no fragment set holds the bank any more. -/
def enteredGroup (g : Group) (thr : Nat) (e : Bool) (i : TrapInfo) : Group :=
  { g.modThr thr (fun t => entered t e g.uvec i) with
    sets := g.sets.map (fun x => if x.uin.contains thr && !x.cut.contains thr then { x with cut := x.cut ++ [thr] } else x) }

theorem enteredGroup_key (g : Group) (thr : Nat) (e : Bool) (i : TrapInfo) : (enteredGroup g thr e i).key = g.key := rfl

theorem thr_enteredGroup {g : Group} {thr : Nat} (ht : thr < g.threads.length) (e : Bool) (i : TrapInfo) :
    (enteredGroup g thr e i).thr thr = entered (g.thr thr) e g.uvec i :=
  (Group.thr_modThr ..).trans (if_pos ⟨rfl, ht⟩)

theorem thr_enteredGroup_ne (g : Group) {thr t : Nat} (h : thr ≠ t) (e : Bool) (i : TrapInfo) :
    (enteredGroup g thr e i).thr t = g.thr t :=
  (Group.thr_modThr ..).trans (if_neg fun ⟨he, _⟩ => h he)

theorem updAt_updAt {α : Type} (l : List α) (j : Nat) (f h : α → α) :
    updAt (updAt l j h) j f = updAt l j (fun x => f (h x)) := by
  apply List.ext_getElem?
  intro k
  simp only [getElem?_updAt]
  split
  · simp [Function.comp_def]
  · rfl

/-- Filling the bank discards what its registers held; then the thread enters the handler. -/
theorem vector_fillBank (s : State) (th : ThreadKey) (i : TrapInfo) :
    ∃ lost : List QSlot, (s.fillBank th (i.hc + i.cause.code) i.r29 i.r30 i.r31).vector th i.resume
      = (lost.foldl (fun u x => u.dropSlot th.gk.team x) s).modGroup th.gk (fun g => enteredGroup g th.thr th.gk.exe i) := by
  rw [State.vector, State.fillBank, State.modGroup_modGroup (hh := by exact fun _ => rfl)]
  refine ⟨_, congrArg (State.modGroup _ _) ?_⟩
  funext g
  simp only [Group.modThr, updAt_updAt]
  rfl

/-- A user-level cause that finds a handler and none running vectors its thread (14 R393). -/
theorem takeTrap_user {s : State} {th : ThreadKey} {g : Group} {i : TrapInfo} (hg : s.group th.gk = some g)
    (hc : i.cause.user = true) (hv : g.uvec ≠ 0) (hu : (g.thr th.thr).uin = false) :
    ∃ t, SameRecords s t ∧ s.takeTrap th i = t.modGroup th.gk (fun g => enteredGroup g th.thr th.gk.exe i) := by
  obtain ⟨lost, hvec⟩ := vector_fillBank s th i
  refine ⟨_, List.foldlRecOn (motive := SameRecords s) lost _ ⟨rfl, rfl, rfl, rfl⟩
    fun _ h x _ => h.dropSlot th.gk.team x, ?_⟩
  rw [← hvec, State.takeTrap, hg]
  exact if_pos (by simpa [hc, hu] using hv)

/-- A fragment set of registers 0 to 31 that has been cut for a thread, if it was popped in its handler, holds no register of its bank. -/
theorem covers_bank {b : SetBind} {thr c : Nat} (hb : b.base + (b.n + 1) / 2 ≤ 32)
    (hcut : b.uin.contains thr = true → b.cut.contains thr = true) (hc : 32 ≤ c) : b.covers thr c = false := by
  unfold SetBind.covers
  cases hu : b.uin.contains thr with
  | true => simp only [hcut hu, hc, decide_true, Bool.and_self, Bool.not_true, Bool.false_and]
  | false =>
    rw [Bool.and_eq_false_iff]
    refine .inr (List.any_eq_false.2 fun j hj => ?_)
    have hlt := List.mem_range.1 hj
    simp only [cellIx, Bool.false_and, Bool.false_eq_true, ↓reduceIte, beq_iff_eq]
    omega

theorem setOf_enteredGroup {g : Group} (hs : ∀ b ∈ g.sets, b.base + (b.n + 1) / 2 ≤ 32) (thr : Nat) (e : Bool)
    (i : TrapInfo) {c : Nat} (hc : 32 ≤ c) : (enteredGroup g thr e i).setOf thr c = none := by
  refine List.find?_eq_none.2 fun b hb => ?_
  obtain ⟨x, hx, rfl⟩ := List.mem_map.1 hb
  rw [Bool.not_eq_true]
  split
  · exact covers_bank (hs x hx) (fun _ => by simp) hc
  · next h => exact covers_bank (hs x hx) (fun hu => by
      simpa only [hu, Bool.true_and, Bool.not_eq_true', Bool.not_eq_false] using h) hc

/-- Every register of the bank is FULL in the group that a cause vectors (14 R392). -/
theorem regState_enteredGroup {g : Group} {thr : Nat} (ht : thr < g.threads.length) (hl : (g.thr thr).regs.length = 36)
    (hs : ∀ b ∈ g.sets, b.base + (b.n + 1) / 2 ≤ 32) (e : Bool) (i : TrapInfo) {r : Nat} (h28 : 28 ≤ r) (h32 : r < 32) :
    (enteredGroup g thr e i).regState e thr r = .full := by
  have hthr : (enteredGroup g thr e i).thr thr = entered (g.thr thr) e g.uvec i := thr_enteredGroup ht e i
  have hix : cellIx (entered (g.thr thr) e g.uvec i).uin r = r + 4 := if_pos (by simpa [entered] using h28)
  have hr : (!e && r == 0) = false := by
    have : r ≠ 0 := by omega
    simp [this]
  rw [Group.regState, hr, hthr, hix, setOf_enteredGroup hs thr e i (by omega), cell_entered hl e _ i h28 h32]
  rfl

end Sys2Proof.Vectoring

open Sys2Proof Sys2Proof.Machine Sys2Proof.Claims Sys2Proof.Vectoring

/-- Settles O17, by what the group of the thread becomes: its thread in the handler with the bank filled, its sets without the bank. -/
theorem userCausesVectorTheirThread : Obligations.UserCausesVectorTheirThread := by
  unfold Obligations.UserCausesVectorTheirThread
  intro s th g i hg hthr hl hc hv hu t u e
  obtain ⟨v, ⟨hgroups, hevq, hheld, hmem⟩, htrap⟩ := takeTrap_user hg hc hv hu
  have hsame : ∀ k, v.group k = s.group k := fun k => by rw [State.group, hgroups, State.group]
  have hgroup : ∀ k, (s.takeTrap th i).group k =
      if th.gk = k then (s.group k).map (fun g => enteredGroup g th.thr e i) else s.group k := by
    intro k
    rw [htrap, State.group_modGroup v th.gk k _ (fun g => enteredGroup_key g _ _ _), hsame]
  have hown : (s.takeTrap th i).group th.gk = some (enteredGroup g th.thr e i) := by
    rw [hgroup, if_pos rfl, hg]
    rfl
  have hthread : u = entered t e g.uvec i := (State.thread_eq hown).trans (thr_enteredGroup hthr e i)
  rw [hthread]
  refine ⟨rfl, rfl, and_not_three _, rfl, rn_entered hl e _ i (by decide) (by decide),
    rn_entered hl e _ i (by decide) (by decide), rn_entered hl e _ i (by decide) (by decide),
    rn_entered hl e _ i (by decide) (by decide), ?bank, ?state, fun r hr => outside_entered hl hu e _ i hr, ?others, ?_, ?_, ?_⟩
  case bank =>
    intro r h28 h32
    rw [Thread.taintOf, cell_entered hl e _ i h28 h32]
    exact ⟨Bool.and_false _, rfl⟩
  case state => exact fun hs => ⟨_, hown, fun r h28 h32 => regState_enteredGroup hthr hl hs e i h28 h32⟩
  case others =>
    rintro ⟨k, n⟩ hw
    by_cases hk : th.gk = k
    · subst hk
      have hne : th.thr ≠ n := fun hn => hw (by rw [← hn])
      rw [State.thread_eq (th := ⟨th.gk, n⟩) hown, State.thread_eq (th := ⟨th.gk, n⟩) hg]
      exact thr_enteredGroup_ne g hne e i
    · rw [State.thread, hgroup, if_neg hk, State.thread]
  all_goals
    rw [htrap]
    assumption

end
